-- ==== Sys2Proof/Word.lean ====
section
/-! DEFINITION. The word types of the machine (R5, R6, R138): bytes, 16-, 32-, 64- and 128-bit words. -/

namespace Sys2Proof

/-- One byte of memory (R6). -/
abbrev Byte := BitVec 8
/-- A 16-bit element (R85). -/
abbrev W16 := BitVec 16
/-- A register's 32 bits (R43). -/
abbrev W32 := BitVec 32
/-- A pair of registers, a virtual address or a lane mask of 64 lanes. -/
abbrev W64 := BitVec 64
/-- An instruction word (R138). -/
abbrev W128 := BitVec 128

end Sys2Proof
end

