-- ==== Sys2Proof/Config.lean ====
section
/-! DEFINITION. The values the manual leaves open. Each is an opaque constant: nothing in Lean can
evaluate it or prove a value of it. The counter `State.freeCtr` makes each draw a fresh one. -/

namespace Sys2Proof.Config

/-- A free value: the draw of a result the manual does not state, for a value of the counter and a
position (a lane, an element). -/
opaque freeWord : Nat → Nat → W64

/-- A free byte of a destination whose value the manual does not define (R365). -/
opaque freeByte : Nat → Nat → Byte

/-- The difference, in nanoseconds, of a die's module time from the latest one; the module keeps it at most
8 (R283). -/
opaque dieSkew : Nat → Nat

/-- The number by which endpoints name this module (R312). -/
opaque moduleNumber : BitVec 16

/-- The core cycles, less one, in which every unit of the module does the next thing that it can: a bound of the times of R41
that no program changes. -/
opaque servicePeriod : Nat

/-- The identity of the module that its die ROM reads (R319). -/
opaque moduleId : W64

/-- Whether an RSA-4096 signature, the second string, over a SHA-512 digest, the first one, checks against the key digest in
the die ROM (R318, R319). -/
opaque signatureChecks : List Byte → List Byte → Bool

/-- Where the boot image carries its signature, of which the manual says nothing: the bytes that are signed, and the signature
(R318). -/
opaque imageParts : List Byte → List Byte × List Byte

/-- The RSA-4096 signature, by the identity key, over a SHA-512 digest (R311): its byte at a position. -/
opaque signatureByte : List Byte → Nat → Byte

/-- The bytes that the rest of the fixed set of R299, to which the manual gives no layout, takes in the saved context of a
cluster, by the draw. -/
opaque contextBytes : Nat → Nat → Nat

/-- A word of the harbourmaster's constant bank, which the manual gives no launch (R377). -/
opaque supervisorBank : Nat → Nat → W32

end Sys2Proof.Config
end

