-- ==== Sys2Proof/Syntax.lean ====
section
/-! DEFINITION. The abstract syntax: one constructor of `Instr` per row of the opcode table. An
instruction of the processor carries the fields of the canonical word (R138) in the layout of its
class (R144); an event of the module carries what names the unit it happens to. -/

namespace Sys2Proof

/-- The type codes of R143. -/
inductive Ty where
  | f64 | f32 | bf16 | f16 | e4m3 | e5m2 | q4 | f32x2
  | i64 | i32 | i16 | i8 | n32 | n16 | n8 | b32
deriving DecidableEq, Repr

/-- An operand field of R43. -/
inductive Opnd where
  | near (i : BitVec 3)
  | vec (i : BitVec 8)
  | scal (i : BitVec 6)
  | kbank (i : Fin 192)
  | imm
  | none
deriving DecidableEq, Repr

/-- The element modifiers of R141. -/
inductive Modif where
  | packed | swh | swb | rvb | rtn
  | sel (i : BitVec 3)
deriving DecidableEq, Repr

/-- A source operand with its modifier and its absolute and negate bits (R141, R142). -/
structure Src where
  op : Opnd
  modif : Modif
  neg : Bool
  abs : Bool
deriving DecidableEq, Repr

/-- The guard predicate of R138 and R140. -/
structure Guard where
  neg : Bool
  idx : BitVec 3
deriving DecidableEq, Repr

/-- The rounding codes of R145. -/
inductive Rnd where
  | rne | rtz | rup | rdn | sr | dyn
deriving DecidableEq, Repr

/-- The access kinds of R146. -/
inductive Kind where
  | plain | rlx | acq | rel | ar | sc
deriving DecidableEq, Repr

/-- The scopes of R117 and R146. -/
inductive Scope where
  | blk | clu | stk | dom | pod | sys
deriving DecidableEq, Repr

/-- The fields every canonical word has (R138): lookahead, guard, operands, type, immediate. -/
structure Common where
  la : BitVec 4
  guard : Guard
  d : Opnd
  a : Src
  b : Src
  c : Src
  ty : Ty
  imm : W32
deriving DecidableEq, Repr

/-- The arithmetic class layout of R144. -/
structure ArithOp extends Common where
  rnd : Rnd
  sat : Bool
  mode : BitVec 4
  ext : BitVec 8
deriving DecidableEq, Repr

/-- The control class layout of R144. -/
structure CtlOp extends Common where
  cp : BitVec 3
  cn : Bool
  mode : BitVec 4
  ejt : Bool
  ejf : Bool
  jx : BitVec 3
deriving DecidableEq, Repr

/-- The memory and barrier class layout of R144. -/
structure MemOp extends Common where
  kind : Kind
  scope : Scope
  amode : BitVec 2
  hint : BitVec 4
  tag : BitVec 4
deriving DecidableEq, Repr

/-- The engine and collective class layout of R144. -/
structure EngOp extends Common where
  mode : BitVec 3
  gv : Bool
  gslot : BitVec 4
  ext : BitVec 8
deriving DecidableEq, Repr

/-- The training and system class layout of R144. -/
structure SysOp extends Common where
  mode : BitVec 8
  ext : BitVec 8
deriving DecidableEq, Repr

/-- Who issues instructions: a fragment of a width group on a physical core (R60), an ejected lane,
named by its home core and its thread (R77), or the harbourmaster of a partition (R268). -/
inductive Agent where
  | frag (core group fid : Nat)
  | ejected (core thread : Nat)
  | hm (part : Nat)
deriving DecidableEq, Repr

/-- Whose FIFO store queue (R57, R78): a hardware warp's, an ejected lane's, a harbourmaster's. -/
inductive FifoId where
  | warp (core h : Nat)
  | ejected (core thread : Nat)
  | hm (part : Nat)
deriving DecidableEq, Repr

/-- The engine queues of R238. -/
inductive QueueId where
  | copy (core : Nat)
  | matrix (pair : Nat)
  | coll (vd die : Nat)
deriving DecidableEq, Repr

/-- The sources of a TRANS fault (R322, DETAIL of TRANS). -/
inductive TransSource where
  | nearFile | latch | handover
deriving DecidableEq, Repr

/-- A storage location an uncorrectable error strikes (R362, R388). -/
inductive StorageLoc where
  | vreg (core group lane reg : Nat)
  | scratch (core off : Nat)
  | accum (core idx : Nat)
  | statBuf (pair buf quarter : Nat)
  | actTable (pair : Nat)
  | l2 (cluster line : Nat) (granule : Nat)
  | msc (pa : Nat) (dirty : Bool)
  | hbm (pa : Nat)
  | tender (core thread : Nat)
  | engine (q : QueueId) (pos : Nat)
  | spill (core warp slot : Nat)
  | feQueue (fe q pos : Nat)
  | placeTable (fe vd off : Nat)
  | vdRegs (fe vd : Nat)
  | capm (core : Nat)
  | memberTable (die vd x off : Nat)
deriving DecidableEq, Repr

/-- The stages of a reduction header (R313, R372). -/
inductive Stage where
  | expUp | expDown | dataUp | resultDown | abort
deriving DecidableEq, Repr

/-- A chunk message of R313: the member it comes from and the one it goes to, each an endpoint coded as PARENT of R312
(module in the high half, physical die in bits 4-0), with the virtual device and the member table it is sent for; the
32-byte reduction header; and the payload after it. The last two fields are the model's: the sender's command (kind,
TYPE, N, A, table), and that members gave different ones, after which the bytes written are not defined (R365). -/
structure ChunkMsg where
  src : W32
  dst : W32
  vd : Nat
  table : Nat
  header : BitVec 256
  payload : List Byte
  cmd : List Nat
  mixed : Bool
deriving DecidableEq, Repr

/-- A configuration record as the boot endpoint receives it, with the fabric address of the endpoint that delivered it
(R311, R318, R319). -/
structure BootSend where
  record : List Byte
  sender : List Byte
deriving DecidableEq, Repr

/-- The instructions and events of the opcode table, in its order. -/
inductive Instr where
  -- integer and logic (R160-R171)
  | iadd (w : ArithOp) | iaddx (w : ArithOp) | isub (w : ArithOp) | imul (w : ArithOp)
  | imulh (w : ArithOp) | imad (w : ArithOp) | imin (w : ArithOp) | imax (w : ArithOp)
  | iabs (w : ArithOp) | ineg (w : ArithOp) | icmp (w : ArithOp) | lea (w : ArithOp)
  | and (w : ArithOp) | or (w : ArithOp) | xor (w : ArithOp) | not (w : ArithOp)
  | tern (w : ArithOp) | shl (w : ArithOp) | shr (w : ArithOp) | sar (w : ArithOp)
  | rol (w : ArithOp) | funsh (w : ArithOp) | bfx (w : ArithOp) | bfi (w : ArithOp)
  | popc (w : ArithOp) | clz (w : ArithOp) | brev (w : ArithOp) | bytx (w : ArithOp)
  | mov (w : ArithOp) | sel (w : ArithOp) | cvti (w : ArithOp)
  -- floating point (R192-R201)
  | fadd (w : ArithOp) | fmul (w : ArithOp) | ffma (w : ArithOp) | fmin (w : ArithOp)
  | fmax (w : ArithOp) | fcmp (w : ArithOp) | frnd (w : ArithOp) | fcvt (w : ArithOp)
  | f2i (w : ArithOp) | i2f (w : ArithOp) | fdiv (w : ArithOp) | fsqrt (w : ArithOp)
  | frcp (w : ArithOp) | frsq (w : ArithOp) | fexp2 (w : ArithOp) | flog2 (w : ArithOp)
  | fsin (w : ArithOp) | fcos (w : ArithOp) | ftanh (w : ArithOp)
  | fclass (w : ArithOp) | fscalb (w : ArithOp) | ffrexp (w : ArithOp)
  -- narrow formats (R202-R205)
  | dot2 (w : ArithOp) | dot4 (w : ArithOp) | dot8 (w : ArithOp)
  | qcvt (w : ArithOp) | dqcvt (w : ArithOp) | sclmax (w : ArithOp)
  -- cross-lane (R206-R213)
  | lrd (w : ArithOp) | pcol (w : ArithOp) | redx (w : ArithOp) | scanx (w : ArithOp)
  | cmpx (w : ArithOp) | peer (w : ArithOp)
  -- control (R174-R185)
  | bru (w : CtlOp) | brd (w : CtlOp) | brx (w : CtlOp) | call (w : CtlOp) | callx (w : CtlOp)
  | ret (w : CtlOp) | exit (w : CtlOp) | rjset (w : CtlOp) | rjwait (w : CtlOp)
  | rjmovRead (w : CtlOp) | rjmovWrite (w : CtlOp) | elect (w : CtlOp) | nop (w : CtlOp)
  | sbeg (w : CtlOp) | yield (w : CtlOp) | sleep (w : CtlOp) | sleepWake (a : Agent)
  -- predicates, grants, format register (R172, R173, R186-R188)
  | plop (w : ArithOp) | p2s (w : ArithOp) | s2p (w : ArithOp)
  | rgrowWait (w : ArithOp) | rgrowTry (w : ArithOp) | rgrowGrant (core quad : Nat)
  | rshrink (w : ArithOp) | rqry (w : ArithOp)
  | fmtset (w : ArithOp) | fmtsetRm (w : ArithOp) | fmtsetSrs (w : ArithOp)
  | fmtget (w : ArithOp) | fmtgetSrs (w : ArithOp)
  -- memory (R214-R231)
  | ld (w : MemOp) | tagLanded (a : Agent) (tag : Nat) | land (w : MemOp) | st (w : MemOp)
  | lds (w : MemOp) | sts (w : MemOp) | ldc (w : MemOp) | gath (w : MemOp) | scat (w : MemOp)
  | ldgs (w : MemOp) | pref (w : MemOp) | cctlWb (w : MemOp) | cctlInv (w : MemOp)
  | cctlWball (w : MemOp) | cctlInvall (w : MemOp) | tst (w : MemOp) | tld (w : MemOp)
  | tldTmo (a : Agent) | atom (w : MemOp) | atoms (w : MemOp) | red (w : MemOp)
  | fence (w : MemOp) | storeDrain (f : FifoId)
  -- barriers (R232-R237)
  | bara (w : MemOp) | barw (w : MemOp) | bars (w : MemOp)
  | mbinit (w : MemOp) | mbarv (w : MemOp) | mbtst (w : MemOp) | mbwait (w : MemOp)
  -- engines (R238-R265)
  | tshldGl (w : EngOp) | tshldSp (w : EngOp) | tshpSet (w : EngOp) | tshpAdd (w : EngOp)
  | tshpAdd64 (w : EngOp) | tshstGl (w : EngOp) | tshstSp (w : EngOp) | cpy (w : EngOp)
  | gset (w : EngOp) | gsetClr (w : EngOp) | qfncCq (w : EngOp) | qfncMq (w : EngOp)
  | qfncKq (w : EngOp) | qwait (w : EngOp) | mldb (w : EngOp) | mma (w : EngOp) | macc (w : EngOp)
  | mtbl (w : EngOp) | coll (w : EngOp) | sigsSet (w : EngOp) | sigsAdd (w : EngOp)
  | queueAccept (q : QueueId) | guardTest (q : QueueId) | triggerMet (vd die : Nat)
  | cpyPerformed (core : Nat) | mldbPerformed (pair : Nat) | mmaPerformed (pair : Nat)
  | pchkmis (pair rows row col : Nat) | maccPerformed (pair : Nat) | mtblPerformed (pair : Nat)
  | qfncPerformed (q : QueueId) | collPerformed (vd die : Nat) | guardopen (q : QueueId)
  | chunkExponentUp (m : ChunkMsg) | chunkExponentDown (m : ChunkMsg) | chunkDataUp (m : ChunkMsg)
  | chunkResultDown (m : ChunkMsg) | collAbort (m : ChunkMsg)
  | collNeighbourTimeout (vd die : Nat) (endpoint : W32)
  -- training and system (R268-R283)
  | lsadjStep (w : SysOp) | lsadjSet (w : SysOp) | lsadjGet (w : SysOp)
  | ovfrRd (w : SysOp) | ovfrRdc (w : SysOp) | trap (w : SysOp) | brk (w : SysOp)
  | tret (w : SysOp) | halt (w : SysOp) | ctlr (w : SysOp) | ctlw (w : SysOp)
  | prst (part : Nat) | vdrst (vd : Nat)
  | plcq (w : SysOp) | capq (w : SysOp) | clkr (w : SysOp)
  -- events of execution and faults
  | trans (a : Agent) (src : TransSource) | uncorrectableError (loc : StorageLoc)
  | recordWrite (part : Nat) | rjtmo (core group j : Nat) | fragmentLoad (core quad : Nat)
  | ejectHandover (core thread : Nat) | ejectReturn (core thread : Nat) | pageWalkDone (walk : Nat)
  -- events of scheduling
  | gangForm (part : Nat) | blockRetire (core : Nat) | entryBegin (fe q : Nat)
  | periodBoundary (part : Nat) | sliceEnd (part : Nat) | blockTake (core : Nat)
  | forcedTake (core : Nat) | contextSave (part : Nat) | gangResume (part gang : Nat)
  | wdog (fe q : Nat)
  -- command records and remote accesses of the host
  | launch (fe : Nat) (hdr : BitVec 512) (bank : List W32) | waittag (fe : Nat) (hdr : BitVec 512)
  | waitsig (fe : Nat) (hdr : BitVec 512) | tlbinv (fe : Nat) (hdr : BitVec 512)
  | tlbinvPerformed (cmd : Nat) | icinv (fe : Nat) (hdr : BitVec 512) | icinvPerformed (cmd : Nat)
  | pageresp (fe : Nat) (hdr : BitVec 512) | heldRecordIntake (fe q : Nat)
  | remoteWrite (pa : Nat) (data : List Byte) | remoteRead (pa n : Nat) | msgResend (fe : Nat)
  -- capture
  | captureStart (vd : Nat) (value : W32) | pagePreserve (vd : Nat) (va : W64)
  -- register writes of the host
  | partitionEnable (part : Nat) (value : W32) | partitionDisable (part : Nat) (value : W32)
  | pcolorWrite (part : Nat) (value : W32) | genableClear (value : W32) | modrst (value : W32)
  | queueEnable (fe q : Nat) (value : W32) | queueDisable (fe q : Nat) (value : W32)
  | qwdtWrite (fe q : Nat) (value : W32) | vdEnable (fe vd : Nat) (value : W32)
  | vdDisable (fe vd : Nat) (value : W32) | vdResetComplete (vd : Nat)
  | placeTableWrite (fe vd off : Nat) (value : W32) | capmWrite (die off : Nat) (value : W32)
  | memberTableWrite (die vd x : Nat) (value : W32)
  | lossScaleHostWrite (fe vd sel : Nat) (value : W32) | hmRestart (part : Nat) (value : W32)
  | registerWrite (die off : Nat) (value : W32)
  -- the fabric, security and boot
  | linkDown (die link : Nat) | securityAlarm (src : BitVec 5)
  | bootRecord (sent : BootSend) (image : List Byte)
  | selfTestDone (results : List (Nat × Byte)) | linkUp (die link : Nat)
  -- completions
  | atomPerformed (a : Agent) | tstPerformed (a : Agent) | tldReturn (a : Agent)
  | correctableError (die level : Nat)
deriving DecidableEq, Repr

end Sys2Proof
end

