-- ==== Sys2Proof/WellFormed.lean ====
section
/-! DEFINITION. Well-formedness of an instruction: every check of R43, R44, R45, R51, R139 to R148
and of the entries that decoding makes on the word alone. A word that fails one decodes as illegal
(R151). An event is always well formed. -/

namespace Sys2Proof

/-- The width of one element of a type, in bits (R81, R84, R85); a pair type counts 64 bits. -/
def Ty.width : Ty → Nat
  | .f64 | .f32x2 | .i64 => 64
  | .f32 | .i32 | .n32 | .b32 => 32
  | .bf16 | .f16 | .i16 | .n16 => 16
  | .e4m3 | .e5m2 | .i8 | .n8 => 8
  | .q4 => 4

/-- The types whose operands name a pair of registers (R43). -/
def Ty.isPair (t : Ty) : Bool := t == .f64 || t == .f32x2 || t == .i64

/-- The registers one operand of the type spans. -/
def Ty.regs (t : Ty) : Nat := if t.isPair then 2 else 1

/-- The floating-point formats of R81, with the paired binary32 form. -/
def Ty.isFloat (t : Ty) : Bool :=
  t == .f64 || t == .f32 || t == .f32x2 || t == .f16 || t == .bf16 || t == .e4m3 || t == .e5m2

/-- The signed integer types of R84. -/
def Ty.isSignedInt (t : Ty) : Bool := t == .i64 || t == .i32 || t == .i16 || t == .i8

/-- The integer types of R84, without raw bits. -/
def Ty.isInt (t : Ty) : Bool := t.isSignedInt || t == .n32 || t == .n16 || t == .n8

/-- The code of a type (R143). -/
def Ty.code : Ty → BitVec 4
  | .f64 => 0x0#4 | .f32 => 0x1#4 | .bf16 => 0x2#4 | .f16 => 0x3#4
  | .e4m3 => 0x4#4 | .e5m2 => 0x5#4 | .q4 => 0x6#4 | .f32x2 => 0x7#4
  | .i64 => 0x8#4 | .i32 => 0x9#4 | .i16 => 0xA#4 | .i8 => 0xB#4
  | .n32 => 0xC#4 | .n16 => 0xD#4 | .n8 => 0xE#4 | .b32 => 0xF#4

/-- The type of a code (R143). -/
def Ty.ofCode (c : BitVec 4) : Ty :=
  match c.toNat with
  | 0 => .f64 | 1 => .f32 | 2 => .bf16 | 3 => .f16 | 4 => .e4m3 | 5 => .e5m2 | 6 => .q4
  | 7 => .f32x2 | 8 => .i64 | 9 => .i32 | 10 => .i16 | 11 => .i8 | 12 => .n32 | 13 => .n16
  | 14 => .n8 | _ => .b32

/-- Which operands a field admits: the levels of R43, whether it may be absent, and how many
registers it spans. -/
structure OpRule where
  n : Bool := false
  v : Bool := false
  s : Bool := false
  k : Bool := false
  i : Bool := false
  absent : Bool := false
  span : Nat := 1
deriving DecidableEq, Repr

/-- A field the entry does not use (R139). -/
def OpRule.unused : OpRule := { absent := true }
/-- Any source. -/
def OpRule.src (span : Nat := 1) : OpRule :=
  { n := true, v := true, s := true, k := true, i := true, span := span }
/-- Any source, or none. -/
def OpRule.srcOpt (span : Nat := 1) : OpRule := { OpRule.src span with absent := true }
/-- A register or constant-bank source, never the immediate (R214). -/
def OpRule.reg (span : Nat := 1) : OpRule :=
  { n := true, v := true, s := true, k := true, span := span }
/-- A scalar source or the immediate. -/
def OpRule.ski (span : Nat := 1) : OpRule := { s := true, k := true, i := true, span := span }
/-- A scalar register or constant word. -/
def OpRule.sk (span : Nat := 1) : OpRule := { s := true, k := true, span := span }
/-- Any destination of R44. -/
def OpRule.dst (span : Nat := 1) : OpRule :=
  { n := true, v := true, s := true, absent := true, span := span }
/-- A per-lane destination. -/
def OpRule.dstNV (span : Nat := 1) : OpRule := { n := true, v := true, absent := true, span := span }
/-- A scalar destination or none. -/
def OpRule.dstS (span : Nat := 1) : OpRule := { s := true, absent := true, span := span }
/-- The same rule with the operand required. -/
def OpRule.required (r : OpRule) : OpRule := { r with absent := false }
/-- The same rule without the near file, as R334 has it for a strand-ending instruction. -/
def OpRule.far (r : OpRule) : OpRule := { r with n := false }

/-- An operand admitted by a rule: its level, its range and the alignment of a span (R43, R214). -/
def OpRule.admits (r : OpRule) (o : Opnd) : Bool :=
  match o with
  | .near i => r.n && i.toNat % r.span == 0 && decide (i.toNat + r.span ≤ 8)
  | .vec i => r.v && i.toNat % r.span == 0 && decide (i.toNat + r.span ≤ 256)
  | .scal i => r.s && i.toNat % r.span == 0 && decide (i.toNat + r.span ≤ 64)
  | .kbank i => r.k && i.val % r.span == 0 && decide (i.val + r.span ≤ 192)
  | .imm => r.i
  | .none => r.absent

/-- The modifiers a format admits (R141). -/
def modifOk (t : Ty) : Modif → Bool
  | .packed => true
  | .sel i => decide (t.width < 32) && decide (i.toNat < 32 / t.width)
  | _ => !t.isPair

/-- A source admitted under a rule, whose operand has the given format (R139, R141, R142). -/
def srcOk (r : OpRule) (t : Ty) (s : Src) : Bool :=
  r.admits s.op &&
  (if s.op == .none then s.modif == .packed && !s.neg && !s.abs
   else modifOk t s.modif && ((!s.neg && !s.abs) || t.isFloat || t.isSignedInt || t == .q4))

/-- A source without any modifier (R214). -/
def plainSrc (r : OpRule) (s : Src) : Bool :=
  r.admits s.op && s.modif == .packed && !s.neg && !s.abs

/-- A source whose modifier the format admits, without absolute and negate (R214). -/
def dataSrc (r : OpRule) (t : Ty) (s : Src) : Bool :=
  r.admits s.op && (if s.op == .none then s.modif == .packed else modifOk t s.modif) &&
    !s.neg && !s.abs

/-- The operand is a scalar one for R45. -/
def Opnd.isScalar : Opnd → Bool
  | .near _ => false
  | .vec _ => false
  | _ => true

/-- R45: destination and sources all name S, K, the immediate or no operand. -/
def Common.operandsScalar (w : Common) : Bool :=
  w.d.isScalar && w.a.op.isScalar && w.b.op.isScalar && w.c.op.isScalar

/-- R45: a per-lane instruction does not name an S register as destination. -/
def Common.scalarDestOk (w : Common) : Bool :=
  match w.d with
  | .scal _ => w.operandsScalar
  | _ => true

/-- Some source names the immediate. -/
def Common.usesImm (w : Common) : Bool :=
  w.a.op == .imm || w.b.op == .imm || w.c.op == .imm

/-- The immediate bits that a source of the type does not read are zero (R158, R189). -/
def Common.immFits (w : Common) (t : Ty) : Bool :=
  t.width == 4 || decide (32 ≤ t.width) || w.imm.toNat < 2 ^ t.width

/-- Every immediate source is of the type; with no source that names it and no use by the entry, the
whole field is zero (R139). -/
def Common.immOk (w : Common) (t : Ty) : Bool := if w.usesImm then w.immFits t else w.imm == 0#32

/-- An immediate in a source of a type of its own (R158, R189). -/
def Common.immAs (w : Common) (x : Src) (t : Ty) : Bool := x.op != .imm || w.immFits t

/-- No operand names the near file (R56, R334). -/
def Common.noNear (w : Common) : Bool :=
  let far (o : Opnd) : Bool := match o with
    | .near _ => false
    | _ => true
  far w.d && far w.a.op && far w.b.op && far w.c.op

/-- The encoding of an unguarded instruction (R140). -/
def Guard.isAlways (g : Guard) : Bool := !g.neg && g.idx == 7#3

/-- The three source fields are all absent (R139). -/
def Common.noSources (w : Common) : Bool :=
  plainSrc .unused w.a && plainSrc .unused w.b && plainSrc .unused w.c

/-! ### Arithmetic class -/

/-- Checks shared by the arithmetic class: lookahead (R148), type, and S destination (R45). -/
def ArithOp.base (w : ArithOp) (tys : List Ty) (la : Bool) : Bool :=
  tys.contains w.ty && (la || w.la == 0#4)

/-- RND 0 to 3 and 5 (R145). -/
def Rnd.noSr (r : Rnd) : Bool := !(r == .sr)

/-- An instruction that neither rounds nor saturates (R145). -/
def ArithOp.exact (w : ArithOp) : Bool := w.rnd == .rne && !w.sat

/-- EXT holds only PD (R156). -/
def ArithOp.extPd (w : ArithOp) : Bool := decide (w.ext.toNat < 8)
/-- EXT holds only the source predicate (R156). DEDUCED: SEL writes no predicate, and its field PD is 0. -/
def ArithOp.extPs (w : ArithOp) : Bool := w.ext.toNat % 16 == 0
/-- EXT holds both predicates of R156. -/
def ArithOp.extPdPs (w : ArithOp) : Bool := w.ext.toNat % 16 < 8

/-- The integer types of R160. -/
def intTys : List Ty := [.i64, .i32, .n32, .i16, .n16, .i8, .n8]
/-- The types of IMUL and IMAD. -/
def mulTys : List Ty := [.i32, .n32, .i16, .n16]
/-- The types of FADD (R192). -/
def faddTys : List Ty := [.f64, .f32, .f32x2, .f16, .bf16]
/-- The types of FCMP, FCLASS and FSCALB. -/
def fcmpTys : List Ty := [.f64, .f32, .f16, .bf16]
/-- Every type. -/
def allTys : List Ty :=
  [.f64, .f32, .bf16, .f16, .e4m3, .e5m2, .q4, .f32x2, .i64, .i32, .i16, .i8, .n32, .n16, .n8, .b32]

/-- Integer instructions of one to three sources of the type (R160, R165). -/
def wfInt (w : ArithOp) (tys : List Ty) (nsrc : Nat) (sat64 satOk : Bool) : Bool :=
  w.base tys false && w.rnd == .rne && w.mode == 0#4 && w.ext == 0#8 &&
  (!w.sat || (satOk && (sat64 || w.ty != .i64))) &&
  (OpRule.dst w.ty.regs).admits w.d && srcOk (.src w.ty.regs) w.ty w.a &&
  (if 2 ≤ nsrc then srcOk (.src w.ty.regs) w.ty w.b else plainSrc .unused w.b) &&
  (if 3 ≤ nsrc then srcOk (.src w.ty.regs) w.ty w.c else plainSrc .unused w.c) &&
  w.scalarDestOk && w.immOk w.ty

/-- IADDX (R161). -/
def wfIaddx (w : ArithOp) : Bool :=
  w.base [.n32] false && w.exact && w.mode == 0#4 && w.extPdPs &&
  (OpRule.dstNV).required.admits w.d && srcOk .src .n32 w.a && srcOk .src .n32 w.b &&
  plainSrc .unused w.c && w.immOk .n32

/-- ICMP (R162). -/
def wfIcmp (w : ArithOp) : Bool :=
  w.base [.i64, .i32, .n32] false && w.exact && decide (w.mode.toNat ≤ 5) && w.extPdPs &&
  (OpRule.dstNV w.ty.regs).admits w.d && srcOk (.src w.ty.regs) w.ty w.a &&
  srcOk (.src w.ty.regs) w.ty w.b && plainSrc .unused w.c && w.immOk w.ty

/-- LEA (R163). -/
def wfLea (w : ArithOp) : Bool :=
  w.base [.n32, .i64] false && w.exact && w.ext == 0#8 && (w.ty == .i64 || decide (w.mode.toNat < 8)) &&
  (OpRule.dst w.ty.regs).admits w.d && srcOk (.src w.ty.regs) w.ty w.a &&
  srcOk .src (if w.ty == .i64 then .i32 else .n32) w.b && plainSrc .unused w.c &&
  w.scalarDestOk && w.immOk w.ty

/-- TERN (R166): EXT is the table. -/
def wfTern (w : ArithOp) : Bool :=
  w.base [.b32] false && w.exact && w.mode == 0#4 && OpRule.dst.admits w.d &&
  srcOk .src .b32 w.a && srcOk .src .b32 w.b && srcOk .src .b32 w.c && w.scalarDestOk && w.immOk .b32

/-- Shifts (R167): B is an unsigned 32-bit count. -/
def wfShift (w : ArithOp) (tys : List Ty) : Bool :=
  w.base tys false && w.exact && w.mode == 0#4 && w.ext == 0#8 &&
  (OpRule.dst w.ty.regs).admits w.d && srcOk (.src w.ty.regs) w.ty w.a && srcOk .src .n32 w.b &&
  plainSrc .unused w.c && w.scalarDestOk && w.immOk w.ty

/-- FUNSH (R168). -/
def wfFunsh (w : ArithOp) : Bool :=
  w.base [.b32] false && w.exact && decide (w.mode.toNat ≤ 3) && w.ext == 0#8 &&
  OpRule.dst.admits w.d && srcOk .src .b32 w.a && srcOk .src .b32 w.b && srcOk .src .n32 w.c &&
  w.scalarDestOk && w.immOk .b32

/-- BFX and BFI (R169). -/
def wfBits (w : ArithOp) (tys : List Ty) (three : Bool) : Bool :=
  w.base tys false && w.exact && w.mode == 0#4 && w.ext == 0#8 && OpRule.dst.admits w.d &&
  srcOk .src w.ty w.a && srcOk .src w.ty w.b &&
  (if three then srcOk .src w.ty w.c else plainSrc .unused w.c) && w.scalarDestOk && w.immOk w.ty

/-- MOV (R171). -/
def wfMov (w : ArithOp) : Bool := wfInt w allTys 1 false false

/-- SEL (R171, R157): per lane, for it reads a predicate. -/
def wfSel (w : ArithOp) : Bool :=
  w.base allTys false && w.exact && w.mode == 0#4 && w.extPs &&
  (OpRule.dstNV w.ty.regs).admits w.d && srcOk (.src w.ty.regs) w.ty w.a &&
  srcOk (.src w.ty.regs) w.ty w.b && plainSrc .unused w.c && w.immOk w.ty

/-- CVTI (R164): MODE is the source type. -/
def wfCvti (w : ArithOp) : Bool :=
  let s := Ty.ofCode w.mode
  w.base intTys false && s.isInt && w.rnd == .rne && w.ext == 0#8 &&
  (OpRule.dst w.ty.regs).admits w.d && srcOk (.src s.regs) s w.a && plainSrc .unused w.b &&
  plainSrc .unused w.c && w.scalarDestOk && w.immOk s

/-- Rounding floating-point instructions of one to three sources (R192, R195, R198). -/
def wfFloat (w : ArithOp) (tys : List Ty) (nsrc : Nat) (rounds satOk la : Bool) : Bool :=
  w.base tys la && (if rounds then w.rnd.noSr else w.rnd == .rne) && (satOk || !w.sat) &&
  w.mode == 0#4 && w.ext == 0#8 && (OpRule.dst w.ty.regs).admits w.d &&
  srcOk (.src w.ty.regs) w.ty w.a &&
  (if 2 ≤ nsrc then srcOk (.src w.ty.regs) w.ty w.b else plainSrc .unused w.b) &&
  (if 3 ≤ nsrc then srcOk (.src w.ty.regs) w.ty w.c else plainSrc .unused w.c) &&
  w.scalarDestOk && w.immOk w.ty

/-- FCMP (R194). -/
def wfFcmp (w : ArithOp) : Bool :=
  w.base fcmpTys false && w.exact && w.extPdPs && OpRule.dstNV.admits w.d &&
  srcOk (.src w.ty.regs) w.ty w.a && srcOk (.src w.ty.regs) w.ty w.b && plainSrc .unused w.c &&
  w.immOk w.ty

/-- The number of elements a conversion acts on (R196). -/
def cvtCount (d s : Ty) : Nat :=
  if d == .f64 || s == .f64 then 1 else 32 / max d.width s.width

/-- FCVT (R196): MODE is the source format, EXT[34:32] the position. DESIGN CHOICE: between `.bf16` and `.f16`, which no row
names, every RND is admitted. -/
def wfFcvt (w : ArithOp) : Bool :=
  let s := Ty.ofCode w.mode
  let fmts : List Ty := [.f64, .f32, .bf16, .f16, .e4m3, .e5m2]
  let pos := w.ext.toNat
  let cAbsent := plainSrc .unused w.c
  w.base fmts false && fmts.contains s && s != w.ty && decide (pos < 8) &&
  (OpRule.dst w.ty.regs).admits w.d && srcOk (.src s.regs) s w.a && plainSrc .unused w.b &&
  (if w.ty.width > s.width then w.rnd == .rne && !w.sat && pos == 0 && cAbsent
   else if w.ty.width == s.width then pos == 0 && cAbsent && (!w.sat || w.ty.width == 8)
   else if 32 ≤ w.ty.width then pos == 0 && cAbsent
   else decide (pos ≤ 32 / w.ty.width / cvtCount w.ty s - 1) && srcOk .srcOpt w.ty w.c) &&
  w.scalarDestOk && w.immOk .b32 && w.immAs w.a s && w.immAs w.c w.ty

/-- F2I (R197). -/
def wfF2i (w : ArithOp) : Bool :=
  let s := Ty.ofCode w.mode
  w.base intTys false && decide (w.mode.toNat ≤ 3) && w.rnd.noSr && !w.sat && w.ext == 0#8 &&
  (OpRule.dst w.ty.regs).admits w.d && srcOk (.src s.regs) s w.a && plainSrc .unused w.b &&
  plainSrc .unused w.c && w.scalarDestOk && w.immOk s

/-- I2F (R197). -/
def wfI2f (w : ArithOp) : Bool :=
  let s := Ty.ofCode w.mode
  w.base [.f64, .f32, .bf16, .f16] false && s.isInt && w.rnd.noSr &&
  (OpRule.dst w.ty.regs).admits w.d && srcOk (.src s.regs) s w.a && plainSrc .unused w.b &&
  (if w.ty.width == 16 then decide (w.ext.toNat ≤ 1) && srcOk .srcOpt w.ty w.c
   else w.ext == 0#8 && plainSrc .unused w.c) &&
  w.scalarDestOk && w.immOk .b32 && w.immAs w.a s && w.immAs w.c w.ty

/-- Special functions (R199): every RND code is accepted. -/
def wfSpecial (w : ArithOp) : Bool :=
  w.base [.f32, .f16] true && !w.sat && w.mode == 0#4 && w.ext == 0#8 && OpRule.dst.admits w.d &&
  srcOk .src w.ty w.a && plainSrc .unused w.b && plainSrc .unused w.c && w.scalarDestOk &&
  w.immOk w.ty

/-- FCLASS (R200). -/
def wfFclass (w : ArithOp) : Bool :=
  w.base fcmpTys false && w.exact && srcOk (.src w.ty.regs) w.ty w.a && plainSrc .unused w.b &&
  plainSrc .unused w.c && w.extPd &&
  (if w.mode == 0#4 then OpRule.dst.admits w.d && w.scalarDestOk && w.immOk w.ty
   else w.mode == 1#4 && w.d == .none && decide (w.imm.toNat < 1024))

/-- FSCALB (R201). -/
def wfFscalb (w : ArithOp) : Bool :=
  w.base fcmpTys false && w.rnd.noSr && w.mode == 0#4 && w.ext == 0#8 &&
  (OpRule.dst w.ty.regs).admits w.d && srcOk (.src w.ty.regs) w.ty w.a && plainSrc .src w.b &&
  plainSrc .unused w.c && w.scalarDestOk && w.immOk .b32 && w.immAs w.a w.ty

/-- FFREXP (R201). -/
def wfFfrexp (w : ArithOp) : Bool :=
  w.base [.f64, .f32] false && w.exact && decide (w.mode.toNat ≤ 1) && w.ext == 0#8 &&
  (OpRule.dst (if w.mode == 0#4 then w.ty.regs else 1)).admits w.d &&
  srcOk (.src w.ty.regs) w.ty w.a && plainSrc .unused w.b && plainSrc .unused w.c &&
  w.scalarDestOk && w.immOk w.ty

/-- The other type of a mixed dot product (R202). -/
def Ty.other : Ty → Ty
  | .f16 => .bf16 | .bf16 => .f16 | .e4m3 => .e5m2 | .e5m2 => .e4m3 | .i8 => .n8 | .n8 => .i8
  | t => t

/-- The dot products (R202). -/
def wfDot (w : ArithOp) (tys : List Ty) (modes : Nat) : Bool :=
  let isInt := w.ty == .i8 || w.ty == .n8
  let tb := if w.ty != .q4 && w.mode == 1#4 then w.ty.other else w.ty
  w.base tys false && (if isInt then w.rnd == .rne else w.rnd.noSr) && decide (w.mode.toNat < modes) &&
  w.ext == 0#8 && OpRule.dst.admits w.d && srcOk .src w.ty w.a && srcOk .src tb w.b &&
  srcOk .src (if isInt then .i32 else .f32) w.c && w.scalarDestOk &&
  w.immOk .b32 && w.immAs w.a w.ty && w.immAs w.b tb

/-- QCVT (R203). -/
def wfQcvt (w : ArithOp) : Bool :=
  let n := if w.ty == .f32 then 8 else 4
  w.base [.f32, .bf16, .f16] false && !w.sat && w.mode == 0#4 && w.extPd && OpRule.dstNV.admits w.d &&
  srcOk { n := true, v := true, span := n } w.ty w.a && srcOk .src w.ty w.b &&
  plainSrc .unused w.c && w.immOk w.ty

/-- DQCVT (R204). -/
def wfDqcvt (w : ArithOp) : Bool :=
  let n := if w.ty == .f32 then 8 else 4
  w.base [.f32, .bf16, .f16] false && w.rnd.noSr && w.mode == 0#4 && w.ext == 0#8 &&
  (OpRule.dstNV n).admits w.d && srcOk .src .q4 w.a && srcOk .src w.ty w.b &&
  plainSrc .unused w.c && w.immOk .b32 && w.immAs w.b w.ty

/-- SCLMAX (R205). -/
def wfSclmax (w : ArithOp) : Bool :=
  w.base [.f32] false && w.exact && decide (w.mode.toNat < 4) && w.ext == 0#8 && OpRule.dst.admits w.d &&
  srcOk .src .f32 w.a && plainSrc .unused w.b && plainSrc .unused w.c && w.scalarDestOk && w.immOk .f32

/-- The format of B in LRD: signed under .rel, else unsigned (R208). -/
def lrdTy (mode : BitVec 4) : Ty := if mode == 2#4 then .i32 else .n32

/-- LRD (R208). -/
def wfLrd (w : ArithOp) : Bool :=
  w.base [.b32, .i64] true && w.exact && decide (w.mode.toNat < 4) && w.extPd &&
  (OpRule.dstNV w.ty.regs).admits w.d && srcOk (.src w.ty.regs) w.ty w.a && srcOk .src (lrdTy w.mode) w.b &&
  plainSrc .unused w.c && w.immOk w.ty

/-- PCOL (R209). -/
def wfPcol (w : ArithOp) : Bool :=
  w.base [.b32] false && w.exact && decide (w.mode.toNat ≤ 5) && w.extPdPs && w.noSources &&
  (if w.mode.toNat < 3 then w.d == .none
   else OpRule.dst.admits w.d && w.ext.toNat % 8 == 7 && (w.mode != 4#4 || w.ext == 0x77#8)) &&
  w.imm == 0#32

/-- The types REDX and SCANX admit with an operation (R210). -/
def redTyOk (op : Nat) (t : Ty) : Bool :=
  if op < 3 then [Ty.i32, .n32, .i64, .f32, .f64].contains t
  else decide (op < 6) && [Ty.b32, .i64].contains t

/-- REDX and SCANX: rounding only for a float sum; saturation only where `sat` admits it (R145, R210). -/
def redCtlOk (w : ArithOp) (op : Nat) (sat : Bool) : Bool :=
  redTyOk op w.ty && (if op == 0 && w.ty.isFloat then w.rnd.noSr else w.rnd == .rne) && (!w.sat || sat)

/-- REDX (R210). -/
def wfRedx (w : ArithOp) : Bool :=
  w.base allTys true && decide (w.mode.toNat < 8) && redCtlOk w w.mode.toNat (w.mode == 0#4 && w.ty.isInt) && w.ext == 0#8 &&
  (OpRule.dst w.ty.regs).admits w.d && srcOk (.src w.ty.regs) w.ty w.a && plainSrc .unused w.b &&
  plainSrc .unused w.c && w.immOk w.ty

/-- SCANX (R211), whose entry admits no saturation (R145). -/
def wfScanx (w : ArithOp) : Bool :=
  w.base allTys true && redCtlOk w (w.mode.toNat % 8) false && w.ext == 0#8 &&
  (OpRule.dstNV w.ty.regs).admits w.d && srcOk (.src w.ty.regs) w.ty w.a &&
  plainSrc (.dstS w.ty.regs) w.b && plainSrc .unused w.c && w.immOk w.ty

/-- CMPX (R212): IMM is the control word. The bound by the width is checked where the width is
known. -/
def wfCmpx (w : ArithOp) : Bool :=
  let j := w.imm.toNat % 32
  let kb := w.imm.toNat / 256 % 32
  w.base [.i32, .n32, .f32] true && w.exact && w.mode == 0#4 && w.ext == 0#8 &&
  (OpRule.dstNV 2).admits w.d && srcOk .src w.ty w.a && srcOk .src .b32 w.b &&
  plainSrc .unused w.c && (w.imm &&& 0xFFFEE0E0#32) == 0#32 && decide (j < kb) && decide (kb ≤ 6)

/-- PEER (R213). -/
def wfPeer (w : ArithOp) : Bool :=
  w.base [.b32, .i64] true && w.exact && decide (w.mode.toNat ≤ 2) && w.extPd &&
  (w.mode != 0#4 || w.ext == 7#8) && OpRule.dstNV.admits w.d && srcOk (.src w.ty.regs) w.ty w.a &&
  plainSrc .unused w.b && plainSrc .unused w.c && w.immOk w.ty

/-- PLOP (R172). -/
def wfPlop (w : ArithOp) : Bool :=
  w.base [.b32] false && w.exact && w.mode == 0#4 && w.extPd && w.d == .none && w.noSources &&
  (w.imm &&& 0xFF00F000#32) == 0#32

/-- P2S (R173). -/
def wfP2s (w : ArithOp) : Bool :=
  w.base [.b32] false && w.exact && w.mode == 0#4 && w.ext == 0#8 && OpRule.dstNV.admits w.d &&
  w.noSources && decide (w.imm.toNat < 128)

/-- S2P (R173). -/
def wfS2p (w : ArithOp) : Bool :=
  w.base [.b32] false && w.exact && w.mode == 0#4 && w.ext == 0#8 && w.d == .none &&
  srcOk .reg .b32 w.a && plainSrc .unused w.b && plainSrc .unused w.c && decide (w.imm.toNat < 128)

/-- RGROW and RSHRINK (R186). The entry of RGROW writes a predicate, so both of its forms have the field PD (R156). -/
def wfGrant (w : ArithOp) (mode : BitVec 4) (pd : Bool) : Bool :=
  w.base [.b32] false && w.exact && w.mode == mode && (if pd then w.extPd else w.ext == 0#8) &&
  w.d == .none && srcOk .ski .b32 w.a && plainSrc .unused w.b && plainSrc .unused w.c && w.immOk .b32

/-- RQRY (R187). -/
def wfRqry (w : ArithOp) : Bool :=
  w.base [.b32] false && w.exact && w.mode == 0#4 && w.ext == 0#8 &&
  ({ v := true, s := true, absent := true } : OpRule).admits w.d && w.noSources && w.imm == 0#32

/-- FMTSET (R188). -/
def wfFmtset (w : ArithOp) (mode : BitVec 4) : Bool :=
  w.base [.b32] false && w.exact && w.mode == mode && w.ext == 0#8 && w.d == .none &&
  srcOk (if mode == 2#4 then .src else .ski) .b32 w.a && plainSrc .unused w.b &&
  plainSrc .unused w.c && w.immOk .b32

/-- FMTGET (R188). -/
def wfFmtget (w : ArithOp) (mode : BitVec 4) : Bool :=
  w.base [.b32] false && w.exact && w.mode == mode && w.ext == 0#8 &&
  (if mode == 2#4 then OpRule.dstNV
   else ({ v := true, s := true, absent := true } : OpRule)).admits w.d &&
  w.noSources && w.imm == 0#32

/-! ### Control class -/

/-- Checks shared by the control class (R144, R174). -/
def CtlOp.base (w : CtlOp) (cond ej jx pg7 : Bool) (mode : BitVec 4) : Bool :=
  w.ty == .b32 && w.la == 0#4 && w.mode == mode && (cond || (w.cp == 0#3 && !w.cn)) &&
  (ej || (!w.ejt && !w.ejf)) && (jx || w.jx == 0#3) && (!pg7 || w.guard.isAlways)

/-- IMM is a target: a multiple of 16 (R147). -/
def CtlOp.immTarget (w : CtlOp) : Bool := w.imm.toNat % 16 == 0

/-- Branches without register operands: BRU and BRD (R175, R176). -/
def wfBranch (w : CtlOp) (ej jx : Bool) : Bool :=
  w.base true ej jx false 0#4 && w.d == .none && w.noSources && w.immTarget

/-- BRX (R177). -/
def wfBrx (w : CtlOp) : Bool :=
  w.base true false true false 0#4 && w.d == .none && srcOk .src .b32 w.a &&
  plainSrc .unused w.b && plainSrc .unused w.c && w.immOk .b32

/-- CALL (R178). -/
def wfCall (w : CtlOp) : Bool :=
  w.base true false false false 0#4 && ({ v := true, s := true } : OpRule).admits w.d && w.noSources &&
  w.immTarget

/-- CALLX and RET (R178). -/
def wfCallx (w : CtlOp) (hasD : Bool) : Bool :=
  w.base true false false false 0#4 &&
  (if hasD then ({ v := true, s := true } : OpRule).admits w.d else w.d == .none) &&
  srcOk .src .b32 w.a && plainSrc .unused w.b && plainSrc .unused w.c && w.immOk .b32

/-- Control instructions without operands: EXIT, RJWAIT, NOP, YIELD. -/
def wfBare (w : CtlOp) (jx pg7 : Bool) : Bool :=
  w.base false false jx pg7 0#4 && w.d == .none && w.noSources && w.imm == 0#32

/-- RJSET (R180). -/
def wfRjset (w : CtlOp) : Bool :=
  w.base false false true true 0#4 && w.d == .none && w.noSources && w.immTarget

/-- RJMOV (R182); the wider alignment of width 64 is checked where the width is known. -/
def wfRjmov (w : CtlOp) (write : Bool) : Bool :=
  w.base false false true true (if write then 1#4 else 0#4) && w.imm == 0#32 &&
  plainSrc .unused w.b && plainSrc .unused w.c &&
  (if write then w.d == .none && plainSrc { s := true, span := 2 } w.a
   else ({ s := true, span := 2, absent := true } : OpRule).admits w.d && plainSrc .unused w.a)

/-- ELECT (R183). -/
def wfElect (w : CtlOp) : Bool :=
  w.base false false false true 0#4 && OpRule.dstS.admits w.d && w.noSources && decide (w.imm.toNat < 8)

/-- SBEG (R147, R184). -/
def wfSbeg (w : CtlOp) : Bool :=
  w.base false false false true 0#4 && w.d == .none && w.noSources && decide (w.imm.toNat < 65536)

/-- SLEEP (R185). -/
def wfSleep (w : CtlOp) : Bool :=
  w.base false false false false 0#4 && w.d == .none && srcOk .ski .b32 w.a && plainSrc .unused w.b &&
  plainSrc .unused w.c && w.immOk .b32

/-! ### Memory class -/

/-- The bytes of one item (R216); .q4 counts as one byte. -/
def Ty.itemBytes (t : Ty) : Nat := if t == .q4 then 1 else t.width / 8

/-- The number of items of a CNT code (R215). -/
def cntItems (cnt : Nat) : Nat := if cnt == 1 then 2 else if cnt == 2 then 4 else 1

/-- The CNT field of HINT. -/
def MemOp.cnt (w : MemOp) : Nat := w.hint.toNat / 4

/-- Checks shared by the memory class: type, lookahead, kind with scope (R119, R146), AMODE. -/
def MemOp.base (w : MemOp) (tys : List Ty) (la : Bool) (kinds : List Kind) (amodes : List Nat) : Bool :=
  tys.contains w.ty && (la || w.la == 0#4) && kinds.contains w.kind &&
  (w.kind != .plain || w.scope == .blk) && amodes.contains w.amode.toNat

/-- An entry that gives a scope alone (R119). -/
def MemOp.scopeOnly (w : MemOp) (limit : Nat) : Bool :=
  let code : Nat := match w.scope with
    | .blk => 0 | .clu => 1 | .stk => 2 | .dom => 3 | .pod => 4 | .sys => 5
  w.kind == .plain && decide (code ≤ limit) && w.amode == 0#2 && w.la == 0#4 && w.ty == .b32

/-- Every type an item may have for a load. -/
def loadTys : List Ty :=
  [.i8, .n8, .e4m3, .e5m2, .i16, .n16, .f16, .bf16, .i32, .n32, .f32, .b32, .i64, .f64, .f32x2]

/-- CNT, POL and NIB of R215 and the 16-byte limit of R216. -/
def MemOp.itemsOk (w : MemOp) (pol : Bool) : Bool :=
  if w.ty == .q4 then decide (w.hint.toNat < 2)
  else decide (w.cnt < 3) && decide (cntItems w.cnt * w.ty.itemBytes ≤ 16) &&
    (if pol then decide (w.hint.toNat % 4 ≤ 2) else w.hint.toNat % 4 == 0)

/-- The registers an access moves (R214, R216). -/
def MemOp.dataSpan (w : MemOp) : Nat := cntItems w.cnt * w.ty.regs

/-- The span of store data; .q4 moves one register. -/
def MemOp.storeSpan (w : MemOp) : Nat := if w.ty == .q4 then 1 else w.dataSpan

/-- LD (R218). -/
def wfLd (w : MemOp) : Bool :=
  w.base loadTys false [.plain, .rlx, .acq] [0] && w.itemsOk true && w.d == .none &&
  plainSrc (.reg 2) w.a && plainSrc .unused w.b && plainSrc .unused w.c

/-- LAND (R219): D names N, V or S. DEDUCED: it admits the absent code of D too, as R44 says of every destination field (log
entry 17). -/
def wfLand (w : MemOp) : Bool :=
  w.base loadTys false [.plain] [0] && w.itemsOk false && (OpRule.dst w.dataSpan).admits w.d &&
  w.noSources && w.imm == 0#32

/-- ST (R220). -/
def wfSt (w : MemOp) : Bool :=
  w.base (.q4 :: loadTys) false [.plain, .rlx, .rel] [0] && w.itemsOk true && w.d == .none &&
  plainSrc (.reg 2) w.a && dataSrc (.reg w.storeSpan) w.ty w.b && plainSrc .unused w.c && w.tag == 0#4

/-- The post-increment form of R222: its IMM layout and its base operand. -/
def MemOp.postOk (w : MemOp) : Bool :=
  w.amode == 0#2 ||
  (let k := w.imm.toNat % 32
   decide (2 ≤ k) && decide (k ≤ 18) && w.imm.toNat / 32 % 2048 == 0 &&
   ({ n := true, v := true, s := true } : OpRule).admits w.a.op)

/-- LDS (R221, R222). -/
def wfLds (w : MemOp) : Bool :=
  w.base loadTys true [.plain, .rlx, .acq] [0, 1] && w.itemsOk false && w.tag == 0#4 &&
  (OpRule.dst w.dataSpan).admits w.d && plainSrc .reg w.a && plainSrc .unused w.b &&
  plainSrc .unused w.c && w.postOk && (w.amode == 0#2 || w.d != w.a.op) && w.scalarDestOk

/-- STS (R221, R222). -/
def wfSts (w : MemOp) : Bool :=
  w.base (.q4 :: loadTys) false [.plain, .rlx, .rel] [0, 1] && w.itemsOk false && w.tag == 0#4 &&
  w.d == .none && plainSrc .reg w.a && dataSrc (.reg w.storeSpan) w.ty w.b && plainSrc .unused w.c &&
  w.postOk

/-- LDC (R223). -/
def wfLdc (w : MemOp) : Bool :=
  w.base loadTys true [.plain] [0] && w.itemsOk false && w.tag == 0#4 &&
  (OpRule.dst w.dataSpan).admits w.d && plainSrc .reg w.a && plainSrc .unused w.b &&
  plainSrc .unused w.c && w.scalarDestOk

/-- The format in which GATH and SCAT read the index (R224). -/
def MemOp.indexTy (w : MemOp) : Ty := if w.amode == 2#2 then .n32 else .n16

/-- GATH (R224). -/
def wfGath (w : MemOp) : Bool :=
  w.base loadTys false [.plain] [2, 3] && w.tag == 0#4 && decide (w.hint.toNat % 8 ≤ 4) &&
  (OpRule.dst w.ty.regs).admits w.d && plainSrc .reg w.a && dataSrc .reg w.indexTy w.b &&
  plainSrc .unused w.c && w.scalarDestOk

/-- SCAT (R224): for .q4, HINT[36] is NIB and the scale must be 0. -/
def wfScat (w : MemOp) : Bool :=
  w.base (.q4 :: loadTys) false [.plain] [2, 3] && w.tag == 0#4 &&
  (if w.ty == .q4 then decide (w.hint.toNat % 8 ≤ 1) else decide (w.hint.toNat % 8 ≤ 4)) &&
  w.d == .none && plainSrc .reg w.a && dataSrc .reg w.indexTy w.b && plainSrc (.reg w.ty.regs) w.c

/-- LDGS (R225). -/
def wfLdgs (w : MemOp) : Bool :=
  w.base [.b32] false [.plain] [0] && w.hint == 0#4 && w.tag == 0#4 && w.d == .none &&
  plainSrc (.sk 2) w.a && plainSrc .sk w.b && plainSrc { s := true, k := true, absent := true } w.c &&
  decide (w.imm.toNat < 2 ^ 18)

/-- PREF (R226). -/
def wfPref (w : MemOp) : Bool :=
  w.base [.b32] false [.plain] [0] && decide (w.hint.toNat ≤ 1) && w.tag == 0#4 && w.d == .none &&
  plainSrc (.reg 2) w.a && plainSrc .unused w.b && plainSrc .unused w.c

/-- CCTL (R227). -/
def wfCctl (w : MemOp) (cop : BitVec 4) (line : Bool) : Bool :=
  w.base [.b32] false [.plain] [0] && w.hint == cop && w.tag == 0#4 && w.d == .none &&
  plainSrc (if line then .reg 2 else .unused) w.a && plainSrc .unused w.b && plainSrc .unused w.c &&
  (line || w.imm == 0#32)

/-- TST and TLD (R228): an immediate length is 1 to 4,096. -/
def wfTile (w : MemOp) (ends : Bool) : Bool :=
  w.scopeOnly 5 && w.hint.toNat % 8 == 0 && w.tag == 0#4 && w.d == .none &&
  (w.hint == 8#4 || w.scope == .blk) && plainSrc (.reg 2) w.a && plainSrc .reg w.b &&
  plainSrc .ski w.c && w.immOk .b32 && (!ends || w.noNear) &&
  (w.c.op != .imm || (decide (1 ≤ w.imm.toNat) && decide (w.imm.toNat ≤ 4096)))

/-- The types of an atomic operation (R229). -/
def atomTyOk (aop : Nat) (t : Ty) : Bool :=
  match aop with
  | 0 => [Ty.i32, .n32, .i64, .f32, .f64, .f16, .bf16].contains t
  | 1 | 2 => [Ty.i32, .n32, .i64, .f32, .f64].contains t
  | 3 | 4 | 5 | 6 | 7 => [Ty.b32, .i64].contains t
  | 8 | 9 => t == .n32
  | _ => false

/-- The atomic instructions (R229). `dest` says whether D is required, forbidden or either. -/
def wfAtomic (w : MemOp) (kinds kindsNoD : List Kind) (aSpan : Nat) (mayD mustD : Bool) : Bool :=
  let hasD := w.d != .none
  w.base allTys false (if hasD then kinds else kindsNoD) [0] && w.tag == 0#4 &&
  atomTyOk w.hint.toNat w.ty && (hasD || !mustD) && (!hasD || mayD) &&
  (OpRule.dst w.ty.regs).admits w.d && plainSrc (.reg aSpan) w.a &&
  dataSrc (.reg w.ty.regs) w.ty w.b &&
  (if w.hint == 7#4 then hasD && plainSrc (.reg w.ty.regs) w.c else plainSrc .unused w.c) &&
  (!hasD || w.noNear) && w.scalarDestOk

/-- FENCE (R231). -/
def wfFence (w : MemOp) : Bool :=
  w.base [.b32] false [.acq, .rel, .sc] [0] && w.hint == 0#4 && w.tag == 0#4 && w.d == .none &&
  w.noSources && w.imm == 0#32

/-- BARA, BARW and BARS (R233). -/
def wfBarrier (w : MemOp) (hasB : Bool) : Bool :=
  w.scopeOnly 3 && w.tag == 0#4 && w.d == .none && plainSrc .unused w.a && plainSrc .unused w.c &&
  plainSrc (if hasB then .ski else .unused) w.b && w.immOk .b32

/-- MBINIT (R236). -/
def wfMbinit (w : MemOp) : Bool :=
  w.scopeOnly 0 && w.hint == 0#4 && w.tag == 0#4 && w.d == .none && plainSrc .reg w.a &&
  plainSrc .src w.b && plainSrc .unused w.c && w.immOk .b32

/-- MBARV, MBTST and MBWAIT (R237). -/
def wfObject (w : MemOp) (dst : OpRule) (pd ends : Bool) : Bool :=
  w.scopeOnly 5 && (if pd then decide (w.hint.toNat < 8) else w.hint == 0#4) && w.tag == 0#4 &&
  dst.admits w.d && plainSrc .reg w.a &&
  plainSrc { v := true, s := true, k := true, i := true } w.b && plainSrc .unused w.c && w.immOk .b32 &&
  (!ends || (w.noNear && w.scalarDestOk))

/-! ### Engine class -/

/-- Checks shared by the engine class: lookahead, MODE, guard slot (R144, R239). -/
def EngOp.base (w : EngOp) (tys : List Ty) (gv : Bool) : Bool :=
  tys.contains w.ty && w.la == 0#4 && (if gv then w.gv || w.gslot == 0#4 else !w.gv && w.gslot == 0#4)

/-- TSHLD and TSHST (R248, R250): the 64-bit address of the `.gl` forms is a pair, the offset of the `.sp` forms a `.b32`
source. DEDUCED: the offset is a register or constant word, as the bracketed base of R154 is, never the immediate. -/
def wfTsh (w : EngOp) (mode : BitVec 3) : Bool :=
  w.base [.b32] false && w.mode == mode && w.ext.toNat % 32 == 0 && w.d == .none &&
  (if mode == 0#3 then plainSrc (.sk 2) w.a else srcOk .sk .b32 w.a) && plainSrc .unused w.b && plainSrc .unused w.c

/-- TSHP (R249). -/
def wfTshp (w : EngOp) (mode : BitVec 3) : Bool :=
  let word := w.ext.toNat % 32
  w.base [.b32] false && w.mode == mode && word != 11 && decide (word < 28) &&
  (mode != 2#3 || word % 2 == 0) && w.d == .none && srcOk .ski .b32 w.a && plainSrc .unused w.b &&
  plainSrc .unused w.c && w.immOk .b32

/-- CPY (R251). -/
def wfCpy (w : EngOp) : Bool :=
  w.base [.b32] true && w.mode == 0#3 && w.ext.toNat % 32 == 0 && OpRule.dstS.admits w.d &&
  srcOk .ski .i32 w.a && srcOk .ski .i32 w.b && plainSrc .unused w.c && w.immOk .b32

/-- GSET (R242). -/
def wfGset (w : EngOp) (mode : BitVec 3) : Bool :=
  w.base [.b32] false && w.mode == mode && decide (w.ext.toNat < 16) && w.d == .none &&
  (if mode == 0#3 then srcOk .ski .b32 w.a else plainSrc .unused w.a) && plainSrc .unused w.b &&
  plainSrc .unused w.c && w.immOk .b32

/-- QFNC and QWAIT (R252, R253). -/
def wfQueues (w : EngOp) (mode : BitVec 3) : Bool :=
  w.base [.b32] false && w.mode == mode && w.ext.toNat % 64 == 0 && w.d == .none && w.noSources

/-- The registers one quarter takes (R255). -/
def mldbSpan (t : Ty) : Nat := if t == .f32 || t == .f64 then 2 else 4

/-- MLDB (R255, R256). -/
def wfMldb (w : EngOp) : Bool :=
  w.base [.bf16, .f16, .e4m3, .e5m2, .q4, .f32, .f64] true &&
  (w.mode == 0#3 || (w.mode == 4#3 && (w.ty == .bf16 || w.ty == .f16))) &&
  (w.ext == 0#8 || w.ext == 0x10#8) && w.d == .none &&
  srcOk { v := true, span := mldbSpan w.ty } w.ty w.a &&
  (if w.ty == .q4 then srcOk { v := true } .b32 w.b else plainSrc .unused w.b) && plainSrc .unused w.c && w.imm == 0#32

/-- MMA (R257). -/
def wfMma (w : EngOp) : Bool :=
  w.base [.bf16, .f16, .e4m3, .e5m2, .q4, .f32, .f64] true && w.mode.toNat % 2 == 0 &&
  w.ext.toNat % 16 == 0 && (w.ty != .f64 || w.ext.toNat / 32 % 2 == 0) && OpRule.dstS.admits w.d &&
  srcOk .ski .b32 w.a && srcOk .ski .b32 w.b &&
  (if w.ty == .q4 then srcOk .ski .b32 w.c else plainSrc .unused w.c) && w.immOk .b32

/-- MACC (R261). -/
def wfMacc (w : EngOp) : Bool :=
  let dreg := w.ext.getLsbD 4
  let bias := w.ext.getLsbD 3
  w.base [.f32, .bf16, .f16, .e4m3, .e5m2] true && decide (w.mode.toNat ≤ 5) &&
  (w.ty != .f32 || (w.mode == 0#3 && !w.ext.getLsbD 0)) && OpRule.dstS.admits w.d &&
  srcOk .ski .b32 w.a && (if dreg then plainSrc .unused w.b else srcOk .ski .b32 w.b) &&
  (if bias then srcOk .ski .b32 w.c else plainSrc .unused w.c) && w.immOk .b32

/-- MTBL (R260). -/
def wfMtbl (w : EngOp) : Bool :=
  w.base [.b32] true && w.mode == 0#3 && w.ext == 0#8 && w.d == .none && srcOk .ski .b32 w.a &&
  plainSrc .unused w.b && plainSrc .unused w.c && w.immOk .b32

/-- COLL (R263). The pairing of kind and type is tested at the queue head (R365). -/
def wfColl (w : EngOp) : Bool :=
  w.base allTys true && decide (w.mode.toNat < 4) && OpRule.dstS.admits w.d &&
  srcOk .ski .b32 w.a && plainSrc { s := true, span := 2, absent := true } w.b &&
  (if w.b.op == .none then plainSrc .unused w.c else srcOk .ski .b32 w.c) && w.immOk .b32

/-- SIGS (R265). -/
def wfSigs (w : EngOp) (mode : BitVec 3) : Bool :=
  w.base [.n32] false && w.mode == mode && w.ext == 0#8 && w.d == .none && plainSrc (.sk 2) w.a &&
  srcOk .ski .b32 w.b && plainSrc .unused w.c && w.immOk .b32

/-! ### Training and system class -/

/-- Checks shared by the class: TYPE, lookahead and MODE. -/
def SysOp.base (w : SysOp) (mode : BitVec 8) : Bool := w.ty == .b32 && w.la == 0#4 && w.mode == mode

/-- LSADJ (R273). -/
def wfLsadj (w : SysOp) (mode : BitVec 8) : Bool :=
  w.base mode && plainSrc .unused w.c && w.immOk .b32 &&
  (if mode == 0#8 then
     w.ext == 0#8 && OpRule.dstS.admits w.d && srcOk .ski .b32 w.a && srcOk .ski .b32 w.b
   else decide (w.ext.toNat ≤ 5) && plainSrc .unused w.b &&
     (if mode == 1#8 then w.d == .none && srcOk .ski .b32 w.a
      else OpRule.dstS.admits w.d && plainSrc .unused w.a))

/-- Instructions with a scalar destination and no source: OVFR, CAPQ, CLKR. -/
def wfSysDst (w : SysOp) (modes : Nat) (span : Nat) : Bool :=
  w.base w.mode && decide (w.mode.toNat < modes) && w.ext == 0#8 && (OpRule.dstS span).admits w.d &&
  w.noSources && w.imm == 0#32

/-- PLCQ (R281). -/
def wfPlcq (w : SysOp) : Bool :=
  w.base w.mode && decide (w.mode.toNat ≤ 8) && w.ext == 0#8 && w.noSources && w.imm == 0#32 &&
  (if w.mode == 8#8 then OpRule.dstNV else OpRule.dstS).admits w.d

/-- TRAP and BRK (R278), HALT (R280). -/
def wfStop (w : SysOp) (immBound : Nat) : Bool :=
  w.base 0#8 && w.ext == 0#8 && w.d == .none && w.noSources && decide (w.imm.toNat < immBound)

/-- TRET (R279): IMM is the mode, so A is a register or constant word. -/
def wfTret (w : SysOp) : Bool :=
  w.base 0#8 && w.ext == 0#8 && OpRule.dstS.admits w.d && srcOk .reg .b32 w.a && plainSrc .unused w.b &&
  plainSrc .unused w.c && decide (w.imm.toNat < 2)

/-- The register numbers of R276 and R378. -/
def ctlNumbers : List Nat := [0x001, 0x002, 0x003, 0x004, 0x005, 0x010, 0x011, 0x012]

/-- CTLR and CTLW (R276). -/
def wfCtl (w : SysOp) (write : Bool) : Bool :=
  w.base 0#8 && ctlNumbers.contains w.imm.toNat && plainSrc .unused w.b && plainSrc .unused w.c &&
  (if write then w.d == .none && srcOk .sk .b32 w.a
   else OpRule.dstS.admits w.d && plainSrc .unused w.a)

/-- The checks of R151 that the word alone decides. Events carry no word and are well formed. -/
def Instr.wf : Instr → Bool
  | .iadd w => wfInt w intTys 2 false true
  | .iaddx w => wfIaddx w
  | .isub w => wfInt w intTys 2 false true
  | .imul w => wfInt w mulTys 2 false true
  | .imulh w => wfInt w [.i32, .n32] 2 false false
  | .imad w => wfInt w mulTys 3 false true
  | .imin w => wfInt w intTys 2 false false
  | .imax w => wfInt w intTys 2 false false
  | .iabs w => wfInt w [.i64, .i32, .i16, .i8] 1 false true
  | .ineg w => wfInt w [.i64, .i32, .i16, .i8] 1 false true
  | .icmp w => wfIcmp w
  | .lea w => wfLea w
  | .and w => wfInt w [.b32] 2 false false
  | .or w => wfInt w [.b32] 2 false false
  | .xor w => wfInt w [.b32] 2 false false
  | .not w => wfInt w [.b32] 1 false false
  | .tern w => wfTern w
  | .shl w => wfShift w [.b32, .i64]
  | .shr w => wfShift w [.b32, .i64]
  | .sar w => wfShift w [.i32, .i64]
  | .rol w => wfShift w [.b32]
  | .funsh w => wfFunsh w
  | .bfx w => wfBits w [.n32, .i32] false
  | .bfi w => wfBits w [.b32] true
  | .popc w => wfInt w [.b32] 1 false false
  | .clz w => wfInt w [.b32] 1 false false
  | .brev w => wfInt w [.b32] 1 false false
  | .bytx w => wfInt w [.b32] 3 false false
  | .mov w => wfMov w
  | .sel w => wfSel w
  | .cvti w => wfCvti w
  | .fadd w => wfFloat w faddTys 2 true true false
  | .fmul w => wfFloat w faddTys 2 true true false
  | .ffma w => wfFloat w faddTys 3 true true false
  | .fmin w => wfFloat w faddTys 2 false false false
  | .fmax w => wfFloat w faddTys 2 false false false
  | .fcmp w => wfFcmp w
  | .frnd w => wfFloat w faddTys 1 true false false
  | .fcvt w => wfFcvt w
  | .f2i w => wfF2i w
  | .i2f w => wfI2f w
  | .fdiv w => wfFloat w [.f64, .f32] 2 true false true
  | .fsqrt w => wfFloat w [.f64, .f32] 1 true false true
  | .frcp w => wfSpecial w
  | .frsq w => wfSpecial w
  | .fexp2 w => wfSpecial w
  | .flog2 w => wfSpecial w
  | .fsin w => wfSpecial w
  | .fcos w => wfSpecial w
  | .ftanh w => wfSpecial w
  | .fclass w => wfFclass w
  | .fscalb w => wfFscalb w
  | .ffrexp w => wfFfrexp w
  | .dot2 w => wfDot w [.f16, .bf16] 2
  | .dot4 w => wfDot w [.e4m3, .e5m2, .i8, .n8] 2
  | .dot8 w => wfDot w [.q4] 4
  | .qcvt w => wfQcvt w
  | .dqcvt w => wfDqcvt w
  | .sclmax w => wfSclmax w
  | .lrd w => wfLrd w
  | .pcol w => wfPcol w
  | .redx w => wfRedx w
  | .scanx w => wfScanx w
  | .cmpx w => wfCmpx w
  | .peer w => wfPeer w
  | .bru w => wfBranch w false false
  | .brd w => wfBranch w true true
  | .brx w => wfBrx w
  | .call w => wfCall w
  | .callx w => wfCallx w true
  | .ret w => wfCallx w false
  | .exit w => wfBare w false false
  | .rjset w => wfRjset w
  | .rjwait w => wfBare w true true
  | .rjmovRead w => wfRjmov w false
  | .rjmovWrite w => wfRjmov w true
  | .elect w => wfElect w
  | .nop w => wfBare w false false
  | .sbeg w => wfSbeg w
  | .yield w => wfBare w false false
  | .sleep w => wfSleep w
  | .plop w => wfPlop w
  | .p2s w => wfP2s w
  | .s2p w => wfS2p w
  | .rgrowWait w => wfGrant w 0#4 true
  | .rgrowTry w => wfGrant w 1#4 true
  | .rshrink w => wfGrant w 0#4 false
  | .rqry w => wfRqry w
  | .fmtset w => wfFmtset w 0#4
  | .fmtsetRm w => wfFmtset w 1#4
  | .fmtsetSrs w => wfFmtset w 2#4
  | .fmtget w => wfFmtget w 0#4
  | .fmtgetSrs w => wfFmtget w 2#4
  | .ld w => wfLd w
  | .land w => wfLand w
  | .st w => wfSt w
  | .lds w => wfLds w
  | .sts w => wfSts w
  | .ldc w => wfLdc w
  | .gath w => wfGath w
  | .scat w => wfScat w
  | .ldgs w => wfLdgs w
  | .pref w => wfPref w
  | .cctlWb w => wfCctl w 0#4 true
  | .cctlInv w => wfCctl w 1#4 true
  | .cctlWball w => wfCctl w 2#4 false
  | .cctlInvall w => wfCctl w 3#4 false
  | .tst w => wfTile w true
  | .tld w => wfTile w false
  | .atom w => wfAtomic w [.rlx, .acq, .rel, .ar] [] 2 true true
  | .atoms w => wfAtomic w [.rlx, .acq, .rel, .ar] [.rlx, .rel] 1 true false
  | .red w => wfAtomic w [] [.rlx, .rel] 2 false false
  | .fence w => wfFence w
  | .bara w => wfBarrier w true
  | .barw w => wfBarrier w false
  | .bars w => wfBarrier w true
  | .mbinit w => wfMbinit w
  | .mbarv w => wfObject w .dst false true
  | .mbtst w => wfObject w .dstNV true false
  | .mbwait w => wfObject w .unused false false
  | .tshldGl w => wfTsh w 0#3
  | .tshldSp w => wfTsh w 1#3
  | .tshpSet w => wfTshp w 0#3
  | .tshpAdd w => wfTshp w 1#3
  | .tshpAdd64 w => wfTshp w 2#3
  | .tshstGl w => wfTsh w 0#3
  | .tshstSp w => wfTsh w 1#3
  | .cpy w => wfCpy w
  | .gset w => wfGset w 0#3
  | .gsetClr w => wfGset w 1#3
  | .qfncCq w => wfQueues w 0#3
  | .qfncMq w => wfQueues w 1#3
  | .qfncKq w => wfQueues w 2#3
  | .qwait w => wfQueues w 0#3
  | .mldb w => wfMldb w
  | .mma w => wfMma w
  | .macc w => wfMacc w
  | .mtbl w => wfMtbl w
  | .coll w => wfColl w
  | .sigsSet w => wfSigs w 0#3
  | .sigsAdd w => wfSigs w 1#3
  | .lsadjStep w => wfLsadj w 0#8
  | .lsadjSet w => wfLsadj w 1#8
  | .lsadjGet w => wfLsadj w 2#8
  | .ovfrRd w => w.mode == 0#8 && wfSysDst w 1 1
  | .ovfrRdc w => w.mode == 1#8 && wfSysDst w 2 1
  | .trap w => wfStop w 65536
  | .brk w => wfStop w 1
  | .tret w => wfTret w
  | .halt w => wfStop w 1
  | .ctlr w => wfCtl w false
  | .ctlw w => wfCtl w true
  | .plcq w => wfPlcq w
  | .capq w => wfSysDst w 4 1
  | .clkr w => wfSysDst w 2 2
  | .sleepWake _ | .rgrowGrant _ _ | .tagLanded _ _ | .tldTmo _ | .storeDrain _ | .queueAccept _
  | .guardTest _ | .triggerMet _ _ | .cpyPerformed _ | .mldbPerformed _ | .mmaPerformed _
  | .pchkmis _ _ _ _ | .maccPerformed _ | .mtblPerformed _ | .qfncPerformed _ | .collPerformed _ _
  | .guardopen _ | .chunkExponentUp _ | .chunkExponentDown _ | .chunkDataUp _ | .chunkResultDown _
  | .collAbort _ | .collNeighbourTimeout _ _ _ | .prst _ | .vdrst _ | .trans _ _
  | .uncorrectableError _ | .recordWrite _ | .rjtmo _ _ _ | .fragmentLoad _ _ | .ejectHandover _ _
  | .ejectReturn _ _ | .pageWalkDone _ | .gangForm _ | .blockRetire _ | .entryBegin _ _
  | .periodBoundary _ | .sliceEnd _ | .blockTake _ | .forcedTake _ | .contextSave _ | .gangResume _ _
  | .wdog _ _ | .launch _ _ _ | .waittag _ _ | .waitsig _ _ | .tlbinv _ _ | .tlbinvPerformed _
  | .icinv _ _ | .icinvPerformed _ | .pageresp _ _ | .heldRecordIntake _ _ | .remoteWrite _ _
  | .remoteRead _ _ | .msgResend _ | .captureStart _ _ | .pagePreserve _ _ | .partitionEnable _ _
  | .partitionDisable _ _ | .pcolorWrite _ _ | .genableClear _ | .modrst _ | .queueEnable _ _ _
  | .queueDisable _ _ _ | .qwdtWrite _ _ _ | .vdEnable _ _ _ | .vdDisable _ _ _
  | .vdResetComplete _ | .placeTableWrite _ _ _ _ | .capmWrite _ _ _ | .memberTableWrite _ _ _ _
  | .lossScaleHostWrite _ _ _ _ | .hmRestart _ _ | .registerWrite _ _ _ | .linkDown _ _
  | .securityAlarm _ | .bootRecord _ _ | .selfTestDone _ | .linkUp _ _ | .atomPerformed _
  | .tstPerformed _ | .tldReturn _ | .correctableError _ _ => true

end Sys2Proof
end

