-- ==== Sys2Proof/Machine/Bits.lean ====
section
/-! DEFINITION. Bit fields, integer narrowing and the elements of a register (R6, R8, R84, R85, R141,
R142). -/

namespace Sys2Proof.Machine

/-- The field `[lo + n - 1 : lo]` of a number (R8). -/
def bitField (x lo n : Nat) : Nat := x / 2 ^ lo % 2 ^ n

/-- A 0 or 1 from a Bool. -/
def bit (b : Bool) : Nat := if b then 1 else 0

/-- A number read as two's complement of width `w`. -/
def toSigned (w x : Nat) : Int := if x % 2 ^ w < 2 ^ (w - 1) then (x % 2 ^ w : Nat) else (x % 2 ^ w : Nat) - (2 ^ w : Nat)

/-- wrap(v, w) of R8, as the unsigned number of the bits. -/
def wrap (w : Nat) (v : Int) : Nat := (v % (2 ^ w : Nat)).toNat

/-- The least value of an integer type (R84). -/
def intLeast (signed : Bool) (w : Nat) : Int := if signed then -(2 ^ (w - 1) : Nat) else 0
/-- The greatest value of an integer type (R84). -/
def intGreatest (signed : Bool) (w : Nat) : Int := if signed then (2 ^ (w - 1) : Nat) - 1 else (2 ^ w : Nat) - 1

/-- A value clamped to the range of an integer type (R84). -/
def clampInt (signed : Bool) (w : Nat) (v : Int) : Int :=
  max (intLeast signed w) (min (intGreatest signed w) v)

/-- An integer element read by the signedness of its type (R84). -/
def readInt (signed : Bool) (w x : Nat) : Int := if signed then toSigned w x else (x % 2 ^ w : Nat)

/-- Element `k` of width `w` of a value (R85). -/
def element (x w k : Nat) : Nat := bitField x (w * k) w

/-- A value from its elements of width `w`, element 0 first (R85). -/
def packElements (w : Nat) : List Nat → Nat
  | [] => 0
  | e :: es => e % 2 ^ w + 2 ^ w * packElements w es

/-- The elements of width `w` of an `n`-bit value. -/
def elements (n w x : Nat) : List Nat := (List.range (n / w)).map (element x w)

/-- The value with element `k` replaced. -/
def setElement (x w k e : Nat) : Nat := x - element x w k * 2 ^ (w * k) + e % 2 ^ w * 2 ^ (w * k)

/-- An element modifier on a 32-bit value (R141); the width is that of the operand's format. -/
def applyModif (m : Modif) (w x : Nat) : Nat :=
  match m with
  | .packed => x
  | .swh => packElements 16 [element x 16 1, element x 16 0]
  | .swb => packElements 8 [element x 8 1, element x 8 0, element x 8 3, element x 8 2]
  | .rvb => packElements 8 [element x 8 3, element x 8 2, element x 8 1, element x 8 0]
  | .rtn => (x * 16 + x / 2 ^ 28) % 2 ^ 32
  | .sel i => packElements w (List.replicate (32 / w) (element x w i.toNat))

/-- The absolute and negate bits on one element (R142). DEDUCED: R142 names `.q4` neither among the floating-point nor
among the signed integer formats, nor among those where the bits must be zero, so they are admitted on it and return the
element as it is. -/
def absNegElement (t : Ty) (w : Nat) (abs neg : Bool) (e : Nat) : Nat :=
  if t.isFloat then
    let top := 2 ^ (w - 1)
    let e := if abs then e % top else e
    if neg then (if e < top then e + top else e - top) else e
  else if t.isSignedInt then
    let e := if abs then wrap w (toSigned w e).natAbs else e
    if neg then wrap w (-(toSigned w e)) else e
  else e

/-- The width of the elements that the absolute and negate bits act on; `.f32x2` has two of 32. -/
def elemWidth (t : Ty) : Nat := if t == .f32x2 then 32 else t.width

/-- The bits an operand of the type has: a register or a pair (R43). -/
def tyBits (t : Ty) : Nat := if t.isPair then 64 else 32

/-- A source value after its modifier, its absolute and its negate bit (R141, R142). -/
def modifySource (t : Ty) (s : Src) (x : Nat) : Nat :=
  let x := if t.isPair then x else applyModif s.modif t.width x
  if s.abs || s.neg then
    packElements (elemWidth t) ((elements (tyBits t) (elemWidth t) x).map (absNegElement t (elemWidth t) s.abs s.neg))
  else x

/-- Bit `i` of a number. -/
def testBit (x i : Nat) : Bool := x / 2 ^ i % 2 == 1

/-- The set bits of a number below `n`, lowest first. -/
def setBits (n x : Nat) : List Nat := (List.range n).filter (testBit x)

/-- The lanes of a mask, in ascending order. -/
def maskLanes (m : W64) : List Nat := (List.range 64).filter fun i => m.getLsbD i

/-- The mask of a list of lanes. -/
def lanesMask (ls : List Nat) : W64 := ls.foldl (fun m i => m ||| (1#64 <<< i)) 0#64

/-- The number of lanes of a mask. -/
def maskCount (m : W64) : Nat := (maskLanes m).length

end Sys2Proof.Machine
end

