-- ==== Sys2Proof/Machine/Table.lean ====
section
/-! DEFINITION. Finite tables as lists of pairs in rising key order. A value equal to the default of
its table is not listed, so equal tables are equal lists. -/

namespace Sys2Proof.Machine

/-- A table: pairs of a key and a value. -/
abbrev Tbl (α : Type) := List (Nat × α)

/-- The value at a key, if one is listed. -/
def tblFind {α : Type} : Tbl α → Nat → Option α
  | [], _ => none
  | (k, v) :: t, i => if k = i then some v else tblFind t i

/-- The table without a key. -/
def tblErase {α : Type} : Tbl α → Nat → Tbl α
  | [], _ => []
  | (k, v) :: t, i => if k = i then tblErase t i else (k, v) :: tblErase t i

/-- The pair put before the first larger key. -/
def tblPut {α : Type} : Tbl α → Nat → α → Tbl α
  | [], i, x => [(i, x)]
  | (k, v) :: t, i, x => if k < i then (k, v) :: tblPut t i x else (i, x) :: (k, v) :: t

/-- The table with a value at a key. -/
def tblInsert {α : Type} (t : Tbl α) (i : Nat) (x : α) : Tbl α := tblPut (tblErase t i) i x

/-- The value at a key, the default where none is listed. -/
def tblGet {α : Type} (d : α) (t : Tbl α) (i : Nat) : α := (tblFind t i).getD d

/-- The table with a value at a key; the default is not listed. -/
def tblSet {α : Type} [DecidableEq α] (d : α) (t : Tbl α) (i : Nat) (x : α) : Tbl α :=
  if x = d then tblErase t i else tblInsert t i x

/-- The table with the value at a key changed, where one is listed. -/
def tblModify {α : Type} (t : Tbl α) (i : Nat) (f : α → α) : Tbl α :=
  match tblFind t i with
  | none => t
  | some x => tblInsert t i (f x)

/-- The keys in strictly rising order. -/
def tblSorted {α : Type} : Tbl α → Bool
  | [] => true
  | [_] => true
  | (k, _) :: (l, w) :: t => decide (k < l) && tblSorted ((l, w) :: t)

/-- A set of numbers without repeats, for sets such as poisoned granules. -/
def setInsert (t : List Nat) (i : Nat) : List Nat := if t.contains i then t else i :: t

/-- The set without a number. -/
def setErase (t : List Nat) (i : Nat) : List Nat := t.filter (· != i)

/-- The numbers from `a`, `n` of them. -/
def upFrom (a n : Nat) : List Nat := (List.range n).map (a + ·)

end Sys2Proof.Machine
end

