-- ==== Sys2Proof/Machine/State.lean ====
section
/-! DEFINITION. The state of the module: plain data, every piece of state the manual names, with the
reset values it states. Times are ticks of 1/112 ns, in which a core cycle is 64 ticks and a tender
cycle 35 (R3). Physical cores are numbered 32 × cluster + core, clusters 0 to 63, partitions 0 to 63,
tender contexts 8 × tender + context within their die. -/

namespace Sys2Proof.Machine

/-- Global memory: pairs of a physical address (R106) and a byte. -/
abbrev Memory := List Host.Cell

/-- What an unlisted byte of memory reads as: the manual gives no contents after power-on. -/
def Memory.unlisted : Byte := 0#8

/-- Physical bytes that a save has overwritten with a context whose layout the manual does not give (R301, R389):
what they read as is open until they are written. -/
structure SaveBytes where
  base : Nat
  size : Nat
  draw : Nat
deriving DecidableEq, Repr

/-- The canonical form of memory: rising addresses, no entry equal to what an unlisted byte is. -/
def Memory.wf (m : Memory) : Bool := tblSorted m && m.all fun c => c.2 != Memory.unlisted

/-! ### Threads and width groups -/

/-- A thread's own state (R26, R46, R93, R232, R362). -/
structure Thread where
  /-- Below n (R25). -/
  present : Bool
  /-- It executed EXIT. -/
  exited : Bool
  /-- It is away on a tender (R77). -/
  away : Bool
  v : Tbl W32
  n : Tbl W32
  p : BitVec 7
  srs : W32
  /-- SRS as recorded at the last SBEG (R95). -/
  srsRst : W32
  arv : BitVec 16
  /-- Poisoned vector registers (R362). -/
  bad : List Nat
deriving DecidableEq, Repr

/-- A lane that holds no thread (R25). -/
def Thread.absent : Thread := ⟨false, true, false, [], [], 0#7, 1#32, 1#32, 0#16, []⟩

/-- A rejoin register: its image, the mask of lanes 32 to 63, and the time of the first arrival with
the timeout that governs it (R65, R73). -/
structure RejReg where
  img : W64
  hi : W32
  arrival : Option (Nat × Nat)
deriving DecidableEq, Repr

/-- An empty rejoin register. -/
def RejReg.empty : RejReg := ⟨0#64, 0#32, none⟩

/-- The states of a landing tag (R49). -/
inductive TagSt where
  | empty | pending | landed | consumed
deriving DecidableEq, Repr

/-- A landing tag: its state, the lanes of the load, the lanes of its fragment for a scalar load, the
bytes per lane (lane 0 for a scalar load), the lanes with poison, each as lane + 64 × storage level of
R363, the flag new, and the acquire its landing performs (R49, R218). -/
structure Tag where
  st : TagSt
  mask : W64
  scalar : Bool
  data : Tbl (List Byte)
  bad : List Nat
  fresh : Bool
  acq : Option Scope
deriving DecidableEq, Repr

/-- An empty tag. -/
def Tag.empty : Tag := ⟨.empty, 0#64, false, [], [], false, none⟩

/-- A register or predicate that a pending lookahead result writes (R51). -/
inductive RegLoc where
  | near (lane i : Nat)
  | vec (lane i : Nat)
  | scal (i : Nat)
  | pred (lane i : Nat)
deriving DecidableEq, Repr

/-- A pending lookahead result: the instructions still to issue, and what it writes (R51). -/
structure Pend where
  left : Nat
  writes : List (RegLoc × W32)
deriving DecidableEq, Repr

/-- A second half-issue still to take place (R30): from which tick, its instruction, and what the first one has changed: the
pending results and the threads as they were before it. -/
structure Half where
  due : Nat
  instr : Instr
  pend : List Pend
  threads : List Thread
deriving DecidableEq, Repr

/-- The strand state that an abort restores (R57, R58, R207, R127). -/
structure Restart where
  pc : Nat
  sid : Nat
  fmt : W32
  xemp : Bool
  mark : Option Scope
deriving DecidableEq, Repr

/-- A stopped fragment (R323, R278): its handle, its cause, and a TRET taken during suspension
(R344). -/
structure Stop where
  handle : Nat
  cause : Nat
  tret : Option Nat
deriving DecidableEq, Repr

/-- Where a fragment lives (R61): an entry of the split table or a slot of the context area; or a recalled lane still outside
its warp, which has no room for it (R61, R63, R80). -/
inductive Slot where
  | entry (i : Nat)
  | spilled (i : Nat)
  | outside
deriving DecidableEq, Repr

/-- The engine queues an instruction waits for, by the entries they still hold (R253). -/
abbrev QueueWait := List (QueueId × List Nat)

/-- What a fragment waits for (R39); `none` when it is ready. -/
inductive Wait where
  | none
  /-- RJWAIT on a rejoin register (R67). -/
  | rejoin (j : Nat)
  /-- A named barrier, for the lanes given (R233): a BARS, with the scope of the acquire that ends its wait,
  or a BARW, which is issued again. -/
  | barrier (n : Nat) (lanes : W64) (bars : Option Scope)
  /-- MBWAIT: lane, core and offset of the object, and parity (R237). -/
  | object (items : List (Nat × Nat × Nat × Bool)) (scope : Scope)
  /-- QWAIT (R253). -/
  | queues (q : QueueWait)
  /-- SLEEP until a tick; a YIELD also ends when no other fragment of the quadrant is ready (R185). -/
  | sleep (till : Nat) (yielding : Bool)
  /-- Parked on an absent scratchpad line (R105). -/
  | line (core line : Nat)
  /-- Parked on a pending landing tag (R49). -/
  | tag (t : Nat)
  /-- A walk of the translation unit (R114), with the address and the record fields of its waiter. -/
  | walk (id : Nat) (va : W64) (ak : Nat) (tag : Option Nat)
  /-- A page request (R356), with the record fields that a failed response repeats. -/
  | page (id detail : Nat) (addr : W64) (ak : Nat) (tag : Option Nat) (fpc : Nat)
  /-- TLD since a tick (R133, R361), with the translated pieces of its tiles: lane, offset in the tile,
  physical address, bytes (R355). -/
  | tld (since : Nat) (items : List (Nat × Nat × Nat × Nat))
  /-- A blocking RGROW, by its place in the order of requests, and its count (R48). -/
  | grow (order count : Nat)
  /-- Its instruction is tested again at its next issue. -/
  | perform
  /-- An ATOM, or an ATOMS with a destination, that has committed and not performed (R230). -/
  | atom
  /-- A command that stalls on a full queue, by its place in the order (R240). -/
  | engine (q : QueueId) (order : Nat)
  /-- The hand-over of an ejected side: the serial number of its commit, and the tick its drain ended
  (R76). -/
  | handover (serial : Nat) (drained : Option Nat)
deriving DecidableEq, Repr

/-- What the next fetched word must be (R174, R331): an SBEG at a point of R331, or at a register
target; with the PC of the branch or of the instruction before. -/
inductive Expect where
  | strand (point fromPc : Nat)
  | target (fromPc : Nat)
deriving DecidableEq, Repr

/-- A fragment (R60). The PC is a byte offset from the code base. -/
structure Frag where
  fid : Nat
  mask : W64
  pc : Nat
  depth : Nat
  carried : Option Nat
  fmt : W32
  xemp : Bool
  rst : Restart
  /-- The release mark (R127). -/
  mark : Option Scope
  shrink : Option Nat
  /-- A pending clear of OVF (R270). -/
  ovfClear : Bool
  wait : Wait
  stop : Option Stop
  /-- TRANS aborts since the last strand that ran to its end (R338). -/
  trans : Nat
  pend : List Pend
  slot : Slot
  /-- Order of loading, and whether it has issued since (R72). -/
  loaded : Nat
  issued : Bool
  /-- Its own issue opportunities since its last issue (R71). -/
  missed : Nat
  readyAt : Nat
  /-- The tick from which its next instruction may issue: after the second half-issue of the last one (R30). It is ready
  meanwhile (R39). -/
  halfTill : Nat
  /-- The second half-issue of the instruction at its PC, where the first has taken place (R30). -/
  half : Option Half
  /-- While it is spilled: the cycle in which it was found ready, for the order of the load queue (R72). -/
  readySince : Option Nat
  /-- The strand-ending instruction at its PC has committed (R56). -/
  committed : Bool
  /-- The instruction at its PC has counted as issued for the lookahead windows (R51). -/
  counted : Bool
  expect : Option Expect
  /-- It stands at its restart point because of an abort (R338). -/
  rerun : Bool
  /-- Tender contexts reserved for the lanes of an ejected side (R74). -/
  ctxs : Tbl Nat
deriving DecidableEq, Repr

/-- Where an item of a store lands (R103, R106): global memory with its translation, or a
scratchpad. -/
inductive Place where
  | glob (pa : Nat) (va : W64) (pte : Nat) (pageBase pageSize : Nat)
  | scratch (core off : Nat)
deriving DecidableEq, Repr

/-- What an item of a store entry does (R220, R229). -/
inductive StoreAct where
  | bytes (bs : List Byte)
  | nibble (high : Bool) (code : BitVec 4)
  | atomic (aop : Nat) (ty : Ty) (b : W64)
deriving DecidableEq, Repr

/-- A part of a store entry: the lane that performs it, and the lanes whose own store it is (R121): that lane, or every lane for
which a scalar store acts. They are numbered within their group, at width 16 within their warp. -/
structure SItem where
  lane : Nat
  owners : W64
  place : Place
  act : StoreAct
  /-- What another part of its store has written at its place stands: it writes nothing there (R120). -/
  beaten : Bool
deriving DecidableEq, Repr

/-- A strand-buffer or FIFO store-queue entry (R55, R57): the lanes of its fragment whose store it is, its items, the
scope of a strong access, and the release mark it has taken (R127). -/
structure SEntry where
  /-- The store that it is a part of (R120). -/
  store : Nat
  mask : W64
  items : List SItem
  strong : Option Scope
  rel : Option Scope
  /-- It is the write of an ejected lane or of the harbourmaster, which bypasses the slices (R78). -/
  bypass : Bool
  /-- It belongs to an earlier commit, for the order of R134. -/
  serial : Nat
  /-- The acquire loads before it that had not landed, as group and tag: it performs after them (R126, R218). -/
  acqs : List (Nat × Nat)
  /-- Its lines are to be replaced first (R215). -/
  first : Bool
deriving DecidableEq, Repr

/-- A TST accepted by its home die and not yet performed (R133): the bytes at their physical addresses
with the leaves that translated them, the offsets of poisoned bytes, and with AON the stores of the procedure done and the
version that it found. -/
structure TileStore where
  serial : Nat
  stage : Nat
  ver : Nat
  mask : W64
  segs : List (Nat × Nat × List Byte)
  aon : Bool
  scope : Scope
  bad : List Nat
deriving DecidableEq, Repr

/-- A width group (R29) and its fragments, strand-buffer entries and accepted tile stores. -/
structure Group where
  width : Nat
  /-- The group index g of R24. -/
  index : Nat
  s : Tbl W32
  j : Tbl RejReg
  /-- Manifests, as 32 words each (R246). -/
  t : Tbl (Tbl W32)
  /-- Results of TSHLD on their way, by manifest, with the lanes of the fragment (R248). -/
  mloads : Tbl (W64 × Tbl W32)
  tags : Tbl Tag
  ovf : Bool
  ovfn : Bool
  lanes : List Thread
  frags : List Frag
  sbuf : List SEntry
  tsts : List TileStore
deriving DecidableEq, Repr

/-- A hardware warp's own state: requested and granted counts (R47), RJDS (R340), its FIFO store
queue (R57). -/
structure Warp where
  c : Nat
  g : Nat
  rjds : Bool
  fifo : List SEntry
deriving DecidableEq, Repr

/-! ### Engines -/

/-- One chunk of a collective in work (R102, R313): the children heard at each stage, the agreed
exponent, the sums and the marks of special values, the children whose subtree is not complete, at the exponent stage and at
the data stage. -/
structure Chunk where
  expFrom : List Nat
  expLacks : List Nat
  emax : Option Int
  agreed : Option (Option Int)
  dataFrom : List Nat
  sums : List Int
  spec : List Nat
  cnt : Nat
  lacks : List Nat
  expSent : Bool
  dataSent : Bool
  /-- 0 complete, 1 absent, 2 poisoned (R374); `none` while in work. -/
  status : Option Nat
deriving DecidableEq, Repr

/-- A chunk of which nothing is known. -/
def Chunk.empty : Chunk := ⟨[], [], none, none, [], [], [], 0, [], false, false, none⟩

/-- A collective in work on a member (R263, R373). -/
structure CollRun where
  j : Nat
  /-- The physical address of the trigger word, once translated, and its threshold (R264). -/
  watch : Option (Nat × W32)
  triggered : Bool
  chunks : Tbl Chunk
  aborted : Bool
  /-- By neighbour that a chunk waits for, the tick since which it has not answered (R372): the parent is 0, child i
  is 1 + i. -/
  waits : Tbl Nat
deriving DecidableEq, Repr

/-- The operation of an engine queue entry, with what acceptance captured (R240). -/
inductive EngineOp where
  | cpy (m : Tbl W32) (so off : W32)
  | ldgs (va : W64) (dst : W32) (len : Nat)
  | qfnc (names : QueueWait)
  | mldb (k quarter : Nat) (ty : Ty) (west : Bool) (data : List (List W32)) (scales : List Byte)
  | mma (ty : Ty) (n k : Nat) (z pchk : Bool) (a b c : W32)
  | macc (ty : Ty) (rnd : Rnd) (n : Nat) (dreg bias act zero sat : Bool) (a b c : W32) (seed : W32)
  | mtbl (a : W32)
  | coll (ty : Ty) (kind x : Nat) (m : Tbl W32) (a : W32) (trigger : Option W64) (thr : W32)
deriving DecidableEq, Repr

/-- An engine queue entry: its number, who issued it, its barrier object, its guard slot, and how far
it is (R240 to R243, R354, R369). -/
structure QEntry where
  id : Nat
  fe : Nat
  vd : Nat
  core : Nat
  block : Nat
  gang : Nat
  warp : Nat
  pc : Nat
  /-- Serial number of the command's own commit, for R134. -/
  serial : Nat
  obj : Option W32
  gate : Option Nat
  op : EngineOp
  /-- Its guard has been found true (R243). -/
  passed : Bool
  /-- It has begun to perform. -/
  begun : Bool
  /-- Bytes of the tile already copied. -/
  progress : Nat
  /-- The page request it waits on. -/
  page : Option Nat
  /-- Parity errors in a row of its unit of work (R369); 4 for one that an error in its queue slot ends (R362). -/
  retries : Nat
  /-- The scratchpad lines it holds absent, as core and line (R104). -/
  lines : List (Nat × Nat)
  /-- The storage level of poison it has carried, and the destination granules that have received it (R364). -/
  taint : Option Nat
  spoilt : List Nat
  run : Option CollRun
deriving DecidableEq, Repr

/-- A quarter of a stationary buffer (R255): its type and edge, per register the words of the 32 lanes,
and the scale bytes. -/
structure Quarter where
  ty : Ty
  west : Bool
  regs : List (List W32)
  scales : List Byte
deriving DecidableEq, Repr

/-- One stationary buffer (R254): the valid bit of each quarter and what was loaded. -/
structure StatBuf where
  qv : BitVec 4
  quarters : Tbl Quarter
deriving DecidableEq, Repr

/-- An empty stationary buffer. -/
def StatBuf.empty : StatBuf := ⟨0#4, []⟩

/-- A pair check whose outcome is not reported (R370): the MMA, its tile, and the tick of its performance. -/
structure PairCheck where
  entry : QEntry
  tile : Nat
  since : Nat
deriving DecidableEq, Repr

/-- The engine of an aligned core pair (R254, R260). -/
structure Pair where
  queue : List QEntry
  sb0 : StatBuf
  sb1 : StatBuf
  lo : W32
  scl : W32
  slope : Tbl W32
  icpt : Tbl W32
  tblBad : Bool
  /-- Oldest first. -/
  checks : List PairCheck
deriving DecidableEq, Repr

/-- A pair that has loaded nothing. -/
def Pair.empty : Pair := ⟨[], .empty, .empty, 0#32, 0#32, [], [], false, []⟩

/-! ### Kernels and blocks -/

/-- What a kernel descriptor states (R314). The width is `none` when none is declared. -/
structure Kernel where
  n : Nat
  width : Option Nat
  gp : Nat
  gf : Nat
  g : Nat
  scratch : Nat
  useMask : W64
  codeBase : W64
  codeSize : Nat
  survTab : W64
  survN : Nat
  barrTab : W64
  barrN : Nat
  bank : List W32
deriving DecidableEq, Repr

/-- The states of a placed block (R35). -/
inductive BlockSt where
  | placed | running | suspended | retiring
deriving DecidableEq, Repr

/-- The states of a guard slot (R242); `unset` is open. -/
inductive Gate where
  | unset | yes | no
deriving DecidableEq, Repr

/-- A named barrier (R232). -/
structure Barrier where
  cnt : Nat
  exp : Nat
deriving DecidableEq, Repr

/-- A block on its core (R22, R26, R35). -/
structure Block where
  fe : Nat
  vd : Nat
  part : Nat
  queue : Nat
  tag : Nat
  index : Nat
  gang : Nat
  rank : Nat
  gangSize : Nat
  /-- Logical cluster index and logical core (R284). -/
  lclu : Nat
  lcore : Nat
  kern : Kernel
  st : BlockSt
  groups : List Group
  warps : List Warp
  bars : Tbl Barrier
  gates : Tbl Gate
  /-- The tick its take was requested (R298), if it is being taken. -/
  taking : Option Nat
  /-- It has issued no instruction since it was placed or restored. -/
  first : Bool
  /-- The scratchpad ranges to save, as offset and bytes, once it is suspended (R299). -/
  kept : List (Nat × Nat)
  /-- The bytes of registers, manifests and tag data to save (R299, R301). -/
  keptBytes : Nat
  /-- Engine entries withdrawn from it, oldest first, with the queue each was in (R245). -/
  withdrawn : List (QueueId × QEntry)
  /-- Module time at its last save: no thread of it reads an earlier one (R283). -/
  gtFloor : Nat
deriving DecidableEq, Repr

/-- A translation that a TLB holds (R114), tagged with its device and the device's generation; the space is
256 × front end + virtual device, or 0x10000 + partition for a harbourmaster. -/
structure TlbEntry where
  space : Nat
  vdGen : BitVec 16
  base : Nat
  size : Nat
  pa : Nat
  wr : Bool
  x : Bool
  h : Bool
  gen : Bool
  c : Bool
  d : Bool
  pte : Nat
deriving DecidableEq, Repr

/-- A physical core (R13, R27, R104). -/
structure Core where
  block : Option Block
  /-- 256 × front end + virtual device of the block it last ran (R27). -/
  lastVd : Option Nat
  scratch : Tbl Byte
  scratchBad : List Nat
  /-- Outstanding writers of the absent lines (R104). -/
  writers : Tbl Nat
  /-- Accumulator words, index 4096 × tile + 32 × row + column (R107). -/
  acc : Tbl W32
  accBad : List Nat
  queue : List QEntry
  tlb : List TlbEntry
  /-- The tick to which each quadrant's vector issue is held (R191). -/
  held : Tbl Nat
  /-- The tick to which each quadrant's scalar issue is held (R399). -/
  heldS : Tbl Nat
  capm : W64
  capmBad : Bool
deriving DecidableEq, Repr

/-- A core after reset. -/
def Core.empty : Core := ⟨none, none, [], [], [], [], [], [], [], [], [], 0#64, false⟩

/-- A line of an L2 slice (R109): its bytes, which of its 4-bit elements are dirty (R120: bits 2i and 2i + 1 for the low
and the high one of byte i), its poisoned granules. -/
structure L2Line where
  data : Tbl Byte
  dirty : BitVec 256
  bad : List Nat
  /-- It is marked first for replacement (R215). -/
  first : Bool
deriving DecidableEq, Repr

/-- A lane away on a tender (R76, R77): its own copy of its group's state, holding that lane alone,
its FIFO store queue, its context. -/
structure Ejected where
  core : Nat
  thread : Nat
  ctx : Nat
  grp : Group
  fifo : List SEntry
  g : Nat
  readyAt : Nat
  /-- The rejoin register that it carried at the hand-over, with the RPC and the DEPTH of its image then (R79). -/
  home : Option (Nat × Nat × Nat)
  /-- The lines of global memory that its stores have written (R79). -/
  wrote : List Nat
deriving DecidableEq, Repr

/-- A harbourmaster (R268, R377). -/
structure Super where
  ctx : Option Nat
  run : Bool
  trapped : Bool
  halted : Bool
  kern : Option Kernel
  root : Nat
  grp : Group
  fifo : List SEntry
  g : Nat
  tlb : List TlbEntry
deriving DecidableEq, Repr

/-! ### Front ends, partitions, virtual devices -/

/-- A grid (R22, R33): the next block to form, the gangs formed, the blocks retired, and whether its
last check of R330 failed. -/
structure Grid where
  kern : Kernel
  blocks : Nat
  formed : Nat
  gangs : Nat
  retired : Nat
  failed : Bool
deriving DecidableEq, Repr

/-- A queue entry of a front end (R288). -/
structure Entry where
  tag : Nat
  hdr : BitVec 512
  begun : Bool
  completed : Bool
  status : Nat
  poisoned : Bool
  page : Option Nat
  /-- WAITSIG: the physical address it is tested at, with the page that it was translated in, and whether its condition has been
  met (R288). -/
  watch : Option (Nat × Nat × Nat)
  met : Bool
  grid : Option Grid
deriving DecidableEq, Repr

/-- A hardware queue (R287, R308, R382). -/
structure Queue where
  en : Bool
  pri : BitVec 2
  vd : Nat
  ctag : Nat
  /-- Entries not completed, with completed ones behind an earlier one still running. -/
  entries : List Entry
  /-- The next SEQ of intake, and the records held before it (R308). -/
  next : Nat
  held : List (BitVec 512 × List W32)
  /-- Tags rejected with STATUS 2, which complete without a DONE. -/
  wdt : BitVec 16
  wdx : Bool
  /-- Ticks the watchdog has counted. -/
  count : Nat
deriving DecidableEq, Repr

/-- A hardware queue after reset. -/
def Queue.empty : Queue := ⟨false, 0#2, 0, 0, [], 1, [], 0#16, false, 0⟩

/-- A front end (R284 to R290, R385, R390). -/
structure Fe where
  queues : Tbl Queue
  /-- The queue that last formed a gang, by priority, the second partition's from 4 on (R290). -/
  last : Tbl Nat
  stale : Nat
  lost : Nat
  /-- Messages the transport has not delivered, each with the endpoint it goes to (R390). -/
  retained : List (List Byte × List Byte)
deriving DecidableEq, Repr

/-- A front end after reset. -/
def Fe.empty : Fe := ⟨[], [], 0, 0, []⟩

/-- A gang held by the time-allowance scheduler (R299 to R302). -/
structure SavedGang where
  fe : Nat
  vd : Nat
  gang : Nat
  queue : Nat
  tag : Nat
  blocks : List Block
  /-- By block: the saved ranges of the scratchpad, the accumulators, their poison, the state of R262 of the
  pair. -/
  scratch : List (List (Nat × List Byte))
  acc : List (Tbl W32)
  bad : List (List Nat × List Nat)
  pairs : List Pair
  /-- The cluster that it ran on, and the part of the save area to which its context has gone (R301); `none` while the shadow
  reserve of that cluster holds it. -/
  cluster : Nat
  area : Option SaveBytes
deriving DecidableEq, Repr

/-- A partition slot (R285, R327, R377) and its state in time (R295 to R297). -/
structure Part where
  en : Bool
  base : Nat
  limit : Nat
  colours : BitVec 16
  taper : BitVec 16
  taslice : BitVec 16
  /-- TAPER and TASLICE in effect since the last period boundary (R285). -/
  taperNow : BitVec 16
  tasliceNow : BitVec 16
  kqslot : Nat
  ejctx : Nat
  /-- Collective slots and tender contexts granted per die at the enable. -/
  kqGrant : Tbl Nat
  ejGrant : Tbl Nat
  divctl : W32
  engbw : W32
  dbgctl : W32
  frbase : Nat
  wcnt : Nat
  sz : Nat
  fpol : W32
  /-- Records in the ring that are not delivered, oldest first, and records held (R327). -/
  ring : List (BitVec 512)
  heldRecs : List (BitVec 512)
  lost : Bool
  handle : Nat
  hmdesc : W64
  hmroot : Nat
  disabling : Bool
  resetting : List Nat
  /-- Resident virtual device, start of the period, first issue of the slice. -/
  resident : Option Nat
  period : Nat
  slice : Option Nat
  /-- The resident device is being taken, with the device selected to follow. -/
  switching : Bool
  successor : Option Nat
  saved : List SavedGang
  /-- By cluster, the device whose context its shadow reserve holds (R110, R301). -/
  reserve : Tbl Nat
deriving DecidableEq, Repr

/-- A partition slot after reset (R285, R327, R377, R73, R266, R277). -/
def Part.empty : Part where
  en := false
  base := 0
  limit := 0
  colours := 0#16
  taper := 1000#16
  taslice := 200#16
  taperNow := 1000#16
  tasliceNow := 200#16
  kqslot := 16
  ejctx := 16
  kqGrant := []
  ejGrant := []
  divctl := 0x00400002#32
  engbw := 0x00000101#32
  dbgctl := 0#32
  frbase := 0
  wcnt := 0
  sz := 0
  fpol := 0#32
  ring := []
  heldRecs := []
  lost := false
  handle := 0
  hmdesc := 0#64
  hmroot := 0
  disabling := false
  resetting := []
  resident := none
  period := 0
  slice := none
  switching := false
  successor := none
  saved := []
  reserve := []

/-- The registers a front end holds for a virtual device (R271, R292, R293, R294, R305), with its
share of the partition's time (R296). -/
structure Vd where
  en : Bool
  part : BitVec 6
  cap : BitVec 8
  weight : BitVec 8
  save : W64
  root : Nat
  busy : Bool
  refusedBit : Bool
  genc : Bool
  capoff : W64
  gen : BitVec 16
  lsc : W32
  lsmin : W32
  lsmax : W32
  lsint : W32
  lsrun : W32
  lsstep : W32
  lskip : Bool
  /-- The place table as 32-bit words at their byte offset. -/
  place : Tbl W32
  placeBad : List Nat
  regsBad : Bool
  /-- A reset in progress, with its reason (R379). -/
  resetting : Option Nat
  /-- The partition that PART named when the last reset started. -/
  resetPart : Nat
  /-- Remaining allowance, charged time, whether it has been idle throughout the period and was throughout the
  one before, and whether it was runnable when last looked at (R296). -/
  allow : Nat
  charged : Nat
  idle : Bool
  wasIdle : Bool
  ran : Bool
deriving DecidableEq, Repr

/-- A virtual device's registers after reset. -/
def Vd.empty : Vd where
  en := false
  part := 0#6
  cap := 0#8
  weight := 1#8
  save := 0#64
  root := 0
  busy := false
  refusedBit := false
  genc := false
  capoff := 0#64
  gen := 0#16
  lsc := 0x47800000#32
  lsmin := 0x3F800000#32
  lsmax := 0x4B800000#32
  lsint := 2000#32
  lsrun := 0#32
  lsstep := 0xFFFFFFFF#32
  lskip := false
  place := []
  placeBad := []
  regsBad := false
  resetting := none
  resetPart := 0
  allow := 0
  charged := 0
  idle := true
  wasIdle := true
  ran := false

/-- The state of a member table apart from its words (R263, R373, R388). -/
structure Member where
  words : Tbl W32
  j : Nat
  broken : Bool
  /-- The words that are poisoned, by their byte offset (R388). -/
  bad : List Nat
  /-- Aborts received for COLLs that have not begun: the index, and the endpoint of the sender. -/
  aborts : List (Nat × W32)
deriving DecidableEq, Repr

/-- A member table after reset. -/
def Member.empty : Member := ⟨[], 0, false, [], []⟩

/-- A die's own registers (R111, R363), and the dies that it knows to be lost (R372). -/
structure Die where
  foreign : Nat
  ras : Tbl W32
  ctmo : BitVec 16
  up : BitVec 5
  down : BitVec 5
  lost : List Nat
deriving DecidableEq, Repr

/-- A die after reset: its links are down until they train (R318). -/
def Die.empty : Die := ⟨0, [], 100#16, 0#5, 0#5, []⟩

/-- Who a walk or a page request serves (R356). -/
inductive Requester where
  | thread | engine | quay
deriving DecidableEq, Repr

/-- An access as translation sees it (R310, R356). -/
inductive Access where
  | read | write | fetch | atomic
deriving DecidableEq, Repr

/-- A leaf of the page tables (R113). -/
structure Leaf where
  pte : Nat
  val : Nat
  base : Nat
  size : Nat
deriving DecidableEq, Repr

/-- The result of a walk: a leaf, or the level, the DETAIL and the region of the failing entry (R114,
R356). -/
inductive WalkRes where
  | leaf (l : Leaf)
  | fail (level detail base size : Nat)
deriving DecidableEq, Repr

/-- A walk of a die for a miss of its cores (R114): the first access that asked for it and its core, and what the entries lead
to as they stood when it began (R293, R395); `none` while it waits for a walker. -/
structure Walk where
  id : Nat
  space : Nat
  va : W64
  acc : Access
  core : Nat
  found : Option WalkRes
  /-- A TLBINV has named its page since it began, so that no TLB takes its result (R308, R358). -/
  stale : Bool
deriving DecidableEq, Repr

/-- An outstanding page request (R114, R356). -/
structure PageReq where
  id : Nat
  fe : Nat
  vd : Nat
  level : Nat
  detail : Nat
  base : Nat
  size : Nat
  req : Requester
deriving DecidableEq, Repr

/-- A TLBINV or ICINV in work (R308, R316). -/
structure Command where
  id : Nat
  fe : Nat
  hdr : BitVec 512
  /-- The walks that began before it. -/
  walks : List Nat
deriving DecidableEq, Repr

/-- A code line that a core or a tender holds (R316). Cores are 0 to 2047, tenders follow. -/
structure CodeLine where
  holder : Nat
  space : Nat
  va : Nat
  bytes : List Byte
deriving DecidableEq, Repr

/-- The steps of boot (R318). -/
inductive BootSt where
  | waiting | testing | open | failed
deriving DecidableEq, Repr

/-- What a remote access of the host answers (R304, R364). -/
structure Answer where
  ok : Bool
  data : List Byte
deriving DecidableEq, Repr

/-- The turn of one step of the model: what happens next in the module. The list of turns resolves
every order the manual leaves to the module's units and to the host. -/
inductive Turn where
  /-- A quadrant selects and issues (R71). -/
  | quad (core q : Nat)
  /-- A tender takes its tender cycle (R77). -/
  | tender (die t : Nat)
  /-- An event of the module. -/
  | event (i : Instr)
  /-- Core cycles pass, in each of which every quadrant and tender selects (R71, R77). -/
  | tick (cycles : Nat)
  /-- A parity error strikes an agent at its perform step (R337). -/
  | strike (a : Agent)
  /-- A parity error in the datapath of the engine that works on the head of a queue (R369). -/
  | parity (q : QueueId)
  /-- A slice evicts a line (R109). -/
  | evict (cluster line : Nat)
  /-- An instruction cache drops a line (R316). -/
  | dropCode (holder va : Nat)
  /-- The host sends to a command endpoint (R306). -/
  | send (fe : Nat) (bytes : List Byte)
deriving DecidableEq, Repr

/-! ### The module -/

/-- The state of the module. -/
structure State where
  /-- Ticks since module reset. -/
  clock : Nat
  agenda : List Turn
  /-- The issuer of the instruction being executed. -/
  cur : Option Agent
  /-- Free values drawn so far. -/
  freeCtr : Nat
  /-- Serial numbers given: fragments, entries, commits, orders of waiting, requests, walks. -/
  serial : Nat
  mem : Memory
  /-- The bytes of save areas that hold a saved context. -/
  areas : List SaveBytes
  memBad : List Nat
  /-- The poisoned granules that were struck in the memory-side cache (R362, R363). -/
  mscBad : List Nat
  /-- The lines that the memory-side caches hold, keyed 16 × die + colour, the one used last in front (R14, R111). -/
  msc : Tbl (List Nat)
  l2 : Tbl (Tbl L2Line)
  cores : Tbl Core
  clusterTlb : Tbl (List TlbEntry)
  pairs : Tbl Pair
  /-- Collective queues, keyed 32 × virtual device + die (R238). -/
  kqueues : Tbl (List QEntry)
  ejected : List Ejected
  /-- By tender, keyed 24 × die + tender: the context that its round robin comes to next, and the tick from which it issues
  again (R77). -/
  tenders : Tbl (Nat × Nat)
  supers : Tbl Super
  fes : Tbl Fe
  parts : Tbl Part
  /-- Virtual devices, keyed 256 × front end + number. -/
  vds : Tbl Vd
  /-- Member tables, keyed 32 × (256 × die + virtual device) + table. -/
  members : Tbl Member
  dies : Tbl Die
  walks : List Walk
  pageReqs : List PageReq
  /-- The pages to which a write is held for capture, as space and leaf, the one found first in front (R116). -/
  wanted : List (Nat × Nat)
  /-- The translations that engine entries hold, by the number of the entry (R355). -/
  pages : Tbl (List TlbEntry)
  commands : List Command
  code : List CodeLine
  fabric : List ChunkMsg
  /-- Messages delivered to the host, each with the endpoint it went to (R310, R311). -/
  outbox : List (List Byte × List Byte)
  /-- Answers to the host's remote accesses. -/
  answers : List Answer
  genable : Bool
  boot : BootSt
  /-- RESPEP of the configuration record, once it is loaded (R319). -/
  respep : List Byte
  /-- The endpoint that delivered the configuration record (R311). -/
  bootFrom : List Byte
  /-- The digests of the record and of the image that the attestation covers. -/
  attest : List Byte
  /-- CAPM, SECARM and RESPEP of the record under test, loaded at step 5. -/
  record : List Byte
  alarm : Bool
  alarmSrc : BitVec 5
  /-- The time of the last alarm that found HALTARM set (R394). -/
  haltedAt : Option Nat
  haltArm : Bool
  eraseArm : Bool
  keysErased : Bool
  selfTest : Tbl Byte
deriving DecidableEq, Repr

/-- The module right after reset. DESIGN CHOICE: what R391, R392 and R319 let step 5 of boot write, HALTARM and ERASEARM among it,
starts as 0 (log entry 9). -/
def State.reset : State where
  clock := 0
  agenda := []
  cur := none
  freeCtr := 0
  serial := 0
  mem := []
  areas := []
  memBad := []
  mscBad := []
  msc := []
  l2 := []
  cores := []
  clusterTlb := []
  pairs := []
  kqueues := []
  ejected := []
  tenders := []
  supers := []
  fes := []
  parts := []
  vds := []
  members := []
  dies := []
  walks := []
  pageReqs := []
  wanted := []
  pages := []
  commands := []
  code := []
  fabric := []
  outbox := []
  answers := []
  genable := false
  boot := .waiting
  respep := []
  bootFrom := []
  attest := []
  record := []
  alarm := false
  alarmSrc := 0#5
  haltedAt := none
  haltArm := false
  eraseArm := false
  keysErased := false
  selfTest := []

/-- Why the model stops. -/
inductive Fault where
  /-- The agenda names an issuer that does not exist or cannot issue now, or `exec` runs an instruction
  without an issuer. An artefact of the model; safe: the machine goes on where the model stops. -/
  | noIssuer
deriving DecidableEq, Repr

/-- Why the model refuses an instruction. -/
inductive Refusal where
  /-- An arm of the dispatch that has no meaning yet; safe. -/
  | notModelled (mnemonic : String)
deriving DecidableEq, Repr

end Sys2Proof.Machine
end

