-- ==== Sys2Proof/Machine/Access.lean ====
section
/-! DEFINITION. The parts of the state by name, and who issues an instruction. -/

namespace Sys2Proof.Machine

/-- The outcome of a meaning. -/
abbrev Out := Host.Outcome State Fault Refusal

/-- A physical core. -/
def State.core (s : State) (c : Nat) : Core := tblGet Core.empty s.cores c
/-- The state with a core replaced. -/
def State.setCore (s : State) (c : Nat) (x : Core) : State := { s with cores := tblSet Core.empty s.cores c x }
/-- A matrix-engine pair. -/
def State.pair (s : State) (p : Nat) : Pair := tblGet Pair.empty s.pairs p
/-- The state with a pair replaced. -/
def State.setPair (s : State) (p : Nat) (x : Pair) : State := { s with pairs := tblSet Pair.empty s.pairs p x }
/-- A front end. -/
def State.fe (s : State) (f : Nat) : Fe := tblGet Fe.empty s.fes f
/-- The state with a front end replaced. -/
def State.setFe (s : State) (f : Nat) (x : Fe) : State := { s with fes := tblSet Fe.empty s.fes f x }
/-- A partition slot. -/
def State.part (s : State) (p : Nat) : Part := tblGet Part.empty s.parts p
/-- The state with a partition slot replaced. -/
def State.setPart (s : State) (p : Nat) (x : Part) : State := { s with parts := tblSet Part.empty s.parts p x }
/-- The registers that front end `f` holds for virtual device `v`. -/
def State.vd (s : State) (f v : Nat) : Vd := tblGet Vd.empty s.vds (256 * f + v)
/-- The state with those registers replaced. -/
def State.setVd (s : State) (f v : Nat) (x : Vd) : State := { s with vds := tblSet Vd.empty s.vds (256 * f + v) x }
/-- A die's own registers. -/
def State.die (s : State) (d : Nat) : Die := tblGet Die.empty s.dies d
/-- The state with a die replaced. -/
def State.setDie (s : State) (d : Nat) (x : Die) : State := { s with dies := tblSet Die.empty s.dies d x }
/-- The key of a member table (R305). -/
def memberKey (die vd x : Nat) : Nat := 32 * (256 * die + vd) + x
/-- A member table. -/
def State.member (s : State) (die vd x : Nat) : Member := tblGet Member.empty s.members (memberKey die vd x)
/-- The state with a member table replaced. -/
def State.setMember (s : State) (die vd x : Nat) (m : Member) : State :=
  { s with members := tblSet Member.empty s.members (memberKey die vd x) m }
/-- A hardware queue. -/
def State.queue (s : State) (f q : Nat) : Queue := tblGet Queue.empty (s.fe f).queues q
/-- The state with a hardware queue replaced. -/
def State.setQueue (s : State) (f q : Nat) (x : Queue) : State :=
  s.setFe f { s.fe f with queues := tblSet Queue.empty (s.fe f).queues q x }
/-- The block on a core. -/
def State.block? (s : State) (c : Nat) : Option Block := (s.core c).block
/-- The state with the block of a core replaced. -/
def State.setBlock (s : State) (c : Nat) (b : Block) : State := s.setCore c { s.core c with block := some b }
/-- A fresh serial number and the state that has given it. -/
def State.fresh (s : State) : Nat × State := (s.serial, { s with serial := s.serial + 1 })
/-- A free value for a position, and the state that has drawn it. -/
def State.drawn (s : State) : State := { s with freeCtr := s.freeCtr + 1 }

/-- The cluster of a physical core. -/
def clusterOf (core : Nat) : Nat := core / 32
/-- The die of a physical core. -/
def dieOf (core : Nat) : Nat := core / 64
/-- The ticks of core cycles (R3). -/
def coreTicks (n : Nat) : Nat := 64 * n

/-- Where the group of an agent lives. -/
inductive Site where
  | grp (core group : Nat)
  | ej (core thread : Nat)
  | hm (part : Nat)
deriving DecidableEq, Repr

/-- The site of an agent. -/
def agentSite : Agent → Site
  | .frag c g _ => .grp c g
  | .ejected c t => .ej c t
  | .hm p => .hm p

/-- The fragment of an agent within its group; a lane alone is fragment 0. -/
def agentFid : Agent → Nat
  | .frag _ _ f => f
  | _ => 0

/-- An ejected lane. -/
def State.ejected? (s : State) (c t : Nat) : Option Ejected := s.ejected.find? fun e => e.core == c && e.thread == t
/-- The state with an ejected lane replaced. -/
def State.setEjected (s : State) (c t : Nat) (x : Ejected) : State :=
  { s with ejected := s.ejected.map fun e => if e.core == c && e.thread == t then x else e }
/-- The state without an ejected lane. -/
def State.dropEjected (s : State) (c t : Nat) : State :=
  { s with ejected := s.ejected.filter fun e => !(e.core == c && e.thread == t) }

/-- The group at a site. -/
def State.group? (s : State) : Site → Option Group
  | .grp c g => (s.block? c).bind fun b => b.groups.find? fun x => x.index == g
  | .ej c t => (s.ejected? c t).map (·.grp)
  | .hm p => (tblFind s.supers p).map (·.grp)

/-- The state with the group at a site replaced. -/
def State.setGroup (s : State) (x : Group) : Site → State
  | .grp c g =>
    match s.block? c with
    | none => s
    | some b => s.setBlock c { b with groups := b.groups.map fun y => if y.index == g then x else y }
  | .ej c t =>
    match s.ejected? c t with
    | none => s
    | some e => s.setEjected c t { e with grp := x }
  | .hm p =>
    match tblFind s.supers p with
    | none => s
    | some h => { s with supers := tblInsert s.supers p { h with grp := x } }

/-- A fragment of a group. -/
def Group.frag? (g : Group) (fid : Nat) : Option Frag := g.frags.find? fun f => f.fid == fid
/-- The group with a fragment replaced. -/
def Group.setFrag (g : Group) (f : Frag) : Group :=
  { g with frags := g.frags.map fun x => if x.fid == f.fid then f else x }
/-- A lane of a group. -/
def Group.lane (g : Group) (l : Nat) : Thread := g.lanes.getD l Thread.absent
/-- The group with a lane changed. -/
def Group.setLane (g : Group) (l : Nat) (t : Thread) : Group := { g with lanes := g.lanes.set l t }
/-- The group with every lane of a list changed. -/
def Group.mapLanes (g : Group) (ls : List Nat) (f : Thread → Thread) : Group :=
  ls.foldl (fun g l => g.setLane l (f (g.lane l))) g
/-- A rejoin register. -/
def Group.rej (g : Group) (j : Nat) : RejReg := tblGet RejReg.empty g.j j
/-- The group with a rejoin register replaced. -/
def Group.setRej (g : Group) (j : Nat) (r : RejReg) : Group := { g with j := tblSet RejReg.empty g.j j r }
/-- A landing tag. -/
def Group.tag (g : Group) (t : Nat) : Tag := tblGet Tag.empty g.tags t
/-- The group with a landing tag replaced. -/
def Group.setTag (g : Group) (t : Nat) (x : Tag) : Group := { g with tags := tblSet Tag.empty g.tags t x }
/-- A manifest. -/
def Group.manifest (g : Group) (t : Nat) : Tbl W32 := tblGet [] g.t t
/-- The group with a manifest replaced. -/
def Group.setManifest (g : Group) (t : Nat) (m : Tbl W32) : Group := { g with t := tblSet [] g.t t m }

/-- The hardware warps of a width group (R24, R29). -/
def warpsOf (width g : Nat) : List Nat :=
  if width == 16 then [g / 2] else if width == 64 then [2 * g, 2 * g + 1] else [g]
/-- The hardware warp of a lane of a group (R31). -/
def warpOfLane (width g lane : Nat) : Nat :=
  if width == 16 then g / 2 else if width == 64 then 2 * g + lane / 32 else g
/-- The hardware lane of a lane of a group (R31). -/
def hwLane (width g lane : Nat) : Nat :=
  if width == 16 then 16 * (g % 2) + lane else lane % 32
/-- The quadrant of a hardware warp (R24). -/
def quadOf (width h : Nat) : Nat := if width == 64 then h / 2 % 4 else h % 4
/-- The width that fixes the placement of threads (R24). -/
def Kernel.w (k : Kernel) : Nat := k.width.getD 32
/-- The groups that share the counts of a warp of group `g`: both of a width-16 warp (R47). -/
def Block.warp (b : Block) (h : Nat) : Warp := b.warps.getD h ⟨8, 8, false, []⟩
/-- The block with a warp replaced. -/
def Block.setWarp (b : Block) (h : Nat) (w : Warp) : Block := { b with warps := b.warps.set h w }
/-- The state with a warp of the block of a core changed. -/
def State.mapWarp (s : State) (c h : Nat) (f : Warp → Warp) : State :=
  match s.block? c with
  | none => s
  | some b => s.setBlock c (b.setWarp h (f (b.warp h)))

/-- The privilege and place of an issuer (R77, R268). -/
inductive Level where
  | core | tender | super
deriving DecidableEq, Repr

/-- An issuing context: the agent, its group and fragment, and whom it runs for. -/
structure Ctx where
  agent : Agent
  g : Group
  f : Frag
  level : Level
  fe : Nat
  vd : Nat
  part : Nat
  /-- The home core; 0 for a harbourmaster. -/
  core : Nat
  kern : Kernel
  /-- The granted register count (R47). -/
  granted : Nat
deriving DecidableEq, Repr

/-- The context of an agent that exists (R60, R77, R268). -/
def State.ctx? (s : State) (a : Agent) : Option Ctx :=
  match a with
  | .frag c gi fid => do
    let b ← s.block? c
    let g ← s.group? (agentSite a)
    let f ← g.frag? fid
    let h := match warpsOf g.width gi with
      | h :: _ => h
      | [] => 0
    some ⟨a, g, f, .core, b.fe, b.vd, b.part, c, b.kern, (b.warp h).g⟩
  | .ejected c t => do
    let b ← s.block? c
    let e ← s.ejected? c t
    let f ← e.grp.frag? 0
    some ⟨a, e.grp, f, .tender, b.fe, b.vd, b.part, c, b.kern, e.g⟩
  | .hm p => do
    let h ← tblFind s.supers p
    let f ← h.grp.frag? 0
    let k ← h.kern
    some ⟨a, h.grp, f, .super, p / 2, 256, p, 0, k, h.g⟩

/-- The state with a context's group replaced. -/
def State.putGroup (s : State) (c : Ctx) (g : Group) : State := s.setGroup g (agentSite c.agent)
/-- The state with a context's fragment replaced. -/
def State.putFrag (s : State) (c : Ctx) (f : Frag) : State :=
  match s.group? (agentSite c.agent) with
  | none => s
  | some g => s.setGroup (g.setFrag f) (agentSite c.agent)
/-- The context read again from a later state. -/
def State.reread (s : State) (c : Ctx) : Ctx := (s.ctx? c.agent).getD c

/-- Run a meaning with its issuer; without one the model stops. -/
def withIssuer (s : State) (k : Ctx → Out) : Out :=
  match s.cur.bind s.ctx? with
  | none => .fault .noIssuer
  | some c => k c

/-- The cluster an issuer's accesses go through. -/
def Ctx.cluster (c : Ctx) : Nat := clusterOf c.core
/-- The die an issuer runs on (R284); a harbourmaster runs on the die of BASE (R285). -/
def Ctx.die (s : State) (c : Ctx) : Nat :=
  if c.level == .super then (s.part c.part).base / 2 else dieOf c.core
/-- The translation space of an issuer: a virtual device of a front end, or a harbourmaster's own. -/
def Ctx.space (c : Ctx) : Nat := if c.level == .super then 0x10000 + c.part else 256 * c.fe + c.vd

/-- The active lanes of the fragment, ascending. -/
def Ctx.active (c : Ctx) : List Nat := maskLanes c.f.mask
/-- The guard of a lane (R138, R140): P7 reads true. -/
def Thread.pred (t : Thread) (i : Nat) : Bool := i == 7 || t.p.getLsbD i
/-- The guard predicate of a lane. -/
def Thread.guard (t : Thread) (g : Guard) : Bool := t.pred g.idx.toNat != g.neg
/-- The acting lanes: active lanes whose guard is true (R214). -/
def Ctx.acting (c : Ctx) (g : Guard) : List Nat := c.active.filter fun l => (c.g.lane l).guard g
/-- The thread with a predicate written; a write of P7 is discarded (R157). -/
def Thread.setPred (t : Thread) (i : Nat) (v : Bool) : Thread :=
  if i == 7 then t
  else { t with p := if v then t.p ||| (1#7 <<< i) else t.p &&& ~~~(1#7 <<< i) }

/-- A word of the constant bank (R43, R223); a harbourmaster has no launch, and its bank is open. -/
def Ctx.bank (c : Ctx) (k : Nat) : W32 :=
  if c.level == .super then Config.supervisorBank c.part k else c.kern.bank.getD k 0#32

/-- An S register of the group. -/
def Group.sreg (g : Group) (i : Nat) : W32 := tblGet 0#32 g.s i
/-- The group with an S register written. -/
def Group.setSreg (g : Group) (i : Nat) (x : W32) : Group := { g with s := tblSet 0#32 g.s i x }
/-- A V register of a thread. -/
def Thread.vreg (t : Thread) (i : Nat) : W32 := tblGet 0#32 t.v i
/-- The thread with a V register written; a write clears its poison (R362, R364). -/
def Thread.setVreg (t : Thread) (i : Nat) (x : W32) : Thread :=
  { t with v := tblSet 0#32 t.v i x, bad := setErase t.bad i }
/-- A near register of a thread. -/
def Thread.nreg (t : Thread) (i : Nat) : W32 := tblGet 0#32 t.n i
/-- The thread with a near register written. -/
def Thread.setNreg (t : Thread) (i : Nat) (x : W32) : Thread := { t with n := tblSet 0#32 t.n i x }

/-- The front end in which a virtual device is enabled (R292). -/
def State.feOf (s : State) (v : Nat) : Option Nat := (List.range 32).find? fun f => (s.vd f v).en

/-- Module time in nanoseconds (R283). -/
def State.timeNs (s : State) : Nat := s.clock / 112
/-- Module time as a die shows it: every die within 8 ns of the others (R283). -/
def State.dieTime (s : State) (d : Nat) : Nat := s.timeNs - Config.dieSkew d % 9
/-- Core cycles since module reset (R283). -/
def State.cycles (s : State) : Nat := s.clock / 64

end Sys2Proof.Machine
end

