-- ==== Sys2Proof/Machine/Fabric.lean ====
section
/-! DEFINITION. The torus of dies and the ports (R15, R16, R371, R372): links, the route of a packet, and the dies that
none reaches. -/

namespace Sys2Proof.Machine

/-- The die at the other end of a torus link: 0 x−, 1 x+, 2 y−, 3 y+ on the torus of 4 by 8 dies. -/
def linkPeer (d link : Nat) : Nat :=
  match link with
  | 0 => d / 4 * 4 + (d + 3) % 4
  | 1 => d / 4 * 4 + (d + 1) % 4
  | 2 => (d + 28) % 32
  | _ => (d + 4) % 32

/-- The number of a torus link at its other end. -/
def linkBack (link : Nat) : Nat := if link % 2 == 0 then link + 1 else link - 1

/-- UP and DOWN of a link of a die after a change. -/
def Die.setLink (d : Die) (link : Nat) (up : Bool) : Die :=
  let m : BitVec 5 := 1#5 <<< link
  if up then { d with up := d.up ||| m } else { d with up := d.up &&& ~~~m, down := d.down ||| m }

/-- The coordinate of a die in a dimension, and the dies around it. -/
def ringPlace (y : Bool) (d : Nat) : Nat := if y then d / 4 else d % 4
/-- The length of a ring. -/
def ringSize (y : Bool) : Nat := if y then 8 else 4

/-- Hops over one link after another, each as the die it leaves and the link. -/
def straight (link : Nat) : Nat → Nat → List (Nat × Nat)
  | 0, _ => []
  | n + 1, d => (d, link) :: straight link n (linkPeer d link)

/-- The hops of a packet in one dimension (R15): the shorter way round, toward increasing coordinate when both are equally
long; or the other way round (R371). -/
def ringHops (y long : Bool) (o d : Nat) : List (Nat × Nat) :=
  let n := ringSize y
  let k := (ringPlace y d + n - ringPlace y o) % n
  let up := decide (2 * k ≤ n) != long
  if k == 0 then [] else straight ((if y then 2 else 0) + (if up then 1 else 0)) (if up then k else n - k) o

/-- The die with the coordinate of `d` in a dimension, else that of `o`. -/
def turnDie (y : Bool) (o d : Nat) : Nat := if y then o % 4 + d / 4 * 4 else d % 4 + o / 4 * 4

/-- A route from a die to another: which dimension is first, and which way round each takes. -/
def hops (yFirst longX longY : Bool) (o d : Nat) : List (Nat × Nat) :=
  let long (y : Bool) : Bool := if y then longY else longX
  ringHops yFirst (long yFirst) o d ++ ringHops (!yFirst) (long (!yFirst)) (turnDie yFirst o d) d

/-- The distance of two dies (R15): the hops of the route along x and then along y. -/
def distance (o d : Nat) : Nat := (hops false false false o d).length

/-- Every link of a route is up. -/
def State.routeUp (s : State) (r : List (Nat × Nat)) : Bool := r.all fun h => (s.die h.1).up.getLsbD h.2

/-- The route of a packet (R15, R371): along x and then along y, the other way round in a dimension whose way crosses a
down link, and along y first when both ways round in one dimension are cut. -/
def State.route (s : State) (o d : Nat) : Option (List (Nat × Nat)) :=
  ([false, true].flatMap fun yFirst => [false, true].flatMap fun lx => [false, true].map fun ly => hops yFirst lx ly o d).find?
    s.routeUp

/-- A die that another one does not reach (R372): no route is left, or its four torus links are down. -/
def unreachable (s : State) (o d : Nat) : Bool := o != d && ((s.die d).up.toNat % 16 == 0 || (s.route o d).isNone)

/-- A die knows another one to be lost (R372). -/
def State.dieLost (s : State) (o d : Nat) : Bool := (s.die o).lost.contains d

/-- Traffic from outside the module arrives at the endpoints of a die (R16, R371): its own port is up. -/
def State.hears (s : State) (d : Nat) : Bool := (s.die d).up.getLsbD 4

/-- A write by the host of a register of die `d`, which comes by a remote write through the die's port (R16, R285, R371). -/
def State.written (s : State) (d : Nat) (k : State → State) : State := if s.hears d then k s else s

end Sys2Proof.Machine
end

