-- ==== Sys2Proof/Decode.lean ====
section
/-! DEFINITION. The decoder, total on any bytes (R138 to R151), with its two reasons of refusal, the
opcode map of R149 with its capability classes, and the encoder written from the same tables. -/

namespace Sys2Proof

/-- Why a word is illegal; the two values of DETAIL of ILLOP (R322). -/
inductive Illegal where
  /-- OPC is unassigned (R149). -/
  | unassignedOpcode
  /-- A check of R43, R44, R51, R139 to R148 or of the entry fails (R151). -/
  | badField
deriving DecidableEq, Repr

/-- The fields of the canonical word (R138), as bits. -/
structure Layout where
  opc : BitVec 10
  la : BitVec 4
  pg : BitVec 4
  d : BitVec 10
  a : BitVec 10
  b : BitVec 10
  c : BitVec 10
  ma : BitVec 4
  mb : BitVec 4
  mc : BitVec 4
  nab : BitVec 6
  ty : BitVec 4
  ctl : BitVec 8
  ext : BitVec 8
  imm : W32
deriving DecidableEq, Repr

/-- The fields of a word, at the bit ranges of R138. -/
def Layout.ofWord (w : W128) : Layout where
  opc := w.extractLsb' 118 10
  la := w.extractLsb' 114 4
  pg := w.extractLsb' 110 4
  d := w.extractLsb' 100 10
  a := w.extractLsb' 90 10
  b := w.extractLsb' 80 10
  c := w.extractLsb' 70 10
  ma := w.extractLsb' 66 4
  mb := w.extractLsb' 62 4
  mc := w.extractLsb' 58 4
  nab := w.extractLsb' 52 6
  ty := w.extractLsb' 48 4
  ctl := w.extractLsb' 40 8
  ext := w.extractLsb' 32 8
  imm := w.extractLsb' 0 32

/-- The word of the fields, high bits first (R138). -/
def Layout.word (l : Layout) : W128 :=
  l.opc ++ l.la ++ l.pg ++ l.d ++ l.a ++ l.b ++ l.c ++ l.ma ++ l.mb ++ l.mc ++ l.nab ++ l.ty ++
    l.ctl ++ l.ext ++ l.imm

/-- An operand field (R43); `none` for a reserved combination. -/
def Opnd.ofBits (x : BitVec 10) : Option Opnd :=
  let i := x.extractLsb' 0 8
  match (x.extractLsb' 8 2).toNat with
  | 0 => if i.toNat < 8 then some (.near (i.extractLsb' 0 3)) else Option.none
  | 1 => some (.vec i)
  | 2 => if h : 64 ≤ i.toNat then some (.kbank ⟨i.toNat - 64, by omega⟩)
         else some (.scal (i.extractLsb' 0 6))
  | _ => if i == 0#8 then some .none else if i == 1#8 then some .imm else Option.none

/-- The bits of an operand (R43). -/
def Opnd.bits : Opnd → BitVec 10
  | .near i => 0#2 ++ (0#5 ++ i)
  | .vec i => 1#2 ++ i
  | .scal i => 2#2 ++ (0#2 ++ i)
  | .kbank i => 2#2 ++ BitVec.ofNat 8 (64 + i.val)
  | .none => 0x300#10
  | .imm => 0x301#10

/-- An element modifier (R141); `none` for a reserved code. -/
def Modif.ofBits (x : BitVec 4) : Option Modif :=
  match x.toNat with
  | 0 => some .packed
  | 4 => some .swh
  | 5 => some .swb
  | 6 => some .rvb
  | 7 => some .rtn
  | n => if 8 ≤ n then some (.sel (x.extractLsb' 0 3)) else none

/-- The code of a modifier (R141). -/
def Modif.bits : Modif → BitVec 4
  | .packed => 0#4
  | .swh => 4#4
  | .swb => 5#4
  | .rvb => 6#4
  | .rtn => 7#4
  | .sel i => 1#1 ++ i

/-- A rounding code (R145). -/
def Rnd.ofBits (x : BitVec 3) : Option Rnd :=
  match x.toNat with
  | 0 => some .rne | 1 => some .rtz | 2 => some .rup | 3 => some .rdn | 4 => some .sr
  | 5 => some .dyn | _ => none

/-- The code of a rounding mode. -/
def Rnd.bits : Rnd → BitVec 3
  | .rne => 0#3 | .rtz => 1#3 | .rup => 2#3 | .rdn => 3#3 | .sr => 4#3 | .dyn => 5#3

/-- An access kind (R146). -/
def Kind.ofBits (x : BitVec 3) : Option Kind :=
  match x.toNat with
  | 0 => some .plain | 1 => some .rlx | 2 => some .acq | 3 => some .rel | 4 => some .ar
  | 5 => some .sc | _ => none

/-- The code of a kind. -/
def Kind.bits : Kind → BitVec 3
  | .plain => 0#3 | .rlx => 1#3 | .acq => 2#3 | .rel => 3#3 | .ar => 4#3 | .sc => 5#3

/-- A scope (R146). -/
def Scope.ofBits (x : BitVec 3) : Option Scope :=
  match x.toNat with
  | 0 => some .blk | 1 => some .clu | 2 => some .stk | 3 => some .dom | 4 => some .pod
  | 5 => some .sys | _ => none

/-- The code of a scope. -/
def Scope.bits : Scope → BitVec 3
  | .blk => 0#3 | .clu => 1#3 | .stk => 2#3 | .dom => 3#3 | .pod => 4#3 | .sys => 5#3

/-- A guard (R138, R140). -/
def Guard.ofBits (x : BitVec 4) : Guard := ⟨x.getLsbD 3, x.extractLsb' 0 3⟩

/-- The bits of a guard. -/
def Guard.bits (g : Guard) : BitVec 4 := BitVec.ofBool g.neg ++ g.idx

/-- A source from its operand field, its modifier and its two bits of NAB (R138, R141, R142). -/
def Src.ofBits (op : BitVec 10) (m : BitVec 4) (neg abs : Bool) : Option Src := do
  let o ← Opnd.ofBits op
  let f ← Modif.ofBits m
  return ⟨o, f, neg, abs⟩

/-- The fields every class shares. -/
def Common.ofLayout (l : Layout) : Option Common := do
  let d ← Opnd.ofBits l.d
  let a ← Src.ofBits l.a l.ma (l.nab.getLsbD 5) (l.nab.getLsbD 4)
  let b ← Src.ofBits l.b l.mb (l.nab.getLsbD 3) (l.nab.getLsbD 2)
  let c ← Src.ofBits l.c l.mc (l.nab.getLsbD 1) (l.nab.getLsbD 0)
  return { la := l.la, guard := Guard.ofBits l.pg, d := d, a := a, b := b, c := c,
           ty := Ty.ofCode l.ty, imm := l.imm }

/-- The shared fields with their opcode, op control and extended field. -/
def Common.layout (w : Common) (opc : BitVec 10) (ctl ext : BitVec 8) : Layout where
  opc := opc
  la := w.la
  pg := w.guard.bits
  d := w.d.bits
  a := w.a.op.bits
  b := w.b.op.bits
  c := w.c.op.bits
  ma := w.a.modif.bits
  mb := w.b.modif.bits
  mc := w.c.modif.bits
  nab := BitVec.ofBool w.a.neg ++ BitVec.ofBool w.a.abs ++ BitVec.ofBool w.b.neg ++
    BitVec.ofBool w.b.abs ++ BitVec.ofBool w.c.neg ++ BitVec.ofBool w.c.abs
  ty := w.ty.code
  ctl := ctl
  ext := ext
  imm := w.imm

/-- The arithmetic class (R144). -/
def ArithOp.ofLayout (l : Layout) : Option ArithOp := do
  let w ← Common.ofLayout l
  let r ← Rnd.ofBits (l.ctl.extractLsb' 5 3)
  return { toCommon := w, rnd := r, sat := l.ctl.getLsbD 4, mode := l.ctl.extractLsb' 0 4, ext := l.ext }

/-- The layout of an arithmetic word. -/
def ArithOp.layout (w : ArithOp) (opc : BitVec 10) : Layout :=
  w.toCommon.layout opc (w.rnd.bits ++ BitVec.ofBool w.sat ++ w.mode) w.ext

/-- The control class (R144); EXT[34:32] is reserved. -/
def CtlOp.ofLayout (l : Layout) : Option CtlOp := do
  let w ← Common.ofLayout l
  if l.ext.extractLsb' 0 3 == 0#3 then
    some { toCommon := w, cp := l.ctl.extractLsb' 5 3, cn := l.ctl.getLsbD 4,
           mode := l.ctl.extractLsb' 0 4, ejt := l.ext.getLsbD 7, ejf := l.ext.getLsbD 6,
           jx := l.ext.extractLsb' 3 3 }
  else none

/-- The layout of a control word. -/
def CtlOp.layout (w : CtlOp) (opc : BitVec 10) : Layout :=
  w.toCommon.layout opc (w.cp ++ BitVec.ofBool w.cn ++ w.mode)
    (BitVec.ofBool w.ejt ++ BitVec.ofBool w.ejf ++ w.jx ++ 0#3)

/-- The memory class (R144). -/
def MemOp.ofLayout (l : Layout) : Option MemOp := do
  let w ← Common.ofLayout l
  let k ← Kind.ofBits (l.ctl.extractLsb' 5 3)
  let s ← Scope.ofBits (l.ctl.extractLsb' 2 3)
  return { toCommon := w, kind := k, scope := s, amode := l.ctl.extractLsb' 0 2,
           hint := l.ext.extractLsb' 4 4, tag := l.ext.extractLsb' 0 4 }

/-- The layout of a memory word. -/
def MemOp.layout (w : MemOp) (opc : BitVec 10) : Layout :=
  w.toCommon.layout opc (w.kind.bits ++ w.scope.bits ++ w.amode) (w.hint ++ w.tag)

/-- The engine class (R144). -/
def EngOp.ofLayout (l : Layout) : Option EngOp := do
  let w ← Common.ofLayout l
  return { toCommon := w, mode := l.ctl.extractLsb' 5 3, gv := l.ctl.getLsbD 4,
           gslot := l.ctl.extractLsb' 0 4, ext := l.ext }

/-- The layout of an engine word. -/
def EngOp.layout (w : EngOp) (opc : BitVec 10) : Layout :=
  w.toCommon.layout opc (w.mode ++ BitVec.ofBool w.gv ++ w.gslot) w.ext

/-- The training and system class (R144). -/
def SysOp.ofLayout (l : Layout) : Option SysOp := do
  let w ← Common.ofLayout l
  return { toCommon := w, mode := l.ctl, ext := l.ext }

/-- The layout of a system word. -/
def SysOp.layout (w : SysOp) (opc : BitVec 10) : Layout := w.toCommon.layout opc w.mode w.ext

/-- What an opcode names: its class and the instruction of the class fields. An opcode that carries
several rows of the table picks the row by its mode; a mode of no row falls to the first one, whose
check refuses it. -/
inductive OpRow where
  | arith (f : ArithOp → Instr)
  | ctl (f : CtlOp → Instr)
  | mem (f : MemOp → Instr)
  | eng (f : EngOp → Instr)
  | sys (f : SysOp → Instr)

/-- The opcode map of R149. -/
def opRow : Nat → Option OpRow
  | 0x000 => some (.arith .iadd)
  | 0x001 => some (.arith .iaddx)
  | 0x002 => some (.arith .isub)
  | 0x003 => some (.arith .imul)
  | 0x004 => some (.arith .imulh)
  | 0x005 => some (.arith .imad)
  | 0x006 => some (.arith .imin)
  | 0x007 => some (.arith .imax)
  | 0x008 => some (.arith .iabs)
  | 0x009 => some (.arith .ineg)
  | 0x00A => some (.arith .icmp)
  | 0x00B => some (.arith .lea)
  | 0x010 => some (.arith .and)
  | 0x011 => some (.arith .or)
  | 0x012 => some (.arith .xor)
  | 0x013 => some (.arith .not)
  | 0x014 => some (.arith .tern)
  | 0x018 => some (.arith .shl)
  | 0x019 => some (.arith .shr)
  | 0x01A => some (.arith .sar)
  | 0x01B => some (.arith .rol)
  | 0x01C => some (.arith .funsh)
  | 0x020 => some (.arith .bfx)
  | 0x021 => some (.arith .bfi)
  | 0x022 => some (.arith .popc)
  | 0x023 => some (.arith .clz)
  | 0x024 => some (.arith .brev)
  | 0x025 => some (.arith .bytx)
  | 0x028 => some (.arith .mov)
  | 0x029 => some (.arith .sel)
  | 0x02A => some (.arith .cvti)
  | 0x080 => some (.arith .fadd)
  | 0x081 => some (.arith .fmul)
  | 0x082 => some (.arith .ffma)
  | 0x083 => some (.arith .fmin)
  | 0x084 => some (.arith .fmax)
  | 0x085 => some (.arith .fcmp)
  | 0x086 => some (.arith .frnd)
  | 0x087 => some (.arith .fcvt)
  | 0x088 => some (.arith .f2i)
  | 0x089 => some (.arith .i2f)
  | 0x08A => some (.arith .fdiv)
  | 0x08B => some (.arith .fsqrt)
  | 0x090 => some (.arith .frcp)
  | 0x091 => some (.arith .frsq)
  | 0x092 => some (.arith .fexp2)
  | 0x093 => some (.arith .flog2)
  | 0x094 => some (.arith .fsin)
  | 0x095 => some (.arith .fcos)
  | 0x096 => some (.arith .ftanh)
  | 0x098 => some (.arith .fclass)
  | 0x099 => some (.arith .fscalb)
  | 0x09A => some (.arith .ffrexp)
  | 0x100 => some (.arith .dot2)
  | 0x101 => some (.arith .dot4)
  | 0x102 => some (.arith .dot8)
  | 0x108 => some (.arith .qcvt)
  | 0x109 => some (.arith .dqcvt)
  | 0x10A => some (.arith .sclmax)
  | 0x140 => some (.arith .lrd)
  | 0x141 => some (.arith .pcol)
  | 0x142 => some (.arith .redx)
  | 0x143 => some (.arith .scanx)
  | 0x144 => some (.arith .cmpx)
  | 0x145 => some (.arith .peer)
  | 0x180 => some (.ctl .bru)
  | 0x181 => some (.ctl .brd)
  | 0x182 => some (.ctl .brx)
  | 0x183 => some (.ctl .call)
  | 0x184 => some (.ctl .callx)
  | 0x185 => some (.ctl .ret)
  | 0x186 => some (.ctl .exit)
  | 0x188 => some (.ctl .rjset)
  | 0x189 => some (.ctl .rjwait)
  | 0x18A => some (.ctl fun w => if w.mode == 1#4 then .rjmovWrite w else .rjmovRead w)
  | 0x18C => some (.ctl .elect)
  | 0x190 => some (.ctl .nop)
  | 0x191 => some (.ctl .sbeg)
  | 0x192 => some (.ctl .yield)
  | 0x193 => some (.ctl .sleep)
  | 0x1C0 => some (.arith .plop)
  | 0x1C1 => some (.arith .p2s)
  | 0x1C2 => some (.arith .s2p)
  | 0x1C8 => some (.arith fun w => if w.mode == 1#4 then .rgrowTry w else .rgrowWait w)
  | 0x1C9 => some (.arith .rshrink)
  | 0x1CA => some (.arith .rqry)
  | 0x1D0 => some (.arith fun w => if w.mode == 1#4 then .fmtsetRm w else if w.mode == 2#4 then .fmtsetSrs w else .fmtset w)
  | 0x1D1 => some (.arith fun w => if w.mode == 2#4 then .fmtgetSrs w else .fmtget w)
  | 0x200 => some (.mem .ld)
  | 0x201 => some (.mem .land)
  | 0x202 => some (.mem .st)
  | 0x204 => some (.mem .lds)
  | 0x205 => some (.mem .sts)
  | 0x206 => some (.mem .ldc)
  | 0x208 => some (.mem .gath)
  | 0x209 => some (.mem .scat)
  | 0x20A => some (.mem .ldgs)
  | 0x20C => some (.mem .pref)
  | 0x20D => some (.mem fun w => if w.hint == 1#4 then .cctlInv w else if w.hint == 2#4 then .cctlWball w else if w.hint == 3#4 then .cctlInvall w else .cctlWb w)
  | 0x210 => some (.mem .tst)
  | 0x211 => some (.mem .tld)
  | 0x218 => some (.mem .atom)
  | 0x219 => some (.mem .atoms)
  | 0x21A => some (.mem .red)
  | 0x220 => some (.mem .fence)
  | 0x280 => some (.mem .bara)
  | 0x281 => some (.mem .barw)
  | 0x282 => some (.mem .bars)
  | 0x288 => some (.mem .mbinit)
  | 0x289 => some (.mem .mbarv)
  | 0x28A => some (.mem .mbtst)
  | 0x28B => some (.mem .mbwait)
  | 0x2C0 => some (.eng fun w => if w.mode == 1#3 then .tshldSp w else .tshldGl w)
  | 0x2C1 => some (.eng fun w => if w.mode == 1#3 then .tshpAdd w else if w.mode == 2#3 then .tshpAdd64 w else .tshpSet w)
  | 0x2C2 => some (.eng fun w => if w.mode == 1#3 then .tshstSp w else .tshstGl w)
  | 0x2C8 => some (.eng .cpy)
  | 0x2D0 => some (.eng fun w => if w.mode == 1#3 then .gsetClr w else .gset w)
  | 0x2D1 => some (.eng fun w => if w.mode == 1#3 then .qfncMq w else if w.mode == 2#3 then .qfncKq w else .qfncCq w)
  | 0x2D2 => some (.eng .qwait)
  | 0x300 => some (.eng .mldb)
  | 0x301 => some (.eng .mma)
  | 0x302 => some (.eng .macc)
  | 0x303 => some (.eng .mtbl)
  | 0x340 => some (.eng .coll)
  | 0x341 => some (.eng fun w => if w.mode == 1#3 then .sigsAdd w else .sigsSet w)
  | 0x360 => some (.sys fun w => if w.mode == 1#8 then .lsadjSet w else if w.mode == 2#8 then .lsadjGet w else .lsadjStep w)
  | 0x361 => some (.sys fun w => if w.mode == 1#8 then .ovfrRdc w else .ovfrRd w)
  | 0x380 => some (.sys .trap)
  | 0x381 => some (.sys .tret)
  | 0x382 => some (.sys .ctlr)
  | 0x383 => some (.sys .ctlw)
  | 0x384 => some (.sys .plcq)
  | 0x385 => some (.sys .capq)
  | 0x386 => some (.sys .clkr)
  | 0x387 => some (.sys .brk)
  | 0x388 => some (.sys .halt)
  | _ => none

/-- The instruction of a row with the fields of a layout. -/
def OpRow.read (r : OpRow) (l : Layout) : Option Instr :=
  match r with
  | .arith f => (ArithOp.ofLayout l).map f
  | .ctl f => (CtlOp.ofLayout l).map f
  | .mem f => (MemOp.ofLayout l).map f
  | .eng f => (EngOp.ofLayout l).map f
  | .sys f => (SysOp.ofLayout l).map f

/-- The decoding of a word (R151), up to the checks that need the kernel: the opcode, then every
check of a field. -/
def decodeWord (w : W128) : Except Illegal Instr :=
  let l := Layout.ofWord w
  match opRow l.opc.toNat with
  | none => .error .unassignedOpcode
  | some r =>
    match r.read l with
    | none => .error .badField
    | some i => if i.wf then .ok i else .error .badField

/-- The number little-endian bytes spell (R6). -/
def leNat : List Byte → Nat
  | [] => 0
  | b :: bs => b.toNat + 256 * leNat bs

/-- The `n` low bytes of a number, lowest first (R6). -/
def leBytes : Nat → Nat → List Byte
  | 0, _ => []
  | n + 1, v => BitVec.ofNat 8 v :: leBytes n (v / 256)

/-- Decoding of the sixteen bytes at an instruction address, lowest address first (R138). -/
def decodeBytes (bs : List Byte) : Except Illegal Instr :=
  if bs.length = 16 then decodeWord (BitVec.ofNat 128 (leNat bs)) else .error .badField

/-- The class word of an instruction, for the encoder. -/
inductive Body where
  | arith (w : ArithOp)
  | ctl (w : CtlOp)
  | mem (w : MemOp)
  | eng (w : EngOp)
  | sys (w : SysOp)
deriving DecidableEq, Repr

/-- The opcode (R149) and the class word of an instruction; an event of the module has none. -/
def Instr.split : Instr → Option (BitVec 10 × Body)
  | .iadd w => some (0x000#10, .arith w)
  | .iaddx w => some (0x001#10, .arith w)
  | .isub w => some (0x002#10, .arith w)
  | .imul w => some (0x003#10, .arith w)
  | .imulh w => some (0x004#10, .arith w)
  | .imad w => some (0x005#10, .arith w)
  | .imin w => some (0x006#10, .arith w)
  | .imax w => some (0x007#10, .arith w)
  | .iabs w => some (0x008#10, .arith w)
  | .ineg w => some (0x009#10, .arith w)
  | .icmp w => some (0x00A#10, .arith w)
  | .lea w => some (0x00B#10, .arith w)
  | .and w => some (0x010#10, .arith w)
  | .or w => some (0x011#10, .arith w)
  | .xor w => some (0x012#10, .arith w)
  | .not w => some (0x013#10, .arith w)
  | .tern w => some (0x014#10, .arith w)
  | .shl w => some (0x018#10, .arith w)
  | .shr w => some (0x019#10, .arith w)
  | .sar w => some (0x01A#10, .arith w)
  | .rol w => some (0x01B#10, .arith w)
  | .funsh w => some (0x01C#10, .arith w)
  | .bfx w => some (0x020#10, .arith w)
  | .bfi w => some (0x021#10, .arith w)
  | .popc w => some (0x022#10, .arith w)
  | .clz w => some (0x023#10, .arith w)
  | .brev w => some (0x024#10, .arith w)
  | .bytx w => some (0x025#10, .arith w)
  | .mov w => some (0x028#10, .arith w)
  | .sel w => some (0x029#10, .arith w)
  | .cvti w => some (0x02A#10, .arith w)
  | .fadd w => some (0x080#10, .arith w)
  | .fmul w => some (0x081#10, .arith w)
  | .ffma w => some (0x082#10, .arith w)
  | .fmin w => some (0x083#10, .arith w)
  | .fmax w => some (0x084#10, .arith w)
  | .fcmp w => some (0x085#10, .arith w)
  | .frnd w => some (0x086#10, .arith w)
  | .fcvt w => some (0x087#10, .arith w)
  | .f2i w => some (0x088#10, .arith w)
  | .i2f w => some (0x089#10, .arith w)
  | .fdiv w => some (0x08A#10, .arith w)
  | .fsqrt w => some (0x08B#10, .arith w)
  | .frcp w => some (0x090#10, .arith w)
  | .frsq w => some (0x091#10, .arith w)
  | .fexp2 w => some (0x092#10, .arith w)
  | .flog2 w => some (0x093#10, .arith w)
  | .fsin w => some (0x094#10, .arith w)
  | .fcos w => some (0x095#10, .arith w)
  | .ftanh w => some (0x096#10, .arith w)
  | .fclass w => some (0x098#10, .arith w)
  | .fscalb w => some (0x099#10, .arith w)
  | .ffrexp w => some (0x09A#10, .arith w)
  | .dot2 w => some (0x100#10, .arith w)
  | .dot4 w => some (0x101#10, .arith w)
  | .dot8 w => some (0x102#10, .arith w)
  | .qcvt w => some (0x108#10, .arith w)
  | .dqcvt w => some (0x109#10, .arith w)
  | .sclmax w => some (0x10A#10, .arith w)
  | .lrd w => some (0x140#10, .arith w)
  | .pcol w => some (0x141#10, .arith w)
  | .redx w => some (0x142#10, .arith w)
  | .scanx w => some (0x143#10, .arith w)
  | .cmpx w => some (0x144#10, .arith w)
  | .peer w => some (0x145#10, .arith w)
  | .bru w => some (0x180#10, .ctl w)
  | .brd w => some (0x181#10, .ctl w)
  | .brx w => some (0x182#10, .ctl w)
  | .call w => some (0x183#10, .ctl w)
  | .callx w => some (0x184#10, .ctl w)
  | .ret w => some (0x185#10, .ctl w)
  | .exit w => some (0x186#10, .ctl w)
  | .rjset w => some (0x188#10, .ctl w)
  | .rjwait w => some (0x189#10, .ctl w)
  | .rjmovRead w => some (0x18A#10, .ctl w)
  | .rjmovWrite w => some (0x18A#10, .ctl w)
  | .elect w => some (0x18C#10, .ctl w)
  | .nop w => some (0x190#10, .ctl w)
  | .sbeg w => some (0x191#10, .ctl w)
  | .yield w => some (0x192#10, .ctl w)
  | .sleep w => some (0x193#10, .ctl w)
  | .plop w => some (0x1C0#10, .arith w)
  | .p2s w => some (0x1C1#10, .arith w)
  | .s2p w => some (0x1C2#10, .arith w)
  | .rgrowWait w => some (0x1C8#10, .arith w)
  | .rgrowTry w => some (0x1C8#10, .arith w)
  | .rshrink w => some (0x1C9#10, .arith w)
  | .rqry w => some (0x1CA#10, .arith w)
  | .fmtset w => some (0x1D0#10, .arith w)
  | .fmtsetRm w => some (0x1D0#10, .arith w)
  | .fmtsetSrs w => some (0x1D0#10, .arith w)
  | .fmtget w => some (0x1D1#10, .arith w)
  | .fmtgetSrs w => some (0x1D1#10, .arith w)
  | .ld w => some (0x200#10, .mem w)
  | .land w => some (0x201#10, .mem w)
  | .st w => some (0x202#10, .mem w)
  | .lds w => some (0x204#10, .mem w)
  | .sts w => some (0x205#10, .mem w)
  | .ldc w => some (0x206#10, .mem w)
  | .gath w => some (0x208#10, .mem w)
  | .scat w => some (0x209#10, .mem w)
  | .ldgs w => some (0x20A#10, .mem w)
  | .pref w => some (0x20C#10, .mem w)
  | .cctlWb w => some (0x20D#10, .mem w)
  | .cctlInv w => some (0x20D#10, .mem w)
  | .cctlWball w => some (0x20D#10, .mem w)
  | .cctlInvall w => some (0x20D#10, .mem w)
  | .tst w => some (0x210#10, .mem w)
  | .tld w => some (0x211#10, .mem w)
  | .atom w => some (0x218#10, .mem w)
  | .atoms w => some (0x219#10, .mem w)
  | .red w => some (0x21A#10, .mem w)
  | .fence w => some (0x220#10, .mem w)
  | .bara w => some (0x280#10, .mem w)
  | .barw w => some (0x281#10, .mem w)
  | .bars w => some (0x282#10, .mem w)
  | .mbinit w => some (0x288#10, .mem w)
  | .mbarv w => some (0x289#10, .mem w)
  | .mbtst w => some (0x28A#10, .mem w)
  | .mbwait w => some (0x28B#10, .mem w)
  | .tshldGl w => some (0x2C0#10, .eng w)
  | .tshldSp w => some (0x2C0#10, .eng w)
  | .tshpSet w => some (0x2C1#10, .eng w)
  | .tshpAdd w => some (0x2C1#10, .eng w)
  | .tshpAdd64 w => some (0x2C1#10, .eng w)
  | .tshstGl w => some (0x2C2#10, .eng w)
  | .tshstSp w => some (0x2C2#10, .eng w)
  | .cpy w => some (0x2C8#10, .eng w)
  | .gset w => some (0x2D0#10, .eng w)
  | .gsetClr w => some (0x2D0#10, .eng w)
  | .qfncCq w => some (0x2D1#10, .eng w)
  | .qfncMq w => some (0x2D1#10, .eng w)
  | .qfncKq w => some (0x2D1#10, .eng w)
  | .qwait w => some (0x2D2#10, .eng w)
  | .mldb w => some (0x300#10, .eng w)
  | .mma w => some (0x301#10, .eng w)
  | .macc w => some (0x302#10, .eng w)
  | .mtbl w => some (0x303#10, .eng w)
  | .coll w => some (0x340#10, .eng w)
  | .sigsSet w => some (0x341#10, .eng w)
  | .sigsAdd w => some (0x341#10, .eng w)
  | .lsadjStep w => some (0x360#10, .sys w)
  | .lsadjSet w => some (0x360#10, .sys w)
  | .lsadjGet w => some (0x360#10, .sys w)
  | .ovfrRd w => some (0x361#10, .sys w)
  | .ovfrRdc w => some (0x361#10, .sys w)
  | .trap w => some (0x380#10, .sys w)
  | .tret w => some (0x381#10, .sys w)
  | .ctlr w => some (0x382#10, .sys w)
  | .ctlw w => some (0x383#10, .sys w)
  | .plcq w => some (0x384#10, .sys w)
  | .capq w => some (0x385#10, .sys w)
  | .clkr w => some (0x386#10, .sys w)
  | .brk w => some (0x387#10, .sys w)
  | .halt w => some (0x388#10, .sys w)
  | .sleepWake _ | .rgrowGrant _ _ | .tagLanded _ _ | .tldTmo _ | .storeDrain _ | .queueAccept _
  | .guardTest _ | .triggerMet _ _ | .cpyPerformed _ | .mldbPerformed _ | .mmaPerformed _
  | .pchkmis _ _ _ _ | .maccPerformed _ | .mtblPerformed _ | .qfncPerformed _ | .collPerformed _ _
  | .guardopen _ | .chunkExponentUp _ | .chunkExponentDown _ | .chunkDataUp _ | .chunkResultDown _
  | .collAbort _ | .collNeighbourTimeout _ _ _ | .prst _ | .vdrst _ | .trans _ _
  | .uncorrectableError _ | .recordWrite _ | .rjtmo _ _ _ | .fragmentLoad _ _ | .ejectHandover _ _
  | .ejectReturn _ _ | .pageWalkDone _ | .gangForm _ | .blockRetire _ | .entryBegin _ _
  | .periodBoundary _ | .sliceEnd _ | .blockTake _ | .forcedTake _ | .contextSave _ | .gangResume _ _
  | .wdog _ _ | .launch _ _ _ | .waittag _ _ | .waitsig _ _ | .tlbinv _ _ | .tlbinvPerformed _
  | .icinv _ _ | .icinvPerformed _ | .pageresp _ _ | .heldRecordIntake _ _ | .remoteWrite _ _
  | .remoteRead _ _ | .msgResend _ | .captureStart _ _ | .pagePreserve _ _ | .partitionEnable _ _
  | .partitionDisable _ _ | .pcolorWrite _ _ | .genableClear _ | .modrst _ | .queueEnable _ _ _
  | .queueDisable _ _ _ | .qwdtWrite _ _ _ | .vdEnable _ _ _ | .vdDisable _ _ _
  | .vdResetComplete _ | .placeTableWrite _ _ _ _ | .capmWrite _ _ _ | .memberTableWrite _ _ _ _
  | .lossScaleHostWrite _ _ _ _ | .hmRestart _ _ | .registerWrite _ _ _ | .linkDown _ _
  | .securityAlarm _ | .bootRecord _ _ | .selfTestDone _ | .linkUp _ _ | .atomPerformed _
  | .tstPerformed _ | .tldReturn _ | .correctableError _ _ => none

/-- The layout of an opcode and a class word. -/
def Body.layout (b : Body) (opc : BitVec 10) : Layout :=
  match b with
  | .arith w => w.layout opc
  | .ctl w => w.layout opc
  | .mem w => w.layout opc
  | .eng w => w.layout opc
  | .sys w => w.layout opc

/-- The word of an instruction, from the encoding tables of R138 to R149. -/
def encode (i : Instr) : Option W128 := i.split.map fun p => (p.2.layout p.1).word

/-- The fields that every canonical word has, of any class word. -/
def Body.common : Body → Common
  | .arith w => w.toCommon
  | .ctl w => w.toCommon
  | .mem w => w.toCommon
  | .eng w => w.toCommon
  | .sys w => w.toCommon

/-- The fields that every canonical word has. -/
def Instr.common? (i : Instr) : Option Common := i.split.map fun p => p.2.common

/-- The opcode of an instruction. -/
def Instr.opc? (i : Instr) : Option Nat := i.split.map fun p => p.1.toNat

/-- The capability class of the floating-point instructions that R149 classes by type. -/
def Ty.floatClass : Ty → Nat
  | .f64 => 8
  | .f32 | .f32x2 => 9
  | _ => 10

/-- The capability class of an instruction (R149): by opcode and, where the row says so, by type. -/
def Instr.capClass (i : Instr) : Nat :=
  match i.split with
  | none => 0
  | some (opc, b) =>
    let t := b.common.ty
    let o := opc.toNat
    let src : Ty := match b with
      | .arith w => Ty.ofCode w.mode
      | _ => t
    if o ≤ 0x002 then 0 else if o ≤ 0x005 then 1 else if o ≤ 0x014 then 0 else if o ≤ 0x025 then 2
    else if o ≤ 0x029 then 0 else if o == 0x02A then 3
    else if o ≤ 0x086 then t.floatClass
    else if o == 0x088 then (if src == .f64 then 14 else 15)
    else if o ≤ 0x089 then (if t == .f64 || (o == 0x087 && src == .f64) then 14 else 15)
    else if o ≤ 0x08B then (if t == .f64 then 11 else 12)
    else if o ≤ 0x096 then 13 else if o ≤ 0x09A then t.floatClass
    else if o == 0x100 then 16 else if o == 0x101 then 17 else if o == 0x102 then 18
    else if o ≤ 0x10A then 19 else if o ≤ 0x141 then 20
    else if o ≤ 0x143 then (if t.isFloat then 22 else 21)
    else if o == 0x144 then 23 else if o == 0x145 then 20
    else if o == 0x181 then 6 else if o ≤ 0x186 then 5 else if o ≤ 0x18C then 6
    else if o ≤ 0x193 then 5 else if o ≤ 0x1C2 then 4 else if o ≤ 0x1D1 then 7
    else if o ≤ 0x201 then 24 else if o == 0x202 then 25 else if o ≤ 0x205 then 26
    else if o == 0x206 then 27 else if o ≤ 0x209 then 28 else if o == 0x20A then 29
    else if o ≤ 0x20D then 30 else if o ≤ 0x211 then 31
    else if o ≤ 0x21A then (if t.isFloat then 33 else 32)
    else if o == 0x220 then 34 else if o ≤ 0x282 then 35 else if o ≤ 0x28B then 36
    else if o ≤ 0x2C2 then 37 else if o == 0x2C8 then 38 else if o ≤ 0x2D2 then 39
    else if o == 0x300 then 45
    else if o == 0x301 then
      (match t with
       | .bf16 | .f16 => 40
       | .e4m3 | .e5m2 => 41
       | .q4 => 42
       | .f32 => 43
       | _ => 44)
    else if o ≤ 0x303 then 45 else if o ≤ 0x341 then 46 else if o ≤ 0x361 then 47
    else if o ≤ 0x381 then 48 else if o ≤ 0x385 then 49 else if o ≤ 0x387 then 48 else 49

/-- The instruction the decoder reads from `nbits` bits of value `w`, bit 0 the lowest bit of the
byte at the lowest address; the bits above `nbits` are zero. A word has 128 bits (R138). -/
def decodeTableWord (nbits w : Nat) : Option Instr :=
  match decodeBytes (leBytes 16 (w % 2 ^ min nbits 128)) with
  | .ok i => some i
  | .error _ => none

end Sys2Proof
end

