-- ==== Sys2Proof/Machine/Numbers.lean ====
section
/-! DEFINITION. The floating-point formats, exact values and the one rounding function (R81 to R97,
R190). A finite value is a sign, a magnitude and an exponent of two; a sum is exact. -/

namespace Sys2Proof.Machine

/-- The number of fraction bits plus 1 (R81). -/
def fmtP : Ty → Nat
  | .f64 => 53 | .f16 => 11 | .bf16 => 8 | .e4m3 => 4 | .e5m2 => 3 | _ => 24

/-- The exponent bias (R81). -/
def fmtBias : Ty → Int
  | .f64 => 1023 | .f16 => 15 | .e4m3 => 7 | .e5m2 => 15 | _ => 127

/-- The exponent bits (R81). -/
def fmtExp : Ty → Nat
  | .f64 => 11 | .f16 => 5 | .e4m3 => 4 | .e5m2 => 5 | _ => 8

/-- The bits of one element. -/
def fmtWidth (t : Ty) : Nat := 1 + fmtExp t + (fmtP t - 1)

/-- The bits of the largest finite magnitude (R81, R82). -/
def fmtMax (t : Ty) : Nat :=
  if t == .e4m3 then 0x7E else (2 ^ fmtExp t - 1) * 2 ^ (fmtP t - 1) - 1

/-- The bits of +∞; for E4M3 those of its NaN, which stands for it (R82, R89). -/
def fmtInf (t : Ty) : Nat :=
  if t == .e4m3 then 0x7F else (2 ^ fmtExp t - 1) * 2 ^ (fmtP t - 1)

/-- The canonical NaN (R83). -/
def fmtNan (t : Ty) : Nat :=
  if t == .e4m3 then 0x7F else (2 ^ fmtExp t - 1) * 2 ^ (fmtP t - 1) + 2 ^ (fmtP t - 2)

/-- The sign bit of an element. -/
def fmtSign (t : Ty) (neg : Bool) : Nat := if neg then 2 ^ (fmtWidth t - 1) else 0

/-- A value: a NaN with its sign, quietness, fraction and fraction width; an infinity; or the finite
number ±m × 2^e. -/
inductive FVal where
  | nan (neg quiet : Bool) (frac fw : Nat)
  | inf (neg : Bool)
  | fin (neg : Bool) (m : Nat) (e : Int)
deriving DecidableEq, Repr

/-- The canonical NaN as a value. -/
def FVal.cnan : FVal := .nan false true 0 1

/-- The value of an element (R81, R82). -/
def unpack (t : Ty) (x : Nat) : FVal :=
  let p := fmtP t
  let f := x % 2 ^ (p - 1)
  let e := bitField x (p - 1) (fmtExp t)
  let s := testBit x (fmtWidth t - 1)
  if t == .e4m3 && e == 15 && f == 7 then .nan s true f (p - 1)
  else if t != .e4m3 && e == 2 ^ fmtExp t - 1 then
    if f == 0 then .inf s else .nan s (testBit f (p - 2)) f (p - 1)
  else if e == 0 then .fin s f (1 - fmtBias t - (p - 1 : Nat))
  else .fin s (2 ^ (p - 1) + f) ((e : Int) - fmtBias t - (p - 1 : Nat))

/-- A value is a NaN. -/
def FVal.isNan : FVal → Bool
  | .nan _ _ _ _ => true
  | _ => false
/-- A value is finite. -/
def FVal.isFin : FVal → Bool
  | .fin _ _ _ => true
  | _ => false
/-- A value is zero. -/
def FVal.isZero : FVal → Bool
  | .fin _ m _ => m == 0
  | _ => false
/-- A value's sign. -/
def FVal.neg : FVal → Bool
  | .nan s _ _ _ => s
  | .inf s => s
  | .fin s _ _ => s
/-- A signalling NaN. -/
def FVal.isSnan : FVal → Bool
  | .nan _ q _ _ => !q
  | _ => false

/-- The bits of a NaN result (R83): its sign and the highest fraction bits that fit, made quiet. -/
def packNan (t : Ty) (nanc neg : Bool) (frac fw : Nat) : Nat :=
  if nanc then fmtNan t
  else if t == .e4m3 then fmtSign t neg + 0x7F
  else
    let w := fmtP t - 1
    let f := if w ≤ fw then frac / 2 ^ (fw - w) else frac * 2 ^ (w - fw)
    fmtSign t neg + fmtInf t + 2 ^ (w - 1) + f % 2 ^ (w - 1)

/-- A rounding mode (R88); the stochastic one with the generator state it draws from. -/
inductive RMode where
  | rne | rtz | rup | rdn
  | sr (srs : W32)
deriving DecidableEq, Repr

/-- The advance of the generator (R93). -/
def srsAdvance (s : W32) : W32 :=
  let s := s ^^^ (s <<< 13)
  let s := s ^^^ (s >>> 17)
  s ^^^ (s <<< 5)

/-- The initial generator state of thread `t` of the block of index `s0` (R93). -/
def srsInit (s0 : W32) (t : Nat) : W32 :=
  let x := BitVec.ofNat 32 ((s0.toNat * 2048 + t) * 0x9E3779B9 + 0x6A09E667)
  if x == 0#32 then 1#32 else x

/-- sround of R94, for the fraction num / den of the way from lo to hi: whether hi is taken. -/
def stochasticUp (srs : W32) (num den : Nat) : Bool :=
  decide (2 ^ 24 ≤ num * 2 ^ 24 / den + srs.toNat / 256)

/-- Whether the larger neighbour is taken (R88), for the remainder `r` of a unit 2^k, with `sticky` a
further nonzero tail; `odd` says that the last bit of the smaller neighbour is 1. -/
def roundsUp (mode : RMode) (neg odd : Bool) (r unit : Nat) (sticky : Bool) : Bool :=
  if r == 0 && !sticky then false
  else match mode with
    | .rne => decide (unit < 2 * r) || (2 * r == unit && (sticky || odd))
    | .rtz => false
    | .rup => !neg
    | .rdn => neg
    | .sr s => stochasticUp s r unit

/-- A magnitude m × 2^e, with a further nonzero tail if `sticky`, rounded to a multiple of 2^u. -/
def roundTo (mode : RMode) (neg : Bool) (m : Nat) (e : Int) (sticky : Bool) (u : Int) : Nat :=
  if u ≤ e then m * 2 ^ (e - u).toNat +
      (if sticky && roundsUp mode neg (testBit (m * 2 ^ (e - u).toNat) 0) 0 1 true then 1 else 0)
  else
    let unit := 2 ^ (u - e).toNat
    let q := m / unit
    if roundsUp mode neg (testBit q 0) (m % unit) unit sticky then q + 1 else q

/-- floor(log2) of a nonzero magnitude. -/
def magLog (m : Nat) (e : Int) : Int := (Nat.log2 m : Int) + e

/-- The result of rounding a finite nonzero magnitude (R88, R89): the bits without the sign, and
whether it overflowed. -/
def roundMag (t : Ty) (mode : RMode) (neg : Bool) (m : Nat) (e : Int) (sticky : Bool) : Nat × Bool :=
  let p := fmtP t
  let u := max (magLog m e) (1 - fmtBias t) - (p - 1 : Nat)
  let q := roundTo mode neg m e sticky u
  let bits := (u + (p - 1 : Nat) + fmtBias t - 1).toNat * 2 ^ (p - 1) + q
  if bits ≤ fmtMax t then (bits, false)
  else match mode with
    | .rtz => (fmtMax t, true)
    | .rup => (if neg then fmtMax t else fmtInf t, true)
    | .rdn => (if neg then fmtInf t else fmtMax t, true)
    | _ => (fmtInf t, true)

/-- How results are delivered: the NaN rule, the saturation of R89 and the flush of R96. -/
structure FCtl where
  mode : RMode
  nanc : Bool
  sat : Bool
  ftz : Bool
deriving DecidableEq, Repr

/-- The smallest normal magnitude is not reached by the value rounded with unbounded exponent (R96). -/
def belowNormal (t : Ty) (mode : RMode) (neg : Bool) (m : Nat) (e : Int) (sticky : Bool) : Bool :=
  let u := magLog m e - (fmtP t - 1 : Nat)
  let q := roundTo mode neg m e sticky u
  decide (magLog q u < 1 - fmtBias t)

/-- A result: its bits, and whether it is an infinity or NaN before saturation or was saturated (the
two cases of R190). -/
structure FRes where
  bits : Nat
  special : Bool
deriving DecidableEq, Repr

/-- round(x, fmt, mode) with the deliveries of a result (R83, R88, R89, R96); a nonzero finite value
may carry a further nonzero tail. DESIGN CHOICE: with SAT, a value beyond the largest finite one counts as saturated (R190),
whichever way its rounding goes. -/
def deliver (t : Ty) (c : FCtl) (v : FVal) (sticky : Bool := false) : FRes :=
  match v with
  | .nan s _ f fw => ⟨packNan t c.nanc s f fw, true⟩
  | .inf s =>
    if c.sat then ⟨fmtSign t s + fmtMax t, true⟩
    else if t == .e4m3 && c.nanc then ⟨0x7F, true⟩
    else ⟨fmtSign t s + fmtInf t, true⟩
  | .fin s m e =>
    if m == 0 && !sticky then ⟨fmtSign t s, false⟩
    else
      let (bits, exceeds) := roundMag t c.mode s m e sticky
      if exceeds && c.sat then ⟨fmtSign t s + fmtMax t, true⟩
      else if c.ftz && belowNormal t c.mode s m e sticky then ⟨fmtSign t s, false⟩
      else if t == .e4m3 && c.nanc && bits == 0x7F then ⟨0x7F, true⟩
      else ⟨fmtSign t s + bits, decide (fmtInf t ≤ bits)⟩

/-- The first NaN among the sources (R83). -/
def firstNan : List FVal → Option FVal
  | [] => none
  | v :: vs => if v.isNan then some v else firstNan vs

/-- The signed coefficient of a finite value at exponent `g`, not above its own. -/
def coeffAt (s : Bool) (m : Nat) (e g : Int) : Int :=
  let x : Int := (m * 2 ^ (e - g).toNat : Nat)
  if s then -x else x

/-- A finite value from a signed coefficient; zero takes the sign given. -/
def ofCoeff (c : Int) (g : Int) (zeroNeg : Bool) : FVal :=
  if c == 0 then .fin zeroNeg 0 0 else .fin (decide (c < 0)) c.natAbs g

/-- The exact sum of finite addends; an exact zero takes its sign by R90. -/
def sumFin (rdn : Bool) (xs : List (Bool × Nat × Int)) : FVal :=
  let g := xs.foldl (fun g x => min g x.2.2) (match xs with
    | [] => 0
    | x :: _ => x.2.2)
  let c := xs.foldl (fun a x => a + coeffAt x.1 x.2.1 x.2.2 g) (0 : Int)
  let allNegZero := xs.all fun x => x.1 && x.2.1 == 0
  let allPosZero := xs.all fun x => !x.1 && x.2.1 == 0
  ofCoeff c g (allNegZero || (rdn && !allPosZero))

/-- The exact sum of values (R83, R90): NaN first, then infinities, then the finite sum. -/
def sumVals (rdn : Bool) (vs : List FVal) : FVal :=
  match firstNan vs with
  | some v => v
  | none =>
    let pos := vs.any (· == .inf false)
    let neg := vs.any (· == .inf true)
    if pos && neg then .cnan else if pos then .inf false else if neg then .inf true
    else sumFin rdn (vs.filterMap fun v => match v with
      | .fin s m e => some (s, m, e)
      | _ => none)

/-- The exact product of two values that are not NaN; 0 × ∞ is the canonical NaN (R83). -/
def mulVals : FVal → FVal → FVal
  | .fin s m e, .fin s' m' e' => .fin (s != s') (m * m') (e + e')
  | .inf s, .fin s' m' _ => if m' == 0 then .cnan else .inf (s != s')
  | .fin s m _, .inf s' => if m == 0 then .cnan else .inf (s != s')
  | .inf s, .inf s' => .inf (s != s')
  | _, _ => .cnan

/-- A value times a power of two. -/
def scaleVal (k : Int) : FVal → FVal
  | .fin s m e => .fin s m (e + k)
  | v => v

/-- The comparison of two finite or infinite values; zeros are equal. -/
def cmpVals : FVal → FVal → Ordering
  | .fin s m e, .fin s' m' e' =>
    let g := min e e'
    compare (coeffAt s m e g) (coeffAt s' m' e' g)
  | .inf s, .inf s' => compare (bit (!s)) (bit (!s'))
  | .inf s, _ => if s then .lt else .gt
  | _, .inf s => if s then .gt else .lt
  | _, _ => .eq

/-- The order of R97, in which −0 stands below +0. -/
def ordVals (a b : FVal) : Ordering :=
  match cmpVals a b with
  | .eq => if a.isZero && b.isZero then compare (bit (!a.neg)) (bit (!b.neg)) else .eq
  | o => o

/-- FMIN and FMAX of two sources (R97): which is returned, or the NaN source of R83. -/
def minMaxVals (isMax : Bool) (a b : FVal) : FVal :=
  if a.isSnan || b.isSnan || (a.isNan && b.isNan) then (firstNan [a, b]).getD .cnan
  else if a.isNan then b else if b.isNan then a
  else match ordVals a b with
    | .lt => if isMax then b else a
    | .gt => if isMax then a else b
    | .eq => a

/-- The quotient with its tail (R97, R198). -/
def divVals (a b : FVal) : FVal × Bool :=
  match a, b with
  | .fin s m e, .fin s' m' e' =>
    if m' == 0 then (if m == 0 then .cnan else .inf (s != s'), false)
    else if m == 0 then (.fin (s != s') 0 0, false)
    else
      let k := 64 + Nat.log2 m'
      (.fin (s != s') (m * 2 ^ k / m') (e - e' - k), m * 2 ^ k % m' != 0)
  | .inf s, .fin s' _ _ => (.inf (s != s'), false)
  | .fin s _ _, .inf s' => (.fin (s != s') 0 0, false)
  | _, _ => (.cnan, false)

/-- The integer square root, bit by bit from 2^n. -/
def isqrtFrom : Nat → Nat → Nat → Nat
  | 0, r, _ => r
  | n + 1, r, x => if (r + 2 ^ n) * (r + 2 ^ n) ≤ x then isqrtFrom n (r + 2 ^ n) x else isqrtFrom n r x

/-- floor of the square root. -/
def isqrt (x : Nat) : Nat := isqrtFrom (Nat.log2 x / 2 + 1) 0 x

/-- The square root with its tail (R97, R198). -/
def sqrtVal : FVal → FVal × Bool
  | .fin s m e =>
    if m == 0 then (.fin s 0 0, false)
    else if s then (.cnan, false)
    else
      let k : Nat := if e % 2 == 0 then 128 else 129
      let x := m * 2 ^ k
      let r := isqrt x
      (.fin false r ((e - k) / 2), r * r != x)
  | .inf s => (if s then .cnan else .inf false, false)
  | v => (v, false)

/-- A value rounded to an integer by a mode (R92, R195). -/
def roundInt (mode : RMode) : FVal → Int
  | .fin s m e =>
    let q : Int := (roundTo mode s m e false 0 : Nat)
    if s then -q else q
  | _ => 0

/-- The conversion to an integer type (R92), and whether a finite source was clamped (R190). -/
def toIntType (mode : RMode) (signed : Bool) (w : Nat) (v : FVal) : Int × Bool :=
  match v with
  | .nan _ _ _ _ => (0, false)
  | .inf s => (if s then intLeast signed w else intGreatest signed w, false)
  | _ => let r := roundInt mode v; (clampInt signed w r, clampInt signed w r != r)

/-- The value of an integer. -/
def ofInt (v : Int) : FVal := .fin (decide (v < 0)) v.natAbs 0

/-- The magnitudes of R87 by code type, in units of 2^-3. -/
def q4Mags (ct : Nat) : List Nat :=
  if ct == 1 then [0, 4, 8, 12, 16, 24, 32, 48]
  else if ct == 2 then [0, 1, 2, 4, 8, 16, 32, 64]
  else [0, 8, 16, 24, 32, 48, 64, 96]

/-- The value of a code at type `ct`, without scale (R87). -/
def q4Decode (ct code : Nat) : FVal :=
  if ct == 0 then
    let v := toSigned 4 code
    .fin (decide (v < 0)) v.natAbs 0
  else .fin (testBit code 3) ((q4Mags ct).getD (code % 8) 0) (-3)

/-- The value of a code under a scale byte (R86); NaN when E is 63. -/
def q4Value (scale code : Nat) : FVal :=
  if scale % 64 == 63 then .cnan else scaleVal ((scale % 64 : Nat) - 32) (q4Decode (scale / 64 % 4) code)

/-- The position in a rising list of magnitudes of the largest one at most `x`. -/
def bracket (ms : List Nat) (x : Nat) : Nat := (ms.filter (· ≤ x)).length - 1

/-- The code of a finite value at type `ct` and exponent `E` (R91); NaN and infinity have code 0. -/
def q4Round (mode : RMode) (ct E : Nat) (v : FVal) : Nat :=
  match scaleVal (32 - (E : Int)) v with
  | .fin s m e =>
    if ct == 0 then
      let q : Int := (roundTo mode s m e false 0 : Nat)
      wrap 4 (clampInt true 4 (if s then -q else q))
    else
      -- the magnitude and the units of R87 at one exponent
      let g := min e (-3)
      let x := m * 2 ^ (e - g).toNat
      let sc : Nat := (-3 - g).toNat
      let ms := (q4Mags ct).map fun y => y * 2 ^ sc
      let i := bracket ms x
      let lo := ms.getD i 0
      let hi := ms.getD (i + 1) lo
      let up := if i == 7 || x == lo then false
        else match mode with
          | .rne => decide (hi - x < x - lo) || (hi - x == x - lo && i % 2 == 1)
          | .rtz => false
          | .rup => !s
          | .rdn => s
          | .sr r => stochasticUp r (x - lo) (hi - lo)
      bit s * 8 + (if up then i + 1 else i)
  | _ => 0

/-- SCLMAX (R205): the scale byte chosen for a magnitude. -/
def scaleFor (ct : Nat) : FVal → Nat
  | .fin _ m e =>
    if m == 0 then ct * 64
    else
      let top : Nat := if ct == 0 then 7 else if ct == 1 then 6 else if ct == 2 then 8 else 12
      -- |A| ≤ M × 2^(k - 32)
      let fits (k : Nat) : Bool := cmpVals (.fin false m e) (.fin false top ((k : Int) - 32)) != .gt
      ct * 64 + (((List.range 63).find? fits).getD 62)
  | _ => ct * 64 + 63

/-- The class of an element (R200), 0 to 9. -/
def classOf (t : Ty) (x : Nat) : Nat :=
  match unpack t x with
  | .nan _ q _ _ => if q then 1 else 0
  | .inf s => if s then 2 else 9
  | .fin s m _ =>
    if m == 0 then (if s then 5 else 6)
    else if m < 2 ^ (fmtP t - 1) then (if s then 4 else 7)
    else (if s then 3 else 8)

/-- One pass of the matrix engine on exact terms (R99), the accumulator value first. -/
def passSum (terms : List FVal) : Nat :=
  let c : FCtl := ⟨.rne, true, false, false⟩
  if terms.any (·.isNan) then fmtNan .f32
  else
    let pos := terms.any (· == .inf false)
    let neg := terms.any (· == .inf true)
    if pos && neg then fmtNan .f32
    else if pos then fmtInf .f32
    else if neg then fmtSign .f32 true + fmtInf .f32
    else
      let fins : List (Bool × Nat × Int) := terms.filterMap fun v => match v with
        | .fin s m e => some (s, m, e)
        | _ => none
      match fins.filter (fun x => x.2.1 != 0) with
      | [] => if fins.all (·.1) then fmtSign .f32 true else 0
      | x :: xs =>
        let emax := xs.foldl (fun a y => max a (magLog y.2.1 y.2.2)) (magLog x.2.1 x.2.2)
        let q := emax - 40
        let part (y : Bool × Nat × Int) : Int :=
          if q ≤ y.2.2 then coeffAt y.1 y.2.1 y.2.2 q
          else (if y.1 then -((y.2.1 : Int)) else y.2.1) / (2 ^ (q - y.2.2).toNat : Nat)
        let s := (x :: xs).foldl (fun a y => a + part y) (0 : Int)
        (deliver .f32 c (ofCoeff s q false)).bits

end Sys2Proof.Machine
end

