-- ==== Sys2Proof/Machine/Memory.lean ====
section
/-! DEFINITION. Memory: bytes of global memory, the L2 slices (R109), scratchpads (R104), the core
windows (R107), poison (R362, R364), and the operation of an atomic (R229). -/

namespace Sys2Proof.Machine

/-- A byte of global memory. -/
def Memory.get (m : Memory) (a : Nat) : Byte := tblGet Memory.unlisted m a
/-- Global memory with a byte written, in canonical form. -/
def Memory.set (m : Memory) (a : Nat) (b : Byte) : Memory := tblSet Memory.unlisted m a b
/-- Consecutive bytes written from an address. -/
def Memory.write (m : Memory) (a : Nat) : List Byte → Memory
  | [] => m
  | b :: bs => Memory.write (m.set a b) (a + 1) bs
/-- Consecutive bytes. -/
def Memory.read (m : Memory) (a n : Nat) : List Byte := (upFrom a n).map m.get

/-- The stack of a die, 48 GiB at the base of its range (R106). -/
def isHbm (pa : Nat) : Bool := decide (pa < 0x20000000000) && decide (pa % 0x1000000000 < 0xC00000000)
/-- The home die of a physical address (R109). -/
def homeDie (pa : Nat) : Nat := pa / 0x1000000000 % 32
/-- The colour of a line (R111). -/
def colourOf (pa : Nat) : Nat := (bitField pa 21 4) ^^^ (bitField pa 25 4)

/-- What global memory holds: its bytes, and the save areas with open ones. -/
def State.ram (s : State) : Memory × List SaveBytes := (s.mem, s.areas)

/-- The save area that holds a byte, if one does. -/
def areaOf (areas : List SaveBytes) (pa : Nat) : Option SaveBytes :=
  areas.find? fun r => decide (r.base ≤ pa) && decide (pa < r.base + r.size)

/-- The save areas without the `n` bytes from `a`, which a write gives a value. -/
def cutAreas (areas : List SaveBytes) (a n : Nat) : List SaveBytes :=
  areas.flatMap fun r =>
    ([{ r with size := min r.size (a - r.base) },
      { r with base := max r.base (a + n), size := r.base + r.size - max r.base (a + n) }] : List SaveBytes).filter
      fun x => x.size != 0

/-- A byte read at the memory-side cache of its home die; a reserved range reads as zero (R106), a byte of a saved
context as an open value. -/
def State.mscByte (s : State) (pa : Nat) : Byte :=
  if isHbm pa then
    match areaOf s.areas pa with
    | some r => Config.freeByte r.draw pa
    | none => s.mem.get pa
  else 0#8
/-- Bytes read at the memory-side cache. -/
def State.mscRead (s : State) (pa n : Nat) : List Byte := (upFrom pa n).map s.mscByte

/-- The granules of `size` bytes that `n` bytes from `a` touch. -/
def granules (size a n : Nat) : List Nat := if n == 0 then [] else upFrom (a / size) ((a + n - 1) / size - a / size + 1)
/-- Poison marks after a write of `n` bytes at `a`: a granule written whole is cleared (R364). -/
def clearPoison (size : Nat) (bad : List Nat) (a n : Nat) : List Nat :=
  bad.filter fun g => !(decide (a ≤ g * size) && decide (g * size + size ≤ a + n))

/-- A 32-bit word at the memory-side cache. -/
def State.mscWord (s : State) (pa : Nat) : Nat := leNat (s.mscRead pa 4)

/-- The conditions of a WAITSIG (R288). -/
def waitsigMet (hdr : BitVec 512) (word : Nat) : Bool :=
  let v := (hdr.extractLsb' 320 32).toNat
  if hdr.getLsbD 352 then word == v else decide (v ≤ word)

/-- After a write at the memory-side cache: every held trigger and every waiting WAITSIG whose word it
touches is tested (R264, R288). -/
def State.signal (s : State) (pa n : Nat) : State :=
  let hit (w : Nat) : Bool := decide (w < pa + n) && decide (pa < w + 4)
  let coll (e : QEntry) : QEntry :=
    match e.run with
    | some r =>
      match r.watch with
      | some (w, thr) =>
        if hit w && decide (thr.toNat ≤ s.mscWord w) then { e with run := some { r with triggered := true } } else e
      | none => e
    | none => e
  let entry (e : Entry) : Entry :=
    match e.watch with
    | some (w, _, _) => if hit w && waitsigMet e.hdr (s.mscWord w) then { e with met := true } else e
    | none => e
  { s with
    kqueues := s.kqueues.map fun q => (q.1, q.2.map coll)
    fes := s.fes.map fun f =>
      (f.1, { f.2 with queues := f.2.queues.map fun q => (q.1, { q.2 with entries := q.2.entries.map entry }) }) }

/-- Bytes written at the memory-side cache of their home die; a reserved range ignores them (R106). -/
def State.mscWrite (s : State) (pa : Nat) (bs : List Byte) : State :=
  if isHbm pa then
    ({ s with mem := s.mem.write pa bs, areas := cutAreas s.areas pa bs.length
              memBad := clearPoison 32 s.memBad pa bs.length
              mscBad := clearPoison 32 s.mscBad pa bs.length } : State).signal pa bs.length
  else s

/-- A context is written over `size` bytes of a save area (R301, R389). -/
def State.saveBytes (s : State) (base size : Nat) : State :=
  ({ s.drawn with
      areas := if size == 0 then s.areas else ⟨base, size, s.freeCtr⟩ :: cutAreas s.areas base size
      memBad := clearPoison 32 s.memBad base size
      mscBad := clearPoison 32 s.mscBad base size } : State).signal base size

/-- A granule of `n` bytes at `pa` is poisoned in memory. -/
def State.memPoisoned (s : State) (pa n : Nat) : Bool := (granules 32 pa n).any s.memBad.contains
/-- The storage level of poison in `n` bytes at `pa` of memory (R363): 4 in the memory-side cache, 5 in HBM4E. -/
def State.memPoison? (s : State) (pa n : Nat) : Option Nat :=
  ((granules 32 pa n).find? s.memBad.contains).map fun g => if s.mscBad.contains g then 4 else 5
/-- The granule of a byte poisoned in HBM4E. -/
def State.poisonHbm (s : State) (pa : Nat) : State :=
  { s with memBad := setInsert s.memBad (pa / 32), mscBad := setErase s.mscBad (pa / 32) }
/-- The poison of a granule gone. -/
def State.clearMem (s : State) (g : Nat) : State := { s with memBad := setErase s.memBad g, mscBad := setErase s.mscBad g }

/-! ### The memory-side caches -/

/-- The lines of one colour that a memory-side cache holds: a sixteenth of its 32 MiB (R14, R111). -/
def mscLines : Nat := 16384

/-- Where the memory-side cache that serves an address keeps lines of its colour. -/
def mscKey (pa : Nat) : Nat := 16 * homeDie pa + colourOf pa

/-- A line is in the memory-side cache of its home die. -/
def State.cached (s : State) (line : Nat) : Bool := (tblGet [] s.msc (mscKey (128 * line))).contains line

/-- A line used in the memory-side cache of its home die, and allocated there where it was absent. DESIGN CHOICE: of the lines of
its colour the one used longest ago leaves (log entry 116); its poison is in HBM4E then (R363). -/
def State.useLine (s : State) (line : Nat) : State :=
  let k := mscKey (128 * line)
  let ls := line :: (tblGet [] s.msc k).filter (· != line)
  let gone := ls.drop mscLines
  { s with msc := tblSet [] s.msc k (ls.take mscLines)
           mscBad := if gone.isEmpty then s.mscBad else s.mscBad.filter fun g => !gone.contains (g / 4) }

/-- An access of a partition to a line at the memory-side cache of its home die. To a line of a colour that the partition does
not hold it is counted there, and it allocates none; a copy that is there serves it (R111). -/
def State.touch (s : State) (part pa : Nat) : State :=
  if !isHbm pa then s
  else if (s.part part).colours.getLsbD (colourOf pa) then s.useLine (pa / 128)
  else
    let d := homeDie pa
    (if s.cached (pa / 128) then s.useLine (pa / 128) else s).setDie d { s.die d with foreign := (s.die d).foreign + 1 }

/-- The granules of `n` bytes at `pa` poisoned with a write: in the memory-side cache where it holds their line, else in HBM4E
(R111, R362, R363). -/
def State.poisonMem (s : State) (pa n : Nat) : State :=
  let gs := granules 32 pa n
  { s with memBad := gs.foldl setInsert s.memBad, mscBad := (gs.filter fun g => s.cached (g / 4)).foldl setInsert s.mscBad }
/-- The granule of a byte poisoned by an error in the memory-side cache, which holds its line (R362). -/
def State.strikeMsc (s : State) (pa : Nat) : State := (s.useLine (pa / 128)).poisonMem pa 1

/-- An access of a partition to the lines of `n` bytes there. -/
def State.touchLines (s : State) (part pa n : Nat) : State :=
  (granules 128 pa n).foldl (fun (s : State) line => s.touch part (128 * line)) s

/-! ### L2 slices -/

/-- The lines of a slice. -/
def State.slice (s : State) (cl : Nat) : Tbl L2Line := tblGet [] s.l2 cl
/-- The state with a slice replaced. -/
def State.setSlice (s : State) (cl : Nat) (x : Tbl L2Line) : State := { s with l2 := tblSet [] s.l2 cl x }

/-- The enabled partition whose range holds a cluster (R284). -/
def State.partOf (s : State) (cl : Nat) : Option Nat :=
  (s.parts.find? fun x => x.2.en && decide (x.2.base ≤ cl) && decide (cl ≤ x.2.limit)).map (·.1)

/-- The access of a cluster's slice to a line at the memory-side cache, for the count of R111. -/
def State.touchFrom (s : State) (cl line : Nat) : State :=
  match s.partOf cl with
  | some p => s.touch p (128 * line)
  | none => s

/-- A byte with one nibble replaced (R120). -/
def withNibble (high : Bool) (code : BitVec 4) (b : Nat) : Nat :=
  if high then b % 16 + 16 * code.toNat else b / 16 * 16 + code.toNat

/-- An element of byte `i` of a line is dirty. -/
def L2Line.byteDirty (l : L2Line) (i : Nat) : Bool := l.dirty.getLsbD (2 * i) || l.dirty.getLsbD (2 * i + 1)

/-- Byte `i` of a line over the byte that the memory-side cache holds: its dirty elements stand (R120). -/
def L2Line.over (l : L2Line) (i : Nat) (b : Byte) : Byte :=
  let x := (tblGet 0#8 l.data i).toNat
  let lo := if l.dirty.getLsbD (2 * i) then x % 16 else b.toNat % 16
  let hi := if l.dirty.getLsbD (2 * i + 1) then x / 16 else b.toNat / 16
  BitVec.ofNat 8 (16 * hi + lo)

/-- The bits of `L2Line.dirty` for the bytes `o` to `o + n - 1` of a line. -/
def dirtyBits (o n : Nat) : BitVec 256 := (upFrom (2 * o) (2 * n)).foldl (fun m i => m ||| (1#256 <<< i)) 0#256

/-- A line as the memory-side cache holds it. -/
def State.fetchLine (s : State) (line : Nat) : L2Line where
  data := (List.range 128).foldl (fun t i => tblSet 0#8 t i (s.mscByte (128 * line + i))) []
  dirty := 0#256
  bad := (List.range 4).filter fun g => s.memBad.contains (4 * line + g)
  first := false

/-- The dirty bytes of a line written back; the line is clean afterwards (R109, R120, R362). -/
def State.writeBack (s : State) (cl line : Nat) : State :=
  match tblFind (s.slice cl) line with
  | none => s
  | some l =>
    let s := if l.dirty == 0#256 then s else s.touchFrom cl line
    let s := (List.range 128).foldl (fun (s : State) i =>
      if l.byteDirty i then s.mscWrite (128 * line + i) [l.over i (s.mscByte (128 * line + i))] else s) s
    let dirtyGranule (g : Nat) : Bool := (List.range 32).any fun i => l.byteDirty (32 * g + i)
    let whole (g : Nat) : Bool := (upFrom (64 * g) 64).all fun i => l.dirty.getLsbD i
    let s := ((List.range 4).filter whole).foldl (fun (s : State) g => s.clearMem (4 * line + g)) s
    let s := (l.bad.filter dirtyGranule).foldl (fun (s : State) g => s.poisonMem (32 * (4 * line + g)) 32) s
    s.setSlice cl (tblInsert (s.slice cl) line { l with dirty := 0#256 })

/-- A line written back and invalidated (R109). -/
def State.dropLine (s : State) (cl line : Nat) : State :=
  let s := s.writeBack cl line
  s.setSlice cl (tblErase (s.slice cl) line)

/-- Every dirty line of a slice written back (R128). -/
def State.writeBackAll (s : State) (cl : Nat) : State :=
  (s.slice cl).foldl (fun s l => if l.2.dirty == 0#256 then s else s.writeBack cl l.1) s

/-- Every clean line of a slice invalidated: the flash clear of R128. -/
def State.clearClean (s : State) (cl : Nat) : State :=
  s.setSlice cl ((s.slice cl).filter fun l => l.2.dirty != 0#256)

/-- Every line of a slice that is dirty in part evicted. -/
def State.dropPartial (s : State) (cl : Nat) : State :=
  (s.slice cl).foldl (fun s l => if l.2.dirty == 0#256 || l.2.dirty == BitVec.allOnes 256 then s else s.dropLine cl l.1) s

/-- The invalidation of an acquire (R128): every clean line. DEDUCED: a line that is dirty in part is evicted, as a slice
may evict any line at any time (R109), or its clean bytes could hide a store that happens before the acquire (R123). -/
def State.acquireSlice (s : State) (cl : Nat) : State := (s.dropPartial cl).clearClean cl

/-- Every line written back and invalidated (R227). -/
def State.dropAll (s : State) (cl : Nat) : State := (s.writeBackAll cl).clearClean cl

/-- The lines of 128 bytes that an L2 slice of 24 MiB holds (R14). -/
def sliceLines : Nat := 196608

/-- The line that leaves a full slice (R109): one that is marked first for replacement (R215). DESIGN CHOICE: of those, or of all
where none is marked, the one of the lowest number (log entry 116). -/
def victimOf (ls : Tbl L2Line) : Option Nat := ((ls.find? fun l => l.2.first).or ls.head?).map (·.1)

/-- A slice with room for one more line (R14). -/
def State.makeRoom (s : State) (cl : Nat) : State :=
  if (s.slice cl).length < sliceLines then s
  else
    match victimOf (s.slice cl) with
    | some line => s.dropLine cl line
    | none => s

/-- The lines of `n` bytes marked first for replacement where a slice holds them (R215). -/
def State.markFirst (s : State) (cl pa n : Nat) : State :=
  (granules 128 pa n).foldl (fun (s : State) line =>
    match tblFind (s.slice cl) line with
    | some l => s.setSlice cl (tblInsert (s.slice cl) line { l with first := true })
    | none => s) s

/-- A slice with a line present, filled at a miss (R109). -/
def State.fillLine (s : State) (cl line : Nat) : State :=
  match tblFind (s.slice cl) line with
  | some _ => s
  | none =>
    let s := (s.makeRoom cl).touchFrom cl line
    s.setSlice cl (tblInsert (s.slice cl) line (s.fetchLine line))

/-- The lines of a slice that `n` bytes touch evicted, before an access that goes past the slice reads them at the
memory-side cache. DEDUCED: such an access neither reads nor fills the slice (R109), and the store of the same core, or of
the same cluster to a lane on a tender, that stands dirty in it must be seen (R121, R124, R129); nor may a clean line give a
later access of the cluster an older value (R124); a slice may evict a line at any time. -/
def State.evictLines (s : State) (cl pa n : Nat) : State :=
  (granules 128 pa n).foldl (fun (s : State) line => if (tblFind (s.slice cl) line).isSome then s.dropLine cl line else s) s

/-- Bytes read through a slice that holds their lines. -/
def State.sliceByte (s : State) (cl pa : Nat) : Byte :=
  match tblFind (s.slice cl) (pa / 128) with
  | some l => tblGet 0#8 l.data (pa % 128)
  | none => s.mscByte pa

/-- The lines of a plain read of `n` bytes through the slice: hit, or miss and fill; without `fill` a miss leaves the
slice as it is (R109, R215). -/
def State.sliceRead (s : State) (cl pa n : Nat) (fill : Bool) : State :=
  (granules 128 pa n).foldl (fun (s : State) l =>
    if fill then s.fillLine cl l else if (tblFind (s.slice cl) l).isNone then s.touchFrom cl l else s) s

/-- The storage level of poison in `n` bytes that are read through a slice (R363): 3 where the slice holds the line, else that
of the memory which the miss goes to. -/
def State.slicePoison? (s : State) (cl pa n : Nat) : Option Nat :=
  (granules 32 pa n).findSome? fun g =>
    match tblFind (s.slice cl) (g / 4) with
    | some l => if l.bad.contains (g % 4) then some 3 else none
    | none => s.memPoison? (32 * g) 1

/-- Bytes of one line written in a slice; `dirty` marks them, or unmarks them when they are written at
the memory-side cache as well (R109). -/
def State.lineWrite (s : State) (cl pa : Nat) (bs : List Byte) (dirty : Bool) : State :=
  match tblFind (s.slice cl) (pa / 128) with
  | none => s
  | some l =>
    let o := pa % 128
    let mark := dirtyBits o bs.length
    let d := (upFrom o bs.length).zip bs
    s.setSlice cl (tblInsert (s.slice cl) (pa / 128)
      { l with
        data := d.foldl (fun t x => tblSet 0#8 t x.1 x.2) l.data
        dirty := if dirty then l.dirty ||| mark else l.dirty &&& ~~~mark
        bad := clearPoison 32 l.bad o bs.length })

/-- One 4-bit element of a line written in a slice, and no other one (R120). -/
def State.lineNibble (s : State) (cl pa : Nat) (high : Bool) (code : BitVec 4) (dirty : Bool) : State :=
  match tblFind (s.slice cl) (pa / 128) with
  | none => s
  | some l =>
    let o := pa % 128
    let mark : BitVec 256 := 1#256 <<< (2 * o + bit high)
    s.setSlice cl (tblInsert (s.slice cl) (pa / 128)
      { l with data := tblSet 0#8 l.data o (BitVec.ofNat 8 (withNibble high code (tblGet 0#8 l.data o).toNat))
               dirty := if dirty then l.dirty ||| mark else l.dirty &&& ~~~mark })

/-- Bytes cut at line boundaries, with their addresses. -/
def byLine (pa : Nat) (bs : List Byte) : List (Nat × List Byte) :=
  (granules 128 pa bs.length).map fun l =>
    let a := max pa (128 * l)
    (a, (bs.drop (a - pa)).take (128 * l + 128 - a))

/-- A write performed in a slice: the line is written and dirty (R109). DESIGN CHOICE: one that misses fills the line first, as
a load does; the manual says of a store only that the line is dirty then. -/
def State.sliceWrite (s : State) (cl pa : Nat) (bs : List Byte) : State :=
  if isHbm pa then
    (byLine pa bs).foldl (fun s x => (s.fillLine cl (x.1 / 128)).lineWrite cl x.1 x.2 true) s
  else s

/-- A strong write at `.stk` or wider: performed at the memory-side cache, and the line updated if
present, without marking it dirty (R109). -/
def State.throughWrite (s : State) (cl pa : Nat) (bs : List Byte) : State :=
  (byLine pa bs).foldl (fun s x => s.lineWrite cl x.1 x.2 false) (s.mscWrite pa bs)

/-- Before an engine access: dirty bytes of the issuing cluster's slice are written back, and for a
write the line is invalidated (R109, R134). -/
def State.engineByte (s : State) (cl pa : Nat) : Byte :=
  match tblFind (s.slice cl) (pa / 128) with
  | some l => l.over (pa % 128) (s.mscByte pa)
  | none => s.mscByte pa
/-- Bytes an engine reads (R134). -/
def State.engineRead (s : State) (cl pa n : Nat) : List Byte := (upFrom pa n).map (s.engineByte cl)
/-- Bytes an engine writes (R134). -/
def State.engineWrite (s : State) (cl pa : Nat) (bs : List Byte) : State :=
  ((granules 128 pa bs.length).foldl (fun s l => s.dropLine cl l) s).mscWrite pa bs
/-- The storage level of poison in what an engine reads (R363): 3 in dirty bytes of the slice. -/
def State.enginePoison? (s : State) (cl pa n : Nat) : Option Nat :=
  (upFrom pa n).findSome? fun a =>
    match tblFind (s.slice cl) (a / 128) with
    | some l => if l.byteDirty (a % 128) then (if l.bad.contains (a % 128 / 32) then some 3 else none) else s.memPoison? a 1
    | none => s.memPoison? a 1

/-! ### Scratchpads and accumulators -/

/-- The bytes of a scratchpad (R104). -/
def scratchBytes : Nat := 393216
/-- A byte of a scratchpad. -/
def Core.scratchByte (c : Core) (o : Nat) : Byte := tblGet 0#8 c.scratch o
/-- Bytes of a scratchpad. -/
def Core.scratchRead (c : Core) (o n : Nat) : List Byte := (upFrom o n).map c.scratchByte
/-- A scratchpad with bytes written; a granule of 8 bytes written whole loses its poison (R364). -/
def Core.scratchWrite (c : Core) (o : Nat) (bs : List Byte) : Core :=
  { c with scratch := ((upFrom o bs.length).zip bs).foldl (fun t x => tblSet 0#8 t x.1 x.2) c.scratch
           scratchBad := clearPoison 8 c.scratchBad o bs.length }
/-- A granule of the bytes is poisoned. -/
def Core.scratchPoisoned (c : Core) (o n : Nat) : Bool := (granules 8 o n).any c.scratchBad.contains
/-- The waits on barrier objects after a change of `n` bytes at `o` (R237): a lane whose object has left
the parity it waits on is released. -/
def Frag.objectChange (f : Frag) (passed : Nat → Bool → Bool) (core o n : Nat) : Frag :=
  match f.wait with
  | .object items sc =>
    { f with wait := .object (items.filter fun i =>
        !(i.2.1 == core && decide (i.2.2.1 < o + n) && decide (o < i.2.2.1 + 8) && passed i.2.2.1 i.2.2.2)) sc }
  | _ => f

/-- The fragments of a group changed. -/
def Group.mapFrags (g : Group) (k : Frag → Frag) : Group := { g with frags := g.frags.map k }

/-- Every fragment of the cores and the tenders changed. -/
def State.mapFrags (s : State) (k : Frag → Frag) : State :=
  { s with
    cores := s.cores.map fun x =>
      (x.1, { x.2 with block := x.2.block.map fun b => { b with groups := b.groups.map fun g => g.mapFrags k } })
    ejected := s.ejected.map fun e => { e with grp := e.grp.mapFrags k } }

/-- The state with scratchpad bytes written, and the waits on barrier objects tested (R237). -/
def State.scratchWrite (s : State) (core o : Nat) (bs : List Byte) : State :=
  let s := s.setCore core ((s.core core).scratchWrite o bs)
  let passed (off : Nat) (parity : Bool) : Bool :=
    testBit (leNat ((s.core core).scratchRead off 8)) 48 != parity
  s.mapFrags fun f => f.objectChange passed core o bs.length
/-- The outstanding writers of a line; the line is present when there are none (R104). -/
def Core.lineWriters (c : Core) (line : Nat) : Nat := tblGet 0 c.writers line
/-- The first absent line that `n` bytes at `o` touch. -/
def Core.absentLine (c : Core) (o n : Nat) : Option Nat := (granules 128 o n).find? fun l => c.lineWriters l != 0

/-- An accumulator word (R107). -/
def Core.accWord (c : Core) (i : Nat) : W32 := tblGet 0#32 c.acc i
/-- The core with an accumulator word written; poison covers two words (R362). -/
def Core.setAcc (c : Core) (i : Nat) (x : W32) : Core := { c with acc := tblSet 0#32 c.acc i x }
/-- The index of element (i, j) of a tile. -/
def accIndex (tile i j : Nat) : Nat := 4096 * tile + 32 * i + j

/-! ### The core window -/

/-- The group and group lane of a hardware lane (R31). -/
def groupLane (width h l : Nat) : Nat × Nat :=
  if width == 16 then (2 * h + l / 16, l % 16) else if width == 64 then (h / 2, 32 * (h % 2) + l) else (h, l)

/-- A register of the register view, if it is readable there (R107). -/
def State.viewReg? (s : State) (core h i l : Nat) : Option W32 :=
  match s.block? core with
  | none => none
  | some b =>
    if b.st == .suspended || decide (b.warps.length ≤ h) || decide ((b.warp h).g ≤ i) then none
    else
      let (gi, ln) := groupLane b.kern.w h l
      (b.groups.find? fun g => g.index == gi).map fun g => (g.lane ln).vreg i

/-- The state with a register of the view written; an unreadable one ignores the write (R107). -/
def State.setViewReg (s : State) (core h i l : Nat) (x : W32) : State :=
  match s.block? core, s.viewReg? core h i l with
  | some b, some _ =>
    let (gi, ln) := groupLane b.kern.w h l
    s.setBlock core { b with groups := b.groups.map fun g =>
      if g.index == gi then g.setLane ln ((g.lane ln).setVreg i x) else g }
  | _, _ => s

/-- The packed FMT of a record or an image: bit 7 and bits [5:0] (R62, R65). -/
def fmt7 (f : W32) : Nat := bitField f.toNat 7 1 * 64 + f.toNat % 64
/-- FMT from its packed form. -/
def ofFmt7 (x : Nat) : W32 := BitVec.ofNat 32 (x / 64 % 2 * 128 + x % 64)

/-- The record of a spilled fragment (R62). -/
def spillRecord (f : Frag) (mask : Nat) : Nat :=
  f.pc / 16 * 2 ^ 112 + f.rst.pc / 16 * 2 ^ 96 + f.rst.sid * 2 ^ 80 + f.depth * 2 ^ 75 +
    (match f.carried with
     | some j => 2 ^ 74 + j * 2 ^ 71
     | none => 0) +
    fmt7 f.fmt * 2 ^ 64 + fmt7 f.rst.fmt * 2 ^ 57 +
    (match f.wait with
     | .rejoin _ => 2 ^ 56
     | _ => 0) + mask % 2 ^ 32

/-- The hardware-lane mask of a fragment within warp `h`. -/
def hwMask (width h : Nat) (f : Frag) : Nat :=
  if width == 16 then f.mask.toNat
  else if width == 64 then (if h % 2 == 0 then f.mask.toNat % 2 ^ 32 else f.mask.toNat / 2 ^ 32)
  else f.mask.toNat

/-- Slot `i` of the context area of warp `h` (R62), if a spilled fragment is in it. -/
def Block.slot? (b : Block) (h i : Nat) : Option Nat :=
  let w := b.kern.w
  let holds (g : Group) : Option Nat :=
    if (warpsOf w g.index).contains h then
      (g.frags.find? fun f => f.slot == .spilled i).map fun f =>
        if w == 64 && h % 2 == 1 then hwMask w h f
        else if w == 16 then spillRecord f (f.mask.toNat * 2 ^ (16 * (g.index % 2)))
        else spillRecord f (hwMask w h f)
    else none
  b.groups.findSome? holds

/-- A scratchpad byte as the physical map shows it: the records of spilled fragments stand in the
context areas (R62, R107). -/
def State.shownScratch (s : State) (core o : Nat) : Byte :=
  let c := s.core core
  match c.block with
  | none => c.scratchByte o
  | some b =>
    let h := (scratchBytes - 1 - o) / 512
    let r := o - (scratchBytes - 512 * (h + 1))
    if h < b.warps.length && r < 384 then
      match b.slot? h (r / 16) with
      | some rec => BitVec.ofNat 8 (rec / 2 ^ (8 * (r % 16)))
      | none => c.scratchByte o
    else c.scratchByte o

/-- An offset of the scratchpad lies in a context area of the resident block (R62). -/
def State.inContextArea (s : State) (core o : Nat) : Bool :=
  match s.block? core with
  | none => false
  | some b => decide (scratchBytes - 512 * b.warps.length ≤ o)

/-- A byte read through a core window; reserved offsets read as zero (R106, R107). -/
def State.windowByte (s : State) (core o : Nat) : Byte :=
  if o < 0x200000 then
    let x := (s.viewReg? core (o / 0x8000) (o / 0x80 % 256) (o / 4 % 32)).getD 0#32
    x.extractLsb' (8 * (o % 4)) 8
  else if o < 0x260000 then s.shownScratch core (o - 0x200000)
  else if 0x280000 ≤ o && o < 0x2A0000 then
    ((s.core core).accWord ((o - 0x280000) / 4)).extractLsb' (8 * (o % 4)) 8
  else 0#8

/-- Byte `k` of a word replaced. -/
def setByte (x : W32) (k : Nat) (b : Byte) : W32 := BitVec.ofNat 32 (setElement x.toNat 8 k b.toNat)

/-- A byte written through a core window (R106, R107). -/
def State.windowWriteByte (s : State) (core o : Nat) (b : Byte) : State :=
  if o < 0x200000 then
    let (h, i, l) := (o / 0x8000, o / 0x80 % 256, o / 4 % 32)
    match s.viewReg? core h i l with
    | some x => s.setViewReg core h i l (setByte x (o % 4) b)
    | none => s
  else if o < 0x260000 then
    if s.inContextArea core (o - 0x200000) then s else s.scratchWrite core (o - 0x200000) [b]
  else if 0x280000 ≤ o && o < 0x2A0000 then
    let c := s.core core
    let i := (o - 0x280000) / 4
    s.setCore core (c.setAcc i (setByte (c.accWord i) (o % 4) b))
  else s

/-- A byte of a core window is poisoned; what reads as zero is not (R107). -/
def State.windowPoisoned (s : State) (core o : Nat) : Bool :=
  if o < 0x200000 then
    match s.block? core with
    | none => false
    | some b =>
      let (gi, ln) := groupLane b.kern.w (o / 0x8000) (o / 4 % 32)
      match b.groups.find? fun g => g.index == gi with
      | some g => (s.viewReg? core (o / 0x8000) (o / 0x80 % 256) (o / 4 % 32)).isSome && (g.lane ln).bad.contains (o / 0x80 % 256)
      | none => false
  else if o < 0x260000 then (s.core core).scratchPoisoned (o - 0x200000) 1
  else if 0x280000 ≤ o && o < 0x2A0000 then (s.core core).accBad.contains ((o - 0x280000) / 8)
  else false

/-- Poison marks of a window after a write of `n` bytes at `o` that carried poison or not (R364); what ignores the write gets
none (R107). -/
def State.windowPoison (s : State) (core o n : Nat) (poisoned : Bool) : State :=
  let c := s.core core
  if o < 0x200000 then
    if poisoned then
      match s.block? core with
      | none => s
      | some b =>
        let put (b : Block) (w : Nat) : Block :=
          let (gi, ln) := groupLane b.kern.w (w / 0x2000) (w % 32)
          let mark (t : Thread) : Thread := { t with bad := setInsert t.bad (w / 0x20 % 256) }
          if (s.viewReg? core (w / 0x2000) (w / 0x20 % 256) (w % 32)).isNone then b
          else { b with groups := b.groups.map fun g => if g.index == gi then g.setLane ln (mark (g.lane ln)) else g }
        s.setBlock core ((granules 4 o n).foldl put b)
    else s
  else if o < 0x260000 then
    if poisoned then s.setCore core { c with scratchBad := (granules 8 (o - 0x200000) n).foldl setInsert c.scratchBad }
    else s
  else if 0x280000 ≤ o && o < 0x2A0000 then
    let a := o - 0x280000
    if poisoned then s.setCore core { c with accBad := (granules 8 a n).foldl setInsert c.accBad }
    else s.setCore core { c with accBad := clearPoison 8 c.accBad a n }
  else s

/-! ### Atomic operations -/

/-- A floating sum of two elements (R229): RNE, the NaN rule with NANC = 0. -/
def floatAdd (t : Ty) (a b : Nat) : Nat :=
  (deliver t ⟨.rne, false, false, false⟩ (sumVals false [unpack t a, unpack t b])).bits

/-- A floating minimum or maximum of two elements (R97, R229). -/
def floatMinMax (t : Ty) (isMax : Bool) (a b : Nat) : Nat :=
  (deliver t ⟨.rne, false, false, false⟩ (minMaxVals isMax (unpack t a) (unpack t b))).bits

/-- The new value of an atomic operation (R229), from the old value, B and C. -/
def atomicOp (aop : Nat) (t : Ty) (o b c : Nat) : Nat :=
  let w := t.width
  let n := tyBits t
  match aop with
  | 0 =>
    if t.isFloat then
      packElements (elemWidth t) (((elements n (elemWidth t) o).zip (elements n (elemWidth t) b)).map fun x =>
        floatAdd (if t == .f32x2 then .f32 else t) x.1 x.2)
    else (o + b) % 2 ^ w
  | 1 | 2 =>
    let isMax := aop == 2
    if t.isFloat then floatMinMax t isMax o b
    else
      let x := readInt t.isSignedInt w o
      let y := readInt t.isSignedInt w b
      wrap w (if isMax then max x y else min x y)
  | 3 => o &&& b
  | 4 => o ||| b
  | 5 => o ^^^ b
  | 6 => b
  | 7 => if o == b then c else o
  | 8 => if b ≤ o then 0 else o + 1
  | 9 => if o == 0 || decide (b < o) then b else o - 1
  | _ => o

/-- The bytes an atomic of the type acts on (R229): packed 16-bit types act on a register. -/
def atomicBytes (t : Ty) : Nat := if t.isPair then 8 else 4

/-- The bytes an item touches. -/
def SItem.size (i : SItem) : Nat :=
  match i.act with
  | .bytes bs => bs.length
  | .nibble _ _ => 1
  | .atomic _ t _ => atomicBytes t

end Sys2Proof.Machine
end

