-- ==== Sys2Proof/Machine/Records.lean ====
section
/-! DEFINITION. Messages to the host (R310, R311, R390) and fault records (R322, R326 to R328, R353,
R376). -/

namespace Sys2Proof.Machine

/-! ### Messages -/

/-- A die's port is up, or that of its x+ neighbour, through which it then sends while a route leads there (R371). -/
def State.portUp (s : State) (d : Nat) : Bool :=
  let right := d / 4 * 4 + (d + 1) % 4
  (s.die d).up.getLsbD 4 || ((s.route d right).isSome && (s.die right).up.getLsbD 4)

/-- Where messages go (R310, R311): the response endpoint, and before it is loaded the endpoint that delivered the record. -/
def State.endpoint (s : State) : List Byte := if s.respep.isEmpty then s.bootFrom else s.respep

/-- A message of the front end: delivered, or retained while no port carries it; beyond 1,024 retained
messages the oldest ACK is dropped and counted (R390). -/
def State.sendMsg (s : State) (f : Nat) (m : List Byte) : State :=
  if s.portUp f then { s with outbox := s.outbox ++ [(s.endpoint, m)] }
  else
    let fe := s.fe f
    let kept := fe.retained ++ [(s.endpoint, m)]
    let isAck (x : List Byte × List Byte) : Bool := x.2.getD 0 0#8 == 1#8
    if 1024 < kept.length && kept.any isAck then
      s.setFe f { fe with retained := kept.eraseIdx (kept.findIdx isAck), lost := min (fe.lost + 1) 0xFFFFFFFF }
    else s.setFe f { fe with retained := kept }

/-- The eight common bytes of a message (R311). -/
def msgHead (mtype vd flags status f : Nat) : List Byte :=
  [BitVec.ofNat 8 mtype, BitVec.ofNat 8 vd, BitVec.ofNat 8 flags, BitVec.ofNat 8 status, BitVec.ofNat 8 f,
   0#8, 0#8, 0#8]

/-- The fields of a command header (R306). -/
def hdrField (h : BitVec 512) (lo n : Nat) : Nat := (h.extractLsb' lo n).toNat
/-- VD of a header. -/
def hdrVd (h : BitVec 512) : Nat := hdrField h 0 8
/-- QUEUE of a header. -/
def hdrQueue (h : BitVec 512) : Nat := hdrField h 18 6
/-- KIND of a header. -/
def hdrKind (h : BitVec 512) : Nat := hdrField h 24 8
/-- SEQ of a header. -/
def hdrSeq (h : BitVec 512) : Nat := hdrField h 32 32

/-- The ACK of a record (R310, R311). -/
def State.ack (s : State) (f : Nat) (h : BitVec 512) (status : Nat) : State :=
  s.sendMsg f (msgHead 1 (hdrVd h) (hdrQueue h) status f ++ leBytes 4 (hdrSeq h) ++ leBytes 1 (hdrKind h) ++ leBytes 3 0)

/-- The DONE of an entry or of a command (R310, R311). -/
def State.done (s : State) (f : Nat) (h : BitVec 512) (tag status : Nat) : State :=
  s.sendMsg f (msgHead 2 (hdrVd h) (hdrQueue h) status f ++ leBytes 4 tag ++ leBytes 1 (hdrKind h) ++ leBytes 3 0)

/-- The code of an access kind in a PAGEREQ (R311). -/
def accessCode : Access → Nat
  | .read => 0 | .write => 1 | .fetch => 2 | .atomic => 3
/-- The code of a requester in a PAGEREQ (R311). -/
def requesterCode : Requester → Nat
  | .thread => 0 | .engine => 1 | .quay => 2

/-- The PAGEREQ of a failing walk (R310, R311). -/
def State.pageReqMsg (s : State) (f v id : Nat) (va : W64) (acc : Access) (r : Requester) : State :=
  s.sendMsg f (msgHead 3 v 0 0 f ++ leBytes 4 id ++ leBytes 2 (s.vd f v).gen.toNat ++ leBytes 1 (accessCode acc) ++
    leBytes 1 (requesterCode r) ++ leBytes 8 va.toNat ++ leBytes 8 0)

/-! ### Fault records -/

/-- The cause codes (R322, R353, R376). -/
inductive Cause where
  | illop | capvio | regbnd | priv | enguse | ejvio | lsval | brumix | badtgt | strseq | depth | taguse
  | misaln | sbovf | swtrap | brk | rjdead | rjtmo | noplace | trans | persist | fraglost | ejlost
  | pagef | pgfail | spaddr | homelost | tldtmo | poison | poisonp | cmdbad | mmabad | engfail | guardopen
  | pchkmis | colllost | linkdown | wdog | feerr | vdreset
deriving DecidableEq, Repr

/-- The code of a cause and its FPOL group. -/
def Cause.code : Cause → Nat × Nat
  | .illop => (0x01, 0) | .capvio => (0x02, 0) | .regbnd => (0x03, 0) | .priv => (0x04, 0)
  | .enguse => (0x05, 0) | .ejvio => (0x06, 0) | .lsval => (0x07, 0) | .brumix => (0x08, 1)
  | .badtgt => (0x09, 1) | .strseq => (0x0A, 1) | .depth => (0x0B, 1) | .taguse => (0x0C, 2)
  | .misaln => (0x0D, 2) | .sbovf => (0x0E, 2) | .swtrap => (0x10, 3) | .brk => (0x11, 4)
  | .rjdead => (0x12, 5) | .rjtmo => (0x13, 6) | .noplace => (0x14, 6) | .trans => (0x15, 7)
  | .persist => (0x16, 8) | .fraglost => (0x17, 8) | .ejlost => (0x18, 8) | .pagef => (0x19, 9)
  | .pgfail => (0x1A, 9) | .spaddr => (0x1B, 10) | .homelost => (0x1C, 10) | .tldtmo => (0x1D, 10)
  | .poison => (0x1E, 11) | .poisonp => (0x1F, 11) | .cmdbad => (0x20, 12) | .mmabad => (0x21, 12)
  | .engfail => (0x22, 12) | .guardopen => (0x23, 12) | .pchkmis => (0x24, 12) | .colllost => (0x25, 13)
  | .linkdown => (0x26, 13) | .wdog => (0x27, 14) | .feerr => (0x28, 14) | .vdreset => (0x29, 15)

/-- The fields of a fault record that the poster gives (R326); ACT and LOST come at posting, and TIME where the poster
gives none. -/
structure Rec where
  cause : Cause
  time : Option Nat := none
  detail : Nat := 0
  survp : Nat := 0
  addr : Nat := 0
  mask : Nat := 0
  handle : Nat := 0
  fpc : Nat := 0
  rstpc : Nat := 0
  sid : Nat := 0
  vd : Nat := 0xFF
  part : Nat := 0
  lclu : Nat := 0
  lcore : Nat := 0
  quad : Nat := 0
  warp : Nat := 0
  ej : Bool := false
  lane : Nat := 0
  tag : Option Nat := none
  ak : Nat := 0
  stop : Bool := false
  rjds : Bool := false
  depth : Nat := 0
  novd : Bool := false
  block : Nat := 0
  qtag : Nat := 0
  queue : Nat := 0
deriving DecidableEq, Repr

/-- The word of a record (R326) with its TIME and ACT. -/
def Rec.word (r : Rec) (time act : Nat) : BitVec 512 :=
  let f (v lo n : Nat) : Nat := v % 2 ^ n * 2 ^ lo
  BitVec.ofNat 512 (f time 448 64 + f r.survp 384 64 + f r.addr 320 64 + f r.mask 256 64 + f r.handle 224 32 +
    f (r.fpc / 16) 208 16 + f (r.rstpc / 16) 192 16 + f r.sid 176 16 + f r.vd 168 8 + f r.part 162 6 +
    f (r.lclu / 2) 157 5 + f (r.lclu % 2) 156 1 + f r.lcore 151 5 + f r.quad 149 2 + f r.warp 143 6 +
    f (bit r.ej) 142 1 + f r.lane 136 6 + f (r.tag.getD 0) 132 4 + f (bit r.tag.isSome) 131 1 + f r.ak 128 3 +
    f r.cause.code.1 120 8 + f r.detail 112 8 + f act 110 2 + f (bit r.stop) 109 1 + f (bit r.rjds) 108 1 +
    f r.depth 103 5 + f (bit r.novd) 101 1 + f r.block 64 32 + f r.qtag 32 32 + f r.queue 26 6)

/-- The action of a group in FPOL (R327); 3 is read as 0. -/
def Part.action (p : Part) (group : Nat) : Nat :=
  let a := bitField p.fpol.toNat (2 * group) 2
  if a == 3 then 0 else a

/-- The records that the ring holds (R327). -/
def Part.ringSize (p : Part) : Nat := 2 ^ (min p.sz 8 + 4)

/-- The oldest undelivered record delivered to a halted harbourmaster (R328): its words to S0 to S15,
its slot freed, the harbourmaster on at the next instruction. -/
def State.deliverEvent (s : State) (p : Nat) : State :=
  let part := s.part p
  match tblFind s.supers p, part.ring with
  | some h, r :: rest =>
    if h.halted && h.run && !h.trapped then
      let s := s.setPart p { part with ring := rest }
      let grp := (List.range 16).foldl (fun g w => g.setSreg w (r.extractLsb' (32 * w) 32)) h.grp
      let grp := { grp with frags := grp.frags.map fun f => { f with pc := f.pc + 16, expect := none, counted := false, rerun := false } }
      { s with supers := tblInsert s.supers p { h with halted := false, grp := grp } }
    else s
  | _, _ => s

/-- A record written to the next slot of the ring (R327), carrying LOST when records were dropped. -/
def State.writeRecord (s : State) (p : Nat) (r : BitVec 512) : State :=
  let part := s.part p
  let r := if part.lost then r ||| (1#512 <<< 102) else r
  let a := part.frbase + 64 * (part.wcnt % part.ringSize)
  let s := s.setPart p { part with wcnt := (part.wcnt + 1) % 2 ^ 16, ring := part.ring ++ [r], lost := false }
  (s.mscWrite a (leBytes 64 r.toNat)).deliverEvent p

/-- The codes of the causes of class Stop, but RJDEAD (R322, R353). -/
def stopCodes : List (BitVec 8) :=
  [0x01, 0x02, 0x03, 0x04, 0x05, 0x06, 0x07, 0x08, 0x09, 0x0A, 0x0B, 0x0C, 0x0D, 0x0E, 0x10, 0x11, 0x16, 0x17, 0x18, 0x1A, 0x1B,
   0x1C, 0x1D, 0x1E]

/-- A record is of class Stop or Wait (R322): by its cause, a harbourmaster's with STOP = 0 (R350) among them, and by STOP
where RJDEAD stops. -/
def recStopsOrWaits (r : BitVec 512) : Bool :=
  r.getLsbD 109 || (r.extractLsb' 120 8) == 0x19#8 || stopCodes.contains (r.extractLsb' 120 8)

/-- The classes of R322 that matter to posting: Stop and Wait records are always posted, Rerun and Info
ones when their group's action is not 0. -/
inductive RecClass where
  | always | ifArmed
deriving DecidableEq, Repr

/-- The Info and Rerun records held for the ring of a partition. -/
def Part.heldLow (p : Part) : Nat := (p.heldRecs.filter fun x => !recStopsOrWaits x).length

/-- A record posted to a partition's ring (R322, R327): written, held while the next slot is occupied, or dropped when the
die of its front end holds 64 Info and Rerun records already. Without another, its TIME is that of the front end's die.
DESIGN CHOICE: a VDRESET that is held for room keeps the time at which it was posted, though the reset runs until it is written
(log entry 96). -/
def State.post (s : State) (p : Nat) (cls : RecClass) (r : Rec) : State :=
  let part := s.part p
  let act := part.action r.cause.code.2
  if cls == .ifArmed && act == 0 then s
  else
    let w := r.word (r.time.getD (s.dieTime (p / 2))) act
    if part.heldRecs.isEmpty && part.ring.length < part.ringSize then s.writeRecord p w
    else if cls == .always || (s.part (p / 2 * 2)).heldLow + (s.part (p / 2 * 2 + 1)).heldLow < 64 then
      s.setPart p { part with heldRecs := part.heldRecs ++ [w] }
    else s.setPart p { part with lost := true }

/-- The handles of the stopped fragments of a block. -/
def Block.handles (b : Block) : List Nat := b.groups.flatMap fun g => g.frags.filterMap fun f => f.stop.map (·.handle)

/-- The handles of every stopped fragment: on cores, on tenders, and in saved gangs. -/
def State.handles (s : State) : List Nat :=
  s.cores.flatMap (fun x => (x.2.block.map Block.handles).getD []) ++
    s.ejected.flatMap (fun e => e.grp.frags.filterMap fun f => f.stop.map (·.handle)) ++
    s.parts.flatMap fun p => p.2.saved.flatMap fun g => g.blocks.flatMap Block.handles

/-- The handle that follows `h` of 32 bits, nonzero and not in use. -/
def nextHandle (used : List Nat) (h : Nat) : Nat :=
  (((List.range (used.length + 1)).map fun i => (h + i) % (2 ^ 32 - 1) + 1).find? fun x => !used.contains x).getD 1

/-- A handle for a stopped fragment: nonzero, unique among the partition's stopped ones (R326). -/
def State.newHandle (s : State) (p : Nat) : Nat × State :=
  let part := s.part p
  let h := nextHandle s.handles part.handle
  (h, s.setPart p { part with handle := h })

end Sys2Proof.Machine
end

