-- ==== Sys2Proof/Machine/Translate.lean ====
section
/-! DEFINITION. Translation: the walk of R112 and R113, the TLBs of R114, page requests (R356) and the
capture hold of a page (R116). -/

namespace Sys2Proof.Machine

/-- The levels of a walk with the lowest index bit, the index bits and the bytes an entry maps (R112). -/
def walkLevels : List (Nat × Nat × Nat) := [(0, 48, 9), (1, 39, 9), (2, 30, 9), (3, 21, 9), (4, 16, 5)]

/-- The page or the region that a walk ended at covers an address (R114). -/
def WalkRes.covers (r : WalkRes) (va : Nat) : Bool :=
  match r with
  | .leaf l => decide (l.base ≤ va) && decide (va < l.base + l.size)
  | .fail _ _ base size => decide (base ≤ va) && decide (va < base + size)

/-- Bit 63, V, and its neighbours in an entry (R113). -/
def pteV (x : Nat) : Bool := testBit x 63
/-- L: the entry is a leaf. -/
def pteL (x : Nat) : Bool := testBit x 62
/-- WR: writes are permitted. -/
def pteWr (x : Nat) : Bool := testBit x 61
/-- X: fetches are permitted. -/
def pteX (x : Nat) : Bool := testBit x 60
/-- H: only the harbourmaster. -/
def pteH (x : Nat) : Bool := testBit x 59
/-- GEN: the capture generation. -/
def pteGen (x : Nat) : Bool := testBit x 58
/-- C: a page of the capture set. -/
def pteC (x : Nat) : Bool := testBit x 57
/-- D: written. -/
def pteD (x : Nat) : Bool := testBit x 55
/-- The physical address of the next table or of the page. -/
def ptePa (x : Nat) : Nat := bitField x 8 40 * 256

/-- An entry is malformed at a level that maps `size` bytes: L wrong for the level, a nonzero reserved
bit, or page bits below the page size (R356, DETAIL 4). -/
def pteMalformed (level size x : Nat) : Bool :=
  (pteL x && decide (level < 2)) || (!pteL x && level == 4) || bitField x 48 7 != 0 || bitField x 0 8 != 0 ||
    (pteL x && ptePa x % size != 0)

/-- The walk down the levels left, from a table (R112, R356). -/
def State.walkFrom (s : State) (va : Nat) : List (Nat × Nat × Nat) → Nat → WalkRes
  | [], _ => .fail 4 0 va 1
  | (lvl, sh, n) :: rest, table =>
    let a := table + 8 * bitField va sh n
    let x := leNat (s.mscRead a 8)
    let size := 2 ^ sh
    let base := va / size * size
    if !pteV x then .fail lvl 0 base size
    else if pteMalformed lvl size x then .fail lvl 4 base size
    else if pteL x then .leaf ⟨a, x, base, size⟩
    else s.walkFrom va rest (ptePa x)

/-- The root table of a space (R112, R293, R377). -/
def State.root (s : State) (space : Nat) : Nat :=
  if 0x10000 ≤ space then
    match tblFind s.supers (space - 0x10000) with
    | some h => h.root
    | none => 0
  else (tblGet Vd.empty s.vds space).root

/-- The partition whose colours bind the walks of a space. -/
def State.spacePart (s : State) (space : Nat) : Nat :=
  if 0x10000 ≤ space then space - 0x10000 else (tblGet Vd.empty s.vds space).part.toNat

/-- An access is a write for R113 and R356. -/
def isWrite (a : Access) : Bool := a == .write || a == .atomic

/-- The walk from a root table, whatever the access (R112, R356): the address range, then the levels. -/
def State.walkDown (s : State) (root : Nat) (va : W64) : WalkRes :=
  let v := va.toNat
  if v / 2 ^ 57 != 0 then .fail 0 0 (v / 2 ^ 48 * 2 ^ 48) (2 ^ 48) else s.walkFrom v walkLevels root

/-- What an access meets at the end of a walk (R356): at a leaf the colour rule, H, and WR or X. -/
def State.judge (s : State) (space : Nat) (acc : Access) (super : Bool) (r : WalkRes) : WalkRes :=
  match r with
  | .fail l d b z => .fail l d b z
  | .leaf l =>
    let lvl := if l.size == 2 ^ 30 then 2 else if l.size == 2 ^ 21 then 3 else 4
    if l.size == 2 ^ 30 && (s.part (s.spacePart space)).colours != 0xFFFF#16 then .fail lvl 5 l.base l.size
    else if pteH l.val && !super then .fail lvl 3 l.base l.size
    else if isWrite acc && !pteWr l.val then .fail lvl 1 l.base l.size
    else if acc == .fetch && !pteX l.val then .fail lvl 2 l.base l.size
    else .leaf l

/-- The whole walk for an access from a root table (R112, R356). -/
def State.walkAt (s : State) (root space : Nat) (va : W64) (acc : Access) (super : Bool) : WalkRes :=
  s.judge space acc super (s.walkDown root va)

/-- The walk for an access from the root table of its space. -/
def State.walk (s : State) (space : Nat) (va : W64) (acc : Access) (super : Bool) : WalkRes :=
  s.walkAt (s.root space) space va acc super

/-- The entries that a walk reads on its way down. -/
def State.walkReads (s : State) (va : Nat) : List (Nat × Nat × Nat) → Nat → List Nat
  | [], _ => []
  | (lvl, sh, n) :: rest, table =>
    let a := table + 8 * bitField va sh n
    let x := leNat (s.mscRead a 8)
    if !pteV x || pteMalformed lvl (2 ^ sh) x || pteL x then [a] else a :: s.walkReads va rest (ptePa x)

/-- The accesses of a walk to lines of the memory-side caches, counted (R111). -/
def State.touchWalk (s : State) (root space : Nat) (va : W64) : State :=
  if va.toNat / 2 ^ 57 != 0 then s
  else (s.walkReads va.toNat walkLevels root).foldl (fun (s : State) a => s.touch (s.spacePart space) a) s

/-- The generation of the device of a space (R271, R379); a harbourmaster's has none. -/
def State.spaceGen (s : State) (space : Nat) : BitVec 16 :=
  if 0x10000 ≤ space then 0#16 else (tblGet Vd.empty s.vds space).gen

/-- A and, for a write, D set in a leaf of a space by the device (R113), a write at the memory-side cache (R111). -/
def State.markLeaf (s : State) (space pte : Nat) (a d : Bool) : State :=
  let x := leNat (s.mscRead pte 8)
  let y := x ||| (if a then 2 ^ 56 else 0) ||| (if d then 2 ^ 55 else 0)
  if y == x then s else (s.touch (s.spacePart space) pte).mscWrite pte (leBytes 8 y)

/-- The TLB entry of a leaf (R114). -/
def State.tlbOf (s : State) (space : Nat) (l : Leaf) (d : Bool) : TlbEntry where
  space := space
  vdGen := s.spaceGen space
  base := l.base
  size := l.size
  pa := ptePa l.val
  wr := pteWr l.val
  x := pteX l.val
  h := pteH l.val
  gen := pteGen l.val
  c := pteC l.val
  d := d || pteD l.val
  pte := l.pte

/-- A TLB entry covers an address of a space. -/
def TlbEntry.covers (e : TlbEntry) (space va : Nat) : Bool :=
  e.space == space && decide (e.base ≤ va) && decide (va < e.base + e.size)
/-- A TLB entry permits an access; one that does not is walked again (R114). -/
def TlbEntry.permits (e : TlbEntry) (acc : Access) (super : Bool) : Bool :=
  (super || !e.h) && (!isWrite acc || e.wr) && (acc != .fetch || e.x)
/-- The physical address of an address the entry covers. -/
def TlbEntry.phys (e : TlbEntry) (va : Nat) : Nat := e.pa + (va - e.base)

/-- Two entries translate one page of one space. -/
def TlbEntry.samePage (x e : TlbEntry) : Bool := x.space == e.space && x.base == e.base && x.size == e.size

/-- A first-level TLB with an entry put first; the oldest of its 128 entries leaves when it is full. -/
def tlbPut (t : List TlbEntry) (e : TlbEntry) : List TlbEntry := (e :: t.filter fun x => !x.samePage e).take 128

/-- The set of a cluster TLB that holds an entry (R114). DESIGN CHOICE: the number of its page modulo 1,024. -/
def TlbEntry.set (e : TlbEntry) : Nat := e.base / max 1 e.size % 1024

/-- A cluster TLB with an entry put first; the oldest of the 8 entries of its set leaves when the set is full. -/
def clusterPut (t : List TlbEntry) (e : TlbEntry) : List TlbEntry :=
  let others := t.filter fun x => !x.samePage e
  let keep := (others.filter fun x => x.set == e.set).take 7
  e :: others.filter fun x => x.set != e.set || keep.contains x

/-- The result of a translation: an entry, a walk to wait for, no free walker, or a failure. -/
inductive Xlat where
  | hit (e : TlbEntry)
  | miss (walk : Nat)
  | busy
  | fail (level detail base size : Nat)
deriving DecidableEq, Repr

/-- The walkers that a partition's walks use on a die: 4 of 64 for each of its colours (R111). -/
def Part.walkers (p : Part) : Nat := 4 * ((List.range 16).filter p.colours.getLsbD).length

/-- The walks of a die that run, for a partition or for all. -/
def State.running (s : State) (die : Nat) (mine : Walk → Bool) : Nat :=
  (s.walks.filter fun w => w.found.isSome && dieOf w.core == die && mine w).length

/-- A walker of a die is free for a walk of a partition (R111, R114). -/
def State.walkerFree (s : State) (die p : Nat) : Bool :=
  decide (s.running die (fun _ => true) < 64) && decide (s.running die (fun x => s.spacePart x.space == p) < (s.part p).walkers)

/-- A translation by a walk made at once on a die where a walker is free: for engines, front ends, lanes on tenders and
harbourmasters. A and D are set (R113). -/
def State.xlatNow (s : State) (die space : Nat) (va : W64) (acc : Access) (super : Bool) : Xlat × State :=
  if s.walkerFree die (s.spacePart space) then
    let t := s.touchWalk (s.root space) space va
    match s.walk space va acc super with
    | .fail l d b z => (.fail l d b z, t)
    | .leaf l => (.hit (s.tlbOf space l (isWrite acc)), t.markLeaf space l.pte true (isWrite acc))
  else (.busy, s)

/-- A look at the tables that sets nothing (R113, R226). -/
def State.xlatPeek (s : State) (space : Nat) (va : W64) (acc : Access) (super : Bool) : Option TlbEntry :=
  match s.walk space va acc super with
  | .fail _ _ _ _ => none
  | .leaf l => some (s.tlbOf space l false)

/-- The entry of the TLBs of a core that translates an address for an access: first level, then cluster (R114). -/
def State.tlbHit? (s : State) (c : Ctx) (va : W64) (acc : Access) : Option TlbEntry :=
  let ok (e : TlbEntry) : Bool := e.covers c.space va.toNat && e.vdGen == s.spaceGen c.space && e.permits acc (c.level == .super)
  if va.toNat / 2 ^ 57 != 0 then none
  else match (s.core c.core).tlb.find? ok with
    | some e => some e
    | none => (tblGet [] s.clusterTlb (clusterOf c.core)).find? ok

/-- A translation for an issuer that sets nothing: a hit in the TLBs of its core, else a look at the tables. -/
def State.xlatSee (s : State) (c : Ctx) (va : W64) (acc : Access) : Option TlbEntry :=
  let seen := if c.level == .core then s.tlbHit? c va acc else none
  match seen with
  | some e => some e
  | none => s.xlatPeek c.space va acc (c.level == .super)

/-- The translation of an address for PREF and CCTL (R226, R227): a hit in the TLBs of its core, else a walk made at once where
a walker is free (R111, R114). It sets neither A nor D. -/
def State.xlatLook (s : State) (c : Ctx) (va : W64) : Xlat × State :=
  match (if c.level == .core then s.tlbHit? c va .read else none) with
  | some e => (.hit e, s)
  | none =>
    if s.walkerFree (c.die s) (s.spacePart c.space) then
      let t := s.touchWalk (s.root c.space) c.space va
      match s.walk c.space va .read (c.level == .super) with
      | .fail l d b z => (.fail l d b z, t)
      | .leaf l => (.hit (s.tlbOf c.space l false), t)
    else (.busy, s)

/-- Those translations of several addresses, in order, none of them for an address that has none; or no walker is free for
one. -/
def State.xlatLooks (s : State) (c : Ctx) : List W64 → Option (List (W64 × TlbEntry) × State)
  | [] => some ([], s)
  | va :: rest =>
    match s.xlatLook c va with
    | (.hit e, s) => (s.xlatLooks c rest).map fun r => ((va, e) :: r.1, r.2)
    | (.fail _ _ _ _, s) => s.xlatLooks c rest
    | _ => none

/-- The TLBs of a core with an entry in them: first level and cluster (R114). -/
def State.fillTlb (s : State) (core : Nat) (e : TlbEntry) : State :=
  let c := s.core core
  let s := s.setCore core { c with tlb := tlbPut c.tlb e }
  let cl := clusterOf core
  { s with clusterTlb := tblSet [] s.clusterTlb cl (clusterPut (tblGet [] s.clusterTlb cl) e) }

/-- A waiting walk that a walker is free for begins (R111, R114, R293): it uses the entries as they stand now (R395). -/
def State.beginWalk (s : State) (w : Walk) : State :=
  if w.found.isNone && s.walkerFree (dieOf w.core) (s.spacePart w.space) then
    let root := s.root w.space
    let r := s.walkDown root w.va
    ({ s with walks := s.walks.map fun x => if x.id == w.id then { x with found := some r } else x } : State).touchWalk
      root w.space w.va
  else s

/-- Every waiting walk, in the order of arrival, begins where it can. -/
def State.beginWalks (s : State) : State := s.walks.foldl State.beginWalk s

/-- A walk serves a miss of a space on a die at an address (R114): its page holds the address, and no TLBINV has named it since
(R358). DEDUCED: the page of a walk that
waits for a walker is the one that the tables show. -/
def State.serves (s : State) (w : Walk) (space die : Nat) (va : W64) : Bool :=
  w.space == space && dieOf w.core == die && !w.stale && (w.found.getD (s.walkDown (s.root space) w.va)).covers va.toNat

/-- A walk joined or asked for at a miss (R114): misses to one page of one space from any cluster of a die share it. -/
def State.joinWalk (s : State) (space : Nat) (va : W64) (acc : Access) (core : Nat) : Nat × State :=
  match s.walks.find? fun w => s.serves w space (dieOf core) va with
  | some w => (w.id, s)
  | none =>
    let (id, s) := s.fresh
    let w : Walk := { id := id, space := space, va := va, acc := acc, core := core, found := none, stale := false }
    (id, ({ s with walks := s.walks ++ [w] } : State).beginWalk w)

/-- A translation for a thread on a core, through its TLBs (R114), whose entries keep the D they were filled with; a write
that hits an entry filled with D = 0 sets D in the leaf first (R113). Elsewhere the walk is made at once. -/
def State.xlat (s : State) (c : Ctx) (va : W64) (acc : Access) : Xlat × State :=
  if c.level == .core then
    match s.tlbHit? c va acc with
    | some e =>
      let s := if isWrite acc && !e.d then s.markLeaf c.space e.pte false true else s
      (.hit e, s.fillTlb c.core e)
    | none =>
      let (id, s) := s.joinWalk c.space va acc c.core
      (.miss id, s)
  else s.xlatNow (c.die s) c.space va acc (c.level == .super)

/-- A page request joined or sent (R114, R356). -/
def State.pageRequest (s : State) (f v level detail base size : Nat) (va : W64) (acc : Access)
    (r : Requester) : Nat × State :=
  match s.pageReqs.find? fun q => q.fe == f && q.vd == v && q.level == level && q.detail == detail && q.base == base with
  | some q => (q.id, s)
  | none =>
    let (n, s) := s.fresh
    let id := n + 1
    let s := { s with pageReqs := s.pageReqs ++ [({ id := id, fe := f, vd := v, level := level, detail := detail, base := base, size := size, req := r } : PageReq)] }
    (id, s.pageReqMsg f v id va acc r)

/-- A page is held for capture: C = 1 and GEN differs from GENC while a capture runs (R116). DESIGN CHOICE: with BUSY = 0, when
no capture would end it, no write is held. -/
def State.pageHeld (s : State) (space pte : Nat) : Bool :=
  let v := tblGet Vd.empty s.vds space
  let x := leNat (s.mscRead pte 8)
  decide (space < 0x10000) && v.busy && pteC x && pteGen x != v.genc

/-- The pages of a held write noted: their preservation goes next (R116). -/
def State.wantPages (s : State) (space : Nat) (ptes : List Nat) : State :=
  let new := ((ptes.filter (s.pageHeld space)).map fun p => (space, p)).filter fun x => !s.wanted.contains x
  { s with wanted := s.wanted ++ new.eraseDups }

/-- The home die of an address is lost to the die of an access (R360, R372). -/
def State.homeLost (s : State) (die pa : Nat) : Bool := isHbm pa && s.dieLost die (homeDie pa)

end Sys2Proof.Machine
end

