-- ==== Sys2Proof/Machine/Ops.lean ====
section
/-! DEFINITION. The named operations that meanings share: moving a fragment on, the commit of a strand
(R57), its abort (R58), taking a trap (R323 to R325, R350) and returning from one (R279, R329, R340),
page faults (R356), and the completion of a barrier object (R236). -/

namespace Sys2Proof.Machine

/-! ### Fragments -/

/-- The state with the fragment of an agent changed. -/
def State.mapFrag (s : State) (a : Agent) (k : Frag → Frag) : State :=
  match s.group? (agentSite a) with
  | none => s
  | some g =>
    match g.frag? (agentFid a) with
    | none => s
    | some f => s.setGroup (g.setFrag (k f)) (agentSite a)

/-- The state with the group of an agent changed. -/
def State.mapGroup (s : State) (a : Agent) (k : Group → Group) : State :=
  match s.group? (agentSite a) with
  | none => s
  | some g => s.setGroup (k g) (agentSite a)

/-- A fragment sent to a PC, with what must be fetched there (R331). -/
def Frag.goTo (f : Frag) (pc : Nat) (e : Option Expect) : Frag :=
  { f with pc := pc, expect := e, committed := false, counted := false, rerun := false, wait := .none, half := none }

/-- The fragment of an agent moved past its instruction. -/
def State.advance (s : State) (a : Agent) : State := s.mapFrag a fun f => f.goTo (f.pc + 16) none

/-- The outcome of an instruction that goes on at the next one. -/
def finish (s : State) (c : Ctx) : Out := .next (s.advance c.agent)

/-- The fragment of an agent set waiting (R39). -/
def State.park (s : State) (a : Agent) (w : Wait) : State := s.mapFrag a fun f => { f with wait := w }

/-- A fragment whose wait an event ends: it is ready from now on. -/
def State.wake (s : State) (a : Agent) : State := s.mapFrag a fun f => { f with wait := .none }

/-- A fragment waits; its instruction is issued again when the wait ends. -/
def waiting (s : State) (c : Ctx) (w : Wait) : Out := .next (s.park c.agent w)

/-- The first hardware warp of a context's group. -/
def Ctx.warp (c : Ctx) : Nat := (warpsOf c.g.width c.g.index).headD 0

/-- The block of a context, where it has one. -/
def State.blockOf (s : State) (c : Ctx) : Option Block := if c.level == .super then none else s.block? c.core

/-! ### FIFO store queues -/

/-- The queue that holds the committed entries of an agent's hardware warp (R57, R78). -/
def fifoOf : Agent → Nat → FifoId
  | .frag c _ _, h => .warp c h
  | .ejected c t, _ => .ejected c t
  | .hm p, _ => .hm p

/-- The entries of a FIFO store queue, oldest first. -/
def State.fifo (s : State) : FifoId → List SEntry
  | .warp c h =>
    match s.block? c with
    | some b => (b.warp h).fifo
    | none => []
  | .ejected c t =>
    match s.ejected? c t with
    | some e => e.fifo
    | none => []
  | .hm p =>
    match tblFind s.supers p with
    | some h => h.fifo
    | none => []

/-- The state with the entries of a FIFO store queue replaced. -/
def State.setFifo (s : State) (id : FifoId) (q : List SEntry) : State :=
  match id with
  | .warp c h => s.mapWarp c h fun w => { w with fifo := q }
  | .ejected c t =>
    match s.ejected? c t with
    | some e => s.setEjected c t { e with fifo := q }
    | none => s
  | .hm p =>
    match tblFind s.supers p with
    | some h => { s with supers := tblInsert s.supers p { h with fifo := q } }
    | none => s

/-- The lines of `n` bytes of global memory noted as written by an ejected lane (R79). -/
def State.noteWrote (s : State) (core thread pa n : Nat) : State :=
  match s.ejected? core thread with
  | some e => s.setEjected core thread { e with wrote := (granules 128 pa n).foldl setInsert e.wrote }
  | none => s

/-- An ejected lane frees its context: each line that it wrote is invalidated in the slice of its home cluster (R79). -/
def State.freeContext (s : State) (e : Ejected) : State :=
  (e.wrote.foldl (fun (s : State) line => s.dropLine (clusterOf e.core) line) s).dropEjected e.core e.thread

/-- Accepted tile stores in the order of their arrival (R133). -/
def joinTile (t : TileStore) : List TileStore → List TileStore
  | [] => [t]
  | x :: xs => if t.serial ≤ x.serial then t :: x :: xs else x :: joinTile t xs

/-- The accepted tile stores of a lane that comes back to its group with those of the group. -/
def Group.joinTiles (g e : Group) : Group := { g with tsts := e.tsts.foldl (fun ts t => joinTile t ts) g.tsts }

/-- The queues of a context: one, or two for a width-64 pair. -/
def Ctx.fifos (c : Ctx) : List FifoId :=
  match c.agent with
  | .frag _ _ _ => (warpsOf c.g.width c.g.index).map (fifoOf c.agent)
  | _ => [fifoOf c.agent 0]

/-- Every queue of a context is empty. -/
def State.fifosEmpty (s : State) (c : Ctx) : Bool := c.fifos.all fun i => (s.fifo i).isEmpty

/-! ### Pending lookahead results and the commit -/

/-- A result written to a register or predicate. -/
def Group.writeLoc (g : Group) (w : RegLoc × W32) : Group :=
  match w.1 with
  | .near l i => g.setLane l ((g.lane l).setNreg i w.2)
  | .vec l i => g.setLane l ((g.lane l).setVreg i w.2)
  | .scal i => g.setSreg i w.2
  | .pred l i => g.setLane l ((g.lane l).setPred i (w.2 != 0#32))

/-- Results written, oldest first. -/
def Group.writeLocs (g : Group) (ws : List (RegLoc × W32)) : Group := ws.foldl Group.writeLoc g

/-- Every pending lookahead result of a fragment written, in the order of issue (R51, R57). -/
def Group.flush (g : Group) (fid : Nat) : Group :=
  match g.frag? fid with
  | none => g
  | some f => (g.writeLocs (f.pend.flatMap (·.writes))).setFrag { f with pend := [] }

/-- The pending result of a TSHLD written to its manifest (R248). -/
def Group.landManifest (g : Group) (m : Nat) : Group :=
  match tblFind g.mloads m with
  | some x => { g.setManifest m x.2 with mloads := tblErase g.mloads m }
  | none => g

/-- Every pending manifest of some lanes written. -/
def Group.landManifests (g : Group) (lanes : W64) : Group :=
  (g.mloads.filter fun x => (x.2.1 &&& lanes) != 0#64).foldl (fun g x => g.landManifest x.1) g

/-- A lane of a group as the owners of a store are numbered. -/
def ownLane (width index l : Nat) : Nat := if width == 16 then hwLane width index l else l

/-- The lanes of a mask as the owners of a store are numbered. -/
def ownMask (width index : Nat) (m : W64) : W64 :=
  if width == 16 then lanesMask ((maskLanes m).map (hwLane width index)) else m

/-- The items of an entry with those of their owners that lie in a mask. -/
def SEntry.ownedBy (e : SEntry) (m : W64) : List SItem :=
  (e.items.map fun i => { i with owners := i.owners &&& m }).filter fun i => i.owners != 0#64

/-- The part of an entry that lanes of a mask own in hardware warp `h`, with hardware lanes. A scalar store that lanes outside
the mask own too has a part of its own for these (R45, R121). -/
def SEntry.part (e : SEntry) (width index : Nat) (m : W64) (h serial : Nat) : SEntry :=
  let mine := (e.ownedBy (ownMask width index m)).filter fun i => warpOfLane width index i.lane == h
  { e with mask := lanesMask (((maskLanes (e.mask &&& m)).filter fun l => warpOfLane width index l == h).map (hwLane width index))
           items := mine.map fun i => { i with lane := hwLane width index i.lane }
           serial := serial }

/-- What is left of an entry for the lanes outside a mask. -/
def SEntry.rest (e : SEntry) (width index : Nat) (m : W64) : SEntry :=
  { e with mask := e.mask &&& ~~~m, items := e.ownedBy (~~~ownMask width index m) }

/-- The strand-buffer entries without the lanes of a mask; an entry without lanes is dropped. -/
def Group.dropEntries (g : Group) (m : W64) : Group :=
  { g with sbuf := (g.sbuf.map fun e => e.rest g.width g.index m).filter fun e => e.mask != 0#64 }

/-- commit(f) of R57: the pending results written, those of TSHLD among them, and the fragment's strand-buffer entries appended to
its FIFO store queues in program order; both parts of an entry of a width-64 pair get one number. -/
def State.commit (s : State) (a : Agent) : State :=
  let s := s.mapGroup a fun g => g.flush (agentFid a)
  match s.group? (agentSite a) with
  | none => s
  | some g =>
    match g.frag? (agentFid a) with
    | none => s
    | some f =>
      let s := s.mapGroup a fun g => g.landManifests f.mask
      let n := s.serial
      let s := { s with serial := s.serial + g.sbuf.length + 1 }
      let hs := match a with
        | .frag _ _ _ => warpsOf g.width g.index
        | _ => [warpOfLane g.width g.index ((maskLanes f.mask).headD 0)]
      let numbered := (upFrom n g.sbuf.length).zip g.sbuf
      let s := hs.foldl (fun s h =>
        let mine := (numbered.map fun e => e.2.part g.width g.index f.mask h e.1).filter fun e => !e.items.isEmpty
        s.setFifo (fifoOf a h) (s.fifo (fifoOf a h) ++ mine)) s
      s.mapGroup a fun g => g.dropEntries f.mask

/-! ### Abort -/

/-- A landing tag that a load of the fragment's lanes filled belongs to it (R49). -/
def Tag.belongs (t : Tag) (m : W64) : Bool := t.st != .empty && (t.mask &&& m) != 0#64

/-- A tag after an abort (R58). -/
def Tag.abort (t : Tag) : Tag :=
  if t.fresh then Tag.empty
  else
    match t.st with
    | .consumed => { t with st := .landed }
    | _ => t

/-- A tag after an SBEG (R57). -/
def Tag.begin (t : Tag) : Tag :=
  match t.st with
  | .consumed => Tag.empty
  | _ => { t with fresh := false }

/-- The tags of a fragment changed. -/
def Group.mapTags (g : Group) (m : W64) (k : Tag → Tag) : Group :=
  (List.range 16).foldl (fun g i => if (g.tag i).belongs m then g.setTag i (k (g.tag i)) else g) g

/-- The wait of a fragment that an abort leaves (R339, R344, R356): one whose instruction is the restart
point, one for the host, one for a hand-over. -/
def Frag.keepsWait (f : Frag) : Bool :=
  match f.wait with
  | .rejoin _ => true
  | .page _ _ _ _ _ _ => true
  | .handover _ _ => true
  | .barrier _ _ bars => bars.isSome
  | _ => false

/-- A fragment after an abort (R58). -/
def Frag.abort (f : Frag) : Frag :=
  { f with
    pc := f.rst.pc
    fmt := f.rst.fmt
    xemp := f.rst.xemp
    mark := f.rst.mark
    shrink := none
    ovfClear := false
    pend := []
    half := none
    expect := if f.pc == f.rst.pc then f.expect else none
    counted := false
    rerun := true
    committed := f.committed && f.rst.pc == f.pc
    wait := if f.keepsWait then f.wait else .none }

/-- A thread of an aborted fragment: its near file is lost, its generator restored (R58, R95). -/
def Thread.abort (t : Thread) : Thread := { t with n := [], srs := t.srsRst }

/-- abort(f) of R58. -/
def Group.abort (g : Group) (f : Frag) : Group :=
  let g := g.dropEntries f.mask
  let g := { g with mloads := g.mloads.filter fun x => (x.2.1 &&& f.mask) == 0#64 }
  let g := g.mapTags f.mask Tag.abort
  let g := g.mapLanes (maskLanes f.mask) Thread.abort
  g.setFrag f.abort

/-- The hand-over of a fragment is in progress (R76). -/
def Frag.leaving (f : Frag) : Bool :=
  match f.wait with
  | .handover _ _ => true
  | _ => false

/-- A fragment that a deschedule aborts: one that is not stopped (R344), or is stopped by BRK (R278), and
is not being handed over (R344). -/
def Frag.aborts (f : Frag) : Bool :=
  (match f.stop with
   | none => true
   | some x => x.cause == Cause.brk.code.1) && !f.leaving

/-- Every fragment of a group that a deschedule aborts, aborted. -/
def Group.abortAll (g : Group) : Group :=
  (g.frags.filter Frag.aborts).foldl (fun g f => g.abort f) g

/-- The groups that share a hardware warp, or a width-64 pair, with a group (R24, R29, R323). -/
def shareWarp (width g h : Nat) : Bool := if width == 16 then g / 2 == h / 2 else g == h

/-- The warp of an agent descheduled (R36, R323): every fragment of the warp aborts. A fault of a lane
on a tender, or of a harbourmaster, aborts that context alone (R325). -/
def State.deschedule (s : State) (a : Agent) : State :=
  match a with
  | .frag c gi _ =>
    match s.block? c with
    | none => s
    | some b =>
      s.setBlock c { b with groups := b.groups.map fun g => if shareWarp g.width gi g.index then g.abortAll else g }
  | _ => s.mapGroup a Group.abortAll

/-! ### Records of fragments -/

/-- The strand id at a PC (R326): that of the SBEG found there, else the recorded one. -/
def State.sidAt (s : State) (c : Ctx) (pc sid : Nat) : Nat :=
  let va := c.kern.codeBase + BitVec.ofNat 64 pc
  match s.xlatSee c va .fetch with
  | none => sid
  | some e =>
    match decodeBytes (s.mscRead (e.phys va.toNat) 16) with
    | .ok (.sbeg w) => w.imm.toNat % 65536
    | _ => sid

/-- Module time as an issuer reads it: as its die shows it, never less than before a migration (R283). -/
def State.timeFor (s : State) (c : Ctx) : Nat :=
  max (match s.blockOf c with
    | some b => b.gtFloor
    | none => 0) (s.dieTime (c.die s))

/-- The identity of a context in a record, with the time that it would read (R326, R350). -/
def State.recOf (s : State) (c : Ctx) (cause : Cause) : Rec :=
  match s.blockOf c with
  | none =>
    { cause := cause, time := some (s.timeFor c), part := c.part, novd := true, mask := c.f.mask.toNat, depth := c.f.depth }
  | some b =>
    let h := c.warp
    let ej := c.level == .tender
    { cause := cause, time := some (s.timeFor c), part := c.part, vd := c.vd, mask := c.f.mask.toNat, depth := c.f.depth
      lclu := b.lclu, lcore := b.lcore, quad := quadOf c.g.width h, warp := h
      ej := ej, lane := if ej then (maskLanes c.f.mask).headD 0 else 0
      rjds := (b.warp h).rjds, block := b.index, qtag := b.tag, queue := b.queue }

/-- A record with the restart point of a fragment (R326). -/
def Rec.restart (r : Rec) (s : State) (c : Ctx) (f : Frag) : Rec :=
  let sid := s.sidAt c f.rst.pc f.rst.sid
  { r with rstpc := f.rst.pc, sid := sid, survp := (c.kern.survTab.toNat + 64 * sid) % 2 ^ 64 }

/-! ### Taking a trap -/

/-- What a fault states about itself (R322, R326). -/
structure TrapInfo where
  cause : Cause
  detail : Nat := 0
  addr : Nat := 0
  ak : Nat := 0
  tag : Option Nat := none
  /-- FPC, where it is not the PC of the fragment. -/
  fpc : Option Nat := none
deriving DecidableEq, Repr

/-- A cause whose stop deschedules nothing (R323). -/
def Cause.inPlace : Cause → Bool
  | .swtrap | .brk | .rjdead | .pgfail => true
  | _ => false

/-- Taking a trap: the ONE operation of R323, R325 and R350. On a core the warp is descheduled, unless
the cause is one of R323's exceptions, and the fragment is stopped at its restart PC with a handle; on a
tender the lane alone; a harbourmaster is trapped and its record names no virtual device. The record is
posted (R322). -/
def takeTrap (s : State) (c : Ctx) (t : TrapInfo) : State :=
  let fpc := t.fpc.getD c.f.pc
  let s := if t.cause.inPlace then s else s.deschedule c.agent
  match s.ctx? c.agent with
  | none => s
  | some d =>
    let r := (s.recOf d t.cause).restart s d d.f
    let r := { r with detail := t.detail, addr := t.addr, ak := t.ak, tag := t.tag, fpc := fpc, mask := c.f.mask.toNat }
    match c.agent with
    | .hm p =>
      let s := match tblFind s.supers p with
        | some h => { s with supers := tblInsert s.supers p { h with trapped := true } }
        | none => s
      s.post p .always r
    | _ =>
      let (h, s) := s.newHandle c.part
      let s := s.mapFrag c.agent fun f => { f with stop := some ⟨h, t.cause.code.1, none⟩ }
      s.post c.part .always { r with handle := h, stop := true }

/-- The outcome of a fault that an instruction takes. -/
def trapOut (s : State) (c : Ctx) (t : TrapInfo) : Out := .next (takeTrap s c t)

/-- The agents of the module that hold a fragment: fragments on cores, ejected lanes. -/
def State.agentsOf (s : State) (c : Nat) (b : Block) : List Agent :=
  b.groups.flatMap (fun g => g.frags.map fun f => Agent.frag c g.index f.fid) ++
    (s.ejected.filter fun e => e.core == c).map fun e => .ejected e.core e.thread

/-- Every agent of the cores. -/
def State.agents (s : State) : List Agent :=
  s.cores.flatMap fun x =>
    match x.2.block with
    | some b => s.agentsOf x.1 b
    | none => []

/-- The stopped fragment of a partition that a handle names (R279). -/
def State.stopped? (s : State) (p h : Nat) : Option Agent :=
  s.agents.find? fun a =>
    match s.ctx? a with
    | some c =>
      c.part == p &&
        (match c.f.stop with
         | some x => x.handle == h
         | none => false)
    | none => false

/-- A stopped fragment of a saved gang with a handle, where one is. -/
def Frag.hasHandle (f : Frag) (h : Nat) : Bool :=
  match f.stop with
  | some x => x.handle == h
  | none => false

/-- A cause that a TRET cannot end (R329). -/
def stuckCause (cause : Nat) : Bool := cause == Cause.fraglost.code.1 || cause == Cause.ejlost.code.1

/-- The wait of a stopped fragment that reruns (R329): one at an RJWAIT issues it again, to meet what has come there since (R67). -/
def Frag.rerunWait (f : Frag) : Wait :=
  match f.wait with
  | .rejoin _ => .none
  | w => w

/-- The return from a trap (R279, R329, R340): mode 0 goes on after a TRAP or BRK, or at the SBEG of an
RJDEAD; mode 1, and mode 0 for every other cause, reruns the strand. -/
def Group.returnFrom (g : Group) (f : Frag) (mode : Nat) : Group :=
  match f.stop with
  | none => g
  | some x =>
    let go := { f with stop := none }
    if mode == 0 && x.cause == Cause.brk.code.1 then
      g.setFrag (if f.pc == f.rst.pc then go else go.goTo (f.pc + 16) f.expect)
    else if mode == 0 && (x.cause == Cause.swtrap.code.1 || x.cause == Cause.rjdead.code.1) then g.setFrag go
    else (g.setFrag go).abort { go with wait := go.rerunWait }

/-- TRET on a handle (R279): whether a fragment was resumed, and the state. A TRET during the suspension
of its block is recorded (R344). -/
def trapReturn (s : State) (p h mode : Nat) : Bool × State :=
  match s.stopped? p h with
  | some a =>
    match s.ctx? a with
    | none => (false, s)
    | some c =>
      match c.f.stop with
      | none => (false, s)
      | some x =>
        if stuckCause x.cause || x.tret.isSome then (false, s)
        else
          let suspended := match s.block? c.core with
            | some b => b.st == .suspended
            | none => false
          if suspended == true then (true, s.mapFrag a fun f => { f with stop := some { x with tret := some mode } })
          else (true, s.mapGroup a fun g => g.returnFrom c.f mode)
  | none =>
    let part := s.part p
    let live (f : Frag) : Bool := f.hasHandle h &&
      (match f.stop with
       | some x => !stuckCause x.cause && x.tret.isNone
       | none => false)
    let hit := part.saved.any fun g => g.blocks.any fun b => b.groups.any fun gr => gr.frags.any live
    let mark (f : Frag) : Frag :=
      if live f then { f with stop := f.stop.map fun x => { x with tret := some mode } } else f
    let inGroup (g : Group) : Group := { g with frags := g.frags.map mark }
    let inBlock (b : Block) : Block := { b with groups := b.groups.map inGroup }
    let inGang (g : SavedGang) : SavedGang := { g with blocks := g.blocks.map inBlock }
    if hit then (true, s.setPart p { part with saved := part.saved.map inGang }) else (false, s)

/-! ### Page faults -/

/-- A page fault of a thread (R356): the page request, the descheduled warp, the fragment waiting at its
restart PC, the PAGEF record. A harbourmaster has no host response to wait for; it is trapped. -/
def pageFault (s : State) (c : Ctx) (fail : Nat × Nat × Nat × Nat) (va : W64) (acc : Access) (ak : Nat)
    (tag : Option Nat) : State :=
  let (level, detail, base, size) := fail
  if c.level == .super then takeTrap s c { cause := .pagef, detail := detail, addr := va.toNat, ak := ak, tag := tag }
  else
    let fpc := c.f.pc
    let (id, s) := s.pageRequest c.fe c.vd level detail base size va acc .thread
    let s := s.deschedule c.agent
    let s := s.park c.agent (.page id detail va ak tag fpc)
    match s.ctx? c.agent with
    | none => s
    | some d =>
      let r := (s.recOf d .pagef).restart s d d.f
      s.post c.part .always { r with detail := detail, addr := va.toNat, ak := ak, tag := tag, fpc := fpc }

/-- The translation of one address for an issuer: an entry, or the outcome of a miss, a page fault or a
lost home die (R114, R356, R360). -/
def translate (s : State) (c : Ctx) (va : W64) (acc : Access) (ak : Nat) (tag : Option Nat) :
    (TlbEntry × State) ⊕ Out :=
  match s.xlat c va acc with
  | (.miss id, s) => .inr (waiting s c (.walk id va ak tag))
  | (.busy, s) => .inr (waiting s c .perform)
  | (.fail l d b z, s) => .inr (.next (pageFault s c (l, d, b, z) va acc ak tag))
  | (.hit e, s) =>
    if s.homeLost (c.die s) (e.phys va.toNat) then
      .inr (trapOut s c { cause := .homelost, detail := homeDie (e.phys va.toNat), addr := va.toNat, ak := ak, tag := tag })
    else .inl (e, s)

/-! ### Strand-ending instructions -/

/-- SRS recorded with the strand state of a fragment's lanes (R95). -/
def Group.recordSrs (g : Group) (m : W64) : Group := g.mapLanes (maskLanes m) fun t => { t with srsRst := t.srs }

/-- SRS recorded for the fragment of an agent. -/
def State.recordSrs (s : State) (a : Agent) : State :=
  s.mapGroup a fun g =>
    match g.frag? (agentFid a) with
    | some f => g.recordSrs f.mask
    | none => g

/-- The commit of a strand-ending instruction (R56): the instruction becomes the restart point. -/
def State.commitAt (s : State) (a : Agent) : State :=
  ((s.commit a).recordSrs a).mapFrag a fun f =>
    { f with committed := true
             rst := { pc := f.pc, sid := f.rst.sid, fmt := f.fmt, xemp := f.xemp, mark := f.mark } }

/-- The commit, unless it has taken place already. -/
def State.ensureCommit (s : State) (c : Ctx) : State := if c.f.committed then s else s.commitAt c.agent

/-- A strand-ending instruction has performed (R56): the SBEG after it is the restart point (R331). -/
def State.performed (s : State) (a : Agent) : State :=
  (s.recordSrs a).mapFrag a fun f =>
    { f.goTo (f.pc + 16) (some (.strand 3 f.pc)) with
      rst := { pc := f.pc + 16, sid := f.rst.sid, fmt := f.fmt, xemp := f.xemp, mark := f.mark } }

/-- The wider of two scopes. -/
def scopeMax (a b : Scope) : Scope := if a.bits.toNat ≤ b.bits.toNat then b else a

/-- A scope at `.stk` or wider. -/
def scopeWide (s : Scope) : Bool := decide (2 ≤ s.bits.toNat)

/-- A scope as an ejected lane performs it (R78, R117). -/
def Ctx.scope (c : Ctx) (s : Scope) : Scope :=
  if c.level == .tender then
    match s with
    | .blk => .clu
    | x => x
  else s

/-- A COLL with a trigger. DEDUCED: no release waits for it, since the release that a program makes after it may be the
store that its trigger waits for (R264, R265); a FENCE.sc does wait (R126). -/
def QEntry.awaitsTrigger (e : QEntry) : Bool :=
  match e.op with
  | .coll _ _ _ _ _ (some _) _ => true
  | _ => false

/-- Whether an engine entry of a warp was committed before a serial number. -/
def QEntry.before (e : QEntry) (warp serial : Nat) : Bool := e.warp == warp && decide (e.serial < serial)

/-- Every engine queue of the module. -/
def State.engineEntries (s : State) : List QEntry :=
  s.cores.flatMap (fun x => x.2.queue) ++ s.pairs.flatMap (fun x => x.2.queue) ++ s.kqueues.flatMap (·.2)

/-- Some engine entry that has neither performed nor been discarded passes a test: one in a queue, or one withdrawn from it with
its block (R245). -/
def State.anyEntry (s : State) (k : QEntry → Bool) : Bool :=
  let kept (b : Block) : Bool := b.withdrawn.any fun x => k x.2
  s.engineEntries.any k || (s.cores.any fun x => x.2.block.any kept) || s.parts.any fun p => p.2.saved.any fun g => g.blocks.any kept

/-- An engine entry by its number has neither performed nor been discarded (R135, R252, R253). -/
def State.entryLeft (s : State) (n : Nat) : Bool := s.anyEntry fun e => e.id == n

/-- The engine entries of the block of a core that have been accepted and have not performed: those in queues, and those
withdrawn and not yet accepted again (R245). -/
def State.commandsOf (s : State) (core : Nat) : List QEntry :=
  (s.engineEntries.filter fun e => e.core == core) ++ ((s.block? core).elim [] fun b => b.withdrawn.map (·.2))

/-- The release part of an item with serial `n` may perform, apart from what stands ahead of it in its
queue (R127): the engine commands and tile stores of the warp before it have performed. -/
def State.releaseReady (s : State) (core warp n : Nat) (tsts : List TileStore) : Bool :=
  !((s.commandsOf core).any fun e => e.before warp n && !e.awaitsTrigger) && !(tsts.any fun t => decide (t.serial < n))

/-- The slice action of a release at a scope (R128). -/
def State.releaseAction (s : State) (cl : Nat) (sc : Scope) : State := if scopeWide sc then s.writeBackAll cl else s

/-- The slice action of an acquire at a scope (R128). -/
def State.acquireAction (s : State) (cl : Nat) (sc : Scope) : State := if scopeWide sc then s.acquireSlice cl else s

/-- The acquire part of an access of an issuer: the slice action on its cluster, for a lane on a tender its home
cluster (R117, R128); a harbourmaster has none. -/
def State.acquire (s : State) (c : Ctx) (sc : Scope) : State :=
  if c.level == .super then s else s.acquireAction c.cluster sc

/-- The release part of an access of an issuer, at the same place. -/
def State.release (s : State) (c : Ctx) (sc : Scope) : State :=
  if c.level == .super then s else s.releaseAction c.cluster sc

/-- A release mark set at a scope; a second one leaves the wider (R127). -/
def State.setMark (s : State) (a : Agent) (sc : Scope) : State :=
  s.mapFrag a fun f =>
    { f with mark := some (match f.mark with
                           | some m => scopeMax m sc
                           | none => sc) }

/-- The perform step of a strand-ending instruction may take place: its mark, if it holds one, allows it
(R127). The release then takes its slice action and the mark is gone. -/
def State.takeMark (s : State) (c : Ctx) : Option State :=
  match c.f.mark with
  | none => some s
  | some m =>
    if s.fifosEmpty c && s.releaseReady c.core c.warp s.serial c.g.tsts then
      let s := s.release c m
      some (s.mapFrag c.agent fun f => { f with mark := none })
    else none

/-! ### Barrier objects -/

/-- A barrier object without its reserved bits, which read as zero (R7, R235). -/
def objBits (x : Nat) : Nat := bitField x 0 16 + bitField x 32 17 * 2 ^ 32 + bitField x 61 3 * 2 ^ 61

/-- A barrier object at an offset, as a 64-bit number (R235). -/
def Core.object (c : Core) (off : Nat) : Nat := objBits (leNat (c.scratchRead off 8))

/-- objarrive of R235 on the value of an object. -/
def objArrive (x k : Nat) (skip : Bool) : Nat :=
  let pend := bitField x 0 16
  let exp := bitField x 32 16
  let ph := bitField x 48 1
  let cskip := if skip then 1 else bitField x 62 1
  let lskip := bitField x 63 1
  let ova := if pend < k then 1 else bitField x 61 1
  let left := pend - k
  let keep := exp * 2 ^ 32 + ova * 2 ^ 61
  if left == 0 then keep + exp + (1 - ph) * 2 ^ 48 + cskip * 2 ^ 63
  else keep + left + ph * 2 ^ 48 + cskip * 2 ^ 62 + lskip * 2 ^ 63

/-- An arrival at an object of a scratchpad, one indivisible update (R235). -/
def State.objArrive (s : State) (core off k : Nat) (skip : Bool) : State :=
  s.scratchWrite core off (leBytes 8 (Machine.objArrive ((s.core core).object off) k skip))

/-- The value that MBINIT writes (R236). -/
def objInit (e : Nat) : Nat :=
  let e := if e % 65536 == 0 then 1 else e % 65536
  e * 2 ^ 32 + e

/-- Whether the phase of an object differs from a parity (R237). -/
def objPassed (x : Nat) (parity : Bool) : Bool := testBit x 48 != parity

/-! ### Error counters -/

/-- An error counted in RASCNTi of a die (R363): a corrected one, or an uncorrectable one; saturating. -/
def State.countError (s : State) (d i : Nat) (ue : Bool) : State :=
  let die := s.die d
  let x := (tblGet 0#32 die.ras i).toNat
  let ce := x % 65536
  let u := x / 65536
  let y := if ue then min (u + 1) 65535 * 65536 + ce else u * 65536 + min (ce + 1) 65535
  s.setDie d { die with ras := tblSet 0#32 die.ras i (BitVec.ofNat 32 y) }

end Sys2Proof.Machine
end

