-- ==== Sys2Proof/Machine/Operands.lean ====
section
/-! DEFINITION. Every operand form: where an instruction may run (R348 to R350), the acting lanes (R214),
the reading of sources with immediates and modifiers (R43, R141, R142, R158, R189), the writing of
results with lookahead (R51), and the frame of an instruction that acts on registers alone. -/

namespace Sys2Proof.Machine

/-! ### Where an instruction may run -/

/-- The opcode of an instruction; an event has none. -/
def opcOf (i : Instr) : Nat := i.opc?.getD 0

/-- The destination field names an S register. -/
def writesScalar (d : Opnd) : Bool :=
  match d with
  | .scal _ => true
  | _ => false

/-- The instruction writes an S register through any field (R348): its destination, the total of SCANX, the base that a
post-increment form advances (R222). -/
def writesS (i : Instr) : Bool :=
  match i with
  | .scanx w => writesScalar w.b.op || writesScalar w.d
  | .lds w | .sts w => writesScalar w.d || (w.amode == 1#2 && writesScalar w.a.op)
  | _ =>
    match i.common? with
    | some w => writesScalar w.d
    | none => false

/-- The leader rule of R254: a thread of a block with even gang size on the even core of its pair. -/
def Block.isLeader (b : Block) : Bool := b.gangSize % 2 == 0 && b.lcore % 2 == 0

/-- PRIV of a fragment at kernel level: CTLW, TRET, HALT, and CTLR with EXT ≠ 0 (R276, R347). -/
def privileged (i : Instr) : Bool :=
  match i with
  | .ctlw _ => true
  | .tret _ => true
  | .halt _ => true
  | .ctlr w => w.ext != 0#8
  | _ => false

/-- The opcodes that the pair leader alone may issue (R347). -/
def needsLeader (o : Nat) (i : Instr) : Bool :=
  o == 0x300 || o == 0x301 || o == 0x302 || o == 0x303 ||
    (match i with
     | .qfncMq _ => true
     | _ => false)

/-- The excluded instructions of R348 outside the engine opcodes. -/
def ejectExcluded (o : Nat) : Bool := o == 0x20A || o == 0x1C8 || o == 0x1C9 || o == 0x182 || o == 0x184

/-- The instructions that a harbourmaster may not issue (R349). -/
def superExcluded (o : Nat) : Bool :=
  (decide (0x280 ≤ o) && decide (o ≤ 0x35F)) || o == 0x204 || o == 0x205 || o == 0x208 || o == 0x209 || o == 0x20A ||
    o == 0x219 || o == 0x210 || o == 0x211 || o == 0x1C8 || o == 0x1C9 || o == 0x1CA || o == 0x385

/-- Stage 3 of R345: PRIV, then ENGUSE, then EJVIO. -/
def placeTrap (s : State) (c : Ctx) (i : Instr) : Option TrapInfo :=
  let o := opcOf i
  match c.level with
  | .core =>
    if privileged i then some { cause := .priv }
    else if needsLeader o i && !(match s.block? c.core with
        | some b => b.isLeader
        | none => false) then some { cause := .enguse, detail := 0 }
    else none
  | .tender =>
    if privileged i then some { cause := .priv }
    else if 0x2C0 ≤ o && o ≤ 0x35F then some { cause := .enguse, detail := 1 }
    else if ejectExcluded o || writesS i then some { cause := .ejvio }
    else none
  | .super => if superExcluded o then some { cause := .enguse, detail := 2 } else none

/-- An instruction run for its issuer, after stage 3 of R345. -/
def issuing (s : State) (i : Instr) (k : Ctx → Out) : Out :=
  withIssuer s fun c =>
    match placeTrap s c i with
    | some t => trapOut s c t
    | none => k c

/-! ### Sources -/

/-- A binary32 value widened exactly to binary64 (R189). -/
def widen64 (x : Nat) : Nat :=
  match unpack .f32 x with
  | .nan s _ f _ => fmtSign .f64 s + fmtInf .f64 + f * 2 ^ 29
  | v => (deliver .f64 ⟨.rne, false, false, false⟩ v).bits

/-- The value of the immediate for a type (R158, R189). DEDUCED: R158 has no case for the 4-bit elements of `.q4`, of which
IMM holds eight: it is taken whole. -/
def immValue (t : Ty) (imm : W32) : Nat :=
  let x := imm.toNat
  match t with
  | .f64 => widen64 x
  | .f32x2 => packElements 32 [x, x]
  | .i64 => wrap 64 (toSigned 32 x)
  | .q4 => x
  | _ => packElements t.width (List.replicate (32 / t.width) x)

/-- A register of a level as a lane reads it; a K word and the scalar registers are the same for every
lane. -/
def Ctx.reg (c : Ctx) (l : Nat) (o : Opnd) (k : Nat) : W32 :=
  match o with
  | .near i => (c.g.lane l).nreg (i.toNat + k)
  | .vec i => (c.g.lane l).vreg (i.toNat + k)
  | .scal i => c.g.sreg (i.toNat + k)
  | .kbank i => c.bank (i.val + k)
  | _ => 0#32

/-- The number that `n` registers from an operand hold, the first one lowest (R43). -/
def Ctx.regs (c : Ctx) (l : Nat) (o : Opnd) (n : Nat) : Nat :=
  packElements 32 ((List.range n).map fun k => (c.reg l o k).toNat)

/-- The value of an operand field for a type, before modifiers. -/
def Ctx.raw (c : Ctx) (l : Nat) (t : Ty) (o : Opnd) (imm : W32) : Nat :=
  match o with
  | .imm => immValue t imm
  | _ => c.regs l o t.regs

/-- The value of a source for a type, with its modifier, absolute and negate (R141, R142). -/
def Ctx.src (c : Ctx) (l : Nat) (t : Ty) (x : Src) (imm : W32) : Nat := modifySource t x (c.raw l t x.op imm)

/-- A poisoned register among `n` from an operand (R364). -/
def Ctx.poisoned (c : Ctx) (l : Nat) (o : Opnd) (n : Nat) : Bool :=
  match o with
  | .vec i => (upFrom i.toNat n).any (c.g.lane l).bad.contains
  | _ => false

/-- A scalar instruction of R45. -/
def Common.scalarOp (w : Common) : Bool := w.operandsScalar

/-- The lanes an instruction executes for: its acting lanes, or one of them when it is scalar (R45,
R214). -/
def Ctx.units (c : Ctx) (w : Common) (perLane : Bool) : List Nat :=
  let ls := c.acting w.guard
  if w.operandsScalar && !perLane then ls.take 1 else ls

/-! ### Results -/

/-- The places of consecutive words from a destination (R44). -/
def destLocs (d : Opnd) (l : Nat) (ws : List W32) : List (RegLoc × W32) :=
  let ks := (List.range ws.length).zip ws
  match d with
  | .near i => ks.map fun k => (.near l (i.toNat + k.1), k.2)
  | .vec i => ks.map fun k => (.vec l (i.toNat + k.1), k.2)
  | .scal i => ks.map fun k => (.scal (i.toNat + k.1), k.2)
  | _ => []

/-- The words of an `n`-bit result. -/
def words (n x : Nat) : List W32 := (elements n 32 x).map (BitVec.ofNat 32)

/-- The words of a result of a type: one, or a pair. -/
def tyWords (t : Ty) (x : Nat) : List W32 := words (tyBits t) x

/-- A pending result without its writes to registers that a later result has written: the earlier result of a register
is written before the later one, which replaces it (R51). -/
def Pend.overtaken (p : Pend) (ws : List (RegLoc × W32)) : Pend :=
  { p with writes := p.writes.filter fun x => !(ws.any fun y => y.1 == x.1) }

/-- Results of an instruction that honours lookahead, with its field `la`: written at once, after the pending results of
the same registers, or pending (R51). -/
def Group.result (g : Group) (fid la : Nat) (ws : List (RegLoc × W32)) : Group :=
  match g.frag? fid with
  | none => if la == 0 then g.writeLocs ws else g
  | some f =>
    if la == 0 then (g.setFrag { f with pend := f.pend.map fun p => p.overtaken ws }).writeLocs ws
    else g.setFrag { f with pend := f.pend ++ [⟨la, ws⟩] }

/-- The lookahead windows when an instruction issues (R51): the results written before it, in the order of issue, and
the ones still pending. -/
def pendIssue : List Pend → List (RegLoc × W32) × List Pend
  | [] => ([], [])
  | p :: ps =>
    let (w, r) := pendIssue ps
    if p.left == 0 then (p.writes ++ w, r) else (w, ({ p with left := p.left - 1 } : Pend).overtaken w :: r)

/-- The windows of a fragment counted down by one issue (R51). -/
def Group.countWindow (g : Group) (fid : Nat) : Group :=
  match g.frag? fid with
  | none => g
  | some f =>
    let (w, r) := pendIssue f.pend
    (g.writeLocs w).setFrag { f with pend := r, counted := true }

/-- What an instruction gives in one lane: the words of D, the predicate, a raised OVF, the generator. -/
structure LaneRes where
  d : List W32 := []
  pd : Option Bool := none
  ovf : Bool := false
  srs : Option W32 := none
deriving DecidableEq, Repr

/-- One lane's results in the group, apart from those of D. -/
def Group.laneRes (g : Group) (pd : Nat) (r : Nat × LaneRes) : Group :=
  let t := g.lane r.1
  let t := match r.2.pd with
    | some v => t.setPred pd v
    | none => t
  let t := match r.2.srs with
    | some x => { t with srs := x }
    | none => t
  g.setLane r.1 t

/-- The sticky flags OVF and OVFN raised (R190, R270). -/
def Group.raiseOvf (g : Group) (b : Bool) : Group := if b then { g with ovf := true, ovfn := true } else g

/-- POISON of a register a thread reads (R364). -/
def poisonTrap : TrapInfo := { cause := .poison, detail := 0 }

/-- The frame of an instruction that acts on registers alone: for each of its lanes it reads its sources
and gives its results; a poisoned source stops it (R364); it goes on at the next instruction. `place` writes the
results of D. -/
def aluWith (place : Group → List (RegLoc × W32) → Group) (s : State) (c : Ctx) (w : Common) (perLane : Bool) (pd : Nat)
    (srcs : List (Opnd × Nat)) (k : Nat → LaneRes) : Out :=
  let ls := c.units w perLane
  if ls.any fun l => srcs.any fun o => c.poisoned l o.1 o.2 then trapOut s c poisonTrap
  else
    let rs := ls.map fun l => (l, k l)
    let g := rs.foldl (fun g r => g.laneRes pd r) c.g
    let g := g.raiseOvf (rs.any fun r => r.2.ovf)
    finish (s.putGroup c (place g (rs.flatMap fun r => destLocs w.d r.1 r.2.d))) c

/-- The frame of an instruction without lookahead: its results are written at once. -/
def alu : State → Ctx → Common → Bool → Nat → List (Opnd × Nat) → (Nat → LaneRes) → Out := aluWith Group.writeLocs

/-- The frame of an instruction that honours lookahead (R51, R148). -/
def aluLook (s : State) (c : Ctx) (w : Common) : Bool → Nat → List (Opnd × Nat) → (Nat → LaneRes) → Out :=
  aluWith (fun g ws => g.result c.f.fid w.la.toNat ws) s c w

/-- The three sources at the width of a type. -/
def srcs3 (w : Common) : List (Opnd × Nat) := [(w.a.op, w.ty.regs), (w.b.op, w.ty.regs), (w.c.op, w.ty.regs)]

/-! ### Predicates (R156) -/

/-- The destination predicate PD of an arithmetic word. -/
def arithPd (w : ArithOp) : Nat := w.ext.toNat % 8
/-- The source predicate of an arithmetic word in a lane. -/
def arithPs (w : ArithOp) (t : Thread) : Bool := t.pred (w.ext.toNat / 16 % 8) != w.ext.getLsbD 7

end Sys2Proof.Machine
end

