-- ==== Sys2Proof/Machine/Flags.lean ====
section
/-! DEFINITION. The format register (R52), rounding modes (R145), the flush of sources and results (R96)
and the conditions of OVF (R190, R270). -/

namespace Sys2Proof.Machine

/-- NANC of FMT (R52). -/
def fmtNanc (f : W32) : Bool := f.getLsbD 7
/-- Whether subnormal sources of a type are read as zero: DAZ64 and DAZ32 (R52, R96). -/
def fmtDaz (t : Ty) (f : W32) : Bool :=
  match t with
  | .f64 => f.getLsbD 5
  | .f32 | .f32x2 => f.getLsbD 3
  | _ => false
/-- Whether subnormal results of a type are written as zero: FTZ64 and FTZ32 (R52, R96). -/
def fmtFtz (t : Ty) (f : W32) : Bool :=
  match t with
  | .f64 => f.getLsbD 4
  | .f32 | .f32x2 => f.getLsbD 2
  | _ => false

/-- The dynamic rounding mode FMT.RM (R52). -/
def fmtRm (f : W32) : RMode :=
  match f.toNat % 4 with
  | 0 => .rne
  | 1 => .rtz
  | 2 => .rup
  | _ => .rdn

/-- The rounding mode of a code (R145), with the generator state a stochastic draw reads. -/
def rmode (r : Rnd) (fmt srs : W32) : RMode :=
  match r with
  | .rne => .rne
  | .rtz => .rtz
  | .rup => .rup
  | .rdn => .rdn
  | .sr => .sr srs
  | .dyn => fmtRm fmt

/-- Rounding is toward −∞, for the sign of an exact zero sum (R90). -/
def RMode.isRdn (m : RMode) : Bool := m == .rdn

/-- A source element with a subnormal flushed to a zero of its sign where DAZ says so (R96). -/
def dazElement (t : Ty) (fmt : W32) (x : Nat) : Nat :=
  if fmtDaz t fmt && bitField x (fmtP t - 1) (fmtExp t) == 0 then x / 2 ^ (fmtWidth t - 1) * 2 ^ (fmtWidth t - 1) else x

/-- The value of a source element after DAZ. -/
def dazValue (t : Ty) (fmt : W32) (x : Nat) : FVal := unpack t (dazElement t fmt x)

/-- How a result of a type is delivered under FMT. -/
def fctl (t : Ty) (mode : RMode) (sat : Bool) (fmt : W32) : FCtl := ⟨mode, fmtNanc fmt, sat, fmtFtz t fmt⟩

/-- The condition of R190 on one lane: every source element finite, and a result infinite, NaN or saturated. -/
def raises (srcs : List FVal) (rs : List FRes) : Bool := srcs.all FVal.isFin && rs.any (·.special)

/-- OVF and OVFN after an OVFR.rdc and the SBEG that follows it (R270): OVF takes OVFN. -/
def Group.applyClear (g : Group) : Group := { g with ovf := g.ovfn }

end Sys2Proof.Machine
end

