-- ==== Sys2Proof/Machine/Issue.lean ====
section
/-! DEFINITION. The issue of an instruction up to its meaning: which fragments are ready (R39, R40, R71),
the fetch (R112, R316), and the checks of stages 1 and 2 of R345. -/

namespace Sys2Proof.Machine

/-! ### Readiness -/

/-- A waiting fragment is issued again: its wait is over, or its instruction tests it anew (R39). -/
def waitOver (s : State) (c : Ctx) : Bool :=
  match c.f.wait with
  | .none => true
  | .perform => true
  | .tag t => (c.g.tag t).st != .pending
  | .line k l => (s.core k).lineWriters l == 0
  | .object items _ => items.isEmpty
  | .queues q => q.all fun x => x.2.all fun id => !s.entryLeft id
  | .sleep till _ => decide (till ≤ s.clock)
  | .atom => false
  | .rejoin _ => false
  | .barrier _ _ _ => false
  | .walk _ _ _ _ => false
  | .page _ _ _ _ _ _ => false
  | .tld _ _ => false
  | .grow _ _ => false
  | .engine _ _ => false
  | .handover _ _ => false

/-- The issuer's own unit lets it issue: a running block, a resident fragment, a harbourmaster that runs. -/
def unitReady (s : State) (c : Ctx) : Bool :=
  match c.agent with
  | .frag k _ _ =>
    (match s.block? k with
     | some b => b.st == .running
     | none => false) &&
    (match c.f.slot with
     | .entry _ => true
     | _ => false)
  | .ejected k t =>
    (match s.block? k with
     | some b => b.st == .running
     | none => false) &&
    (match s.ejected? k t with
     | some e => decide (e.readyAt ≤ s.clock)
     | none => false)
  | .hm p =>
    match tblFind s.supers p with
    | some h => h.run && !h.trapped && !h.halted
    | none => false

/-- A place lies on a page that is held for capture (R116). -/
def State.placeHeld (s : State) (space : Nat) (p : Place) : Bool :=
  match p with
  | .glob _ _ pte _ _ => s.pageHeld space pte
  | .scratch _ _ => false

/-- The hardware lanes of a fragment in the warp of a queue. -/
def Ctx.lanesIn (c : Ctx) (id : FifoId) : W64 :=
  match id with
  | .warp _ h =>
    lanesMask (((maskLanes c.f.mask).filter fun l => warpOfLane c.g.width c.g.index l == h).map (hwLane c.g.width c.g.index))
  | _ => ~~~0#64

/-- A fragment holds a committed store that waits for a page generation capture (R39, R116): the head of its queue, or a
tile store. -/
def holdsStore (s : State) (c : Ctx) : Bool :=
  (c.fifos.any fun id =>
    match s.fifo id with
    | [] => false
    | e :: _ => (e.mask &&& c.lanesIn id) != 0#64 && e.items.any fun i => s.placeHeld c.space i.place) ||
  c.g.tsts.any fun t => (t.mask &&& c.f.mask) != 0#64 && t.segs.any fun x => s.pageHeld c.space x.2.1

/-- A fragment is not waiting and not stopped (R39), wherever it stands. -/
def able (s : State) (c : Ctx) : Bool :=
  c.f.stop.isNone && c.f.mask != 0#64 && decide (c.f.readyAt ≤ s.clock) && waitOver s c && !holdsStore s c

/-- A fragment that can issue now: the half-issues of its last instruction are over (R30). -/
def ready (s : State) (c : Ctx) : Bool := able s c && unitReady s c && c.f.half.isNone && decide (c.f.halfTill ≤ s.clock)

/-- The half-issues of a fragment (R30): two where both hardware warps of a width-64 pair have a lane in it. -/
def Ctx.halves (c : Ctx) : Nat :=
  if c.g.width == 64 && c.f.mask.toNat % 2 ^ 32 != 0 && c.f.mask.toNat / 2 ^ 32 != 0 then 2 else 1

/-! ### Fetch -/

/-- The instruction cache of an issuer: of its core, or of its tender (R316). -/
def holderOf (s : State) (c : Ctx) : Nat :=
  match c.agent with
  | .frag k _ _ => k
  | .ejected k t =>
    match s.ejected? k t with
    | some e => 2048 + 24 * dieOf k + e.ctx / 8
    | none => 2048
  | .hm p =>
    match tblFind s.supers p with
    | some h => 2048 + 24 * c.die s + h.ctx.getD 0 / 8
    | none => 2048

/-- The address of the instruction at a fragment's PC (R138, R147). -/
def Ctx.fetchVa (c : Ctx) : W64 := c.kern.codeBase + BitVec.ofNat 64 c.f.pc

/-- The code line that holds an address: the one in the cache, or one filled from memory, an access that R111 counts
(R316). -/
def State.codeLine (s : State) (holder space va pa : Nat) : List Byte × State :=
  let base := va / 128 * 128
  match s.code.find? fun l => l.holder == holder && l.space == space && l.va == base with
  | some l => (l.bytes, s)
  | none =>
    let bs := s.mscRead (pa - va % 128) 128
    let s := s.touch (s.spacePart space) pa
    (bs, { s with code := s.code ++ [({ holder := holder, space := space, va := base, bytes := bs } : CodeLine)] })

/-- The sixteen bytes at a fragment's PC, or the outcome of a miss or a page fault (R355). -/
def fetch (s : State) (c : Ctx) : (List Byte × State) ⊕ Out :=
  let va := c.fetchVa
  match translate s c va .fetch 4 none with
  | .inr o => .inr o
  | .inl (e, s) =>
    let (bs, s) := s.codeLine (holderOf s c) c.space va.toNat (e.phys va.toNat)
    .inl ((bs.drop (va.toNat % 128)).take 16, s)

/-! ### Decode checks that need the kernel -/

/-- The operands of an instruction in the order D, A, B, C. -/
def operandsOf (i : Instr) : List Opnd :=
  match i.common? with
  | some w => [w.d, w.a.op, w.b.op, w.c.op]
  | none => []

/-- The rejoin register that an instruction names. -/
def namesJ (i : Instr) : Option Nat :=
  match i with
  | .brd w | .brx w | .rjset w | .rjwait w | .rjmovRead w | .rjmovWrite w => some w.jx.toNat
  | _ => none

/-- The manifest that an instruction names. -/
def namesT (i : Instr) : Option Nat :=
  match i with
  | .tshldGl w | .tshldSp w | .tshpSet w | .tshpAdd w | .tshpAdd64 w | .tshstGl w | .tshstSp w | .cpy w | .coll w =>
    some (w.ext.toNat / 32)
  | _ => none

/-- The landing tag that an instruction names. -/
def namesL (i : Instr) : Option Nat :=
  match i with
  | .ld w | .land w => some w.tag.toNat
  | _ => none

/-- The first operand beyond the granted count or beyond the group's registers (R29, R47). -/
def outOfBounds (width g : Nat) (i : Instr) : Option Nat :=
  let narrow (x : Option Nat) (n : Nat) : Option Nat :=
    match x with
    | some k => if width == 16 && n ≤ k then some k else none
    | none => none
  let bad (o : Opnd) : Option Nat :=
    match o with
    | .vec k => if g ≤ k.toNat then some k.toNat else none
    | .scal k => narrow (some k.toNat) 32
    | _ => none
  ((operandsOf i).findSome? bad).or ((narrow (namesJ i) 4).or ((narrow (namesT i) 4).or (narrow (namesL i) 8)))

/-- The index of a scalar or vector operand is even. -/
def evenOpnd (o : Opnd) : Bool :=
  match o with
  | .near k => k.toNat % 2 == 0
  | .vec k => k.toNat % 2 == 0
  | .scal k => k.toNat % 2 == 0
  | _ => true

/-- The scalar operand is a multiple of four. -/
def quadOpnd (o : Opnd) : Bool :=
  match o with
  | .scal k => k.toNat % 4 == 0
  | _ => true

/-- The base-2 logarithm of a width. -/
def logWidth (width : Nat) : Nat := if width == 16 then 4 else if width == 64 then 6 else 5

/-- The checks of an entry that depend on the width: CMPX (R212), RJMOV (R182), and the mask pairs of
PCOL and PEER at width 64 (R209, R213). -/
def widthLegal (width : Nat) (i : Instr) : Bool :=
  match i with
  | .cmpx w => decide (w.imm.toNat / 256 % 32 ≤ logWidth width)
  | .rjmovRead w => width != 64 || quadOpnd w.d
  | .rjmovWrite w => width != 64 || quadOpnd w.a.op
  | .pcol w => width != 64 || w.mode != 3#4 || evenOpnd w.d
  | .peer w => width != 64 || w.mode == 2#4 || evenOpnd w.d
  | _ => true

/-- The decode of R151, with its traps in their order. -/
def decodeFor (c : Ctx) (bs : List Byte) : Instr ⊕ TrapInfo :=
  match decodeBytes bs with
  | .error .unassignedOpcode => .inr { cause := .illop, detail := 0 }
  | .error .badField => .inr { cause := .illop, detail := 1 }
  | .ok i =>
    if !widthLegal c.g.width i then .inr { cause := .illop, detail := 1 }
    else if !c.kern.useMask.getLsbD i.capClass then .inr { cause := .capvio, detail := i.capClass }
    else
      match outOfBounds c.g.width c.granted i with
      | some k => .inr { cause := .regbnd, detail := k }
      | none => .inl i

/-- The word has the opcode of SBEG. -/
def isSbeg (bs : List Byte) : Bool := leNat bs / 2 ^ 118 == 0x191

/-- Stage 1 of R345: STRSEQ at a point of R331, BADTGT at a register target (R174). -/
def fetchTrap (c : Ctx) (bs : List Byte) : Option TrapInfo :=
  match c.f.expect with
  | none => none
  | some e =>
    if isSbeg bs then none
    else
      match e with
      | .strand point from_ => some { cause := .strseq, detail := point, addr := c.f.pc, fpc := some from_ }
      | .target from_ => some { cause := .badtgt, detail := 1, addr := c.f.pc, fpc := some from_ }

/-- The first issue of a slice is where its charged time starts (R296). -/
def State.startSlice (s : State) (p : Nat) : State :=
  let part := s.part p
  if part.slice.isNone then s.setPart p { part with slice := some s.clock } else s

/-- The instructions that end a strand (R56). -/
def endsStrand (i : Instr) : Bool :=
  match i with
  | .atom _ | .bara _ | .bars _ | .mbarv _ | .exit _ | .ldgs _ | .tst _ => true
  | .atoms w => w.d != .none
  | .cpy _ | .gset _ | .gsetClr _ | .qfncCq _ | .qfncMq _ | .qfncKq _ | .mldb _ | .mma _ | .macc _ | .mtbl _ | .coll _
  | .sigsSet _ | .sigsAdd _ => true
  | _ => false

/-- The instructions at which the lookahead windows of a thread end: they wait for the pending results (R51, R56). -/
def endsWindow (i : Instr) : Bool :=
  match i with
  | .sbeg _ | .bru _ | .brd _ | .brx _ | .call _ | .callx _ | .ret _ | .rjwait _ => true
  | i => endsStrand i

/-- The lookahead windows at an issue: counted down once, and ended where the instruction ends them (R51); a manifest that
the instruction names has been loaded (R248). -/
def State.windows (s : State) (a : Agent) (i : Instr) : State :=
  s.mapGroup a fun g =>
    let g := match namesT i with
      | some m => g.landManifest m
      | none => g
    match g.frag? (agentFid a) with
    | none => g
    | some f =>
      let g := if f.counted then g else g.countWindow f.fid
      if endsWindow i then g.flush f.fid else g

/-- The issue of an agent up to its meaning: the decoded instruction with the state it runs in, or the
outcome of a miss, a wait or a trap of stages 1 and 2. An agent that cannot issue lets its turn pass. -/
def prepare (s : State) (a : Agent) : (Instr × State) ⊕ Out :=
  match s.ctx? a with
  | none => .inr (.next s)
  | some c =>
    if !ready s c then .inr (.next s)
    else
      match fetch s c with
      | .inr o => .inr o
      | .inl (bs, s) =>
        match fetchTrap c bs with
        | some t => .inr (trapOut s c t)
        | none =>
          match decodeFor c bs with
          | .inr t => .inr (trapOut s c t)
          | .inl i =>
            let s := (s.windows a i).mapFrag a fun f => { f with issued := true, missed := 0 }
            let s := match a with
              | .frag k _ _ =>
                let s := if c.halves == 2 then s.mapFrag a fun f => { f with halfTill := s.clock + coreTicks 2 } else s
                match s.block? k with
                | some b => (s.setBlock k { b with first := false }).startSlice b.part
                | none => s
              | _ => s
            .inl (i, { s with cur := some a })

/-! ### Issue selection (R71, R399) -/

/-- The instruction at a fragment's PC as the caches and memory hold it now. -/
def peekInstr (s : State) (c : Ctx) : Option Instr :=
  let va := c.fetchVa
  match s.xlatSee c va .fetch with
  | none => none
  | some e =>
    let bs := (s.codeLine (holderOf s c) c.space va.toNat (e.phys va.toNat)).1
    match decodeBytes ((bs.drop (va.toNat % 128)).take 16) with
    | .ok i => some i
    | .error _ => none

/-- The arithmetic entries that R157 makes per lane: those that write or read a predicate. -/
def perLaneEntry (i : Instr) : Bool :=
  match i with
  | .iaddx _ | .icmp _ | .sel _ | .fcmp _ | .qcvt _ | .lrd _ | .pcol _ | .scanx _ | .cmpx _ | .peer _ | .plop _ | .p2s _
  | .s2p _ | .mbtst _ => true
  | .fclass w => w.mode == 1#4
  | _ => false

/-- The scalar issue carries the instruction (R399). -/
def scalarIssue (i : Instr) : Bool :=
  match i.split with
  | none => false
  | some (_, b) =>
    match b with
    | .ctl _ => true
    | .eng _ =>
      (match i with
       | .mldb _ => false
       | _ => true)
    | _ => b.common.operandsScalar && !perLaneEntry i

/-- The occupancy of the vector issue in core cycles (R191). DESIGN CHOICE: TYPE alone tells an `.f64` form, not the source
format of a conversion. -/
def occupancy (i : Instr) : Nat :=
  match i.split with
  | none => 1
  | some (o, b) =>
    let o := o.toNat
    let t := b.common.ty
    if o == 0x08A || o == 0x08B then (if t == .f64 then 16 else 4)
    else if 0x090 ≤ o && o ≤ 0x096 then 4
    else if 0x108 ≤ o && o ≤ 0x10A then 2
    else if 0x080 ≤ o && o ≤ 0x102 then (if t == .f64 || t == .f32x2 then 2 else 1)
    else 1

/-- The word that selection takes a fragment to stand at when its own cannot be read or is illegal: the scalar issue
carries the trap or the page request of its fetch (R345, R355). -/
def unreadable : Instr :=
  let none' : Src := ⟨.none, .packed, false, false⟩
  .nop ⟨⟨0#4, ⟨false, 7#3⟩, .none, none', none', none', .b32, 0#32⟩, 7#3, false, 0#4, false, false, 0#3⟩

/-- The fragments of a quadrant. -/
def quadFrags (s : State) (k q : Nat) : List Ctx :=
  match s.block? k with
  | none => []
  | some b =>
    (b.groups.flatMap fun g => g.frags.filterMap fun f => s.ctx? (.frag k g.index f.fid)).filter fun c =>
      quadOf c.g.width c.warp == q

/-- The issue that an instruction uses is not held (R71). -/
def portFree (s : State) (k q : Nat) (i : Instr) : Bool :=
  decide (tblGet 0 (if scalarIssue i then (s.core k).heldS else (s.core k).held) q ≤ s.clock)

/-- The fragments of a quadrant that have an issue opportunity, each with the instruction it stands at (R71). -/
def opportunities (s : State) (k q : Nat) : List (Ctx × Instr) :=
  (quadFrags s k q).filterMap fun c =>
    if ready s c then
      let i := (peekInstr s c).getD unreadable
      if portFree s k q i then some (c, i) else none
    else none

/-- The table entry of a resident fragment. -/
def entryOf (f : Frag) : Nat :=
  match f.slot with
  | .entry i => i
  | .spilled i => 8 + i
  | .outside => 40

/-- The order of R71: more missed opportunities first, then the lower warp, then the lower entry. -/
def before (x y : Ctx) : Bool :=
  decide (y.f.missed < x.f.missed) ||
    (x.f.missed == y.f.missed && (decide (x.warp < y.warp) || (x.warp == y.warp && decide (entryOf x.f < entryOf y.f))))

/-- The first of a list by the order of R71. -/
def best : List (Ctx × Instr) → Option (Ctx × Instr)
  | [] => none
  | x :: xs =>
    match best xs with
    | none => some x
    | some y => if before y.1 x.1 then some y else some x

/-- The fragments that a quadrant issues in a core cycle, of those that have an opportunity (R71, R399): the selected one,
and the longest-waiting other one that uses the other issue. -/
def pickOf (cs : List (Ctx × Instr)) : List (Ctx × Instr) :=
  match best cs with
  | none => []
  | some x =>
    match best (cs.filter fun y => y.1.agent != x.1.agent && scalarIssue y.2 != scalarIssue x.2) with
    | none => [x]
    | some y => [x, y]

/-- The instructions whose half-issues of a width-64 pair take effect one after the other (R30): those that each lane executes
for itself, on its own registers and predicates and on what it reads from memory. DEDUCED: every other one takes effect with its
first half-issue: a cross-lane instruction reads the lanes of both halves, a scalar one executes once, and what a store
or a strand-ending instruction does is not its lanes' own (log entry 125). -/
def halfwise (i : Instr) : Bool :=
  !scalarIssue i && !writesS i &&
  match i with
  | .iadd _ | .iaddx _ | .isub _ | .imul _ | .imulh _ | .imad _ | .imin _ | .imax _ | .iabs _ | .ineg _ | .icmp _ | .lea _
  | .and _ | .or _ | .xor _ | .not _ | .tern _ | .shl _ | .shr _ | .sar _ | .rol _ | .funsh _ | .bfx _ | .bfi _ | .popc _
  | .clz _ | .brev _ | .bytx _ | .mov _ | .sel _ | .cvti _ => true
  | .fadd _ | .fmul _ | .ffma _ | .fmin _ | .fmax _ | .fcmp _ | .frnd _ | .fcvt _ | .f2i _ | .i2f _ | .fdiv _ | .fsqrt _
  | .frcp _ | .frsq _ | .fexp2 _ | .flog2 _ | .fsin _ | .fcos _ | .ftanh _ | .fclass _ | .fscalb _ | .ffrexp _
  | .dot2 _ | .dot4 _ | .dot8 _ | .qcvt _ | .dqcvt _ | .sclmax _ => true
  | .plop _ | .s2p _ | .rqry _ | .fmtget _ | .fmtgetSrs _ => true
  | .ld _ | .land _ | .lds _ | .ldc _ | .gath _ | .mbtst _ => true
  | _ => false

/-- The core cycles for which an issue is held from a selection on, by what was picked for it (R30, R191, R399); one where
nothing was. The half-issues of a fragment hold it one after the other. -/
def holdOf (picks : List (Ctx × Instr)) (scalar : Bool) : Nat :=
  match picks.find? fun x => scalarIssue x.2 == scalar with
  | none => 1
  | some x => x.1.halves * (if scalar then 1 else occupancy x.2)

/-- An issue of a quadrant held until a tick, or longer where an earlier instruction holds it (R191). -/
def holdTill (held : Tbl Nat) (q t : Nat) : Tbl Nat := tblSet 0 held q (max t (tblGet 0 held q))

/-- What a selection leaves (R71): the missed opportunities counted, and both issues held, so that the quadrant selects once
in a core cycle; an occupancy that still runs goes on (R191, R399). -/
def quadCount (s : State) (k q : Nat) (cs picks : List (Ctx × Instr)) : State :=
  if picks.isEmpty then s
  else
    let s := cs.foldl (fun s x =>
      if picks.any fun y => y.1.agent == x.1.agent then s
      else s.mapFrag x.1.agent fun f => { f with missed := f.missed + 1 }) s
    let c := s.core k
    s.setCore k { c with held := holdTill c.held q (s.clock + coreTicks (holdOf picks false))
                         heldS := holdTill c.heldS q (s.clock + coreTicks (holdOf picks true)) }

/-- A fragment as the load queue sees it (R72): while it is spilled and ready, since when. -/
def Frag.noted (s : State) (c : Option Ctx) (f : Frag) : Frag :=
  match f.slot, c with
  | .spilled _, some c => { f with readySince := if able s c then some (f.readySince.getD s.clock) else none }
  | _, _ => { f with readySince := none }

/-- The spilled fragments of a core's block that have become ready noted (R72). -/
def noteReady (s : State) (k : Nat) : State :=
  match s.block? k with
  | none => s
  | some b =>
    s.setBlock k { b with groups := b.groups.map fun g =>
      { g with frags := g.frags.map fun f => f.noted s (s.ctx? (.frag k g.index f.fid)) } }

/-! ### Time -/

/-- A YIELD that ends early: no other fragment of its quadrant is ready, resident or spilled (R185). -/
def yieldOver (s : State) (c : Ctx) : Bool :=
  match c.agent with
  | .frag k _ _ => (quadFrags s k (quadOf c.g.width c.warp)).all fun x => x.agent == c.agent || x.f.slot == .outside || !able s x
  | _ => false

/-- A queue has work that its watchdog times: it is enabled, its watchdog set, an entry uncompleted
(R382). -/
def Queue.watched (q : Queue) : Bool := q.en && q.wdt != 0#16 && q.entries.any fun e => e.begun && !e.completed

end Sys2Proof.Machine
end

