-- ==== Sys2Proof/Machine/Rejoin.lean ====
section
/-! DEFINITION. Fragments in their tables (R61 to R63), rejoin registers (R65 to R70), and the places of
spilled and loaded fragments (R72). -/

namespace Sys2Proof.Machine

/-! ### Rejoin images (R65) -/

/-- RPC: the PC of the RJWAIT. -/
def RejReg.rpc (r : RejReg) : Nat := bitField r.img.toNat 48 16 * 16
/-- DEPTH. -/
def RejReg.depth (r : RejReg) : Nat := bitField r.img.toNat 43 5
/-- The outer rejoin register: OJ where OV is 1. -/
def RejReg.outer (r : RejReg) : Option Nat := if testBit r.img.toNat 42 then some (bitField r.img.toNat 39 3) else none
/-- FMTR. -/
def RejReg.fmtr (r : RejReg) : W32 := ofFmt7 (bitField r.img.toNat 32 7)
/-- MASK over 64 lanes. -/
def RejReg.mask (r : RejReg) : W64 := BitVec.ofNat 64 (r.img.toNat % 2 ^ 32 + r.hi.toNat * 2 ^ 32)
/-- The register with another MASK; a MASK of zero makes it empty. -/
def RejReg.setMask (r : RejReg) (m : W64) : RejReg :=
  { r with img := BitVec.ofNat 64 (r.img.toNat / 2 ^ 32 * 2 ^ 32 + m.toNat % 2 ^ 32), hi := BitVec.ofNat 32 (m.toNat / 2 ^ 32) }

/-- The image that RJSET writes (R66). -/
def RejReg.make (rpc depth : Nat) (carried : Option Nat) (fmt : W32) (m : W64) : RejReg where
  img := BitVec.ofNat 64 (rpc / 16 % 65536 * 2 ^ 48 + depth % 32 * 2 ^ 43 +
    (match carried with
     | some j => 2 ^ 42 + j % 8 * 2 ^ 39
     | none => 0) + fmt7 fmt * 2 ^ 32 + m.toNat % 2 ^ 32)
  hi := BitVec.ofNat 32 (m.toNat / 2 ^ 32)
  arrival := none

/-- A fragment at an RJWAIT on `j` matches the register (R67). -/
def RejReg.fits (r : RejReg) (j : Nat) (f : Frag) : Bool :=
  r.mask != 0#64 && f.pc == r.rpc && f.depth == r.depth && f.carried == some j

/-! ### Places of fragments -/

/-- The fragments of a group that are in its warp. -/
def Group.inside (g : Group) : List Frag := g.frags.filter fun f => f.slot != .outside

/-- The fragments of a block that share a warp, or a pair, with a group. -/
def Block.shared (b : Block) (width index : Nat) : List Frag :=
  (b.groups.filter fun g => shareWarp width index g.index).flatMap Group.inside

/-- The residency units taken in a quadrant (R61). -/
def Block.units (b : Block) (q : Nat) : Nat :=
  b.groups.foldl (fun a g =>
    if quadOf g.width ((warpsOf g.width g.index).headD 0) == q then
      a + (g.frags.filter fun f => match f.slot with
        | .entry _ => true
        | _ => false).length * (if g.width == 64 then 2 else 1)
    else a) 0

/-- A free table entry of a warp (R61). DESIGN CHOICE: the lowest one; the rule says which of none. -/
def freeEntry (fs : List Frag) : Option Nat := (List.range 8).find? fun i => !(fs.any fun f => f.slot == .entry i)
/-- A free spill slot of a warp (R62). DESIGN CHOICE: the lowest one; the rule says which of none. A warp of 32 fragments needs
the 24 slots of its area while 8 of them are resident; where the quadrant's units leave it fewer, the others take numbers from
24 on, which the area does not show. -/
def freeSpill (fs : List Frag) : Nat :=
  ((List.range (fs.length + 1)).find? fun i => !(fs.any fun f => f.slot == .spilled i)).getD fs.length

/-- The place of a new fragment: a free entry with a free unit, else a spill slot (R61, R64). -/
def Block.place (b : Block) (width index : Nat) : Slot :=
  let fs := b.shared width index
  let q := quadOf width ((warpsOf width index).headD 0)
  let need := if width == 64 then 2 else 1
  match freeEntry fs with
  | some i => if b.units q + need ≤ 64 then .entry i else .spilled (freeSpill fs)
  | none => .spilled (freeSpill fs)

/-- The number of fragments that each warp of a quadrant counts for the budget (R63). -/
def Block.fragCount (b : Block) (h : Nat) : Nat :=
  (b.groups.filter fun g => (warpsOf g.width g.index).contains h).foldl (fun a g => a + g.inside.length) 0

/-- A warp may hold a new fragment (R63). -/
def Block.maySplit (b : Block) (width index : Nat) : Bool :=
  let q := quadOf width ((warpsOf width index).headD 0)
  let mine := warpsOf width index
  let hs := (List.range b.warps.length).filter fun h => quadOf b.kern.w h == q
  let total := hs.foldl (fun a h => a + max (b.fragCount h + bit (mine.contains h)) 16) 0
  decide ((b.shared width index).length < 32) && decide (total ≤ 256)

/-- The group without a fragment. -/
def Group.dropFrag (g : Group) (fid : Nat) : Group := { g with frags := g.frags.filter fun f => f.fid != fid }
/-- The group with one more fragment. -/
def Group.addFrag (g : Group) (f : Frag) : Group := { g with frags := g.frags ++ [f] }

/-- The agent of a fragment at a site. -/
def siteAgent (x : Site) (fid : Nat) : Agent :=
  match x with
  | .grp c g => .frag c g fid
  | .ej c t => .ejected c t
  | .hm p => .hm p

/-! ### Waiting and fusing -/

/-- The fragment that waits on a rejoin register, if one does (R67). -/
def Group.waiter (g : Group) (j : Nat) : Option Frag :=
  g.frags.find? fun f => f.wait == .rejoin j && f.stop.isNone

/-- A lane covers a rejoin mask: it waits on the register, has exited, or is absent (R67). -/
def Group.covers (g : Group) (j l : Nat) : Bool :=
  let t := g.lane l
  !t.present || t.exited ||
    (match g.waiter j with
     | some f => f.mask.getLsbD l
     | none => false)

/-- The lanes of a rejoin mask that are not covered. -/
def Group.uncovered (g : Group) (j : Nat) : W64 :=
  lanesMask ((maskLanes (g.rej j).mask).filter fun l => !g.covers j l)

/-- A waiting fragment past its RJWAIT, with the FMT and carried register of an image (R67 to R70). -/
def Frag.past (f : Frag) (r : RejReg) : Frag :=
  { f.goTo (f.pc + 16) (some (.strand 2 f.pc)) with
    fmt := r.fmtr, carried := r.outer, rst := { f.rst with fmt := r.fmtr } }

/-- fuse(Jx) of R67, ready 24 core cycles after `now`. -/
def Group.fuse (g : Group) (j now : Nat) (left : W64) : Group :=
  match g.waiter j with
  | none => g
  | some f =>
    let r := g.rej j
    let f := f.past r
    let f := { f with xemp := false, rst := { f.rst with xemp := false }, readyAt := now + coreTicks 24 }
    (g.setFrag f).setRej j { r.setMask left with arrival := none }

/-- The cover of a register tested, and its fragment fused when it is complete (R67). -/
def Group.testCover (g : Group) (now j : Nat) : Group :=
  if (g.waiter j).isSome && g.uncovered j == 0#64 then g.fuse j now 0#64 else g

/-- Every wait of a group tested: after an exit or a return. -/
def Group.testCovers (g : Group) (now : Nat) : Group := (List.range 8).foldl (fun g j => g.testCover now j) g

/-- A waiting fragment re-examined after a write of its register (R66, R70). -/
def Group.reexamine (g : Group) (now j : Nat) (fromSet : Bool) (limit : Nat) : Group :=
  match g.waiter j with
  | none => g
  | some f =>
    let r := g.rej j
    if r.fits j f then
      (if fromSet then g.setRej j { r with arrival := some (now, limit) } else g).testCover now j
    else (g.setFrag (f.past r)).setRej j { r with arrival := none }

/-- The wider of two release marks, where there is one (R127). -/
def joinMarks (x y : Option Scope) : Option Scope :=
  match x, y with
  | some a, some b => some (scopeMax a b)
  | some a, none => some a
  | none, b => b

/-- An arriving fragment joined to the waiting one (R67); the mark it brings is part of the strand state that an abort
restores (R127). DESIGN CHOICE: its XEMP is the first waiting one's. -/
def Frag.join (w f : Frag) : Frag :=
  { w with
    mask := w.mask ||| f.mask
    shrink := w.shrink.or f.shrink
    ovfClear := w.ovfClear || f.ovfClear
    mark := joinMarks w.mark f.mark
    rst := { w.rst with mark := joinMarks w.rst.mark f.mark } }

/-- The timeout of a partition in ticks: RJTMO × 256 core cycles, 0 acting as 1 (R68, R73). -/
def rejoinLimit (part : Part) : Nat := coreTicks (256 * max 1 (bitField part.divctl.toNat 16 8))

/-- A fragment that begins to wait on `j` (R67): it waits, and joins the fragment waiting there. -/
def Group.beginWait (g : Group) (f : Frag) (j now limit : Nat) : Group :=
  let f := { f with wait := .rejoin j, committed := true
                    rst := { pc := f.pc, sid := f.rst.sid, fmt := f.fmt, xemp := f.xemp, mark := f.mark } }
  match g.waiter j with
  | some w => ((g.dropFrag f.fid).setFrag (w.join f))
  | none => (g.setFrag f).setRej j { g.rej j with arrival := some (now, limit) }

/-- The rejoin cycle of R69: every present, unexited lane waits in RJWAIT and none is ejected. -/
def Group.deadlocked (g : Group) : Bool :=
  let waits (l : Nat) : Bool := g.frags.any fun f => f.mask.getLsbD l && f.stop.isNone &&
    (match f.wait with
     | .rejoin _ => true
     | _ => false)
  (List.range g.lanes.length).all fun l =>
    let t := g.lane l
    !t.present || t.exited || (!t.away && waits l)

/-- One waiting fragment released by R69: its record, and its stop where RJDTE = 1 (R340). -/
def releaseDead (s : State) (x : Site) (p : Frag × Nat) : State :=
  let (f, j) := p
  let a := siteAgent x f.fid
  let s := s.mapGroup a fun g => (g.setFrag (f.past (g.rej j))).setRej j { (g.rej j).setMask 0#64 with arrival := none }
  match s.ctx? a with
  | none => s
  | some c =>
    if testBit (s.part c.part).divctl.toNat 24 then takeTrap s c { cause := .rjdead, detail := j }
    else s.post c.part .ifArmed { (s.recOf c .rjdead).restart s c c.f with detail := j, fpc := c.f.pc }

/-- The release of R69 where it applies: the status bit RJDS, then every waiting fragment. -/
def State.testCycle (s : State) (x : Site) : State :=
  match s.group? x with
  | none => s
  | some g =>
    if g.deadlocked then
      let ws := g.frags.filterMap fun f => match f.wait with
        | .rejoin j => some (f, j)
        | _ => none
      if ws.isEmpty then s
      else
        let s := match x with
          | .grp c gi => (warpsOf g.width gi).foldl (fun s h => s.mapWarp c h fun w => { w with rjds := true }) s
          | _ => s
        ws.foldl (fun s p => releaseDead s x p) s
    else s

/-- The start of a wait as a rejoin register records it (R68, R341): the time, or in a suspended block the time waited, none. -/
def State.waitStart (s : State) (x : Site) : Nat :=
  match x with
  | .grp k _ =>
    (match s.block? k with
     | some b => if b.st == .suspended then 0 else s.clock
     | none => s.clock)
  | _ => s.clock

/-- A fragment issues RJWAIT `j` at its site (R67), committed already where it waits. -/
def State.arrive (s : State) (a : Agent) (part j : Nat) : State :=
  let x := agentSite a
  match s.group? x with
  | none => s
  | some g =>
    match g.frag? (agentFid a) with
    | none => s
    | some f =>
      if (g.rej j).fits j f then
        let s := (s.commit a).recordSrs a
        let limit := rejoinLimit (s.part part)
        let s := s.mapGroup a fun g =>
          match g.frag? f.fid with
          | some f => (g.beginWait f j (s.waitStart x) limit).testCover s.clock j
          | none => g
        s.testCycle x
      else s.mapFrag a fun f => f.goTo (f.pc + 16) (some (.strand 2 f.pc))

/-- RJTMO (R68, R341): a wait not covered within its limit fuses its waiters and reduces the mask. -/
def execRjtmo (core group j : Nat) (s : State) : Out :=
  match s.block? core, s.group? (.grp core group) with
  | some b, some g =>
    match g.waiter j, (g.rej j).arrival with
    | some f, some (t, limit) =>
      if b.st == .running && decide (t + limit ≤ s.clock) then
        let u := g.uncovered j
        let a := Agent.frag core group f.fid
        let s := s.setGroup (g.fuse j s.clock u) (.grp core group)
        match s.ctx? a with
        | none => .next s
        | some c =>
          .next (s.post c.part .ifArmed { (s.recOf c .rjtmo).restart s c c.f with
            detail := j, addr := u.toNat, fpc := f.pc })
      else .next s
    | _, _ => .next s
  | _, _ => .next s

/-! ### Loading spilled fragments (R72) -/

/-- The contexts of the fragments of a quadrant that may be evicted: resident ones, not stopped, that have issued since they
were loaded (R72, R323). -/
def evictable (s : State) (core q width index : Nat) (sameWarp : Bool) : List Ctx :=
  (quadFrags s core q).filter fun c =>
    c.f.issued && c.f.stop.isNone && (!sameWarp || shareWarp width index c.g.index) &&
      (match c.f.slot with
       | .entry _ => true
       | _ => false)

/-- The order of eviction: a waiting fragment first, then the earliest loaded, the lower group, the lower
entry. -/
def evictBefore (s : State) (x y : Ctx) : Bool :=
  let wx := !able s x
  let wy := !able s y
  if wx != wy then wx
  else decide (x.f.loaded < y.f.loaded) || (x.f.loaded == y.f.loaded &&
    (decide (x.g.index < y.g.index) || (x.g.index == y.g.index && decide (entryOf x.f < entryOf y.f))))

/-- The first of a list by an order. -/
def firstBy {α : Type} (lt : α → α → Bool) : List α → Option α
  | [] => none
  | x :: xs =>
    match firstBy lt xs with
    | none => some x
    | some y => if lt y x then some y else some x

/-- The block with a fragment of a group changed. -/
def Block.mapFrag (b : Block) (gi fid : Nat) (k : Frag → Frag) : Block :=
  { b with groups := b.groups.map fun g =>
      if g.index == gi then { g with frags := g.frags.map fun f => if f.fid == fid then k f else f } else g }

/-- The queue of a quadrant's spilled ready fragments: the one that became ready first in front (R72). DESIGN CHOICE: of
those that became ready in one core cycle, the lowest group's first. -/
def loadHead (s : State) (core quad : Nat) : Option Ctx :=
  let since (c : Ctx) : Nat := c.f.readySince.getD s.clock
  firstBy (fun x y => decide (since x < since y)) ((quadFrags s core quad).filter fun c =>
    (match c.f.slot with
     | .spilled _ => true
     | _ => false) && able s c)

/-- The recalled lanes of a quadrant for which their warps have room now enter them (R61, R63, R80). -/
def Block.letInside (b : Block) (quad : Nat) : Block :=
  ((b.groups.filter fun g => quadOf g.width ((warpsOf g.width g.index).headD 0) == quad).flatMap fun g =>
    (g.frags.filter fun f => f.slot == .outside).map fun f => (g, f.fid)).foldl (fun (b : Block) x =>
      if b.maySplit x.1.width x.1.index then
        b.mapFrag x.1.index x.2 fun f => { f with slot := b.place x.1.width x.1.index }
      else b) b

/-- The recalled lanes of a running block's quadrant admitted. -/
def State.letInside (s : State) (core quad : Nat) : State :=
  match s.block? core with
  | some b =>
    if b.st == .running && b.groups.any fun g => g.frags.any fun f => f.slot == .outside then s.setBlock core (b.letInside quad) else s
  | none => s

/-- FRAGMENT_LOAD (R72): the spilled ready fragment that became ready first is loaded; a place is freed by
an eviction where none is free. -/
def execFragmentLoad (core quad : Nat) (s : State) : Out :=
  let s := s.letInside core quad
  match s.block? core, loadHead s core quad with
  | some b, some c =>
    let gi := c.g.index
    let width := b.kern.w
    let victim := firstBy (evictBefore s) (evictable s core quad width gi (freeEntry (b.shared width gi)).isNone)
    let (n, s) := s.fresh
    let load (b : Block) (e : Nat) : State :=
      s.setBlock core (b.mapFrag gi c.f.fid fun x => { x with slot := .entry e, loaded := n, issued := false, readySince := none })
    match b.place width gi with
    | .entry e => .next (load b e)
    | _ =>
      match victim with
      | none => .next s
      | some v =>
        let freed := b.mapFrag gi c.f.fid fun x => { x with slot := .outside }
        let slot := freeSpill (freed.shared width v.g.index)
        let b' := b.mapFrag v.g.index v.f.fid fun x => { x with slot := .spilled slot }
        match b'.place width gi with
        | .entry e => .next (load b' e)
        | _ => .next s
  | _, _ => .next s

end Sys2Proof.Machine
end

