-- ==== Sys2Proof/Machine/Addressing.lean ====
section
/-! DEFINITION. Places and addresses: the place table (R294), scratchpad addresses (R103, R359), the
addresses of R214, the shape of items (R216), and the alignment checks of R347. -/

namespace Sys2Proof.Machine

/-! ### The place table (R294) -/

/-- A word of the place table of a virtual device at a byte offset. -/
def Vd.placeWord (v : Vd) (off : Nat) : Nat := (tblGet 0#32 v.place off).toNat

/-- The physical cluster of a logical cluster index, where its entry is valid; a poisoned entry acts as CV = 0
(R388). -/
def Vd.cluster? (v : Vd) (i : Nat) : Option Nat :=
  let x := v.placeWord (64 * i)
  if testBit x 31 && !(v.placeBad.any fun o => o / 64 == i) then some (x % 64) else none

/-- The byte of logical core `k` in the entry of a logical cluster. -/
def Vd.coreByte (v : Vd) (i k : Nat) : Nat := bitField (v.placeWord (64 * i + 32 + k / 4 * 4)) (8 * (k % 4)) 8

/-- The physical core of a logical core, where it is mapped. -/
def Vd.core? (v : Vd) (i k : Nat) : Option Nat :=
  match v.cluster? i with
  | none => none
  | some c => if testBit (v.coreByte i k) 7 then some (32 * c + v.coreByte i k % 32) else none

/-- The physical die that holds a logical die (R284): that of logical cluster index 2d, else 2d + 1. -/
def Vd.die? (v : Vd) (d : Nat) : Option Nat := ((v.cluster? (2 * d)).or (v.cluster? (2 * d + 1))).map (· / 2)

/-- The registers of the virtual device of a context. -/
def State.vdOf (s : State) (c : Ctx) : Vd := s.vd c.fe c.vd

/-! ### Scratchpad addresses -/

/-- A scratchpad address resolved to a core and an offset, or the DETAIL of SPADDR (R103, R359). -/
def scratchAt (s : State) (fe vd home lclu : Nat) (size addr : Nat) : (Nat × Nat) ⊕ Nat :=
  let window := testBit addr 31
  let k := bitField addr 24 5
  let off := bitField addr 0 19
  if bitField addr 29 2 != 0 || bitField addr 19 5 != 0 || (!window && k != 0) then .inr 0
  else if !window then (if off < size then .inl (home, off) else .inr 1)
  else
    match (s.vd fe vd).core? lclu k with
    | none => .inr 2
    | some core =>
      match s.block? core with
      | none => .inr 3
      | some b =>
        if b.fe != fe || b.vd != vd || b.st == .suspended then .inr 3
        else if off < b.kern.scratch then .inl (core, off) else .inr 1

/-- A scratchpad address of an issuer. -/
def State.scratch (s : State) (c : Ctx) (addr : Nat) : (Nat × Nat) ⊕ Nat :=
  match s.block? c.core with
  | none => .inr 3
  | some b => scratchAt s c.fe c.vd c.core b.lclu c.kern.scratch addr

/-! ### Addresses of an instruction (R214) -/

/-- A global virtual address: the pair A plus the signed offset. -/
def Ctx.globalVa (c : Ctx) (l : Nat) (a : Opnd) (imm : W32) : W64 :=
  BitVec.ofNat 64 (c.regs l a 2) + imm.signExtend 64

/-- A scratchpad address: the register A plus the signed offset. -/
def Ctx.spAddr (c : Ctx) (l : Nat) (a : Opnd) (imm : W32) : Nat := ((c.reg l a 0) + imm).toNat

/-- The bytes that an access of a memory word moves (R216). -/
def accessBytes (w : MemOp) : Nat := if w.ty == .q4 then 1 else cntItems w.cnt * w.ty.itemBytes

/-- An access of a `.q4` store is never misaligned; every other one is aligned to its total (R216). -/
def misaligned (w : MemOp) (a : Nat) : Bool := w.ty != .q4 && a % accessBytes w != 0

/-- MISALN (R347) at a faulting address (R326). -/
def misalnTrap (a : Nat) : TrapInfo := { cause := .misaln, addr := a }

/-- The address of the lowest of some lanes that breaks an alignment. -/
def firstBreach (bad : Nat → Bool) (as : List Nat) : Nat := (as.find? bad).getD 0

/-! ### Items (R216) -/

/-- The register words of one loaded item. -/
def itemWords (t : Ty) (x : Nat) : List W32 :=
  if t.isPair then words 64 x
  else if t.isSignedInt then [BitVec.ofNat 32 (wrap 32 (toSigned t.width x))]
  else [BitVec.ofNat 32 (x % 2 ^ t.width)]

/-- The register words of `cnt` items in bytes; bytes that are not there read as 0 (R219). -/
def loadWords (t : Ty) (cnt : Nat) (bs : List Byte) : List W32 :=
  (List.range cnt).flatMap fun k => itemWords t (leNat ((bs.drop (k * t.itemBytes)).take t.itemBytes))

/-- The bytes that a store of data registers moves: the low bytes of each item, after the modifier (R214,
R216). -/
def storeBytes (c : Ctx) (l : Nat) (t : Ty) (x : Src) (cnt : Nat) : List Byte :=
  (List.range cnt).flatMap fun k =>
    let v := packElements 32 ((List.range t.regs).map fun r => (c.reg l x.op (k * t.regs + r)).toNat)
    leBytes t.itemBytes (if t.isPair then v else applyModif x.modif t.width v)

/-- The code of a `.q4` store: the low four bits of the modified data. -/
def nibbleOf (c : Ctx) (l : Nat) (x : Src) : BitVec 4 :=
  BitVec.ofNat 4 (applyModif x.modif 4 (c.reg l x.op 0).toNat)

/-- The parameters of a post-increment (R222): the step and the buffer size. -/
def postStep (imm : W32) : W32 × Nat := ((imm >>> 16).setWidth 16 |>.signExtend 32, 2 ^ (imm.toNat % 32))

/-- The base register after a post-increment (R222). -/
def postNext (a : W32) (imm : W32) : W32 :=
  let (step, m) := postStep imm
  let mask : W32 := BitVec.ofNat 32 (m - 1)
  (a &&& ~~~mask) ||| ((a + step) &&& mask)

/-! ### Own stores (R55, R121) -/

/-- Where a store item writes, for an address of global memory or of the scratchpad of a core. -/
def SItem.base (i : SItem) (glob : Bool) (core : Nat) : Option Nat :=
  match i.place with
  | .glob pa _ _ _ _ => if glob then some pa else none
  | .scratch k o => if !glob && k == core then some o else none

/-- The addresses that a store item writes. -/
def SItem.span (i : SItem) (glob : Bool) (core : Nat) : List Nat :=
  match i.base glob core with
  | none => []
  | some b => upFrom b i.size

/-- Bytes by their address, with those that a store item writes replaced (R120, R131). -/
def SItem.onView (i : SItem) (glob : Bool) (core : Nat) (t : Tbl Byte) : Tbl Byte :=
  match i.base glob core with
  | none => t
  | some b =>
    let bs : List Byte :=
      match i.act with
      | .bytes bs => bs
      | .nibble high code => [BitVec.ofNat 8 (withNibble high code (tblGet 0#8 t b).toNat)]
      | .atomic aop ty v =>
        if i.beaten then [] else leBytes (atomicBytes ty) (atomicOp aop ty (leNat ((upFrom b (atomicBytes ty)).map (tblGet 0#8 t))) v.toNat 0)
    ((upFrom b bs.length).zip bs).foldl (fun t x => tblInsert t x.1 x.2) t

/-- An entry put before the later ones of a list. -/
def insertEntry (e : SEntry) : List SEntry → List SEntry
  | [] => [e]
  | x :: xs => if e.serial ≤ x.serial then e :: x :: xs else x :: insertEntry e xs

/-- The committed entries of an issuer's queues, in program order: those of the two queues of a width-64 pair merged. -/
def committed (s : State) (c : Ctx) : List SEntry :=
  match c.fifos.map s.fifo with
  | [] => []
  | q :: qs => qs.flatten.foldl (fun es e => insertEntry e es) q

/-- The store items of a lane of an issuer, oldest first: the committed ones, then the buffered ones (R55). -/
def ownItems (s : State) (c : Ctx) (l : Nat) : List SItem :=
  (committed s c ++ c.g.sbuf).flatMap fun e => e.items.filter fun i => i.owners.getLsbD (ownLane c.g.width c.g.index l)

/-- `n` bytes as a lane of an issuer sees them: its own stores over what memory holds (R55, R121); an atomic is computed
on the bytes below it. -/
def overlay (s : State) (c : Ctx) (l : Nat) (glob : Bool) (core a n : Nat) (below : Nat → Byte) : List Byte :=
  let own := (ownItems s c l).filter fun i => (i.base glob core).isSome
  let as := upFrom a n ++ own.flatMap fun i => i.span glob core
  let t := own.foldl (fun t i => i.onView glob core t) (as.foldl (fun t x => tblInsert t x (below x)) [])
  (upFrom a n).map (tblGet 0#8 t)

/-- A byte is written whole by entries of the lane itself, so that poison below it does not show. -/
def overlaid (s : State) (c : Ctx) (l : Nat) (glob : Bool) (core a : Nat) : Bool :=
  (ownItems s c l).any fun i =>
    match i.act with
    | .bytes _ => (i.span glob core).contains a
    | _ => false

/-! ### Appending to the strand buffer (R55, R332) -/

/-- The entries of the strand buffer that a hardware warp has in use (R55). -/
def sbufUsed (g : Group) (h : Nat) : Nat :=
  (g.sbuf.filter fun e => e.items.any fun i => warpOfLane g.width g.index i.lane == h).length

/-- SBOVF (R332, R347): no entry is free for a warp that has an acting lane, or for the group's half at
width 16. -/
def sbovf (c : Ctx) (ls : List Nat) : Option TrapInfo :=
  let hs := ls.map (warpOfLane c.g.width c.g.index)
  let limit := if c.g.width == 16 then 32 else 64
  (hs.find? fun h => decide (limit ≤ sbufUsed c.g h)).map fun h => { cause := .sbovf, detail := sbufUsed c.g h }

/-- The landing tags whose load is still to perform its acquire: later accesses of the fragment wait for them (R126,
R218). -/
def openAcquires (c : Ctx) : List Nat :=
  (List.range 16).filter fun t =>
    let x := c.g.tag t
    x.st == .pending && x.acq.isSome && x.belongs c.f.mask

/-- Those tags as a store entry records them. -/
def entryAcqs (c : Ctx) : List (Nat × Nat) := (openAcquires c).map fun t => (c.g.index, t)

/-- An item of a store for a lane; its owners are the lanes `all` of a scalar store, or the lane alone (R121). -/
def storeItem (c : Ctx) (all : List Nat) (l : Nat) (p : Place) (a : StoreAct) : SItem where
  lane := l
  owners := lanesMask ((if all.isEmpty then [l] else all).map (ownLane c.g.width c.g.index))
  place := p
  act := a
  beaten := false

/-- The lanes for which a scalar store acts; none for a store of its own in each lane (R45). -/
def sharers (c : Ctx) (w : Common) : List Nat := if w.operandsScalar then c.acting w.guard else []

/-- An entry appended to the strand buffer; it takes the release mark (R127). Its lines may be those replaced first (R215). -/
def State.append (s : State) (c : Ctx) (items : List SItem) (strong : Option Scope) (first : Bool) : State :=
  let (n, s) := s.fresh
  let owns (l : Nat) : Bool := items.any fun i => i.owners.getLsbD (ownLane c.g.width c.g.index l)
  let e : SEntry := { store := n, mask := lanesMask ((List.range c.g.width).filter owns), items := items, strong := strong, rel := c.f.mark,
                      bypass := c.level != .core, serial := 0, acqs := entryAcqs c, first := first }
  let s := s.mapGroup c.agent fun g => { g with sbuf := g.sbuf ++ [e] }
  s.mapFrag c.agent fun f => { f with mark := none }

/-- The strong scope of an access: none for a plain one. -/
def strongScope (c : Ctx) (w : MemOp) : Option Scope := if w.kind == .plain then none else some (c.scope w.scope)

/-- The place of a scratchpad byte for every lane of a list, or the trap of the first lane that fails
(R359). -/
def scratchLanes (s : State) (c : Ctx) (ak : Nat) : List (Nat × Nat) → (List (Nat × Nat × Nat)) ⊕ TrapInfo
  | [] => .inl []
  | (l, addr) :: rest =>
    match s.scratch c addr with
    | .inr d => .inr { cause := .spaddr, detail := d, addr := addr, ak := ak }
    | .inl p =>
      match scratchLanes s c ak rest with
      | .inr t => .inr t
      | .inl ps => .inl ((l, p.1, p.2) :: ps)

/-- The translations of the addresses of lanes in ascending order, or the outcome of the first that misses
or fails (R114, R356). -/
def translateLanes (c : Ctx) (acc : Access) (ak : Nat) (tag : Option Nat) :
    State → List (Nat × W64) → (List (Nat × W64 × TlbEntry) × State) ⊕ Out
  | s, [] => .inl ([], s)
  | s, (l, va) :: rest =>
    match translate s c va acc ak tag with
    | .inr o => .inr o
    | .inl (e, s) =>
      match translateLanes c acc ak tag s rest with
      | .inr o => .inr o
      | .inl (es, s) => .inl ((l, va, e) :: es, s)

/-- The place of a translated address. -/
def globPlace (e : TlbEntry) (va : W64) : Place := .glob (e.phys va.toNat) va.toNat e.pte e.base e.size

end Sys2Proof.Machine
end

