-- ==== Sys2Proof/Machine/Loads.lean ====
section
/-! DEFINITION. Loads: LD and its landing, LAND, LDS, LDC and GATH (R214 to R224). -/

namespace Sys2Proof.Machine

/-- The cluster whose slice an issuer's global accesses name; a harbourmaster's is that of BASE. -/
def State.clusterFor (s : State) (c : Ctx) : Nat := if c.level == .super then (s.part c.part).base else c.cluster

/-- A landing that is still to perform the acquire of its load: later accesses wait for it (R126, R218). -/
def acquirePending (c : Ctx) : Option Nat := (openAcquires c).head?

/-- A tile store of the fragment's lanes that its home die has accepted and not performed (R133). -/
def tilePending (c : Ctx) : Bool := c.g.tsts.any fun t => (t.mask &&& c.f.mask) != 0#64

/-- What an access must wait for before it performs. -/
def accessBlock (c : Ctx) : Option Wait :=
  match acquirePending c with
  | some t => some (.tag t)
  | none => if tilePending c then some .perform else none

/-- The state in which an access of an issuer goes past the slice of its cluster. -/
def State.pastSlice (s : State) (c : Ctx) (pa n : Nat) : State := if c.level == .super then s else s.evictLines c.cluster pa n

/-- A byte of global memory as a load of an issuer takes it (R109): through the slice of a core's cluster, or at the
memory-side cache. -/
def State.seenByte (s : State) (c : Ctx) (wide : Bool) (a : Nat) : Byte :=
  if c.level == .core && !wide then s.sliceByte c.cluster a else s.mscByte a

/-- The path of a load of `n` bytes (R109): the storage level of poison among them (R363), and the state in which they
can be read. -/
def loadGlobal (s : State) (c : Ctx) (wide fill : Bool) (pa n : Nat) : Option Nat × State :=
  if c.level == .core && !wide then
    (s.slicePoison? c.cluster pa n, s.sliceRead c.cluster pa n fill)
  else
    let s := (s.pastSlice c pa n).touchLines c.part pa n
    (s.memPoison? pa n, s)

/-- The lanes of a load taken in order: the bytes of each, with own stores over them (R55), and its poison
mark. -/
def takeLanes (c : Ctx) (wide fill : Bool) (n : Nat) :
    State → List (Nat × W64 × TlbEntry) → List (Nat × List Byte × Option Nat) × State
  | s, [] => ([], s)
  | s, (l, va, e) :: rest =>
    let pa := e.phys va.toNat
    let (p, s) := loadGlobal s c wide fill pa n
    let bs := overlay s c l true 0 pa n (s.seenByte c wide)
    let p := if (upFrom pa n).all fun a => overlaid s c l true 0 a then none else p
    let (rs, s) := takeLanes c wide fill n s rest
    ((l, bs, p) :: rs, s)

/-- The lines that lanes have read through the slice of their cluster marked first for replacement (R215). -/
def State.markRead (s : State) (c : Ctx) (n : Nat) (es : List (Nat × W64 × TlbEntry)) : State :=
  es.foldl (fun (s : State) x => s.markFirst c.cluster (x.2.2.phys x.2.1.toNat) n) s

/-- POL of a load or a store (R215): 0 normal, 1 `.cs`, 2 `.na`; a `.q4` store has none. -/
def polOf (w : MemOp) : Nat := if w.ty == .q4 then 0 else w.hint.toNat % 4

/-- LD (R218). -/
def execLd (w : MemOp) (s : State) : Out :=
  issuing s (.ld w) fun c =>
    let ls := c.units w.toCommon false
    let tag := w.tag.toNat
    let vas := ls.map fun l => (l, c.globalVa l w.a.op w.imm)
    if ls.isEmpty then finish s c
    else if (c.g.tag tag).st != .empty then trapOut s c { cause := .taguse, detail := tag, tag := some tag }
    else if vas.any fun x => misaligned w x.2.toNat then
      trapOut s c (misalnTrap (firstBreach (misaligned w) (vas.map (·.2.toNat))))
    else if ls.any fun l => c.poisoned l w.a.op 2 then trapOut s c poisonTrap
    else
      match accessBlock c with
      | some b => waiting s c b
      | none =>
        match translateLanes c .read 1 (some tag) s vas with
        | .inr o => o
        | .inl (es, s) =>
          let wide := w.kind != .plain && scopeWide w.scope
          let (rs, s) := takeLanes c wide (polOf w != 2) (accessBytes w) s es
          let s := if polOf w == 1 && c.level == .core && !wide then s.markRead c (accessBytes w) es else s
          let scalar := w.toCommon.operandsScalar
          let t : Tag :=
            { st := .pending
              mask := if scalar then lanesMask (c.acting w.guard) else lanesMask ls
              scalar := scalar
              data := rs.map fun r => (if scalar then 0 else r.1, r.2.1)
              bad := rs.filterMap fun r => r.2.2.map fun lv => (if scalar then 0 else r.1) + 64 * lv
              fresh := true
              acq := if w.kind == .acq then some (c.scope w.scope) else none }
          finish (s.mapGroup c.agent fun g => g.setTag tag t) c

/-- The second half-issue of a load into a tag is still to take place, so that its data is not all on its way (R30). -/
def Group.halfLoads (g : Group) (tag : Nat) : Bool :=
  g.frags.any fun f =>
    match f.half with
    | none => false
    | some h =>
      match h.instr with
      | .ld w => w.tag.toNat == tag
      | _ => false

/-- TAG_LANDED: the data of a pending load arrives (R49); an acquire load performs its acquire (R218). -/
def execTagLanded (a : Agent) (tag : Nat) (s : State) : Out :=
  match s.ctx? a with
  | none => .next s
  | some c =>
    let t := c.g.tag tag
    if t.st == .pending && !c.g.halfLoads tag then
      let s := match t.acq with
        | some sc => s.acquire c sc
        | none => s
      .next (s.mapGroup a fun g => g.setTag tag { t with st := .landed, acq := none })
    else .next s

/-- LAND (R219). -/
def execLand (w : MemOp) (s : State) : Out :=
  issuing s (.land w) fun c =>
    let ls := c.acting w.guard
    let tag := w.tag.toNat
    let t := c.g.tag tag
    if ls.isEmpty then finish s c
    else
      match t.st with
      | .empty => trapOut s c { cause := .taguse, detail := tag, tag := some tag }
      | .pending => waiting s c (.tag tag)
      | _ =>
        let both := if t.scalar then ls else ls.filter fun l => t.mask.getLsbD l
        let used := if writesScalar w.d then both.take 1 else both
        let key (l : Nat) : Nat := if t.scalar then 0 else l
        match t.bad.find? fun b => used.any fun l => key l == b % 64 with
        | some b => trapOut s c { cause := .poison, detail := b / 64, tag := some tag }
        | none =>
          let ws := used.flatMap fun l => destLocs w.d l (loadWords w.ty (cntItems w.cnt) (tblGet [] t.data (key l)))
          let g := (c.g.writeLocs ws).setTag tag { t with st := .consumed }
          finish (s.putGroup c g) c

/-- The base registers of a post-increment written (R222). -/
def postWrites (c : Ctx) (w : MemOp) (ls : List Nat) : List (RegLoc × W32) :=
  if w.amode == 1#2 then ls.flatMap fun l => destLocs w.a.op l [postNext (c.reg l w.a.op 0) w.imm] else []

/-- The scratchpad addresses of the lanes of LDS or STS (R221, R222). -/
def ldsAddrs (c : Ctx) (w : MemOp) (ls : List Nat) : List (Nat × Nat) :=
  ls.map fun l => (l, c.spAddr l w.a.op (if w.amode == 1#2 then 0#32 else w.imm))

/-- A load of the scratchpad in the shape of R216: it parks on an absent line (R105), stops on poison
(R364), and writes D, with lookahead (`look`) where its entry honours it. DESIGN CHOICE: the base is written first, so that where
D's registers hold it the loaded word stands. -/
def loadScratch (look : Bool) (s : State) (c : Ctx) (w : MemOp) (cnt n : Nat) (ls : List Nat) (addrs : List (Nat × Nat))
    (post : List (RegLoc × W32)) (acq : Option Scope) : Out :=
  match accessBlock c with
  | some b => waiting s c b
  | none =>
    match scratchLanes s c 1 addrs with
    | .inr t => trapOut s c t
    | .inl ps =>
      match ps.findSome? fun p => ((s.core p.2.1).absentLine p.2.2 n).map fun line => (p.2.1, line) with
      | some (k, line) => waiting s c (.line k line)
      | none =>
        let bad (p : Nat × Nat × Nat) : Bool := (s.core p.2.1).scratchPoisoned p.2.2 n &&
          !((upFrom p.2.2 n).all fun a => overlaid s c p.1 false p.2.1 a)
        match ps.find? bad with
        | some p => trapOut s c { cause := .poison, detail := 1, addr := (addrs.find? fun x => x.1 == p.1).elim 0 (·.2), ak := 1 }
        | none =>
          let ws := ps.flatMap fun p =>
            let bs := overlay s c p.1 false p.2.1 p.2.2 n (s.core p.2.1).scratchByte
            destLocs w.d p.1 (loadWords w.ty cnt bs)
          let g := c.g.writeLocs post
          let g := if look then g.result c.f.fid w.la.toNat ws else g.writeLocs ws
          let s := match acq with
            | some sc => s.acquire c sc
            | none => s
          if ls.isEmpty then finish s c else finish (s.putGroup c g) c

/-- LDS (R221, R222). -/
def execLds (w : MemOp) (s : State) : Out :=
  issuing s (.lds w) fun c =>
    let ls := c.units w.toCommon false
    let addrs := ldsAddrs c w ls
    if addrs.any fun x => misaligned w x.2 then trapOut s c (misalnTrap (firstBreach (misaligned w) (addrs.map (·.2))))
    else if ls.any fun l => c.poisoned l w.a.op 1 then trapOut s c poisonTrap
    else loadScratch true s c w (cntItems w.cnt) (accessBytes w) ls addrs (postWrites c w ls)
      (if w.kind == .acq && !ls.isEmpty then some (c.scope w.scope) else none)

/-- A byte of the constant bank; bytes at 768 and above read as 0 (R223). -/
def Ctx.bankByte (c : Ctx) (o : Nat) : Byte := if o < 768 then (c.bank (o / 4)).extractLsb' (8 * (o % 4)) 8 else 0#8

/-- LDC (R223). -/
def execLdc (w : MemOp) (s : State) : Out :=
  issuing s (.ldc w) fun c =>
    let ls := c.units w.toCommon false
    if ls.any fun l => misaligned w (c.spAddr l w.a.op w.imm) then
      trapOut s c (misalnTrap (firstBreach (misaligned w) (ls.map fun l => c.spAddr l w.a.op w.imm)))
    else
      aluLook s c w.toCommon false 7 [(w.a.op, 1)] fun l =>
        let o := c.spAddr l w.a.op w.imm
        { d := loadWords w.ty (cntItems w.cnt) ((upFrom o (accessBytes w)).map c.bankByte) }

/-- The index of GATH and SCAT, read by AMODE and SX (R224). -/
def indexOf (c : Ctx) (l : Nat) (w : MemOp) : Int :=
  let x := applyModif w.b.modif w.indexTy.width (c.reg l w.b.op 0).toNat
  if w.amode == 2#2 then (if w.hint.getLsbD 3 then toSigned 32 x else x)
  else (if w.hint.getLsbD 3 then toSigned 16 x else (x % 65536 : Nat))

/-- The scale SC of GATH and SCAT; 0 for `.q4` (R224). -/
def indexScale (w : MemOp) : Nat := if w.ty == .q4 then 1 else 2 ^ (w.hint.toNat % 8)

/-- The scratchpad address of GATH and SCAT (R224). -/
def gatherAddr (c : Ctx) (l : Nat) (w : MemOp) : Nat :=
  wrap 32 ((c.reg l w.a.op 0).toNat + indexOf c l w * (indexScale w : Nat) + toSigned 32 w.imm.toNat)

/-- GATH (R224). -/
def execGath (w : MemOp) (s : State) : Out :=
  issuing s (.gath w) fun c =>
    let ls := c.units w.toCommon false
    let addrs := ls.map fun l => (l, gatherAddr c l w)
    if addrs.any fun x => x.2 % w.ty.itemBytes != 0 then
      trapOut s c (misalnTrap (firstBreach (fun a => a % w.ty.itemBytes != 0) (addrs.map (·.2))))
    else if ls.any fun l => c.poisoned l w.a.op 1 || c.poisoned l w.b.op 1 then trapOut s c poisonTrap
    else loadScratch false s c w 1 w.ty.itemBytes ls addrs [] none

end Sys2Proof.Machine
end

