-- ==== Sys2Proof/Machine/Stores.lean ====
section
/-! DEFINITION. Buffered stores: ST, STS and SCAT (R220 to R224), and the drain of a FIFO store queue
(R121, R128). -/

namespace Sys2Proof.Machine

/-- What an item of a store word writes: a nibble, or the bytes of its items. -/
def storeAct (c : Ctx) (l : Nat) (t : Ty) (x : Src) (cnt : Nat) (nib : Bool) : StoreAct :=
  if t == .q4 then .nibble nib (nibbleOf c l x) else .bytes (storeBytes c l t x cnt)

/-- The release part of a `.rel` store comes before its own access (R126). -/
def relMark (s : State) (c : Ctx) (w : MemOp) : State × Ctx :=
  if w.kind == .rel || w.kind == .ar then
    let s := s.setMark c.agent (c.scope w.scope)
    (s, s.reread c)
  else (s, c)

/-- The common end of a store to global memory: resources, poison, translation, then the entry (R332,
R355, R364). -/
def storeGlobal (s : State) (c : Ctx) (w : MemOp) (acc : Access) (ak : Nat) (ls : List Nat) (vas : List (Nat × W64))
    (reads : List (Opnd × Nat)) (first : Bool) (act : Nat → StoreAct) : Out :=
  match sbovf c ls with
  | some t => trapOut s c t
  | none =>
    if ls.any fun l => reads.any fun o => c.poisoned l o.1 o.2 then trapOut s c poisonTrap
    else
      match translateLanes c acc ak none s vas with
      | .inr o => o
      | .inl (es, s) =>
        let (s, c) := relMark s c w
        let items := es.map fun x => storeItem c (sharers c w.toCommon) x.1 (globPlace x.2.2 x.2.1) (act x.1)
        finish (s.append c items (strongScope c w) first) c

/-- A granule among `n` bytes that a lane would read in a scratchpad is poisoned, and no own store covers it. -/
def seesPoison (s : State) (c : Ctx) (n : Nat) (p : Nat × Nat × Nat) : Bool :=
  (granules 8 p.2.2 n).any fun g => (s.core p.2.1).scratchBad.contains g &&
    !((upFrom (8 * g) 8).all fun a => overlaid s c p.1 false p.2.1 a)

/-- The common end of a store to a scratchpad; one that reads `old` bytes of its place, an ATOMS, stops on poison there
(R364). -/
def storeScratch (s : State) (c : Ctx) (w : MemOp) (old : Nat) (ls : List Nat) (addrs : List (Nat × Nat))
    (reads : List (Opnd × Nat)) (post : List (RegLoc × W32)) (act : Nat → StoreAct) : Out :=
  match sbovf c ls with
  | some t => trapOut s c t
  | none =>
    if ls.any fun l => reads.any fun o => c.poisoned l o.1 o.2 then trapOut s c poisonTrap
    else
      match scratchLanes s c 2 addrs with
      | .inr t => trapOut s c t
      | .inl ps =>
        match ps.find? (seesPoison s c old) with
        | some p => trapOut s c { cause := .poison, detail := 1, addr := (addrs.find? fun x => x.1 == p.1).elim 0 (·.2), ak := 3 }
        | none =>
          let items := ps.map fun p => storeItem c (sharers c w.toCommon) p.1 (.scratch p.2.1 p.2.2) (act p.1)
          let s := s.mapGroup c.agent fun g => g.writeLocs post
          let (s, c) := relMark s c w
          finish (s.append c items (strongScope c w) false) c

/-- ST (R220). -/
def execSt (w : MemOp) (s : State) : Out :=
  issuing s (.st w) fun c =>
    let ls := c.units w.toCommon false
    let vas := ls.map fun l => (l, c.globalVa l w.a.op w.imm)
    if ls.isEmpty then finish s c
    else if vas.any fun x => misaligned w x.2.toNat then
      trapOut s c (misalnTrap (firstBreach (misaligned w) (vas.map (·.2.toNat))))
    else storeGlobal s c w .write 2 ls vas [(w.a.op, 2), (w.b.op, w.storeSpan)] (polOf w != 0) fun l =>
      storeAct c l w.ty w.b (cntItems w.cnt) (w.hint.getLsbD 0)

/-- STS (R221, R222). -/
def execSts (w : MemOp) (s : State) : Out :=
  issuing s (.sts w) fun c =>
    let ls := c.units w.toCommon false
    let addrs := ldsAddrs c w ls
    if ls.isEmpty then finish s c
    else if addrs.any fun x => misaligned w x.2 then trapOut s c (misalnTrap (firstBreach (misaligned w) (addrs.map (·.2))))
    else storeScratch s c w 0 ls addrs [(w.a.op, 1), (w.b.op, w.storeSpan)] (postWrites c w ls) fun l =>
      storeAct c l w.ty w.b (cntItems w.cnt) (w.hint.getLsbD 0)

/-- SCAT (R224). -/
def execScat (w : MemOp) (s : State) : Out :=
  issuing s (.scat w) fun c =>
    let ls := c.units w.toCommon false
    let addrs := ls.map fun l => (l, gatherAddr c l w)
    if ls.isEmpty then finish s c
    else if addrs.any fun x => w.ty != .q4 && x.2 % w.ty.itemBytes != 0 then
      trapOut s c (misalnTrap (firstBreach (fun a => a % w.ty.itemBytes != 0) (addrs.map (·.2))))
    else storeScratch s c w 0 ls addrs [(w.a.op, 1), (w.b.op, 1), (w.c.op, w.ty.regs)] [] fun l =>
      storeAct c l w.ty w.c 1 (w.hint.getLsbD 0)

/-! ### The drain of a queue -/

/-- How a global item of an entry performs (R109): in a slice, through to the memory-side cache with the
slice updated, or at the memory-side cache with the line dropped from the home cluster's slice. -/
inductive Path where
  | slice (cl : Nat)
  | through (cl : Nat)
  | bypass (cl : Option Nat)
deriving DecidableEq, Repr

/-- The bytes at a physical address as a path reads them. -/
def State.pathRead (s : State) (p : Path) (pa n : Nat) : List Byte :=
  match p with
  | .slice cl => (upFrom pa n).map (s.sliceByte cl)
  | _ => s.mscRead pa n

/-- Bytes written by a path. DEDUCED: the lines of the home cluster's slice that an ejected lane writes, which R79 invalidates
at the return, are written back and invalidated as each of its writes drains, before any other access sees them. -/
def State.pathWrite (s : State) (p : Path) (pa : Nat) (bs : List Byte) : State :=
  match p with
  | .slice cl => s.sliceWrite cl pa bs
  | .through cl => s.throughWrite cl pa bs
  | .bypass (some cl) => ((granules 128 pa bs.length).foldl (fun (s : State) l => s.dropLine cl l) s).mscWrite pa bs
  | .bypass none => s.mscWrite pa bs

/-- The path of a store (R78, R109). -/
def storePath (bypass : Bool) (cl : Option Nat) (strong : Option Scope) : Path :=
  match cl with
  | none => .bypass none
  | some k =>
    if bypass then .bypass (some k)
    else
      match strong with
      | some sc => if scopeWide sc then .through k else .slice k
      | none => .slice k

/-- The path of an atomic (R109): in the slice, or at the memory-side cache after the line is written back
and invalidated. -/
def atomicPath (bypass : Bool) (cl : Option Nat) (strong : Option Scope) : Path :=
  match cl with
  | none => .bypass none
  | some k =>
    if bypass then .bypass (some k)
    else
      match strong with
      | some sc => if scopeWide sc then .bypass (some k) else .slice k
      | none => .slice k

/-- An indivisible read, change and write of global bytes (R131): the old value and the state. -/
def State.rmw (s : State) (p : Path) (pa n : Nat) (f : Nat → Nat) : Nat × State :=
  let s := match p with
    | .bypass (some cl) => (granules 128 pa n).foldl (fun (s : State) l => s.dropLine cl l) s
    | .slice cl => s.sliceRead cl pa n true
    | _ => s
  let o := leNat (s.pathRead p pa n)
  (o, s.pathWrite p pa (leBytes n (f o)))

/-- A scratchpad read, changed and written at once: the old value and the state. -/
def State.scratchRmw (s : State) (core off n : Nat) (f : Nat → Nat) : Nat × State :=
  let o := leNat ((s.core core).scratchRead off n)
  (o, s.scratchWrite core off (leBytes n (f o)))

/-- A 4-bit element written by a path, as one indivisible change of its byte (R120). -/
def State.pathNibble (s : State) (p : Path) (pa : Nat) (high : Bool) (code : BitVec 4) : State :=
  let msc (s : State) : State := s.mscWrite pa [BitVec.ofNat 8 (withNibble high code (s.mscByte pa).toNat)]
  match p with
  | .slice cl => if isHbm pa then (s.fillLine cl (pa / 128)).lineNibble cl pa high code true else s
  | .through cl => (msc s).lineNibble cl pa high code false
  | .bypass (some cl) => msc (s.dropLine cl (pa / 128))
  | .bypass none => msc s

/-- The lines that a store with `.cs` or `.na` has written in a slice marked first for replacement (R215). -/
def State.markWritten (s : State) (p : Path) (first : Bool) (pa n : Nat) : State :=
  match p with
  | .slice cl | .through cl => if first then s.markFirst cl pa n else s
  | .bypass _ => s

/-- One item performs at its destination, but one that another part of its store has beaten (R120); an item whose home die is lost is dropped (R360). DEDUCED: an ATOMS without D whose
granule has become poisoned since it issued leaves memory unchanged (R364), and its thread goes on. -/
def State.performItem (s : State) (die part : Nat) (cl : Option Nat) (e : SEntry) (i : SItem) : State :=
  if i.beaten then s
  else match i.place with
  | .glob pa _ _ _ _ =>
    if s.homeLost die pa then s
    else
      let p := storePath e.bypass cl e.strong
      let s := match p with
        | .slice _ => s
        | _ => s.touchLines part pa i.size
      match i.act with
      | .bytes bs => (s.pathWrite p pa bs).markWritten p e.first pa i.size
      | .nibble hi code => (s.pathNibble p pa hi code).markWritten p e.first pa i.size
      | .atomic aop t b => (s.rmw (atomicPath e.bypass cl e.strong) pa (atomicBytes t) fun o => atomicOp aop t o b.toNat 0).2
  | .scratch k off =>
    match i.act with
    | .bytes bs => s.scratchWrite k off bs
    | .nibble hi code => (s.scratchRmw k off 1 (withNibble hi code)).2
    | .atomic aop t b =>
      if (s.core k).scratchPoisoned off (atomicBytes t) then s
      else (s.scratchRmw k off (atomicBytes t) fun o => atomicOp aop t o b.toNat 0).2

/-- An item must wait: its line is absent (R105), or its page is held for capture (R116). -/
def itemWaits (s : State) (die space : Nat) (i : SItem) : Bool :=
  match i.place with
  | .glob pa _ pte _ _ => s.pageHeld space pte && !s.homeLost die pa
  | .scratch k off => ((s.core k).absentLine off i.size).isSome

/-- The owner of a queue: its die, partition, translation space, cluster, core and warp, and the tile
stores of its groups. -/
structure FifoOwner where
  die : Nat
  part : Nat
  space : Nat
  cl : Option Nat
  core : Nat
  warp : Nat
  tsts : List TileStore
  /-- The acquire loads that have not landed, as group and tag. -/
  acqs : List (Nat × Nat)
deriving DecidableEq, Repr

/-- The acquire loads of a group that have not landed. -/
def Group.acqs (g : Group) : List (Nat × Nat) :=
  ((List.range 16).filter fun t => (g.tag t).st == .pending && (g.tag t).acq.isSome).map fun t => (g.index, t)

/-- The warp under which the engine commands of a hardware warp stand: the first of its pair at width 64 (R29, R240). -/
def commandWarp (width h : Nat) : Nat := if width == 64 then h / 2 * 2 else h

/-- The owner of a FIFO store queue that exists. -/
def State.fifoOwner (s : State) (id : FifoId) : Option FifoOwner :=
  match id with
  | .warp c h => (s.block? c).map fun b =>
      { die := dieOf c, part := b.part, space := 256 * b.fe + b.vd, cl := some (clusterOf c), core := c
        warp := commandWarp b.kern.w h
        tsts := (b.groups.filter fun g => (warpsOf g.width g.index).contains h).flatMap (·.tsts)
        acqs := (b.groups.filter fun g => (warpsOf g.width g.index).contains h).flatMap Group.acqs }
  | .ejected c t =>
    match s.block? c, s.ejected? c t with
    | some b, some e => some { die := dieOf c, part := b.part, space := 256 * b.fe + b.vd, cl := some (clusterOf c), core := c,
                               warp := (warpsOf e.grp.width e.grp.index).headD 0, tsts := e.grp.tsts
                               acqs := e.grp.acqs }
    | _, _ => none
  | .hm p => (tblFind s.supers p).map fun h =>
      { die := (s.part p).base / 2, part := p, space := 0x10000 + p, cl := none, core := 0, warp := 0, tsts := h.grp.tsts
        acqs := h.grp.acqs }

/-- The byte at which a store begins, whatever the address that has led to it. -/
def Place.cell : Place → Option Nat × Nat
  | .glob pa _ _ _ _ => (none, pa)
  | .scratch k off => (some k, off)

/-- Whether an item is one atomic operation. -/
def SItem.atomic (i : SItem) : Bool :=
  match i.act with
  | .atomic _ _ _ => true
  | _ => false

/-- Another part of a store when a part `e` of it has performed (R120): of the lanes that write one place the highest keeps its
value, and a scalar store acts once. Lanes compare by the numbers that `kx` and `ke` give them. -/
def SEntry.yieldTo (x e : SEntry) (kx ke : Nat → Nat) : SEntry :=
  let loses (i : SItem) : Bool := e.items.any fun j => j.place.cell == i.place.cell &&
    ((!i.atomic && decide (kx i.lane < ke j.lane)) || kx i.lane == ke j.lane)
  if x.store != e.store then x else { x with items := x.items.map fun i => if loses i then { i with beaten := true } else i }

/-- The hardware warps whose queues hold the parts of one store: a warp, or a width-64 pair (R29). -/
def twins (width h : Nat) : List Nat := if width == 64 then [h / 2 * 2, h / 2 * 2 + 1] else [h]

/-- A hardware lane of a warp in the order of the lanes of its group or, at width 16, of its warp. -/
def queueLane (width h l : Nat) : Nat := if width == 64 then 32 * (h % 2) + l else l

/-- The other parts of a store when a part of it has performed. A fragment that splits before its commit leaves several. -/
def State.settleParts (s : State) (id : FifoId) (e : SEntry) : State :=
  match id with
  | .warp c h =>
    match s.block? c with
    | none => s
    | some b =>
      let own := queueLane b.kern.w h
      let s := s.setBlock c { b with groups := b.groups.map fun g =>
        if (warpsOf g.width g.index).contains h then
          { g with sbuf := g.sbuf.map fun x => x.yieldTo e (ownLane g.width g.index) own }
        else g }
      (twins b.kern.w h).foldl (fun (s : State) k =>
        s.setFifo (.warp c k) ((s.fifo (.warp c k)).map fun x => x.yieldTo e (queueLane b.kern.w k) own)) s
  | _ => s

/-- An entry stands behind an older one in the other queue of a width-64 pair, which acts as one warp (R30, R121); of the two
parts of one commit the even one is the older. -/
def State.behindTwin (s : State) (id : FifoId) (e : SEntry) : Bool :=
  match id with
  | .warp c h =>
    ((twins ((s.block? c).elim 32 fun b => b.kern.w) h).filter (· != h)).any fun k =>
      (s.fifo (.warp c k)).any fun x => decide (x.serial < e.serial) || (x.serial == e.serial && decide (k < h))
  | _ => false

/-- Two ranges of bytes overlap. -/
def meets (a n b m : Nat) : Bool := decide (a < b + m) && decide (b < a + n)

/-- An entry stands behind a tile store that came before it and writes bytes of it (R123, R133). -/
def SEntry.behindTile (e : SEntry) (tsts : List TileStore) : Bool :=
  tsts.any fun t => decide (t.serial < e.serial) && e.items.any fun i =>
    match i.place with
    | .glob pa _ _ _ _ => t.segs.any fun x => meets pa i.size x.1 x.2.2.length
    | .scratch _ _ => false

/-- The ranges of global bytes, and of the bytes of a core's scratchpad, that the items of an entry write. -/
def SEntry.ranges (e : SEntry) (core : Option Nat) : List (Nat × Nat) :=
  e.items.filterMap fun i =>
    match i.place, i.act with
    | .glob pa _ _ _ _, .bytes bs => if core.isNone then some (pa, bs.length) else none
    | .scratch k off, .bytes bs => if core == some k then some (off, bs.length) else none
    | _, _ => none

/-- Every byte of a granule lies in one of some ranges. -/
def coveredBy (rs : List (Nat × Nat)) (size g : Nat) : Bool :=
  (upFrom (size * g) size).all fun a => rs.any fun r => decide (r.1 ≤ a) && decide (a < r.1 + r.2)

/-- Poison of the granules that the lanes of an entry have together written whole is gone (R364). -/
def State.clearStored (s : State) (cl : Option Nat) (e : SEntry) : State :=
  let rs := e.ranges none
  let slices (k : Nat) (s : State) : State :=
    s.setSlice k ((s.slice k).map fun l => (l.1, { l.2 with bad := l.2.bad.filter fun g => !coveredBy rs 32 (4 * l.1 + g) }))
  let mem (s : State) : State := (s.memBad.filter (coveredBy rs 32)).foldl State.clearMem s
  let s := if rs.isEmpty then s else match storePath e.bypass cl e.strong with
    | .slice k => slices k s
    | .through k => slices k (mem s)
    | .bypass _ => mem s
  let cores := (e.items.filterMap fun i =>
    match i.place with
    | .scratch k _ => some k
    | .glob _ _ _ _ _ => none).eraseDups
  cores.foldl (fun (s : State) k =>
    s.setCore k { s.core k with scratchBad := (s.core k).scratchBad.filter fun g => !coveredBy (e.ranges (some k)) 8 g }) s

/-- An entry that has reached a lost home die is counted, once, on the issuing die (R360). -/
def State.countLost (s : State) (die : Nat) (e : SEntry) : State :=
  let lost (i : SItem) : Bool :=
    match i.place with
    | .glob pa _ _ _ _ => s.homeLost die pa
    | .scratch _ _ => false
  if e.items.any lost then s.countError die 5 true else s

/-- The lines that an entry of an ejected lane writes noted (R79). -/
def State.noteEntry (s : State) (id : FifoId) (e : SEntry) : State :=
  match id with
  | .ejected k t => e.items.foldl (fun (s : State) i =>
      match i.place with
      | .glob pa _ _ _ _ => s.noteWrote k t pa i.size
      | .scratch _ _ => s) s
  | _ => s

/-- The head entry `e` of a queue performs: every item performs, the highest lane's last, so that its value stays (R120); `rest`
is left. DESIGN CHOICE: in ascending lane order, where R120 promises none. -/
def State.performEntry (s : State) (id : FifoId) (o : FifoOwner) (e : SEntry) (rest : List SEntry) : State :=
  let s := ((e.items.foldl (fun s i => s.performItem o.die o.part o.cl e i) s).clearStored o.cl e).countLost o.die e
  ((s.noteEntry id e).setFifo id rest).settleParts id e

/-- The head entry of a queue may perform (R121): no item of it must wait, the acquire loads before it have landed (R126), and the
older entries of the other queue of its pair and the tile stores before it that write its bytes have performed; a
release waits for its conditions of R127. -/
def State.headReady (s : State) (id : FifoId) (o : FifoOwner) (e : SEntry) : Bool :=
  !(e.items.any (itemWaits s o.die o.space) || e.acqs.any o.acqs.contains) &&
    !(s.behindTwin id e || e.behindTile o.tsts) && (e.rel.isNone || s.releaseReady o.core o.warp e.serial o.tsts)

/-- The head entry of a queue performs, where it may; a release takes its slice action first (R128). -/
def State.drainHead (s : State) (id : FifoId) : Option State :=
  match s.fifo id, s.fifoOwner id with
  | e :: rest, some o =>
    if !s.headReady id o e then none
    else
      let s := match e.rel, o.cl with
        | some sc, some k => s.releaseAction k sc
        | _, _ => s
      some (s.performEntry id o e rest)
  | _, _ => none

/-! ### A module reset (R57, R391) -/

/-- Every FIFO store queue. -/
def State.fifoIds (s : State) : List FifoId :=
  (s.cores.flatMap fun x => (x.2.block.elim [] fun b => List.range b.warps.length).map fun h => FifoId.warp x.1 h) ++
    s.ejected.map (fun e => FifoId.ejected e.core e.thread) ++ s.supers.map fun x => FifoId.hm x.1

/-- The queue whose head entry was committed first, of some queues. -/
def State.oldestOf (s : State) : List FifoId → Option FifoId
  | [] => none
  | i :: is =>
    match s.fifo i, s.oldestOf is with
    | [], r => r
    | _, none => some i
    | e :: _, some j => if ((s.fifo j).head?.elim true fun x => decide (e.serial ≤ x.serial)) then some i else some j

/-- Up to `n` committed entries perform, whatever they would wait for: a reset discards none (R57). -/
def State.drainAll : Nat → State → State
  | 0, s => s
  | n + 1, s =>
    match s.oldestOf s.fifoIds with
    | none => s
    | some id =>
      match s.fifo id, s.fifoOwner id with
      | e :: rest, some o => State.drainAll n (s.performEntry id o e rest)
      | _, _ => s

/-- The committed entries that have not performed. -/
def State.committedCount (s : State) : Nat := (s.fifoIds.map fun i => (s.fifo i).length).sum

/-- The leaf of the page that an item writes. -/
def SItem.page? (i : SItem) : Option Nat :=
  match i.place with
  | .glob _ _ pte _ _ => some pte
  | .scratch _ _ => none

/-- The pages of the head entry of a queue, when they hold it, noted (R116). -/
def State.wantHead (s : State) (id : FifoId) : State :=
  match s.fifo id, s.fifoOwner id with
  | e :: _, some o => s.wantPages o.space (e.items.filterMap SItem.page?)
  | _, _ => s

/-- STORE_DRAIN (R57, R121): the head entry of a queue performs, where it may. -/
def execStoreDrain (f : FifoId) (s : State) : Out := .next ((s.drainHead f).getD (s.wantHead f))

end Sys2Proof.Machine
end

