-- ==== Sys2Proof/Machine/Atomics.lean ====
section
/-! DEFINITION. Prefetch and cache control (R226, R227), fences (R126, R231), atomics (R229 to R231) and
tiles (R132, R133, R228). -/

namespace Sys2Proof.Machine

/-! ### Prefetch and cache control -/

/-- The line at a physical address fetched into the slice, or for `.msc` into the memory-side cache (R226). -/
def prefetchLine (c : Ctx) (toSlice : Bool) (s : State) (pa : Nat) : State :=
  if toSlice && c.level == .core && isHbm pa then s.fillLine c.cluster (pa / 128) else s.touch c.part pa

/-- PREF (R226): an address without a translation does nothing; it waits for a free walker (R114). -/
def execPref (w : MemOp) (s : State) : Out :=
  issuing s (.pref w) fun c =>
    let ls := c.units w.toCommon false
    if ls.any fun l => c.poisoned l w.a.op 2 then trapOut s c poisonTrap
    else
      match s.xlatLooks c (ls.map fun l => c.globalVa l w.a.op w.imm) with
      | none => waiting s c .perform
      | some (es, s) =>
        let lost (x : W64 × TlbEntry) : Bool := s.homeLost (c.die s) (x.2.phys x.1.toNat)
        match es.find? lost with
        | some x =>
          trapOut s c { cause := .homelost, detail := homeDie (x.2.phys x.1.toNat), addr := x.1.toNat, ak := 1 }
        | none => finish (es.foldl (fun s x => prefetchLine c (!w.hint.getLsbD 0) s (x.2.phys x.1.toNat)) s) c

/-- The frame of CCTL (R227): it waits until the FIFO store queue of the warp is empty. -/
def cacheControl (s : State) (c : Ctx) (w : MemOp) (k : State → Out) : Out :=
  if (c.acting w.guard).isEmpty then finish s c
  else if !s.fifosEmpty c then waiting s c .perform
  else k s

/-- The line forms of CCTL: each acting lane's line, where its address has a translation; they wait for a free walker (R114). -/
def cacheLines (s : State) (c : Ctx) (w : MemOp) (k : State → Nat → State) : Out :=
  cacheControl s c w fun s =>
    let ls := c.units w.toCommon false
    if ls.any fun l => c.poisoned l w.a.op 2 then trapOut s c poisonTrap
    else
      match s.xlatLooks c (ls.map fun l => c.globalVa l w.a.op w.imm) with
      | none => waiting s c .perform
      | some (es, s) => finish (es.foldl (fun s x => k s (x.2.phys x.1.toNat / 128)) s) c

/-- CCTL.wb (R227). -/
def execCctlWb (w : MemOp) (s : State) : Out :=
  issuing s (.cctlWb w) fun c => cacheLines s c w fun s line => s.writeBack (s.clusterFor c) line
/-- CCTL.inv (R227). -/
def execCctlInv (w : MemOp) (s : State) : Out :=
  issuing s (.cctlInv w) fun c => cacheLines s c w fun s line => s.dropLine (s.clusterFor c) line
/-- CCTL.wball (R227). -/
def execCctlWball (w : MemOp) (s : State) : Out :=
  issuing s (.cctlWball w) fun c => cacheControl s c w fun s => finish (s.writeBackAll (s.clusterFor c)) c
/-- CCTL.invall (R227). -/
def execCctlInvall (w : MemOp) (s : State) : Out :=
  issuing s (.cctlInvall w) fun c => cacheControl s c w fun s => finish (s.dropAll (s.clusterFor c)) c

/-! ### Fences -/

/-- Everything store-like of a fragment before a FENCE.sc has performed (R126): buffered and committed
entries, accepted tile stores, engine commands of the warp. -/
def storesDone (s : State) (c : Ctx) : Bool :=
  s.fifosEmpty c && c.g.sbuf.all (fun e => (e.mask &&& c.f.mask) == 0#64) && !tilePending c &&
    !((s.commandsOf c.core).any fun e => e.before c.warp s.serial)

/-- FENCE (R126, R231). -/
def execFence (w : MemOp) (s : State) : Out :=
  issuing s (.fence w) fun c =>
    if (c.acting w.guard).isEmpty then finish s c
    else
      let sc := c.scope w.scope
      match w.kind with
      | .rel => finish (s.setMark c.agent sc) c
      | .acq =>
        (match acquirePending c with
         | some t => waiting s c (.tag t)
         | none => finish (s.acquire c sc) c)
      | _ =>
        (match acquirePending c with
         | some t => waiting s c (.tag t)
         | none =>
           if storesDone s c then
             finish (((s.release c sc).acquire c sc).setMark c.agent sc) c
           else waiting s c .perform)

/-! ### Atomics -/

/-- An atomic is aligned to the bytes it acts on (R347). -/
def atomMisaligned (w : MemOp) (a : Nat) : Bool := a % atomicBytes w.ty != 0

/-- The kinds with a release part, and those with an acquire part (R126). -/
def hasRelease (k : Kind) : Bool := k == .rel || k == .ar || k == .sc
/-- The kinds with an acquire part. -/
def hasAcquire (k : Kind) : Bool := k == .acq || k == .ar || k == .sc

/-- The commit of an atomic that ends its strand (R56, R230); its release part comes first (R126). It then
waits until ATOM_PERFORMED; without an acting lane it performs at once. -/
def atomCommit (s : State) (c : Ctx) (w : MemOp) (ls : List Nat) : Out :=
  if ls.isEmpty then
    let s := s.ensureCommit c
    match s.takeMark (s.reread c) with
    | none => waiting s c .perform
    | some s => .next (s.performed c.agent)
  else
    let s := if hasRelease w.kind && !c.f.committed then s.setMark c.agent (c.scope w.scope) else s
    let s := s.ensureCommit c
    waiting s c .atom

/-- ATOM (R229, R230). -/
def execAtom (w : MemOp) (s : State) : Out :=
  issuing s (.atom w) fun c =>
    let ls := c.units w.toCommon false
    if !c.f.committed && ls.any fun l => atomMisaligned w (c.globalVa l w.a.op w.imm).toNat then
      trapOut s c (misalnTrap (firstBreach (atomMisaligned w) (ls.map fun l => (c.globalVa l w.a.op w.imm).toNat)))
    else atomCommit s c w ls

/-- The B operand of an atomic. -/
def atomB (c : Ctx) (l : Nat) (w : MemOp) : W64 := BitVec.ofNat 64 (c.src l w.ty w.b w.imm)

/-- ATOMS (R229, R230): with a destination it ends its strand, without one it is buffered. -/
def execAtoms (w : MemOp) (s : State) : Out :=
  issuing s (.atoms w) fun c =>
    let ls := c.units w.toCommon false
    let addrs := ls.map fun l => (l, c.spAddr l w.a.op w.imm)
    if !(c.f.committed && w.d != .none) && addrs.any fun x => atomMisaligned w x.2 then
      trapOut s c (misalnTrap (firstBreach (atomMisaligned w) (addrs.map (·.2))))
    else if w.d != .none then atomCommit s c w ls
    else if ls.isEmpty then finish s c
    else storeScratch s c w (atomicBytes w.ty) ls addrs [(w.a.op, 1), (w.b.op, w.ty.regs)] [] fun l =>
      .atomic w.hint.toNat w.ty (atomB c l w)

/-- RED (R229, R230): buffered, translated as an atomic. -/
def execRed (w : MemOp) (s : State) : Out :=
  issuing s (.red w) fun c =>
    let ls := c.units w.toCommon false
    let vas := ls.map fun l => (l, c.globalVa l w.a.op w.imm)
    if ls.isEmpty then finish s c
    else if vas.any fun x => atomMisaligned w x.2.toNat then
      trapOut s c (misalnTrap (firstBreach (atomMisaligned w) (vas.map (·.2.toNat))))
    else storeGlobal s c w .atomic 3 ls vas [(w.a.op, 2), (w.b.op, w.ty.regs)] false fun l =>
      .atomic w.hint.toNat w.ty (atomB c l w)

/-- The new value of an atomic for a lane, from the old one. -/
def atomNew (c : Ctx) (l : Nat) (w : MemOp) (o : Nat) : Nat :=
  atomicOp w.hint.toNat w.ty o (atomB c l w).toNat (c.src l w.ty w.c w.imm)

/-- The words of the old value in D: the bytes as read. -/
def atomWords (w : MemOp) (o : Nat) : List W32 := words (8 * atomicBytes w.ty) o

/-- The lanes of an ATOM, each at its place; the old values and the state. DESIGN CHOICE: ascending order, where R120
promises none. -/
def atomLanes (c : Ctx) (w : MemOp) (p : Path) :
    State → List (Nat × W64 × TlbEntry) → List (Nat × Nat) × State
  | s, [] => ([], s)
  | s, (l, va, e) :: rest =>
    let pa := e.phys va.toNat
    let s := match p with
      | .slice _ => s
      | _ => s.touch c.part pa
    let (o, s) := s.rmw p pa (atomicBytes w.ty) (atomNew c l w)
    let (os, s) := atomLanes c w p s rest
    ((l, o) :: os, s)

/-- The lanes of an ATOMS. DESIGN CHOICE: ascending order, where R120 promises none. -/
def atomsLanes (c : Ctx) (w : MemOp) : State → List (Nat × Nat × Nat) → List (Nat × Nat) × State
  | s, [] => ([], s)
  | s, (l, k, off) :: rest =>
    let (o, s) := s.scratchRmw k off (atomicBytes w.ty) (atomNew c l w)
    let (os, s) := atomsLanes c w s rest
    ((l, o) :: os, s)

/-- The end of an atomic that has performed: D, the acquire part, the next SBEG as restart point. -/
def atomDone (s : State) (c : Ctx) (w : MemOp) (os : List (Nat × Nat)) : Out :=
  let ws := os.flatMap fun x => destLocs w.d x.1 (atomWords w x.2)
  let s := s.mapGroup c.agent fun g => g.writeLocs ws
  let s := if hasAcquire w.kind then s.acquire c (c.scope w.scope) else s
  .next (s.performed c.agent)

/-- The perform step of an ATOM: translation, the hold of its page (R116), poison (R364), then the lanes. -/
def atomPerform (s : State) (c : Ctx) (w : MemOp) : Out :=
  let ls := c.units w.toCommon false
  if ls.any fun l => c.poisoned l w.a.op 2 || c.poisoned l w.b.op w.ty.regs || c.poisoned l w.c.op w.ty.regs then
    trapOut s c poisonTrap
  else
    match translateLanes c .atomic 3 none s (ls.map fun l => (l, c.globalVa l w.a.op w.imm)) with
    | .inr o => o
    | .inl (es, s) =>
      if es.any fun x => s.pageHeld c.space x.2.2.pte then .next (s.wantPages c.space (es.map fun x => x.2.2.pte))
      else
        let cl := if c.level == .super then none else some c.cluster
        let p := atomicPath (c.level != .core) cl (some (c.scope w.scope))
        let n := atomicBytes w.ty
        let bad (x : Nat × W64 × TlbEntry) : Option TrapInfo :=
          let pa := x.2.2.phys x.2.1.toNat
          let level := match p with
            | .slice k => s.slicePoison? k pa n
            | .bypass (some k) => s.enginePoison? k pa n
            | _ => s.memPoison? pa n
          level.map fun lv => { cause := .poison, detail := lv, addr := x.2.1.toNat, ak := 3 }
        match es.findSome? bad with
        | some t => trapOut s c t
        | none =>
          let (os, s) := atomLanes c w p s es
          let s := match c.agent with
            | .ejected k t => es.foldl (fun (s : State) x => s.noteWrote k t (x.2.2.phys x.2.1.toNat) n) s
            | _ => s
          atomDone s c w os

/-- The perform step of an ATOMS with a destination: its address (R359), an absent line (R105), poison. -/
def atomsPerform (s : State) (c : Ctx) (w : MemOp) (blocked : State) : Out :=
  let ls := c.units w.toCommon false
  if ls.any fun l => c.poisoned l w.a.op 1 || c.poisoned l w.b.op w.ty.regs || c.poisoned l w.c.op w.ty.regs then
    trapOut s c poisonTrap
  else
    match scratchLanes s c 3 (ls.map fun l => (l, c.spAddr l w.a.op w.imm)) with
    | .inr t => trapOut s c t
    | .inl ps =>
      let n := atomicBytes w.ty
      if ps.any fun p => ((s.core p.2.1).absentLine p.2.2 n).isSome then .next blocked
      else
        match ps.find? fun p => (s.core p.2.1).scratchPoisoned p.2.2 n with
        | some p => trapOut s c { cause := .poison, detail := 1, addr := c.spAddr p.1 w.a.op w.imm, ak := 3 }
        | none =>
          let (os, s) := atomsLanes c w s ps
          atomDone s c w os

/-- ATOM_PERFORMED (R230): a committed ATOM, or ATOMS with a destination, performs, once the committed
entries of its own warp before it have (R121), no acquire of an earlier load is open (R126), and its release
mark allows it (R127). -/
def execAtomPerformed (a : Agent) (s : State) : Out :=
  match s.ctx? a with
  | none => .next s
  | some c =>
    if c.f.wait == .atom && c.f.stop.isNone && unitReady s c && s.fifosEmpty c && (accessBlock c).isNone then
      match s.takeMark c, peekInstr s c with
      | some t, some (.atom w) => atomPerform t (t.reread c) w
      | some t, some (.atoms w) => atomsPerform t (t.reread c) w s
      | _, _ => .next s
    else .next s

/-! ### Tiles -/

/-- Bytes of a scratchpad from an address: the core and offset, or the DETAIL of SPADDR, for the first byte
and for the last (R359). -/
def scratchRange (s : State) (c : Ctx) (addr n : Nat) : (Nat × Nat) ⊕ Nat :=
  match s.scratch c addr with
  | .inr d => .inr d
  | .inl (k, off) =>
    match s.block? k with
    | none => .inr 3
    | some b => if off + n ≤ b.kern.scratch then .inl (k, off) else .inr 1

/-- The ranges of several lanes, or the trap of the first that fails. -/
def scratchRanges (s : State) (c : Ctx) (ak : Nat) : List (Nat × Nat × Nat) → List (Nat × Nat × Nat × Nat) ⊕ TrapInfo
  | [] => .inl []
  | (l, addr, n) :: rest =>
    match scratchRange s c addr n with
    | .inr d => .inr { cause := .spaddr, detail := d, addr := addr, ak := ak }
    | .inl p =>
      match scratchRanges s c ak rest with
      | .inr t => .inr t
      | .inl ps => .inl ((l, p.1, p.2, n) :: ps)

/-- AON (R228). -/
def tileAon (w : MemOp) : Bool := w.hint == 8#4

/-- The length of a tile (R228); the manual gives a length outside 1 to 4,096 no meaning. -/
def tileLen (s : State) (c : Ctx) (w : MemOp) (l : Nat) : Nat :=
  let n := c.src l .b32 w.c w.imm
  if 1 ≤ n && n ≤ 4096 then n else (Config.freeWord s.freeCtr l).toNat % 4096 + 1

/-- The bytes a tile instruction moves: the tile, and the header before it with AON. -/
def tileBytes (s : State) (c : Ctx) (w : MemOp) (l : Nat) : Nat := tileLen s c w l + (if tileAon w then 64 else 0)

/-- The global address of a tile. -/
def tileVa (c : Ctx) (w : MemOp) (l : Nat) : W64 := c.globalVa l w.a.op 0#32
/-- The scratchpad address of a tile. -/
def tileSp (c : Ctx) (w : MemOp) (l : Nat) : Nat := c.spAddr l w.b.op 0#32

/-- Bytes cut at 64 KiB pages: offset, address and length of each piece. -/
def pageSplit (va n : Nat) : List (Nat × Nat × Nat) :=
  (granules 65536 va n).map fun p =>
    let a := max va (65536 * p)
    (a - va, a, min (va + n) (65536 * (p + 1)) - a)

/-- The pieces of the tiles of several lanes: lane, offset, address, length. -/
def tilePieces (s : State) (c : Ctx) (w : MemOp) (ls : List Nat) : List (Nat × Nat × Nat × Nat) :=
  ls.flatMap fun l => (pageSplit (tileVa c w l).toNat (tileBytes s c w l)).map fun p => (l, p)

/-- MISALN of TST and TLD (R347). -/
def tileMisaligned (c : Ctx) (w : MemOp) (store : Bool) (l : Nat) : Bool :=
  let a := (tileVa c w l).toNat
  tileSp c w l % 16 != 0 || (if tileAon w then a % 64 != 0 else store && a % 16 != 0)

/-- The address that breaks the alignment of a tile in the lowest such lane: the global one, else the scratchpad one. -/
def tileBreach (c : Ctx) (w : MemOp) (store : Bool) (ls : List Nat) : Nat :=
  match ls.find? (tileMisaligned c w store) with
  | none => 0
  | some l =>
    let a := (tileVa c w l).toNat
    if (if tileAon w then a % 64 != 0 else store && a % 16 != 0) then a else tileSp c w l

/-- A tile register is poisoned (R364). -/
def tilePoisoned (c : Ctx) (w : MemOp) (l : Nat) : Bool :=
  c.poisoned l w.a.op 2 || c.poisoned l w.b.op 1 || c.poisoned l w.c.op 1

/-- The tile store of one lane from its source bytes and its translated pieces (R133). -/
def tileStore (s : State) (c : Ctx) (w : MemOp) (n : Nat) (src : Nat × Nat × Nat × Nat)
    (es : List ((Nat × Nat × Nat × Nat) × (Nat × W64 × TlbEntry))) : TileStore :=
  let (l, k, off, len) := src
  let core := s.core k
  { serial := n
    stage := 0
    ver := 0
    mask := lanesMask [l]
    segs := (es.filter fun e => e.1.1 == l).map fun e =>
      (e.2.2.2.phys e.2.2.1.toNat, e.2.2.2.pte, core.scratchRead (off + e.1.2.1) e.1.2.2.2)
    aon := tileAon w
    scope := c.scope w.scope
    bad := (List.range len).filter fun i => core.scratchBad.contains ((off + i) / 8) }

/-- TST (R133, R228): after its commit, its mark and the warp's committed entries it reads its source, and
its home die holds the data until TST_PERFORMED. With AON it releases at its scope (R126, R127): what the thread stored before
stands where the last write of VER will be read. -/
def execTst (w : MemOp) (s : State) : Out :=
  issuing s (.tst w) fun c =>
    let ls := c.units w.toCommon false
    if !c.f.committed && ls.any (tileMisaligned c w true) then trapOut s c (misalnTrap (tileBreach c w true ls))
    else
      let s := if tileAon w && !c.f.committed && !ls.isEmpty then s.setMark c.agent (c.scope w.scope) else s
      let s := s.ensureCommit c
      let c := s.reread c
      match s.takeMark c with
      | none => waiting s c .perform
      | some t =>
        if ls.isEmpty then .next (t.performed c.agent)
        else if !s.fifosEmpty c || (accessBlock c).isSome then waiting s c .perform
        else if ls.any (tilePoisoned c w) then trapOut s c poisonTrap
        else
          match scratchRanges s c 1 (ls.map fun l => (l, tileSp c w l, tileBytes s c w l)) with
          | .inr t => trapOut s c t
          | .inl ps =>
            match ps.findSome? fun p => ((s.core p.2.1).absentLine p.2.2.1 p.2.2.2).map fun line => (p.2.1, line) with
            | some (k, line) => waiting s c (.line k line)
            | none =>
              let pieces := tilePieces s c w ls
              match translateLanes c .write 2 none t (pieces.map fun p => (p.1, BitVec.ofNat 64 p.2.2.1)) with
              | .inr o => o
              | .inl (es, t) =>
                let t := t.drawn
                let n := t.serial
                let zs := pieces.zip es
                let stores := ((upFrom n ps.length).zip ps).map fun p => tileStore s c w p.1 p.2 zs
                let t := { t with serial := n + ps.length }.mapGroup c.agent fun g => { g with tsts := g.tsts ++ stores }
                .next (t.performed c.agent)

/-- The bytes of a tile store in order. -/
def TileStore.bytes (t : TileStore) : List Byte := t.segs.flatMap fun x => x.2.2

/-- Pieces of bytes with the offset of each. -/
def segOffsets : Nat → List (Nat × Nat × List Byte) → List (Nat × Nat × List Byte)
  | _, [] => []
  | o, (pa, _, bs) :: rest => (o, pa, bs) :: segOffsets (o + bs.length) rest

/-- The physical address of the header of an all-or-nothing tile store. -/
def TileStore.header (t : TileStore) : Nat := (t.segs.headD (0, 0, [])).1

/-- Every tile store that a home die has accepted. -/
def State.tileStores (s : State) : List TileStore :=
  (s.cores.flatMap fun x =>
    match x.2.block with
    | some b => b.groups.flatMap (·.tsts)
    | none => []) ++ s.ejected.flatMap (·.grp.tsts) ++ s.supers.flatMap (·.2.grp.tsts)

/-- A tile store whose header an earlier arrival has not finished with (R133). DESIGN CHOICE: the tiles of one TST arrive in
ascending lane order. -/
def tileBehind (s : State) (t : TileStore) : Bool :=
  t.aon && s.tileStores.any fun x => x.aon && x.header == t.header && decide (x.serial < t.serial)

/-- Bytes of a tile store written at the memory-side cache of their home die; the dirty bytes of the line in the issuing
cluster's slice are written back before, so that they do not come back over it. Poison travels with the bytes (R364). -/
def tileWrite (s : State) (o : FifoOwner) (bad : List Nat) (x : Nat × Nat × List Byte) : State :=
  let (i, pa, bs) := x
  if s.homeLost o.die pa || bs.isEmpty then s
  else
    let s := s.touchLines o.part pa bs.length
    let s := match o.cl with
      | some k => s.engineWrite k pa bs
      | none => s.mscWrite pa bs
    (bad.filter fun k => decide (i ≤ k) && decide (k < i + bs.length)).foldl (fun (s : State) k => s.poisonMem (pa + (k - i)) 1) s

/-- VER of a header written. -/
def versionWrite (s : State) (o : FifoOwner) (t : TileStore) (v : Nat) : State :=
  tileWrite s o [] (0, t.header, leBytes 4 (v % 2 ^ 32))

/-- The bytes of a tile store with their offsets, without VER. -/
def TileStore.rest (t : TileStore) : List (Nat × Nat × List Byte) :=
  (segOffsets 0 t.segs).map fun x =>
    if t.aon && x.1 == 0 then (4, x.2.1 + 4, x.2.2.drop 4) else x

/-- The next stores of the procedure of R133: a plain tile whole; with AON VER made odd, which acquires at the scope, then
META and the tile, then VER two higher, with which the header's first granule has been written whole (R364). The tile store
that is left, if any. -/
def tileStep (s : State) (o : FifoOwner) (t : TileStore) : State × Option TileStore :=
  let body (s : State) : State := t.rest.foldl (fun s x => tileWrite s o t.bad x) s
  if !t.aon then (body s, none)
  else if t.stage == 0 then
    let s := match o.cl with
      | some k => (s.acquireAction k t.scope).dropLine k (t.header / 128)
      | none => s
    let s := s.touchLines o.part t.header 4
    let v := s.mscWord t.header
    (versionWrite s o t (v + 1), some { t with stage := 1, ver := v })
  else if t.stage == 1 then (body s, some { t with stage := 2 })
  else
    let s := versionWrite s o t (t.ver + 2)
    (if s.homeLost o.die t.header || t.bad.any fun i => 4 ≤ i && i < 32 then s else s.clearMem (t.header / 32), none)

/-- TST_PERFORMED (R133): of the accepted tile stores of a fragment, or of those of its group when the fragment is
gone, the oldest that no earlier arrival at its header holds takes its next step; a page held for capture holds it (R116). One
that reaches a lost home die is dropped and counted (R360). -/
def execTstPerformed (a : Agent) (s : State) : Out :=
  match s.group? (agentSite a) with
  | none => .next s
  | some g =>
    let mine (t : TileStore) : Bool :=
      match g.frag? (agentFid a) with
      | some f => (t.mask &&& f.mask) != 0#64
      | none => true
    match g.tsts.find? fun t => mine t && !tileBehind s t with
    | none => .next s
    | some t =>
      let fifo := match a with
        | .frag _ _ _ => fifoOf a ((warpsOf g.width g.index).headD 0)
        | _ => fifoOf a 0
      match s.fifoOwner fifo with
      | none => .next s
      | some o =>
        if t.segs.any fun x => s.pageHeld o.space x.2.1 then .next (s.wantPages o.space (t.segs.map fun x => x.2.1))
        else
          let lost := t.segs.any fun x => s.homeLost o.die x.1
          let (s, left) := if lost then (s.countError o.die 5 true, none) else tileStep s o t
          let s := match a with
            | .ejected k l => t.segs.foldl (fun (s : State) (y : Nat × Nat × List Byte) => s.noteWrote k l y.1 y.2.2.length) s
            | _ => s
          let s := s.mapGroup a fun g => { g with tsts := match left with
            | some t' => g.tsts.map fun x => if x == t then t' else x
            | none => g.tsts.filter fun x => x != t }
          if left.isSome || lost || t.bad.isEmpty then .next s
          else
            .next (s.post o.part .ifArmed
              (match s.ctx? a with
               | some c => { s.recOf c .poisonp with detail := 1, mask := t.mask.toNat }
               | none => { cause := .poisonp, detail := 1, part := o.part, mask := t.mask.toNat }))

/-- TLD (R133, R228): translated at issue; its fragment waits until TLD_RETURN. -/
def execTld (w : MemOp) (s : State) : Out :=
  issuing s (.tld w) fun c =>
    let ls := c.units w.toCommon false
    if ls.isEmpty then finish s c
    else if ls.any (tileMisaligned c w false) then trapOut s c (misalnTrap (tileBreach c w false ls))
    else if ls.any (tilePoisoned c w) then trapOut s c poisonTrap
    else
      match accessBlock c with
      | some b => waiting s c b
      | none =>
        match scratchRanges s c 2 (ls.map fun l => (l, tileSp c w l, tileBytes s c w l)) with
        | .inr t => trapOut s c t
        | .inl _ =>
          let pieces := tilePieces s c w ls
          match translateLanes c .read 1 none s (pieces.map fun p => (p.1, BitVec.ofNat 64 p.2.2.1)) with
          | .inr o => o
          | .inl (es, s) =>
            let items := (pieces.zip es).map fun x => (x.1.1, x.1.2.1, x.2.2.2.phys x.2.2.1.toNat, x.1.2.2.2)
            waiting s.drawn c (.tld s.clock items)

/-- The bytes of a tile as TLD reads them: a plain tile by the path of a plain load (R109), an
all-or-nothing one at the memory-side cache, where it is written whole (R133); with the storage level of
poison among them. -/
def tileRead (c : Ctx) (aon : Bool) (s : State) (l pa n : Nat) : List Byte × Option Nat × State :=
  let (p, s) := loadGlobal s c aon true pa n
  (overlay s c l true 0 pa n (s.seenByte c aon), p, s)

/-- The pieces of a TLD read in order: lane, offset and bytes of each, and the poison met. -/
def tileReads (c : Ctx) (aon : Bool) :
    State → List (Nat × Nat × Nat × Nat) → List (Nat × Nat × List Byte) × Option (Nat × Nat) × State
  | s, [] => ([], none, s)
  | s, (l, o, pa, n) :: rest =>
    let (bs, p, s) := tileRead c aon s l pa n
    let (rs, q, s) := tileReads c aon s rest
    ((l, o, bs) :: rs, (p.map fun lv => (lv, pa)).or q, s)

/-- TLD_RETURN (R133, R228): a stable even version is read, the header and tile are written to the
scratchpad, and the fragment goes on; an odd version, a lost die or an absent line holds it, and past the limit of R361 it
does not return. -/
def execTldReturn (a : Agent) (s : State) : Out :=
  match s.ctx? a with
  | none => .next s
  | some c =>
    match c.f.wait, peekInstr s c with
    | .tld since items, some (.tld w) =>
      let aon := tileAon w
      let s := if aon then (items.filter fun x => x.2.1 == 0).foldl (fun (s : State) x => (s.pastSlice c x.2.2.1 4).touchLines c.part x.2.2.1 4) s else s
      let odd (x : Nat × Nat × Nat × Nat) : Bool := aon && x.2.1 == 0 && s.mscWord x.2.2.1 % 2 == 1
      let late := decide (since + coreTicks (2 ^ 20) ≤ s.clock)
      if late || c.f.stop.isSome || !unitReady s c || items.any odd || items.any fun x => s.homeLost (c.die s) x.2.2.1 then .next s
      else
        let ls := c.units w.toCommon false
        let total (l : Nat) : Nat := (items.filter fun x => x.1 == l).foldl (fun n x => n + x.2.2.2) 0
        match scratchRanges s c 2 (ls.map fun l => (l, tileSp c w l, total l)) with
        | .inr t => trapOut s c t
        | .inl ps =>
          if ps.any fun p => ((s.core p.2.1).absentLine p.2.2.1 p.2.2.2).isSome then .next s
          else
            let (rs, bad, t) := tileReads c aon s items
            match bad with
            | some (lv, _) => trapOut s c { cause := .poison, detail := lv, addr := (tileVa c w (ls.headD 0)).toNat, ak := 1 }
            | none =>
              let t := ps.foldl (fun (s : State) p =>
                (rs.filter fun r => r.1 == p.1).foldl (fun (s : State) r =>
                  s.scratchWrite p.2.1 (p.2.2.1 + r.2.1) r.2.2) s) t
              let t := if aon then t.acquire c (c.scope w.scope) else t
              finish t c
    | _, _ => .next s

/-- TLDTMO (R361): a TLD that has not returned after 2^20 core cycles stops its fragment. -/
def execTldTmo (a : Agent) (s : State) : Out :=
  match s.ctx? a with
  | none => .next s
  | some c =>
    match c.f.wait with
    | .tld since _ =>
      if c.f.stop.isNone && decide (since + coreTicks (2 ^ 20) ≤ s.clock) then trapOut s c { cause := .tldtmo } else .next s
    | _ => .next s

end Sys2Proof.Machine
end

