-- ==== Sys2Proof/Machine/Barriers.lean ====
section
/-! DEFINITION. Named barriers (R232 to R234) and barrier objects (R235 to R237). -/

namespace Sys2Proof.Machine

/-! ### Named barriers -/

/-- A named barrier of a block. -/
def Block.barrier (b : Block) (n : Nat) : Barrier := tblGet ⟨0, 0⟩ b.bars n
/-- The block with a named barrier replaced. -/
def Block.setBarrier (b : Block) (n : Nat) (x : Barrier) : Block := { b with bars := tblSet ⟨0, 0⟩ b.bars n x }

/-- The present, unexited threads of a block, ejected lanes included (R232). -/
def Block.liveThreads (b : Block) : Nat :=
  b.groups.foldl (fun a g => a + (g.lanes.filter fun t => t.present && !t.exited).length) 0

/-- A thread with the arrival bit of a barrier written (R232). -/
def Thread.setArv (t : Thread) (n : Nat) (v : Bool) : Thread :=
  { t with arv := if v then t.arv ||| (1#16 <<< n) else t.arv &&& ~~~(1#16 <<< n) }

/-! ### The barrier table (R315) -/

/-- Bytes at a virtual address of a space, where all of them can be read; nothing is set. -/
def State.peekBytes (s : State) (space va n : Nat) : Option (List Byte) :=
  (pageSplit va n).foldl (fun (r : Option (List Byte)) p =>
    match r, s.xlatPeek space (BitVec.ofNat 64 p.2.1) .read false with
    | some bs, some e => some (bs ++ s.mscRead (e.phys p.2.1) p.2.2)
    | _, _ => none) (some [])

/-- The entry of the barrier table for the label at an offset, as a number. -/
def barEntry (s : State) (b : Block) (label : Nat) : Option Nat :=
  (List.range b.kern.barrN).findSome? fun i =>
    match s.peekBytes (256 * b.fe + b.vd) (b.kern.barrTab.toNat + 192 * i) 192 with
    | some bs => if bitField (leNat bs) 384 32 == label then some (leNat bs) else none
    | none => none

/-- The label of the BARW or BARS that a fragment waits at. -/
def Frag.barLabel (f : Frag) : Option Nat :=
  match f.wait with
  | .barrier _ _ (some _) => some (f.pc - 16)
  | .barrier _ _ none => some f.pc
  | _ => none

/-- A fragment waits at a barrier that has a barrier-table entry. -/
def waitsListed (s : State) (b : Block) (f : Frag) : Bool :=
  match f.barLabel with
  | some l => (barEntry s b l).isSome
  | none => false

/-! ### Completion -/

/-- A fragment released from a barrier (R232): ready some core cycles after the completing event. -/
def Frag.barRelease (f : Frag) (n now delay : Nat) : Frag :=
  match f.wait with
  | .barrier m _ _ =>
    if m == n then { f with wait := .none, readyAt := now + coreTicks delay } else f
  | _ => f

/-- A group after a barrier has completed; the fragments that `held` names stay where they are. -/
def Group.barComplete (g : Group) (n now delay : Nat) (held : Frag → Bool) : Group :=
  { g with lanes := g.lanes.map fun t => t.setArv n false
           frags := g.frags.map fun f => if held f then f else f.barRelease n now delay }

/-- The scopes at which fragments of a group end a BARS on a barrier. -/
def Group.barScopes (g : Group) (n : Nat) : List Scope :=
  g.frags.filterMap fun f =>
    match f.wait with
    | .barrier m _ (some sc) => if m == n then some sc else none
    | _ => none

/-- complete(Bn) of R232: the bits cleared, the waiters ready after 6 core cycles, or 40 on a tender, their
waits ended by an acquire at their scopes (R233), those of ejected lanes among them (R128). While the block is to be taken, waiters at a listed
barrier do not issue (R298). -/
def State.completeBar (s : State) (core n : Nat) : State :=
  match s.block? core with
  | none => s
  | some b =>
    let x := b.barrier n
    let target := if x.exp == 0 then b.liveThreads else x.exp
    if 0 < x.cnt && target ≤ x.cnt then
      let wide := (b.groups ++ (s.ejected.filter fun e => e.core == core).map (·.grp)).any fun g => (g.barScopes n).any scopeWide
      let held (f : Frag) : Bool := b.taking.isSome && waitsListed s b f
      let b := b.setBarrier n { x with cnt := 0 }
      let s := s.setBlock core { b with groups := b.groups.map fun g => g.barComplete n s.clock 6 held }
      let s := { s with ejected := s.ejected.map fun e =>
        if e.core == core then { e with grp := e.grp.barComplete n s.clock 40 held } else e }
      if wide then s.acquireAction (clusterOf core) .stk else s
    else s

/-- complete of every barrier, evaluated at every EXIT (R232). -/
def State.completeBars (s : State) (core : Nat) : State := (List.range 16).foldl (fun s n => s.completeBar core n) s

/-- arrive(Bn, e, a) of R232 for the lanes of an issuer. -/
def State.barArrive (s : State) (c : Ctx) (n e : Nat) (ls : List Nat) : State :=
  match s.block? c.core with
  | none => s
  | some b =>
    let x := b.barrier n
    let x := { x with exp := if x.cnt == 0 then min e 2048 else x.exp, cnt := x.cnt + ls.length }
    let s := s.setBlock c.core (b.setBarrier n x)
    let s := s.mapGroup c.agent fun g => g.mapLanes ls fun t => t.setArv n true
    s.completeBar c.core n

/-- The barrier an instruction names: HINT (R215). -/
def barIndex (w : MemOp) : Nat := w.hint.toNat

/-- The arrive of BARA and BARS (R233): a release at SCOPE, after the commit. `none` while its mark or an open acquire
load (R126) holds it. -/
def barPerform (s : State) (c : Ctx) (w : MemOp) : Option State :=
  let ls := c.acting w.guard
  let s := if ls.isEmpty || c.f.committed then s else s.setMark c.agent (c.scope w.scope)
  let s := s.ensureCommit c
  let c := s.reread c
  match (if (acquirePending c).isSome then none else s.takeMark c) with
  | none => none
  | some s =>
    let s := if ls.isEmpty then s else s.barArrive c (barIndex w) (c.src (ls.headD 0) .b32 w.b w.imm) ls
    some (s.performed c.agent)

/-- The state of an instruction that has committed and waits for its mark. -/
def barHeld (s : State) (c : Ctx) (w : MemOp) : State :=
  let s := if (c.acting w.guard).isEmpty || c.f.committed then s else s.setMark c.agent (c.scope w.scope)
  s.ensureCommit c

/-- BARA (R233). -/
def execBara (w : MemOp) (s : State) : Out :=
  issuing s (.bara w) fun c =>
    match barPerform s c w with
    | none => waiting (barHeld s c w) c .perform
    | some s => .next s

/-- The lanes of a list whose arrival bit of a barrier is set. -/
def arrivedLanes (g : Group) (n : Nat) (ls : List Nat) : List Nat := ls.filter fun l => (g.lane l).arv.getLsbD n

/-- A wait at a barrier that holds its fragment although the phase has completed: its block is to be taken, and the label is
listed (R298). -/
def heldForTake (s : State) (c : Ctx) (w : Wait) : Bool :=
  match s.blockOf c with
  | some b => b.taking.isSome && waitsListed s b { c.f with wait := w }
  | none => false

/-- BARW (R233, R234): it waits while an acting lane's bit is set; its pass is an acquire. DEDUCED: while its block is to be
taken, one at a listed label waits for the resumption also where its phase has completed (R298). -/
def execBarw (w : MemOp) (s : State) : Out :=
  issuing s (.barw w) fun c =>
    let ls := c.acting w.guard
    if ls.isEmpty then finish s c
    else
      let held := arrivedLanes c.g (barIndex w) ls
      let wait (ls : List Nat) : Wait := .barrier (barIndex w) (lanesMask ls) none
      if !held.isEmpty then waiting s c (wait held)
      else if heldForTake s c (wait ls) then waiting s c (wait ls)
      else finish (s.acquire c (c.scope w.scope)) c

/-- BARS (R233, R234): it arrives, and its fragment waits before the SBEG that follows; while its block is to be taken, also
where its own arrival completes the phase of a listed label (R298). -/
def execBars (w : MemOp) (s : State) : Out :=
  issuing s (.bars w) fun c =>
    match barPerform s c w with
    | none => waiting (barHeld s c w) c .perform
    | some s =>
      let d := s.reread c
      let held := arrivedLanes d.g (barIndex w) (c.acting w.guard)
      let wait (ls : List Nat) : Wait := .barrier (barIndex w) (lanesMask ls) (some (c.scope w.scope))
      if (c.acting w.guard).isEmpty then .next s
      else if held.isEmpty && heldForTake s d (wait (c.acting w.guard)) then
        .next ((s.acquire c (c.scope w.scope)).park c.agent (wait (c.acting w.guard)))
      else if held.isEmpty then
        .next ((s.acquire c (c.scope w.scope)).mapFrag c.agent fun f =>
          { f with readyAt := s.clock + coreTicks (if c.level == .tender then 40 else 6) })
      else .next (s.park c.agent (wait held))

/-! ### Barrier objects -/

/-- The object address of a lane: A alone (R236, R237). -/
def objAddr (c : Ctx) (w : MemOp) (l : Nat) : Nat := c.spAddr l w.a.op 0#32

/-- MBINIT (R236): a plain store of 8 bytes. -/
def execMbinit (w : MemOp) (s : State) : Out :=
  issuing s (.mbinit w) fun c =>
    let ls := c.units w.toCommon false
    let addrs := ls.map fun l => (l, objAddr c w l)
    if ls.isEmpty then finish s c
    else if addrs.any fun x => x.2 % 8 != 0 then trapOut s c (misalnTrap (firstBreach (fun a => a % 8 != 0) (ls.map (objAddr c w))))
    else storeScratch s c w 0 ls addrs [(w.a.op, 1), (w.b.op, 1)] [] fun l =>
      .bytes (leBytes 8 (objInit (c.src l .b32 w.b w.imm)))

/-- The objects of lanes that an access reaches: it stops on an address or on poison, and parks on an
absent line (R105, R359, R364). -/
def objPlaces (s : State) (c : Ctx) (w : MemOp) (ak : Nat) (ls : List Nat) : List (Nat × Nat × Nat) ⊕ Out :=
  if ls.any fun l => c.poisoned l w.a.op 1 || c.poisoned l w.b.op 1 then .inr (trapOut s c poisonTrap)
  else
    match scratchLanes s c ak (ls.map fun l => (l, objAddr c w l)) with
    | .inr t => .inr (trapOut s c t)
    | .inl ps =>
      match ps.findSome? fun p => ((s.core p.2.1).absentLine p.2.2 8).map fun line => (p.2.1, line) with
      | some (k, line) => .inr (waiting s c (.line k line))
      | none =>
        match ps.find? fun p => (s.core p.2.1).scratchPoisoned p.2.2 8 with
        | some p => .inr (trapOut s c { cause := .poison, detail := 1, addr := objAddr c w p.1, ak := ak })
        | none => .inl ps

/-- The arrivals of MBARV: what each lane reads, and the state. DESIGN CHOICE: the acting lanes of one MBARV arrive in ascending
order, where R120 and R237 promise none (log entry 112). -/
def objArrivals (c : Ctx) (w : MemOp) : State → List (Nat × Nat × Nat) → List (Nat × Nat) × State
  | s, [] => ([], s)
  | s, (l, k, off) :: rest =>
    let x := (s.core k).object off
    let n := c.src l .b32 w.b w.imm % 65536
    let s := if n == 0 then s else s.objArrive k off n false
    let (os, s) := objArrivals c w s rest
    ((l, x / 2 ^ 32) :: os, s)

/-- MBARV (R235, R237): a release at SCOPE after the commit. -/
def execMbarv (w : MemOp) (s : State) : Out :=
  issuing s (.mbarv w) fun c =>
    let ls := c.units w.toCommon false
    if !c.f.committed && ls.any fun l => objAddr c w l % 8 != 0 then
      trapOut s c (misalnTrap (firstBreach (fun a => a % 8 != 0) (ls.map (objAddr c w))))
    else
      let s := barHeld s c w
      let c := s.reread c
      match (if (acquirePending c).isSome then none else s.takeMark c) with
      | none => waiting s c .perform
      | some t =>
        match objPlaces s c w 3 ls with
        | .inr o => o
        | .inl ps =>
          let (os, t) := objArrivals c w t ps
          let t := t.mapGroup c.agent fun g => g.writeLocs (os.flatMap fun x => destLocs w.d x.1 [BitVec.ofNat 32 x.2])
          .next (t.performed c.agent)

/-- An object as a lane's load sees it, its own stores over memory (R55). -/
def objSeen (s : State) (c : Ctx) (p : Nat × Nat × Nat) : Nat :=
  objBits (leNat (overlay s c p.1 false p.2.1 p.2.2 8 (s.core p.2.1).scratchByte))

/-- MBTST (R237): a true result is an acquire. -/
def execMbtst (w : MemOp) (s : State) : Out :=
  issuing s (.mbtst w) fun c =>
    let ls := c.units w.toCommon true
    if ls.isEmpty then finish s c
    else if ls.any fun l => objAddr c w l % 8 != 0 then trapOut s c (misalnTrap (firstBreach (fun a => a % 8 != 0) (ls.map (objAddr c w))))
    else
      match accessBlock c with
      | some b => waiting s c b
      | none =>
        match objPlaces s c w 1 ls with
        | .inr o => o
        | .inl ps =>
          let rs := ps.map fun p =>
            let x := objSeen s c p
            (p.1, x / 2 ^ 32, objPassed x (testBit (c.src p.1 .b32 w.b w.imm) 0))
          let s := if rs.any fun r => r.2.2 then s.acquire c (c.scope w.scope) else s
          let s := s.mapGroup c.agent fun g =>
            let g := rs.foldl (fun g r => g.setLane r.1 ((g.lane r.1).setPred (w.hint.toNat % 8) r.2.2)) g
            g.writeLocs (rs.flatMap fun r => destLocs w.d r.1 [BitVec.ofNat 32 r.2.1])
          finish s c

/-- MBWAIT (R237): it tests at issue, and its lanes are released one by one at changes of their objects; the
end of the wait is an acquire. -/
def execMbwait (w : MemOp) (s : State) : Out :=
  issuing s (.mbwait w) fun c =>
    let ls := c.units w.toCommon false
    match c.f.wait with
    | .object _ sc => finish (s.acquire c sc) c
    | _ =>
      if ls.isEmpty then finish s c
      else if ls.any fun l => objAddr c w l % 8 != 0 then trapOut s c (misalnTrap (firstBreach (fun a => a % 8 != 0) (ls.map (objAddr c w))))
      else
        match accessBlock c with
        | some b => waiting s c b
        | none =>
          match objPlaces s c w 1 ls with
          | .inr o => o
          | .inl ps =>
            let parity (l : Nat) : Bool := testBit (c.src l .b32 w.b w.imm) 0
            let held := (ps.filter fun p => !objPassed (objSeen s c p) (parity p.1)).map fun p => (p.1, p.2.1, p.2.2, parity p.1)
            if held.isEmpty then finish (s.acquire c (c.scope w.scope)) c
            else waiting s c (.object held (c.scope w.scope))

end Sys2Proof.Machine
end

