-- ==== Sys2Proof/Machine/Integer.lean ====
section
/-! DEFINITION. Integer, logic and bit instructions (R160 to R171). -/

namespace Sys2Proof.Machine

/-- A signed or unsigned element operation on a value of a type, saturated or wrapped (R84, R160). -/
def intLanes (t : Ty) (sat : Bool) (f : Int → Int → Int → Int) (a b c : Nat) : Nat :=
  let w := t.width
  let r (x : Nat) : Int := readInt t.isSignedInt w x
  packElements w ((List.range (tyBits t / w)).map fun k =>
    let v := f (r (element a w k)) (r (element b w k)) (r (element c w k))
    wrap w (if sat then clampInt t.isSignedInt w v else v))

/-- An integer arithmetic instruction of R160. -/
def intArith (s : State) (c : Ctx) (w : ArithOp) (f : Int → Int → Int → Int) : Out :=
  alu s c w.toCommon false 7 (srcs3 w.toCommon) fun l =>
    { d := tyWords w.ty (intLanes w.ty w.sat f (c.src l w.ty w.a w.imm) (c.src l w.ty w.b w.imm) (c.src l w.ty w.c w.imm)) }

/-- A 32-bit operation on raw bits (R165 to R170). -/
def bitOp (s : State) (c : Ctx) (w : ArithOp) (f : Nat → Nat → Nat → Nat) : Out :=
  alu s c w.toCommon false 7 (srcs3 w.toCommon) fun l =>
    { d := [BitVec.ofNat 32 (f (c.src l w.ty w.a w.imm) (c.src l w.ty w.b w.imm) (c.src l w.ty w.c w.imm))] }

/-- IADD (R160). -/
def execIadd (w : ArithOp) (s : State) : Out := issuing s (.iadd w) fun c => intArith s c w fun x y _ => x + y
/-- ISUB (R160). -/
def execIsub (w : ArithOp) (s : State) : Out := issuing s (.isub w) fun c => intArith s c w fun x y _ => x - y
/-- IMUL (R160). -/
def execImul (w : ArithOp) (s : State) : Out := issuing s (.imul w) fun c => intArith s c w fun x y _ => x * y
/-- IMULH: the exact high half (R160). -/
def execImulh (w : ArithOp) (s : State) : Out :=
  issuing s (.imulh w) fun c => intArith s c w fun x y _ => x * y / (2 ^ w.ty.width : Nat)
/-- IMAD: one rounding of x × y + z (R160). -/
def execImad (w : ArithOp) (s : State) : Out := issuing s (.imad w) fun c => intArith s c w fun x y z => x * y + z
/-- IMIN (R160). -/
def execImin (w : ArithOp) (s : State) : Out := issuing s (.imin w) fun c => intArith s c w fun x y _ => min x y
/-- IMAX (R160). -/
def execImax (w : ArithOp) (s : State) : Out := issuing s (.imax w) fun c => intArith s c w fun x y _ => max x y
/-- IABS (R160). -/
def execIabs (w : ArithOp) (s : State) : Out := issuing s (.iabs w) fun c => intArith s c w fun x _ _ => (x.natAbs : Int)
/-- INEG (R160). -/
def execIneg (w : ArithOp) (s : State) : Out := issuing s (.ineg w) fun c => intArith s c w fun x _ _ => -x

/-- IADDX: addition with a carry predicate (R161). -/
def execIaddx (w : ArithOp) (s : State) : Out :=
  issuing s (.iaddx w) fun c =>
    alu s c w.toCommon true (arithPd w) (srcs3 w.toCommon) fun l =>
      let v := c.src l .n32 w.a w.imm + c.src l .n32 w.b w.imm + bit (arithPs w (c.g.lane l))
      { d := [BitVec.ofNat 32 v], pd := some (decide (2 ^ 32 ≤ v)) }

/-- The condition of ICMP by its MODE (R162). -/
def intCond (mode : Nat) (x y : Int) : Bool :=
  match mode with
  | 0 => x == y
  | 1 => x != y
  | 2 => decide (x < y)
  | 3 => decide (x ≤ y)
  | 4 => decide (y < x)
  | _ => decide (y ≤ x)

/-- All ones or zero over the words of a type. -/
def maskWords (n : Nat) (b : Bool) : List W32 := List.replicate n (if b then 0xFFFFFFFF#32 else 0#32)

/-- ICMP (R162). -/
def execIcmp (w : ArithOp) (s : State) : Out :=
  issuing s (.icmp w) fun c =>
    alu s c w.toCommon true (arithPd w) (srcs3 w.toCommon) fun l =>
      let rd (x : Src) : Int := readInt w.ty.isSignedInt w.ty.width (c.src l w.ty x w.imm)
      let r := intCond w.mode.toNat (rd w.a) (rd w.b)
      { d := maskWords w.ty.regs r, pd := some (r && arithPs w (c.g.lane l)) }

/-- LEA (R163): B is a single register, extended to 64 bits for .i64. DEDUCED: its modifiers act on it as a signed word of 32
bits, and an immediate B is IMM as that word, before either extension. -/
def execLea (w : ArithOp) (s : State) : Out :=
  issuing s (.lea w) fun c =>
    alu s c w.toCommon false 7 [(w.a.op, w.ty.regs), (w.b.op, 1)] fun l =>
      let sh := 2 ^ (w.mode.toNat % 8)
      let a := c.src l w.ty w.a w.imm
      if w.ty == .i64 then
        let b := c.src l .i32 w.b w.imm
        let b : Int := if w.mode.getLsbD 3 then (b : Int) else toSigned 32 b
        { d := words 64 (wrap 64 ((a : Int) + b * (sh : Nat))) }
      else { d := [BitVec.ofNat 32 (a + c.src l .n32 w.b w.imm * sh)] }

/-- AND (R165). -/
def execAnd (w : ArithOp) (s : State) : Out := issuing s (.and w) fun c => bitOp s c w fun x y _ => x &&& y
/-- OR (R165). -/
def execOr (w : ArithOp) (s : State) : Out := issuing s (.or w) fun c => bitOp s c w fun x y _ => x ||| y
/-- XOR (R165). -/
def execXor (w : ArithOp) (s : State) : Out := issuing s (.xor w) fun c => bitOp s c w fun x y _ => x ^^^ y
/-- NOT (R165). -/
def execNot (w : ArithOp) (s : State) : Out := issuing s (.not w) fun c => bitOp s c w fun x _ _ => 2 ^ 32 - 1 - x % 2 ^ 32

/-- TERN: a bit looked up by the bits of three sources (R166). -/
def ternBits (tab : BitVec 8) (a b c : Nat) : Nat :=
  packElements 1 ((List.range 32).map fun i => bit (tab.getLsbD (4 * element c 1 i + 2 * element b 1 i + element a 1 i)))

/-- TERN (R166). -/
def execTern (w : ArithOp) (s : State) : Out := issuing s (.tern w) fun c => bitOp s c w (ternBits w.ext)

/-- A shift (R167): the count is an unsigned 32-bit value. -/
def shiftOp (s : State) (c : Ctx) (w : ArithOp) (f : Nat → Nat → Nat → Nat) : Out :=
  alu s c w.toCommon false 7 [(w.a.op, w.ty.regs), (w.b.op, 1)] fun l =>
    { d := tyWords w.ty (f w.ty.width (c.src l w.ty w.a w.imm) (c.src l .n32 w.b w.imm)) }

/-- Left shift; a count of the width or more gives 0 (R167). -/
def shlBits (w x n : Nat) : Nat := if n < w then x * 2 ^ n % 2 ^ w else 0
/-- Unsigned right shift (R167). -/
def shrBits (w x n : Nat) : Nat := if n < w then x % 2 ^ w / 2 ^ n else 0
/-- Signed right shift; a count of the width or more gives the sign (R167). -/
def sarBits (w x n : Nat) : Nat := wrap w (toSigned w x / (2 ^ min n w : Nat))
/-- Rotation left by the count modulo 32 (R167). -/
def rolBits (x n : Nat) : Nat := (x % 2 ^ 32 * 2 ^ (n % 32) + x % 2 ^ 32 / 2 ^ (32 - n % 32)) % 2 ^ 32

/-- SHL (R167). -/
def execShl (w : ArithOp) (s : State) : Out := issuing s (.shl w) fun c => shiftOp s c w shlBits
/-- SHR (R167). -/
def execShr (w : ArithOp) (s : State) : Out := issuing s (.shr w) fun c => shiftOp s c w shrBits
/-- SAR (R167). -/
def execSar (w : ArithOp) (s : State) : Out := issuing s (.sar w) fun c => shiftOp s c w sarBits
/-- ROL (R167). -/
def execRol (w : ArithOp) (s : State) : Out := issuing s (.rol w) fun c => shiftOp s c w fun _ x n => rolBits x n

/-- FUNSH (R168). -/
def funshBits (mode : BitVec 4) (a b n : Nat) : Nat :=
  let v := a % 2 ^ 32 * 2 ^ 32 + b % 2 ^ 32
  let k := if mode.getLsbD 0 then n % 32 else min n 32
  if mode.getLsbD 1 then v * 2 ^ k / 2 ^ 32 % 2 ^ 32 else v / 2 ^ k % 2 ^ 32

/-- FUNSH (R168). -/
def execFunsh (w : ArithOp) (s : State) : Out :=
  issuing s (.funsh w) fun c =>
    alu s c w.toCommon false 7 (srcs3 w.toCommon) fun l =>
      { d := [BitVec.ofNat 32 (funshBits w.mode (c.src l .b32 w.a w.imm) (c.src l .b32 w.b w.imm) (c.src l .n32 w.c w.imm))] }

/-- The position and length that B gives (R169). -/
def fieldPos (b : Nat) : Nat × Nat := (min (bitField b 0 8) 32, min (bitField b 8 8) 32)

/-- BFX: the field of a value, extended (R169). -/
def bfxBits (signed : Bool) (a b : Nat) : Nat :=
  let (pos, len) := fieldPos b
  if len == 0 then 0
  else
    let x : Nat := if signed then wrap 64 (toSigned 32 a) else a % 2 ^ 32
    let f := bitField x pos len
    if signed then wrap 32 (toSigned len f) else f

/-- BFI: the low bits of A put into C (R169). -/
def bfiBits (a b c : Nat) : Nat :=
  let (pos, len) := fieldPos b
  let m := ((2 ^ len - 1) * 2 ^ pos) % 2 ^ 32
  (c % 2 ^ 32 &&& (2 ^ 32 - 1 - m)) ||| (a * 2 ^ pos % 2 ^ 32 &&& m)

/-- BFX (R169). -/
def execBfx (w : ArithOp) (s : State) : Out := issuing s (.bfx w) fun c => bitOp s c w fun a b _ => bfxBits (w.ty == .i32) a b
/-- BFI (R169). -/
def execBfi (w : ArithOp) (s : State) : Out := issuing s (.bfi w) fun c => bitOp s c w bfiBits

/-- The number of set bits of 32 (R170). -/
def popc32 (x : Nat) : Nat := (setBits 32 x).length
/-- The number of leading zero bits of 32 (R170). -/
def clz32 (x : Nat) : Nat := if x % 2 ^ 32 == 0 then 32 else 31 - Nat.log2 (x % 2 ^ 32)
/-- The bits of 32 in reverse (R170). -/
def brev32 (x : Nat) : Nat := packElements 1 ((List.range 32).map fun i => element x 1 (31 - i))
/-- BYTX (R170). -/
def bytxBits (a b c : Nat) : Nat :=
  let v := a % 2 ^ 32 + b % 2 ^ 32 * 2 ^ 32
  packElements 8 ((List.range 4).map fun k =>
    let x := element v 8 (bitField c (3 * k) 3)
    if testBit c (12 + k) then 0
    else if testBit c (16 + k) then (if testBit x 7 then 255 else 0)
    else x)

/-- POPC (R170). -/
def execPopc (w : ArithOp) (s : State) : Out := issuing s (.popc w) fun c => bitOp s c w fun x _ _ => popc32 x
/-- CLZ (R170). -/
def execClz (w : ArithOp) (s : State) : Out := issuing s (.clz w) fun c => bitOp s c w fun x _ _ => clz32 x
/-- BREV (R170). -/
def execBrev (w : ArithOp) (s : State) : Out := issuing s (.brev w) fun c => bitOp s c w fun x _ _ => brev32 x
/-- BYTX (R170). -/
def execBytx (w : ArithOp) (s : State) : Out := issuing s (.bytx w) fun c => bitOp s c w bytxBits

/-- MOV (R171). -/
def execMov (w : ArithOp) (s : State) : Out :=
  issuing s (.mov w) fun c =>
    alu s c w.toCommon false 7 [(w.a.op, w.ty.regs)] fun l => { d := tyWords w.ty (c.src l w.ty w.a w.imm) }

/-- SEL (R171). -/
def execSel (w : ArithOp) (s : State) : Out :=
  issuing s (.sel w) fun c =>
    alu s c w.toCommon true 7 (srcs3 w.toCommon) fun l =>
      { d := tyWords w.ty (if arithPs w (c.g.lane l) then c.src l w.ty w.a w.imm else c.src l w.ty w.b w.imm) }

/-- An integer of a type as its register words: extended to 32 bits by its signedness, or a pair
(R164, R197). -/
def intWords (t : Ty) (v : Int) : List W32 := words (tyBits t) (wrap (tyBits t) v)

/-- CVTI (R164). -/
def execCvti (w : ArithOp) (s : State) : Out :=
  issuing s (.cvti w) fun c =>
    let st := Ty.ofCode w.mode
    alu s c w.toCommon false 7 [(w.a.op, st.regs)] fun l =>
      let x := readInt st.isSignedInt st.width (element (c.src l st w.a w.imm) st.width 0)
      let d := w.ty.isSignedInt
      let v := if w.sat then clampInt d w.ty.width x else readInt d w.ty.width (wrap w.ty.width x)
      { d := intWords w.ty v }

end Sys2Proof.Machine
end

