-- ==== Sys2Proof/Machine/Registers.lean ====
section
/-! DEFINITION. Predicates, register grants and the format register (R48, R172, R173, R186 to R188). -/

namespace Sys2Proof.Machine

/-- PLOP (R172). -/
def execPlop (w : ArithOp) (s : State) : Out :=
  issuing s (.plop w) fun c =>
    alu s c w.toCommon true (arithPd w) [] fun l =>
      let t := c.g.lane l
      let p (lo : Nat) : Nat := bit (t.pred (bitField w.imm.toNat lo 3) != testBit w.imm.toNat (lo + 3))
      { pd := some (testBit w.imm.toNat (16 + (4 * p 8 + 2 * p 4 + p 0))) }

/-- P2S (R173). -/
def execP2s (w : ArithOp) (s : State) : Out :=
  issuing s (.p2s w) fun c =>
    alu s c w.toCommon true 7 [] fun l =>
      { d := [BitVec.ofNat 32 (((c.g.lane l).p.toNat &&& w.imm.toNat % 128) + 128)] }

/-- S2P (R173). -/
def execS2p (w : ArithOp) (s : State) : Out :=
  issuing s (.s2p w) fun c =>
    let ls := c.acting w.guard
    if ls.any fun l => c.poisoned l w.a.op 1 then trapOut s c poisonTrap
    else
      let set (t : Thread) (a : Nat) : Thread :=
        (List.range 7).foldl (fun t i => if testBit w.imm.toNat i then t.setPred i (testBit a i) else t) t
      let g := ls.foldl (fun g l => g.setLane l (set (g.lane l) (c.src l .b32 w.a w.imm))) c.g
      finish (s.putGroup c g) c

/-! ### Grants -/

/-- The requested and granted counts of the warps of a group (R47). -/
def State.counts (s : State) (c : Ctx) : Nat × Nat :=
  match s.block? c.core with
  | some b => ((b.warp c.warp).c, (b.warp c.warp).g)
  | none => (0, 0)

/-- The pool of a quadrant: 1,024 registers less the granted counts of its warps (R48). -/
def Block.pool (b : Block) (q : Nat) : Nat :=
  1024 - ((List.range b.warps.length).filter fun h => quadOf b.kern.w h == q).foldl (fun a h => a + (b.warp h).g) 0

/-- The lane of a thread in a hardware warp, for every group that the warp holds. -/
def inWarps (width index : Nat) (hs : List Nat) (l : Nat) : Bool := hs.contains (warpOfLane width index l)

/-- V registers from `a` to `b - 1` of a thread set to zero. -/
def Thread.zeroRegs (t : Thread) (a b : Nat) : Thread := (upFrom a (b - a)).foldl (fun t i => t.setVreg i 0#32) t

/-- The V registers of every lane of some warps set to zero over a range (R48). -/
def Block.zeroRegs (b : Block) (hs : List Nat) (lo hi : Nat) : Block :=
  { b with groups := b.groups.map fun g =>
      { g with lanes := (List.range g.lanes.length).map fun l =>
          if inWarps g.width g.index hs l then (g.lane l).zeroRegs lo hi else g.lane l } }

/-- The counts of some warps replaced. -/
def Block.setCounts (b : Block) (hs : List Nat) (cnt gr : Nat) : Block :=
  hs.foldl (fun b h => b.setWarp h { b.warp h with c := cnt, g := gr }) b

/-- A count rounded up to a granule of eight (R47). -/
def ceil8 (n : Nat) : Nat := 8 * ((n + 7) / 8)

/-- The fragments of a block that wait for a grant in a quadrant, with their order and count. -/
def growWaiters (s : State) (k q : Nat) : List (Nat × Nat × Agent) :=
  match s.block? k with
  | none => []
  | some b => b.groups.flatMap fun g => g.frags.filterMap fun f =>
      match f.wait with
      | .grow o n => if quadOf g.width ((warpsOf g.width g.index).headD 0) == q then some (o, n, .frag k g.index f.fid) else none
      | _ => none

/-- The grant of a request that fits the pool (R48): the new counts, and the new registers zero. -/
def State.grant (s : State) (k : Nat) (hs : List Nat) (n : Nat) : State :=
  match s.block? k with
  | none => s
  | some b =>
    let old := (b.warp (hs.headD 0)).g
    s.setBlock k ((b.setCounts hs n (ceil8 n)).zeroRegs hs old (ceil8 n))

/-- A request fits the pool of its quadrant (R48). -/
def fitsPool (s : State) (k : Nat) (width : Nat) (hs : List Nat) (n : Nat) : Bool :=
  match s.block? k with
  | none => false
  | some b => decide ((ceil8 n - (b.warp (hs.headD 0)).g) * hs.length ≤ b.pool (quadOf width (hs.headD 0)))

/-- RGROW on a count (R48): `none` when it must wait, or whether it succeeded. -/
def rgrow (s : State) (c : Ctx) (n : Nat) : Option Bool × State :=
  let s := s.mapFrag c.agent fun f => { f with shrink := none }
  let hs := warpsOf c.g.width c.g.index
  if n ≤ (s.counts c).1 then (some true, s)
  else if 256 < n then (some false, s)
  else if fitsPool s c.core c.g.width hs n && (growWaiters s c.core (quadOf c.g.width c.warp)).isEmpty then
    (some true, s.grant c.core hs n)
  else (none, s)

/-- The count that a scalar source gives. -/
def scalarCount (c : Ctx) (w : ArithOp) : Nat := c.src 0 .b32 w.a w.imm

/-- RGROW.wait (R186): above 256 it traps REGBND, whose DETAIL names no register here. -/
def execRgrowWait (w : ArithOp) (s : State) : Out :=
  issuing s (.rgrowWait w) fun c =>
    if (c.acting w.guard).isEmpty then finish s c
    else
      let n := scalarCount c w
      if 256 < n then trapOut s.drawn c { cause := .regbnd, detail := (Config.freeByte s.freeCtr 0).toNat }
      else
        match rgrow s c n with
        | (some _, s) => finish s c
        | (none, s) =>
          let (o, s) := s.fresh
          waiting s c (.grow o n)

/-- RGROW.try (R157, R186): its outcome to Pd in every active lane of the group. -/
def execRgrowTry (w : ArithOp) (s : State) : Out :=
  issuing s (.rgrowTry w) fun c =>
    if (c.acting w.guard).isEmpty then finish s c
    else
      let (r, s) := rgrow s c (scalarCount c w)
      let ok := r == some true
      finish (s.mapGroup c.agent fun g => g.mapLanes c.active fun t => t.setPred (arithPd w) ok) c

/-- RGROW_GRANT: the oldest waiting request of a quadrant is granted when the pool allows it (R48). -/
def execRgrowGrant (core quad : Nat) (s : State) : Out :=
  let ws := growWaiters s core quad
  match ws.find? fun x => ws.all fun y => decide (x.1 ≤ y.1) with
  | none => .next s
  | some (_, n, a) =>
    match s.ctx? a with
    | none => .next s
    | some c =>
      let hs := warpsOf c.g.width c.g.index
      if n ≤ (s.counts c).1 then finish s c
      else if fitsPool s core c.g.width hs n then finish (s.grant core hs n) c
      else .next s

/-- RSHRINK (R186): recorded now, applied at the next SBEG. -/
def execRshrink (w : ArithOp) (s : State) : Out :=
  issuing s (.rshrink w) fun c =>
    if (c.acting w.guard).isEmpty then finish s c
    else
      let n := max 8 (scalarCount c w)
      finish (if 256 < n then s else s.mapFrag c.agent fun f => { f with shrink := some n }) c

/-- The pending RSHRINK of a fragment applied at its SBEG (R48). -/
def State.applyShrink (s : State) (c : Ctx) : State :=
  match c.f.shrink with
  | none => s
  | some n =>
    let hs := warpsOf c.g.width c.g.index
    let s := if n < (s.counts c).1 then
        (match s.block? c.core with
         | some b => s.setBlock c.core ((b.setCounts hs n (ceil8 n)).zeroRegs hs n (ceil8 n))
         | none => s)
      else s
    s.mapFrag c.agent fun f => { f with shrink := none }

/-- RQRY (R187). -/
def execRqry (w : ArithOp) (s : State) : Out :=
  issuing s (.rqry w) fun c =>
    let pool := match s.block? c.core with
      | some b => b.pool (quadOf c.g.width c.warp)
      | none => 0
    alu s c w.toCommon false 7 [] fun _ =>
      { d := [BitVec.ofNat 32 ((s.counts c).1 % 512 + (s.counts c).2 % 512 * 512 + pool % 2048 * 2 ^ 18)] }

/-! ### The format register -/

/-- FMT written by a fragment with an acting lane (R188). -/
def setFmt (s : State) (c : Ctx) (w : ArithOp) (f : W32 → W32 → W32) : Out :=
  if (c.acting w.guard).isEmpty then finish s c
  else
    let a := BitVec.ofNat 32 (scalarCount c w)
    finish (s.mapFrag c.agent fun x => { x with fmt := f x.fmt a }) c

/-- FMTSET (R188). -/
def execFmtset (w : ArithOp) (s : State) : Out := issuing s (.fmtset w) fun c => setFmt s c w fun _ a => a &&& 0xBF#32
/-- FMTSET.rm (R188). -/
def execFmtsetRm (w : ArithOp) (s : State) : Out :=
  issuing s (.fmtsetRm w) fun c => setFmt s c w fun x a => (x &&& 0xFFFFFFFC#32) ||| (a &&& 3#32)
/-- FMTSET.srs (R93, R188): a 0 is stored as 1. -/
def execFmtsetSrs (w : ArithOp) (s : State) : Out :=
  issuing s (.fmtsetSrs w) fun c =>
    alu s c w.toCommon true 7 [(w.a.op, 1)] fun l =>
      let a := BitVec.ofNat 32 (c.src l .b32 w.a w.imm)
      { srs := some (if a == 0#32 then 1#32 else a) }
/-- FMTGET (R188). -/
def execFmtget (w : ArithOp) (s : State) : Out :=
  issuing s (.fmtget w) fun c => alu s c w.toCommon false 7 [] fun _ => { d := [c.f.fmt] }
/-- FMTGET.srs (R188). -/
def execFmtgetSrs (w : ArithOp) (s : State) : Out :=
  issuing s (.fmtgetSrs w) fun c => alu s c w.toCommon true 7 [] fun l => { d := [(c.g.lane l).srs] }

end Sys2Proof.Machine
end

