-- ==== Sys2Proof/Machine/Control.lean ====
section
/-! DEFINITION. Control: branches, calls, returns, exit, rejoin, election, strands and pacing (R57, R64, R66
to R70, R174 to R185), and the reservation of tender contexts by an ejecting BRD (R74). -/

namespace Sys2Proof.Machine

/-! ### Conditions and targets -/

/-- The condition P[CP] xor CN of a lane (R174). -/
def condition (w : CtlOp) (t : Thread) : Bool := t.pred w.cp.toNat != w.cn

/-- The acting lanes of a branch: guard and condition true (R174). -/
def branchLanes (c : Ctx) (w : CtlOp) : List Nat := (c.acting w.guard).filter fun l => condition w (c.g.lane l)

/-- The target of R147, relative to the instruction; a PC counts within 1 MiB (R62). -/
def relTarget (pc : Nat) (imm : W32) : Nat := wrap 20 (pc + toSigned 32 imm.toNat)

/-- What must stand at the target of a branch: an SBEG when it lies at or below the branch (R331). -/
def backward (pc target : Nat) : Option Expect := if target ≤ pc then some (.strand 0 pc) else none

/-- The state with the pending results of the fragment written: a branch ends their windows (R51). -/
def State.settle (s : State) (c : Ctx) : State := s.mapGroup c.agent fun g => g.flush c.f.fid

/-- The frame of BRU, BRX, CALL, CALLX and RET (R174): none of the lanes acts, all do, or BRUMIX. With
`past`, an SBEG must stand at the next instruction (R331). -/
def uniform (s : State) (i : Instr) (w : CtlOp) (past : Bool) (k : State → Ctx → Out) : Out :=
  issuing s i fun c0 =>
    let s1 := s.settle c0
    let c := s1.reread c0
    let a := branchLanes c w
    if a.isEmpty then .next (s1.mapFrag c.agent fun f => f.goTo (f.pc + 16) (if past then some (.strand 2 f.pc) else none))
    else if a != c.active then trapOut s c0 { cause := .brumix }
    else k s1 c

/-- BRU (R175). -/
def execBru (w : CtlOp) (s : State) : Out :=
  uniform s (.bru w) w false fun s c =>
    let t := relTarget c.f.pc w.imm
    .next (s.mapFrag c.agent fun f => f.goTo t (backward f.pc t))

/-- A target from a register is legal (R174). -/
def targetOk (t : Nat) : Bool := t % 16 == 0 && decide (t < 2 ^ 20)

/-- A copy of a fragment as a new one of its group, with a mask and a place; its next instruction is at
`pc` (R60, R61). -/
def newFrag (f : Frag) (fid : Nat) (m : W64) (slot : Slot) (pc : Nat) (e : Option Expect) (order : Nat) : Frag :=
  { (f.goTo pc e) with fid := fid, mask := m, slot := slot, loaded := order, issued := false, missed := 0
                       stop := none, readySince := none, ctxs := [] }

/-- The fragment split: `m` leaves it into a new fragment at `pc`, changed by `k` (R61, R64). -/
def splitFrag (s : State) (c : Ctx) (m : W64) (pc : Nat) (e : Option Expect) (k : Frag → Frag) : State :=
  match s.block? c.core with
  | none => s
  | some b =>
    let (n, s) := s.fresh
    let slot := b.place c.g.width c.g.index
    s.mapGroup c.agent fun g =>
      match g.frag? c.f.fid with
      | none => g
      | some f => (g.setFrag { f with mask := f.mask &&& ~~~m }).addFrag (k (newFrag f n m slot pc e n))

/-- A group may hold one more fragment (R63); a lane alone never splits. -/
def State.maySplit (s : State) (c : Ctx) : Bool :=
  match s.block? c.core with
  | some b => c.level == .core && b.maySplit c.g.width c.g.index
  | none => false

/-- The target a lane reads from A (R141, R174). -/
def regTarget (c : Ctx) (w : CtlOp) (l : Nat) : Nat := c.src l .b32 w.a w.imm

/-- The frame of BRX, CALLX and RET (R177, R178): the lanes that share the lowest lane's target move there,
and the others issue the instruction again. -/
def indirect (s : State) (c : Ctx) (w : CtlOp) (k : State → List Nat → State) (kf : Frag → Frag) : Out :=
  let target (l : Nat) : Nat := regTarget c w l
  let ls := c.active
  match ls.find? fun l => !targetOk (target l) with
  | some _ => trapOut s c { cause := .badtgt, detail := 0 }
  | none =>
    if ls.any fun l => c.poisoned l w.a.op 1 then trapOut s c poisonTrap
    else
      let t := target (ls.headD 0)
      let mine := ls.filter fun l => target l == t
      let e := Expect.target c.f.pc
      if mine.length == ls.length then .next ((k s mine).mapFrag c.agent fun f => kf (f.goTo t (some e)))
      else if !s.maySplit c then .next s
      else .next (splitFrag (k s mine) c (lanesMask mine) t (some e) kf)

/-- BRX (R177). -/
def execBrx (w : CtlOp) (s : State) : Out :=
  uniform s (.brx w) w false fun s c =>
    indirect s c w (fun s _ => s) fun f => { f with carried := some w.jx.toNat }

/-- The return offset written to D: once for an S register, else in each lane (R178). -/
def linkWrite (c : Ctx) (d : Opnd) (s : State) (ls : List Nat) : State :=
  let x := BitVec.ofNat 32 (c.f.pc + 16)
  let ls := if writesScalar d then ls.take 1 else ls
  s.mapGroup c.agent fun g => g.writeLocs (ls.flatMap fun l => destLocs d l [x])

/-- CALL (R178). -/
def execCall (w : CtlOp) (s : State) : Out :=
  uniform s (.call w) w true fun s c =>
    if c.f.depth == 31 then trapOut s c { cause := .depth, detail := 0 }
    else
      let t := relTarget c.f.pc w.imm
      .next ((linkWrite c w.d s c.active).mapFrag c.agent fun f => { (f.goTo t (backward f.pc t)) with depth := f.depth + 1 })

/-- CALLX (R178). -/
def execCallx (w : CtlOp) (s : State) : Out :=
  uniform s (.callx w) w true fun s c =>
    if c.f.depth == 31 && c.active.all fun l => targetOk (regTarget c w l) then trapOut s c { cause := .depth, detail := 0 }
    else indirect s c w (linkWrite c w.d) fun f => { f with depth := f.depth + 1 }

/-- RET (R178). -/
def execRet (w : CtlOp) (s : State) : Out :=
  uniform s (.ret w) w false fun s c =>
    if c.f.depth == 0 && c.active.all fun l => targetOk (regTarget c w l) then trapOut s c { cause := .depth, detail := 1 }
    else indirect s c w (fun s _ => s) fun f => { f with depth := f.depth - 1 }

/-! ### The divergent branch and the reservation of contexts -/

/-- A tag that the fragment filled is Pending, or Landed with new set (R335). -/
def openTag (c : Ctx) : Option Nat :=
  (List.range 16).find? fun i =>
    let t := c.g.tag i
    t.belongs c.f.mask && (t.st == .pending || (t.st == .landed && t.fresh))

/-- The TAGUSE of R335 for a tag. -/
def tagTrap (t : Nat) : TrapInfo := { cause := .taguse, detail := t, tag := some t }

/-- EJTHR of a partition as it acts: 9 to 15 act as 8 (R73). -/
def ejectLimit (p : Part) : Nat := min 8 (p.divctl.toNat % 16)

/-- The tender contexts that a block's fragments have reserved. -/
def reservedCtxs (b : Block) : List Nat := b.groups.flatMap fun g => g.frags.flatMap fun f => f.ctxs.map (·.2)

/-- The tender contexts in use on a die: ejected lanes, reservations, harbourmasters. -/
def State.usedCtxs (s : State) (d : Nat) : List Nat :=
  (s.ejected.filter fun e => dieOf e.core == d).map (·.ctx) ++
    (s.cores.filter fun x => dieOf x.1 == d).flatMap (fun x =>
      match x.2.block with
      | some b => reservedCtxs b
      | none => []) ++
    (s.supers.filter fun x => (s.part x.1).base / 2 == d).filterMap fun x => x.2.ctx

/-- The contexts of a die that a partition's lanes hold or have reserved. -/
def State.partCtxs (s : State) (p d : Nat) : Nat :=
  ((s.ejected.filter fun e => dieOf e.core == d).filter fun e =>
    match s.block? e.core with
    | some b => b.part == p
    | none => false).length +
  (s.cores.filter fun x => dieOf x.1 == d).foldl (fun n x =>
    match x.2.block with
    | some b => if b.part == p then n + (reservedCtxs b).length else n
    | none => n) 0

/-- The contexts of one tender in use. -/
def tenderLoad (used : List Nat) (t : Nat) : Nat := (used.filter fun x => x / 8 == t).length

/-- The context that the next lane takes (R74): the tender with the fewest in use, then the lowest tender,
then its lowest free context. -/
def nextCtx (used : List Nat) : Option Nat :=
  let free (t : Nat) : Option Nat := (upFrom (8 * t) 8).find? fun x => !used.contains x
  let ts := (List.range 24).filter fun t => (free t).isSome
  (firstBy (fun x y => decide (tenderLoad used x < tenderLoad used y)) ts).bind free

/-- The contexts that lanes take in ascending order, all or none. -/
def takeCtxs : List Nat → List Nat → Option (Tbl Nat)
  | _, [] => some []
  | used, l :: ls =>
    match nextCtx used with
    | none => none
    | some x =>
      match takeCtxs (x :: used) ls with
      | none => none
      | some t => some ((l, x) :: t)

/-- The contexts for a side, when the grant of the partition on the die allows them (R74). -/
def State.reserve (s : State) (part die : Nat) (ls : List Nat) : Option (Tbl Nat) :=
  if s.partCtxs part die + ls.length ≤ tblGet 0 (s.part part).ejGrant die then takeCtxs (s.usedCtxs die) ls else none

/-- The children of an ejecting BRD begin a new restart point at their targets. -/
def Frag.restartHere (f : Frag) : Frag :=
  { f with rst := { pc := f.pc, sid := f.rst.sid, fmt := f.fmt, xemp := f.xemp, mark := f.mark }, rerun := false }

/-- BRD (R64, R74, R176). DESIGN CHOICE: where the guard is false in every active lane, so that no lane acts and both sides of
R64 are empty, the fragment goes on at the next instruction and carries the register. -/
def execBrd (w : CtlOp) (s : State) : Out :=
  issuing s (.brd w) fun c0 =>
    match openTag c0 with
    | some t => trapOut s c0 (tagTrap t)
    | none =>
      let s := s.settle c0
      let c := s.reread c0
      let j := w.jx.toNat
      let taken := branchLanes c w
      let rest := c.active.filter fun l => !taken.contains l
      let pt := relTarget c.f.pc w.imm
      let pn := c.f.pc + 16
      let et : Option Expect := (backward c.f.pc pt).or (some (.strand 1 c.f.pc))
      let en : Option Expect := some (.strand 1 c.f.pc)
      if rest.isEmpty then .next (s.mapFrag c.agent fun f => { (f.goTo pt et) with carried := some j })
      else if taken.isEmpty then .next (s.mapFrag c.agent fun f => { (f.goTo pn en) with carried := some j })
      else if !s.maySplit c then .next s
      else
        let ejectTaken := decide (taken.length ≤ rest.length)
        let side := if ejectTaken then taken else rest
        let bit := if ejectTaken then w.ejt else w.ejf
        let ctxs := if bit && side.length ≤ ejectLimit (s.part c.part) then s.reserve c.part (dieOf c.core) side else none
        match ctxs with
        | none =>
          let s := splitFrag s c (lanesMask taken) pt et fun f => { f with carried := some j }
          .next (s.mapFrag c.agent fun f => { (f.goTo pn en) with carried := some j })
        | some t =>
          let s := (s.commit c.agent).recordSrs c.agent
          let (n, s) := s.fresh
          let away (f : Frag) : Frag := { f with wait := .handover n none, ctxs := t }
          let s := splitFrag s c (lanesMask taken) pt et fun f =>
            let f := ({ f with carried := some j } : Frag).restartHere
            if ejectTaken then away f else f
          .next (s.mapFrag c.agent fun f =>
            let f := ({ (f.goTo pn en) with carried := some j } : Frag).restartHere
            if ejectTaken then f else away f)

/-! ### Exit -/

/-- A block every thread of which has exited is retiring (R35). -/
def State.testRetiring (s : State) (core : Nat) : State :=
  match s.block? core with
  | none => s
  | some b => if b.liveThreads == 0 then s.setBlock core { b with st := .retiring } else s

/-- What an exit of lanes of a block's group brings about: rejoin covers, barriers, the end of the block
(R37, R67, R232). -/
def State.exitTests (s : State) (core index : Nat) : State :=
  let s := match s.group? (.grp core index) with
    | some g => s.setGroup (g.testCovers s.clock) (.grp core index)
    | none => s
  (s.completeBars core).testRetiring core

/-- Lanes leave their fragment; one that loses every lane ceases to exist (R179). -/
def Group.exitLanes (g : Group) (fid : Nat) (ls : List Nat) : Group :=
  let g := g.mapLanes ls fun t => { t with exited := true }
  match g.frag? fid with
  | none => g
  | some f =>
    let m := f.mask &&& ~~~lanesMask ls
    if m == 0#64 then g.dropFrag fid else g.setFrag { f with mask := m }

/-- The OVF of an ejected lane joins that of its group (R270). -/
def Group.joinOvf (g : Group) (e : Group) : Group := { g with ovf := g.ovf || e.ovf, ovfn := g.ovfn || e.ovf }

/-- The lane of a thread index and the group that holds it (R24). -/
def threadLane (width t : Nat) : Nat × Nat := (t / width, t % width)

/-- An ejected lane exits (R79, R179): its context is free and its home thread has exited. -/
def exitAway (s : State) (k t : Nat) (e : Ejected) : State :=
  let (gi, l) := threadLane e.grp.width t
  let s := s.freeContext e
  match s.group? (.grp k gi) with
  | none => s
  | some g =>
    let g := (g.joinOvf e.grp).setLane l { g.lane l with exited := true, away := false }
    (s.setGroup (g.joinTiles e.grp) (.grp k gi)).exitTests k gi

/-- EXIT (R179). -/
def execExit (w : CtlOp) (s : State) : Out :=
  issuing s (.exit w) fun c =>
    let ls := c.acting w.guard
    match (if ls.isEmpty then none else openTag c) with
    | some t => trapOut s c (tagTrap t)
    | none =>
      let s := s.ensureCommit c
      let c := s.reread c
      match s.takeMark c with
      | none => waiting s c .perform
      | some t =>
        if ls.isEmpty then .next (t.performed c.agent)
        else
          match c.agent with
          | .frag k gi fid =>
            let t := t.performed c.agent
            .next ((t.mapGroup c.agent fun g => g.exitLanes fid ls).exitTests k gi)
          | .ejected k n =>
            if !s.fifosEmpty c then waiting s c .perform
            else
              (match t.ejected? k n with
               | some e => .next (exitAway t k n e)
               | none => .next t)
          | .hm p =>
            let t := (t.performed c.agent).mapGroup c.agent fun g => g.mapLanes ls fun x => { x with exited := true }
            (match tblFind t.supers p with
             | some h => .next { t with supers := tblInsert t.supers p { h with run := false } }
             | none => .next t)

/-! ### Rejoin -/

/-- RJSET (R66, R180). -/
def execRjset (w : CtlOp) (s : State) : Out :=
  issuing s (.rjset w) fun c =>
    let j := w.jx.toNat
    let r := RejReg.make (relTarget c.f.pc w.imm) c.f.depth c.f.carried c.f.fmt c.f.mask
    let limit := rejoinLimit (s.part c.part)
    let s := s.mapGroup c.agent fun g => (g.setRej j r).reexamine s.clock j true limit
    finish s c

/-- An ejected lane stands at the RJWAIT by which it returns (R79): it carries the register it left with, at the RPC and the
DEPTH which that register had then. -/
def returning (s : State) (c : Ctx) (j : Nat) : Bool :=
  match c.agent with
  | .ejected k t =>
    match s.ejected? k t with
    | some e => e.home == some (j, c.f.pc, c.f.depth) && c.f.carried == some j
    | none => false
  | _ => false

/-- RJWAIT (R67 to R69, R79, R181). -/
def execRjwait (w : CtlOp) (s : State) : Out :=
  issuing s (.rjwait w) fun c =>
    match openTag c with
    | some t => trapOut s c (tagTrap t)
    | none =>
      let j := w.jx.toNat
      let s := s.settle c
      if returning s c j then .next ((s.commitAt c.agent).park c.agent (.rejoin j))
      else .next (s.arrive c.agent c.part j)

/-- The words of a rejoin register's image (R70). -/
def rejWords (width : Nat) (r : RejReg) : List W32 :=
  words 64 r.img.toNat ++ (if width == 64 then [r.hi, 0#32] else [])

/-- RJMOV, read (R70, R182). -/
def execRjmovRead (w : CtlOp) (s : State) : Out :=
  issuing s (.rjmovRead w) fun c =>
    let ws := destLocs w.d 0 (rejWords c.g.width (c.g.rej w.jx.toNat))
    finish (s.mapGroup c.agent fun g => g.writeLocs ws) c

/-- RJMOV, write (R70, R182): mask bits that the width does not have stay 0. -/
def execRjmovWrite (w : CtlOp) (s : State) : Out :=
  issuing s (.rjmovWrite w) fun c =>
    let j := w.jx.toNat
    let img := BitVec.ofNat 64 (c.regs 0 w.a.op 2)
    let img := if c.g.width == 16 then img &&& ~~~(0xFFFF0000#64) else img
    let hi := if c.g.width == 64 then c.reg 0 w.a.op 2 else 0#32
    let limit := rejoinLimit (s.part c.part)
    let s := s.mapGroup c.agent fun g =>
      (g.setRej j { g.rej j with img := img, hi := hi }).reexamine s.clock j false limit
    finish s c

/-- ELECT (R183). -/
def execElect (w : CtlOp) (s : State) : Out :=
  issuing s (.elect w) fun c =>
    let e := c.active.headD 0
    let s := s.mapGroup c.agent fun g =>
      let g := c.active.foldl (fun g l => g.setLane l ((g.lane l).setPred (w.imm.toNat % 8) (l == e))) g
      g.writeLocs (destLocs w.d e [BitVec.ofNat 32 e])
    finish s c

/-! ### Strands and pacing -/

/-- NOP (R184). -/
def execNop (w : CtlOp) (s : State) : Out := issuing s (.nop w) fun c => finish s c

/-- The lanes of a fragment as SBEG leaves them: the near file zero, SRS recorded (R46, R95). -/
def Thread.begin (t : Thread) : Thread := { t with n := [], srsRst := t.srs }

/-- SBEG (R48, R57, R270): the commit, the tags, the pending RSHRINK and clear, then the strand's record. -/
def execSbeg (w : CtlOp) (s : State) : Out :=
  issuing s (.sbeg w) fun c =>
    let s := s.commit c.agent
    let s := s.mapGroup c.agent fun g =>
      let g := g.mapTags c.f.mask Tag.begin
      let g := g.mapLanes c.active Thread.begin
      if c.f.ovfClear then g.applyClear else g
    let s := s.applyShrink c
    let s := s.mapFrag c.agent fun f =>
      { f with rst := { pc := f.pc, sid := w.imm.toNat % 65536, fmt := f.fmt, xemp := f.xemp, mark := f.mark }
               ovfClear := false
               trans := if f.rerun then f.trans else 0 }
    finish s c

/-- SLEEP (R185). -/
def execSleep (w : CtlOp) (s : State) : Out :=
  issuing s (.sleep w) fun c =>
    let n := min (c.src 0 .b32 w.a w.imm) (2 ^ 20)
    let s := s.advance c.agent
    if (c.acting w.guard).isEmpty || n == 0 then .next s
    else .next (s.park c.agent (.sleep (s.clock + coreTicks n) false))

/-- YIELD (R185). -/
def execYield (w : CtlOp) (s : State) : Out :=
  issuing s (.yield w) fun c =>
    let s := s.advance c.agent
    if (c.acting w.guard).isEmpty then .next s
    else .next (s.park c.agent (.sleep (s.clock + coreTicks 16) true))

/-- SLEEP_WAKE (R185): the wake time has passed, or a YIELD finds no other fragment of its quadrant ready. -/
def execSleepWake (a : Agent) (s : State) : Out :=
  match s.ctx? a with
  | none => .next s
  | some c =>
    match c.f.wait with
    | .sleep till yielding =>
      if till ≤ s.clock || (yielding && yieldOver s c) then .next (s.wake a) else .next s
    | _ => .next s

end Sys2Proof.Machine
end

