-- ==== Sys2Proof/Machine/Ejection.lean ====
section
/-! DEFINITION. Ejected lanes: the survivor table (R54), the hand-over (R76), the return (R79), the recall at
a suspension (R80), and a strike of the hand-over (R343). -/

namespace Sys2Proof.Machine

/-! ### The survivor table -/

/-- The SBEG id at a PC of an issuer, where an SBEG stands there. -/
def State.sbegId (s : State) (c : Ctx) (pc : Nat) : Option Nat :=
  match peekInstr s { c with f := { c.f with pc := pc } } with
  | some (.sbeg w) => some (w.imm.toNat % 65536)
  | _ => none

/-- The survivor entry of an SBEG id as memory holds it (R54); an unmapped table lists nothing. -/
def State.survEntry (s : State) (c : Ctx) (id : Nat) : BitVec 512 :=
  let va := c.kern.survTab + BitVec.ofNat 64 (64 * id)
  match s.xlatSee c va .read with
  | some e => BitVec.ofNat 512 (leNat (s.mscRead (e.phys va.toNat) 64))
  | none => 0#512

/-- The survivor entry of the strand that a fragment reruns (R54, R58): of the SBEG at its restart point, or, where that is a
strand-ending instruction, of the strand that it ended. -/
def State.restartEntry (s : State) (c : Ctx) : BitVec 512 :=
  s.survEntry c ((s.sbegId c c.f.rst.pc).getD c.f.rst.sid)

/-- The survivor entry of the SBEG at a PC. -/
def State.survAt (s : State) (c : Ctx) (pc : Nat) : BitVec 512 :=
  match s.sbegId c pc with
  | some id => s.survEntry c id
  | none => 0#512

/-- Vi is listed. -/
def survV (e : BitVec 512) (i : Nat) : Bool := e.getLsbD i
/-- Si is listed. -/
def survS (e : BitVec 512) (i : Nat) : Bool := e.getLsbD (256 + i)
/-- Pi is listed. -/
def survP (e : BitVec 512) (i : Nat) : Bool := e.getLsbD (320 + i)
/-- Ji is listed. -/
def survJ (e : BitVec 512) (i : Nat) : Bool := e.getLsbD (328 + i)
/-- Li is listed. -/
def survL (e : BitVec 512) (i : Nat) : Bool := e.getLsbD (352 + i)

/-- The survivor count n of R54: the bits of VMASK, SMASK, PMASK and LMASK. -/
def survCount (e : BitVec 512) : Nat :=
  ((List.range 256).filter (survV e)).length + ((List.range 64).filter (survS e)).length +
    ((List.range 7).filter (survP e)).length + ((List.range 16).filter (survL e)).length

/-- The thread `t` with the survivors of an entry taken from `x` (R76, R79); SRS and the arrival bits travel
with the lane (R95, R232). -/
def Thread.take (t x : Thread) (v p : Nat → Bool) : Thread :=
  let regs := (List.range 256).filter v
  let m : BitVec 7 := ((List.range 7).filter p).foldl (fun m i => m ||| (1#7 <<< i)) 0#7
  { t with
    v := regs.foldl (fun a i => tblSet 0#32 a i (x.vreg i)) t.v
    p := (x.p &&& m) ||| (t.p &&& ~~~m)
    srs := x.srs
    srsRst := x.srsRst
    arv := x.arv
    bad := (t.bad.filter fun i => !v i) ++ x.bad.filter v }

/-! ### The hand-over -/

/-- The thread index of a lane (R24). -/
def threadOf (g : Group) (l : Nat) : Nat := g.width * g.index + l

/-- A lane as its tender context begins: the manual gives what is not listed no value. -/
def tenderLane (s : State) (e : BitVec 512) (x : Thread) (l : Nat) : Thread :=
  let free (i : Nat) : W32 := (Config.freeWord s.freeCtr (512 * l + i)).setWidth 32
  let base : Thread :=
    { Thread.absent with
      present := true
      exited := false
      v := (List.range 256).foldl (fun t i => tblSet 0#32 t i (free i)) []
      p := (Config.freeWord s.freeCtr (512 * l + 256)).setWidth 7 }
  base.take x (survV e) (survP e)

/-- The tags that travel with a lane: the listed ones that are Landed, with their data (R76). -/
def laneTags (g : Group) (e : BitVec 512) (l : Nat) : Tbl Tag :=
  (List.range 16).foldl (fun ts i =>
    let t := g.tag i
    if survL e i && t.mask.getLsbD l && t.st == .landed then
      let key := if t.scalar then 0 else l
      tblSet Tag.empty ts i { t with fresh := false, mask := lanesMask [l],
                                     data := t.data.filter fun d => d.1 == key,
                                     bad := t.bad.filter fun b => b % 64 == key }
    else ts) []

/-- A tag without a lane; one that has no lane left is Empty. -/
def Tag.without (t : Tag) (l : Nat) : Tag :=
  let m := t.mask &&& ~~~lanesMask [l]
  if t.mask.getLsbD l && m == 0#64 then Tag.empty else { t with mask := m }

/-- The copies of rejoin registers that travel: those of JMASK and the carried one, with masks that hold the
lane alone (R76, R77); an empty one stays empty. -/
def laneRejs (g : Group) (e : BitVec 512) (carried : Option Nat) (l : Nat) : Tbl RejReg :=
  (List.range 8).foldl (fun t j =>
    if survJ e j || carried == some j then
      tblSet RejReg.empty t j
        { (if (g.rej j).mask == 0#64 then g.rej j else (g.rej j).setMask (lanesMask [l])) with arrival := none }
    else t) []

/-- The group of a tender context that takes a lane of `g` from the child fragment `f` (R76); the lane's accepted tile stores
stay its own (R133). -/
def tenderGroup (s : State) (g : Group) (f : Frag) (e : BitVec 512) (l : Nat) : Group where
  width := g.width
  index := g.index
  s := (List.range 64).foldl (fun t i =>
    tblSet 0#32 t i (if survS e i then g.sreg i else (Config.freeWord s.freeCtr (512 * l + 300 + i)).setWidth 32)) []
  j := laneRejs g e f.carried l
  t := []
  tags := laneTags g e l
  ovf := false
  ovfn := false
  lanes := (List.replicate g.width Thread.absent).set l (tenderLane s e (g.lane l) l)
  frags := [{ f.abort with fid := 0, mask := lanesMask [l], xemp := false, rst := { f.rst with xemp := false }
                           wait := .none, expect := f.expect, rerun := false, slot := .entry 0, readyAt := s.clock, halfTill := s.clock, half := none
                           readySince := none, ctxs := [] }]
  sbuf := []
  tsts := g.tsts.filter fun t => t.mask.getLsbD l
  mloads := []

/-- One lane of a handed-over side leaves its warp for its context (R76, steps 3 and 4); it knows the rejoin at which it
returns (R79). -/
def handOver (s : State) (c : Ctx) (l ctx : Nat) : State :=
  let e := s.survAt c c.f.pc
  let g := tenderGroup s c.g c.f e l
  let x : Ejected :=
    { core := c.core, thread := threadOf c.g l, ctx := ctx, grp := g, fifo := [], g := c.granted, readyAt := s.clock
      home := c.f.carried.map fun j => (j, (c.g.rej j).rpc, (c.g.rej j).depth), wrote := [] }
  let s := s.drawn.mapGroup c.agent fun g =>
    let g := g.setLane l { g.lane l with away := true, n := [] }
    let g := { g with tags := (List.range 16).foldl (fun ts i => tblSet Tag.empty ts i ((g.tag i).without l)) g.tags
                      tsts := g.tsts.filter fun t => !t.mask.getLsbD l }
    let m := c.f.mask &&& ~~~lanesMask [l]
    if m == 0#64 then g.dropFrag c.f.fid
    else g.setFrag { c.f with mask := m, ctxs := tblErase c.f.ctxs l }
  { s with ejected := s.ejected ++ [x] }

/-- The fragment that hands a thread of a block over. -/
def handoverCtx (s : State) (core thread : Nat) : Option Ctx :=
  match s.block? core with
  | none => none
  | some b =>
    let (gi, l) := threadLane b.kern.w thread
    match s.group? (.grp core gi) with
    | none => none
    | some g =>
      (g.frags.find? fun f => f.mask.getLsbD l && f.stop.isNone && (match f.wait with
        | .handover _ _ => true
        | _ => false)).bind fun f => s.ctx? (.frag core gi f.fid)

/-- The entries of a warp appended up to a commit have drained (R76, step 2). -/
def drainedTo (s : State) (c : Ctx) (serial : Nat) : Bool :=
  c.fifos.all fun i => (s.fifo i).all fun e => decide (serial < e.serial)

/-- EJECT_HANDOVER (R76): at the end of the drain, the dirty lines of the cluster's slice are written back, which
writes every global entry of the warp through to the memory-side cache; 40 + 2n core cycles later the lanes of the side are
handed over, all at once. DEDUCED: the entries written through include those that had drained into the slice before. -/
def execEjectHandover (core thread : Nat) (s : State) : Out :=
  match handoverCtx s core thread with
  | none => .next s
  | some c =>
    match c.f.wait with
    | .handover n none =>
      if drainedTo s c n then .next ((s.releaseAction (clusterOf c.core) .stk).park c.agent (.handover n (some s.clock)))
      else .next s
    | .handover _ (some t) =>
      let n := survCount (s.survAt c c.f.pc)
      if t + coreTicks (40 + 2 * n) ≤ s.clock then
        .next (c.f.ctxs.foldl (fun (s : State) x =>
          match s.ctx? c.agent with
          | some c => handOver s c x.1 x.2
          | none => s) s)
      else .next s
    | _ => .next s

/-- A TRANS fault that strikes the hand-over (R343): the side is not ejected, its contexts are free, and it
goes on in the warp as a child. -/
def handoverStruck (s : State) (c : Ctx) : State :=
  let s := s.mapFrag c.agent fun f => { f with wait := .none, ctxs := [] }
  s.post c.part .ifArmed { (s.recOf c .trans).restart s c c.f with detail := 2, fpc := c.f.pc }

/-! ### The return -/

/-- The tag data of a lane joined to a tag of its group. -/
def Tag.joinLane (t x : Tag) (l : Nat) : Tag :=
  if t.st == .empty then x
  else
    let key := if t.scalar then 0 else l
    { t with mask := t.mask ||| lanesMask [l], data := x.data.foldl (fun d y => tblSet [] d key y.2) t.data
             bad := t.bad ++ x.bad.filter fun b => !t.bad.contains b }

/-- A lane comes back to its group with survivors, its OVF and its accepted tile stores; its fragment is a
new one of the warp (R79, R80, R270). -/
def comeHome (s : State) (k t : Nat) (e : Ejected) (entry : BitVec 512) (whole : Bool) (f : Frag) : Nat × State :=
  let (gi, l) := threadLane e.grp.width t
  let s := s.freeContext e
  match s.group? (.grp k gi), s.block? k with
  | some g, some b =>
    let (n, s) := s.fresh
    let x := e.grp.lane l
    let home := ((g.lane l).take x (fun i => whole || survV entry i) (fun i => whole || survP entry i))
    let g := (g.joinOvf e.grp).setLane l { home with away := false }
    let g := (List.range 16).foldl (fun g i =>
      if survL entry i && (e.grp.tag i).st == .landed then g.setTag i ((g.tag i).joinLane (e.grp.tag i) l) else g) g
    let g := g.joinTiles e.grp
    let g := g.addFrag { f with fid := n, mask := lanesMask [l], slot := (if b.maySplit g.width gi then b.place g.width gi else .outside), loaded := n, issued := false
                                missed := 0, xemp := false, rst := { f.rst with xemp := false }, ctxs := [] }
    (n, s.setGroup g (.grp k gi))
  | _, _ => (0, s)

/-- A lane may come back as a fragment of its warp: it combines with the one that waits on the register, or the budget of R63
allows one more. -/
def mayReturn (s : State) (k t : Nat) (e : Ejected) (j : Nat) (f : Frag) : Bool :=
  match s.block? k, s.group? (.grp k (threadLane e.grp.width t).1) with
  | some b, some g => ((g.waiter j).isSome && (g.rej j).fits j f) || b.maySplit g.width g.index
  | _, _ => true

/-- A drained lane arrives at the rejoin of its home warp (R79, R344): with the survivors of the SBEG after the RJWAIT it is a
one-lane fragment that issues RJWAIT there. -/
def homeAtRejoin (s : State) (core thread : Nat) (e : Ejected) (c : Ctx) (j : Nat) : State :=
  let (n, s) := comeHome s core thread e (s.survAt c (c.f.pc + 16)) false { c.f with wait := .none }
  s.arrive (.frag core e.grp.index n) c.part j

/-- EJECT_RETURN (R79): the drained lane sends its survivors home, frees its context and issues RJWAIT as a
one-lane fragment of its warp. DEDUCED: while R61 and R63 leave no room for its fragment, it stays on its tender. -/
def execEjectReturn (core thread : Nat) (s : State) : Out :=
  match s.ctx? (.ejected core thread), s.ejected? core thread with
  | some c, some e =>
    match c.f.wait with
    | .rejoin j =>
      if e.fifo.isEmpty && c.f.stop.isNone && mayReturn s core thread e j c.f then .next (homeAtRejoin s core thread e c j)
      else .next s
    | _ => .next s
  | _, _ => .next s

/-- The recall of an ejected lane whose committed entries have drained (R80, R344): its strand aborts, unless
it is stopped, and it is a fragment of its warp at its restart PC. The survivors of its strand
come with it, as R79 returns them: V registers, P bits and landed tag data; a lane that stands at the RJWAIT by which it
returns arrives as R79 states. DEDUCED: no S register and no copy of a rejoin register comes back, of which R79 sends none;
a lane for which R61 and R63 leave no room comes home beside its warp, and enters it when there is room. -/
def recallLane (s : State) (e : Ejected) : State :=
  match s.ctx? (.ejected e.core e.thread) with
  | none => s
  | some c =>
    let g := if c.f.aborts then c.g.abort c.f else c.g
    let f := (g.frag? 0).getD c.f
    let e := { e with grp := g }
    let c := { c with g := g, f := f }
    match f.wait, f.stop with
    | .rejoin j, none =>
      if mayReturn s e.core e.thread e j f then homeAtRejoin s e.core e.thread e c j
      else (comeHome s e.core e.thread e (s.survAt c (f.pc + 16)) false { f with wait := .none }).2
    | .rejoin _, some _ => (comeHome s e.core e.thread e (s.restartEntry c) false { f with wait := .none, committed := false }).2
    | _, _ => (comeHome s e.core e.thread e (s.restartEntry c) f.committed f).2

end Sys2Proof.Machine
end

