-- ==== Sys2Proof/Machine/Engines.lean ====
section
/-! DEFINITION. Engine queues and commands at issue (R238 to R250, R252, R253, R265): manifests, guard slots,
the acceptance of entries, queue waits and signals. -/

namespace Sys2Proof.Machine

/-! ### Queues -/

/-- The entries of an engine queue, oldest first. -/
def State.engineQueue (s : State) : QueueId → List QEntry
  | .copy c => (s.core c).queue
  | .matrix p => (s.pair p).queue
  | .coll v d => tblGet [] s.kqueues (32 * v + d)

/-- The state with an engine queue replaced. -/
def State.setEngineQueue (s : State) (q : QueueId) (es : List QEntry) : State :=
  match q with
  | .copy c => s.setCore c { s.core c with queue := es }
  | .matrix p => s.setPair p { s.pair p with queue := es }
  | .coll v d => { s with kqueues := tblSet [] s.kqueues (32 * v + d) es }

/-- Every engine queue that holds an entry. -/
def State.busyQueues (s : State) : List QueueId :=
  (s.cores.filterMap fun x => if x.2.queue.isEmpty then none else some (QueueId.copy x.1)) ++
    (s.pairs.filterMap fun x => if x.2.queue.isEmpty then none else some (QueueId.matrix x.1)) ++
    s.kqueues.map fun x => .coll (x.1 / 32) (x.1 % 32)

/-- The collective slots that a partition's queues take on a die (R238). -/
def State.collSlots (s : State) (part die : Nat) : Nat :=
  s.kqueues.foldl (fun n x =>
    if x.1 % 32 == die then
      n + (x.2.filter fun e => (s.vd e.fe e.vd).part.toNat == part).length
    else n) 0

/-- A queue has a free slot for an entry of a partition (R238, R240). -/
def State.queueFree (s : State) (q : QueueId) (part : Nat) : Bool :=
  match q with
  | .copy _ => decide ((s.engineQueue q).length < 32)
  | .matrix _ => decide ((s.engineQueue q).length < 16)
  | .coll _ d => decide (s.collSlots part d < tblGet 0 (s.part part).kqGrant d)

/-- The queue that serves a core for an entry withdrawn from another one (R245). -/
def requeue (core : Nat) : QueueId → QueueId
  | .copy _ => .copy core
  | .matrix _ => .matrix (core / 2)
  | .coll v _ => .coll v (dieOf core)

/-- A block has entries to be accepted again by a queue (R245). -/
def Block.owes (b : Block) (core : Nat) (q : QueueId) : Bool := b.withdrawn.any fun x => requeue core x.1 == q

/-- The entries withdrawn from the block of a core accepted again, in their old order, as far as slots are free (R245). -/
def State.reaccept (s : State) (core : Nat) : State :=
  match s.block? core with
  | none => s
  | some b =>
    let (s, left) := b.withdrawn.foldl (fun (r : State × List (QueueId × QEntry)) x =>
      let q := requeue core x.1
      if (r.2.any fun y => requeue core y.1 == q) || !r.1.queueFree q b.part then (r.1, r.2 ++ [x])
      else (r.1.setEngineQueue q (r.1.engineQueue q ++ [{ x.2 with core := core }]), r.2)) (s, [])
    match s.block? core with
    | some b => s.setBlock core { b with withdrawn := left }
    | none => s

/-- The fragments that stall on a queue, with their order (R240). -/
def State.stalled (s : State) (q : QueueId) : List (Nat × Agent) :=
  s.agents.filterMap fun a =>
    match s.ctx? a with
    | some c =>
      (match c.f.wait with
       | .engine q' o => if q' == q && c.f.stop.isNone then some (o, a) else none
       | _ => none)
    | none => none

/-! ### What a command captures -/

/-- The value of a scalar operand of an engine word. -/
def engSrc (c : Ctx) (w : EngOp) (x : Src) : W32 := BitVec.ofNat 32 (c.src 0 .b32 x w.imm)

/-- A signed 32-bit operand of CPY (R142, R251). -/
def engOffset (c : Ctx) (w : EngOp) (x : Src) : W32 := BitVec.ofNat 32 (c.src 0 .i32 x w.imm)

/-- The 64-bit value of an S or K pair. -/
def engPair (c : Ctx) (o : Opnd) : W64 := BitVec.ofNat 64 (c.regs 0 o 2)

/-- The barrier object that D names, by its scratchpad address (R239). -/
def engObject (c : Ctx) (d : Opnd) : Option W32 :=
  match d with
  | .scal i => some (c.g.sreg i.toNat)
  | _ => none

/-- The guard slot of a word (R239). -/
def engGate (w : EngOp) : Option Nat := if w.gv then some w.gslot.toNat else none

/-- The manifest that EXT names. -/
def engManifest (w : EngOp) : Nat := w.ext.toNat / 32

/-- The pair engine of a core (R254). -/
def pairOf (core : Nat) : Nat := core / 2

/-- The queues that QFNC and QWAIT name (R252, R253): bits of cores that are not mapped, or run no block of
the virtual device, are ignored (R368). -/
def namedQueues (s : State) (c : Ctx) (w : EngOp) : List QueueId :=
  match s.block? c.core with
  | none => []
  | some b =>
    let copies := (List.range 32).filterMap fun k =>
      if w.imm.getLsbD k then
        match (s.vdOf c).core? b.lclu k with
        | none => none
        | some core =>
          match s.block? core with
          | some o => if o.fe == c.fe && o.vd == c.vd then some (QueueId.copy core) else none
          | none => none
      else none
    copies ++ (if w.ext.getLsbD 7 then [.matrix (pairOf c.core)] else []) ++
      (if w.ext.getLsbD 6 then [.coll c.vd (dieOf c.core)] else [])

/-- The entries of a device that have been withdrawn from a queue, or wait to be accepted by it again (R245). -/
def State.withdrawnFrom (s : State) (f v : Nat) (q : QueueId) : List QEntry :=
  (s.cores.flatMap fun x => (x.2.block.filter fun b => b.fe == f && b.vd == v).elim [] fun b =>
      (b.withdrawn.filter fun y => requeue x.1 y.1 == q).map (·.2)) ++
    s.parts.flatMap fun p => (p.2.saved.filter fun g => g.fe == f && g.vd == v).flatMap fun g =>
      g.blocks.flatMap fun b => (b.withdrawn.filter fun y => y.1 == q).map (·.2)

/-- The entries of the issuer's virtual device that the named queues have accepted and that have not performed: those that
they hold now, and those that have been withdrawn from them (R252, R253). -/
def namedEntries (s : State) (c : Ctx) (w : EngOp) : QueueWait :=
  (namedQueues s c w).map fun q =>
    (q, (((s.engineQueue q).filter fun e => e.fe == c.fe && e.vd == c.vd) ++ s.withdrawnFrom c.fe c.vd q).map (·.id))

/-- The hardware lanes that contribute to MLDB with the group lane of each (R255). -/
def mldbLanes (c : Ctx) (w : EngOp) : List (Nat × Nat) :=
  ((c.acting w.guard).filter fun l => c.g.width != 64 || decide (l < 32)).map fun l => (hwLane c.g.width c.g.index l, l)

/-- A register that MLDB reads in a lane, modified on its own, or as the pair of .f64 (R141, R142, R255). -/
def mldbWord (c : Ctx) (w : EngOp) (l r : Nat) : W32 :=
  BitVec.ofNat 32 (if w.ty.isPair then modifySource w.ty w.a (c.regs l w.a.op 2) / 2 ^ (32 * r)
    else modifySource w.ty w.a (c.reg l w.a.op r).toNat)

/-- The words that MLDB captures: per register, the words of the 32 lanes (R255). -/
def mldbData (c : Ctx) (w : EngOp) : List (List W32) :=
  let ls := mldbLanes c w
  (List.range (mldbSpan w.ty)).map fun r =>
    (List.range 32).map fun j =>
      match ls.find? fun x => x.1 == j with
      | some x => mldbWord c w x.2 r
      | none => 0#32

/-- The scale bytes that MLDB captures: of the modified B (R86, R141). -/
def mldbScales (c : Ctx) (w : EngOp) : List Byte :=
  let ls := mldbLanes c w
  (List.range 32).map fun j =>
    match ls.find? fun x => x.1 == j with
    | some x => if w.ty == .q4 then BitVec.ofNat 8 (modifySource .b32 w.b (c.reg x.2 w.b.op 0).toNat) else 0#8
    | none => 0#8

/-- The rounding of MACC resolved at issue (R261): code 5 is FMT.RM of the fragment. -/
def maccRnd (c : Ctx) (w : EngOp) : Rnd :=
  match w.mode.toNat with
  | 0 => .rne
  | 1 => .rtz
  | 2 => .rup
  | 3 => .rdn
  | 4 => .sr
  | _ =>
    match c.f.fmt.toNat % 4 with
    | 0 => .rne
    | 1 => .rtz
    | 2 => .rup
    | _ => .rdn

/-- What an accepted command consists of: its queue, object, guard and operation. -/
structure Capture where
  q : QueueId
  obj : Option W32
  gate : Option Nat
  op : EngineOp

/-- The capture of a command (R240); MACC under SR takes its seed from the lowest acting lane (R261). -/
def captureOf (s : State) (c : Ctx) (i : Instr) : Option Capture :=
  let die := dieOf c.core
  match i with
  | .cpy w => some ⟨.copy c.core, engObject c w.d, engGate w,
      .cpy (c.g.manifest (engManifest w)) (engOffset c w w.a) (engOffset c w w.b)⟩
  | .ldgs w => some ⟨.copy c.core, (match w.c.op with
      | .none => none
      | o => some (c.reg 0 o 0)), none, .ldgs (engPair c w.a.op) (c.reg 0 w.b.op 0) w.imm.toNat⟩
  | .qfncCq w => some ⟨.copy c.core, none, none, .qfnc (namedEntries s c w)⟩
  | .qfncMq w => some ⟨.matrix (pairOf c.core), none, none, .qfnc (namedEntries s c w)⟩
  | .qfncKq w => some ⟨.coll c.vd die, none, none, .qfnc (namedEntries s c w)⟩
  | .mldb w => some ⟨.matrix (pairOf c.core), none, engGate w,
      .mldb (w.ext.toNat / 16 % 2) (quadOf c.g.width c.warp) w.ty (w.mode == 4#3) (mldbData c w) (mldbScales c w)⟩
  | .mma w => some ⟨.matrix (pairOf c.core), engObject c w.d, engGate w,
      .mma w.ty (w.ext.toNat / 32) (w.ext.toNat / 16 % 2) (w.mode.getLsbD 2) (w.mode.getLsbD 1) (engSrc c w w.a)
        (engSrc c w w.b) (engSrc c w w.c)⟩
  | .macc w => some ⟨.matrix (pairOf c.core), engObject c w.d, engGate w,
      .macc w.ty (maccRnd c w) (w.ext.toNat / 32) (w.ext.getLsbD 4) (w.ext.getLsbD 3) (w.ext.getLsbD 2)
        (w.ext.getLsbD 1) (w.ext.getLsbD 0) (engSrc c w w.a) (engSrc c w w.b) (engSrc c w w.c)
        (srsAdvance (c.g.lane ((c.acting w.guard).headD 0)).srs)⟩
  | .mtbl w => some ⟨.matrix (pairOf c.core), none, engGate w, .mtbl (engSrc c w w.a)⟩
  | .coll w => some ⟨.coll c.vd die, engObject c w.d, engGate w,
      .coll w.ty w.mode.toNat (w.ext.toNat % 32) (c.g.manifest (engManifest w)) (engSrc c w w.a)
        (match w.b.op with
         | .none => none
         | o => some (engPair c o)) (engSrc c w w.c)⟩
  | _ => none

/-- MACC under SR advances the SRS of the lowest acting lane, and the lane keeps it (R261). -/
def seedTaken (s : State) (c : Ctx) (i : Instr) : State :=
  match i with
  | .macc w =>
    if maccRnd c w == .sr then
      let l := (c.acting w.guard).headD 0
      s.mapGroup c.agent fun g => g.setLane l { g.lane l with srs := srsAdvance (g.lane l).srs }
    else s
  | _ => s

/-- A command accepted by its queue (R240): the entry, and its fragment past the command. -/
def accept (s : State) (c : Ctx) (i : Instr) (x : Capture) : State :=
  match s.block? c.core with
  | none => s
  | some b =>
    let (n, s) := s.fresh
    let e : QEntry :=
      { id := n, fe := c.fe, vd := c.vd, core := c.core, block := b.index, gang := b.gang, warp := c.warp, pc := c.f.pc
        serial := n, obj := x.obj, gate := x.gate, op := x.op, passed := false, begun := false, progress := 0, page := none
        retries := 0, lines := [], taint := none, spoilt := [], run := none }
    let s := s.setEngineQueue x.q (s.engineQueue x.q ++ [e])
    ((seedTaken s c i).wake c.agent).performed c.agent

/-- The perform step of a command (R240): accepted, or stalled behind a full queue and earlier stalls. -/
def submit (s : State) (c : Ctx) (i : Instr) : Out :=
  match captureOf s c i with
  | none => .next s
  | some x =>
    if s.queueFree x.q c.part && (s.stalled x.q).isEmpty && !(s.block? c.core).any (fun b => b.owes c.core x.q) then
      .next (accept s c i x)
    else
      let (n, s) := s.fresh
      waiting s c (.engine x.q n)

/-- The frame of a command: the checks of stage 5, the commit, the release mark, then the perform step `k`, which waits
for the acquire loads before it (R126); without an acting lane it only commits (R140, R239). A command that has committed
does not trap (R345). -/
def command (s : State) (c : Ctx) (g : Guard) (trap : Option TrapInfo) (k : State → Ctx → Out) : Out :=
  match (if (c.acting g).isEmpty || c.f.committed then none else trap) with
  | some t => trapOut s c t
  | none =>
    let s := s.ensureCommit c
    match (if (acquirePending c).isSome then none else s.takeMark (s.reread c)) with
    | none => waiting s c .perform
    | some t => if (c.acting g).isEmpty then .next (t.performed c.agent) else k t (t.reread c)

/-- MISALN where a value is not a multiple of `n`. -/
def alignTrap (n : Nat) (vs : List Nat) : Option TrapInfo :=
  if vs.any fun v => v % n != 0 then some (misalnTrap (firstBreach (fun v => v % n != 0) vs)) else none

/-- LDGS (R225). -/
def execLdgs (w : MemOp) (s : State) : Out :=
  issuing s (.ldgs w) fun c =>
    let obj := match w.c.op with
      | .none => []
      | o => [(c.reg 0 o 0).toNat]
    command s c w.guard ((alignTrap 16 [(engPair c w.a.op).toNat, (c.reg 0 w.b.op 0).toNat]).or (alignTrap 8 obj))
      fun s c => submit s c (.ldgs w)

/-- CPY (R251). -/
def execCpy (w : EngOp) (s : State) : Out :=
  issuing s (.cpy w) fun c => command s c w.guard none fun s c => submit s c (.cpy w)
/-- QFNC.cq (R252). -/
def execQfncCq (w : EngOp) (s : State) : Out :=
  issuing s (.qfncCq w) fun c => command s c w.guard none fun s c => submit s c (.qfncCq w)
/-- QFNC.mq (R252). -/
def execQfncMq (w : EngOp) (s : State) : Out :=
  issuing s (.qfncMq w) fun c => command s c w.guard none fun s c => submit s c (.qfncMq w)
/-- QFNC.kq (R252). -/
def execQfncKq (w : EngOp) (s : State) : Out :=
  issuing s (.qfncKq w) fun c => command s c w.guard none fun s c => submit s c (.qfncKq w)

/-- MLDB (R255, R256): without a lane that would contribute it only commits. -/
def execMldb (w : EngOp) (s : State) : Out :=
  issuing s (.mldb w) fun c =>
    command s c w.guard none fun s c =>
      if (mldbLanes c w).isEmpty then .next (s.performed c.agent)
      else if (mldbLanes c w).any fun x => c.poisoned x.2 w.a.op (mldbSpan w.ty) || c.poisoned x.2 w.b.op 1 then
        trapOut s c poisonTrap
      else submit s c (.mldb w)

/-- MMA (R257). -/
def execMma (w : EngOp) (s : State) : Out :=
  issuing s (.mma w) fun c =>
    let scale := if w.ty == .q4 then [(engSrc c w w.c).toNat] else []
    command s c w.guard ((alignTrap 16 [(engSrc c w w.a).toNat, (engSrc c w w.b).toNat]).or (alignTrap 4 scale))
      fun s c => submit s c (.mma w)

/-- MACC (R261). -/
def execMacc (w : EngOp) (s : State) : Out :=
  issuing s (.macc w) fun c =>
    let ab := if w.ext.getLsbD 4 then [] else [(engSrc c w w.a).toNat, (engSrc c w w.b).toNat]
    let bias := if w.ext.getLsbD 3 then [(engSrc c w w.c).toNat] else []
    command s c w.guard (alignTrap 16 (ab ++ bias)) fun s c => submit s c (.macc w)

/-- MTBL (R260). -/
def execMtbl (w : EngOp) (s : State) : Out :=
  issuing s (.mtbl w) fun c => command s c w.guard (alignTrap 16 [(engSrc c w w.a).toNat]) fun s c => submit s c (.mtbl w)

/-- COLL (R263). -/
def execColl (w : EngOp) (s : State) : Out :=
  issuing s (.coll w) fun c =>
    let trig := match w.b.op with
      | .none => []
      | o => [(engPair c o).toNat]
    command s c w.guard (alignTrap 4 trig) fun s c => submit s c (.coll w)

/-- QUEUE_ACCEPT (R240, R245): the command that has stalled longest on a queue takes a freed slot, after the entries that
were withdrawn from blocks that have resumed. -/
def execQueueAccept (q : QueueId) (s : State) : Out :=
  let owing := s.cores.filterMap fun x => x.2.block.bind fun b => if b.st != .suspended && b.owes x.1 q then some x.1 else none
  let s := owing.foldl (fun (s : State) k => s.reaccept k) s
  let ws := (s.stalled q).filter fun x =>
    match s.ctx? x.2 with
    | some c => !(s.block? c.core).any (fun b => b.owes c.core q)
    | none => false
  match ws.find? fun x => ws.all fun y => decide (x.1 ≤ y.1) with
  | none => .next s
  | some (_, a) =>
    match s.ctx? a with
    | none => .next s
    | some c =>
      if s.queueFree q c.part then
        (match (peekInstr s c).bind fun i => (captureOf s c i).map fun x => (i, x) with
         | some (i, x) => .next (accept s c i x)
         | none => .next s)
      else .next s

/-! ### Guard slots -/

/-- The state of a guard slot of a block. -/
def Block.gate (b : Block) (n : Nat) : Gate := tblGet .unset b.gates n

/-- A guard slot of the issuing block written (R242). -/
def setGate (s : State) (c : Ctx) (n : Nat) (v : Gate) : State :=
  match s.block? c.core with
  | none => s
  | some b => s.setBlock c.core { b with gates := tblSet .unset b.gates n v }

/-- QWAIT (R253): the return is an acquire at .dom. -/
def execQwait (w : EngOp) (s : State) : Out :=
  issuing s (.qwait w) fun c =>
    match c.f.wait with
    | .queues _ => finish (s.acquire c .dom) c
    | _ =>
      if (c.acting w.guard).isEmpty then finish s c
      else
        let q := namedEntries s c w
        if q.all fun x => x.2.isEmpty then finish (s.acquire c .dom) c else waiting s c (.queues q)

/-! ### Manifests -/

/-- The bytes of a manifest (R246). -/
def manifestBytes (m : Tbl W32) : List Byte := (List.range 32).flatMap fun i => leBytes 4 (tblGet 0#32 m i).toNat

/-- The bits of a word of a manifest that are not reserved (R246): reserved ones read as zero (R7). -/
def manifestMask (i : Nat) : W32 :=
  if i == 0 then 0x0FFF8000#32 else if i == 1 then 0x00003F3F#32 else if i == 11 || 28 ≤ i then 0#32 else 0xFFFFFFFF#32

/-- A manifest with a word written. -/
def putWord (m : Tbl W32) (i : Nat) (x : W32) : Tbl W32 := tblSet 0#32 m i (x &&& manifestMask i)

/-- A manifest from its bytes. -/
def manifestOf (bs : List Byte) : Tbl W32 :=
  (List.range 32).foldl (fun m i => putWord m i (BitVec.ofNat 32 (leNat ((bs.drop (4 * i)).take 4)))) []

/-- The global address of TSHLD.gl and TSHST.gl (R248). -/
def tshVa (c : Ctx) (w : EngOp) : W64 := c.globalVa 0 w.a.op w.imm
/-- The scratchpad address of TSHLD.sp and TSHST.sp: the modified A plus the offset (R141, R248). -/
def tshSp (c : Ctx) (w : EngOp) : Nat :=
  (BitVec.ofNat 32 (modifySource .b32 w.a (c.reg 0 w.a.op 0).toNat) + w.imm).toNat

/-- The result of a TSHLD, written before the next instruction that names its manifest, or with the strand's end (R248). -/
def loadManifest (s : State) (c : Ctx) (w : EngOp) (m : Tbl W32) : Out :=
  finish (s.mapGroup c.agent fun g => { g with mloads := tblInsert g.mloads (engManifest w) (c.f.mask, m) }) c

/-- TSHLD.gl (R248): a plain load at issue. -/
def execTshldGl (w : EngOp) (s : State) : Out :=
  issuing s (.tshldGl w) fun c =>
    match (c.acting w.guard).take 1 with
    | [] => finish s c
    | l :: _ =>
      let va := (tshVa c w).toNat
      if va % 16 != 0 then trapOut s c (misalnTrap va)
      else
        match accessBlock c with
        | some b => waiting s c b
        | none =>
          let ps := pageSplit va 128
          match translateLanes c .read 1 none s (ps.map fun p => (l, BitVec.ofNat 64 p.2.1)) with
          | .inr o => o
          | .inl (es, s) =>
            let items := (ps.zip es).map fun x => (l, x.1.1, x.2.2.2.phys x.2.2.1.toNat, x.1.2.2)
            let (rs, bad, s) := tileReads c false s items
            match bad with
            | some (lv, _) => trapOut s c { cause := .poison, detail := lv, addr := va, ak := 1 }
            | none =>
              loadManifest s c w (manifestOf (rs.flatMap fun r => r.2.2))

/-- TSHLD.sp (R248). -/
def execTshldSp (w : EngOp) (s : State) : Out :=
  issuing s (.tshldSp w) fun c =>
    match (c.acting w.guard).take 1 with
    | [] => finish s c
    | l :: _ =>
      let a := tshSp c w
      if a % 16 != 0 then trapOut s c (misalnTrap a)
      else
        match accessBlock c with
        | some b => waiting s c b
        | none =>
          match scratchRange s c a 128 with
          | .inr d => trapOut s c { cause := .spaddr, detail := d, addr := a, ak := 1 }
          | .inl (k, off) =>
            match (s.core k).absentLine off 128 with
            | some line => waiting s c (.line k line)
            | none =>
              if (s.core k).scratchPoisoned off 128 then trapOut s c { cause := .poison, detail := 1, addr := a, ak := 1 }
              else loadManifest s c w (manifestOf (overlay s c l false k off 128 (s.core k).scratchByte))

/-- An edit of a word of a manifest by an acting lane (R249). -/
def tshp (s : State) (c : Ctx) (w : EngOp) (f : Tbl W32 → Nat → W32 → Tbl W32) : Out :=
  if (c.acting w.guard).isEmpty then finish s c
  else
    let m := engManifest w
    finish (s.mapGroup c.agent fun g => g.setManifest m (f (g.manifest m) (w.ext.toNat % 32) (engSrc c w w.a))) c

/-- TSHP.set (R249). -/
def execTshpSet (w : EngOp) (s : State) : Out :=
  issuing s (.tshpSet w) fun c => tshp s c w fun m i a => putWord m i a
/-- TSHP.add (R249). -/
def execTshpAdd (w : EngOp) (s : State) : Out :=
  issuing s (.tshpAdd w) fun c => tshp s c w fun m i a => putWord m i (tblGet 0#32 m i + a)
/-- TSHP.add64 (R249). -/
def execTshpAdd64 (w : EngOp) (s : State) : Out :=
  issuing s (.tshpAdd64 w) fun c => tshp s c w fun m i a =>
    let x : W64 := (tblGet 0#32 m (i + 1)) ++ (tblGet 0#32 m i)
    let y := x + a.signExtend 64
    putWord (putWord m i (y.setWidth 32)) (i + 1) ((y >>> 32).setWidth 32)

/-- TSHST.gl (R250): a plain store of 128 bytes. -/
def execTshstGl (w : EngOp) (s : State) : Out :=
  issuing s (.tshstGl w) fun c =>
    match (c.acting w.guard).take 1 with
    | [] => finish s c
    | l :: _ =>
      let va := (tshVa c w).toNat
      if va % 16 != 0 then trapOut s c (misalnTrap va)
      else
        match sbovf c [l] with
        | some t => trapOut s c t
        | none =>
          let ps := pageSplit va 128
          match translateLanes c .write 2 none s (ps.map fun p => (l, BitVec.ofNat 64 p.2.1)) with
          | .inr o => o
          | .inl (es, s) =>
            let bs := manifestBytes (c.g.manifest (engManifest w))
            let items := (ps.zip es).map fun x =>
              storeItem c (c.acting w.guard) l (globPlace x.2.2.2 x.2.2.1) (.bytes ((bs.drop x.1.1).take x.1.2.2))
            finish (s.append c items none false) c

/-- TSHST.sp (R250). -/
def execTshstSp (w : EngOp) (s : State) : Out :=
  issuing s (.tshstSp w) fun c =>
    match (c.acting w.guard).take 1 with
    | [] => finish s c
    | l :: _ =>
      let a := tshSp c w
      if a % 16 != 0 then trapOut s c (misalnTrap a)
      else
        match sbovf c [l] with
        | some t => trapOut s c t
        | none =>
          match scratchRange s c a 128 with
          | .inr d => trapOut s c { cause := .spaddr, detail := d, addr := a, ak := 2 }
          | .inl (k, off) =>
            finish (s.append c [storeItem c (c.acting w.guard) l (.scratch k off)
              (.bytes (manifestBytes (c.g.manifest (engManifest w))))] none false) c

/-! ### Signals -/

/-- The perform step of SIGS (R265): one strong releasing entry appended to the FIFO store queue. -/
def signalWord (s : State) (c : Ctx) (w : EngOp) (acc : Access) (ak : Nat) (act : W32 → StoreAct) : Out :=
  let l := (c.acting w.guard).headD 0
  let va := engPair c w.a.op
  match translate s c va acc ak none with
  | .inr o => o
  | .inl (e, s) =>
    let (n, s) := s.fresh
    let h := warpOfLane c.g.width c.g.index l
    let hl := hwLane c.g.width c.g.index l
    let x : SEntry :=
      { store := n, mask := lanesMask [hl], items := [{ storeItem c (c.acting w.guard) l (globPlace e va) (act (engSrc c w w.b)) with lane := hl }]
        strong := some .dom, rel := some .dom, bypass := false, serial := n, acqs := entryAcqs c, first := false }
    let q := fifoOf c.agent h
    .next ((s.setFifo q (s.fifo q ++ [x])).performed c.agent)

/-- SIGS.set (R265). -/
def execSigsSet (w : EngOp) (s : State) : Out :=
  issuing s (.sigsSet w) fun c =>
    command s c w.guard (alignTrap 4 [(engPair c w.a.op).toNat]) fun s c =>
      signalWord s c w .write 2 fun b => .bytes (leBytes 4 b.toNat)
/-- SIGS.add (R265). -/
def execSigsAdd (w : EngOp) (s : State) : Out :=
  issuing s (.sigsAdd w) fun c =>
    command s c w.guard (alignTrap 4 [(engPair c w.a.op).toNat]) fun s c =>
      signalWord s c w .atomic 3 fun b => .atomic 0 .n32 (b.setWidth 64)

end Sys2Proof.Machine
end

