-- ==== Sys2Proof/Machine/Copy.lean ====
section
/-! DEFINITION. The work of an engine entry: its end and its records (R241, R243, R354), lines it holds absent
(R104), and the copies of CPY and LDGS (R225, R247, R251, R364, R365). -/

namespace Sys2Proof.Machine

/-! ### Entries -/

/-- The block that issued an entry, while it stands on its core. -/
def QEntry.block? (e : QEntry) (s : State) : Option Block :=
  match s.block? e.core with
  | some b => if b.index == e.block && b.fe == e.fe && b.vd == e.vd && b.gang == e.gang then some b else none
  | none => none

/-- The translation space of an entry. -/
def QEntry.space (e : QEntry) : Nat := 256 * e.fe + e.vd

/-- The partition of an entry. -/
def QEntry.part (e : QEntry) (s : State) : Nat := (s.vd e.fe e.vd).part.toNat

/-- The record of an engine entry (R354): it names the issuing block and warp. -/
def engineRec (s : State) (e : QEntry) (cause : Cause) (detail addr : Nat) : Rec :=
  let r : Rec := { cause := cause, detail := detail, addr := addr, fpc := e.pc, vd := e.vd, part := e.part s, ak := 5, warp := e.warp
                   block := e.block }
  match e.block? s with
  | some b => { r with lclu := b.lclu, lcore := b.lcore, quad := quadOf b.kern.w e.warp, qtag := b.tag, queue := b.queue
                       rjds := (b.warp e.warp).rjds }
  | none => r

/-- The head of a queue replaced. -/
def State.setHead (s : State) (q : QueueId) (e : QEntry) : State :=
  match s.engineQueue q with
  | _ :: rest => s.setEngineQueue q (e :: rest)
  | [] => s

/-- The translations of an entry gone. -/
def State.dropPages (s : State) (e : QEntry) : State := { s with pages := tblErase s.pages e.id }

/-- The head of a queue gone; its slot is returned (R240). -/
def State.dropHead (s : State) (q : QueueId) : State := s.setEngineQueue q (s.engineQueue q).tail

/-- The outstanding writers of a line changed. -/
def State.lineWriter (s : State) (x : Nat × Nat) (f : Nat → Nat) : State :=
  let c := s.core x.1
  s.setCore x.1 { c with writers := tblSet 0 c.writers x.2 (f (c.lineWriters x.2)) }

/-- The lines of an entry are written (R104). -/
def State.freeLines (s : State) (e : QEntry) : State := e.lines.foldl (fun s x => s.lineWriter x (· - 1)) s

/-- The lines of an entry become absent (R104). -/
def State.takeLines (s : State) (ls : List (Nat × Nat)) : State := ls.foldl (fun s x => s.lineWriter x (· + 1)) s

/-- The arrival of an entry on its barrier object (R136, R241); an address that fails reaches nothing and is
reported (R359). -/
def completeObject (s : State) (e : QEntry) (skip : Bool) : State :=
  match e.obj, e.block? s with
  | some a, some b =>
    (match scratchAt s e.fe e.vd e.core b.lclu b.kern.scratch a.toNat with
     | .inl (k, off) => s.objArrive k off 1 skip
     | .inr _ => s.post (e.part s) .ifArmed (engineRec s e .engfail 3 a.toNat))
  | _, _ => s

/-- The head entry has performed or is discarded (R241, R243): its slot returns, its lines are present, its
object takes an arrival. -/
def endEntry (s : State) (q : QueueId) (e : QEntry) (skip : Bool) : State :=
  completeObject (((s.freeLines e).dropPages e).dropHead q) e skip

/-- The POISONP of an entry that has carried poison (R364). -/
def taintRecord (s : State) (e : QEntry) : State :=
  match e.taint with
  | some lv => s.post (e.part s) .ifArmed (engineRec s e .poisonp lv 0)
  | none => s

/-- An Info fault ends the head entry (R354). -/
def failEntry (s : State) (q : QueueId) (e : QEntry) (cause : Cause) (detail addr : Nat) : State :=
  endEntry (taintRecord (s.post (e.part s) .ifArmed (engineRec s e cause detail addr)) e) q e true

/-- The head entry has performed; poison that it carried is reported (R364). -/
def performEntry (s : State) (q : QueueId) (e : QEntry) : State := endEntry (taintRecord s e) q e false

/-- Why the work of an entry stops (R354): a page fault, an end with ENGFAIL, or a page held for capture or no walker free, so
that the access is tried again. -/
inductive EngStop where
  | page (level detail base size : Nat) (va : W64) (acc : Access)
  | fail (detail addr : Nat)
  | held

/-- What an access of an engine gives, or why it stops with the state that it leaves: the translations that it completed stand
(R113, R355). -/
abbrev EngTry (α : Type) := Except (EngStop × State) α

/-- The head entry stopped: it waits on a page request (R356, R357), ends, or is tried again. -/
def stopEntry (s : State) (q : QueueId) (e : QEntry) (x : EngStop) : State :=
  match x with
  | .page l d b z va acc =>
    let (id, s) := s.pageRequest e.fe e.vd l d b z va acc .engine
    let s := s.setHead q { e with page := some id }
    s.post (e.part s) .always (engineRec s e .pagef d va.toNat)
  | .fail d a => failEntry s q e .engfail d a
  | .held => s.setHead q e

/-- The stores that the issuing warp committed before an entry have performed (R134). -/
def ownDrained (s : State) (e : QEntry) : Bool :=
  match e.block? s with
  | some b =>
    let hs := if b.kern.w == 64 then [e.warp, e.warp + 1] else [e.warp]
    hs.all fun h => (b.warp h).fifo.all fun x => decide (e.serial < x.serial)
  | none => true

/-- The issuing warp's FIFO store queue is empty (R105). -/
def ownEmpty (s : State) (e : QEntry) : Bool :=
  match e.block? s with
  | some b =>
    let hs := if b.kern.w == 64 then [e.warp, e.warp + 1] else [e.warp]
    hs.all fun h => (b.warp h).fifo.isEmpty
  | none => true

/-! ### Global bytes of an engine -/

/-- A translation for an entry (R355): made when the engine reaches a page, and held from then on; a write that uses one
filled with D = 0 sets D first (R113). -/
def State.engineXlat (s : State) (e : QEntry) (va : Nat) (acc : Access) : Xlat × State :=
  match (tblGet [] s.pages e.id).find? fun t => t.covers e.space va && t.permits acc false with
  | some t => (.hit t, if isWrite acc && !t.d then s.markLeaf e.space t.pte false true else s)
  | none =>
    match s.xlatNow (dieOf e.core) e.space (BitVec.ofNat 64 va) acc false with
    | (.hit t, s) => (.hit t, { s with pages := tblSet [] s.pages e.id (t :: tblGet [] s.pages e.id) })
    | r => r

/-- The pieces of an engine access with their physical addresses (R355, R360); a write is held while a page of it is to be
preserved (R116). -/
def enginePieces (e : QEntry) (acc : Access) :
    State → List (Nat × Nat × Nat) → EngTry (List (Nat × Nat × Nat) × State)
  | s, [] => .ok ([], s)
  | s, (o, va, n) :: rest =>
    match s.engineXlat e va acc with
    | (.fail l d b z, s) => .error (.page l d b z (BitVec.ofNat 64 va) acc, s)
    | (.miss _, s) => .error (.held, s)
    | (.busy, s) => .error (.held, s)
    | (.hit t, s) =>
      if s.homeLost (dieOf e.core) (t.phys va) then .error (.fail 1 va, s)
      else if isWrite acc && s.pageHeld e.space t.pte then .error (.held, s.wantPages e.space [t.pte])
      else
        match enginePieces e acc s rest with
        | .error x => .error x
        | .ok (ps, s) => .ok ((o, t.phys va, n) :: ps, s)

/-- Bytes that an engine reads at a virtual address, with the storage level of poison. -/
def engineLoad (s : State) (e : QEntry) (pieces : List (Nat × Nat × Nat)) : EngTry (List Byte × Option Nat × State) :=
  match enginePieces e .read s pieces with
  | .error x => .error x
  | .ok (ps, s) =>
    let cl := clusterOf e.core
    .ok (ps.flatMap fun p => s.engineRead cl p.2.1 p.2.2, ps.findSome? fun p => s.enginePoison? cl p.2.1 p.2.2,
      ps.foldl (fun s p => s.touchLines (e.part s) p.2.1 p.2.2) s)

/-- Bytes that an engine writes at a virtual address; a poisoned unit poisons its granules (R364). -/
def engineStore (s : State) (e : QEntry) (bad : Bool) (bs : List Byte) (pieces : List (Nat × Nat × Nat)) : EngTry State :=
  match enginePieces e .write s pieces with
  | .error x => .error x
  | .ok (ps, s) =>
    .ok (ps.foldl (fun (s : State) p =>
      let s := (s.touchLines (e.part s) p.2.1 p.2.2).engineWrite (clusterOf e.core) p.2.1 ((bs.drop p.1).take p.2.2)
      if bad then s.poisonMem p.2.1 p.2.2 else s) s)

/-! ### The tile of a manifest (R246, R247) -/

/-- A word of a manifest. -/
def mWord (m : Tbl W32) (i : Nat) : Nat := (tblGet 0#32 m i).toNat
/-- RANK. -/
def mRank (m : Tbl W32) : Nat := bitField (mWord m 0) 21 3
/-- EFMT. -/
def mFmt (m : Tbl W32) : Nat := bitField (mWord m 0) 24 4
/-- The space of a window. -/
def mSpace (m : Tbl W32) (src : Bool) : Nat := if src then bitField (mWord m 0) 18 3 else bitField (mWord m 0) 15 3
/-- The logical cluster within the die and the logical core of a core window. -/
def mPlace (m : Tbl W32) (src : Bool) : Nat × Nat :=
  if src then (bitField (mWord m 1) 5 1, bitField (mWord m 1) 0 5) else (bitField (mWord m 1) 13 1, bitField (mWord m 1) 8 5)
/-- The base of a window. -/
def mBase (m : Tbl W32) (src : Bool) : Nat :=
  if src then mWord m 2 + 2 ^ 32 * mWord m 3 else mWord m 4 + 2 ^ 32 * mWord m 5
/-- EXTd. -/
def mExt (m : Tbl W32) (d : Nat) : Nat := mWord m (6 + d)
/-- A stride of a window. -/
def mStride (m : Tbl W32) (src : Bool) (d : Nat) : Int :=
  let i := if src then 10 + 2 * d else 18 + 2 * d
  toSigned 64 (mWord m i + 2 ^ 32 * mWord m (i + 1))

/-- The element size in half bytes (R247). -/
def halfBytes (f : Nat) : Nat :=
  if f == 0 || f == 7 || f == 8 then 16
  else if f == 1 || f == 9 || f == 0xC || f == 0xF then 8
  else if f == 2 || f == 3 || f == 0xA || f == 0xD then 4
  else if f == 6 then 1
  else 2

/-- The bytes of a row: EXT0 elements. -/
def mRowBytes (m : Tbl W32) : Nat := mExt m 0 * halfBytes (mFmt m) / 2
/-- The bytes of an element, or of two .q4 codes. -/
def mUnit (m : Tbl W32) : Nat := max 1 (halfBytes (mFmt m) / 2)
/-- The rows of the tile: the product of the extents above dimension 0. -/
def mRows (m : Tbl W32) : Nat := ((upFrom 1 (mRank m - 1)).map (mExt m)).foldl (· * ·) 1

/-- The byte offset of row `r` of a window: its index in mixed radix over the dimensions above 0. -/
def rowOffset (m : Tbl W32) (src : Bool) : List Nat → Nat → Int
  | [], _ => 0
  | d :: ds, r => (r % mExt m d : Nat) * mStride m src d + rowOffset m src ds (r / mExt m d)

/-- The address of row `r` of a window, with the offset of the command. -/
def rowAddr (m : Tbl W32) (src : Bool) (off : W32) (r : Nat) : Nat :=
  wrap 64 ((mBase m src : Nat) + toSigned 32 off.toNat + rowOffset m src (upFrom 1 (mRank m - 1)) r)

/-! ### Copies in common form -/

/-- A side of a copy: its space, the core of a core window, and the address of each row. -/
structure Side where
  space : Nat
  core : Option Nat
  rows : List Nat

/-- A copy: the bytes of a row and of an element, and its sides. -/
structure CopyJob where
  row : Nat
  elem : Nat
  src : Side
  dst : Side

/-- A side of a CPY. -/
def cpySide (s : State) (e : QEntry) (m : Tbl W32) (src : Bool) (off : W32) : Side where
  space := mSpace m src
  core :=
    match e.block? s with
    | some b => (s.vd e.fe e.vd).core? (2 * (b.lclu / 2) + (mPlace m src).1) (mPlace m src).2
    | none => none
  rows := (List.range (mRows m)).map (rowAddr m src off)

/-- The job of a CPY or an LDGS. -/
def copyJob (s : State) (e : QEntry) : Option CopyJob :=
  match e.op with
  | .cpy m so off => some ⟨mRowBytes m, mUnit m, cpySide s e m true so, cpySide s e m false off⟩
  | .ldgs va dst len => some ⟨len, 16, ⟨0, none, [va.toNat]⟩, ⟨1, none, [dst.toNat]⟩⟩
  | _ => none

/-- Where a byte of a side lies. -/
inductive Spot where
  | glob (va : Nat)
  | scratch (core off : Nat)
  | window (core off : Nat)
  | bad

/-- The place of an address of a side. -/
def spotOf (s : State) (e : QEntry) (d : Side) (a : Nat) : Spot :=
  match d.space with
  | 0 => .glob (a % 2 ^ 64)
  | 1 =>
    (match e.block? s with
     | some b =>
       (match scratchAt s e.fe e.vd e.core b.lclu b.kern.scratch (a % 2 ^ 32) with
        | .inl p => .scratch p.1 p.2
        | .inr _ => .bad)
     | none => .bad)
  | _ =>
    match d.core with
    | some k => .window k (a % 2 ^ 32)
    | none => .bad

/-- The lines of a scratchpad that `n` bytes of a destination touch, as core and line (R104). -/
def rowLines (s : State) (e : QEntry) (d : Side) (n a : Nat) : List (Nat × Nat) :=
  match spotOf s e d a with
  | .scratch k off => (granules 128 off n).map fun l => (k, l)
  | .window k off =>
    if 0x200000 ≤ off && off < 0x260000 then (granules 128 (off - 0x200000) n).map fun l => (k, l) else []
  | _ => []

/-- The destination lines of a job that its bytes from the `i`-th on touch. -/
def linesFrom (s : State) (e : QEntry) (j : CopyJob) (i : Nat) : List (Nat × Nat) :=
  let o := i % max 1 j.row
  match j.dst.rows.drop (i / max 1 j.row) with
  | [] => []
  | a :: as => (rowLines s e j.dst (j.row - o) (a + o) ++ as.flatMap (rowLines s e j.dst j.row)).eraseDups

/-- Every destination line of a job. -/
def jobLines (s : State) (e : QEntry) (j : CopyJob) : List (Nat × Nat) := linesFrom s e j 0

/-- The lines of a copy that none of its bytes still to be written touches are free (R104). -/
def settleLines (s : State) (e : QEntry) (j : CopyJob) : State × QEntry :=
  let rest := linesFrom s e j e.progress
  (s.freeLines { e with lines := e.lines.filter fun x => !rest.contains x }, { e with lines := e.lines.filter rest.contains })

/-- A row of a scratchpad side has an address that fails (R359). -/
def rowFails (s : State) (e : QEntry) (d : Side) (row a : Nat) : Bool :=
  d.space == 1 && row != 0 &&
    (match spotOf s e d a, spotOf s e d (a + row - 1) with
     | .scratch _ _, .scratch _ _ => false
     | _, _ => true)

/-- The first address of a job that fails. -/
def jobFails (s : State) (e : QEntry) (j : CopyJob) : Option Nat :=
  (j.src.rows.find? (rowFails s e j.src j.row)).or (j.dst.rows.find? (rowFails s e j.dst j.row))

/-! ### The limits of CPY and LDGS (R365) -/

/-- Every address of a range of a core window lies in one of its regions; the register view and the scratchpad adjoin (R107,
R247, R365). -/
def windowRange (a n : Nat) : Bool := decide (a + n ≤ 0x260000) || (decide (0x280000 ≤ a) && decide (a + n ≤ 0x2A0000))

/-- An offset lies in the register view or the accumulator file, which move words. -/
def wordRegion (a : Nat) : Bool := decide (a < 0x200000) || (decide (0x280000 ≤ a) && decide (a < 0x2A0000))

/-- A row of a tile passes a test. -/
def anyRow (p : Nat → Bool) : Nat → Bool
  | 0 => false
  | n + 1 => p n || anyRow p n

/-- The limits of a CPY, the lowest DETAIL first. DEDUCED: a tile with an extent of 0 has no address. -/
def cpyFault (s : State) (e : QEntry) (m : Tbl W32) (so off : W32) : Option Nat :=
  let rank := mRank m
  let exts := (List.range rank).map (mExt m)
  let offsetOf (src : Bool) : W32 := if src then so else off
  let row (src : Bool) (r : Nat) : Nat := rowAddr m src (offsetOf src) r % 2 ^ 32
  let rows := if exts.contains 0 then 0 else mRows m
  let outside (src : Bool) : Bool := mSpace m src == 2 && anyRow (fun r => !windowRange (row src r) (mRowBytes m)) rows
  let extBad := exts.any (fun x => x == 0 || decide (2 ^ 24 < x)) || (mFmt m == 6 && mExt m 0 % 2 == 1)
  let ragged (src : Bool) : Bool :=
    mSpace m src == 2 &&
      (mBase m src % 4 != 0 || (offsetOf src).toNat % 4 != 0 || (upFrom 1 (rank - 1)).any (fun d => mStride m src d % 4 != 0) ||
        mRowBytes m % 4 != 0) && anyRow (fun r => wordRegion (row src r)) rows
  let unmapped (src : Bool) : Bool := mSpace m src == 2 && (cpySide s e m src (offsetOf src)).core.isNone
  let sides := [true, false]
  if rank == 0 || 5 < rank then some 0
  else if sides.any fun x => decide (2 < mSpace m x) || outside x then some 1
  else if extBad then some 2
  else if sides.any ragged then some 3
  else if 2 ^ 31 < exts.foldl (· * ·) 1 * halfBytes (mFmt m) then some 4
  else if sides.any unmapped then some 5
  else none

/-- The limit of an LDGS. -/
def ldgsFault (len : Nat) : Option Nat := if len < 16 || 131072 < len || len % 16 != 0 then some 6 else none

/-! ### The work of a copy -/

/-- The bytes at a place of a side, with the storage level of poison. -/
def readSpot (s : State) (e : QEntry) (p : Spot) (n : Nat) : EngTry (List Byte × Option Nat × State) :=
  match p with
  | .glob va => engineLoad s e (pageSplit va n)
  | .scratch k o => .ok ((s.core k).scratchRead o n, (if (s.core k).scratchPoisoned o n then some 1 else none), s)
  | .window k o =>
    let as := upFrom o n
    let lv := if o < 0x200000 then 0 else if o < 0x260000 then 1 else 2
    .ok (as.map (s.windowByte k), (if as.any (s.windowPoisoned k) then some lv else none), s)
  | .bad => .error (.fail 3 0, s)

/-- Bytes written at a place of a side. -/
def writeSpot (s : State) (e : QEntry) (p : Spot) (bs : List Byte) (bad : Bool) : EngTry State :=
  match p with
  | .glob va => engineStore s e bad bs (pageSplit va bs.length)
  | .scratch k o =>
    let s := s.scratchWrite k o bs
    .ok (if bad then s.windowPoison k (0x200000 + o) bs.length true else s)
  | .window k o =>
    let s := ((upFrom o bs.length).zip bs).foldl (fun (s : State) x => s.windowWriteByte k x.1 x.2) s
    .ok (s.windowPoison k o bs.length bad)
  | .bad => .error (.fail 3 0, s)

/-- The bytes of a destination's granule of poison (R362). -/
def poisonSize (d : Side) : Nat := if d.space == 0 then 32 else 8

/-- A byte of a destination is written by the first `i` bytes of a copy. -/
def CopyJob.wrote (j : CopyJob) (i a : Nat) : Bool :=
  (((List.range j.dst.rows.length).zip j.dst.rows).any fun x =>
    decide (x.2 ≤ a) && decide (a < x.2 + j.row) && decide (x.1 * j.row + (a - x.2) < i))

/-- Poison of the granules that a copy has written whole, and without poison, is gone (R364): those that the `n` bytes from
address `a` touch, after `i` bytes of the copy. -/
def clearCopied (s : State) (e : QEntry) (j : CopyJob) (i a n : Nat) : State :=
  let z := poisonSize j.dst
  let whole (g : Nat) : Bool := !e.spoilt.contains g && (upFrom (z * g) z).all (j.wrote i)
  ((granules z a n).filter whole).foldl (fun (s : State) g =>
    match spotOf s e j.dst (z * g) with
    | .glob va =>
      (match (tblGet [] s.pages e.id).find? fun t => t.covers e.space va with
       | some t => s.clearMem (t.phys va / 32)
       | none => s)
    | .scratch k o => s.setCore k { s.core k with scratchBad := setErase (s.core k).scratchBad (o / 8) }
    | .window k o =>
      if o < 0x200000 then s
      else if o < 0x260000 then
        s.setCore k { s.core k with scratchBad := setErase (s.core k).scratchBad ((o - 0x200000) / 8) }
      else s.setCore k { s.core k with accBad := setErase (s.core k).accBad ((o - 0x280000) / 8) }
    | .bad => s) s

/-- A byte of a side lies in the register view or the accumulator file. -/
def Side.words (d : Side) (a : Nat) : Bool := d.space == 2 && wordRegion (a % 2 ^ 32)

/-- The next bytes that a copy moves at once: an element, or a word where a side moves words (R107, R366). -/
def CopyJob.unitAt (j : CopyJob) (src dst : Nat) : Nat := if j.src.words src || j.dst.words dst then max 4 j.elem else j.elem

/-- One element of a copy, from byte `i` of the tile on, in ascending linear index (R251): the bytes moved, the entry, and
the state. -/
def copyUnit (s : State) (e : QEntry) (j : CopyJob) : EngTry (State × QEntry) :=
  let r := e.progress / j.row
  let o := e.progress % j.row
  let src := j.src.rows.getD r 0 + o
  let dest := j.dst.rows.getD r 0 + o
  let n := j.unitAt src dest
  match readSpot s e (spotOf s e j.src src) n with
  | .error x => .error x
  | .ok (bs, p, s) =>
    match writeSpot s e (spotOf s e j.dst dest) bs p.isSome with
    | .error x => .error x
    | .ok s =>
      let hit := if p.isSome then granules (poisonSize j.dst) dest n else []
      let e := { e with progress := e.progress + n, retries := 0, taint := e.taint.or p, spoilt := hit.foldl setInsert e.spoilt }
      .ok (clearCopied s e j e.progress dest n, e)

/-- Elements of a copy up to byte `stop` of the tile, at most as many as given. -/
def copyUnits (j : CopyJob) (stop : Nat) : Nat → State → QEntry → State × QEntry × Option EngStop
  | 0, s, e => (s, e, none)
  | n + 1, s, e =>
    if stop ≤ e.progress then (s, e, none)
    else
      match copyUnit s e j with
      | .error (x, s) => (s, e, some x)
      | .ok (s, e) => copyUnits j stop n s e

/-- The bytes of a job. -/
def CopyJob.size (j : CopyJob) : Nat := j.row * j.src.rows.length

/-- The end of the beat of a copy that starts at byte `i` of the tile (R369): the end of the 128 bytes of the destination,
or of the row. -/
def CopyJob.beat (j : CopyJob) (i : Nat) : Nat :=
  let o := i % max 1 j.row
  i + min (j.row - o) (128 - (j.dst.rows.getD (i / max 1 j.row) 0 + o) % 128)

/-- A begun copy goes on to byte `stop` of its tile at most; the lines that it has left are free (R104), and with its last byte it has performed
(R251). -/
def copyOn (s : State) (q : QueueId) (e : QEntry) (j : CopyJob) (stop : Nat) : State :=
  let (s, e, x) := copyUnits j stop (stop - e.progress) s e
  let (s, e) := settleLines s e j
  match x with
  | some x => stopEntry s q e x
  | none =>
    let s := s.setHead q e
    if j.size ≤ e.progress then performEntry s q e else s

end Sys2Proof.Machine
end

