-- ==== Sys2Proof/Machine/Message.lean ====
section
/-! DEFINITION. The messages of a collective (R313, R372): the fields of the reduction header and of the payload after it, read
and written. -/

namespace Sys2Proof

open Machine

/-- The codes of STAGE (R313, R372). -/
def Stage.code : Stage → Nat
  | .expUp => 0 | .expDown => 1 | .dataUp => 2 | .resultDown => 3 | .abort => 4

/-- GROUP of a header (R313). -/
def ChunkMsg.group (m : ChunkMsg) : W32 := m.header.extractLsb' 0 32
/-- J of a header. -/
def ChunkMsg.j (m : ChunkMsg) : Nat := (m.header.extractLsb' 32 32).toNat
/-- CHUNK of a header. -/
def ChunkMsg.chunk (m : ChunkMsg) : Nat := (m.header.extractLsb' 64 32).toNat
/-- EMAX of a header; −2^15 for a subtree without a finite nonzero element (DESIGN CHOICE). -/
def ChunkMsg.emax (m : ChunkMsg) : Option Int :=
  let e := (m.header.extractLsb' 96 16).toInt
  if e == -32768 then none else some e
/-- STAGE of a header. -/
def ChunkMsg.stage (m : ChunkMsg) : Nat := (m.header.extractLsb' 112 8).toNat
/-- SPEC of a header: the bitmap of special values follows. -/
def ChunkMsg.special (m : ChunkMsg) : Bool := m.header.extractLsb' 120 8 == 1#8
/-- CMASK of a header. -/
def ChunkMsg.cmask (m : ChunkMsg) : BitVec 16 := m.header.extractLsb' 128 16
/-- CNT of a header. -/
def ChunkMsg.cnt (m : ChunkMsg) : Nat := (m.header.extractLsb' 144 16).toNat

/-- The sender's subtree lacks nothing: its own values, and every child's subtree. -/
def ChunkMsg.whole (m : ChunkMsg) : Bool := m.cmask.toNat % 512 == 511

/-- The 32 bytes of a reduction header (R313). -/
def chunkHeader (group : W32) (j chunk : Nat) (emax : Option Int) (stage : Stage) (spec : Bool) (cmask : BitVec 16)
    (cnt : Nat) : BitVec 256 :=
  BitVec.ofNat 256 (group.toNat + 2 ^ 32 * (j % 2 ^ 32) + 2 ^ 64 * (chunk % 2 ^ 32) +
    2 ^ 96 * (BitVec.ofInt 16 (emax.getD (-32768))).toNat + 2 ^ 112 * stage.code + 2 ^ 120 * bit spec +
    2 ^ 128 * cmask.toNat + 2 ^ 144 * (cnt % 65536))

/-- The wire code of a mark: 3 also for an element with both infinities (R313). -/
def markCode (x : Nat) : Nat := min x 3

/-- The payload of a data-up message (R313): 256 ten-byte partial sums, then the bitmap of special values when there is one.
DESIGN CHOICE: the partial sum of a special element, which nothing reads as a number, is 0, or 1 for one with both infinities,
so that the root can tell it from −∞ (R102). -/
def dataPayload (sums : List Int) (marks : List Nat) : List Byte :=
  let sum (i : Nat) : Nat :=
    match marks.getD i 0 with
    | 0 => wrap 80 (sums.getD i 0)
    | m => bit (m == 4)
  (List.range 256).flatMap (fun i => leBytes 10 (sum i)) ++
    if marks.any (· != 0) then leBytes 64 (packElements 2 (marks.map markCode)) else []

/-- A partial sum of a payload. -/
def ChunkMsg.sum (m : ChunkMsg) (i : Nat) : Int := toSigned 80 (leNat ((m.payload.drop (10 * i)).take 10))

/-- The mark of an element of a payload. -/
def ChunkMsg.mark (m : ChunkMsg) (i : Nat) : Nat :=
  if m.special then
    let c := ((m.payload.getD (2560 + i / 4) 0#8).toNat / 4 ^ (i % 4)) % 4
    if c == 3 && m.sum i != 0 then 4 else c
  else 0

end Sys2Proof
end

