-- ==== Sys2Proof/Machine/Collective.lean ====
section
/-! DEFINITION. Collectives (R102, R263, R264, R312, R313, R372 to R374, R389): member tables, the work on
chunks, the messages of the tree, losses and aborts, the status slots. -/

namespace Sys2Proof.Machine

/-! ### Member tables (R312, R374) -/

/-- A word of a member table by its byte offset. -/
def Member.word (m : Member) (o : Nat) : Nat := (tblGet 0#32 m.words (o / 4)).toNat
/-- V; a poisoned table acts as V = 0 (R388). -/
def Member.valid (m : Member) : Bool := m.bad.isEmpty && testBit (m.word 0) 31
/-- The member count P. -/
def Member.count (m : Member) : Nat := bitField (m.word 0) 0 16 + 1
/-- RANK. -/
def Member.rank (m : Member) : Nat := bitField (m.word 4) 0 16
/-- GROUP. -/
def Member.group (m : Member) : W32 := BitVec.ofNat 32 (m.word 8)
/-- PARENT, but at the root. -/
def Member.parent (m : Member) : Option W32 := if m.word 12 == 0xFFFFFFFF then none else some (BitVec.ofNat 32 (m.word 12))
/-- The children. -/
def Member.children (m : Member) : List W32 :=
  (List.range (min (bitField (m.word 16) 0 4) 8)).map fun i => BitVec.ofNat 32 (m.word (20 + 4 * i))
/-- The neighbours, each with its number: 0 the parent, 1 + i child i. -/
def Member.neighbours (m : Member) : List (Nat × W32) :=
  (match m.parent with
   | some p => [(0, p)]
   | none => []) ++ (upFrom 1 m.children.length).zip m.children
/-- STADDR. -/
def Member.staddr (m : Member) : Nat := m.word 56 + 2 ^ 32 * m.word 60
/-- STSIZE. -/
def Member.stsize (m : Member) : Nat := m.word 64
/-- STSLOTS. -/
def Member.stslots (m : Member) : Nat := m.word 68

/-- The endpoint of a die of this module, coded as PARENT. -/
def endpointOf (die : Nat) : W32 := Config.moduleNumber ++ BitVec.ofNat 16 (die % 32)
/-- The module number of an endpoint. -/
def moduleOf (e : W32) : BitVec 16 := e.extractLsb' 16 16

/-! ### A collective as its member commands it (R263) -/

/-- A COLL at the head of a queue, with its member table. -/
structure CollJob where
  vd : Nat
  die : Nat
  x : Nat
  tab : Member
  ty : Ty
  kind : Nat
  n : Nat
  a : W32
  src : Nat
  dst : Nat

/-- The job of a COLL. -/
def collJob (s : State) (q : QueueId) (e : QEntry) : Option CollJob :=
  match q, e.op with
  | .coll v d, .coll ty kind x m a _ _ => some ⟨v, d, x, s.member d v x, ty, kind, mExt m 0, a, mBase m true, mBase m false⟩
  | _, _ => none

/-- What members of one collective must agree in: kind, TYPE, N, A and table (R263, R365). -/
def CollJob.cmd (j : CollJob) : List Nat := [j.kind, j.ty.code.toNat, j.n, j.a.toNat, j.x]

/-- The reduction of A. -/
def CollJob.red (j : CollJob) : Nat := j.a.toNat % 4
/-- The root rank of a .bcast. -/
def CollJob.root (j : CollJob) : Nat := bitField j.a.toNat 8 8

/-- CMDBAD 7 (R365). DEDUCED: an extent outside 1 to 2^24 breaks R246, so that the COLL does not perform (R247), with the
DETAIL of its other limits on the manifest. -/
def collFault (j : CollJob) (m : Tbl W32) : Bool :=
  !j.tab.valid || j.n == 0 || decide (2 ^ 24 < j.n) || ((j.kind == 1 || j.kind == 2) && j.n % j.tab.count != 0) || (j.kind == 3 && decide (j.tab.count ≤ j.root)) ||
    mRank m != 1 || mSpace m true != 0 || mSpace m false != 0 ||
    (decide (j.kind < 2) && !(j.ty == .f64 || j.ty == .f32 || j.ty == .bf16 || j.ty == .f16 || j.ty == .i64 || j.ty == .i32)) ||
    decide (3 < j.kind) || j.red == 3 || j.a.toNat / 65536 != 0 || bitField j.a.toNat 2 6 != 0

/-- The kind reduces. -/
def CollJob.reduces (j : CollJob) : Bool := decide (j.kind < 2)
/-- The chunks agree on an exponent: a sum of floating-point elements (R102, R313). -/
def CollJob.scaled (j : CollJob) : Bool := j.reduces && j.red == 0 && j.ty.isFloat
/-- The bits of an element. -/
def CollJob.width (j : CollJob) : Nat := 4 * halfBytes j.ty.code.toNat
/-- The elements of each member's part. -/
def CollJob.part (j : CollJob) : Nat := j.n / j.tab.count

/-- The chunks of the full range. -/
def CollJob.chunks (j : CollJob) : Nat := (j.n + 255) / 256
/-- The elements of a chunk. -/
def CollJob.span (j : CollJob) (c : Nat) : List Nat := upFrom (256 * c) (min 256 (j.n - 256 * c))

/-- The index of element `k` in the member's source, where it has one. -/
def CollJob.from? (j : CollJob) (k : Nat) : Option Nat :=
  let lo := j.tab.rank * j.part
  match j.kind with
  | 0 | 1 => some k
  | 2 => if lo ≤ k && k < lo + j.part then some (k - lo) else none
  | _ => if j.tab.rank == j.root then some k else none

/-- The index of element `k` in the member's destination, where it has one. -/
def CollJob.to? (j : CollJob) (k : Nat) : Option Nat :=
  if j.kind == 1 then
    let lo := j.tab.rank * j.part
    if lo ≤ k && k < lo + j.part then some (k - lo) else none
  else some k

/-- The chunks with an element in the member's destination, ascending (R374). -/
def CollJob.mine (j : CollJob) : List Nat := (List.range j.chunks).filter fun c => (j.span c).any fun k => (j.to? k).isSome

/-! ### The member's own elements -/

/-- The codes of consecutive elements of the source from the `i`-th, with the storage level of poison. -/
def collRead (s : State) (e : QEntry) (j : CollJob) (i n : Nat) : EngTry (List Nat × Option Nat × State) :=
  let w := j.width
  let lo := i * w / 8
  let hi := ((i + n) * w + 7) / 8
  match engineLoad s e (pageSplit ((j.src + lo) % 2 ^ 64) (hi - lo)) with
  | .error x => .error x
  | .ok (bs, p, s) =>
    let v := leNat bs / 2 ^ (i * w - 8 * lo)
    .ok ((List.range n).map fun k => element v w k, p, s)

/-- The member's codes of a chunk: none for an element that it does not contribute. -/
def collOwn (s : State) (e : QEntry) (j : CollJob) (c : Nat) : EngTry (List (Option Nat) × Option Nat × State) :=
  let ks := j.span c
  match ks.filterMap j.from? with
  | [] => .ok (ks.map fun _ => none, none, s)
  | i :: is =>
    match collRead s e j i (is.length + 1) with
    | .error x => .error x
    | .ok (xs, p, s) => .ok (ks.map fun k => (j.from? k).map fun i' => xs.getD (i' - i) 0, p, s)

/-- The largest exponent of finite nonzero elements (R102). -/
def ownExponent (j : CollJob) (xs : List (Option Nat)) : Option Int :=
  xs.foldl (fun m x =>
    match x with
    | none => m
    | some x =>
      match unpack j.ty x with
      | .fin _ f e =>
        if f == 0 then m
        else
          match m with
          | none => some (magLog f e)
          | some y => some (max y (magLog f e))
      | _ => m) none

/-- The larger of two exponents. -/
def maxExponent : Option Int → Option Int → Option Int
  | some x, some y => some (max x y)
  | some x, none => some x
  | none, y => y

/-- What an element contributes (R102): its partial value and its mark. -/
def contribution (j : CollJob) (emax : Option Int) (x : Nat) : Int × Nat :=
  if !j.reduces then (x, 0)
  else if j.ty.isFloat then
    match unpack j.ty x with
    | .nan _ _ _ _ => (0, 1)
    | .inf neg => if j.red == 0 then (0, if neg then 3 else 2) else (x, 0)
    | v =>
      if j.red == 0 then
        match emax with
        | some m => (roundInt .rne (scaleVal (61 - m) v), 0)
        | none => (0, 0)
      else (x, 0)
  else (toSigned j.width x, 0)

/-- The marks of two parts of one element: 1 NaN, 2 +∞, 3 −∞, 4 both infinities. -/
def joinMark (a b : Nat) : Nat :=
  if a == 0 then b else if b == 0 then a else if a == 1 || b == 1 then 1 else if a == b then a else 4

/-- The parts of two sides of one element combined (R102). -/
def joinPart (j : CollJob) (a b : Int) : Int :=
  if !j.reduces || j.red == 0 then a + b
  else if j.ty.isFloat then
    let lt := ordVals (unpack j.ty a.toNat) (unpack j.ty b.toNat) == .lt
    if (j.red == 1) == lt then a else b
  else if j.red == 1 then min a b else max a b

/-- The root's result of an element (R102). -/
def finishPart (j : CollJob) (emax : Option Int) (x : Int) (mark : Nat) : Nat :=
  if !j.reduces then wrap j.width x
  else if j.ty.isFloat then
    if mark == 1 || mark == 4 then fmtNan j.ty
    else if mark == 2 then fmtInf j.ty
    else if mark == 3 then fmtInf j.ty + fmtSign j.ty true
    else if j.red == 0 then
      (deliver j.ty ⟨.rne, true, false, false⟩ (ofCoeff x (emax.getD 0 - 61) false)).bits
    else wrap j.width x
  else wrap j.width x

/-! ### The destination -/

/-- Nibbles of the destination's edge bytes that a write of elements leaves as they are: only .q4 elements
can end within a byte. -/
def collBytes (s : State) (e : QEntry) (j : CollJob) (i : Nat) (xs : List Nat) : List Byte :=
  let w := j.width
  let lo := i * w / 8
  let bits := (i + xs.length) * w
  let hi := (bits + 7) / 8
  let edge (a : Nat) : Nat :=
    let va := (j.dst + a) % 2 ^ 64
    match s.xlatPeek e.space (BitVec.ofNat 64 va) .write false with
    | some t => (s.engineByte (clusterOf e.core) (t.phys va)).toNat
    | none => 0
  let low := if i * w == 8 * lo then 0 else edge lo % 16
  let high := if bits == 8 * hi then 0 else edge (hi - 1) / 16
  let v := low + 2 ^ (i * w - 8 * lo) * (packElements w xs + 2 ^ (w * xs.length) * high)
  leBytes (hi - lo) v

/-- The results of a chunk written to the member's destination, whole or not at all (R373). -/
def collWrite (s : State) (e : QEntry) (j : CollJob) (c : Nat) (rs : List Nat) : EngTry State :=
  let xs := ((j.span c).zip rs).filterMap fun x => (j.to? x.1).map fun i => (i, x.2)
  match xs with
  | [] => .ok s
  | (i, _) :: _ =>
    let lo := i * j.width / 8
    let bs := collBytes s e j i (xs.map (·.2))
    engineStore s e false bs (pageSplit ((j.dst + lo) % 2 ^ 64) bs.length)

/-! ### Runs and messages -/

/-- The run of the head entry replaced. -/
def QEntry.withRun (e : QEntry) (r : CollRun) : QEntry := { e with run := some r }
/-- A chunk of a run. -/
def CollRun.chunk (r : CollRun) (c : Nat) : Chunk := tblGet Chunk.empty r.chunks c
/-- The run with a chunk replaced. -/
def CollRun.setChunk (r : CollRun) (c : Nat) (x : Chunk) : CollRun := { r with chunks := tblSet Chunk.empty r.chunks c x }

/-- A message of a member to a neighbour. -/
def chunkMsg (j : CollJob) (r : CollRun) (dst : W32) (c : Nat) (stage : Stage) (emax : Option Int) (cmask : BitVec 16) (cnt : Nat)
    (spec : Bool) (payload : List Byte) : ChunkMsg where
  src := endpointOf j.die
  dst := dst
  vd := j.vd
  table := j.x
  header := chunkHeader j.tab.group r.j c emax stage spec cmask cnt
  payload := payload
  cmd := j.cmd
  mixed := false

/-- A message without a payload. -/
def signalMsg (j : CollJob) (r : CollRun) (dst : W32) (stage : Stage) : ChunkMsg := chunkMsg j r dst 0 stage none 0#16 0 false []

/-- Messages sent on the fabric. -/
def State.sendChunks (s : State) (ms : List ChunkMsg) : State := { s with fabric := s.fabric ++ ms }

/-- A neighbour's die is lost to a die (R372); dies of other modules are known by their silence only. -/
def neighbourLost (s : State) (die : Nat) (ep : W32) : Bool := s.dieLost die (ep.toNat % 32) && moduleOf ep == Config.moduleNumber

/-- The aborts that a member sends to its parent and to every child that it still reaches (R372). -/
def abortMsgs (s : State) (j : CollJob) (r : CollRun) : List ChunkMsg :=
  (j.tab.neighbours.filter fun x => !neighbourLost s j.die x.2).map fun x => signalMsg j r x.2 .abort

/-- A member table broken (R373). -/
def State.breakTable (s : State) (die vd x : Nat) : State := s.setMember die vd x { s.member die vd x with broken := true }

/-- The COLLLOST record of a member (R373). -/
def lossRecord (s : State) (e : QEntry) (j detail : Nat) (ep : W32) : State :=
  s.post (e.part s) .ifArmed (engineRec s e .colllost detail (j % 2 ^ 32 * 2 ^ 32 + ep.toNat))

/-- A run in which no further chunk is written (R373). -/
def CollRun.stopped (r : CollRun) : CollRun := { r with aborted := true, triggered := true, watch := none, waits := [] }

/-- A member detects a loss, or receives an abort, for its COLL at the head (R372, R373): no further chunk is
written, the neighbours hear of it, the record is posted and the table is broken. -/
def collLoss (s : State) (q : QueueId) (e : QEntry) (j : CollJob) (detail : Nat) (ep : W32) : State :=
  match e.run with
  | none => s
  | some r =>
    if r.aborted then s
    else
      let s := (s.sendChunks (abortMsgs s j r)).breakTable j.die j.vd j.x
      (lossRecord s e r.j detail ep).setHead q (e.withRun r.stopped)

/-- Why the work on a chunk stops: the engine's own reasons, or a breach of R389 at the root. -/
inductive CollStop where
  | eng (x : EngStop)
  | breach

/-- A step of a chunk, or why it stops with the state that it leaves. -/
abbrev CollTry (α : Type) := Except (CollStop × State) α

/-- CMASK of a chunk (R313): the own values, and the children whose subtree is complete. DESIGN CHOICE: the bit of a child
that the table does not list is 1, so that a receiver sees a complete subtree without the sender's table. -/
def contributors (own : Bool) (lacks : List Nat) : BitVec 16 :=
  ((List.range 8).filter fun i => !lacks.contains i).foldl (fun m i => m ||| (1#16 <<< (1 + i)))
    (if own then 1#16 else 0#16)

/-- The exponent step of a chunk whose children have been heard (R102, R313). -/
def exponentStep (s : State) (e : QEntry) (j : CollJob) (r : CollRun) (c : Nat) : CollTry (State × QEntry) :=
  let ch := r.chunk c
  match collOwn s e j c with
  | .error (x, s) => .error (.eng x, s)
  | .ok (xs, p, s) =>
    let m := maxExponent ch.emax (ownExponent j xs)
    let cnt := ch.cnt + 1
    let msg (d : W32) (st : Stage) : ChunkMsg := chunkMsg j r d c st m (contributors p.isNone ch.expLacks) cnt false []
    match j.tab.parent with
    | none =>
      if cnt % 65536 != j.tab.count % 65536 then .error (.breach, s)
      else
        let r := r.setChunk c { ch with agreed := some m, expSent := true, cnt := 0 }
        .ok (s.sendChunks (j.tab.children.map fun d => msg d .expDown), e.withRun r)
    | some p =>
      let r := r.setChunk c { ch with emax := m, expSent := true, cnt := 0 }
      .ok (s.sendChunks [msg p .expUp], e.withRun r)

/-- The payload of a result-down message: the rounded elements in their format (R313). -/
def resultPayload (w : Nat) (rs : List Nat) : List Byte := leBytes ((w * rs.length + 7) / 8) (packElements w rs)

/-- The elements of a result-down payload. -/
def resultCodes (w n : Nat) (bs : List Byte) : List Nat := (List.range n).map (element (leNat bs) w)

/-- The result of a chunk on a member (R313, R364, R373): written, or left out when a part of it is
missing; and sent on to the children. DESIGN CHOICE: a downward header keeps the root's CMASK and CNT, of which R313 says no more
than that CNT stands at every stage (log entry 120). -/
def resultStep (s : State) (e : QEntry) (j : CollJob) (r : CollRun) (c : Nat) (mask : BitVec 16) (cnt : Nat)
    (rs : List Nat) : CollTry (State × QEntry) :=
  let whole := mask.toNat % 512 == 511
  match (if whole then collWrite s e j c rs else .ok s) with
  | .error (x, s) => .error (.eng x, s)
  | .ok s =>
    let r' := r.setChunk c { r.chunk c with dataSent := true, status := some (if whole then 0 else 2) }
    let msg (d : W32) : ChunkMsg := chunkMsg j r d c .resultDown ((r.chunk c).agreed.getD none) mask cnt false (resultPayload j.width rs)
    .ok (s.sendChunks (j.tab.children.map msg), e.withRun r')

/-- The data step of a chunk whose children have been heard (R102, R313): poison in the own elements leaves
them out (R364). -/
def dataStep (s : State) (e : QEntry) (j : CollJob) (r : CollRun) (c : Nat) : CollTry (State × QEntry) :=
  let ch := r.chunk c
  match collOwn s e j c with
  | .error (x, s) => .error (.eng x, s)
  | .ok (xs, p, s) =>
    let emax := ch.agreed.getD none
    let own := xs.map fun x => x.map (contribution j emax)
    let first := ch.sums.isEmpty
    let sums := (List.range own.length).map fun i =>
      match own.getD i none with
      | some y => if first then y.1 else joinPart j (ch.sums.getD i 0) y.1
      | none => ch.sums.getD i 0
    let marks := (List.range own.length).map fun i => joinMark (ch.spec.getD i 0) (((own.getD i none).map (·.2)).getD 0)
    let cnt := ch.cnt + 1
    let mask := contributors p.isNone ch.lacks
    let e := { e with taint := e.taint.or p }
    match j.tab.parent with
    | none =>
      if cnt % 65536 != j.tab.count % 65536 then .error (.breach, s)
      else resultStep s e j r c mask cnt ((List.range own.length).map fun i => finishPart j emax (sums.getD i 0) (marks.getD i 0))
    | some d =>
      let msg := chunkMsg j r d c .dataUp emax mask cnt (marks.any (· != 0)) (dataPayload sums marks)
      .ok (s.sendChunks [msg], e.withRun (r.setChunk c { ch with dataSent := true, cnt := 0 }))

/-- A step of a chunk taken where it is due; one that stops leaves the entry as it was. -/
def tryStep (due : CollRun → Bool) (step : State → QEntry → CollRun → CollTry (State × QEntry)) (s : State) (e : QEntry) :
    State × QEntry × Option CollStop :=
  match e.run with
  | none => (s, e, none)
  | some r =>
    if due r then
      match step s e r with
      | .error (x, s) => (s, e, some x)
      | .ok (s, e) => (s, e, none)
    else (s, e, none)

/-- A chunk moved on as far as what has been heard allows: its exponent, then its data. -/
def chunkStep (s : State) (e : QEntry) (j : CollJob) (c : Nat) : State × QEntry × Option CollStop :=
  let kids := j.tab.children.length
  let expDue (r : CollRun) : Bool := j.scaled && !(r.chunk c).expSent && (r.chunk c).expFrom.length == kids
  let dataDue (r : CollRun) : Bool :=
    !(r.chunk c).dataSent && (!j.scaled || (r.chunk c).agreed.isSome) && (r.chunk c).dataFrom.length == kids
  match tryStep expDue (fun s e r => exponentStep s e j r c) s e with
  | (s, e, none) => tryStep dataDue (fun s e r => dataStep s e j r c) s e
  | x => x

/-- Chunks of a list moved on in ascending order. -/
def chunkSteps (j : CollJob) : List Nat → State → QEntry → State × QEntry × Option CollStop
  | [], s, e => (s, e, none)
  | c :: cs, s, e =>
    match chunkStep s e j c with
    | (s, e, none) => chunkSteps j cs s e
    | x => x

/-- The numbers of the neighbours that a chunk of a run still waits for. -/
def awaited (j : CollJob) (r : CollRun) : List Nat :=
  (j.tab.neighbours.map (·.1)).filter fun i =>
    (List.range j.chunks).any fun c =>
      let ch := r.chunk c
      if i == 0 then (ch.expSent && ch.agreed.isNone) || (ch.dataSent && ch.status.isNone)
      else (j.scaled && !ch.expFrom.contains i) || !ch.dataFrom.contains i

/-- The waits of a run's chunks (R372): one that goes on keeps its start. -/
def CollRun.look (r : CollRun) (j : CollJob) (now : Nat) : CollRun :=
  { r with waits := (awaited j r).foldl (fun t i => tblInsert t i (tblGet now r.waits i)) [] }

/-- The head entry's chunks moved on; work done ends a row of parity errors (R369). -/
def pumpColl (s : State) (q : QueueId) (e : QEntry) (j : CollJob) : State :=
  match e.run with
  | none => s
  | some r =>
    if r.aborted || !r.triggered || r.watch.isSome then s.setHead q e
    else
      let (s, e, x) := chunkSteps j (List.range j.chunks) s e
      let e := { e with run := e.run.map fun r => r.look j s.clock, retries := 0 }
      match x with
      | none => s.setHead q e
      | some (.eng x) => stopEntry s q e x
      | some .breach => collLoss (s.setHead q e) q e j 10 (endpointOf j.die)

/-! ### The beginning of a COLL -/

/-- A COLL on a broken table performs at once with every chunk absent, with a record of its own when an abort for it has arrived
before (R373). -/
def endBroken (s : State) (q : QueueId) (e : QEntry) (j : CollJob) (r : CollRun) : State :=
  let t := s.member j.die j.vd j.x
  let s := s.setMember j.die j.vd j.x { t with aborts := t.aborts.filter fun a => a.1 != r.j }
  let s := s.setHead q (e.withRun r.stopped)
  match t.aborts.find? fun a => a.1 == r.j with
  | some a => lossRecord s e r.j 9 a.2
  | none => s

/-- The DETAIL of COLLLOST for a neighbour: 0 the parent, 1 + i child i (R353). -/
def lossDetail (i : Nat) : Nat := i

/-- What a COLL that has taken its index meets at the head of its queue, where its table is broken or a neighbour is lost (R372,
R373): it ends at once. -/
def collMeets (s : State) (q : QueueId) (e : QEntry) (j : CollJob) (r : CollRun) : Option State :=
  if r.aborted then none
  else if j.tab.broken then (if r.triggered then none else some (endBroken s q e j r))
  else (j.tab.neighbours.find? fun n => neighbourLost s j.die n.2).map fun n => collLoss s q e j (lossDetail n.1) n.2

/-- The trigger of a held COLL tested (R264), after the stores of its warp (R134): its word is translated once; the read that
satisfies it is an acquire at .dom; a threshold of 0 is met at once. One that has come back from a suspension may meet a broken
table or a lost neighbour (R245, R373). -/
def testTrigger (s : State) (q : QueueId) (e : QEntry) (j : CollJob) : State :=
  match e.run, e.op with
  | some r, .coll _ _ _ _ _ trig thr =>
    match collMeets s q e j r with
    | some s => s
    | none =>
    if r.aborted || (r.triggered && r.watch.isNone) then pumpColl s q e j
    else if !ownDrained s e then s.setHead q e
    else
      let go (s : State) : State :=
        pumpColl (s.acquireAction (clusterOf e.core) .dom) q (e.withRun { r with triggered := true, watch := none }) j
      match r.watch, trig with
      | some (pa, thr), _ => if r.triggered || decide (thr.toNat ≤ s.mscWord pa) then go s else s.setHead q e
      | none, none => pumpColl s q (e.withRun { r with triggered := true }) j
      | none, some va =>
        if thr == 0#32 then go s
        else match s.engineXlat e va.toNat .read with
        | (.fail l d b z, s) => stopEntry s q e (.page l d b z va .read)
        | (.miss _, s) => stopEntry s q e .held
        | (.busy, s) => stopEntry s q e .held
        | (.hit t, s) =>
          let pa := t.phys va.toNat
          let s := s.touch (e.part s) pa
          if s.homeLost (dieOf e.core) pa then failEntry s q e .engfail 1 va.toNat
          else if thr.toNat ≤ s.mscWord pa then go s
          else s.setHead q (e.withRun { r with watch := some (pa, thr) })
  | _, _ => s

/-- A neighbour whose die is lost is noticed (R372). -/
def noticeLoss (s : State) (q : QueueId) (e : QEntry) (j : CollJob) : State := (e.run.bind (collMeets s q e j)).getD s

/-- A COLL whose guard has resolved true begins (R263, R264): it takes its index, then its trigger is tested. -/
def beginColl (s : State) (q : QueueId) (e : QEntry) : State :=
  match collJob s q e, e.op with
  | some j, .coll _ _ _ m _ _ _ =>
    if collFault j m then failEntry s q e .cmdbad 7 0
    else
      let n := j.tab.j
      let s := s.setMember j.die j.vd j.x { j.tab with
        j := n + 1, aborts := if j.tab.broken then j.tab.aborts else j.tab.aborts.filter fun a => a.1 != n }
      let r : CollRun := { j := n, watch := none, triggered := false, chunks := [], aborted := false, waits := [] }
      let e := { e with begun := true, run := some r }
      testTrigger (s.setHead q e) q e j
  | _, _ => s

/-- TRIGGER_MET (R264). -/
def execTriggerMet (vd die : Nat) (s : State) : Out :=
  let q := QueueId.coll vd die
  match s.engineQueue q with
  | e :: _ =>
    (match collJob s q e with
     | some j => .next (if e.page.isNone then testTrigger s q e j else s)
     | none => .next s)
  | [] => .next s

/-! ### Arrivals -/

/-- A message is taken from the fabric. -/
def State.takeChunk (s : State) (m : ChunkMsg) : State := { s with fabric := s.fabric.erase m }
/-- A message that cannot be taken in yet stays in the fabric. -/
def State.keepChunk (s : State) (m : ChunkMsg) : State := if s.fabric.contains m then s else { s with fabric := s.fabric ++ [m] }

/-- Members gave different commands (R365): the member's destination takes bytes that are not defined, its
chunks count as complete, and its neighbours hear of it. -/
def mixedStep (s : State) (q : QueueId) (e : QEntry) (j : CollJob) (r : CollRun) : EngTry State :=
  let writes := j.mine.foldl (fun (x : EngTry State) c =>
    match x with
    | .error x => .error x
    | .ok s =>
      let s := s.drawn
      collWrite s e j c ((List.range 256).map fun k => (Config.freeWord s.freeCtr k).toNat % 2 ^ j.width)) (.ok s)
  match writes with
  | .error x => .error x
  | .ok s =>
    let r' := { r with chunks := (List.range j.chunks).foldl (fun t c =>
      tblSet Chunk.empty t c { r.chunk c with expSent := true, dataSent := true, status := some 0 }) r.chunks }
    let s := s.sendChunks (j.tab.neighbours.map fun x => { signalMsg j r x.2 .resultDown with mixed := true })
    .ok (s.setHead q (e.withRun r'))

/-- The number of the neighbour that a message comes from: the parent for a stage that goes down. -/
def Member.senderOf (t : Member) (m : ChunkMsg) : Option Nat :=
  let child := if t.children.contains m.src then some (1 + t.children.idxOf m.src) else none
  let parent := if t.parent == some m.src then some 0 else none
  if m.group != t.group then none
  else if m.stage == 0 || m.stage == 2 then child
  else if m.stage == 1 || m.stage == 3 then parent
  else parent.or child

/-- Every chunk of the destination has ended, or no further one will be written. -/
def collOver (j : CollJob) (r : CollRun) : Bool :=
  r.aborted || ((List.range j.chunks).all fun c => (r.chunk c).dataSent) && j.mine.all fun c => (r.chunk c).status.isSome

/-- A message can reach its member: within the module over a route of the torus (R15, R371), from another module through the
die's own port (R16, R371). -/
def chunkComes (s : State) (m : ChunkMsg) : Bool :=
  let die := m.dst.toNat % 32
  if moduleOf m.src == moduleOf m.dst then s.fabric.contains m && (s.route (m.src.toNat % 32) die).isSome else s.hears die

/-- Members that work on COLLs of one index j of different tables, and each of which is a neighbour of the other in both, gave
different tables (R365): neither COLL could go on. -/
def otherTable (s : State) (m : ChunkMsg) (j : CollJob) (r : CollRun) : Bool :=
  let t := s.member j.die m.vd m.table
  j.tab.group != m.group && !collOver j r && (j.tab.neighbours.any fun n => n.2 == m.src) && (t.senderOf m).isSome

/-- The table of the member that a message reaches lists its sender back, as child or as parent, under the same GROUP (R389). -/
def Member.listsBack (t : Member) (m : ChunkMsg) : Bool :=
  t.valid && t.group == m.group && t.neighbours.any fun n => n.2 == m.src

/-- The sender of a message has reached a member of this module that does not list it back (R389): it detects the breach, while
it works on that COLL. -/
def treeBreach (s : State) (m : ChunkMsg) : State :=
  let q := QueueId.coll m.vd (m.src.toNat % 32)
  match s.engineQueue q with
  | e :: _ =>
    (match collJob s q e, e.run with
     | some j, some r => if j.x == m.table && r.j % 2 ^ 32 == m.j then collLoss s q e j 10 m.dst else s
     | _, _ => s)
  | [] => s

/-- A COLL that has taken an index and has not ended, in its queue or withdrawn from it (R245, R263). -/
def indexTaken (s : State) (m : ChunkMsg) : Bool :=
  s.anyEntry fun e => e.vd == m.vd && (e.run.any fun r => r.j % 2 ^ 32 == m.j) &&
    match e.op with
    | .coll _ _ x _ _ _ _ => x == m.table
    | _ => false

/-- The arrival of a message of a stage at the member it names (R313): it waits until the member's COLL of its group and index works;
one of a past COLL is dropped. A member that does not list its sender breaks the tree (R389). DEDUCED: the sender learns of it as
its message arrives; for a sender in another module, the member that the message reaches acts. -/
def chunkArrives (s : State) (m : ChunkMsg) (stage : Stage) (k : State → QueueId → QEntry → CollJob → CollRun → Nat → Out) : Out :=
  let die := m.dst.toNat % 32
  let q := QueueId.coll m.vd die
  if m.stage != stage.code || !chunkComes s m then .next s
  else
    let t := s.member die m.vd m.table
    if moduleOf m.src == moduleOf m.dst && !t.listsBack m then .next (treeBreach (s.takeChunk m) m)
    else
    let run := match s.engineQueue q with
      | e :: _ =>
        (match collJob s q e, e.run with
         | some j, some r =>
           if r.j % 2 ^ 32 == m.j && (j.tab.group == m.group || otherTable s m j r) then some (e, j, r) else none
         | _, _ => none)
      | [] => none
    match run with
    | none => .next (if m.j < t.j && !(t.group == m.group && indexTaken s m) then s.takeChunk m else s.keepChunk m)
    | some (e, j, r) =>
      if r.aborted then .next (s.takeChunk m)
      else if !r.triggered || r.watch.isSome || e.page.isSome then .next (s.keepChunk m)
      else if m.mixed || m.cmd != j.cmd then
        (if j.mine.all fun c => (r.chunk c).status.isSome then .next (s.takeChunk m)
         else
           match mixedStep s q e j r with
           | .error (x, s) => .next (stopEntry (s.keepChunk m) q e x)
           | .ok s => .next (s.takeChunk m))
      else
        match j.tab.senderOf m with
        | none => .next (collLoss (s.takeChunk m) q e j 10 m.src)
        | some i => k s q e j { r with waits := if (tblFind r.waits i).isSome then tblInsert r.waits i s.clock else r.waits } i

/-- CHUNK_EXPONENT_UP (R313): a child's subtree has its exponent. -/
def execChunkExponentUp (m : ChunkMsg) (s : State) : Out :=
  chunkArrives s m .expUp fun s q e j r i =>
    let ch := r.chunk m.chunk
    if ch.expFrom.contains i then .next (s.takeChunk m)
    else
      let x := { ch with
        expFrom := i :: ch.expFrom, emax := maxExponent ch.emax m.emax, cnt := ch.cnt + m.cnt
        expLacks := if m.whole then ch.expLacks else (i - 1) :: ch.expLacks }
      .next (pumpColl (s.takeChunk m) q (e.withRun (r.setChunk m.chunk x)) j)

/-- CHUNK_EXPONENT_DOWN (R313): the agreed exponent, sent on to the children. -/
def execChunkExponentDown (m : ChunkMsg) (s : State) : Out :=
  chunkArrives s m .expDown fun s q e j r _ =>
    let ch := r.chunk m.chunk
    if ch.agreed.isSome then .next (s.takeChunk m)
    else
      let x := { ch with agreed := some m.emax }
      let s := (s.takeChunk m).sendChunks (j.tab.children.map fun d =>
        chunkMsg j r d m.chunk .expDown m.emax m.cmask m.cnt false [])
      .next (pumpColl s q (e.withRun (r.setChunk m.chunk x)) j)

/-- CHUNK_DATA_UP (R313): the partial sums of a child's subtree join the member's. -/
def execChunkDataUp (m : ChunkMsg) (s : State) : Out :=
  chunkArrives s m .dataUp fun s q e j r i =>
    let ch := r.chunk m.chunk
    if ch.dataFrom.contains i then .next (s.takeChunk m)
    else
      let n := (j.span m.chunk).length
      let sums := (List.range n).map fun k => if ch.sums.isEmpty then m.sum k else joinPart j (ch.sums.getD k 0) (m.sum k)
      let spec := (List.range n).map fun k => joinMark (ch.spec.getD k 0) (m.mark k)
      let x := { ch with
        dataFrom := i :: ch.dataFrom, sums := sums, spec := spec, cnt := ch.cnt + m.cnt
        lacks := if m.whole then ch.lacks else (i - 1) :: ch.lacks }
      .next (pumpColl (s.takeChunk m) q (e.withRun (r.setChunk m.chunk x)) j)

/-- CHUNK_RESULT_DOWN (R313): the rounded elements are written and sent on. -/
def execChunkResultDown (m : ChunkMsg) (s : State) : Out :=
  chunkArrives s m .resultDown fun s q e j r _ =>
    if (r.chunk m.chunk).status.isSome then .next (s.takeChunk m)
    else
      let rs := resultCodes j.width (j.span m.chunk).length m.payload
      match resultStep s e j r m.chunk m.cmask m.cnt rs with
      | .error (.eng x, s) => .next (stopEntry (s.keepChunk m) q e x)
      | .error (.breach, s) => .next s
      | .ok (s, e) => .next ((s.takeChunk m).setHead q { e with run := e.run.map fun r => r.look j s.clock, retries := 0 })

/-- The aborts that a member sends on for a COLL that is not at work on it (R372): to its neighbours in the table. -/
def passAbort (s : State) (m : ChunkMsg) (t : Member) : List ChunkMsg :=
  (t.neighbours.filter fun x => x.2 != m.src && !neighbourLost s (m.dst.toNat % 32) x.2).map fun x => { m with src := m.dst, dst := x.2 }

/-- COLL_ABORT (R372, R373): a member that receives an abort acts as if it had detected the loss itself. With its COLL of that
index not begun, the abort is sent on, the table is broken, and the record follows when the COLL begins; with a past one, the
COLL that it works on ends with the chunks that it has. -/
def execCollAbort (m : ChunkMsg) (s : State) : Out :=
  let die := m.dst.toNat % 32
  let q := QueueId.coll m.vd die
  if m.stage != Stage.abort.code || !chunkComes s m then .next s
  else
    let s := s.takeChunk m
    let t := s.member die m.vd m.table
    let head := match s.engineQueue q with
      | e :: _ =>
        (match collJob s q e, e.run with
         | some j, some r => if j.x == m.table then some (e, j, r) else none
         | _, _ => none)
      | [] => none
    let pass (s : State) : State :=
      let s := if t.broken then s else s.sendChunks (passAbort s m t)
      let s := s.setMember die m.vd m.table
        { t with broken := true
                 aborts := if m.j < t.j % 2 ^ 32 && !indexTaken s m then t.aborts else t.aborts ++ [(m.j, m.src)] }
      s
    match head with
    | some (e, j, r) =>
      if m.j == r.j % 2 ^ 32 then .next (collLoss s q e j 9 m.src)
      else if m.j < r.j % 2 ^ 32 then .next ((pass s).setHead q (e.withRun r.stopped))
      else .next (pass s)
    | none => .next (pass s)

/-- COLL_NEIGHBOUR_TIMEOUT (R372): a neighbour in another module has not answered for CTMO.TMO µs while a chunk waits for it. -/
def execCollNeighbourTimeout (vd die : Nat) (endpoint : W32) (s : State) : Out :=
  let q := QueueId.coll vd die
  match s.engineQueue q with
  | e :: _ =>
    (match collJob s q e, e.run with
     | some j, some r =>
       (match j.tab.neighbours.find? fun x => x.2 == endpoint with
        | some (i, _) =>
          let limit := 112000 * max 1 (s.die die).ctmo.toNat
          let late := match tblFind r.waits i with
            | some t => decide (t + limit ≤ s.clock)
            | none => false
          if moduleOf endpoint != Config.moduleNumber && late then .next (collLoss s q e j (lossDetail i) endpoint)
          else .next s
        | none => .next s)
     | _, _ => .next s)
  | [] => .next s

/-- Every collective at work whose table names a lost die detects the loss (R372). -/
def collLosses (s : State) : State :=
  s.kqueues.foldl (fun (s : State) x =>
    let q := QueueId.coll (x.1 / 32) (x.1 % 32)
    match s.engineQueue q with
    | e :: _ =>
      (match collJob s q e, e.run with
       | some j, some _ => noticeLoss s q e j
       | _, _ => s)
    | [] => s) s

/-! ### The end of a COLL -/

/-- The bytes of a status slot (R374). -/
def statusBytes (j : CollJob) (r : CollRun) : List Byte :=
  let st := j.mine.map fun c => ((r.chunk c).status).getD 1
  let count (v : Nat) : Nat := (st.filter (· == v)).length
  let room := 4 * (j.tab.stsize - 32)
  let flags := bit r.aborted + 2 * bit (decide (room < st.length))
  let kept := st.take room
  leBytes 4 r.j ++ leBytes 4 st.length ++ leBytes 4 (count 0) ++ leBytes 4 (count 1) ++ leBytes 4 (count 2) ++ leBytes 1 flags ++
    leBytes 11 0 ++ leBytes ((kept.length + 3) / 4) (packElements 2 kept)

/-- COLL_PERFORMED (R263, R373, R374): the status is written, then the object is completed. -/
def execCollPerformed (vd die : Nat) (s : State) : Out :=
  let q := QueueId.coll vd die
  match s.engineQueue q with
  | [] => .next s
  | e :: _ =>
    match collJob s q e, e.run with
    | some j, some r =>
      if !collOver j r || e.page.isSome then .next s
      else
        let bs := statusBytes j r
        let va := j.tab.staddr + j.tab.stsize * (r.j % j.tab.stslots)
        let written := if j.tab.staddr == 0 then .ok s else engineStore s e false bs (pageSplit (va % 2 ^ 64) bs.length)
        match written with
        | .error (x, s) => .next (stopEntry s q e x)
        | .ok s =>
          let lost := r.aborted && j.mine.any fun c => (r.chunk c).status != some 0
          if lost then .next (endEntry (taintRecord s e) q e true)
          else .next (performEntry s q e)
    | _, _ => .next s

end Sys2Proof.Machine
end

