-- ==== Sys2Proof/Machine/Matrix.lean ====
section
/-! DEFINITION. The matrix engine (R99, R100, R254 to R262): stationary buffers, passes, the drain of a tile
through its stages, the activation table, and the limits of R365. -/

namespace Sys2Proof.Machine

/-! ### Stationary buffers -/

/-- A stationary buffer of a pair. -/
def Pair.buf (p : Pair) (k : Nat) : StatBuf := if k == 0 then p.sb0 else p.sb1
/-- The pair with a stationary buffer replaced. -/
def Pair.setBuf (p : Pair) (k : Nat) (b : StatBuf) : Pair := if k == 0 then { p with sb0 := b } else { p with sb1 := b }

/-- MLDB performs (R256): a load after a full buffer begins a new one. -/
def StatBuf.load (b : StatBuf) (q : Nat) (x : Quarter) : StatBuf where
  qv := (if b.qv == 0xF#4 then 0#4 else b.qv) ||| (1#4 <<< q)
  quarters := tblInsert b.quarters q x

/-- K of a pass (R99, R100). -/
def passK (t : Ty) : Nat :=
  match t with
  | .bf16 | .f16 => 32
  | .e4m3 | .e5m2 => 64
  | .q4 => 128
  | .f32 => 8
  | _ => 4

/-- The elements of a quarter in the direction that it splits. -/
def quarterK (t : Ty) : Nat := passK t / 4

/-- Element `e` of a quarter in lane `j`, counted over its registers (R255). -/
def Quarter.code (x : Quarter) (j e : Nat) : Nat :=
  if x.ty == .f64 then
    ((x.regs.getD 0 []).getD j 0#32).toNat + 2 ^ 32 * ((x.regs.getD 1 []).getD j 0#32).toNat
  else
    let per := 32 / x.ty.width
    element (((x.regs.getD (e / per) []).getD j 0#32).toNat) x.ty.width (e % per)

/-- The value of a code of a matrix source; a .q4 code under its scale byte. -/
def matValue (t : Ty) (scale code : Nat) : FVal := if t == .q4 then q4Value scale code else unpack t code

/-- The array element (k, j) of a buffer (R255): from the quarter of its north edge, else from that of its
west edge; the manual states nothing for one that quarters of different edges leave out. DESIGN CHOICE: of one that a north and a
west quarter both load the north one's value stands (log entry 62). -/
def StatBuf.value (b : StatBuf) (free : Nat) (t : Ty) (k j : Nat) : FVal :=
  let n := quarterK t
  let open_ := unpack .f32 ((Config.freeWord free (64 * k + j)).toNat % 2 ^ 32)
  let west :=
    match tblFind b.quarters (j / n) with
    | some x => if x.west then matValue x.ty 0 (x.code k (j % n)) else open_
    | none => open_
  match tblFind b.quarters (k / n) with
  | some x => if x.west then west else matValue x.ty ((x.scales.getD j 0#8).toNat) (x.code j (k % n))
  | none => west

/-! ### The limits of the matrix queue (R365) -/

/-- The types of A and of a quarter agree (R257). -/
def typesAgree (a b : Ty) : Bool := a == b || ((a == .e4m3 || a == .e5m2) && (b == .e4m3 || b == .e5m2))

/-- The bytes of a row of A. -/
def mmaRow (t : Ty) : Nat := if t == .f32 || t == .f64 then 32 else 64

/-- MMABAD of an MMA. -/
def mmaFault (b : StatBuf) (t : Ty) (stride : W32) : Option Nat :=
  if b.quarters.any fun x => b.qv.getLsbD x.1 && !typesAgree t x.2.ty then some 0
  else if b.qv != 0xF#4 then some 1
  else if stride.toNat < mmaRow t then some 3
  else none

/-- MMABAD of a MACC. -/
def maccFault (t : Ty) (dreg : Bool) (a b : W32) : Option Nat :=
  if dreg then (if 256 < a.toNat % 256 + t.width || a.toNat / 4096 != 0 then some 2 else none)
  else if b.toNat < 4 * t.width then some 4
  else none

/-! ### Scratchpad ranges of both cores -/

/-- The cores of a pair. -/
def pairCores (p : Nat) : List Nat := [2 * p, 2 * p + 1]

/-- A range of a core's own scratchpad lies within the declared size of the block that runs there (R359). DEDUCED:
when the follower's block has retired, the size of the entry's own block, of the same kernel, bounds both cores; a
block of another virtual device on the follower is not reached. -/
def ownRange (s : State) (e : QEntry) (core a n : Nat) : Bool :=
  let size := match s.block? core with
    | some b => if b.fe == e.fe && b.vd == e.vd then b.kern.scratch else 0
    | none => match e.block? s with
      | some b => b.kern.scratch
      | none => 0
  decide (a < 2 ^ 19) && decide (a + n ≤ size)

/-- Rows at a stride. -/
def rowStarts (a stride : Nat) : List Nat := (List.range 128).map fun i => (a + i * stride) % 2 ^ 32

/-- The ranges that an MMA reads on a core: rows, and scale bytes for .q4. -/
def mmaReads (t : Ty) (a stride c : Nat) : List (Nat × Nat) :=
  ((rowStarts a stride).map fun x => (x, mmaRow t)) ++ (if t == .q4 then [(c, 512)] else [])

/-- A range has an absent line on a core. -/
def rangeAbsent (s : State) (core : Nat) (r : Nat × Nat) : Bool := ((s.core core).absentLine r.1 r.2).isSome

/-! ### MMA -/

/-- The codes of a row of A as values. -/
def rowValues (c : Core) (t : Ty) (a i scales : Nat) : List FVal :=
  let x := leNat (c.scratchRead a (mmaRow t))
  (List.range (passK t)).map fun k =>
    let scale := if t == .q4 then (c.scratchByte (scales + 4 * i + k / 32)).toNat else 0
    matValue t scale (element x t.width k)

/-- One element of a pass (R99, R100). -/
def passElement (t : Ty) (c : Nat) (as bs : List FVal) : Nat :=
  if t == .f64 then
    (as.zip bs).foldl (fun c x => (deliver .f64 ⟨.rne, true, false, false⟩ (sumVals false [unpack .f64 c, mulVals x.1 x.2])).bits) c
  else passSum (unpack .f32 c :: (as.zip bs).map fun x => mulVals x.1 x.2)

/-- The accumulator word indices of element (i, j) of a tile: one, or the pair of an .f64 element (R258). -/
def accPlaces (t : Ty) (n i j : Nat) : List Nat :=
  if t == .f64 then
    let tile := n + j / 16
    [accIndex tile i (2 * (j % 16)), accIndex tile i (2 * (j % 16) + 1)]
  else [accIndex n i j]

/-- A row of a tile after a pass. -/
def passRow (c : Core) (t : Ty) (n i : Nat) (z : Bool) (as : List FVal) (cols : List (List FVal)) : Core :=
  ((List.range 32).zip cols).foldl (fun d x =>
    let ps := accPlaces t n i x.1
    let old := if z then 0 else packElements 32 (ps.map fun p => (c.accWord p).toNat)
    let new := passElement t old as x.2
    (ps.zip (words (32 * ps.length) new)).foldl (fun d y => d.setAcc y.1 y.2) d) c

/-- The poison of an output row (R364): all of it when a source of its row is poisoned; a row that starts
from +0 loses what it had. -/
def rowPoison (c : Core) (t : Ty) (n i : Nat) (z bad : Bool) : Core :=
  let gs := ((List.range 32).flatMap (accPlaces t n i)).map (· / 2)
  if bad then { c with accBad := gs.foldl setInsert c.accBad }
  else if z then { c with accBad := c.accBad.filter fun g => !gs.contains g }
  else c

/-- The rows of an MMA on one core; `rows` is the core whose A rows it takes (R258, R259). -/
def mmaCore (rows c : Core) (b : StatBuf) (free : Nat) (t : Ty) (n : Nat) (z : Bool) (a stride scales : Nat) : Core :=
  let cols := (List.range 32).map fun j => (List.range (passK t)).map fun k => b.value free t k j
  ((List.range 128).zip (rowStarts a stride)).foldl (fun c x =>
    let bad := rows.scratchPoisoned x.2 (mmaRow t) || (t == .q4 && rows.scratchPoisoned (scales + 4 * x.1) 4)
    rowPoison (passRow c t n x.1 z (rowValues rows t x.2 x.1 scales) cols) t n x.1 z bad) c

/-- A core's sources of an MMA hold poison. -/
def mmaTaint (c : Core) (t : Ty) (a stride scales : Nat) : Bool :=
  (mmaReads t a stride scales).any fun r => c.scratchPoisoned r.1 r.2

/-- The pair checks that may still be reported: those of the last 1 µs (R370). -/
def Pair.pending (p : Pair) (now : Nat) : List PairCheck := p.checks.filter fun x => decide (now ≤ x.since + 112000)

/-- An MMA performs on both cores, or on the leader alone with PCHK (R258, R259). -/
def mmaPerform (s : State) (p : Nat) (e : QEntry) : State :=
  match e.op with
  | .mma t n k z pchk a b c =>
    let pair := s.pair p
    let run (s : State) (core : Nat) : State :=
      let x := s.core core
      s.setCore core (mmaCore x x (pair.buf k) s.freeCtr t n z a.toNat b.toNat c.toNat)
    let cores := if pchk then [2 * p] else pairCores p
    let taint := cores.any fun k => mmaTaint (s.core k) t a.toNat b.toNat c.toNat
    let s := cores.foldl run s
    let e := { e with taint := if taint then some 1 else e.taint }
    let s := if pchk then s.setPair p { s.pair p with
        checks := (s.pair p).pending s.clock ++ [{ entry := e, tile := n, since := s.clock }] } else s
    performEntry s.drawn (.matrix p) e
  | _ => s

/-! ### MACC -/

/-- The activation of R261 on a binary32 value. -/
def activate (p : Pair) (x : FVal) : FVal :=
  let f32 (v : FVal) : FVal := unpack .f32 (deliver .f32 ⟨.rne, true, false, false⟩ v).bits
  let minus (v : FVal) : FVal :=
    match v with
    | .fin s m e => .fin (!s) m e
    | .inf s => .inf (!s)
    | v => v
  if x.isNan then .cnan
  else
    let t := f32 (mulVals (f32 (sumVals false [x, minus (unpack .f32 p.lo.toNat)])) (unpack .f32 p.scl.toNat))
    let e : Nat :=
      match t with
      | .nan _ _ _ _ => 0
      | .inf s => if s then 0 else 255
      | .fin s m e => if s && m != 0 then 0 else min (roundInt .rtz (.fin false m e)).toNat 255
    let slope := unpack .f32 (tblGet 0#32 p.slope e).toNat
    let icpt := unpack .f32 (tblGet 0#32 p.icpt e).toNat
    f32 (sumVals false [mulVals slope x, icpt])

/-- The generator state of element (p, i, j) under SR (R261). -/
def maccSeed (seed : W32) (p i j : Nat) : W32 :=
  let s := seed + BitVec.ofNat 32 ((4096 * p + 32 * i + j + 1) * 0x9E3779B9)
  srsAdvance (if s == 0#32 then 1#32 else s)

/-- The stages of MACC on one element (R261): the bits of the output. -/
def maccElement (pair : Pair) (t : Ty) (rnd : Rnd) (act sat : Bool) (bias : Option Nat) (seed : W32) (p i j x : Nat) : Nat :=
  let f32 (v : FVal) : FVal := unpack .f32 (deliver .f32 ⟨.rne, true, false, false⟩ v).bits
  let v := unpack .f32 x
  let v := match bias with
    | some b => f32 (sumVals false [v, unpack .f32 b])
    | none => v
  let v := if act then activate pair v else v
  if t == .f32 then (if v.isNan then fmtNan .f32 else (deliver .f32 ⟨.rne, true, false, false⟩ v).bits)
  else (deliver t ⟨rmode rnd 0#32 (maccSeed seed p i j), true, sat, false⟩ v).bits

/-- The bytes of an output row of MACC. -/
def maccRowBytes (t : Ty) : Nat := 4 * t.width

/-- One row of MACC: its elements, and the storage level of poison of each: 2 of the tile and the table, 1 of the bias
(R363, R364). -/
def maccRow (s : State) (pairIdx side core i : Nat) (t : Ty) (rnd : Rnd) (n : Nat) (act sat : Bool) (bias : Option Nat)
    (seed : W32) : List (Nat × Option Nat) :=
  let x := s.core core
  let pair := s.pair pairIdx
  (List.range 32).map fun j =>
    let b := bias.map fun c => leNat (x.scratchRead (c + 4 * j) 4)
    let biasBad := match bias with
      | some c => x.scratchPoisoned (c + 4 * j) 4
      | none => false
    let bad := if x.accBad.contains (accIndex n i j / 2) || (act && pair.tblBad) then some 2 else if biasBad then some 1 else none
    (maccElement pair t rnd act sat b seed side i j (x.accWord (accIndex n i j)).toNat, bad)

/-- A row written to the scratchpad of a core, with its poison by granules of 8 bytes (R261, R364). -/
def maccToScratch (s : State) (core off : Nat) (t : Ty) (row : List (Nat × Option Nat)) : State :=
  let bs := row.flatMap fun x => leBytes (t.width / 8) x.1
  let s := s.scratchWrite core off bs
  let bad := ((List.range 32).zip row).filterMap fun x => if x.2.2.isSome then some ((off + x.1 * (t.width / 8)) / 8) else none
  s.setCore core { s.core core with scratchBad := bad.foldl setInsert (s.core core).scratchBad }

/-- A row written to the registers of a lane of a core, by the rules of the register view (R107, R261). -/
def maccToRegs (s : State) (core h lane r : Nat) (t : Ty) (row : List (Nat × Option Nat)) : State :=
  let per := 32 / t.width
  (List.range t.width).foldl (fun (s : State) k =>
    let es := (row.drop (k * per)).take per
    let x := BitVec.ofNat 32 (packElements t.width (es.map (·.1)))
    let o := h * 0x8000 + (r + k) * 0x80 + lane * 4
    let s := s.setViewReg core h (r + k) lane x
    if es.any (·.2.isSome) && (s.viewReg? core h (r + k) lane).isSome then s.windowPoison core o 4 true else s) s

/-- Row `r` of the 256 of a MACC, those of the leader first (R261, R369): it is read and written; with a core's last row the tile
is zeroed. -/
def maccStep (s : State) (p : Nat) (e : QEntry) : State × QEntry :=
  match e.op with
  | .macc t rnd n dreg bias act zero sat a b c seed =>
    let side := e.progress / 128
    let i := e.progress % 128
    let core := 2 * p + side
    let xs := maccRow s p side core i t rnd n act sat (if bias then some c.toNat else none) seed
    let s := if dreg then maccToRegs s core (4 * (a.toNat / 256 % 16) + i / 32) (i % 32) (a.toNat % 256) t xs
      else maccToScratch s core ((a.toNat + i * b.toNat) % 2 ^ 32) t xs
    let s := if zero && i == 127 then
        s.setCore core ((List.range 4096).foldl (fun (d : Core) k => d.setAcc (4096 * n + k) 0#32)
          { s.core core with accBad := (s.core core).accBad.filter fun g => g / 2048 != n })
      else s
    (s, { e with progress := e.progress + 1, retries := 0, taint := e.taint.or (xs.findSome? (·.2)) })
  | _ => (s, e)

/-- The destination lines that the rows of a MACC to scratchpads touch from a row on, as core and line (R104, R261). -/
def maccLines (p : Nat) (t : Ty) (a b from_ : Nat) : List (Nat × Nat) :=
  (((pairCores p).flatMap fun k => (rowStarts a b).map fun x => (k, x)).drop from_).flatMap (fun x =>
    (granules 128 x.2 (maccRowBytes t)).map fun l => (x.1, l)) |>.eraseDups

/-- The lines of a MACC that none of its rows still to be written touches are free (R104). -/
def maccSettle (s : State) (p : Nat) (e : QEntry) : State × QEntry :=
  match e.op with
  | .macc t _ _ dreg _ _ _ _ a b _ _ =>
    let rest := if dreg then [] else maccLines p t a.toNat b.toNat e.progress
    (s.freeLines { e with lines := e.lines.filter fun x => !rest.contains x }, { e with lines := e.lines.filter rest.contains })
  | _ => (s, e)

/-- A MACC goes on by some rows at most; with its last one it has performed. -/
def maccOn (p : Nat) : Nat → State → QEntry → State
  | 0, s, e =>
    let (s, e) := maccSettle s p e
    s.setHead (.matrix p) e
  | k + 1, s, e =>
    let (s, e) := maccStep s p e
    if 256 ≤ e.progress then performEntry s (.matrix p) e else maccOn p k s e

/-! ### MTBL -/

/-- MTBL performs (R260): the table of 2,064 bytes is read; poison in it poisons the table. -/
def mtblPerform (s : State) (p : Nat) (e : QEntry) : State :=
  match e.op with
  | .mtbl a =>
    let x := s.core (2 * p)
    let w (o : Nat) : W32 := BitVec.ofNat 32 (leNat (x.scratchRead (a.toNat + o) 4))
    let bad := x.scratchPoisoned a.toNat 2064
    let pair := s.pair p
    let s := s.setPair p
      { pair with
        lo := w 0
        scl := w 4
        slope := (List.range 256).foldl (fun t i => tblSet 0#32 t i (w (16 + 8 * i))) []
        icpt := (List.range 256).foldl (fun t i => tblSet 0#32 t i (w (20 + 8 * i))) []
        tblBad := bad }
    performEntry s (.matrix p) { e with taint := if bad then some 1 else e.taint }
  | _ => s

/-! ### What an entry waits for at its head -/

/-- The ranges of a core's scratchpad that an entry of the matrix queue reads. -/
def matrixReads (p : Nat) (e : QEntry) : List (Nat × Nat × Nat) :=
  match e.op with
  | .mma t _ _ _ pchk a b c =>
    (if pchk then [2 * p] else pairCores p).flatMap fun k => (mmaReads t a.toNat b.toNat c.toNat).map fun r => (k, r)
  | .macc _ _ _ _ bias _ _ _ _ _ c _ => if bias then (pairCores p).map fun k => (k, c.toNat, 128) else []
  | .mtbl a => [(2 * p, a.toNat, 2064)]
  | _ => []

/-- The ranges of a core's scratchpad that an entry of the matrix queue writes. -/
def matrixWrites (p : Nat) (e : QEntry) : List (Nat × Nat × Nat) :=
  match e.op with
  | .macc t _ _ dreg _ _ _ _ a b _ _ =>
    if dreg then [] else (pairCores p).flatMap fun k => (rowStarts a.toNat b.toNat).map fun x => (k, x, maccRowBytes t)
  | _ => []

/-- The limits of an entry of the matrix queue (R365): cause and DETAIL. -/
def matrixFault (s : State) (p : Nat) (e : QEntry) : Option (Cause × Nat) :=
  let limit := match e.op with
    | .mma t _ k _ _ _ b _ => mmaFault ((s.pair p).buf k) t b
    | .macc t _ _ dreg _ _ _ _ a b _ _ => maccFault t dreg a b
    | _ => none
  match limit with
  | some d => some (.mmabad, d)
  | none =>
    if (matrixReads p e ++ matrixWrites p e).any fun r => !ownRange s e r.1 r.2.1 r.2.2 then some (.engfail, 3) else none

end Sys2Proof.Machine
end

