-- ==== Sys2Proof/Machine/EngineHead.lean ====
section
/-! DEFINITION. The head of an engine queue: the guard test (R243), the limits (R365), the beginning of an entry
(R104, R105, R134), its performance (R241), guard slots (R242, R243), the discard of open guards (R367), and parity errors
(R369). -/

namespace Sys2Proof.Machine

/-- The state of the guard slot of an entry; true for one without a guard, and for one that has been found true (R243). -/
def headGate (s : State) (e : QEntry) : Gate :=
  match e.gate with
  | none => .yes
  | some g =>
    if e.passed then .yes
    else
      match e.block? s with
      | some b => b.gate g
      | none => .no

/-- A scratchpad line at its largest count of outstanding writers (R104). -/
def linesFull (s : State) (ls : List (Nat × Nat)) : Bool := ls.any fun x => decide (15 ≤ (s.core x.1).lineWriters x.2)

/-- The head entry begins with its destination lines absent (R104). -/
def beginWith (s : State) (q : QueueId) (e : QEntry) (ls : List (Nat × Nat)) : State :=
  if linesFull s ls then s else (s.takeLines ls).setHead q { e with begun := true, lines := ls }

/-- A CPY or an LDGS begins (R104, R105, R134, R365). -/
def beginCopy (s : State) (q : QueueId) (e : QEntry) : State :=
  let limit := match e.op with
    | .cpy m so off => cpyFault s e m so off
    | .ldgs _ _ len => ldgsFault len
    | _ => none
  match limit, copyJob s e with
  | some d, _ => failEntry s q e .cmdbad d 0
  | none, none => s
  | none, some j =>
    match jobFails s e j with
    | some a => failEntry s q e .engfail 3 (a % 2 ^ 64)
    | none =>
      let ls := jobLines s e j
      if ls.isEmpty then (if ownDrained s e then beginWith s q e [] else s)
      else if ownEmpty s e then beginWith s q e ls else s

/-- A line that an entry of a matrix queue reads is absent, but for one that the entry itself writes (R105, R258). -/
def matrixWaits (s : State) (p : Nat) (e : QEntry) : Bool := (matrixReads p e).any fun r => rangeAbsent (s.freeLines e) r.1 r.2

/-- An entry of a matrix queue begins (R104, R134, R257, R260, R261, R365). -/
def beginMatrix (s : State) (p : Nat) (e : QEntry) : State :=
  let q := QueueId.matrix p
  match matrixFault s p e with
  | some (c, d) => failEntry s q e c d 0
  | none =>
    if !ownDrained s e || matrixWaits s p e then s
    else
      match e.op with
      | .macc t _ _ dreg _ _ _ _ a b _ _ => beginWith s q e (if dreg then [] else maccLines p t a.toNat b.toNat 0)
      | _ => beginWith s q e []

/-- The head entry begins, or is ended by a limit. -/
def beginEntry (s : State) (q : QueueId) (e : QEntry) : State :=
  match e.op, q with
  | .coll _ _ _ _ _ _ _, _ => beginColl s q e
  | .cpy _ _ _, _ => beginCopy s q e
  | .ldgs _ _ _, _ => beginCopy s q e
  | .qfnc _, _ => beginWith s q e []
  | _, .matrix p => beginMatrix s p e
  | _, _ => s

/-- The test at the head of a queue (R243): held, discarded, or found true once and for all and begun; an entry that an
error struck ends (R362). -/
def testHead (s : State) (q : QueueId) : State :=
  match s.engineQueue q with
  | [] => s
  | e :: _ =>
    if 4 ≤ e.retries then failEntry s q e .engfail 2 0
    else if e.page.isSome || e.begun then s
    else
      match headGate s e with
      | .unset => s
      | .no => endEntry s q e true
      | .yes =>
        let e := { e with passed := true }
        beginEntry (s.setHead q e) q e

/-- The head entry performs, begun before or now. -/
def performHead (s : State) (q : QueueId) (k : State → QEntry → State) : Out :=
  let s := testHead s q
  match s.engineQueue q with
  | e :: _ => .next (if e.begun && e.page.isNone then k s e else s)
  | [] => .next s

/-- An entry of a matrix queue performs once the lines that it reads are present (R258, R260, R261); one that breaks a
limit by now, since a quarter of its buffer has been cleared, is ended (R375). -/
def performMatrix (s : State) (p : Nat) (k : State → QEntry → State) : Out :=
  performHead s (.matrix p) fun s e =>
    match matrixFault s p e with
    | some (c, d) => failEntry s (.matrix p) e c d 0
    | none => if matrixWaits s p e then s else k s e

/-- GUARD_TEST (R243): the test of an entry at the head; a copy that has begun moves its next beat, a MACC its next row
(R369), and a collective that has begun is looked at again. -/
def execGuardTest (q : QueueId) (s : State) : Out :=
  match s.engineQueue q with
  | [] => .next s
  | e :: _ =>
    if !e.begun then .next (testHead s q)
    else if e.page.isSome then .next s
    else
      match collJob s q e, copyJob s e with
      | some j, _ => .next (testTrigger s q e j)
      | none, some j => .next (copyOn s q e j (j.beat e.progress))
      | none, none =>
        match q, e.op with
        | .matrix p, .macc _ _ _ _ _ _ _ _ _ _ _ _ => performMatrix s p fun s e => maccOn p 1 s e
        | _, _ => .next s

/-! ### Guard slots -/

/-- After a GSET: every entry that is held at the head of a queue by the slot is tested (R243). -/
def testHeld (s : State) (c : Ctx) (n : Nat) : State :=
  s.busyQueues.foldl (fun (s : State) q =>
    match s.engineQueue q, s.block? c.core with
    | e :: _, some b => if e.gate == some n && !e.begun && e.block? s == some b then testHead s q else s
    | _, _ => s) s

/-- GSET performs (R242, R243). -/
def gset (s : State) (c : Ctx) (w : EngOp) (v : Gate) : Out :=
  let n := w.ext.toNat % 16
  .next ((testHeld (setGate s c n v) c n).performed c.agent)

/-- GSET (R242). -/
def execGset (w : EngOp) (s : State) : Out :=
  issuing s (.gset w) fun c =>
    command s c w.guard none fun s c => gset s c w (if engSrc c w w.a == 0#32 then .no else .yes)
/-- GSET.clr (R242). -/
def execGsetClr (w : EngOp) (s : State) : Out :=
  issuing s (.gsetClr w) fun c => command s c w.guard none fun s c => gset s c w .unset

/-! ### Performance -/

/-- CPY_PERFORMED (R251, R225): a CPY or an LDGS writes what is left. -/
def execCpyPerformed (core : Nat) (s : State) : Out :=
  performHead s (.copy core) fun s e =>
    match copyJob s e with
    | some j => copyOn s (.copy core) e j j.size
    | none => s

/-- MLDB_PERFORMED (R255, R256). -/
def execMldbPerformed (pair : Nat) (s : State) : Out :=
  performHead s (.matrix pair) fun s e =>
    match e.op with
    | .mldb k quarter ty west data scales =>
      let p := s.pair pair
      performEntry (s.setPair pair (p.setBuf k ((p.buf k).load quarter ⟨ty, west, data, scales⟩))) (.matrix pair) e
    | _ => s

/-- MMA_PERFORMED (R258, R259). -/
def execMmaPerformed (pair : Nat) (s : State) : Out := performMatrix s pair fun s e => mmaPerform s pair e

/-- MACC_PERFORMED (R261). -/
def execMaccPerformed (pair : Nat) (s : State) : Out := performMatrix s pair fun s e => maccOn pair (256 - e.progress) s e

/-- MTBL_PERFORMED (R260). -/
def execMtblPerformed (pair : Nat) (s : State) : Out := performMatrix s pair fun s e => mtblPerform s pair e

/-- QFNC_PERFORMED (R135, R252). -/
def execQfncPerformed (q : QueueId) (s : State) : Out :=
  performHead s q fun s e =>
    match e.op with
    | .qfnc names =>
      if names.all fun x => x.2.all fun n => !s.entryLeft n then performEntry s q e else s
    | _ => s

/-- PCHKMIS (R259, R370): the outcome of the oldest pair check that is open: its two results differ in `rows` rows, first at an
element, or in none. -/
def execPchkmis (pair rows row col : Nat) (s : State) : Out :=
  let p := s.pair pair
  match p.pending s.clock with
  | [] => .next s
  | x :: rest =>
    let s := s.setPair pair { p with checks := rest }
    let a := row % 128 + col % 32 * 2 ^ 7 + x.tile % 8 * 2 ^ 12
    if rows == 0 then .next s
    else .next (s.post (x.entry.part s) .ifArmed (engineRec s x.entry .pchkmis (min rows 255) a))

/-- GUARDOPEN (R367): the open-guarded head entry of a block whose threads have exited is discarded. -/
def execGuardopen (q : QueueId) (s : State) : Out :=
  match s.engineQueue q with
  | [] => .next s
  | e :: _ =>
    match e.gate, e.block? s with
    | some g, some b =>
      if b.st == .retiring && b.gate g == .unset && !e.begun then .next (failEntry s q e .guardopen g 0) else .next s
    | _, _ => .next s

/-- A parity error in the datapath of the engine at work on the head of a queue (R369): the unit of work is repeated, and
the fourth error in a row ends the entry. -/
def parityTurn (q : QueueId) (s : State) : State :=
  match s.engineQueue q with
  | [] => s
  | e :: _ =>
    if !e.begun || e.page.isSome then s
    else if e.retries < 3 then s.setHead q { e with retries := e.retries + 1 }
    else failEntry s q e .engfail 2 0

end Sys2Proof.Machine
end

