-- ==== Sys2Proof/Machine/Reset.lean ====
section
/-! DEFINITION. Resets of a virtual device and of a partition (R379 to R381, R397), and the end of a partition's
disabling (R400). -/

namespace Sys2Proof.Machine

/-! ### What a reset of a virtual device takes away (R379) -/

/-- The entries of a queue that a reset ends: DONE with STATUS 1 for each that has not completed. -/
def State.endQueue (s : State) (f q : Nat) : State :=
  let x := s.queue f q
  let s := (x.entries.filter fun e => !e.completed).foldl (fun (s : State) e => s.done f e.hdr e.tag 1) s
  s.setQueue f q { s.queue f q with en := false, entries := [], held := [] }

/-- The queues of a front end that a virtual device owns. -/
def State.queuesOf (s : State) (f v : Nat) : List Nat :=
  (List.range 64).filter fun q =>
    match tblFind (s.fe f).queues q with
    | some x => x.vd == v
    | none => v == 0

/-- The entries of the queues of a front end that are a device's own: those that have begun stay so when the queue gets another
owner (R287). -/
def State.entriesOf (s : State) (f v : Nat) : List (Nat × Entry) :=
  (s.fe f).queues.flatMap fun x => (x.2.entries.filter fun e => hdrVd e.hdr == v).map fun e => (x.1, e)

/-- An entry that a reset of its device ends in a queue that has another owner. -/
def State.endEntry (s : State) (f : Nat) (x : Nat × Entry) : State :=
  if x.2.completed then s else (s.done f x.2.hdr x.2.tag 1).setQueue f x.1
    { s.queue f x.1 with entries := (s.queue f x.1).entries.filter fun e => e.tag != x.2.tag }

/-- A group of a block that a reset ends: its fragments abort and nothing more issues. -/
def Group.ended (g : Group) : Group :=
  { g with frags := [], sbuf := [], tags := [], lanes := g.lanes.map fun t => { t with exited := true, away := false } }

/-- An ejected lane aborts and frees its context; its committed entries and accepted tile stores drain with
those of its warp. -/
def State.endEjected (s : State) (e : Ejected) : State :=
  let (gi, l) := threadLane e.grp.width e.thread
  let s := s.freeContext e
  let s := s.mapWarp e.core (warpOfLane e.grp.width gi l) fun w => { w with fifo := w.fifo ++ e.fifo }
  match s.group? (.grp e.core gi) with
  | some g => s.setGroup (g.joinTiles e.grp) (.grp e.core gi)
  | none => s

/-- The blocks of a virtual device end: what they committed drains before they retire. -/
def State.endBlocks (s : State) (f v : Nat) : State :=
  let mine (b : Block) : Bool := b.fe == f && b.vd == v
  let gone := s.ejected.filter fun e =>
    match s.block? e.core with
    | some b => mine b
    | none => false
  let s := gone.foldl (fun (s : State) e => s.endEjected e) s
  let put (b : Block) : Block :=
    if mine b then { b with st := .retiring, taking := none, groups := b.groups.map Group.ended, withdrawn := [] } else b
  { s with cores := s.cores.map fun x => (x.1, { x.2 with block := x.2.block.map put }) }

/-- A begun collective of the device sends the abort of R372. -/
def abortOf (s : State) (q : QueueId) (e : QEntry) : State :=
  match collJob s q e, e.run with
  | some j, some r => if r.aborted then s else s.sendChunks (abortMsgs s j r)
  | _, _ => s

/-- The entries withdrawn from blocks end with them; a collective among them that has begun sends the abort. -/
def State.endWithdrawn (s : State) (bs : List Block) : State :=
  (bs.flatMap (·.withdrawn)).foldl (fun (s : State) x => abortOf s x.1 x.2) s

/-- The engine entries of a virtual device in a queue are gone; no object is completed. -/
def State.endEntries (s : State) (f v : Nat) (q : QueueId) : State :=
  let mine (e : QEntry) : Bool := e.fe == f && e.vd == v
  let es := s.engineQueue q
  let s := (es.filter mine).foldl (fun (s : State) e => ((abortOf s q e).freeLines e).dropPages e) s
  s.setEngineQueue q (es.filter fun e => !mine e)

/-- The translations of a space dropped from every TLB, but for those a test keeps. -/
def State.dropTlb (s : State) (gone : TlbEntry → Bool) : State :=
  { s with
    cores := s.cores.map fun x => (x.1, { x.2 with tlb := x.2.tlb.filter fun e => !gone e })
    clusterTlb := s.clusterTlb.map fun x => (x.1, x.2.filter fun e => !gone e)
    supers := s.supers.map fun x => (x.1, { x.2 with tlb := x.2.tlb.filter fun e => !gone e }) }

/-- Bytes 0 to 3 of a member table written (R263, R373): the count of COLLs starts again and the table is
mended. -/
def Member.writeHead (m : Member) (x : W32) : Member := { m with words := tblSet 0#32 m.words 0 x, j := 0, broken := false }

/-- Bytes 0 to 3 of every member table of a virtual device set to zero on every die. -/
def State.clearMembers (s : State) (v : Nat) : State :=
  { s with members := s.members.map fun x => if x.1 / 32 % 256 == v then (x.1, x.2.writeHead 0#32) else x }

/-- The loss-scale registers at their Reset values (R271, R274). -/
def Vd.resetLoss (d : Vd) : Vd :=
  { d with lsc := Vd.empty.lsc, lsmin := Vd.empty.lsmin, lsmax := Vd.empty.lsmax, lsint := Vd.empty.lsint
           lsrun := Vd.empty.lsrun, lsstep := Vd.empty.lsstep, lskip := false }

/-- A reset of virtual device `v` of front end `f` starts (R379); one in progress keeps its first reason
(R394). -/
def vdReset (s : State) (f v reason : Nat) : State :=
  if (s.vd f v).resetting.isSome then s
  else
    let s := (s.queuesOf f v).foldl (fun (s : State) q => s.endQueue f q) s
    let s := (s.entriesOf f v).foldl (fun (s : State) x => s.endEntry f x) s
    let s := s.busyQueues.foldl (fun (s : State) q => s.endEntries f v q) s
    let p := (s.vd f v).part.toNat
    let part := s.part p
    let blocks := s.cores.filterMap (·.2.block) ++ part.saved.flatMap (·.blocks)
    let s := (s.endWithdrawn (blocks.filter fun b => b.fe == f && b.vd == v)).endBlocks f v
    let s := s.setPart p
      { part with saved := part.saved.filter (fun g => !(g.fe == f && g.vd == v)), reserve := part.reserve.filter (·.2 != v) }
    let s := { s with
      pageReqs := s.pageReqs.filter fun r => !(r.fe == f && r.vd == v)
      walks := s.walks.filter fun w => w.space != 256 * f + v }
    let s := (s.beginWalks.dropTlb fun e => e.space == 256 * f + v).clearMembers v
    let d := (s.vd f v).resetLoss
    s.setVd f v { d with gen := d.gen + 1, resetting := some reason, resetPart := p, regsBad := false }

/-! ### The end of a reset -/

/-- The virtual devices of a partition: enabled ones, and ones that a reset still ends, which are those of the partition that
PART named at its start, too (R381). -/
def State.vdsOf (s : State) (p : Nat) : List Nat :=
  (List.range 256).filter fun v =>
    let d := s.vd (p / 2) v
    (d.en || d.resetting.isSome) && d.part.toNat == p || d.resetting.isSome && d.resetPart == p

/-- The virtual devices whose PART names a partition, enabled or not (R381, R400), the ones of Reset value among them. DEDUCED: a
device that another front end holds is in that one's. -/
def State.partVds (s : State) (p : Nat) : List Nat :=
  (List.range 256).filter fun v =>
    (s.vd (p / 2) v).part.toNat == p &&
      !((List.range 32).any fun g => g != p / 2 && ((s.vd g v).en || (s.vd g v).resetting.isSome))

/-- A device of the partition is being reset. -/
def State.resetRuns (s : State) (p : Nat) : Bool := (s.vdsOf p).any fun v => (s.vd (p / 2) v).resetting.isSome

/-- A harbourmaster that stops for good: its context is free; what it committed drains (R57, R400). -/
def State.stopSuper (s : State) (p : Nat) : State :=
  match tblFind s.supers p with
  | some h =>
    if h.fifo.isEmpty then { s with supers := tblErase s.supers p }
    else { s with supers := tblInsert s.supers p { h with ctx := none, run := false, trapped := false, halted := false, kern := none } }
  | none => s

/-- The last two steps of a partition's disabling (R400). -/
def State.finishDisable (s : State) (p : Nat) : State :=
  let part := s.part p
  (s.setPart p { part with en := false, disabling := false, kqGrant := [], ejGrant := [], resident := none
                           switching := false, successor := none }).stopSuper p

/-- A disabling goes on when no device of the partition is being reset and every VDRESET record is in the ring
(R400). -/
def State.disableStep (s : State) (p : Nat) : State :=
  let part := s.part p
  let waits := part.heldRecs.any fun r => r.extractLsb' 120 8 == 0x29#8
  if part.disabling && !s.resetRuns p && !waits then s.finishDisable p else s

/-- After a reset of device `v` has ended: PRST reads 0 with the last one of those that it waits for, and a disabling of the
partition goes on. -/
def State.afterReset (s : State) (p v : Nat) : State :=
  let s := s.setPart p { s.part p with resetting := (s.part p).resetting.filter (· != v) }
  if s.resetRuns p then s else s.disableStep p

/-- The VDRESET record of a device waits for its slot in the ring. -/
def State.resetHeld (s : State) (p v : Nat) : Bool :=
  (s.part p).heldRecs.any fun r => r.extractLsb' 120 8 == 0x29#8 && (r.extractLsb' 168 8).toNat == v

/-- The last step of a reset (R397): VDRST reads 0. -/
def State.finishReset (s : State) (f v : Nat) : State :=
  let d := s.vd f v
  let s := (s.setVd f v { d with resetting := none }).afterReset d.resetPart v
  if d.part.toNat == d.resetPart then s else s.afterReset d.part.toNat v

/-- VD_RESET_COMPLETE (R379, R396, R397): every block of the device is gone. Its record is posted to the partition that the
reset began in, and the reset ends once it stands in the ring. -/
def execVdResetComplete (vd : Nat) (s : State) : Out :=
  match (List.range 32).find? fun f => (s.vd f vd).resetting.isSome with
  | none => .next s
  | some f =>
    let d := s.vd f vd
    let busy := s.cores.any fun x =>
      match x.2.block with
      | some b => b.fe == f && b.vd == vd
      | none => false
    let p := d.resetPart
    if busy || s.resetHeld p vd then .next s
    else
      let s := s.post p .ifArmed { cause := .vdreset, detail := d.resetting.getD 0, vd := vd, part := p }
      let s := { s with cores := s.cores.map fun (x : Nat × Core) =>
        if x.2.lastVd == some (256 * f + vd) then (x.1, { x.2 with lastVd := none }) else x }
      .next (if s.resetHeld p vd then s else s.finishReset f vd)

/-- A reset of partition `p` whose VDRESET record has been written ends (R397). -/
def State.recordEnds (s : State) (p : Nat) (r : BitVec 512) : State :=
  let v := (r.extractLsb' 168 8).toNat
  let d := s.vd (p / 2) v
  if r.extractLsb' 120 8 == 0x29#8 && d.resetting.isSome && d.resetPart == p then s.finishReset (p / 2) v else s

/-! ### Resets that the harbourmaster asks for (R378, R381) -/

/-- Every device of a partition reset. -/
def partReset (s : State) (p reason : Nat) : State :=
  (s.partVds p).foldl (fun (s : State) v => vdReset s (p / 2) v reason) s

/-- A write of 1 to PRST (R381): it reads 1 until the resets that run now have ended. -/
def prstWrite (s : State) (p : Nat) : State :=
  let s := partReset s p 2
  s.setPart p { s.part p with resetting := (s.vdsOf p).filter fun v => (s.vd (p / 2) v).resetting.isSome }

/-- PRST (R381). -/
def execPrst (part : Nat) (s : State) : Out := .next (prstWrite s part)

/-- VDRST (R379): the reset of one virtual device, with reason 1. -/
def execVdrst (vd : Nat) (s : State) : Out :=
  match s.feOf vd with
  | some f => .next (vdReset s f vd 1)
  | none => .next s

end Sys2Proof.Machine
end

