-- ==== Sys2Proof/Machine/Faults.lean ====
section
/-! DEFINITION. Transient faults and reruns (R337, R338, R343), storage errors (R342, R362, R363, R388), the ring's
held records (R327), and the end of a walk (R114, R356, R395). -/

namespace Sys2Proof.Machine

/-! ### Transient faults (R337, R338) -/

/-- The DETAIL of a TRANS source (R322). -/
def TransSourceDetail : TransSource → Nat
  | .nearFile => 0
  | .latch => 1
  | .handover => 2

/-- One more TRANS abort counted for every fragment of a group that a deschedule aborts. -/
def Group.countTrans (g : Group) : Group := g.mapFrags fun f => if f.aborts then { f with trans := f.trans + 1 } else f

/-- The agents whose fragments a deschedule of an agent's warp aborts. -/
def State.struckWith (s : State) (a : Agent) : List Agent :=
  match a with
  | .frag c gi _ =>
    (match s.block? c with
     | some b => (b.groups.filter fun g => shareWarp g.width gi g.index).flatMap fun g =>
         (g.frags.filter Frag.aborts).map fun f => .frag c g.index f.fid
     | none => [])
  | a => [a]

/-- The counts of a warp's fragments raised. -/
def State.countTrans (s : State) (a : Agent) : State :=
  match a with
  | .frag c gi _ =>
    match s.block? c with
    | some b => s.setBlock c { b with groups := b.groups.map fun g => if shareWarp g.width gi g.index then g.countTrans else g }
    | none => s
  | _ => s.mapGroup a Group.countTrans

/-- The fragments of a warp whose fourth abort this is stop with PERSIST (R338); FPC is where each of them stood when it was
struck. -/
def persist (s : State) (as : List (Agent × Nat)) (detail : Nat) : State :=
  as.foldl (fun (s : State) a =>
    match s.ctx? a.1 with
    | some c =>
      if c.f.stop.isNone && decide (4 ≤ c.f.trans) then takeTrap s c { cause := .persist, detail := detail, fpc := some a.2 } else s
    | none => s) s

/-- The perform step of a committed instruction is still to come: an atomic, or a command that stalls (R56, R337). -/
def Frag.toPerform (f : Frag) : Bool :=
  match f.wait with
  | .atom => true
  | .engine _ _ => true
  | _ => false

/-- TRANS (R337, R338, R343): the instruction about to issue, or to perform, is struck and takes no effect; the warp reruns,
a committed instruction itself. A strike of a hand-over keeps the side in its warp. -/
def execTrans (a : Agent) (src : TransSource) (s : State) : Out :=
  match s.ctx? a with
  | none => .next s
  | some c =>
    match src, c.f.wait with
    | .handover, .handover _ _ => .next (handoverStruck s c)
    | .handover, _ => .next s
    | _, _ =>
      if !(able s c && unitReady s c) && !(c.f.stop.isNone && c.f.toPerform) then .next s
      else
        let d := TransSourceDetail src
        let fpc := c.f.pc
        let struck := (s.struckWith a).filterMap fun x => (s.ctx? x).map fun c => (x, c.f.pc)
        let s := (s.countTrans a).deschedule a
        match s.ctx? a with
        | none => .next s
        | some c =>
          let s := if c.f.trans < 4 then
              s.post c.part .ifArmed { (s.recOf c .trans).restart s c c.f with detail := d, fpc := fpc }
            else s
          .next (persist s struck d)

/-! ### Storage errors -/

/-- An FEERR record about a device's front-end state (R376). -/
def feErr (s : State) (f v detail addr : Nat) : State :=
  let p := (s.vd f v).part.toNat
  s.post p .ifArmed { cause := .feerr, detail := detail, addr := addr, vd := v, part := p }

/-- The control-range offset of a CAPM word within its die (R291). -/
def capmOffset (core : Nat) : Nat := 0x02000000 + 0x100 * (core / 32 % 2) + 8 * (core % 32)

/-- The loss of a spilled fragment (R342): every fragment of the warp stops, but a side whose hand-over is in progress leaves
(R344); one record names the lost one, whatever stopped it before. -/
def fragLost (s : State) (core h slot : Nat) : State :=
  match s.block? core with
  | none => s
  | some b =>
    let gs := b.groups.filter fun g => (warpsOf g.width g.index).contains h
    match gs.findSome? fun g => (g.frags.find? fun f => f.slot == .spilled slot).map fun f => (g, f) with
    | none => s
    | some (g, f) =>
      let a := Agent.frag core g.index f.fid
      match s.ctx? a with
      | none => s
      | some c =>
        let fpc := f.pc
        let s := s.deschedule a
        let (hd, s) := s.newHandle c.part
        let lost : Stop := ⟨hd, Cause.fraglost.code.1, none⟩
        let put (x : Group) : Group :=
          if shareWarp x.width g.index x.index then
            x.mapFrags fun y =>
              if y.fid == f.fid then { y with stop := some lost, ctxs := [] }
              else if y.leaving then y
              else { y with stop := some (y.stop.getD lost) }
          else x
        let s := match s.block? core with
          | none => s
          | some b => s.setBlock core { b with groups := b.groups.map put }
        match s.ctx? a with
        | none => s
        | some c =>
          s.post c.part .always { (s.recOf c .fraglost).restart s c c.f with detail := slot, handle := hd, stop := true, fpc := fpc }

/-- The context area of a hardware warp that an offset of a scratchpad lies in, with its slot (R62). -/
def contextSlot (b : Block) (off : Nat) : Option (Nat × Nat) :=
  let h := (scratchBytes - 1 - off) / 512
  let o := off - (scratchBytes - 512 * (h + 1))
  if h < b.warps.length && o < 384 then some (h, o / 16) else none

/-- An uncorrectable error in an engine queue entry (R362): the entry is ended, at the head of its queue. -/
def engineError (s : State) (q : QueueId) (pos : Nat) : State :=
  let es := s.engineQueue q
  match es[pos]? with
  | none => s
  | some e =>
    if pos == 0 then failEntry s q e .engfail 2 0
    else s.setEngineQueue q (es.set pos { e with retries := 4 })

/-- The die of an engine queue. -/
def queueDie : QueueId → Nat
  | .copy c => dieOf c
  | .matrix p => dieOf (2 * p)
  | .coll _ d => d

/-- UNCORRECTABLE_ERROR (R342, R362, R388): the granule is poisoned, or what R362 names instead; counted in
RASCNT (R363). DESIGN CHOICE: the FEERR of a place table (DETAIL 1) and of a member table (DETAIL 4) has the control-range offset
of the failing word in ADDR, as R376 says it of CAPM (log entry 145). -/
def execUncorrectableError (loc : StorageLoc) (s : State) : Out :=
  match loc with
  | .vreg core group lane reg =>
    let s := s.countError (dieOf core) 0 true
    match s.group? (.grp core group) with
    | some g => .next (s.setGroup (g.setLane lane { g.lane lane with bad := setInsert (g.lane lane).bad reg }) (.grp core group))
    | none => .next s
  | .scratch core off =>
    let s := s.countError (dieOf core) 1 true
    (match (s.block? core).bind fun b => contextSlot b off with
     | some (h, slot) => .next (fragLost s core h slot)
     | none => .next (s.setCore core { s.core core with scratchBad := setInsert (s.core core).scratchBad (off / 8) }))
  | .accum core idx =>
    let s := s.countError (dieOf core) 2 true
    .next (s.setCore core { s.core core with accBad := setInsert (s.core core).accBad (idx / 2) })
  | .statBuf pair buf quarter =>
    let s := s.countError (dieOf (2 * pair)) 2 true
    let p := s.pair pair
    let b := p.buf buf
    .next (s.setPair pair (p.setBuf buf { b with qv := b.qv &&& ~~~(1#4 <<< quarter) }))
  | .actTable pair =>
    let s := s.countError (dieOf (2 * pair)) 2 true
    .next (s.setPair pair { s.pair pair with tblBad := true })
  | .l2 cluster line granule =>
    let s := s.countError (cluster / 2) 3 true
    (match tblFind (s.slice cluster) line with
     | none => .next s
     | some l =>
       let s := s.dropLine cluster line
       .next (if l.dirty != 0#256 then s.poisonMem (128 * line + 32 * (granule % 4)) 32 else s))
  | .msc pa dirty =>
    let s := s.countError (homeDie pa) 4 true
    .next (if dirty && isHbm pa then s.strikeMsc pa else s)
  | .hbm pa =>
    let s := s.countError (homeDie pa) 5 true
    .next (if isHbm pa then s.poisonHbm pa else s)
  | .tender core thread =>
    (match s.ctx? (.ejected core thread), s.ejected? core thread with
     | some c, some e =>
       let s := s.countError (dieOf core) 6 true
       .next (takeTrap s c { cause := .ejlost, detail := e.ctx / 8 })
     | _, _ => .next s)
  | .engine q pos => .next (engineError (s.countError (queueDie q) 7 true) q pos)
  | .spill core warp slot => .next (fragLost (s.countError (dieOf core) 1 true) core warp slot)
  | .feQueue fe q pos =>
    let s := s.countError fe 7 true
    let x := s.queue fe q
    (match x.entries[pos]? with
     | some e => .next (feErr (s.setQueue fe q { x with entries := x.entries.set pos { e with poisoned := true } }) fe x.vd 0 0)
     | none => .next s)
  | .placeTable f vd off =>
    let s := s.countError f 7 true
    let d := s.vd f vd
    let o := off / 8 * 8
    let s := s.setVd f vd { d with placeBad := setInsert (setInsert d.placeBad o) (o + 4) }
    .next (feErr s f vd 1 (0x00100000 + 0x1000 * vd + o))
  | .vdRegs f vd =>
    let s := s.countError f 7 true
    .next (feErr (s.setVd f vd { s.vd f vd with regsBad := true }) f vd 2 0)
  | .capm core =>
    let s := s.countError (dieOf core) 7 true
    let s := s.setCore core { s.core core with capmBad := true }
    (match s.partOf (clusterOf core) with
     | some p => .next (s.post p .ifArmed { cause := .feerr, detail := 3, addr := capmOffset core, novd := true, part := p })
     | none => .next s)
  | .memberTable die vd x off =>
    let s := s.countError die 7 true
    let m := s.member die vd x
    let o := off % 1024 / 8 * 8
    let s := s.setMember die vd x { m with bad := setInsert (setInsert m.bad o) (o + 4) }
    .next (feErr s ((s.feOf vd).getD die) vd 4 (0x04000000 + 0x8000 * vd + 0x400 * x + o))

/-- CORRECTABLE_ERROR (R362, R363): counted in RASCNT.CE; no record. -/
def execCorrectableError (die level : Nat) (s : State) : Out := .next (s.countError die level false)

/-! ### Held records -/

/-- RECORD_WRITE (R327): the oldest held record is written when the next slot is free; a reset that waited for it ends (R397). -/
def execRecordWrite (part : Nat) (s : State) : Out :=
  let p := s.part part
  match p.heldRecs with
  | [] => .next s
  | r :: rest =>
    if p.ring.length < p.ringSize then
      .next ((((s.setPart part { p with heldRecs := rest }).writeRecord part r).recordEnds part r).disableStep part)
    else .next s

/-! ### The end of a walk -/

/-- What a fragment waits for in a walk: the address, the access kind of its record, and its tag. -/
def walkWait (f : Frag) (id : Nat) : Option (W64 × Nat × Option Nat) :=
  match f.wait with
  | .walk i va ak tag => if i == id then some (va, ak, tag) else none
  | _ => none

/-- The contexts that wait on a walk. -/
def walkWaiters (s : State) (id : Nat) : List (Ctx × W64 × Nat × Option Nat) :=
  s.agents.filterMap fun a => (s.ctx? a).bind fun c => (walkWait c.f id).map fun x => (c, x)

/-- The access of a waiter, by the access kind of its record (R326). -/
def accessOf (ak : Nat) : Access := if ak == 2 then .write else if ak == 3 then .atomic else if ak == 4 then .fetch else .read

/-- What the end of a walk brings a core for an access (R113, R114): its TLBs filled from the leaf, or the failing entry. -/
def walkFor (s : State) (w : Walk) (r : WalkRes) (core : Nat) (acc : Access) : State ⊕ (Nat × Nat × Nat × Nat) :=
  match s.judge w.space acc false r with
  | .leaf l => .inl ((s.markLeaf w.space l.pte true (isWrite acc)).fillTlb core (s.tlbOf w.space l (isWrite acc)))
  | .fail l d b z => .inr (l, d, b, z)

/-- A waiter of a walk that has ended: it issues again, or its page request is raised (R356, R395); one whose address turns
out to lie on another page issues again, too. -/
def walkWaiter (w : Walk) (r : WalkRes) (s : State) (x : Ctx × W64 × Nat × Option Nat) : State :=
  let (c, va, ak, tag) := x
  if !r.covers va.toNat then s.wake c.agent
  else
    match walkFor s w r c.core (accessOf ak) with
    | .inl s => s.wake c.agent
    | .inr f => pageFault s c f va (accessOf ak) ak tag

/-- PAGE_WALK_DONE (R113, R114, R356, R395): a walk that has begun ends. A leaf is installed for its waiters, which issue
again; where it fails a waiter, nothing is installed and the page request is raised; where a TLBINV has named its page since, its
waiters issue again, and walk again (R358). A waiting walk takes the walker. -/
def execPageWalkDone (walk : Nat) (s : State) : Out :=
  match s.walks.find? fun w => w.id == walk with
  | none => .next s
  | some w =>
    match w.found with
    | none => .next s
    | some r =>
      let ws := walkWaiters s walk
      let s := { s with walks := s.walks.filter fun x => x.id != walk }
      let s :=
        if w.stale then ws.foldl (fun (s : State) x => s.wake x.1.agent) s
        else
          match ws, walkFor s w r w.core w.acc with
          | [], .inl t => t
          | _, _ => ws.foldl (walkWaiter w r) s
      .next s.beginWalks

end Sys2Proof.Machine
end

