-- ==== Sys2Proof/Machine/System.lean ====
section
/-! DEFINITION. The training and system instructions (R270 to R283, R349, R378): the overflow flag, the loss
scale, control registers, traps and breakpoints, the harbourmaster's TRET and HALT, place and time. -/

namespace Sys2Proof.Machine

/-! ### Frame -/

/-- A scalar result written to D by a system instruction (R45). -/
def sysResult (s : State) (c : Ctx) (d : Opnd) (ws : List W32) : Out :=
  finish (s.mapGroup c.agent fun g => g.writeLocs (destLocs d ((c.active).headD 0) ws)) c

/-- A scalar source of a system instruction. -/
def sysSrc (c : Ctx) (w : SysOp) (x : Src) : W32 := BitVec.ofNat 32 (c.src 0 .b32 x w.imm)

/-! ### The overflow flag (R270) -/

/-- OVFR.rd. -/
def execOvfrRd (w : SysOp) (s : State) : Out :=
  issuing s (.ovfrRd w) fun c =>
    if (c.acting w.guard).isEmpty then finish s c else sysResult s c w.d [if c.g.ovf then 1#32 else 0#32]

/-- OVFR.rdc: OVFN is cleared and a clear is pending until the fragment's next SBEG. -/
def execOvfrRdc (w : SysOp) (s : State) : Out :=
  issuing s (.ovfrRdc w) fun c =>
    if (c.acting w.guard).isEmpty then finish s c
    else
      let s := s.mapGroup c.agent fun g => { g with ovfn := false }
      let s := s.mapFrag c.agent fun f => { f with ovfClear := true }
      sysResult s c w.d [if c.g.ovf then 1#32 else 0#32]

/-! ### Loss scale (R271 to R275) -/

/-- A positive, finite, normal binary32 value. -/
def scaleOk (a : W32) : Bool := decide (0x00800000 ≤ a.toNat) && decide (a.toNat < 0x7F800000)

/-- The scale clamped into its range; positive values order as their bits. -/
def Vd.clampLsc (d : Vd) : Vd :=
  { d with lsc := BitVec.ofNat 32 (max d.lsmin.toNat (min d.lsc.toNat d.lsmax.toNat)) }

/-- LSADJ.set (R273): `none` where it is refused. -/
def Vd.lsSet (d : Vd) (sel : Nat) (a : W32) : Option Vd :=
  match sel with
  | 0 => if scaleOk a then some ({ d with lsc := a } : Vd).clampLsc else none
  | 1 => if scaleOk a && decide (a.toNat ≤ d.lsmax.toNat) then some ({ d with lsmin := a } : Vd).clampLsc else none
  | 2 => if scaleOk a && decide (d.lsmin.toNat ≤ a.toNat) then some ({ d with lsmax := a } : Vd).clampLsc else none
  | 3 => some { d with lsint := BitVec.ofNat 32 (max 1 (a.toNat % 2 ^ 30)) }
  | 4 => some { d with lsrun := a }
  | _ => some { d with lsstep := a }

/-- A loss-scale register by its Sel (R271). -/
def Vd.lsGet (d : Vd) (sel : Nat) : W32 :=
  match sel with
  | 0 => d.lsc
  | 1 => d.lsmin
  | 2 => d.lsmax
  | 3 => d.lsint
  | 4 => d.lsrun
  | _ => d.lsstep

/-- RUN of LSRUN replaced, its bound flags kept or set (R272). -/
def Vd.setRun (d : Vd) (run : Nat) (floorHit ceilHit : Bool) : Vd :=
  let old := d.lsrun.toNat
  let fl := floorHit || testBit old 30
  let ce := ceilHit || testBit old 31
  { d with lsrun := BitVec.ofNat 32 (run % 2 ^ 30 + 2 ^ 30 * bit fl + 2 ^ 31 * bit ce) }

/-- LSADJ.step (R274). -/
def Vd.lsStep (d : Vd) (a b : W32) : Vd :=
  if b == d.lsstep then d
  else
    let d := { d with lsstep := b }
    if a != 0#32 then
      let d := { d with lskip := true }
      if d.lsc == d.lsmin then d.setRun 0 true false
      else { d.setRun 0 false false with lsc := BitVec.ofNat 32 (max (d.lsc.toNat - 0x00800000) d.lsmin.toNat) }
    else
      let d := { d with lskip := false }
      let run := d.lsrun.toNat % 2 ^ 30 + 1
      if run < d.lsint.toNat then d.setRun run false false
      else if d.lsc == d.lsmax then d.setRun 0 false true
      else { d.setRun 0 false false with lsc := BitVec.ofNat 32 (min (d.lsc.toNat + 0x00800000) d.lsmax.toNat) }

/-- The device whose loss scale an issuer acts on (R349): its own, or the one resident in the harbourmaster's
partition. -/
def lossVd (s : State) (c : Ctx) : Option (Nat × Nat) :=
  if c.level == .super then (s.part c.part).resident.map fun v => (c.part / 2, v) else some (c.fe, c.vd)

/-- LSADJ with its device; a harbourmaster without a resident device traps ENGUSE (R349). -/
def lossOp (s : State) (c : Ctx) (w : SysOp) (k : Nat → Nat → Vd → Out) : Out :=
  match lossVd s c with
  | none => trapOut s c { cause := .enguse, detail := 2 }
  | some (f, v) => if (c.acting w.guard).isEmpty then finish s c else k f v (s.vd f v)

/-- LSADJ.step. -/
def execLsadjStep (w : SysOp) (s : State) : Out :=
  issuing s (.lsadjStep w) fun c =>
    lossOp s c w fun f v d =>
      let d := d.lsStep (sysSrc c w w.a) (sysSrc c w w.b)
      sysResult (s.setVd f v d) c w.d [if d.lskip then 1#32 else 0#32]

/-- LSADJ.set: a refused value traps LSVAL. -/
def execLsadjSet (w : SysOp) (s : State) : Out :=
  issuing s (.lsadjSet w) fun c =>
    lossOp s c w fun f v d =>
      let sel := w.ext.toNat % 8
      match d.lsSet sel (sysSrc c w w.a) with
      | some d => finish (s.setVd f v d) c
      | none => trapOut s c { cause := .lsval, detail := sel }

/-- LSADJ.get. -/
def execLsadjGet (w : SysOp) (s : State) : Out :=
  issuing s (.lsadjGet w) fun c => lossOp s c w fun _ _ d => sysResult s c w.d [d.lsGet (w.ext.toNat % 8)]

/-! ### Traps and breakpoints (R278, R324) -/

/-- TRAP: commits, and its fragment stops at the next SBEG, which must follow it whether or not it acts (R331). -/
def execTrap (w : SysOp) (s : State) : Out :=
  issuing s (.trap w) fun c =>
    if (c.acting w.guard).isEmpty then .next (s.mapFrag c.agent fun f => f.goTo (f.pc + 16) (some (.strand 3 f.pc)))
    else
      let s := (s.ensureCommit c).performed c.agent
      .next (takeTrap s (s.reread c) { cause := .swtrap, addr := w.imm.toNat % 65536, fpc := some c.f.pc })

/-- BRK: stops its fragment where BRKEN is set (R277), else acts as NOP. At the stop the pending lookahead results are written
(R351). -/
def execBrk (w : SysOp) (s : State) : Out :=
  issuing s (.brk w) fun c =>
    if (c.acting w.guard).isEmpty || !testBit (s.part c.part).dbgctl.toNat 0 then finish s c
    else trapOut (s.settle c) c { cause := .brk }

/-- TRET (R279). -/
def execTret (w : SysOp) (s : State) : Out :=
  issuing s (.tret w) fun c =>
    if (c.acting w.guard).isEmpty then finish s c
    else
      let (ok, s) := trapReturn s c.part (sysSrc c w w.a).toNat (w.imm.toNat % 4)
      sysResult s c w.d [if ok then 1#32 else 0#32]

/-- HALT (R280, R328): a pending event ends it at once. -/
def execHalt (w : SysOp) (s : State) : Out :=
  issuing s (.halt w) fun c =>
    if (c.acting w.guard).isEmpty then finish s c
    else
      match tblFind s.supers c.part with
      | none => finish s c
      | some h => .next (({ s with supers := tblInsert s.supers c.part { h with halted := true } } : State).deliverEvent c.part)

/-! ### Control registers (R276, R277, R378) -/

/-- CAPCTL as it reads (R115). -/
def Vd.capctl (d : Vd) : W32 := BitVec.ofNat 32 (bit d.genc + 2 ^ 30 * bit d.refusedBit + 2 ^ 31 * bit d.busy)

/-- A write of CAPCTL by the host or a harbourmaster (R115): REFUSED is cleared by a 1; a change of GENC
starts a capture, or is refused while one runs. -/
def Vd.capctlWrite (d : Vd) (x : W32) : Vd :=
  let d := if x.getLsbD 30 then { d with refusedBit := false } else d
  if x.getLsbD 0 == d.genc then d
  else if d.busy then { d with refusedBit := true }
  else { d with genc := x.getLsbD 0, busy := true }

/-- The device that a per-device register of CTLR and CTLW names (R276). -/
def ctlVd (s : State) (c : Ctx) (w : SysOp) : Option (Nat × Nat) :=
  if c.level == .super then
    let v := w.ext.toNat
    let d := s.vd (c.part / 2) v
    if d.en && d.part.toNat == c.part then some (c.part / 2, v) else none
  else some (c.fe, c.vd)

/-- The value that CTLR reads. -/
def ctlRead (s : State) (c : Ctx) (w : SysOp) : W32 :=
  let p := s.part c.part
  let vd (k : Vd → W32) : W32 :=
    match ctlVd s c w with
    | some (f, v) => k (s.vd f v)
    | none => 0#32
  match w.imm.toNat % 4096 with
  | 0x001 => p.divctl
  | 0x002 => p.engbw
  | 0x003 => p.dbgctl
  | 0x004 => if p.resetting.isEmpty then 0#32 else 1#32
  | 0x005 => vd fun d => if d.resetting.isSome then 1#32 else 0#32
  | 0x010 => vd Vd.capctl
  | 0x011 => vd fun d => d.capoff.setWidth 32
  | _ => vd fun d => (d.capoff >>> 32).setWidth 32

/-- The effect of CTLW; reserved bits stay as they are (R7). -/
def ctlWrite (s : State) (c : Ctx) (w : SysOp) (x : W32) : State :=
  let p := s.part c.part
  let vd (k : Nat → Nat → Vd → State) : State :=
    match ctlVd s c w with
    | some (f, v) => k f v (s.vd f v)
    | none => s
  match w.imm.toNat % 4096 with
  | 0x001 => s.setPart c.part { p with divctl := x &&& 0x01FF000F#32 }
  | 0x002 => s.setPart c.part { p with engbw := x &&& 0x0000FFFF#32 }
  | 0x003 => s.setPart c.part { p with dbgctl := x &&& 1#32 }
  | 0x004 => if x.getLsbD 0 then prstWrite s c.part else s
  | 0x005 => if x.getLsbD 0 then vd fun f v _ => vdReset s f v 1 else s
  | 0x010 => vd fun f v d => s.setVd f v (d.capctlWrite x)
  | 0x011 => vd fun f v d => s.setVd f v { d with capoff := (d.capoff.extractLsb' 32 32) ++ x }
  | _ => vd fun f v d => s.setVd f v { d with capoff := x ++ (d.capoff.setWidth 32) }

/-- CTLR. -/
def execCtlr (w : SysOp) (s : State) : Out :=
  issuing s (.ctlr w) fun c =>
    if (c.acting w.guard).isEmpty then finish s c else sysResult s c w.d [ctlRead s c w]

/-- CTLW. -/
def execCtlw (w : SysOp) (s : State) : Out :=
  issuing s (.ctlw w) fun c =>
    if (c.acting w.guard).isEmpty then finish s c else finish (ctlWrite s c w (sysSrc c w w.a)) c

/-! ### Place, capability and time (R281 to R283) -/

/-- The value of PLCQ in a lane. -/
def plcqValue (s : State) (c : Ctx) (f l : Nat) : Nat :=
  match s.blockOf c with
  | none => if f == 2 || f == 5 then c.die s else if f == 7 then c.part else 0
  | some b =>
    let h := warpOfLane c.g.width c.g.index l
    match f with
    | 0 => b.lcore
    | 1 => b.lclu % 2
    | 2 => b.lclu / 2
    | 3 => quadOf c.g.width h
    | 4 => h
    | 5 => b.lclu / 2
    | 6 => c.vd
    | 7 => c.part
    | _ => hwLane c.g.width c.g.index l

/-- PLCQ. -/
def execPlcq (w : SysOp) (s : State) : Out :=
  issuing s (.plcq w) fun c =>
    alu s c w.toCommon false 7 [] fun l => { d := [BitVec.ofNat 32 (plcqValue s c w.mode.toNat l)] }

/-- The capability mask of a core; a poisoned one reads as 0 (R388). -/
def Core.caps (c : Core) : W64 := if c.capmBad then 0#64 else c.capm

/-- CAPQ. -/
def execCapq (w : SysOp) (s : State) : Out :=
  issuing s (.capq w) fun c =>
    if (c.acting w.guard).isEmpty then finish s c
    else
      let m := if w.mode.toNat < 2 then (s.core c.core).caps else c.kern.useMask
      sysResult s c w.d [if w.mode.toNat % 2 == 0 then m.setWidth 32 else (m >>> 32).setWidth 32]

/-- What CLKR reads: core cycles, or module time as the issuing die shows it, never less than before a migration
(R283). -/
def clkrValue (s : State) (c : Ctx) (mode : Nat) : Nat := if mode == 0 then s.cycles else s.timeFor c

/-- CLKR. -/
def execClkr (w : SysOp) (s : State) : Out :=
  issuing s (.clkr w) fun c =>
    if (c.acting w.guard).isEmpty then finish s c else sysResult s c w.d (words 64 (clkrValue s c w.mode.toNat))

end Sys2Proof.Machine
end

