-- ==== Sys2Proof/Machine/Distributor.lean ====
section
/-! DEFINITION. The distributor and the hardware queues: the placement of blocks (R24 to R27, R31 to R34, R262),
the beginning and the completion of queue entries (R287 to R290, R330), the retirement of blocks (R37, R38),
and the watchdogs (R382, R383). -/

namespace Sys2Proof.Machine

/-! ### A block at its entry (R24 to R26, R93) -/

/-- Thread `t` at the kernel's entry. -/
def entryThread (n : Nat) (s0 : W32) (t : Nat) : Thread :=
  if t < n then
    let x := srsInit s0 t
    { Thread.absent with
      present := true, exited := false, v := tblSet 0#32 [] 0 (BitVec.ofNat 32 t), srs := x, srsRst := x }
  else Thread.absent

/-- The first fragment of a width group: the present lanes, at the entry SBEG (R26, R331). -/
def entryFrag (fid width index : Nat) (m : W64) (now : Nat) : Frag where
  fid := fid
  mask := m
  pc := 0
  depth := 0
  carried := none
  fmt := 0#32
  xemp := false
  rst := { pc := 0, sid := 0, fmt := 0#32, xemp := false, mark := none }
  mark := none
  shrink := none
  ovfClear := false
  wait := .none
  stop := none
  trans := 0
  pend := []
  slot := .entry (if width == 16 then index % 2 else 0)
  loaded := fid
  issued := false
  missed := 0
  readyAt := now
  halfTill := now
  half := none
  readySince := none
  committed := false
  counted := false
  expect := some (.strand 4 0)
  rerun := false
  ctxs := []

/-- A width group at its entry. -/
def entryGroup (k : Kernel) (s0 s1 s2 s3 : W32) (fid index now : Nat) : Group :=
  let ts := (List.range k.w).map fun l => entryThread k.n s0 (k.w * index + l)
  let m := lanesMask ((List.range k.w).filter fun l => decide (k.w * index + l < k.n))
  { width := k.w
    index := index
    s := [(0, s0), (1, s1), (2, s2), (3, s3), (4, BitVec.ofNat 32 index)].foldl (fun t x => tblSet 0#32 t x.1 x.2) []
    j := []
    t := []
    tags := []
    ovf := false
    ovfn := false
    lanes := ts
    frags := [entryFrag fid k.w index m now]
    sbuf := []
    tsts := []
    mloads := [] }

/-- The hardware warps of a kernel's blocks (R23). -/
def Kernel.warps (k : Kernel) : Nat := (k.n + 31) / 32
/-- The width groups with a present lane (R26). -/
def Kernel.groups (k : Kernel) : Nat := (k.n + k.w - 1) / k.w

/-- Storage at the placement of a block of a space on a core (R27, R262): kept after a block of the same
virtual device, else zero; every scratchpad line is present. -/
def placeStorage (s : State) (core space : Nat) : State :=
  let c := s.core core
  if c.lastVd == some space then s.setCore core { c with writers := [] }
  else
    let s := s.setCore core { c with scratch := [], scratchBad := [], writers := [], acc := [], accBad := [], lastVd := some space }
    let p := s.pair (core / 2)
    s.setPair (core / 2) { Pair.empty with queue := p.queue, checks := p.checks }

/-- A block of a gang placed on a core and running (R33 to R35). -/
def placeBlock (s : State) (core : Nat) (b : Block) : State :=
  let s := placeStorage s core (256 * b.fe + b.vd)
  let n := b.kern.groups
  let base := s.serial
  let s : State := { s with serial := base + n }
  let w (x : Nat) : W32 := BitVec.ofNat 32 x
  let gs := (List.range n).map fun i =>
    entryGroup b.kern (w b.index) (w b.gang) (w b.rank) (w b.gangSize) (base + i) i s.clock
  let ws : List Warp := List.replicate b.kern.warps ⟨b.kern.g, b.kern.g, false, []⟩
  s.setBlock core { b with st := .running, groups := gs, warps := ws, first := true }

/-! ### Eligible cores (R33, R291) -/

/-- A core covers a kernel. -/
def covers (s : State) (k : Kernel) (core : Nat) : Bool := k.useMask &&& ~~~(s.core core).caps == 0#64

/-- A core is eligible for a kernel in a partition: it lies there, covers the kernel and runs no block. -/
def eligible (s : State) (p : Nat) (k : Kernel) (core : Nat) : Bool :=
  let part := s.part p
  decide (part.base ≤ clusterOf core) && decide (clusterOf core ≤ part.limit) && covers s k core && (s.block? core).isNone

/-- The first aligned run of `size` mapped cores that a test admits: the lowest logical cluster, then the
lowest first core. -/
def findRun (s : State) (p f v size : Nat) (ok : Nat → Bool) : Option (Nat × Nat) :=
  let d := s.vd f v
  let part := s.part p
  (List.range (part.limit - part.base + 1)).findSome? fun i =>
    ((List.range (32 / size)).find? fun j =>
      (upFrom (size * j) size).all fun k =>
        match d.core? i k with
        | some c => ok c
        | none => false).map fun j => (i, size * j)

/-- The size and the place of the next gang of a grid (R33). -/
def nextGang (s : State) (p f v : Nat) (g : Grid) : Option (Nat × Nat × Nat) :=
  let k := g.kern
  let gp := 2 ^ k.gp
  let gf := 2 ^ k.gf
  let left := g.blocks - g.formed
  let place (n : Nat) : Option (Nat × Nat × Nat) := (findRun s p f v n (eligible s p k)).map fun x => (n, x.1, x.2)
  (if gp ≤ left then place gp else none).or (if gf ≤ left then place gf else none)

/-! ### Queue entries -/

/-- The entries of a queue with a tag changed. -/
def Queue.mapEntry (q : Queue) (tag : Nat) (k : Entry → Entry) : Queue :=
  { q with entries := q.entries.map fun e => if e.tag == tag then k e else e }

/-- CTAG after completions: completed entries at the front leave the queue (R287). -/
def settleEntries : List Entry → Nat → List Entry × Nat
  | [], c => ([], c)
  | e :: es, c => if e.completed then settleEntries es e.tag else (e :: es, c)

/-- A queue with its completed front entries gone. -/
def Queue.settle (q : Queue) : Queue :=
  let (es, c) := settleEntries q.entries q.ctag
  { q with entries := es, ctag := c }

/-- An entry completes: DONE, and CTAG passes it with every earlier one (R287, R310). -/
def State.completeEntry (s : State) (f q : Nat) (e : Entry) (status : Nat) : State :=
  let s := s.done f e.hdr e.tag status
  s.setQueue f q ((s.queue f q).mapEntry e.tag fun e => { e with completed := true, status := status }).settle

/-- OVL of a LAUNCH (R306). -/
def hdrOvl (h : BitVec 512) : Bool := h.getLsbD 17

/-- A LAUNCH entry. -/
def Entry.isLaunch (e : Entry) : Bool := hdrKind e.hdr == 1
/-- A LAUNCH that has begun and has not completed. -/
def Entry.runs (e : Entry) : Bool := e.isLaunch && e.begun && !e.completed
/-- A grid with blocks that are not in a gang (R290). -/
def Entry.candidate (e : Entry) : Bool :=
  e.runs && !e.poisoned &&
    (match e.grid with
     | some g => decide (g.formed < g.blocks)
     | none => false)

/-- An entry of a queue at a position has completed: one that STATUS 2 rejected does when every earlier one has (R308). -/
def Queue.doneAt (q : Queue) (i : Nat) (e : Entry) : Bool :=
  e.completed && (e.status != 2 || e.grid.isSome || !e.isLaunch || (q.entries.take i).all fun x => x.completed)

/-- The predecessor of the entry at a position lets it begin (R289). -/
def Queue.mayFollow (q : Queue) (i : Nat) : Bool :=
  match q.entries.take i |>.getLast? with
  | none => true
  | some e => q.doneAt (i - 1) e || (e.isLaunch && hdrOvl e.hdr && e.begun &&
      (match e.grid with
       | some g => g.formed == g.blocks
       | none => false))

/-- The oldest entry that has not begun, when its queue and its predecessor let it begin. -/
def Queue.next? (q : Queue) : Option Entry :=
  let i := q.entries.findIdx fun e => !e.begun
  match q.entries[i]? with
  | some e => if q.en && q.mayFollow i && !e.poisoned then some e else none
  | none => none

/-- The condition of a WAITTAG (R288). -/
def tagReached (s : State) (f : Nat) (h : BitVec 512) : Bool :=
  decide (((s.queue f (hdrField h 256 6)).ctag + 2 ^ 32 - hdrField h 288 32) % 2 ^ 32 < 2 ^ 31)

/-! ### The check of a grid (R330) -/

/-- Some cluster offers Gf aligned mapped cores that a test admits. -/
def offers (s : State) (p f v : Nat) (k : Kernel) (ok : Nat → Bool) : Bool := (findRun s p f v (2 ^ k.gf) ok).isSome

/-- The check of one entry: NOPLACE at its first failing check, or one that follows a check it passed. -/
def checkEntry (s : State) (f q v p : Nat) (e : Entry) : State :=
  match e.grid with
  | none => s
  | some g =>
    let fails := !offers s p f v g.kern (covers s g.kern)
    let s' := s.setQueue f q ((s.queue f q).mapEntry e.tag fun e => { e with grid := some { g with failed := fails } })
    if fails && !g.failed then
      s'.post p .ifArmed { cause := .noplace, detail := if offers s p f v g.kern (fun _ => true) then 0 else 1
                           vd := v, part := p, qtag := e.tag, queue := q }
    else s'

/-- The candidate grids of a front end checked (R330). -/
def checkGrids (s : State) (f : Nat) : State :=
  (s.fe f).queues.foldl (fun (s : State) x =>
    (x.2.entries.filter Entry.candidate).foldl (fun (s : State) e =>
      checkEntry s f x.1 (hdrVd e.hdr) (s.vd f (hdrVd e.hdr)).part.toNat e) s) s

/-! ### WAITSIG (R288) -/

/-- A begun WAITSIG tested: its word is translated once; an address without a translation raises a page
request. -/
def testSignal (s : State) (f q : Nat) (e : Entry) : State :=
  let v := hdrVd e.hdr
  let va := BitVec.ofNat 64 (hdrField e.hdr 256 64)
  let put (s : State) (k : Entry → Entry) : State := s.setQueue f q ((s.queue f q).mapEntry e.tag k)
  match e.watch, e.page with
  | some (pa, _, _), _ => if e.met || waitsigMet e.hdr (s.mscWord pa) then s.completeEntry f q e 0 else s
  | none, some _ => s
  | none, none =>
    match s.xlatNow f (256 * f + v) va .read false with
    | (.fail l d b z, s) =>
      let (id, s) := s.pageRequest f v l d b z va .read .quay
      put s fun e => { e with page := some id }
    | (.miss _, s) => s
    | (.busy, s) => s
    | (.hit t, s) =>
      let pa := t.phys va.toNat
      let s := s.touch (s.vd f v).part.toNat pa
      if s.homeLost f pa then s
      else if waitsigMet e.hdr (s.mscWord pa) then s.completeEntry f q e 0
      else put s fun e => { e with watch := some (pa, t.base, t.size) }

/-- The entry that ENTRY_BEGIN is about begins (R288, R289). -/
def beginNext (s : State) (f q : Nat) (e : Entry) : State :=
  let x := s.queue f q
  let mark (s : State) : State := s.setQueue f q ((s.queue f q).mapEntry e.tag fun e => { e with begun := true })
  match hdrKind e.hdr with
  | 1 =>
    let p := (s.vd f x.vd).part.toNat
    if (s.part p).resident == some x.vd && !(s.part p).switching then
      checkGrids (s.setQueue f q { (s.queue f q).mapEntry e.tag fun e => { e with begun := true } with count := 0 }) f
    else s
  | 2 => if tagReached s f e.hdr then (mark s).completeEntry f q { e with begun := true } 0 else s
  | _ => testSignal (mark s) f q { e with begun := true }

/-- ENTRY_BEGIN (R288, R289): a begun WAITSIG of the queue is tested, or its oldest entry begins. -/
def execEntryBegin (fe q : Nat) (s : State) : Out :=
  let x := s.queue fe q
  match x.entries.find? fun e => e.begun && !e.completed && hdrKind e.hdr == 3 with
  | some e => .next (testSignal s fe q e)
  | none =>
    match x.next? with
    | some e => .next (beginNext s fe q e)
    | none => .next s

/-! ### Gangs (R32, R33, R290) -/

/-- The key of a partition and a priority in `Fe.last`. -/
def lastKey (p pri : Nat) : Nat := 4 * (p % 2) + pri

/-- The queues of a priority in the order in which they are offered to a partition (R290). -/
def queueOrder (s : State) (p pri : Nat) : List Nat :=
  let last := tblGet 63 (s.fe (p / 2)).last (lastKey p pri)
  ((List.range 64).map fun i => (last + 1 + i) % 64).filter fun q => (s.queue (p / 2) q).pri.toNat == pri

/-- The candidates of a device of a partition in the order in which they are offered. -/
def candidates (s : State) (p v : Nat) : List (Nat × Nat × Entry) :=
  [3, 2, 1, 0].flatMap fun pri =>
    (queueOrder s p pri).flatMap fun q =>
      ((s.queue (p / 2) q).entries.filter fun e => e.candidate && hdrVd e.hdr == v).map fun e => (pri, q, e)

/-- The next gang of a grid placed: its blocks, in order, on consecutive logical cores (R32). -/
def formGang (s : State) (p f v pri q : Nat) (e : Entry) (g : Grid) (size i c0 : Nat) : State :=
  let d := s.vd f v
  let s := (List.range size).foldl (fun (s : State) r =>
    match d.core? i (c0 + r) with
    | none => s
    | some core =>
      placeBlock s core
        { fe := f, vd := v, part := p, queue := q, tag := e.tag, index := g.formed + r, gang := g.gangs, rank := r
          gangSize := size, lclu := i, lcore := c0 + r, kern := g.kern, st := .placed, groups := [], warps := []
          bars := [], gates := [], taking := none, first := true, kept := [], keptBytes := 0, withdrawn := [], gtFloor := 0 }) s
  let s := match d.cluster? i with
    | some cl => s.acquireSlice cl
    | none => s
  let s := s.setQueue f q ((s.queue f q).mapEntry e.tag fun e =>
    { e with grid := some { g with formed := g.formed + size, gangs := g.gangs + 1 } })
  s.setFe f { s.fe f with last := tblInsert (s.fe f).last (lastKey p pri) q }

/-- GANG_FORM (R33, R290, R302): the first candidate of the resident device that can form a gang does; saved
gangs come first. -/
def execGangForm (part : Nat) (s : State) : Out :=
  let p := s.part part
  let f := part / 2
  match p.resident with
  | none => .next s
  | some v =>
    if !p.en || p.switching || (s.vd f v).resetting.isSome || (p.saved.any fun g => g.vd == v && g.fe == f) then .next s
    else
      match (candidates s part v).findSome? fun x =>
          x.2.2.grid.bind fun g => (nextGang s part f v g).map fun y => (x, g, y) with
      | none => .next s
      | some ((pri, q, e), g, size, i, c0) => .next (formGang s part f v pri q e g size i c0)

/-! ### Watchdogs (R382, R383) -/

/-- The watchdog of a queue counts: its device is resident, and a LAUNCH runs. -/
def watchdogRuns (s : State) (f : Nat) (x : Queue) : Bool :=
  x.wdt != 0#16 && !x.wdx && x.entries.any Entry.runs &&
    (s.part (s.vd f x.vd).part.toNat).resident == some x.vd && (s.vd f x.vd).en

/-- The timers of every queue after some ticks. -/
def tickQueues (s : State) (dt : Nat) : State :=
  let tick (f : Nat) (x : Queue) : Queue := if watchdogRuns s f x then { x with count := x.count + dt } else x
  { s with fes := s.fes.map fun y => (y.1, { y.2 with queues := y.2.queues.map fun z => (z.1, tick y.1 z.2) }) }

/-- The watchdog of a queue expires when its timer has reached WDT (R382, R383, R396), whether its device is resident or not. -/
def State.expire (s : State) (f q : Nat) : State :=
  let x := s.queue f q
  if x.wdt != 0#16 && !x.wdx && x.entries.any Entry.runs && decide (112000000 * x.wdt.toNat ≤ x.count) then
    let p := (s.vd f x.vd).part.toNat
    let tag := ((x.entries.find? Entry.runs).map (·.tag)).getD 0
    (s.setQueue f q { x with wdx := true }).post p .ifArmed { cause := .wdog, vd := x.vd, part := p, queue := q, qtag := tag }
  else s

/-- Every watchdog that has reached its WDT expires. -/
def expireAll (s : State) : State :=
  s.fes.foldl (fun (s : State) f => (f.2.queues.filter fun q => q.2.wdt != 0#16).foldl (fun (s : State) q => s.expire f.1 q.1) s) s

/-- WDOG (R383). -/
def execWdog (fe q : Nat) (s : State) : Out := .next (s.expire fe q)

/-! ### Retirement (R37, R38) -/

/-- Engine entries that a block's threads issued are in a queue. -/
def blockEntries (s : State) (core : Nat) (b : Block) : Bool :=
  s.engineEntries.any fun e => e.core == core && e.fe == b.fe && e.vd == b.vd && e.block == b.index && e.gang == b.gang

/-- Nothing that a block committed is on its way, no load of it is (R59), and no lane of it is away (R37) or leaving (R344). -/
def drained (s : State) (core : Nat) (b : Block) : Bool :=
  !(s.ejected.any fun e => e.core == core) && (b.warps.all fun w => w.fifo.isEmpty) &&
    (b.groups.all fun g => g.tsts.isEmpty && (g.tags.all fun t => t.2.st != .pending) && !g.frags.any Frag.leaving) &&
    !blockEntries s core b

/-- The entry of a grid after one of its blocks has retired: the queue's timer starts again, but an expiry of this moment
stands (R394). With the last block the grid completes, and dirty lines of the partition's slices are written back (R38, R137). A
block that a reset ended finds the entry of its grid gone (R379). -/
def gridRetired (s : State) (b : Block) : State :=
  let s := s.expire b.fe b.queue
  let x := s.queue b.fe b.queue
  match x.entries.find? fun e => e.tag == b.tag && hdrVd e.hdr == b.vd with
  | none => s
  | some e =>
    match e.grid with
    | none => s
    | some g =>
      let g := { g with retired := g.retired + 1 }
      let s := s.setQueue b.fe b.queue { x.mapEntry b.tag fun e => { e with grid := some g } with count := 0 }
      if g.retired == g.blocks then
        let part := s.part b.part
        let s := (upFrom part.base (part.limit - part.base + 1)).foldl (fun (s : State) cl => s.writeBackAll cl) s
        s.completeEntry b.fe b.queue e 0
      else s

/-- BLOCK_RETIRE (R35, R37): every effect of a retiring block has drained, no entry of it is still to be accepted again (R245),
and its core is released. -/
def execBlockRetire (core : Nat) (s : State) : Out :=
  match s.block? core with
  | none => .next s
  | some b =>
    if b.st == .retiring && drained s core b && b.groups.all (fun g => g.sbuf.isEmpty) && b.withdrawn.isEmpty then
      .next (gridRetired (s.setCore core { s.core core with block := none, lastVd := some (256 * b.fe + b.vd) }) b)
    else .next s

end Sys2Proof.Machine
end

