-- ==== Sys2Proof/Machine/Sharing.lean ====
section
/-! DEFINITION. The sharing of a partition in time (R295 to R302): allowances and slices, the take of blocks at a
barrier or by force, the save of a context, and the resumption of gangs. -/

namespace Sys2Proof.Machine

/-- Ticks in a unit of TAPER and TASLICE, 10 µs (R285). -/
def shareTicks : Nat := 1120000
/-- The allowance period in ticks. -/
def Part.span (p : Part) : Nat := shareTicks * max 1 p.taperNow.toNat
/-- The longest slice in ticks. -/
def Part.sliceSpan (p : Part) : Nat := shareTicks * max 1 p.tasliceNow.toNat

/-! ### Runnable devices and allowances (R295, R296) -/

/-- The blocks of a virtual device on cores. -/
def State.blocksOf (s : State) (f v : Nat) : List (Nat × Block) :=
  s.cores.filterMap fun x => x.2.block.bind fun b => if b.fe == f && b.vd == v then some (x.1, b) else none

/-- A virtual device is runnable: it has a block, or a LAUNCH that can begin or goes on (R295). -/
def runnable (s : State) (f v : Nat) : Bool :=
  let d := s.vd f v
  d.en && d.resetting.isNone &&
    (!(s.blocksOf f v).isEmpty || ((s.part d.part.toNat).saved.any fun g => g.fe == f && g.vd == v) ||
      ((s.entriesOf f v).any fun x => x.2.candidate) ||
      (s.queuesOf f v).any fun q =>
        match (s.queue f q).next? with
        | some e => e.isLaunch
        | none => false)

/-- The runnable devices of a partition. -/
def State.runnables (s : State) (p : Nat) : List Nat := (s.vdsOf p).filter (runnable s (p / 2))

/-- w' of R296. -/
def Vd.boosted (d : Vd) : Nat := (if d.wasIdle then 2 else 1) * max 1 d.weight.toNat

/-- The longest time of a device in a period, where CAP sets one. -/
def Vd.capSpan (d : Vd) (p : Part) : Option Nat := if d.cap == 0#8 then none else some (p.span * d.cap.toNat / 256)

/-- The allowance of a device out of some time, by its share of the sum of weights. -/
def Vd.allowance (d : Vd) (p : Part) (time sum : Nat) : Nat :=
  let a := time * d.boosted / sum
  match d.capSpan p with
  | some c => min a (c - d.charged)
  | none => a

/-- The sum of the weights of some devices. -/
def weightSum (s : State) (f : Nat) (vs : List Nat) : Nat := vs.foldl (fun n v => n + (s.vd f v).boosted) 0

/-- Devices that have become runnable since they were last looked at get an allowance out of the time left. -/
def refresh (s : State) (p : Nat) : State :=
  let f := p / 2
  let part := s.part p
  let now := s.runnables p
  let sum := weightSum s f now
  let left := part.period + part.span - s.clock
  (s.vdsOf p).foldl (fun (s : State) v =>
    let d := s.vd f v
    let r := now.contains v
    let d := if r && !d.ran then { d with idle := false, allow := d.allowance part left sum } else d
    s.setVd f v { d with ran := r }) s

/-- Every enabled partition looked at. -/
def refreshAll (s : State) : State := s.parts.foldl (fun (s : State) x => if x.2.en then refresh s x.1 else s) s

/-! ### Slices (R297) -/

/-- A device has used up its cap. -/
def capUsed (d : Vd) (p : Part) (dt : Nat) : Bool :=
  match d.capSpan p with
  | some c => decide (c ≤ d.charged + dt)
  | none => false

/-- The better of two devices by their remaining allowance; the earlier one among equals. -/
def pickAllow (s : State) (f : Nat) : List Nat → Option Nat
  | [] => none
  | v :: vs =>
    match pickAllow s f vs with
    | some u => if (s.vd f v).allow < (s.vd f u).allow then some u else some v
    | none => some v

/-- The device with the least charged time per unit of weight; the earlier one among equals. -/
def pickCharged (s : State) (f : Nat) : List Nat → Option Nat
  | [] => none
  | v :: vs =>
    match pickCharged s f vs with
    | some u =>
      let a := s.vd f v
      let b := s.vd f u
      if b.charged * max 1 a.weight.toNat < a.charged * max 1 b.weight.toNat then some u else some v
    | none => some v

/-- The device that selection picks (R297). -/
def selectVd (s : State) (p : Nat) : Option Nat :=
  let f := p / 2
  let vs := s.runnables p
  match pickAllow s f (vs.filter fun v => decide (0 < (s.vd f v).allow)) with
  | some v => some v
  | none => pickCharged s f (vs.filter fun v => !capUsed (s.vd f v) (s.part p) 0)

/-- The resident device charged for the slice so far, of which the next one goes on from now where it has issued (R296). -/
def chargeSlice (s : State) (p : Nat) : State :=
  let part := s.part p
  match part.resident, part.slice with
  | some v, some t =>
    let d := s.vd (p / 2) v
    let dt := s.clock - t
    (s.setVd (p / 2) v { d with charged := d.charged + dt, allow := d.allow - dt }).setPart p { part with slice := some s.clock }
  | _, _ => s

/-- The blocks of a device told that they are to be taken (R298). -/
def requestTake (s : State) (f v : Nat) : State :=
  let put (b : Block) : Block := if b.fe == f && b.vd == v && b.st == .running then { b with taking := some s.clock } else b
  { s with cores := s.cores.map fun x => (x.1, { x.2 with block := x.2.block.map put }) }

/-- Selection at the end of a slice (R297, R298): the same device goes on; another one follows, at once after a
device without blocks, else once the blocks of the resident one are taken. -/
def selectNext (s : State) (p : Nat) : State :=
  let part := s.part p
  let next := selectVd s p
  if part.switching then s.setPart p { part with successor := next }
  else
    match part.resident with
    | none => s.setPart p { part with resident := next, slice := none }
    | some v =>
      if next == some v then s
      else if (s.blocksOf (p / 2) v).isEmpty then s.setPart p { part with resident := next, slice := none }
      else (requestTake s (p / 2) v).setPart p { part with switching := true, successor := next, slice := none }

/-- A slice is over (R297). -/
def sliceOver (s : State) (p : Nat) : Bool :=
  let part := s.part p
  match part.resident with
  | none => true
  | some v =>
    let d := s.vd (p / 2) v
    !runnable s (p / 2) v ||
      (match part.slice with
       | none => false
       | some t =>
         let dt := s.clock - t
         decide (part.sliceSpan ≤ dt) || (decide (0 < d.allow) && decide (d.allow ≤ dt)) || capUsed d part dt)

/-- SLICE_END (R295 to R298). -/
def execSliceEnd (part : Nat) (s : State) : Out :=
  let s := refresh s part
  if (s.part part).en && !(s.part part).switching && sliceOver s part then .next (selectNext (chargeSlice s part) part)
  else .next s

/-- The devices whose periods are those of a partition (R296): the ones whose PART names it, enabled or not, among them. -/
def State.timedVds (s : State) (p : Nat) : List Nat :=
  (List.range 256).filter fun v => (s.vd (p / 2) v).part.toNat == p || (s.vdsOf p).contains v

/-- The first period of a partition begins (R296). DESIGN CHOICE: every device counts as idle throughout the period before (log entry
74). -/
def firstPeriod (s : State) (p : Nat) : State :=
  (s.timedVds p).foldl (fun (s : State) v =>
    s.setVd (p / 2) v { s.vd (p / 2) v with charged := 0, allow := 0, idle := true, wasIdle := true, ran := false }) s

/-- The allowances of a new period (R296). -/
def newPeriod (s : State) (p : Nat) : State :=
  let f := p / 2
  let part := s.part p
  let part := { part with period := part.period + part.span, taperNow := part.taper, tasliceNow := part.taslice }
  let s := s.setPart p part
  let now := s.runnables p
  let s := (s.timedVds p).foldl (fun (s : State) v =>
    let d := s.vd f v
    s.setVd f v { d with charged := 0, allow := 0, wasIdle := d.idle, idle := !now.contains v, ran := now.contains v }) s
  let sum := weightSum s f now
  now.foldl (fun (s : State) v => s.setVd f v { s.vd f v with allow := (s.vd f v).allowance part part.span sum }) s

/-- PERIOD_BOUNDARY (R285, R296, R297): the slice ends, allowances lapse and are set afresh, and selection is
made again. A device that becomes runnable at the boundary itself has been idle throughout the period before. -/
def execPeriodBoundary (part : Nat) (s : State) : Out :=
  let p := s.part part
  if p.en && decide (p.period + p.span ≤ s.clock) then
    .next (selectNext (newPeriod (chargeSlice s part) part) part)
  else .next s

/-! ### The take of a block (R298 to R300) -/

/-- The register file of a lane without what a test does not keep: the manual gives it no value. -/
def Thread.scrub (t : Thread) (free : Nat → W32) (v p : Nat → Bool) : Thread :=
  let m : BitVec 7 := ((List.range 7).filter p).foldl (fun m i => m ||| (1#7 <<< i)) 0#7
  { t with
    v := ((List.range 256).filter fun i => !v i).foldl (fun a i => tblSet 0#32 a i (free i)) t.v
    p := (t.p &&& m) ||| ((free 256).setWidth 7 &&& ~~~m)
    bad := t.bad.filter v
    n := [] }

/-- The data of a tag that is not saved. -/
def Tag.scrub (t : Tag) (free : Nat → Byte) : Tag :=
  if t.st == .pending then t
  else { t with data := t.data.map fun x => (x.1, (List.range x.2.length).map fun i => free (256 * x.1 + i)) }

/-- What is saved for the lanes of a fragment that waits at a barrier: its barrier-table entry with the
survivors of its strand (R299). -/
def savedEntry (s : State) (b : Block) (c : Ctx) : BitVec 512 :=
  let e := (c.f.barLabel.bind fun l => barEntry s b l).getD 0
  BitVec.ofNat 512 e ||| s.restartEntry c

/-- What the entries of a group's fragments list together. -/
def listedAll (es : List (W64 × BitVec 512)) : BitVec 512 := es.foldl (fun a e => a ||| e.2) 0#512
/-- What they list for a lane. -/
def listedFor (es : List (W64 × BitVec 512)) (l : Nat) : BitVec 512 :=
  es.foldl (fun a e => if e.1.getLsbD l then a ||| e.2 else a) 0#512

/-- Positions of a list of tests that hold. -/
def countIf (n : Nat) (p : Nat → Bool) : Nat := ((List.range n).filter p).length

/-- The bytes of V, P, S and J registers, manifests and tag data that a take saves of a group, by what is kept of each lane
and of the group (R299, R301). -/
def Group.keptBytes (g : Group) (granted : Nat → Nat) (lane : Nat → BitVec 512) (all : BitVec 512) : Nat :=
  let lanes := (List.range g.lanes.length).filter fun l => (g.lane l).present && !(g.lane l).away
  let tag (i : Nat) : Nat := (g.tag i).data.foldl (fun n x => n + x.2.length) 0
  lanes.foldl (fun n l => n + 4 * countIf (granted l) (survV (lane l)) + (countIf 7 (survP (lane l)) + 7) / 8) 0 +
    4 * countIf 64 (survS all) + 128 * countIf 8 (fun i => all.getLsbD (336 + i)) +
    ((List.range 16).filter (survL all)).foldl (fun n i => n + tag i) 0 + 8 * (if g.width == 64 then 2 else 1) * 8

/-- The granted count of the warp of a lane. -/
def Block.grantedAt (b : Block) (g : Group) (l : Nat) : Nat := (b.warp (warpOfLane g.width g.index l)).g

/-- A group whose block is taken at a barrier (R299): of V, P, S, manifests and the data of tags, what is
listed is kept. -/
def Group.scrub (g : Group) (ctr : Nat) (es : List (W64 × BitVec 512)) : Group :=
  let free (i : Nat) : W32 := (Config.freeWord ctr (2 ^ 20 * g.index + i)).setWidth 32
  let all := listedAll es
  let of := listedFor es
  let lane (l : Nat) : Thread :=
    let t := g.lane l
    if t.present && !t.away then t.scrub (fun i => free (2 ^ 13 * l + i)) (survV (of l)) (survP (of l)) else t
  { g with
    lanes := (List.range g.lanes.length).map lane
    s := ((List.range 64).filter fun i => !survS all i).foldl (fun t i => tblSet 0#32 t i (free (2 ^ 19 + i))) g.s
    t := ((List.range 8).filter fun i => !all.getLsbD (336 + i)).foldl (fun t i =>
      tblSet [] t i ((List.range 32).foldl (fun m w => putWord m w (free (2 ^ 19 + 64 + 32 * i + w))) [])) g.t
    tags := (List.range 16).foldl (fun ts i =>
      if survL all i then ts
      else tblSet Tag.empty ts i ((g.tag i).scrub fun k => Config.freeByte ctr (2 ^ 20 * g.index + 2 ^ 15 * i + k))) g.tags }

/-- A time of the module turned into the time since, and back (R299, R341). -/
def RejReg.turn (r : RejReg) (now : Nat) : RejReg := { r with arrival := r.arrival.map fun x => (now - x.1, x.2) }

/-- The groups of a block that is suspended: aborted, but for a side whose hand-over is in progress (R344), without near
files, waits at rejoin registers counted as time elapsed (R58, R80, R299, R300). -/
def Group.suspend (g : Group) (now : Nat) : Group :=
  let g := g.abortAll
  { g with lanes := g.lanes.map fun t => { t with n := [] }
           j := g.j.map fun (x : Nat × RejReg) => (x.1, x.2.turn now) }

/-- The ranges of a barrier-table entry (R315). -/
def entryRanges (e : Nat) : List (Nat × Nat) :=
  ((List.range 16).map fun i => (bitField e (512 + 64 * i) 32, bitField e (544 + 64 * i) 32)).filter fun r => r.2 != 0

/-- The fragments of a block with their contexts, those on tenders last. -/
def State.fragsOf (s : State) (core : Nat) (b : Block) : List Ctx := (s.agentsOf core b).filterMap s.ctx?

/-- Every thread of a block that has not exited waits at a barrier with a barrier-table entry (R298). -/
def atBarrier (s : State) (core : Nat) (b : Block) : Bool :=
  let cs := s.fragsOf core b
  !cs.isEmpty && cs.all fun c => c.f.stop.isNone && waitsListed s b c.f

/-- BLOCK_TAKE (R298, R299): every thread waits at a listed barrier, and the block is suspended. -/
def execBlockTake (core : Nat) (s : State) : Out :=
  match s.block? core with
  | none => .next s
  | some b =>
    if b.taking.isSome && b.st == .running && atBarrier s core b then
      let cs := s.fragsOf core b
      let es (g : Group) : List (W64 × BitVec 512) :=
        (cs.filter fun c => c.level == .core && c.g.index == g.index).map fun c => (c.f.mask, savedEntry s b c)
      let ranges := cs.flatMap fun c => entryRanges ((c.f.barLabel.bind fun l => barEntry s b l).getD 0)
      let gs := b.groups.map fun g => (g.scrub s.freeCtr (es g)).suspend s.clock
      let bytes := b.groups.foldl (fun n g => n + g.keptBytes (b.grantedAt g) (listedFor (es g)) (listedAll (es g))) 0
      .next (s.drawn.setBlock core { b with st := .suspended, groups := gs, kept := ranges, keptBytes := bytes })
    else .next s

/-- FORCED_TAKE (R300): 200 µs after the request every fragment aborts, and the block is suspended. -/
def execForcedTake (core : Nat) (s : State) : Out :=
  match s.block? core with
  | none => .next s
  | some b =>
    match b.taking with
    | some t =>
      if b.st == .running && decide (t + 22400000 ≤ s.clock) then
        let bytes := b.groups.foldl (fun n g => n + g.keptBytes (b.grantedAt g) (fun _ => ~~~0#512) (~~~0#512)) 0
        .next (s.setBlock core { b with st := .suspended, groups := b.groups.map fun g => g.suspend s.clock
                                        kept := [(0, b.kern.scratch)], keptBytes := bytes })
      else .next s
    | none => .next s

/-! ### Withdrawn engine entries (R245) -/

/-- An entry of a suspended block that is held at the head of its queue: by an open guard, or by an unmet trigger whose word
waits on no page request (R375). DEDUCED: so is a fence that names an entry that has been withdrawn, or the suspension could
not end. -/
def heldEntry (s : State) (b : Block) (e : QEntry) : Bool :=
  (match e.gate with
   | some g => !e.passed && tblGet .unset b.gates g == .unset
   | none => false) ||
  (match e.op, e.run with
   | .coll _ _ _ _ _ (some _) _, some r => !r.triggered && !r.aborted && e.page.isNone
   | .qfnc names, _ => names.any fun x => x.2.any fun n => s.entryLeft n && !(s.engineEntries.any fun y => y.id == n)
   | _, _ => false)

/-- An entry as it is accepted again: a COLL keeps the index that it has taken (R264). -/
def QEntry.again (e : QEntry) : QEntry := { e with run := e.run.map fun r => { r with watch := none } }

/-- An entry belongs to the block of a core. -/
def QEntry.ofBlock (e : QEntry) (core : Nat) (b : Block) : Bool :=
  e.core == core && e.fe == b.fe && e.vd == b.vd && e.block == b.index && e.gang == b.gang

/-- The head of a queue withdrawn, with the later entries of its block, when it is held. -/
def withdraw (s : State) (q : QueueId) : State :=
  match s.engineQueue q with
  | [] => s
  | e :: es =>
    match s.block? e.core with
    | none => s
    | some b =>
      if b.st == .suspended && e.ofBlock e.core b && heldEntry s b e then
        let mine := (e :: es).filter fun x => x.ofBlock e.core b
        let s := s.setBlock e.core { b with withdrawn := b.withdrawn ++ mine.map fun x => (q, x.again) }
        (s.setEngineQueue q ((e :: es).filter fun x => !x.ofBlock e.core b)).dropPages e
      else s

/-! ### The save of a context (R301) -/

/-- Two blocks of one gang. -/
def Block.sameGang (a b : Block) : Bool := a.queue == b.queue && a.tag == b.tag && a.gang == b.gang

/-- Blocks put together by gang. -/
def byGang (bs : List (Nat × Block)) : List (List (Nat × Block)) :=
  bs.foldl (fun acc x =>
    if acc.any fun g => g.any fun y => y.2.sameGang x.2 then
      acc.map fun g => if g.any fun y => y.2.sameGang x.2 then g ++ [x] else g
    else acc ++ [[x]]) []

/-- The ranges of a scratchpad that a block saves: its own, and its context areas (R62, R299). -/
def Block.ranges (b : Block) : List (Nat × Nat) :=
  b.kept ++ (List.range b.warps.length).map fun h => (scratchBytes - 512 * (h + 1), 512)

/-- A kernel's use mask holds a class of the matrix engine, whose accumulators are saved (R299). -/
def Kernel.usesAcc (k : Kernel) : Bool := [38, 40, 41, 42, 43, 44, 45].any fun i => k.useMask.getLsbD i

/-- A gang taken off its cores. -/
def saveGang (s : State) (bs : List (Nat × Block)) : SavedGang where
  fe := ((bs.head?).map fun x => x.2.fe).getD 0
  vd := ((bs.head?).map fun x => x.2.vd).getD 0
  gang := ((bs.head?).map fun x => x.2.gang).getD 0
  queue := ((bs.head?).map fun x => x.2.queue).getD 0
  tag := ((bs.head?).map fun x => x.2.tag).getD 0
  blocks := bs.map fun x => { x.2 with gtFloor := s.timeNs }
  scratch := bs.map fun x => x.2.ranges.map fun r => (r.1, (s.core x.1).scratchRead r.1 r.2)
  acc := bs.map fun x => if x.2.kern.usesAcc then (s.core x.1).acc else []
  bad := bs.map fun x =>
    ((s.core x.1).scratchBad.filter fun g => x.2.ranges.any fun r => decide (r.1 / 8 ≤ g) && decide (8 * g < r.1 + r.2),
      if x.2.kern.usesAcc then (s.core x.1).accBad else [])
  pairs := (bs.filter fun x => x.1 % 2 == 0).map fun x => { s.pair (x.1 / 2) with queue := [], checks := [] }
  cluster := ((bs.head?).map fun x => clusterOf x.1).getD 0
  area := none

/-- The cores of a partition's blocks halted, its slices written back (R128, R301). -/
def haltCores (s : State) (p : Nat) (cores : List Nat) (space : Nat) : State :=
  let part := s.part p
  let s := cores.foldl (fun (s : State) k => s.setCore k { s.core k with block := none, lastVd := some space }) s
  (upFrom part.base (part.limit - part.base + 1)).foldl (fun (s : State) cl => s.writeBackAll cl) s

/-- The bytes that a save takes from a cluster (R299): registers, manifests and tag data, scratchpads, accumulators. -/
def contextKnown (bs : List (Nat × Block)) (cl : Nat) : Nat :=
  (bs.filter fun x => clusterOf x.1 == cl).foldl (fun n x =>
    x.2.ranges.foldl (fun n r => n + r.2) (n + x.2.keptBytes) + (if x.2.kern.usesAcc then 131072 else 0)) 0

/-- The saved state of every cluster fits its shadow reserve (R301). The bytes of the rest of the fixed set, to which the
manual gives no layout, are free. -/
def contextFits (s : State) (bs : List (Nat × Block)) : Bool :=
  ((bs.map fun x => clusterOf x.1).eraseDups).all fun cl =>
    decide (contextKnown bs cl + Config.contextBytes s.freeCtr cl ≤ 0x800000)

/-- The bytes of a save area that serve one cluster: 36 MiB (R292). -/
def clusterArea : Nat := 0x2400000

/-- The part of a device's save area that serves a cluster of its partition begins here (R292). -/
def areaBase (s : State) (p v cl : Nat) : Nat := (s.vd (p / 2) v).save.toNat + clusterArea * (cl - (s.part p).base)

/-- The context of a device in a cluster written to its save area (R301, R389); the gangs saved of it are there, and a shadow
reserve that held it is released. -/
def toArea (s : State) (p v cl : Nat) : State :=
  let base := areaBase s p v cl
  let s := s.saveBytes base clusterArea
  let part := s.part p
  let put (g : SavedGang) : SavedGang :=
    if g.vd == v && g.cluster == cl then { g with area := s.areas.find? fun a => a.base == base } else g
  s.setPart p { part with
    saved := part.saved.map put
    reserve := if tblFind part.reserve cl == some v then tblErase part.reserve cl else part.reserve }

/-- A context of a device goes to the shadow reserve of a cluster (R301): the one that it holds goes to its own device's save
area first. -/
def toReserve (s : State) (p v cl : Nat) : State :=
  let s := match tblFind (s.part p).reserve cl with
    | some u => if u == v then s else toArea s p u cl
    | none => s
  s.setPart p { s.part p with reserve := tblInsert (s.part p).reserve cl v }

/-- Where the gangs of a context are saved (R301, R389): in the shadow reserves of their clusters, when the state of each
cluster fits; or every cluster of the partition writes to the device's save area. -/
def saveContext (s : State) (p v : Nat) (bs : List (Nat × Block)) (gs : List SavedGang) : State :=
  let fits := contextFits s bs
  let part := s.part p
  let s := { s.setPart p { part with saved := part.saved ++ gs } with freeCtr := s.freeCtr + 1 }
  if fits then ((bs.map fun x => clusterOf x.1).eraseDups).foldl (fun (s : State) cl => toReserve s p v cl) s
  else (upFrom part.base (part.limit - part.base + 1)).foldl (fun (s : State) cl => toArea s p v cl) s

/-- CONTEXT_SAVE (R80, R245, R299 to R302): ejected lanes that have drained are recalled and held entries
withdrawn; when nothing of the resident device is left on the cores but suspended, drained blocks, they are saved
and the selected device is resident. -/
def execContextSave (part : Nat) (s : State) : Out :=
  let p := s.part part
  match p.switching, p.resident with
  | true, some v =>
    let f := part / 2
    let gone := s.ejected.filter fun e => e.fifo.isEmpty && (e.grp.tags.all fun t => t.2.st != .pending || t.2.fresh) &&
      (match s.block? e.core with
       | some b => b.fe == f && b.vd == v && b.st == .suspended
       | none => false)
    let s := gone.foldl (fun (s : State) e => recallLane s e) s
    let qs := s.busyQueues
    let s := (qs ++ qs).foldl (fun (s : State) q => withdraw s q) s
    let bs := s.blocksOf f v
    if bs.all fun x => x.2.st == .suspended && drained s x.1 x.2 then
      let saved := (byGang bs).map (saveGang s)
      let s := if bs.isEmpty then s else saveContext (haltCores s part (bs.map (·.1)) (256 * f + v)) part v bs saved
      let p := s.part part
      let s := s.setPart part { p with switching := false, successor := none, slice := none }
      .next (s.setPart part { s.part part with resident := if p.successor.all (runnable s f) then p.successor else selectVd s part })
    else .next s
  | _, _ => .next s

/-! ### Resumption (R302) -/

/-- The cores of a saved gang by the place table, in the order of its blocks; `none` while one of them is not
mapped, or is not eligible. -/
def gangCores (s : State) (p : Nat) (g : SavedGang) : Option (List Nat) :=
  let d := s.vd g.fe g.vd
  g.blocks.foldr (fun (b : Block) r =>
    match r, d.core? b.lclu b.lcore with
    | some ks, some k => if eligible s p b.kern k && !ks.contains k then some (k :: ks) else none
    | _, _ => none) (some [])

/-- A stopped fragment whose return a TRET has asked for during the suspension goes on (R344). -/
def Group.returned (g : Group) : Group :=
  g.frags.foldl (fun (g : Group) f =>
    match f.stop with
    | some x =>
      (match x.tret with
       | some m => g.returnFrom f m
       | none => g)
    | none => g) g

/-- A fragment that waits at a barrier whose phase completed during the take goes on (R298). -/
def Group.released (g : Group) (now : Nat) : Group :=
  g.mapFrags fun f =>
    match f.wait with
    | .barrier n lanes _ =>
      if (maskLanes lanes).all fun l => !(g.lane l).arv.getLsbD n then
        { f with wait := .none, readyAt := now }
      else f
    | _ => f

/-- The groups of a block that resumes. -/
def Group.resume (g : Group) (now : Nat) : Group :=
  let g := { g with j := g.j.map fun (x : Nat × RejReg) => (x.1, x.2.turn now) }
  (g.returned).released now

/-- A block restored on a core (R299, R301). -/
def restoreBlock (s : State) (core : Nat) (b : Block) (ranges : List (Nat × List Byte)) (acc : Tbl W32)
    (bad : List Nat × List Nat) : State :=
  let s := placeStorage s core (256 * b.fe + b.vd)
  let c := ranges.foldl (fun (c : Core) r => c.scratchWrite r.1 r.2) (s.core core)
  let c := { c with scratchBad := bad.1.foldl setInsert c.scratchBad }
  let c := if b.kern.usesAcc then { c with acc := acc, accBad := bad.2 } else c
  let gs := b.groups.map fun g => g.resume s.clock
  ((s.setCore core c).setBlock core
    { b with st := .running, groups := gs, taking := none, first := true, kept := [], keptBytes := 0 }).reaccept core

/-- The pair engines of a gang restored to its leaders. -/
def restorePairs (s : State) (cores : List Nat) (ps : List Pair) : State :=
  ((cores.filter fun k => k % 2 == 0).zip ps).foldl (fun (s : State) x =>
    let now := s.pair (x.1 / 2)
    s.setPair (x.1 / 2) { x.2 with queue := now.queue, checks := now.checks }) s

/-- What a fragment waits for a page request with. -/
def pageWait (f : Frag) (id : Nat) : Option (Nat × W64 × Nat × Option Nat × Nat) :=
  match f.wait with
  | .page i d va ak tag fpc => if i == id then some (d, va, ak, tag, fpc) else none
  | _ => none

/-- The contexts that wait on a page request. -/
def pageWaiters (s : State) (id : Nat) : List (Ctx × Nat × W64 × Nat × Option Nat × Nat) :=
  s.agents.filterMap fun a => (s.ctx? a).bind fun c => (pageWait c.f id).map fun x => (c, x)

/-- A fragment whose page request failed stops (R356). -/
def pageFail (s : State) (x : Ctx × Nat × W64 × Nat × Option Nat × Nat) : State :=
  let (c, d, va, ak, tag, fpc) := x
  takeTrap (s.wake c.agent) c { cause := .pgfail, detail := d, addr := va.toNat, ak := ak, tag := tag, fpc := some fpc }

/-- The context of a saved gang has been changed in its save area, by a write, by poison, or with a lost home die, since it was
written. -/
def SavedGang.damaged (g : SavedGang) (s : State) (die : Nat) : Bool :=
  match g.area with
  | none => false
  | some a => !s.areas.contains a || s.homeLost die a.base ||
      s.memBad.any fun x => decide (a.base / 32 ≤ x) && decide (32 * x < a.base + a.size)

/-- A gang as a restore from a damaged context gives it. DEDUCED: the registers, the scratchpads and the accumulators have no
value, since the manual gives the area no layout; where its threads stand is kept. -/
def SavedGang.scrub (g : SavedGang) (ctr : Nat) : SavedGang :=
  { g with
    blocks := g.blocks.map fun b => { b with groups := b.groups.map fun x => x.scrub ctr [] }
    scratch := g.scratch.map fun rs => rs.map fun r => (r.1, (upFrom r.1 r.2.length).map (Config.freeByte ctr))
    acc := ((List.range g.acc.length).zip (g.blocks.zip g.acc)).map fun x =>
      if x.2.1.kern.usesAcc then (List.range 32768).foldl (fun t i =>
        tblSet 0#32 t i ((Config.freeWord ctr (2 ^ 30 + 32768 * x.1 + i)).setWidth 32)) [] else x.2.2 }

/-- A gang on its cores, with which the reserve of its cluster is released when it is the last one of its device there (R301);
a page request that failed meanwhile, kept as request 0, stops its fragments now. -/
def resumeGang (s : State) (p : Nat) (saved : SavedGang) (cores : List Nat) : State :=
  let g := if saved.damaged s ((s.part p).base / 2) then saved.scrub s.freeCtr else saved
  let s := (cores.zip (g.blocks.zip (g.scratch.zip (g.acc.zip g.bad)))).foldl (fun (s : State) x =>
    restoreBlock s x.1 x.2.1 x.2.2.1 x.2.2.2.1 x.2.2.2.2) s.drawn
  let s := restorePairs s cores g.pairs
  let s := cores.foldl (fun (s : State) k => s.acquireSlice (clusterOf k)) s
  let s := (pageWaiters s 0).foldl pageFail s
  let part := s.part p
  let left := part.saved.filter fun x => x != saved
  s.setPart p { part with
    saved := left
    reserve := if left.any fun x => x.vd == g.vd && x.cluster == g.cluster then part.reserve
      else part.reserve.filter fun x => !(x.1 == g.cluster && x.2 == g.vd) }

/-- GANG_RESUME (R34, R35, R302): a saved gang of the resident device is placed whole once all its cores are eligible. Of
the gangs of several grids with one number, the first that can be placed is. -/
def execGangResume (part gang : Nat) (s : State) : Out :=
  let p := s.part part
  let gs := p.saved.filter fun g => p.resident == some g.vd && g.gang == gang
  match gs.findSome? fun g => (gangCores s part g).map fun ks => (g, ks) with
  | none => .next s
  | some (g, ks) => if p.switching then .next s else .next (resumeGang s part g ks)

end Sys2Proof.Machine
end

