-- ==== Sys2Proof/Machine/HostLink.lean ====
section
/-! DEFINITION. The host link (R303 to R311, R314, R316, R358, R385, R390): the intake of command records, the
kernel descriptor, invalidations, page responses, and messages sent again. -/

namespace Sys2Proof.Machine

/-! ### The kernel descriptor (R22, R23, R314) -/

/-- A field of a descriptor. -/
def descField (d : Nat) (hi lo : Nat) : Nat := bitField d lo (hi + 1 - lo)

/-- The width that a descriptor declares. -/
def descWidth (d : Nat) : Option Nat :=
  match descField d 17 16 with
  | 1 => some 16
  | 2 => some 32
  | 3 => some 64
  | _ => none

/-- The kernel of a descriptor, with a block size and a constant bank. -/
def kernelOf (d n : Nat) (bank : List W32) : Kernel where
  n := n
  width := descWidth d
  gp := descField d 23 21
  gf := descField d 20 18
  g := 8 * descField d 15 8
  scratch := descField d 159 128
  useMask := BitVec.ofNat 64 (descField d 287 224)
  codeBase := BitVec.ofNat 64 (descField d 223 160)
  codeSize := descField d 319 288
  survTab := BitVec.ofNat 64 (descField d 447 384)
  survN := descField d 383 352
  barrTab := BitVec.ofNat 64 (descField d 511 448)
  barrN := descField d 351 336
  bank := bank

/-- The reserved bits of a descriptor are zero. DESIGN CHOICE: intake tests them, and a LAUNCH whose descriptor has one set is
answered with STATUS 2; R314 says reserved, zero, and R309 names no such check (log entry 144). -/
def descReserved (d : Nat) : Bool := descField d 335 320 == 0 && descField d 127 24 == 0 && descField d 7 0 == 0

/-- The largest number of warps that a quadrant gets (R23, R24). -/
def Kernel.quadWarps (k : Kernel) : Nat :=
  (List.range 4).foldl (fun m q => max m ((List.range k.warps).filter fun h => quadOf k.w h == q).length) 0

/-- The limits of R22, R23 and R314 on a launch of `blocks` blocks. -/
def Kernel.fits (k : Kernel) (blocks : Nat) : Bool :=
  decide (1 ≤ blocks) && decide (1 ≤ k.n) && decide (k.n ≤ 2048) && (k.width.all fun w => k.n % w == 0) &&
    decide (k.gp ≤ 5) && decide (k.gf ≤ k.gp) && blocks % 2 ^ k.gf == 0 &&
    decide (8 ≤ k.g) && decide (k.g ≤ 256) && decide (k.quadWarps * k.g ≤ 1024) &&
    k.scratch % 128 == 0 && decide (k.scratch + 512 * k.warps ≤ scratchBytes) &&
    k.codeBase.toNat % 16 == 0 && k.codeSize % 16 == 0 && decide (k.codeSize ≤ 2 ^ 20) &&
    decide (1 ≤ k.survN) && decide (k.survN ≤ 65536)

/-- Bytes through the translation of a space, where all of them can be read and none is poisoned. -/
def cleanBytes (s : State) (space va n : Nat) : Option (List Byte) :=
  match s.xlatPeek space (BitVec.ofNat 64 va) .read false with
  | some e => if s.memPoisoned (e.phys va) n then none else s.peekBytes space va n
  | none => none

/-- The grid of a LAUNCH record, where it keeps every limit (R309). -/
def launchGrid (s : State) (f : Nat) (h : BitVec 512) (bank : List W32) : Option Grid :=
  let va := hdrField h 256 64
  let blocks := hdrField h 320 32
  if va % 64 != 0 then none
  else
    match cleanBytes s (256 * f + hdrVd h) va 64 with
    | none => none
    | some bs =>
      let d := leNat bs
      let k := kernelOf d (hdrField h 352 12) bank
      if descReserved d && k.fits blocks then
        some { kern := k, blocks := blocks, formed := 0, gangs := 0, retired := 0, failed := false }
      else none

/-! ### Intake (R306, R308, R309) -/

/-- The bits of a header that a kind uses (R306, R307). DESIGN CHOICE: what R306 says is 0 in a kind, SEQ and QUEUE of the kinds 4
to 6 and OVL of a record that is no LAUNCH, and the low two bits of the address of a WAITSIG, which R307 calls a multiple of 4,
count as reserved bits of that kind, so that a record with one set is answered with STATUS 4 (log entry 144). -/
def headerMask (kind : Nat) : Nat :=
  let args (n : Nat) : Nat := n * 2 ^ 256
  let queueKind := 2 ^ 8 - 1 + (2 ^ 6 - 1) * 2 ^ 18 + (2 ^ 8 - 1) * 2 ^ 24 + (2 ^ 32 - 1) * 2 ^ 32
  let other := 2 ^ 8 - 1 + (2 ^ 8 - 1) * 2 ^ 24
  match kind with
  | 1 => queueKind + 2 ^ 17 + args (2 ^ 108 - 1)
  | 2 => queueKind + args (2 ^ 6 - 1 + (2 ^ 32 - 1) * 2 ^ 32)
  | 3 => queueKind + args (2 ^ 97 - 4)
  | 4 => other + args (2 ^ 65 - 1)
  | 5 => other + args (2 ^ 98 - 1)
  | 6 => other + args (2 ^ 49 - 1)
  | _ => 0

/-- Cause 4 of R309: a reserved KIND or a nonzero reserved bit. -/
def badHeader (h : BitVec 512) : Bool :=
  let k := hdrKind h
  k == 0 || decide (6 < k) || (h &&& ~~~BitVec.ofNat 512 (headerMask k)) != 0#512 || (k == 5 && hdrField h 352 2 == 3)

/-- Cause 1 of R309: commands are off, or the device is not enabled here or is being reset (R379). -/
def deviceOff (s : State) (f : Nat) (h : BitVec 512) : Bool :=
  let d := s.vd f (hdrVd h)
  !s.genable || !d.en || d.resetting.isSome

/-- A queue is enabled and owned by the device of a header. -/
def queueServes (s : State) (f q v : Nat) : Bool := (s.queue f q).en && (s.queue f q).vd == v

/-- Cause 3 of R309. -/
def queueOff (s : State) (f : Nat) (h : BitVec 512) : Bool :=
  !queueServes s f (hdrQueue h) (hdrVd h) || (hdrKind h == 2 && !queueServes s f (hdrField h 256 6) (hdrVd h))

/-- Nothing arrives while the die's own port is down (R371). The front end takes in no send while it retains 1,024 messages DONE and PAGEREQ (R390). -/
def stuffed (s : State) (f : Nat) : Bool :=
  decide (1024 ≤ ((s.fe f).retained.filter fun m => m.2.getD 0 0#8 == 2#8 || m.2.getD 0 0#8 == 3#8).length)

/-- A queue record whose turn has come (R308, R309): its entry, or the STATUS 2 that consumes its SEQ. -/
def takeIn (s : State) (f : Nat) (h : BitVec 512) (bank : List W32) : State :=
  let q := hdrQueue h
  let x := s.queue f q
  let x := { x with next := (x.next + 1) % 2 ^ 32 }
  let e : Entry := { tag := hdrSeq h, hdr := h, begun := false, completed := false, status := 0, poisoned := false
                     page := none, watch := none, met := false, grid := none }
  let put (s : State) (e : Entry) : State := s.setQueue f q ({ x with entries := x.entries ++ [e] } : Queue).settle
  if hdrKind h == 1 then
    match launchGrid s f h bank with
    | some g => (put s { e with grid := some g }).ack f h 0
    | none => (put s { e with begun := true, completed := true, status := 2 }).ack f h 2
  else (put s e).ack f h 0

/-- A record that is held before its turn (R308). -/
def holdRecord (s : State) (f : Nat) (h : BitVec 512) (bank : List W32) : State :=
  let q := hdrQueue h
  let x := s.queue f q
  s.setQueue f q { x with held := x.held ++ [(h, bank)] }

/-- The intake of a queue record: rejected, held, or taken in. -/
def queueRecord (s : State) (f : Nat) (h : BitVec 512) (bank : List W32) : State :=
  let x := s.queue f (hdrQueue h)
  let ahead := (hdrSeq h + 2 ^ 32 - x.next) % 2 ^ 32
  if stuffed s f || !s.hears f then s
  else if badHeader h then s.ack f h 4
  else if deviceOff s f h then s.ack f h 1
  else if queueOff s f h then s.ack f h 3
  else if 63 < ahead || (x.held.any fun r => hdrSeq r.1 == hdrSeq h) then s.ack f h 5
  else if ahead == 0 then takeIn s f h bank
  else holdRecord s f h bank

/-- LAUNCH (R288, R306 to R309): the record enters its queue. -/
def execLaunch (fe : Nat) (hdr : BitVec 512) (bank : List W32) (s : State) : Out := .next (queueRecord s fe hdr bank)
/-- WAITTAG. -/
def execWaittag (fe : Nat) (hdr : BitVec 512) (s : State) : Out := .next (queueRecord s fe hdr [])
/-- WAITSIG. -/
def execWaitsig (fe : Nat) (hdr : BitVec 512) (s : State) : Out := .next (queueRecord s fe hdr [])

/-- HELD_RECORD_INTAKE (R308): the held record whose SEQ is next is taken in. -/
def execHeldRecordIntake (fe q : Nat) (s : State) : Out :=
  let x := s.queue fe q
  match x.held.find? fun r => hdrSeq r.1 == x.next with
  | none => .next s
  | some (h, bank) =>
    if x.en then
      .next (takeIn (s.setQueue fe q { x with held := x.held.filter fun r => hdrSeq r.1 != x.next }) fe h bank)
    else .next s

/-- A command that is no queue entry: rejected, or acknowledged and carried out. -/
def commandRecord (s : State) (f : Nat) (h : BitVec 512) (k : State → State) : State :=
  if stuffed s f || !s.hears f then s
  else if badHeader h then s.ack f h 4
  else if deviceOff s f h then s.ack f h 1
  else k (s.ack f h 0)

/-! ### TLBINV (R308, R358) -/

/-- An address range lies in what a TLBINV names. -/
def invNames (h : BitVec 512) (base size : Nat) : Bool :=
  h.getLsbD 320 || (decide (base ≤ hdrField h 256 64) && decide (hdrField h 256 64 < base + size))

/-- A store entry holds a translation that a TLBINV drops. -/
def SEntry.holdsGone (e : SEntry) (h : BitVec 512) : Bool :=
  e.items.any fun i =>
    match i.place with
    | .glob _ _ _ b n => invNames h b n
    | .scratch _ _ => false

/-- The issuers with an uncommitted entry that holds a dropped translation: a fragment of each warp, each
ejected lane. -/
def goneHolders (s : State) (f v : Nat) (h : BitVec 512) : List Agent :=
  ((s.blocksOf f v).flatMap fun x =>
    (x.2.groups.filter fun g => g.sbuf.any fun e => e.holdsGone h).map fun g => Agent.frag x.1 g.index 0) ++
    (s.ejected.filter fun e =>
      (match s.block? e.core with
       | some b => b.fe == f && b.vd == v
       | none => false) && e.grp.sbuf.any fun x => x.holdsGone h).map fun e => Agent.ejected e.core e.thread

/-- A held trigger or a tested WAITSIG of the device translates its word again, and engine entries drop the translations that
they hold (R358). -/
def dropWatches (s : State) (f v : Nat) (h : BitVec 512) : State :=
  let gone (e : QEntry) (va : Nat) : Bool :=
    (tblGet [] s.pages e.id).any fun t => t.covers (256 * f + v) va && invNames h t.base t.size
  let s : State := { s with pages := s.pages.map fun (x : Nat × List TlbEntry) =>
    (x.1, x.2.filter fun t => !(t.space == 256 * f + v && invNames h t.base t.size)) }
  let coll (e : QEntry) : QEntry :=
    match e.run, e.op with
    | some r, .coll _ _ _ _ _ (some va) _ =>
      if e.fe == f && e.vd == v && gone e va.toNat then { e with run := some { r with watch := none } } else e
    | _, _ => e
  let s : State := { s with kqueues := s.kqueues.map fun q => (q.1, q.2.map coll) }
  let stale (e : Entry) : Bool := !e.completed && !e.met && e.watch.any fun w => invNames h w.2.1 w.2.2
  ((s.entriesOf f v).filter fun x => stale x.2).foldl (fun (s : State) x => testSignal s f x.1 { x.2 with watch := none }) s

/-- A walk that has begun uses an entry that a TLBINV of a device names: its page, or the page or region where it failed. -/
def Walk.gone (w : Walk) (space : Nat) (h : BitVec 512) : Bool :=
  w.space == space && w.found.any fun r => h.getLsbD 320 || r.covers (hdrField h 256 64)

/-- TLBINV (R308, R358): the entries are dropped, strands that hold one abort, no TLB takes the result of a walk that has used
one, and the command waits. -/
def execTlbinv (fe : Nat) (hdr : BitVec 512) (s : State) : Out :=
  .next (commandRecord s fe hdr fun s =>
    let v := hdrVd hdr
    let s := s.dropTlb fun e => e.space == 256 * fe + v && invNames hdr e.base e.size
    let s := (goneHolders s fe v hdr).foldl (fun (s : State) a => s.deschedule a) s
    let s := dropWatches s fe v hdr
    let s : State := { s with walks := s.walks.map fun (w : Walk) => if w.gone (256 * fe + v) hdr then { w with stale := true } else w }
    let (id, s) := s.fresh
    { s with commands := s.commands ++ [({ id := id, fe := fe, hdr := hdr, walks := (s.walks.filter fun w => w.found.isSome).map (·.id) } : Command)] })

/-- The committed entries of a device. -/
def State.committedOf (s : State) (f v : Nat) : List SEntry :=
  ((s.blocksOf f v).flatMap fun x => x.2.warps.flatMap fun w => w.fifo) ++
    (s.ejected.filter fun e =>
      match s.block? e.core with
      | some b => b.fe == f && b.vd == v
      | none => false).flatMap fun e => e.fifo

/-- A command is over: it goes, with its DONE. -/
def State.endCommand (s : State) (c : Command) : State :=
  ({ s with commands := s.commands.filter fun x => x.id != c.id } : State).done c.fe c.hdr 0 0

/-- TLBINV_PERFORMED (R308, R358): the walks before it have ended, and committed entries with a dropped
translation have drained. -/
def execTlbinvPerformed (cmd : Nat) (s : State) : Out :=
  match s.commands.find? fun c => c.id == cmd && hdrKind c.hdr == 4 with
  | none => .next s
  | some c =>
    let walking := s.walks.any fun w => c.walks.contains w.id
    let held := (s.committedOf c.fe (hdrVd c.hdr)).any fun e => decide (e.serial < c.id) && e.holdsGone c.hdr
    if walking || held then .next s else .next (s.endCommand c)

/-! ### ICINV (R316) -/

/-- A code line that an ICINV names: bytes VA to VA + LEN − 1, or the code of the kernel at VA. -/
def CodeLine.named (l : CodeLine) (f : Nat) (h : BitVec 512) : Bool :=
  let va := hdrField h 256 64
  let n := if hdrField h 352 2 == 2 then 2 ^ 20 else hdrField h 320 32
  l.space == 256 * f + hdrVd h && decide (l.va < va + n) && decide (va < l.va + 128)

/-- ICINV: one of scope 0 performs at once. -/
def execIcinv (fe : Nat) (hdr : BitVec 512) (s : State) : Out :=
  .next (commandRecord s fe hdr fun s =>
    if hdrField hdr 352 2 == 0 then s.done fe hdr 0 0
    else
      let (id, s) := s.fresh
      { s with commands := s.commands ++ [({ id := id, fe := fe, hdr := hdr, walks := [] } : Command)] })

/-- ICINV_PERFORMED: no core or tender holds a line that it names. -/
def execIcinvPerformed (cmd : Nat) (s : State) : Out :=
  match s.commands.find? fun c => c.id == cmd && hdrKind c.hdr == 5 with
  | none => .next s
  | some c => .next (({ s with code := s.code.filter fun l => !l.named c.fe c.hdr } : State).endCommand c)

/-! ### Page responses (R309, R356, R357, R385) -/

/-- The waits of saved fragments: a retry ends them, a failure is kept, as request 0, for the resumption (R344). -/
def savedPages (s : State) (p id : Nat) (fail : Bool) : State :=
  let frag (f : Frag) : Frag :=
    match f.wait with
    | .page i d va ak tag fpc => if i == id then { f with wait := if fail then .page 0 d va ak tag fpc else .none } else f
    | _ => f
  let block (b : Block) : Block := { b with groups := b.groups.map fun g => g.mapFrags frag }
  let part := s.part p
  s.setPart p { part with saved := part.saved.map fun g => { g with blocks := g.blocks.map block } }

/-- The engine entries at the heads of their queues that wait on a page request. -/
def pageHeads (s : State) (id : Nat) : List (QueueId × QEntry) :=
  s.busyQueues.filterMap fun q =>
    match s.engineQueue q with
    | e :: _ => if e.page == some id then some (q, e) else none
    | [] => none

/-- The queue entries of a device that wait on a page request. -/
def pageEntries (s : State) (f v id : Nat) : List (Nat × Entry) :=
  (s.entriesOf f v).filter fun x => x.2.page == some id

/-- A response applied to everything that waits on its request. -/
def applyResponse (s : State) (r : PageReq) (fail : Bool) : State :=
  let s : State := { s with pageReqs := s.pageReqs.filter fun x => x.id != r.id }
  let ws := pageWaiters s r.id
  let s := if fail then ws.foldl pageFail s else ws.foldl (fun (s : State) x => s.wake x.1.agent) s
  let s := savedPages s (s.vd r.fe r.vd).part.toNat r.id fail
  let s := (pageHeads s r.id).foldl (fun (s : State) x =>
    if fail then failEntry s x.1 { x.2 with page := none } .engfail 0 0 else s.setHead x.1 { x.2 with page := none }) s
  (pageEntries s r.fe r.vd r.id).foldl (fun (s : State) x =>
    if fail then s.completeEntry r.fe x.1 x.2 2
    else
      let e := { x.2 with page := none }
      testSignal (s.setQueue r.fe x.1 ((s.queue r.fe x.1).mapEntry e.tag fun _ => e)) r.fe x.1 e) s

/-- PAGERESP (R309, R385): applied, or dropped and counted as stale. -/
def execPageresp (fe : Nat) (hdr : BitVec 512) (s : State) : Out :=
  .next (commandRecord s fe hdr fun s =>
    let v := hdrVd hdr
    match s.pageReqs.find? fun r => r.fe == fe && r.vd == v && r.id % 2 ^ 32 == hdrField hdr 256 32 with
    | some r =>
      if hdrField hdr 288 16 == (s.vd fe v).gen.toNat then applyResponse s r (hdr.getLsbD 304)
      else s.setFe fe { s.fe fe with stale := min ((s.fe fe).stale + 1) 0xFFFFFFFF }
    | none => s.setFe fe { s.fe fe with stale := min ((s.fe fe).stale + 1) 0xFFFFFFFF })

/-! ### Messages sent again (R390) -/

/-- MSG_RESEND: retained messages are sent again, oldest first. -/
def execMsgResend (fe : Nat) (s : State) : Out :=
  if s.portUp fe then
    .next { s.setFe fe { s.fe fe with retained := [] } with outbox := s.outbox ++ (s.fe fe).retained }
  else .next s

/-! ### Sends (R306) -/

/-- The records of a send: a header each, and the constant bank after that of a LAUNCH. `none` where the bytes
are not complete records. The fuel bounds the number of records. -/
def splitSend : Nat → List Byte → Option (List (BitVec 512 × List W32))
  | _, [] => some []
  | 0, _ :: _ => none
  | n + 1, bs =>
    if bs.length < 64 then none
    else
      let h := BitVec.ofNat 512 (leNat (bs.take 64))
      let more := if hdrKind h == 1 then 768 else 0
      let rest := bs.drop 64
      if rest.length < more then none
      else
        let bank := (List.range (more / 4)).map fun i => BitVec.ofNat 32 (leNat ((rest.drop (4 * i)).take 4))
        (splitSend n (rest.drop more)).map fun rs => (h, bank) :: rs

/-- The instruction of the opcode table that a record stands for. -/
def recordInstr (fe : Nat) (r : BitVec 512 × List W32) : Instr :=
  match hdrKind r.1 with
  | 2 => .waittag fe r.1
  | 3 => .waitsig fe r.1
  | 4 => .tlbinv fe r.1
  | 5 => .icinv fe r.1
  | 6 => .pageresp fe r.1
  | _ => .launch fe r.1 r.2

/-- The records of a send; a send that is not one to sixteen whole records is rejected with one ACK. -/
def receiveSend (s : State) (fe : Nat) (bs : List Byte) : List Instr × State :=
  if stuffed s fe || !s.hears fe then ([], s)
  else
  match splitSend 16 bs with
  | some (r :: rs) => ((r :: rs).map (recordInstr fe), s)
  | _ => ([], s.ack fe (if bs.length < 64 then 0#512 else BitVec.ofNat 512 (leNat (bs.take 64))) 4)

end Sys2Proof.Machine
end

