-- ==== Sys2Proof/Machine/CtlSpace.lean ====
section
/-! DEFINITION. The control range of a die (R285 to R287, R291 to R294, R305, R327, R363, R377, R382, R386,
R389, R391, R392, R400): each register with its write and its read, the start of a harbourmaster, and the
enabling and disabling of partitions, queues and virtual devices. A write carries the merged word and the
written bytes alone; fields that act on written ones look at the latter. -/

namespace Sys2Proof.Machine

/-- The upper 32 bits of a 48- or 64-bit register replaced. -/
def hiWord (x hi : Nat) : Nat := x % 2 ^ 32 + hi * 2 ^ 32
/-- The lower 32 bits of a register replaced. -/
def loWord (x lo : Nat) : Nat := x / 2 ^ 32 * 2 ^ 32 + lo

/-! ### The harbourmaster (R377) -/

/-- A harbourmaster that holds its context and does not run. -/
def Super.idle (ctx : Nat) : Super where
  ctx := some ctx
  run := false
  trapped := false
  halted := false
  kern := none
  root := 0
  grp := { width := 32, index := 0, s := [], j := [], t := [], tags := [], ovf := false, ovfn := false
           lanes := [], frags := [], sbuf := [], tsts := [], mloads := [] }
  fifo := []
  g := 8
  tlb := []

/-- The fragment of a harbourmaster is its only one, number 0. -/
def superGroup (k : Kernel) (now : Nat) : Group := entryGroup k 0#32 0#32 0#32 0#32 0 0 now

/-- The start of a harbourmaster (R377): its context is cleared and it begins at the descriptor's code base; a
descriptor of width 16 or 64, or one that cannot be read, leaves it stopped. -/
def hmStart (s : State) (p : Nat) : State :=
  let part := s.part p
  match tblFind s.supers p with
  | none => s
  | some h =>
    let h := { Super.idle (h.ctx.getD 0) with fifo := h.fifo, root := part.hmroot }
    let put (s : State) (h : Super) : State := { s with supers := tblInsert s.supers p h }
    let s := put s h
    match s.xlatPeek (0x10000 + p) part.hmdesc .read true with
    | none => put s { h with trapped := true }
    | some e =>
      let d := leNat (s.mscRead (e.phys part.hmdesc.toNat) 64)
      let k := kernelOf d 1 ((List.range 192).map (Config.supervisorBank p))
      if k.width == some 16 || k.width == some 64 then put s { h with trapped := true }
      else put s { h with run := true, kern := some k, g := k.g, grp := superGroup k s.clock }

/-- The tender context that a harbourmaster takes on a die (R285): context 7 of the highest tender whose context
7 is free, else the highest free context of the highest tender. -/
def superCtx (used : List Nat) : Option Nat :=
  let free (x : Nat) : Bool := !used.contains x
  (((List.range 24).reverse.map fun t => 8 * t + 7).find? free).or ((List.range 192).reverse.find? free)

/-! ### Partitions (R284, R285, R400) -/

/-- The other enabled partitions. -/
def State.othersOn (s : State) (p : Nat) : List Nat := (List.range 64).filter fun q => q != p && (s.part q).en

/-- The dies of a range of clusters. -/
def diesOf (base limit : Nat) : List Nat := upFrom (base / 2) (limit / 2 - base / 2 + 1)

/-- What other partitions hold of a grant on a die. -/
def State.granted (s : State) (p d : Nat) (k : Part → Tbl Nat) : Nat :=
  (s.othersOn p).foldl (fun n q => n + tblGet 0 (k (s.part q)) d) 0

/-- The contexts that harbourmasters hold on a die. -/
def State.superCtxs (s : State) (d : Nat) : Nat := (s.supers.filter fun x => (s.part x.1).base / 2 == d && x.2.ctx.isSome).length

/-- The grants of a partition at its enable (R285). -/
def State.grants (s : State) (p : Nat) : State :=
  let part := s.part p
  let ds := diesOf part.base part.limit
  let kq := ds.foldl (fun t d => tblSet 0 t d (min part.kqslot (64 - s.granted p d (·.kqGrant)))) []
  let ej := ds.foldl (fun t d => tblSet 0 t d (min part.ejctx (192 - s.superCtxs d - s.granted p d (·.ejGrant)))) []
  s.setPart p { part with kqGrant := kq, ejGrant := ej }

/-- A partition becomes enabled, with its harbourmaster's context, its grants, and its harbourmaster started. -/
def enablePart (s : State) (p ctx : Nat) : State :=
  let part := s.part p
  let s := s.setPart p { part with
    en := true, taperNow := part.taper, tasliceNow := part.taslice, wcnt := 0, ring := [], heldRecs := [], lost := false
    disabling := false, resetting := [], resident := none, period := s.clock, slice := none, switching := false
    successor := none, saved := [], reserve := [] }
  let left := ((tblFind s.supers p).map (·.fifo)).getD []
  let s := { s with supers := tblInsert s.supers p { Super.idle ctx with fifo := left } }
  let s := firstPeriod (s.grants p) p
  if part.hmdesc == 0#64 then s else hmStart s p

/-- A write of PCFG. -/
def pcfgWrite (s : State) (p : Nat) (x : W32) : State :=
  let part := s.part p
  if part.en then
    if x.getLsbD 31 || part.disabling then s
    else (partReset (s.setPart p { part with disabling := true }) p 4).disableStep p
  else
    let base := bitField x.toNat 0 6
    let limit := bitField x.toNat 8 6
    let s := s.setPart p { part with base := base, limit := limit }
    let clash := (s.othersOn p).any fun q => decide ((s.part q).base ≤ limit) && decide (base ≤ (s.part q).limit)
    let full := decide (192 ≤ s.superCtxs (base / 2) + s.granted p (base / 2) (·.ejGrant))
    if x.getLsbD 31 && decide (base ≤ limit) && !clash && part.colours != 0#16 && !full then
      match superCtx (s.usedCtxs (base / 2)) with
      | some ctx => enablePart s p ctx
      | none => s
    else s

/-- PARTITION_ENABLE (R284, R285). -/
def execPartitionEnable (part : Nat) (value : W32) (s : State) : Out := .next (s.written (part / 2) fun s => pcfgWrite s part value)
/-- PARTITION_DISABLE (R400). -/
def execPartitionDisable (part : Nat) (value : W32) (s : State) : Out := .next (s.written (part / 2) fun s => pcfgWrite s part value)

/-- A write of PCOLOR (R285): a bit that another enabled partition holds stays 0. -/
def pcolorWrite (s : State) (p : Nat) (x : W32) : State :=
  let others := (s.othersOn p).foldl (fun (m : BitVec 16) q => m ||| (s.part q).colours) 0#16
  let c := x.setWidth 16 &&& ~~~others
  if (s.part p).en && c == 0#16 then s else s.setPart p { s.part p with colours := c }

/-- PCOLOR_WRITE. -/
def execPcolorWrite (part : Nat) (value : W32) (s : State) : Out := .next (s.written (part / 2) fun s => pcolorWrite s part value)

/-- A write of FPOL: 3 is read as 0 (R327). -/
def fpolOf (x : W32) : W32 :=
  BitVec.ofNat 32 ((List.range 16).foldl (fun n g =>
    let a := bitField x.toNat (2 * g) 2
    if a == 3 then n else n + a * 2 ^ (2 * g)) 0)

/-- A write of HMCTL (R377). -/
def hmctlWrite (s : State) (p : Nat) (w : W32) : State := if w.getLsbD 0 && (s.part p).en then hmStart s p else s

/-- HM_RESTART. -/
def execHmRestart (part : Nat) (value : W32) (s : State) : Out := .next (s.written (part / 2) fun s => hmctlWrite s part value)

/-- A write of a register of a partition slot, by its offset from PCFG's or FRBASEL's (R285, R327, R377). -/
def slotWrite (s : State) (p o : Nat) (x w : W32) : State :=
  let part := s.part p
  let n := x.toNat
  match o with
  | 0x100 => pcfgWrite s p x
  | 0x104 => pcolorWrite s p x
  | 0x108 => s.setPart p { part with taper := x.extractLsb' 16 16, taslice := x.setWidth 16 }
  | 0x10C => s.setPart p { part with kqslot := min (bitField n 16 8) 64, ejctx := min (bitField n 0 8) 191 }
  | 0x200 => if part.en then s else s.setPart p { part with frbase := loWord part.frbase (n / 4096 * 4096) }
  | 0x204 => if part.en then s else s.setPart p { part with frbase := hiWord part.frbase (n % 2 ^ 16) }
  | 0x208 => if part.en then s else s.setPart p { part with sz := n % 16 }
  | 0x20C => s.setPart p { part with fpol := fpolOf x }
  | 0x210 => s.setPart p { part with hmdesc := BitVec.ofNat 64 (loWord part.hmdesc.toNat n) }
  | 0x214 => s.setPart p { part with hmdesc := BitVec.ofNat 64 (hiWord part.hmdesc.toNat n) }
  | 0x218 => s.setPart p { part with hmroot := loWord part.hmroot (n / 4096 * 4096) }
  | 0x21C => s.setPart p { part with hmroot := hiWord part.hmroot (n % 2 ^ 16) }
  | 0x220 => hmctlWrite s p w
  | _ => s

/-- A register of a partition slot. -/
def slotRead (s : State) (p o : Nat) : Nat :=
  let part := s.part p
  match o with
  | 0x100 => part.base + 2 ^ 8 * part.limit + 2 ^ 31 * bit part.en
  | 0x104 => part.colours.toNat
  | 0x108 => part.taslice.toNat + 2 ^ 16 * part.taper.toNat
  | 0x10C => part.ejctx + 2 ^ 16 * part.kqslot
  | 0x200 => part.frbase % 2 ^ 32
  | 0x204 => part.frbase / 2 ^ 32
  | 0x208 => part.sz + 2 ^ 16 * part.wcnt
  | 0x20C => part.fpol.toNat
  | 0x210 => part.hmdesc.toNat % 2 ^ 32
  | 0x214 => part.hmdesc.toNat / 2 ^ 32
  | 0x218 => part.hmroot % 2 ^ 32
  | 0x21C => part.hmroot / 2 ^ 32
  | 0x220 =>
    (match tblFind s.supers p with
     | some h => 2 ^ 31 * bit (h.run && !h.trapped) + 2 ^ 30 * bit h.trapped
     | none => 0)
  | _ => 0

/-! ### The module (R286, R384, R391) -/

/-- GENABLE cleared (R384): every enabled virtual device is reset. -/
def genableOff (s : State) : State :=
  let s := { s with genable := false }
  (List.range 64).foldl (fun (s : State) p =>
    (s.vdsOf p).foldl (fun (s : State) v => if (s.vd (p / 2) v).en then vdReset s (p / 2) v 3 else s) s) s

/-- A write of MODCTL. GENABLE ends at 0 where an alarm with HALTARM comes at the same moment, before or after (R394). -/
def modctlWrite (s : State) (x : W32) : State :=
  if x.getLsbD 0 then { s with genable := s.genable || s.haltedAt != some s.clock }
  else if s.genable then genableOff s
  else s

/-- GENABLE_CLEAR. -/
def execGenableClear (value : W32) (s : State) : Out := .next (s.written 0 fun s => modctlWrite s value)

/-- What a module reset leaves in memory: every committed entry has performed (R57), and what the slices held has been written
back. -/
def State.settled (s : State) : State :=
  let s := s.drainAll s.committedCount
  s.l2.foldl (fun (s : State) x => s.writeBackAll x.1) s

/-- A module reset (R391): the state after reset. What lies outside the module's reset, or is the model's own,
stays: memory, the messages sent, the erased keys, the list of turns. -/
def moduleReset (s : State) : State :=
  let s := s.settled
  { State.reset with agenda := s.agenda, freeCtr := s.freeCtr, mem := s.mem, areas := s.areas, memBad := s.memBad, mscBad := s.mscBad
                     msc := s.msc, outbox := s.outbox, answers := s.answers, keysErased := s.keysErased }

/-- A write of MODRST: its key resets the module. -/
def modrstWrite (s : State) (w : W32) : State := if w.setWidth 16 == 0xB007#16 then moduleReset s else s

/-- MODRST. -/
def execModrst (value : W32) (s : State) : Out := .next (s.written 0 fun s => modrstWrite s value)

/-- A write of SECCTL (R392): the arming bits are set by a 1. -/
def secctlWrite (s : State) (w : W32) : State :=
  { s with haltArm := s.haltArm || w.getLsbD 1, eraseArm := s.eraseArm || w.getLsbD 0 }

/-- SECCTL as it reads. -/
def secctl (s : State) : Nat := bit s.eraseArm + 2 * bit s.haltArm + 2 ^ 24 * s.alarmSrc.toNat + 2 ^ 31 * bit s.alarm

/-! ### Hardware queues (R287, R382, R397) -/

/-- QCFG.EN becomes 1 (R287): the queue is emptied, each entry with a DONE of STATUS 1; ignored while an entry
that has begun still runs. -/
def queueOn (s : State) (f q : Nat) (x : W32) : State :=
  let c := s.queue f q
  if c.entries.any fun e => e.begun && !e.completed then s
  else
    let s := (c.entries.filter fun e => !e.completed).foldl (fun (s : State) e => s.done f e.hdr e.tag 1) s
    s.setQueue f q { c with en := true, pri := x.extractLsb' 8 2, vd := x.toNat % 256, ctag := 0, entries := [], next := 1
                            held := [], count := 0 }

/-- A write of QCFG. -/
def qcfgWrite (s : State) (f q : Nat) (x : W32) : State :=
  let c := s.queue f q
  let pri := x.extractLsb' 8 2
  if c.en then s.setQueue f q { c with en := x.getLsbD 31, pri := pri }
  else if x.getLsbD 31 then queueOn s f q x
  else s.setQueue f q { c with pri := pri, vd := x.toNat % 256 }

/-- QUEUE_ENABLE. -/
def execQueueEnable (fe q : Nat) (value : W32) (s : State) : Out := .next (s.written fe fun s => qcfgWrite s fe q value)
/-- QUEUE_DISABLE. -/
def execQueueDisable (fe q : Nat) (value : W32) (s : State) : Out := .next (s.written fe fun s => qcfgWrite s fe q value)

/-- A write of QWDT (R382, R397): clearing WDX starts the timer again; a count at or above the new WDT expires at once. -/
def qwdtWriteReg (s : State) (f q : Nat) (x w : W32) : State :=
  let c := s.queue f q
  let c := { c with wdt := x.setWidth 16 }
  (s.setQueue f q (if w.getLsbD 31 then { c with wdx := false, count := 0 } else c)).expire f q

/-- QWDT_WRITE. -/
def execQwdtWrite (fe q : Nat) (value : W32) (s : State) : Out := .next (s.written fe fun s => qwdtWriteReg s fe q value value)

/-! ### Virtual devices (R292, R293, R305, R389) -/

/-- A disabled device takes its fields, and is enabled when another front end does not hold it (R389) and PART
names a partition of this one (R292). What it has been charged in the period stands (R296); DESIGN CHOICE: in another partition
it begins at 0 (log entry 74). -/
def vdOn (s : State) (f v : Nat) (x : W32) : State :=
  let d := s.vd f v
  let part : BitVec 6 := x.extractLsb' 16 6
  let d := { d with cap := x.extractLsb' 8 8, weight := x.setWidth 8, part := part, charged := if part == d.part then d.charged else 0 }
  if !x.getLsbD 31 then s.setVd f v d
  else if (List.range 32).any fun g => (s.vd g v).resetting.isSome then s
  else if (List.range 32).any fun g => g != f && (s.vd g v).en then
    s.post part.toNat .ifArmed { cause := .feerr, detail := 6, vd := v, part := part.toNat }
  else if part.toNat / 2 == f then
    s.setVd f v { d with en := true, allow := 0, ran := false }
  else s.setVd f v d

/-- A write of VDCFG. -/
def vdcfgWrite (s : State) (f v : Nat) (x : W32) : State :=
  let d := s.vd f v
  if !d.en then vdOn s f v x
  else if x.getLsbD 31 && d.resetting.isSome then s
  else
    let d := { d with cap := x.extractLsb' 8 8, weight := x.setWidth 8 }
    if x.getLsbD 31 then s.setVd f v d else vdReset (s.setVd f v { d with en := false }) f v 0

/-- VD_ENABLE. -/
def execVdEnable (fe vd : Nat) (value : W32) (s : State) : Out := .next (s.written fe fun s => vdcfgWrite s fe vd value)
/-- VD_DISABLE (R379). -/
def execVdDisable (fe vd : Nat) (value : W32) (s : State) : Out := .next (s.written fe fun s => vdcfgWrite s fe vd value)

/-- A write of a register of a virtual device by its offset from the block it lies in. -/
def vdWrite (s : State) (f v o : Nat) (x w : W32) : State :=
  let d := s.vd f v
  let n := x.toNat
  match o with
  | 0x4000 => vdcfgWrite s f v x
  | 0x4008 => s.setVd f v { d with save := BitVec.ofNat 64 (loWord d.save.toNat n) }
  | 0x400C => s.setVd f v { d with save := BitVec.ofNat 64 (hiWord d.save.toNat n) }
  | 0x8000 => s.setVd f v { d with root := loWord d.root (n / 4096 * 4096) }
  | 0x8004 => s.setVd f v { d with root := hiWord d.root (n % 2 ^ 16) }
  | 0x8008 => s.setVd f v (d.capctlWrite ((x &&& 0xBFFFFFFF#32) ||| (w &&& 0x40000000#32)))
  | 0x800C => s.setVd f v { d with capoff := BitVec.ofNat 64 (loWord d.capoff.toNat n) }
  | 0x8010 => s.setVd f v { d with capoff := BitVec.ofNat 64 (hiWord d.capoff.toNat n) }
  | _ => s

/-- A register of a virtual device. -/
def vdRead (s : State) (f v o : Nat) : Nat :=
  let d := s.vd f v
  match o with
  | 0x4000 =>
    d.weight.toNat + 2 ^ 8 * d.cap.toNat + 2 ^ 16 * d.part.toNat + 2 ^ 30 * bit (runnable s f v) + 2 ^ 31 * bit d.en
  | 0x4004 => d.gen.toNat
  | 0x4008 => d.save.toNat % 2 ^ 32
  | 0x400C => d.save.toNat / 2 ^ 32
  | 0x8000 => d.root % 2 ^ 32
  | 0x8004 => d.root / 2 ^ 32
  | 0x8008 => d.capctl.toNat
  | 0x800C => d.capoff.toNat % 2 ^ 32
  | 0x8010 => d.capoff.toNat / 2 ^ 32
  | _ => 0

/-- A host write of a loss-scale register (R271): one that LSADJ.set would refuse is ignored. -/
def lossWrite (s : State) (f v sel : Nat) (x : W32) : State :=
  if 5 < sel then s
  else
    match (s.vd f v).lsSet sel x with
    | some d => s.setVd f v d
    | none => s

/-- LOSS_SCALE_HOST_WRITE. -/
def execLossScaleHostWrite (fe vd sel : Nat) (value : W32) (s : State) : Out := .next (s.written fe fun s => lossWrite s fe vd sel value)

/-! ### Place tables (R294, R389) -/

/-- The bits of a place-table word that are not reserved. -/
def placeMask (o : Nat) : W32 :=
  if o % 64 == 0 then 0x8000003F#32 else if o % 64 < 32 then 0#32 else 0x9F9F9F9F#32

/-- The pairs of a list of an option are whole and in order. -/
def pairsWhole (ks : List (Option Nat)) : Bool :=
  (List.range 16).all fun j =>
    match ks.getD (2 * j) none, ks.getD (2 * j + 1) none with
    | none, none => true
    | some a, some b => a % 2 == 0 && b == a + 1
    | _, _ => false

/-- No number occurs twice. -/
def allDistinct : List Nat → Bool
  | [] => true
  | x :: xs => !xs.contains x && allDistinct xs

/-- The valid entries of a place table keep the obligation of R294. -/
def Vd.placeOk (d : Vd) : Bool :=
  let cs := (List.range 64).filter fun i => (d.cluster? i).isSome
  allDistinct (cs.filterMap d.cluster?) && cs.all fun i =>
    let ks := (List.range 32).map (d.core? i)
    allDistinct (ks.filterMap id) && pairsWhole ks

/-- A write of a place-table word (R294, R389): ignored while a block of the device is placed; refused with a
record when it breaks the table; else the device's candidate grids are checked (R330). A write of the whole word clears its
poison (R388). -/
def placeWrite (s : State) (f v o : Nat) (x : W32) (whole : Bool) : State :=
  let d := s.vd f v
  if !(s.blocksOf f v).isEmpty then s
  else
    let d' := { d with place := tblSet 0#32 d.place o (x &&& placeMask o), placeBad := if whole then setErase d.placeBad o else d.placeBad }
    if d'.placeOk then checkGrids (s.setVd f v d') f
    else feErr s f v 5 (0x00100000 + 0x1000 * v + o)

/-- PLACE_TABLE_WRITE. -/
def execPlaceTableWrite (fe vd off : Nat) (value : W32) (s : State) : Out :=
  .next (s.written fe fun s => placeWrite s fe vd (off % 4096 / 4 * 4) value true)

/-! ### Capability masks (R291, R330, R388) -/

/-- The candidate grids of the front end whose partition holds a cluster are checked (R330). -/
def checkCluster (s : State) (cl : Nat) : State :=
  match s.partOf cl with
  | none => s
  | some p => checkGrids s (p / 2)

/-- A write of half of a CAPM. -/
def capmHalf (s : State) (core : Nat) (hi : Bool) (x : W32) : State :=
  let c := s.core core
  let n := if hi then hiWord c.capm.toNat (x.toNat % 2 ^ 18) else loWord c.capm.toNat x.toNat
  checkCluster (s.setCore core { c with capm := BitVec.ofNat 64 n }) (clusterOf core)

/-- The core and the half that an offset of a die names in the range of CAPM. -/
def capmPlace (die off : Nat) : Nat × Bool :=
  let o := off % 0x200
  (64 * die + 32 * (o / 0x100) + o % 0x100 / 8, o % 8 / 4 == 1)

/-- CAPM_WRITE. -/
def execCapmWrite (die off : Nat) (value : W32) (s : State) : Out :=
  let (core, hi) := capmPlace die off
  .next (s.written die fun s => capmHalf s core hi value)

/-! ### Member tables (R263, R312, R373, R388) -/

/-- The words of a member table that are reserved and zero (R374). -/
def memberReserved (o : Nat) : Bool := o == 52 || decide (72 ≤ o)

/-- A write of a member-table word: bytes 0 to 3 start the count of COLLs again and mend the table; a write of the whole word
clears its poison (R388). -/
def memberWrite (s : State) (die v x o : Nat) (w : W32) (whole : Bool) : State :=
  let m := s.member die v x
  let m := if whole then { m with bad := setErase m.bad o } else m
  if o == 0 then s.setMember die v x (m.writeHead w)
  else s.setMember die v x (if memberReserved o then m else { m with words := tblSet 0#32 m.words (o / 4) w })

/-- MEMBER_TABLE_WRITE. -/
def execMemberTableWrite (die vd x : Nat) (value : W32) (s : State) : Out := .next (s.written die fun s => memberWrite s die vd x 0 value true)

/-! ### A die's own registers (R363) -/

/-- A write in the range of R363. -/
def rasWrite (s : State) (d o : Nat) (x w : W32) : State :=
  let die := s.die d
  if o < 0x20 then s.setDie d { die with ras := tblSet 0#32 die.ras (o / 4) x }
  else if o == 0x40 then s.setDie d { die with ctmo := x.setWidth 16 }
  else if o == 0x44 then s.setDie d { die with down := die.down &&& ~~~(w.extractLsb' 8 5) }
  else s

/-- A register of R363. -/
def rasRead (s : State) (d o : Nat) : Nat :=
  let die := s.die d
  if o < 0x20 then (tblGet 0#32 die.ras (o / 4)).toNat
  else if o == 0x40 then die.ctmo.toNat
  else if o == 0x44 then die.up.toNat + 2 ^ 8 * die.down.toNat
  else 0

/-! ### The range as a whole -/

/-- A word of the control range of die `d` written at a multiple of 4: `x` is the merged word, `w` the written
bytes with zeros elsewhere, `whole` that it is written whole. Read-only and reserved words ignore it (R7). -/
def ctlSet (s : State) (d o : Nat) (x w : W32) (whole : Bool) : State :=
  if o < 0x100 then
    if d != 0 then s
    else if o == 0 then modctlWrite s x
    else if o == 4 then modrstWrite s w
    else s
  else if o < 0x140 then slotWrite s (2 * d + (o - 0x100) / 0x20) (0x100 + o % 0x20) x w
  else if o < 0x200 then s
  else if o < 0x280 then slotWrite s (2 * d + (o - 0x200) / 0x40) (0x200 + o % 0x40) x w
  else if o < 0x1000 then s
  else if o < 0x1200 then (if o % 8 == 0 then qcfgWrite s d ((o - 0x1000) / 8) x else s)
  else if o < 0x1800 then s
  else if o < 0x1900 then qwdtWriteReg s d ((o - 0x1800) / 4) x w
  else if o < 0x4000 then s
  else if o < 0x5000 then vdWrite s d ((o - 0x4000) / 0x10) (0x4000 + o % 0x10) x w
  else if o < 0x6000 then s
  else if o < 0x8000 then lossWrite s d ((o - 0x6000) / 0x20) (o % 0x20 / 4) x
  else if o < 0xA000 then vdWrite s d ((o - 0x8000) / 0x20) (0x8000 + o % 0x20) x w
  else if o < 0x100000 then s
  else if o < 0x200000 then placeWrite s d ((o - 0x100000) / 0x1000) (o % 0x1000) x whole
  else if o < 0x2000000 then s
  else if o < 0x2000200 then capmHalf s (capmPlace d (o - 0x2000000)).1 (capmPlace d (o - 0x2000000)).2 x
  else if o < 0x3000000 then s
  else if o < 0x3000048 then rasWrite s d (o - 0x3000000) x w
  else if o < 0x4000000 then s
  else if o < 0x4800000 then memberWrite s d ((o - 0x4000000) / 0x8000) (o % 0x8000 / 0x400) (o % 0x400) x whole
  else if o == 0x6000000 && d == 0 then secctlWrite s w
  else s

/-- A word of the self-test table (R386). -/
def selfTestWord (s : State) (o : Nat) : Nat := leNat ((upFrom o 4).map fun i => tblGet 0#8 s.selfTest i)

/-- A word of the control range of die `d`; reserved and write-only ones read as zero (R7, R106). -/
def ctlGet (s : State) (d o : Nat) : Nat :=
  if o < 0x100 then (if o == 0 && d == 0 then bit s.genable else 0)
  else if o < 0x140 then slotRead s (2 * d + (o - 0x100) / 0x20) (0x100 + o % 0x20)
  else if o < 0x200 then 0
  else if o < 0x280 then slotRead s (2 * d + (o - 0x200) / 0x40) (0x200 + o % 0x40)
  else if o == 0x310 then (s.fe d).stale
  else if o == 0x314 then (s.fe d).lost
  else if o < 0x1000 then 0
  else if o < 0x1200 then
    let q := s.queue d ((o - 0x1000) / 8)
    if o % 8 == 0 then q.vd + 2 ^ 8 * q.pri.toNat + 2 ^ 31 * bit q.en else q.ctag
  else if o < 0x1800 then 0
  else if o < 0x1900 then
    let q := s.queue d ((o - 0x1800) / 4)
    q.wdt.toNat + 2 ^ 31 * bit q.wdx
  else if o < 0x4000 then 0
  else if o < 0x5000 then vdRead s d ((o - 0x4000) / 0x10) (0x4000 + o % 0x10)
  else if o < 0x6000 then 0
  else if o < 0x8000 then
    (if o % 0x20 / 4 < 6 then ((s.vd d ((o - 0x6000) / 0x20)).lsGet (o % 0x20 / 4)).toNat else 0)
  else if o < 0xA000 then vdRead s d ((o - 0x8000) / 0x20) (0x8000 + o % 0x20)
  else if o < 0x100000 then 0
  else if o < 0x200000 then (tblGet 0#32 (s.vd d ((o - 0x100000) / 0x1000)).place (o % 0x1000)).toNat
  else if o < 0x2000000 then 0
  else if o < 0x2000200 then
    let (core, hi) := capmPlace d (o - 0x2000000)
    let x := (s.core core).caps.toNat
    if hi then x / 2 ^ 32 else x % 2 ^ 32
  else if o < 0x3000000 then 0
  else if o < 0x3000048 then rasRead s d (o - 0x3000000)
  else if o < 0x4000000 then 0
  else if o < 0x4800000 then (tblGet 0#32 (s.member d ((o - 0x4000000) / 0x8000) (o % 0x8000 / 0x400)).words (o % 0x400 / 4)).toNat
  else if 0x5000000 ≤ o && o < 0x5020000 && d == 0 then selfTestWord s (o - 0x5000000)
  else if o == 0x6000000 && d == 0 then secctl s
  else 0

/-- REGISTER_WRITE (R7, R293): a whole word of a control range. -/
def execRegisterWrite (die off : Nat) (value : W32) (s : State) : Out :=
  .next (s.written (die % 32) fun s => ctlSet s (die % 32) (off / 4 * 4) value value true)

end Sys2Proof.Machine
end

