-- ==== Sys2Proof/Machine/Sha512.lean ====
section
/-! DEFINITION. The SHA-512 digest of a byte string, which the boot sequence signs and attests (R311, R318, R319). The manual
names the algorithm; its words are those of the public standard (FIPS 180-4). -/

namespace Sys2Proof.Machine

/-- The first eighty primes. -/
def shaPrimes : List Nat :=
  ((List.range 410).filter fun n => decide (1 < n) && (upFrom 2 19).all fun d => decide (n ≤ d) || n % d != 0).take 80

/-- The largest number whose `k`-th power is at most `n`, of 67 bits. -/
def rootBelow (k n : Nat) : Nat :=
  (List.range 67).foldr (fun b r => if (r + 2 ^ b) ^ k ≤ n then r + 2 ^ b else r) 0

/-- The first 64 bits of the fraction of the square root of a prime. -/
def sqrtWord (p : Nat) : W64 := BitVec.ofNat 64 (rootBelow 2 (p * 2 ^ 128))
/-- The first 64 bits of the fraction of the cube root of a prime. -/
def cbrtWord (p : Nat) : W64 := BitVec.ofNat 64 (rootBelow 3 (p * 2 ^ 192))

/-- The eight words of a digest in work. -/
structure ShaWords where
  a : W64
  b : W64
  c : W64
  d : W64
  e : W64
  f : W64
  g : W64
  h : W64
deriving DecidableEq, Repr

/-- The words before the first block. -/
def ShaWords.first : ShaWords :=
  let w (i : Nat) : W64 := sqrtWord (shaPrimes.getD i 0)
  ⟨w 0, w 1, w 2, w 3, w 4, w 5, w 6, w 7⟩

/-- One round, of a constant and a word of the schedule. -/
def ShaWords.round (x : ShaWords) (kw : W64 × W64) : ShaWords :=
  let s1 := x.e.rotateRight 14 ^^^ x.e.rotateRight 18 ^^^ x.e.rotateRight 41
  let ch := (x.e &&& x.f) ^^^ (~~~x.e &&& x.g)
  let t1 := x.h + s1 + ch + kw.1 + kw.2
  let s0 := x.a.rotateRight 28 ^^^ x.a.rotateRight 34 ^^^ x.a.rotateRight 39
  let maj := (x.a &&& x.b) ^^^ (x.a &&& x.c) ^^^ (x.b &&& x.c)
  ⟨t1 + s0 + maj, x.a, x.b, x.c, x.d + t1, x.e, x.f, x.g⟩

/-- The schedule of a block grown by some words, the newest in front. -/
def shaGrow : Nat → List W64 → List W64
  | 0, ws => ws
  | n + 1, ws =>
    let w (i : Nat) : W64 := ws.getD i 0#64
    let s0 := (w 14).rotateRight 1 ^^^ (w 14).rotateRight 8 ^^^ w 14 >>> 7
    let s1 := (w 1).rotateRight 19 ^^^ (w 1).rotateRight 61 ^^^ w 1 >>> 6
    shaGrow n ((s1 + w 6 + s0 + w 15) :: ws)

/-- A number from bytes, the most significant first. -/
def bigNat (bs : List Byte) : Nat := leNat bs.reverse

/-- The digest carried past a block of 128 bytes. -/
def ShaWords.block (ks : List W64) (x : ShaWords) (bs : List Byte) : ShaWords :=
  let ws := (List.range 16).map fun i => BitVec.ofNat 64 (bigNat ((bs.drop (8 * i)).take 8))
  let y := (ks.zip (shaGrow 64 ws.reverse).reverse).foldl ShaWords.round x
  ⟨x.a + y.a, x.b + y.b, x.c + y.c, x.d + y.d, x.e + y.e, x.f + y.f, x.g + y.g, x.h + y.h⟩

/-- The digest carried past some blocks. -/
def ShaWords.blocks (ks : List W64) : Nat → ShaWords → List Byte → ShaWords
  | 0, x, _ => x
  | n + 1, x, bs => ShaWords.blocks ks n (x.block ks bs) (bs.drop 128)

/-- A byte string with its padding: a one bit, zeros, and its length in bits. -/
def shaPad (bs : List Byte) : List Byte :=
  let n := bs.length
  bs ++ 0x80#8 :: List.replicate ((239 - n % 128) % 128) 0#8 ++ (leBytes 16 (8 * n)).reverse

/-- SHA-512: the 64 bytes of the digest. -/
def sha512 (bs : List Byte) : List Byte :=
  let p := shaPad bs
  let x := ShaWords.blocks (shaPrimes.map cbrtWord) (p.length / 128) .first p
  [x.a, x.b, x.c, x.d, x.e, x.f, x.g, x.h].flatMap fun w => (leBytes 8 w.toNat).reverse

end Sys2Proof.Machine
end

