-- ==== Sys2Proof/Machine/Boot.lean ====
section
/-! DEFINITION. Links and lost dies (R15, R363, R371, R372), the security alarm (R392), and boot (R318, R319,
R386, R391). -/

namespace Sys2Proof.Machine

/-! ### Links (R371, R372) -/

/-- A LINKDOWN record of a die, to the ring of every enabled partition with a cluster on it (R354). -/
def linkRecord (s : State) (d detail addr : Nat) : State :=
  let ps := (List.range 64).filter fun p => (s.part p).en && (diesOf (s.part p).base (s.part p).limit).contains d
  ps.foldl (fun (s : State) p => s.post p .ifArmed { cause := .linkdown, detail := detail, addr := addr, novd := true }) s

/-- A die that another one no longer reaches is lost to it, and it posts its LINKDOWN (R372). -/
def loseDie (s : State) (o d : Nat) : State := linkRecord (s.setDie o { s.die o with lost := (s.die o).lost ++ [d] }) o 5 d

/-- The dies that a die no longer reaches after a change of links. -/
def dieLosses (s : State) (o : Nat) : State :=
  ((List.range 32).filter fun d => !s.dieLost o d && unreachable s o d).foldl (fun (s : State) d => loseDie s o d) s

/-- After a change of links every die learns of the ones that it has lost, and collectives with it. -/
def newLosses (s : State) : State := collLosses ((List.range 32).foldl dieLosses s)

/-- LINK_DOWN (R371, R372): both ends clear UP, set DOWN and post LINKDOWN. -/
def execLinkDown (die link : Nat) (s : State) : Out :=
  let d := die % 32
  if link < 5 && (s.die d).up.getLsbD link then
    if link == 4 then .next (linkRecord (s.setDie d ((s.die d).setLink 4 false)) d 4 0)
    else
      let e := linkPeer d link
      let s := s.setDie d ((s.die d).setLink link false)
      let s := s.setDie e ((s.die e).setLink (linkBack link) false)
      .next (newLosses (linkRecord (linkRecord s d link 0) e (linkBack link) 0))
  else .next s

/-- LINK_UP (R363, R371): the link has trained; a die that is reached again is no longer lost. -/
def execLinkUp (die link : Nat) (s : State) : Out :=
  let d := die % 32
  if link < 4 then
    let e := linkPeer d link
    let s := s.setDie d ((s.die d).setLink link true)
    let s := s.setDie e ((s.die e).setLink (linkBack link) true)
    .next ((List.range 32).foldl (fun (s : State) o =>
      s.setDie o { s.die o with lost := (s.die o).lost.filter fun x => unreachable s o x }) s)
  else if link == 4 then .next (s.setDie d ((s.die d).setLink 4 true))
  else .next s

/-! ### The security alarm (R392, R394) -/

/-- SECURITY_ALARM: SECCTL is set, ALARM is sent, and the armed actions follow. -/
def execSecurityAlarm (src : BitVec 5) (s : State) : Out :=
  if src == 0#5 then .next s
  else
    let s : State := { s with alarm := true, alarmSrc := s.alarmSrc ||| src }
    let s := s.sendMsg 0 (msgHead 7 0 0x80 s.alarmSrc.toNat 0 ++ leBytes 8 s.timeNs)
    let s := if s.haltArm then { (if s.genable then genableOff s else s) with haltedAt := some s.clock } else s
    .next (if s.eraseArm then { s with keysErased := true } else s)

/-! ### Boot (R318, R319) -/

/-- A field of the configuration record, little-endian. -/
def recField (r : List Byte) (o n : Nat) : Nat := leNat ((r.drop o).take n)

/-- The record is well formed and for this module (R319). -/
def recordOk (r : List Byte) : Bool :=
  r.length == 16960 && recField r 0 4 == 1 && recField r 4 4 == 16960 &&
    (recField r 8 8 == 0 || recField r 8 8 == Config.moduleId.toNat) && recField r 32 4 / 4 == 0 &&
    recField r 36 28 == 0 && (List.range 2048).all fun i => recField r (64 + 8 * i) 8 / 2 ^ 50 == 0

/-- A boot fails (R311, R318). -/
def bootFails (s : State) (step reason : Nat) : State :=
  ({ s with boot := .failed } : State).sendMsg 0 (msgHead 6 0 0x80 step 0 ++ leBytes 1 reason ++ leBytes 7 0)

/-- Every Ultra Ethernet port has trained its link (R318, step 1). -/
def portsTrained (s : State) : Bool := (List.range 32).all fun d => (s.die d).up.getLsbD 4

/-- The digests that the attestation covers: of the image, and of the whole record (R311, R319). -/
def bootDigests (record image : List Byte) : List Byte := sha512 image ++ sha512 record

/-- SIG of a record checks (R319). -/
def recordSigned (r : List Byte) : Bool := Config.signatureChecks (sha512 (r.take 16448)) ((r.drop 16448).take 512)

/-- The signature of an image checks (R318). -/
def imageSigned (image : List Byte) : Bool :=
  let (body, sig) := Config.imageParts image
  Config.signatureChecks (sha512 body) sig

/-- BOOT_RECORD (R318, R319, R391): the boot endpoint takes a record and an image, and step 3 checks them; boot messages go
to the endpoint that has sent them (R311). DESIGN CHOICE: where a record breaks several checks of step 3, BOOTFAIL names the first
of: its form, its signature, the signature of the image (log entry 100). -/
def execBootRecord (sent : BootSend) (image : List Byte) (s : State) : Out :=
  let record := sent.record
  let takes := (s.boot == .waiting || s.boot == .failed) && (s.die 0).up.getLsbD 4
  let t : State := { s with bootFrom := sent.sender }
  if !takes then .next s
  else if s.boot == .waiting && !portsTrained s then .next (bootFails t 1 0)
  else if 2 ^ 26 < image.length then .next (bootFails t 2 4)
  else if !recordOk record then .next (bootFails t 3 1)
  else if !recordSigned record then .next (bootFails t 3 2)
  else if !imageSigned image then .next (bootFails t 3 3)
  else .next { t with boot := .testing, record := record, attest := bootDigests record image }

/-- The failures that the self-test table counts (R386): set bits of its masks, and the granules of its
counts. -/
def failures (s : State) : Nat :=
  let bits (n x : Nat) : Nat := (setBits n x).length
  (List.range 32).foldl (fun t d =>
    let w (o : Nat) : Nat := selfTestWord s (0x1000 * d + o)
    let cores := (List.range 128).foldl (fun t i => t + bits 32 (w (4 * i))) 0
    let tenders := (List.range 24).foldl (fun t i => t + bits 9 (w (0x200 + 4 * i))) 0
    t + cores + tenders + bits 5 (w 0x280) + w 0x284 + w 0x288) 0

/-- Step 5 of R318: the record loads the fields marked "cfg" and the response endpoint. -/
def loadRecord (s : State) : State :=
  let r := s.record
  let cores := (List.range 2048).foldl (fun (s : State) k =>
    s.setCore k { s.core k with capm := BitVec.ofNat 64 (recField r (64 + 8 * k) 8), capmBad := false }) s
  let arm := recField r 32 4
  { cores with haltArm := testBit arm 1, eraseArm := testBit arm 0, respep := (r.drop 16).take 16 }

/-- Step 6 of R318: BOOTDONE, attested while the keys exist, and the boot endpoint closes. -/
def bootDone (s : State) : State :=
  let body := leBytes 4 (failures s) ++ leBytes 4 0 ++ s.attest
  let s : State := { s with boot := .open }
  if s.keysErased then s.sendMsg 0 (msgHead 5 0 0x80 1 0 ++ body)
  else
    let signed := msgHead 5 0 0x80 0 0 ++ body
    s.sendMsg 0 (signed ++ (List.range 512).map (Config.signatureByte (sha512 signed)))

/-- SELF_TEST_DONE (R318, R386): the results are written, the record is loaded, and boot is over; without any
result the self-test has not completed. -/
def execSelfTestDone (results : List (Nat × Byte)) (s : State) : Out :=
  if s.boot != .testing then .next s
  else if results.isEmpty then .next (bootFails s 4 5)
  else
    let t := results.foldl (fun t x => tblSet 0#8 t x.1 x.2) s.selfTest
    .next (bootDone (loadRecord { s with selfTest := t }))

end Sys2Proof.Machine
end

