-- ==== Sys2Proof/Machine/Capture.lean ====
section
/-! DEFINITION. Background capture (R115, R116, R364, R375): its start, and the preservation of one page. -/

namespace Sys2Proof.Machine

/-- CAPTURE_START (R115): the host writes CAPCTL of a virtual device. -/
def execCaptureStart (vd : Nat) (value : W32) (s : State) : Out :=
  match s.feOf vd with
  | some f => .next (s.written f fun s => s.setVd f vd ((s.vd f vd).capctlWrite value))
  | none => .next s

/-- The leaves below a table, in ascending virtual address (R112, R113). -/
def State.leaves (s : State) : List (Nat × Nat × Nat) → Nat → Nat → List Leaf
  | [], _, _ => []
  | (lvl, sh, n) :: rest, table, base =>
    (List.range (2 ^ n)).flatMap fun i =>
      let a := table + 8 * i
      let x := leNat (s.mscRead a 8)
      let va := base + i * 2 ^ sh
      if !pteV x || pteMalformed lvl (2 ^ sh) x then []
      else if pteL x then [⟨a, x, va, 2 ^ sh⟩]
      else s.leaves rest (ptePa x) va

/-- The pages of a device that its capture has not preserved (R116). -/
def capturePages (s : State) (f v : Nat) : List Leaf :=
  let d := s.vd f v
  (s.leaves walkLevels d.root 0).filter fun l => pteC l.val && pteGen l.val != d.genc

/-- The page that is preserved next may be any to which a write is held, else the lowest one left (R116). -/
def pageNext (s : State) (space : Nat) (ps : List Leaf) (l : Leaf) : Bool :=
  if ps.any fun p => s.wanted.contains (space, p.pte) then s.wanted.contains (space, l.pte)
  else (ps.head?.map (·.base)) == some l.base

/-- The copy of a page to another address, page by page of the destination; `none` where a translation
fails. -/
def captureCopy (s : State) (f v : Nat) (src : Nat) (bad : Bool) : List (Nat × Nat × Nat) → State × Bool
  | [] => (s, true)
  | (o, va, n) :: rest =>
    let w := BitVec.ofNat 64 va
    match s.xlatNow (homeDie src) (256 * f + v) w .write false with
    | (.fail l d b z, s) => ((s.pageRequest f v l d b z w .write .engine).2, false)
    | (.miss _, s) => (s, false)
    | (.busy, s) => (s, false)
    | (.hit t, s) =>
      let pa := t.phys va
      let s := s.touchLines (s.vd f v).part.toNat (src + o) n
      let s := (s.touchLines (s.vd f v).part.toNat pa n).mscWrite pa (s.mscRead (src + o) n)
      let granule (i : Nat) : Bool := s.memPoisoned (src + o + i) 1
      let s := if bad then ((List.range n).filter granule).foldl (fun (s : State) i => s.poisonMem (pa + i) 1) s else s
      captureCopy s f v src bad rest

/-- GEN of a leaf and of its copies in the TLBs := GENC. -/
def setGeneration (s : State) (space : Nat) (l : Leaf) (g : Bool) : State :=
  let x := leNat (s.mscRead l.pte 8)
  let y := x % 2 ^ 58 + 2 ^ 58 * bit g + x / 2 ^ 59 * 2 ^ 59
  let s := s.mscWrite l.pte (leBytes 8 y)
  let put (e : TlbEntry) : TlbEntry := if e.space == space && e.base == l.base && e.size == l.size then { e with gen := g } else e
  { s with
    cores := s.cores.map fun x => (x.1, { x.2 with tlb := x.2.tlb.map put })
    clusterTlb := s.clusterTlb.map fun x => (x.1, x.2.map put) }

/-- The capture of a device is over when no page is left: BUSY := 0 and CAPDONE (R116, R310, R311). -/
def captureOver (s : State) (f v : Nat) : State :=
  if (capturePages s f v).isEmpty then
    let d := s.vd f v
    (s.setVd f v { d with busy := false }).sendMsg f (msgHead 4 v 0 (bit d.genc) f ++ leBytes 8 s.timeNs)
  else s

/-- A page preserved in the three steps of R116. -/
def preservePage (s : State) (f v : Nat) (l : Leaf) : State :=
  let d := s.vd f v
  let pa := ptePa l.val
  let level := s.memPoison? pa l.size
  let bad := level.isSome
  let s := s.markLeaf (256 * f + v) l.pte true false
  let (s, ok) := captureCopy s f v pa bad (pageSplit ((l.base + d.capoff.toNat) % 2 ^ 64) l.size)
  if ok then
    let s := setGeneration { s with wanted := s.wanted.filter (· != (256 * f + v, l.pte)) } (256 * f + v) l d.genc
    let p := d.part.toNat
    let s := if bad then s.post p .ifArmed { cause := .poisonp, detail := level.getD 5, addr := l.base, ak := 5, vd := v, part := p } else s
    captureOver s f v
  else s

/-- PAGE_PRESERVE (R116): a page to which a write is held is preserved next, else the lowest one left. -/
def execPagePreserve (vd : Nat) (va : W64) (s : State) : Out :=
  match (List.range 32).find? fun f => (s.vd f vd).busy with
  | none => .next s
  | some f =>
    let ps := capturePages s f vd
    if ps.isEmpty then .next (captureOver s f vd)
    else
      match ps.find? fun l => decide (l.base ≤ va.toNat) && decide (va.toNat < l.base + l.size) with
      | none => .next s
      | some l => if pageNext s (256 * f + vd) ps l then .next (preservePage s f vd l) else .next s

end Sys2Proof.Machine
end

