-- ==== Sys2Proof/Machine/Special.lean ====
section
/-! DEFINITION. The special functions (R98, R199). The manual gives a bound on each result and exact
points; inside the bound the value is open. A result is the free candidate when it meets the bound,
and otherwise the rounded reference, so every value the bound admits can occur and no other. The
reference is computed in fixed point with 300 fraction bits. -/

namespace Sys2Proof.Machine

/-- The special functions. -/
inductive SpecialFn where
  | rcp | rsq | exp2 | log2 | sin | cos | tanh
deriving DecidableEq, Repr

/-- ln 2 × 2^300, rounded down. -/
def fixLn2 : Nat :=
  0xb17217f7d1cf79abc9e3b39803f2f6af40f343267298b62d8a0d175b8baafa2be7b876206de

/-- 2π × 2^300, rounded down. -/
def fixTwoPi : Nat :=
  0x6487ed5110b4611a62633145c06e0e68948127044533e63a0105df531d89cd9128a5043cc71a

/-- One in fixed point. -/
def fixOne : Nat := 2 ^ 300

/-- The exponential series: the sum of terms from the `k`-th on, the current term given. -/
def expSeries : Nat → Nat → Nat → Nat → Nat
  | 0, _, _, _ => 0
  | n + 1, k, x, term => term + expSeries n (k + 1) x (term * x / fixOne / (k + 1))

/-- e^x for 0 ≤ x in fixed point. -/
def fixExp (x : Nat) : Nat := expSeries 100 0 x fixOne

/-- The alternating series of sine and cosine: terms in x², the current term and its index given. -/
def trigSeries : Nat → Nat → Int → Int → Int
  | 0, _, _, _ => 0
  | n + 1, k, x2, term => term + trigSeries n (k + 2) x2 (-(term * x2 / fixOne) / ((k + 1) * (k + 2) : Nat))

/-- The series of the logarithm of (1 + z)/(1 - z). -/
def logSeries : Nat → Nat → Nat → Nat → Nat
  | 0, _, _, _ => 0
  | n + 1, k, z2, pow => pow / k + logSeries n (k + 2) z2 (pow * z2 / fixOne)

/-- A magnitude m × 2^e in fixed point. -/
def toFix (m : Nat) (e : Int) : Nat := if 0 ≤ e + 300 then m * 2 ^ (e + 300).toNat else m / 2 ^ (-(e + 300)).toNat

/-- The reference of a function at the finite nonzero ±m × 2^e: a signed coefficient and its exponent. -/
def specialRef (f : SpecialFn) (s : Bool) (m : Nat) (e : Int) : Int × Int :=
  let sg (x : Int) : Int := if s then -x else x
  match f with
  | .rcp => (sg ((2 ^ (64 + 2 * Nat.log2 m) / m : Nat) : Int), -e - (64 + 2 * Nat.log2 m : Nat))
  | .rsq =>
    -- 1/√(m × 2^e), with an even exponent
    let k : Nat := if e % 2 == 0 then 0 else 1
    let m' := m * 2 ^ k
    ((isqrt (2 ^ 400 / m') : Nat), -(e - k) / 2 - 200)
  | .exp2 =>
    let x := toFix m e
    let i := x / fixOne
    let fr := x % fixOne
    -- at or below -256 the result lies within 2^-256 of 0, far below half an ulp
    if s && 8 ≤ magLog m e then (1, -400)
    else if s then
      -- 2^-x = 2^(-i-1) × 2^(1-fr)
      (((fixExp ((fixOne - fr) * fixLn2 / fixOne) : Nat) : Int), -300 - (i : Int) - 1)
    else (((fixExp (fr * fixLn2 / fixOne) : Nat) : Int), -300 + (i : Int))
  | .log2 =>
    let k := magLog m e
    let y := toFix m (e - k)
    let z := (y - fixOne) * fixOne / (y + fixOne)
    let ln := 2 * logSeries 140 1 (z * z / fixOne) z
    (k * fixOne + (ln * fixOne / fixLn2 : Nat), -300)
  | .sin =>
    let r : Int := (toFix m e % fixTwoPi : Nat)
    let r := if (fixTwoPi : Int) < 2 * r then r - fixTwoPi else r
    (sg (trigSeries 60 1 (r * r / fixOne) r), -300)
  | .cos =>
    let r : Int := (toFix m e % fixTwoPi : Nat)
    let r := if (fixTwoPi : Int) < 2 * r then r - fixTwoPi else r
    (trigSeries 60 0 (r * r / fixOne) fixOne, -300)
  | .tanh =>
    let x := toFix m e
    let two := 2 * x
    -- e^2x by halving the argument until the series converges fast
    let a := fixExp (two / 32)
    let sq (y : Nat) : Nat := y * y / fixOne
    let y := sq (sq (sq (sq (sq a))))
    if x < 2 ^ 200 then
      -- x - x³/3 near zero, where the quotient would lose its digits
      (sg ((x : Int) - (x * x / fixOne * x / fixOne / 3 : Nat)), -300)
    else (sg (((y - fixOne) * fixOne / (y + fixOne) : Nat) : Int), -300)

/-- The bound of R98 as a coefficient and an exponent: 1 or 2 ulp of the result, or an absolute one. -/
def specialBound (f : SpecialFn) (m : Nat) (e : Int) (ref : Int × Int) : Nat × Int :=
  let ulp : Int := max (magLog ref.1.natAbs ref.2) (-126) - 23
  match f with
  | .rcp => (1, ulp)
  | .rsq | .exp2 | .tanh => (2, ulp)
  | .log2 =>
    -- x in [0.5, 2]
    let k := magLog m e
    if k == -1 || k == 0 || (k == 1 && m == 2 ^ Nat.log2 m) then (1, -22) else (2, ulp)
  | .sin | .cos => (1, -21)

/-- Whether a finite candidate lies within a bound of a reference. -/
def withinBound (cand : Bool × Nat × Int) (ref : Int × Int) (bound : Nat × Int) : Bool :=
  let g := min (min cand.2.2 ref.2) bound.2
  let c := coeffAt cand.1 cand.2.1 cand.2.2 g
  let r := coeffAt (decide (ref.1 < 0)) ref.1.natAbs ref.2 g
  decide ((c - r).natAbs ≤ bound.1 * 2 ^ (bound.2 - g).toNat)

/-- A result inside the bound of R98: the free candidate if it meets it, else the reference rounded. -/
def specialOpen (f : SpecialFn) (free : W64) (s : Bool) (m : Nat) (e : Int) : FVal :=
  let ref := specialRef f s m e
  match unpack .f32 (free.toNat % 2 ^ 32) with
  | .fin cs cm ce =>
    let trig := f == .sin || f == .cos || f == .tanh
    let one := !trig || cmpVals (.fin false cm ce) (.fin false 1 0) != .gt
    if one && withinBound (cs, cm, ce) ref (specialBound f m e ref) then .fin cs cm ce
    else ofCoeff ref.1 ref.2 false
  | _ => ofCoeff ref.1 ref.2 false

/-- The power of two that a magnitude is, if it is one. -/
def powerOfTwo (m : Nat) (e : Int) : Option Int :=
  if m == 2 ^ Nat.log2 m then some (magLog m e) else none

/-- The integer a magnitude is, if it is one. -/
def integerOf (m : Nat) (e : Int) : Option Nat :=
  if 0 ≤ e then some (m * 2 ^ e.toNat)
  else if m % 2 ^ (-e).toNat == 0 then some (m / 2 ^ (-e).toNat) else none

/-- The `.f32` form on a source value (R98): the exact points and special values, then the open ones. FRCP has no exact point
where 1/2^k is not normal. -/
def special32 (f : SpecialFn) (free : W64) (v : FVal) : FVal :=
  match v with
  | .nan s q fr fw => .nan s q fr fw
  | .inf s =>
    match f with
    | .rcp => .fin s 0 0
    | .rsq => if s then .cnan else .fin false 0 0
    | .exp2 => if s then .fin false 0 0 else .inf false
    | .log2 => if s then .cnan else .inf false
    | .sin | .cos => .cnan
    | .tanh => .fin s 1 0
  | .fin s m e =>
    if m == 0 then
      match f with
      | .rcp => .inf s
      | .rsq => .inf s
      | .exp2 => .fin false 1 0
      | .log2 => .inf true
      | .sin | .tanh => .fin s 0 0
      | .cos => .fin false 1 0
    else
      match f with
      | .rcp =>
        match powerOfTwo m e with
        | some k => if -k < -126 || 127 < -k then specialOpen f free s m e else .fin s 1 (-k)
        | none => specialOpen f free s m e
      | .rsq =>
        if s then .cnan
        else match powerOfTwo m e with
          | some k => if k % 2 == 0 then .fin false 1 (-k / 2) else specialOpen f free s m e
          | none => specialOpen f free s m e
      | .exp2 =>
        match integerOf m e with
        | some k =>
          if s then (if k ≤ 149 then .fin false 1 (-(k : Int)) else specialOpen f free s m e)
          else if 128 ≤ k then .inf false else .fin false 1 k
        | none =>
          if !s && 8 ≤ magLog m e then .inf false else specialOpen f free s m e
      | .log2 =>
        if s then .cnan
        else match powerOfTwo m e with
          | some k => ofInt k
          | none => specialOpen f free s m e
      | .sin | .cos => specialOpen f free s m e
      | .tanh =>
        if cmpVals (.fin false m e) (.fin false 10 0) == .lt then specialOpen f free s m e
        else .fin s 1 0

/-- A special function on one element (R98, R199): the source is after DAZ. -/
def specialElement (f : SpecialFn) (t : Ty) (nanc ftz : Bool) (free : W64) (v : FVal) : FRes :=
  let r := special32 f free v
  if t == .f32 then deliver .f32 ⟨.rne, nanc, false, ftz⟩ r
  else
    let x := deliver .f32 ⟨.rne, nanc, false, false⟩ r
    deliver .f16 ⟨.rne, nanc, false, false⟩ (unpack .f32 x.bits)

end Sys2Proof.Machine
end

