-- ==== Sys2Proof/Machine/Float.lean ====
section
/-! DEFINITION. Floating-point instructions (R192 to R201). -/

namespace Sys2Proof.Machine

/-- The format of one element of a type: `.f32x2` has two of `.f32`. -/
def elemTy (t : Ty) : Ty := if t == .f32x2 then .f32 else t

/-- The values of an element of a source after DAZ (R96). -/
def fltElement (t : Ty) (fmt : W32) (x k : Nat) : FVal := dazValue (elemTy t) fmt (element x (elemWidth t) k)

/-- The results of a lane packed from their elements, with the condition of R190 over the lane's source elements. -/
def fltRes (t : Ty) (srcs : List FVal) (rs : List FRes) : LaneRes :=
  { d := tyWords t (packElements (elemWidth t) (rs.map (·.bits))), ovf := raises srcs rs }

/-- The numbers of the elements of a result of a type. -/
def elemsOf (t : Ty) : List Nat := List.range (tyBits t / elemWidth t)

/-- An element-wise floating-point instruction of `n` sources: the exact value of each element, with
whether a nonzero tail follows, rounded and delivered (R88, R89, R96). -/
def fltLane (c : Ctx) (w : ArithOp) (n : Nat) (f : Bool → FVal → FVal → FVal → FVal × Bool) (l : Nat) : LaneRes :=
    let fmt := c.f.fmt
    let mode := rmode w.rnd fmt (c.g.lane l).srs
    let src (x : Src) (k : Nat) : FVal := fltElement w.ty fmt (c.src l w.ty x w.imm) k
    fltRes w.ty ((elemsOf w.ty).flatMap fun k => ([w.a, w.b, w.c].take n).map fun x => src x k)
      ((elemsOf w.ty).map fun k =>
        let v := f mode.isRdn (src w.a k) (src w.b k) (src w.c k)
        deliver (elemTy w.ty) (fctl (elemTy w.ty) mode w.sat fmt) v.1 v.2)

/-- Such an instruction, without lookahead. -/
def fltArith (s : State) (c : Ctx) (w : ArithOp) (n : Nat) (f : Bool → FVal → FVal → FVal → FVal × Bool) : Out :=
  alu s c w.toCommon false 7 (srcs3 w.toCommon) (fltLane c w n f)

/-- Such an instruction that honours lookahead (R148). -/
def fltLook (s : State) (c : Ctx) (w : ArithOp) (n : Nat) (f : Bool → FVal → FVal → FVal → FVal × Bool) : Out :=
  aluLook s c w.toCommon false 7 (srcs3 w.toCommon) (fltLane c w n f)

/-- A value unless a source is a NaN, which is then taken (R83). -/
def nanElse (srcs : List FVal) (v : FVal) : FVal := (firstNan srcs).getD v

/-- FADD (R192). -/
def execFadd (w : ArithOp) (s : State) : Out :=
  issuing s (.fadd w) fun c => fltArith s c w 2 fun rdn x y _ => (sumVals rdn [x, y], false)
/-- FMUL (R192). -/
def execFmul (w : ArithOp) (s : State) : Out :=
  issuing s (.fmul w) fun c => fltArith s c w 2 fun _ x y _ => (nanElse [x, y] (mulVals x y), false)
/-- FFMA: rounds once (R192). -/
def execFfma (w : ArithOp) (s : State) : Out :=
  issuing s (.ffma w) fun c => fltArith s c w 3 fun rdn x y z => (nanElse [x, y, z] (sumVals rdn [mulVals x y, z]), false)
/-- FMIN (R193). -/
def execFmin (w : ArithOp) (s : State) : Out :=
  issuing s (.fmin w) fun c => fltArith s c w 2 fun _ x y _ => (minMaxVals false x y, false)
/-- FMAX (R193). -/
def execFmax (w : ArithOp) (s : State) : Out :=
  issuing s (.fmax w) fun c => fltArith s c w 2 fun _ x y _ => (minMaxVals true x y, false)

/-- The bit of the relation of two values in the mask of FCMP: L, E, G, U (R194). -/
def relationBit (x y : FVal) : Nat :=
  if x.isNan || y.isNan then 3
  else
    match cmpVals x y with
    | .lt => 0
    | .eq => 1
    | .gt => 2

/-- FCMP (R194): element 0 of a 16-bit type. -/
def execFcmp (w : ArithOp) (s : State) : Out :=
  issuing s (.fcmp w) fun c =>
    alu s c w.toCommon true (arithPd w) (srcs3 w.toCommon) fun l =>
      let x := fltElement w.ty c.f.fmt (c.src l w.ty w.a w.imm) 0
      let y := fltElement w.ty c.f.fmt (c.src l w.ty w.b w.imm) 0
      let r := w.mode.getLsbD (relationBit x y)
      { d := maskWords 1 r, pd := some (r && arithPs w (c.g.lane l)) }

/-- A value rounded to an integral one, keeping its sign (R195). -/
def integral (mode : RMode) : FVal → FVal
  | .fin n m e => .fin n (roundTo mode n m e false 0) 0
  | v => v

/-- FRND (R195). -/
def execFrnd (w : ArithOp) (s : State) : Out :=
  issuing s (.frnd w) fun c =>
    alu s c w.toCommon false 7 (srcs3 w.toCommon) fun l =>
      let fmt := c.f.fmt
      let mode := rmode w.rnd fmt 0#32
      let xs := (elemsOf w.ty).map (fltElement w.ty fmt (c.src l w.ty w.a w.imm))
      fltRes w.ty xs (xs.map fun x => deliver (elemTy w.ty) (fctl (elemTy w.ty) .rne false fmt) (integral mode x))

/-- Elements converted in ascending order, the generator advanced before each one under SR (R94). -/
def convertEach (rnd : Rnd) (fmt : W32) (f : RMode → FVal → FRes) : W32 → List FVal → List FRes × W32
  | srs, [] => ([], srs)
  | srs, x :: xs =>
    let srs := if rnd == .sr then srsAdvance srs else srs
    let r := f (rmode rnd fmt srs) x
    let (rs, srs) := convertEach rnd fmt f srs xs
    (r :: rs, srs)

/-- Elements put into a word from position `k` on, over a base. -/
def placeElements (w k base : Nat) (es : List Nat) : Nat :=
  ((List.range es.length).zip es).foldl (fun x e => setElement x w (k + e.1) e.2) base

/-- FCVT (R196). -/
def execFcvt (w : ArithOp) (s : State) : Out :=
  issuing s (.fcvt w) fun c =>
    let st := Ty.ofCode w.mode
    let n := cvtCount w.ty st
    alu s c w.toCommon false 7 [(w.a.op, st.regs), (w.c.op, 1)] fun l =>
      let fmt := c.f.fmt
      let t := c.g.lane l
      let a := c.src l st w.a w.imm
      let xs := (List.range n).map fun k => dazValue st fmt (element a st.width k)
      let (rs, srs) := convertEach w.rnd fmt (fun m x => deliver w.ty (fctl w.ty m w.sat fmt) x) t.srs xs
      let base := if w.c.op == .none then 0 else c.src l w.ty w.c w.imm
      let base := if w.ty.isPair then 0 else base
      { d := tyWords w.ty (placeElements w.ty.width (n * (w.ext.toNat % 8)) base (rs.map (·.bits)))
        ovf := raises xs rs
        srs := if w.rnd == .sr then some srs else none }

/-- F2I (R197). -/
def execF2i (w : ArithOp) (s : State) : Out :=
  issuing s (.f2i w) fun c =>
    let st := Ty.ofCode w.mode
    alu s c w.toCommon false 7 [(w.a.op, st.regs)] fun l =>
      let x := dazValue st c.f.fmt (element (c.src l st w.a w.imm) st.width 0)
      let (v, clamped) := toIntType (rmode w.rnd c.f.fmt 0#32) w.ty.isSignedInt w.ty.width x
      { d := intWords w.ty v, ovf := clamped }

/-- An integer as a value; R197 gives R90 the sign of a zero. DEDUCED: an integer 0 has no addends of one sign, so its
result is −0 under RDN and +0 in every other mode. -/
def ofIntMode (mode : RMode) (v : Int) : FVal := if v == 0 then .fin mode.isRdn 0 0 else ofInt v

/-- I2F (R197): a 16-bit result is placed as FCVT places it. -/
def execI2f (w : ArithOp) (s : State) : Out :=
  issuing s (.i2f w) fun c =>
    let st := Ty.ofCode w.mode
    alu s c w.toCommon false 7 [(w.a.op, st.regs), (w.c.op, 1)] fun l =>
      let fmt := c.f.fmt
      let x := readInt st.isSignedInt st.width (element (c.src l st w.a w.imm) st.width 0)
      let mode := rmode w.rnd fmt 0#32
      let r := deliver w.ty (fctl w.ty mode w.sat fmt) (ofIntMode mode x)
      let base := if w.c.op == .none || w.ty.width != 16 then 0 else c.src l w.ty w.c w.imm
      { d := tyWords w.ty (placeElements w.ty.width (w.ext.toNat % 8) base [r.bits]), ovf := r.special }

/-- FDIV (R198). -/
def execFdiv (w : ArithOp) (s : State) : Out :=
  issuing s (.fdiv w) fun c => fltLook s c w 2 fun _ x y _ =>
    match firstNan [x, y] with
    | some v => (v, false)
    | none => divVals x y
/-- FSQRT (R198). -/
def execFsqrt (w : ArithOp) (s : State) : Out :=
  issuing s (.fsqrt w) fun c => fltLook s c w 1 fun _ x _ _ => sqrtVal x

/-- A special function (R199): each open result draws a free value inside its bound (R98). -/
def specialOp (s : State) (c : Ctx) (w : ArithOp) (f : SpecialFn) : Out :=
  aluLook s.drawn c w.toCommon false 7 (srcs3 w.toCommon) fun l =>
    let fmt := c.f.fmt
    let src (k : Nat) : FVal := fltElement w.ty fmt (c.src l w.ty w.a w.imm) k
    let ks := List.range (32 / w.ty.width)
    fltRes w.ty (ks.map src) (ks.map fun k =>
      specialElement f w.ty (fmtNanc fmt) (fmtFtz w.ty fmt) (Config.freeWord s.freeCtr (2 * l + k)) (src k))

/-- FRCP (R98, R199). -/
def execFrcp (w : ArithOp) (s : State) : Out := issuing s (.frcp w) fun c => specialOp s c w .rcp
/-- FRSQ (R98, R199). -/
def execFrsq (w : ArithOp) (s : State) : Out := issuing s (.frsq w) fun c => specialOp s c w .rsq
/-- FEXP2 (R98, R199). -/
def execFexp2 (w : ArithOp) (s : State) : Out := issuing s (.fexp2 w) fun c => specialOp s c w .exp2
/-- FLOG2 (R98, R199). -/
def execFlog2 (w : ArithOp) (s : State) : Out := issuing s (.flog2 w) fun c => specialOp s c w .log2
/-- FSIN (R98, R199). -/
def execFsin (w : ArithOp) (s : State) : Out := issuing s (.fsin w) fun c => specialOp s c w .sin
/-- FCOS (R98, R199). -/
def execFcos (w : ArithOp) (s : State) : Out := issuing s (.fcos w) fun c => specialOp s c w .cos
/-- FTANH (R98, R199). -/
def execFtanh (w : ArithOp) (s : State) : Out := issuing s (.ftanh w) fun c => specialOp s c w .tanh

/-- FCLASS (R200): no flush control acts. MODE 1 has the mask in IMM. -/
def execFclass (w : ArithOp) (s : State) : Out :=
  issuing s (.fclass w) fun c =>
    let test := w.mode == 1#4
    alu s c w.toCommon test (arithPd w) (srcs3 w.toCommon) fun l =>
      let k := classOf w.ty (element (c.src l w.ty w.a w.imm) w.ty.width 0)
      if test then { pd := some (w.imm.getLsbD k) } else { d := [BitVec.ofNat 32 (2 ^ k)] }

/-- FSCALB (R201): B is a signed 32-bit exponent; beyond ±8,192 every result is that of ±8,192. -/
def execFscalb (w : ArithOp) (s : State) : Out :=
  issuing s (.fscalb w) fun c =>
    alu s c w.toCommon false 7 [(w.a.op, w.ty.regs), (w.b.op, 1)] fun l =>
      let fmt := c.f.fmt
      let mode := rmode w.rnd fmt 0#32
      let b : Int := max (-8192) (min 8192 (toSigned 32 (c.src l .i32 w.b w.imm)))
      let xs := (List.range (tyBits w.ty / w.ty.width)).map (fltElement w.ty fmt (c.src l w.ty w.a w.imm))
      fltRes w.ty xs (xs.map fun x => deliver w.ty (fctl w.ty mode w.sat fmt) (scaleVal b x))

/-- The mantissa of FFREXP: the value scaled into [0.5, 1) (R201). -/
def frexpMan : FVal → FVal
  | .fin n m e => if m == 0 then .fin n m e else .fin n m (-(Nat.log2 m : Int) - 1)
  | v => v

/-- The exponent word of FFREXP (R201). -/
def frexpExp : FVal → W32
  | .nan _ _ _ _ => 0x80000000#32
  | .inf _ => 0x7FFFFFFF#32
  | .fin _ m e => if m == 0 then 0#32 else BitVec.ofInt 32 (magLog m e + 1)

/-- FFREXP (R201). -/
def execFfrexp (w : ArithOp) (s : State) : Out :=
  issuing s (.ffrexp w) fun c =>
    alu s c w.toCommon false 7 (srcs3 w.toCommon) fun l =>
      let fmt := c.f.fmt
      let x := fltElement w.ty fmt (c.src l w.ty w.a w.imm) 0
      if w.mode == 1#4 then { d := [frexpExp x] }
      else
        let r := deliver w.ty (fctl w.ty .rne false fmt) (frexpMan x)
        fltRes w.ty [x] [r]

end Sys2Proof.Machine
end

