-- ==== Sys2Proof/Machine/CrossLane.lean ====
section
/-! DEFINITION. Cross-lane instructions (R206 to R213). They act within the group of the issuing fragment,
on its participating lanes, and never reach another group. -/

namespace Sys2Proof.Machine

/-- The frame of a cross-lane instruction: a poisoned source of a participating lane stops it; else its
predicates, its flag XEMP and its results are written by `place`, and the fragment goes on. DESIGN CHOICE: the flag is written
at issue where the result waits for its window, of which R51 speaks for registers. -/
def crossWith (place : Group → List (RegLoc × W32) → Group) (s : State) (c : Ctx) (w : ArithOp) (spans : List (Opnd × Nat)) (pd : Nat)
    (preds : List (Nat × Bool)) (xemp : Option Bool) (ws : List (RegLoc × W32)) : Out :=
  let ls := c.acting w.guard
  if ls.any fun l => spans.any fun o => c.poisoned l o.1 o.2 then trapOut s c poisonTrap
  else
    let ps := preds.map fun p => (RegLoc.pred p.1 pd, if p.2 then 1#32 else 0#32)
    let s := s.putGroup c (place c.g (ps ++ ws))
    let s := match xemp with
      | some b => s.mapFrag c.agent fun f => { f with xemp := b }
      | none => s
    finish s c

/-- The frame of one that honours lookahead (R148). -/
def crossOp (s : State) (c : Ctx) (w : ArithOp) : List (Opnd × Nat) → Nat → List (Nat × Bool) → Option Bool →
    List (RegLoc × W32) → Out :=
  crossWith (fun g ws => g.result c.f.fid w.la.toNat ws) s c w

/-- A result written per participating lane, or once when D names an S register (R206). -/
def groupDest (c : Ctx) (w : ArithOp) (ws : List W32) : List (RegLoc × W32) :=
  if writesScalar w.d then destLocs w.d 0 ws else (c.acting w.guard).flatMap fun l => destLocs w.d l ws

/-- The words of a lane mask: one, or a pair at width 64 (R209). -/
def maskWordsOf (width : Nat) (ls : List Nat) : List W32 :=
  words (if width == 64 then 64 else 32) (lanesMask ls).toNat

/-- The source lane of LRD (R208), where it is a number. -/
def lrdLane (mode width i b : Nat) : Option Nat :=
  match mode with
  | 0 => some b
  | 1 => some ((i + b) % width)
  | 2 => if 0 ≤ (i : Int) + toSigned 32 b then some ((i : Int) + toSigned 32 b).toNat else none
  | _ => some (i ^^^ b)

/-- LRD (R208). -/
def execLrd (w : ArithOp) (s : State) : Out :=
  issuing s (.lrd w) fun c =>
    let ls := c.acting w.guard
    let from_ (l : Nat) : Option Nat :=
      (lrdLane w.mode.toNat c.g.width l (c.src l (lrdTy w.mode) w.b w.imm)).filter fun j => ls.contains j
    crossOp s c w [(w.a.op, w.ty.regs), (w.b.op, 1)] (arithPd w) (ls.map fun l => (l, (from_ l).isSome)) none
      (ls.flatMap fun l => destLocs w.d l (tyWords w.ty (c.src ((from_ l).getD l) w.ty w.a w.imm)))

/-- PCOL (R209). -/
def execPcol (w : ArithOp) (s : State) : Out :=
  issuing s (.pcol w) fun c =>
    let ls := c.acting w.guard
    let p := ls.filter fun l => arithPs w (c.g.lane l)
    let all (b : Bool) : Out := crossWith Group.writeLocs s c w [] (arithPd w) (ls.map fun l => (l, b)) none []
    let put (ws : List W32) : Out := crossWith Group.writeLocs s c w [] 7 [] none (groupDest c w ws)
    match w.mode.toNat with
    | 0 => all (p.length == ls.length)
    | 1 => all (!p.isEmpty)
    | 2 => all (p.isEmpty || p.length == ls.length)
    | 3 => put (maskWordsOf c.g.width p)
    | 4 => put [BitVec.ofNat 32 (bit c.f.xemp)]
    | _ => put [BitVec.ofNat 32 p.length]

/-- A floating-point sum of two elements of a reduction: rounded by RND, never flushed (R189, R210). -/
def redAdd (t : Ty) (mode : RMode) (nanc : Bool) (x y : Nat) : Nat :=
  (deliver t ⟨mode, nanc, false, false⟩ (sumVals mode.isRdn [unpack t x, unpack t y])).bits

/-- An operation of R210 on two elements; integer sums are exact before `sat` or the wrap. -/
def redOp (op : Nat) (t : Ty) (mode : RMode) (nanc sat : Bool) (x y : Nat) : Nat :=
  let w := t.width
  let r (x : Nat) : Int := readInt t.isSignedInt w x
  match op with
  | 0 => if t.isFloat then redAdd t mode nanc x y
         else wrap w (if sat then clampInt t.isSignedInt w (r x + r y) else r x + r y)
  | 1 | 2 =>
    if t.isFloat then (deliver t ⟨.rne, nanc, false, false⟩ (minMaxVals (op == 2) (unpack t x) (unpack t y))).bits
    else wrap w (if op == 1 then min (r x) (r y) else max (r x) (r y))
  | 3 => x &&& y
  | 4 => x ||| y
  | _ => x ^^^ y

/-- The identity of an operation on a type (R210). -/
def redIdentity (op : Nat) (t : Ty) : Nat :=
  let w := t.width
  match op with
  | 1 => if t.isFloat then fmtInf t else wrap w (intGreatest t.isSignedInt w)
  | 2 => if t.isFloat then fmtSign t true + fmtInf t else wrap w (intLeast t.isSignedInt w)
  | 3 => 2 ^ w - 1
  | _ => 0

/-- One pass over a list that joins neighbours (R210). -/
def pairUp (f : Nat → Nat → Nat) : List Nat → List Nat
  | x :: y :: xs => f x y :: pairUp f xs
  | xs => xs

/-- The tree of R210 on a nonempty list. -/
def treeSum (f : Nat → Nat → Nat) : Nat → List Nat → Nat
  | 0, xs => xs.headD 0
  | n + 1, xs => if xs.length ≤ 1 then xs.headD 0 else treeSum f n (pairUp f xs)

/-- The value of a reduction (R210). DESIGN CHOICE: all but a floating-point sum combine in lane order, which shows where a
minimum or a maximum meets NaNs. -/
def reduce (op : Nat) (t : Ty) (mode : RMode) (nanc sat : Bool) (xs : List Nat) : Nat :=
  match xs with
  | [] => redIdentity op t
  | x :: rest =>
    if op == 0 && t.isFloat then treeSum (redAdd t mode nanc) 7 xs
    else if op == 0 && sat then
      wrap t.width (clampInt t.isSignedInt t.width (xs.foldl (fun a y => a + readInt t.isSignedInt t.width y) (0 : Int)))
    else rest.foldl (redOp op t mode nanc false) x

/-- REDX (R210). -/
def execRedx (w : ArithOp) (s : State) : Out :=
  issuing s (.redx w) fun c =>
    let ls := c.acting w.guard
    let mode := rmode w.rnd c.f.fmt 0#32
    let v := reduce (w.mode.toNat % 8) w.ty mode (fmtNanc c.f.fmt) w.sat (ls.map fun l => c.src l w.ty w.a w.imm)
    crossOp s c w [(w.a.op, w.ty.regs)] 7 [] (some ls.isEmpty) (groupDest c w (tyWords w.ty v))

/-- The chain of R211: the result of each participating lane, and the total. -/
def scanChain (f : Nat → Nat → Nat) (ident : Nat) (excl : Bool) : Option Nat → List (Nat × Nat) → List (Nat × Nat) × Nat
  | acc, [] => ([], acc.getD ident)
  | acc, (l, x) :: rest =>
    let now := match acc with
      | some a => f a x
      | none => x
    let (rs, total) := scanChain f ident excl (some now) rest
    ((l, if excl then acc.getD ident else now) :: rs, total)

/-- SCANX (R211): D per lane, the total to St of the B field. -/
def execScanx (w : ArithOp) (s : State) : Out :=
  issuing s (.scanx w) fun c =>
    let ls := c.acting w.guard
    let op := w.mode.toNat % 8
    let f := redOp op w.ty (rmode w.rnd c.f.fmt 0#32) (fmtNanc c.f.fmt) w.sat
    let (rs, total) := scanChain f (redIdentity op w.ty) (w.mode.getLsbD 3) none
      (ls.map fun l => (l, c.src l w.ty w.a w.imm))
    crossOp s c w [(w.a.op, w.ty.regs)] 7 [] (some ls.isEmpty)
      ((rs.flatMap fun r => destLocs w.d r.1 (tyWords w.ty r.2)) ++ destLocs w.b.op 0 (tyWords w.ty total))

/-- The rank of a key for CMPX (R212): NaNs above +∞ and equal, −0 below +0. -/
def cmpxGreater (t : Ty) (x y : Nat) : Bool :=
  if t == .f32 then
    let a := unpack .f32 x
    let b := unpack .f32 y
    if b.isNan then false else if a.isNan then true else ordVals a b == .gt
  else decide (readInt t.isSignedInt 32 y < readInt t.isSignedInt 32 x)

/-- CMPX (R212): IMM is the control word. -/
def execCmpx (w : ArithOp) (s : State) : Out :=
  issuing s (.cmpx w) fun c =>
    let ls := c.acting w.guard
    let ctl := w.imm.toNat
    let key (l : Nat) : Nat := c.src l w.ty w.a w.imm
    let pay (l : Nat) : Nat := c.src l .b32 w.b w.imm
    let swaps (i p : Nat) : Bool :=
      let lo := min i p
      let hi := max i p
      let up := !testBit lo (bitField ctl 8 5) != testBit ctl 16
      ls.contains p && (if up then cmpxGreater w.ty (key lo) (key hi) else cmpxGreater w.ty (key hi) (key lo))
    crossOp s c w [(w.a.op, 1), (w.b.op, 1)] 7 [] none
      (ls.flatMap fun i =>
        let p := i ^^^ 2 ^ bitField ctl 0 5
        let k := if swaps i p then p else i
        destLocs w.d i [BitVec.ofNat 32 (key k), BitVec.ofNat 32 (pay k)])

/-- PEER (R213). -/
def execPeer (w : ArithOp) (s : State) : Out :=
  issuing s (.peer w) fun c =>
    let ls := c.acting w.guard
    let v (l : Nat) : Nat := c.src l w.ty w.a w.imm
    let same (l : Nat) : List Nat := ls.filter fun j => v j == v l
    let spans := [(w.a.op, w.ty.regs)]
    match w.mode.toNat with
    | 0 => crossOp s c w spans 7 [] none (ls.flatMap fun l => destLocs w.d l (maskWordsOf c.g.width (same l)))
    | 1 =>
      let eq := ls.all fun l => (same l).length == ls.length
      crossOp s c w spans (arithPd w) (ls.map fun l => (l, eq)) none
        (ls.flatMap fun l => destLocs w.d l (maskWordsOf c.g.width (if eq then ls else [])))
    | _ =>
      let lead (l : Nat) : Nat := (same l).headD l
      crossOp s c w spans (arithPd w) (ls.map fun l => (l, lead l == l)) none
        (ls.flatMap fun l => destLocs w.d l [BitVec.ofNat 32 (lead l)])

end Sys2Proof.Machine
end

