-- ==== Sys2Proof/Machine/Narrow.lean ====
section
/-! DEFINITION. Narrow dot products, quantise, dequantise and scale selection (R202 to R205). -/

namespace Sys2Proof.Machine

/-- The other format of a mixed dot product, where MODE[40] selects it (R202). -/
def dotTyB (w : ArithOp) : Ty := if w.ty != .q4 && w.mode == 1#4 then w.ty.other else w.ty

/-- A float dot product on decoded elements (R202): C and the products, exact, rounded once; a NaN is that
of the first NaN source in the order A, B, C. -/
def dotFloat (s : State) (c : Ctx) (w : ArithOp) (va vb : Nat → List FVal) : Out :=
  alu s c w.toCommon false 7 [(w.a.op, 1), (w.b.op, 1), (w.c.op, 1)] fun l =>
    let fmt := c.f.fmt
    let mode := rmode w.rnd fmt 0#32
    let as := va (c.src l w.ty w.a w.imm)
    let bs := vb (c.src l (dotTyB w) w.b w.imm)
    let z := unpack .f32 (c.src l .f32 w.c w.imm)
    let v := nanElse (as ++ bs ++ [z]) (sumVals mode.isRdn (z :: (as.zip bs).map fun x => mulVals x.1 x.2))
    let r := deliver .f32 ⟨mode, fmtNanc fmt, w.sat, false⟩ v
    { d := [BitVec.ofNat 32 r.bits], ovf := raises (as ++ bs ++ [z]) [r] }

/-- The elements of a register as values of a float type. -/
def fltElements (t : Ty) (x : Nat) : List FVal := (elements 32 t.width x).map (unpack t)

/-- DOT2 (R202). -/
def execDot2 (w : ArithOp) (s : State) : Out :=
  issuing s (.dot2 w) fun c => dotFloat s c w (fltElements w.ty) (fltElements (dotTyB w))

/-- DOT4 (R202): the integer forms give .i32, wrapped or saturated; a clamp raises OVF (R190). -/
def execDot4 (w : ArithOp) (s : State) : Out :=
  issuing s (.dot4 w) fun c =>
    if w.ty.isFloat then dotFloat s c w (fltElements w.ty) (fltElements (dotTyB w))
    else
      alu s c w.toCommon false 7 [(w.a.op, 1), (w.b.op, 1), (w.c.op, 1)] fun l =>
        let rd (t : Ty) (x : Nat) : List Int := (elements 32 8 x).map (readInt t.isSignedInt 8)
        let as := rd w.ty (c.src l w.ty w.a w.imm)
        let bs := rd (dotTyB w) (c.src l (dotTyB w) w.b w.imm)
        let z := toSigned 32 (c.src l .i32 w.c w.imm)
        let v := (as.zip bs).foldl (fun a x => a + x.1 * x.2) z
        { d := [BitVec.ofInt 32 (if w.sat then clampInt true 32 v else v)], ovf := w.sat && clampInt true 32 v != v }

/-- DOT8 (R202): codes of the type of MODE, without scale. -/
def execDot8 (w : ArithOp) (s : State) : Out :=
  issuing s (.dot8 w) fun c =>
    let dec (x : Nat) : List FVal := (elements 32 4 x).map (q4Decode w.mode.toNat)
    dotFloat s c w dec dec

/-- The registers that QCVT reads and DQCVT writes (R203). -/
def quantRegs (t : Ty) : Nat := if t == .f32 then 8 else 4

/-- The eight elements that QCVT reads, each register modified on its own (R141, R203). -/
def quantElements (c : Ctx) (l : Nat) (w : ArithOp) : List FVal :=
  (List.range (quantRegs w.ty)).flatMap fun k =>
    (elements 32 w.ty.width (modifySource w.ty w.a (c.reg l w.a.op k).toNat)).map (unpack w.ty)

/-- QCVT (R203): under SR the generator advances once per element, in ascending order. -/
def execQcvt (w : ArithOp) (s : State) : Out :=
  issuing s (.qcvt w) fun c =>
    alu s c w.toCommon true (arithPd w) [(w.a.op, quantRegs w.ty), (w.b.op, 1)] fun l =>
      let b := c.src l w.ty w.b w.imm % 256
      if b % 64 == 63 then { d := [0#32], pd := some true }
      else
        let xs := quantElements c l w
        let (rs, srs) := convertEach w.rnd c.f.fmt (fun m x => ⟨q4Round m (b / 64) (b % 64) x, false⟩) (c.g.lane l).srs xs
        { d := [BitVec.ofNat 32 (packElements 4 (rs.map (·.bits)))]
          pd := some (xs.any fun x => !x.isFin)
          srs := if w.rnd == .sr then some srs else none }

/-- DQCVT (R204). -/
def execDqcvt (w : ArithOp) (s : State) : Out :=
  issuing s (.dqcvt w) fun c =>
    alu s c w.toCommon false 7 [(w.a.op, 1), (w.b.op, 1)] fun l =>
      let fmt := c.f.fmt
      let b := c.src l w.ty w.b w.imm % 256
      let ctl : FCtl := ⟨rmode w.rnd fmt 0#32, b % 64 == 63 || fmtNanc fmt, w.sat, false⟩
      let vs := (elements 32 4 (c.src l .q4 w.a w.imm)).map (q4Value b)
      let rs := vs.map fun v => deliver w.ty ctl v
      { d := words (32 * quantRegs w.ty) (packElements w.ty.width (rs.map (·.bits)))
        ovf := raises vs rs }

/-- SCLMAX (R205). -/
def execSclmax (w : ArithOp) (s : State) : Out :=
  issuing s (.sclmax w) fun c =>
    alu s c w.toCommon false 7 (srcs3 w.toCommon) fun l =>
      { d := [BitVec.ofNat 32 (scaleFor w.mode.toNat (unpack .f32 (c.src l .f32 w.a w.imm)))] }

end Sys2Proof.Machine
end

