-- ==== Sys2Proof/Machine/Remote.lean ====
section
/-! DEFINITION. Remote reads and writes of the host (R106, R107, R137, R304, R364, R371) and its CAPCTL write
(R115). -/

namespace Sys2Proof.Machine

/-- The core and the window offset of a physical address in the core windows (R106). -/
def windowOf (pa : Nat) : Option (Nat × Nat) :=
  if 0x800000000000 ≤ pa && pa < 0x800400000000 then
    let o := pa - 0x800000000000
    if o % 0x20000000 < 0x10000000 then
      some (64 * (o / 0x20000000) + 32 * (o % 0x20000000 / 0x8000000) + o % 0x8000000 / 0x400000, o % 0x400000)
    else none
  else none

/-- The die and the offset of a physical address in the control ranges. -/
def controlOf (pa : Nat) : Option (Nat × Nat) :=
  if 0x800000000000 ≤ pa && pa < 0x800400000000 then
    let o := pa - 0x800000000000
    if 0x10000000 ≤ o % 0x20000000 then some (o / 0x20000000, o % 0x20000000 - 0x10000000) else none
  else none

/-- A window offset lies in a range that takes whole words only (R107). -/
def wordRange (o : Nat) : Bool := decide (o < 0x200000) || (decide (0x280000 ≤ o) && decide (o < 0x2A0000))

/-- A byte of an access lies in a range that takes whole words only (R107). -/
def touchesWords (pa : Nat) : Bool :=
  match windowOf pa with
  | some (_, o) => wordRange o
  | none => false

/-- The access breaks the word rule of R107 in one of its bytes: those in the register views and accumulator files. -/
def wordBreach (pa n : Nat) : Bool := (pa % 4 != 0 || n % 4 != 0) && (upFrom pa n).any touchesWords

/-- The die that an address of the on-chip map belongs to (R106). -/
def addressDie (pa : Nat) : Nat :=
  if 0x800000000000 ≤ pa then (pa - 0x800000000000) / 0x20000000 % 32 else homeDie pa

/-- An access of the host arrives: DEDUCED: through the port of the die whose memory, windows or registers it names (R16,
R371). -/
def remoteComes (s : State) (pa : Nat) : Bool := s.hears (addressDie pa)

/-- The access reaches the memory of a die that is lost to every other one (R372). -/
def reachesLost (s : State) (pa n : Nat) : Bool :=
  let lost (pa : Nat) : Bool := isHbm pa && (List.range 32).all fun o => o == homeDie pa || s.dieLost o (homeDie pa)
  lost pa || lost (pa + n - 1)

/-! ### Writes -/

/-- The words of a write in a control range that starts at offset `o`: each with its written bytes, and the
mask of the others. -/
def ctlWords (o : Nat) (bs : List Byte) : List (Nat × Nat × Nat) :=
  (upFrom (o / 4) ((o + bs.length + 3) / 4 - o / 4)).map fun k =>
    let at_ (i : Nat) : Option Byte := if o ≤ 4 * k + i then bs[4 * k + i - o]? else none
    let w := (List.range 4).foldl (fun n i => n + ((at_ i).getD 0#8).toNat * 2 ^ (8 * i)) 0
    let keep := (List.range 4).foldl (fun n i => if (at_ i).isSome then n else n + 255 * 2 ^ (8 * i)) 0
    (4 * k, w, keep)

/-- The CAPM words of a die that a write covers whole lose their poison (R388). -/
def mendCapm (s : State) (d o n : Nat) : State :=
  let mend (s : State) (k : Nat) : State :=
    let a := 0x2000000 + 0x100 * (k / 32) + 8 * (k % 32)
    if o ≤ a && a + 8 ≤ o + n then s.setCore (64 * d + k) { s.core (64 * d + k) with capmBad := false } else s
  if o < 0x2000200 && 0x2000000 < o + n then (List.range 64).foldl mend s else s

/-- Bytes written in a control range, word by word; the check that follows a write of a CAPM sees it without the poison that
the write ends (R330, R388). -/
def ctlWriteBytes (s : State) (d o : Nat) (bs : List Byte) : State :=
  (ctlWords o bs).foldl (fun (s : State) x =>
    let (a, w, keep) := x
    ctlSet s d a (BitVec.ofNat 32 (w + (ctlGet s d a &&& keep))) (BitVec.ofNat 32 w) (keep == 0)) (mendCapm s d o bs.length)

/-- A byte written at a physical address; reserved ranges ignore it (R106). -/
def remoteByte (s : State) (pa : Nat) (b : Byte) : State :=
  match windowOf pa with
  | some (k, o) => s.windowWriteByte k o b
  | none => if isHbm pa then s.mscWrite pa [b] else s

/-- Poison that a write of whole granules of a window clears (R364). -/
def windowClear (s : State) (k o n : Nat) : State :=
  if o < 0x200000 then
    let put (s : State) (a : Nat) : State :=
      match s.block? k with
      | none => s
      | some b =>
        let (gi, ln) := groupLane b.kern.w (a / 0x8000) (a / 4 % 32)
        let drop (t : Thread) : Thread := { t with bad := setErase t.bad (a / 0x80 % 256) }
        s.setBlock k { b with groups := b.groups.map fun g => if g.index == gi then g.setLane ln (drop (g.lane ln)) else g }
    ((List.range (n / 4)).map fun i => o + 4 * i).foldl put s
  else if o < 0x260000 then
    let c := s.core k
    s.setCore k { c with scratchBad := clearPoison 8 c.scratchBad (o - 0x200000) n }
  else s.windowPoison k o n false

/-- Bytes written at consecutive physical addresses of one range of R106. -/
def remoteRun (s : State) (pa : Nat) (bs : List Byte) : State :=
  match controlOf pa, windowOf pa with
  | some (d, o), _ => ctlWriteBytes s d o bs
  | none, some (k, o) =>
    windowClear (((upFrom pa bs.length).zip bs).foldl (fun (s : State) x => remoteByte s x.1 x.2) s) k o bs.length
  | none, none => if isHbm pa then s.mscWrite pa bs else s

/-- The unit in which the ranges of R106 are laid out: 4 MiB, a core window. -/
def rangeUnit : Nat := 0x400000

/-- Bytes written at consecutive physical addresses: each part in the range that it lies in. -/
def remoteBytes (s : State) (pa : Nat) (bs : List Byte) : State :=
  (granules rangeUnit pa bs.length).foldl (fun (s : State) g =>
    let lo := max pa (rangeUnit * g)
    remoteRun s lo ((bs.drop (lo - pa)).take (rangeUnit * (g + 1) - lo))) s

/-- REMOTE_WRITE (R106, R107, R304). -/
def execRemoteWrite (pa : Nat) (data : List Byte) (s : State) : Out :=
  if !remoteComes s pa then .next s
  else if wordBreach pa data.length || reachesLost s pa data.length then .next { s with answers := s.answers ++ [⟨false, []⟩] }
  else
    let s := remoteBytes s pa data
    .next { s with answers := s.answers ++ [⟨true, []⟩] }

/-! ### Reads -/

/-- A byte at a physical address. -/
def remoteGet (s : State) (pa : Nat) : Byte :=
  match controlOf pa, windowOf pa with
  | some (d, o), _ => BitVec.ofNat 8 (ctlGet s d (o / 4 * 4) / 2 ^ (8 * (o % 4)))
  | none, some (k, o) => s.windowByte k o
  | none, none => s.mscByte pa

/-- A byte at a physical address is poisoned. -/
def remotePoisoned (s : State) (pa : Nat) : Bool :=
  match windowOf pa with
  | some (k, o) => s.windowPoisoned k o
  | none => isHbm pa && s.memPoisoned pa 1

/-- REMOTE_READ (R106, R107, R304, R364). -/
def execRemoteRead (pa n : Nat) (s : State) : Out :=
  let as := upFrom pa n
  if !remoteComes s pa then .next s
  else if wordBreach pa n || reachesLost s pa n || as.any (remotePoisoned s) then
    .next { s with answers := s.answers ++ [⟨false, []⟩] }
  else .next { s with answers := s.answers ++ [⟨true, as.map (remoteGet s)⟩] }

end Sys2Proof.Machine
end

