-- ==== Sys2Proof/Machine/Dispatch.lean ====
section
/-! DEFINITION. The dispatch: one arm per instruction and event of the opcode table. -/

namespace Sys2Proof.Machine

def exec (i : Instr) (s : State) : Host.Outcome State Fault Refusal :=
  match i with
  | .iadd w => Sys2Proof.Machine.execIadd w s
  | .iaddx w => Sys2Proof.Machine.execIaddx w s
  | .isub w => Sys2Proof.Machine.execIsub w s
  | .imul w => Sys2Proof.Machine.execImul w s
  | .imulh w => Sys2Proof.Machine.execImulh w s
  | .imad w => Sys2Proof.Machine.execImad w s
  | .imin w => Sys2Proof.Machine.execImin w s
  | .imax w => Sys2Proof.Machine.execImax w s
  | .iabs w => Sys2Proof.Machine.execIabs w s
  | .ineg w => Sys2Proof.Machine.execIneg w s
  | .icmp w => Sys2Proof.Machine.execIcmp w s
  | .lea w => Sys2Proof.Machine.execLea w s
  | .and w => Sys2Proof.Machine.execAnd w s
  | .or w => Sys2Proof.Machine.execOr w s
  | .xor w => Sys2Proof.Machine.execXor w s
  | .not w => Sys2Proof.Machine.execNot w s
  | .tern w => Sys2Proof.Machine.execTern w s
  | .shl w => Sys2Proof.Machine.execShl w s
  | .shr w => Sys2Proof.Machine.execShr w s
  | .sar w => Sys2Proof.Machine.execSar w s
  | .rol w => Sys2Proof.Machine.execRol w s
  | .funsh w => Sys2Proof.Machine.execFunsh w s
  | .bfx w => Sys2Proof.Machine.execBfx w s
  | .bfi w => Sys2Proof.Machine.execBfi w s
  | .popc w => Sys2Proof.Machine.execPopc w s
  | .clz w => Sys2Proof.Machine.execClz w s
  | .brev w => Sys2Proof.Machine.execBrev w s
  | .bytx w => Sys2Proof.Machine.execBytx w s
  | .mov w => Sys2Proof.Machine.execMov w s
  | .sel w => Sys2Proof.Machine.execSel w s
  | .cvti w => Sys2Proof.Machine.execCvti w s
  | .fadd w => Sys2Proof.Machine.execFadd w s
  | .fmul w => Sys2Proof.Machine.execFmul w s
  | .ffma w => Sys2Proof.Machine.execFfma w s
  | .fmin w => Sys2Proof.Machine.execFmin w s
  | .fmax w => Sys2Proof.Machine.execFmax w s
  | .fcmp w => Sys2Proof.Machine.execFcmp w s
  | .frnd w => Sys2Proof.Machine.execFrnd w s
  | .fcvt w => Sys2Proof.Machine.execFcvt w s
  | .f2i w => Sys2Proof.Machine.execF2i w s
  | .i2f w => Sys2Proof.Machine.execI2f w s
  | .fdiv w => Sys2Proof.Machine.execFdiv w s
  | .fsqrt w => Sys2Proof.Machine.execFsqrt w s
  | .frcp w => Sys2Proof.Machine.execFrcp w s
  | .frsq w => Sys2Proof.Machine.execFrsq w s
  | .fexp2 w => Sys2Proof.Machine.execFexp2 w s
  | .flog2 w => Sys2Proof.Machine.execFlog2 w s
  | .fsin w => Sys2Proof.Machine.execFsin w s
  | .fcos w => Sys2Proof.Machine.execFcos w s
  | .ftanh w => Sys2Proof.Machine.execFtanh w s
  | .fclass w => Sys2Proof.Machine.execFclass w s
  | .fscalb w => Sys2Proof.Machine.execFscalb w s
  | .ffrexp w => Sys2Proof.Machine.execFfrexp w s
  | .dot2 w => Sys2Proof.Machine.execDot2 w s
  | .dot4 w => Sys2Proof.Machine.execDot4 w s
  | .dot8 w => Sys2Proof.Machine.execDot8 w s
  | .qcvt w => Sys2Proof.Machine.execQcvt w s
  | .dqcvt w => Sys2Proof.Machine.execDqcvt w s
  | .sclmax w => Sys2Proof.Machine.execSclmax w s
  | .lrd w => Sys2Proof.Machine.execLrd w s
  | .pcol w => Sys2Proof.Machine.execPcol w s
  | .redx w => Sys2Proof.Machine.execRedx w s
  | .scanx w => Sys2Proof.Machine.execScanx w s
  | .cmpx w => Sys2Proof.Machine.execCmpx w s
  | .peer w => Sys2Proof.Machine.execPeer w s
  | .bru w => Sys2Proof.Machine.execBru w s
  | .brd w => Sys2Proof.Machine.execBrd w s
  | .brx w => Sys2Proof.Machine.execBrx w s
  | .call w => Sys2Proof.Machine.execCall w s
  | .callx w => Sys2Proof.Machine.execCallx w s
  | .ret w => Sys2Proof.Machine.execRet w s
  | .exit w => Sys2Proof.Machine.execExit w s
  | .rjset w => Sys2Proof.Machine.execRjset w s
  | .rjwait w => Sys2Proof.Machine.execRjwait w s
  | .rjmovRead w => Sys2Proof.Machine.execRjmovRead w s
  | .rjmovWrite w => Sys2Proof.Machine.execRjmovWrite w s
  | .elect w => Sys2Proof.Machine.execElect w s
  | .nop w => Sys2Proof.Machine.execNop w s
  | .sbeg w => Sys2Proof.Machine.execSbeg w s
  | .yield w => Sys2Proof.Machine.execYield w s
  | .sleep w => Sys2Proof.Machine.execSleep w s
  | .sleepWake a => Sys2Proof.Machine.execSleepWake a s
  | .plop w => Sys2Proof.Machine.execPlop w s
  | .p2s w => Sys2Proof.Machine.execP2s w s
  | .s2p w => Sys2Proof.Machine.execS2p w s
  | .rgrowWait w => Sys2Proof.Machine.execRgrowWait w s
  | .rgrowTry w => Sys2Proof.Machine.execRgrowTry w s
  | .rgrowGrant core quad => Sys2Proof.Machine.execRgrowGrant core quad s
  | .rshrink w => Sys2Proof.Machine.execRshrink w s
  | .rqry w => Sys2Proof.Machine.execRqry w s
  | .fmtset w => Sys2Proof.Machine.execFmtset w s
  | .fmtsetRm w => Sys2Proof.Machine.execFmtsetRm w s
  | .fmtsetSrs w => Sys2Proof.Machine.execFmtsetSrs w s
  | .fmtget w => Sys2Proof.Machine.execFmtget w s
  | .fmtgetSrs w => Sys2Proof.Machine.execFmtgetSrs w s
  | .ld w => Sys2Proof.Machine.execLd w s
  | .tagLanded a tag => Sys2Proof.Machine.execTagLanded a tag s
  | .land w => Sys2Proof.Machine.execLand w s
  | .st w => Sys2Proof.Machine.execSt w s
  | .lds w => Sys2Proof.Machine.execLds w s
  | .sts w => Sys2Proof.Machine.execSts w s
  | .ldc w => Sys2Proof.Machine.execLdc w s
  | .gath w => Sys2Proof.Machine.execGath w s
  | .scat w => Sys2Proof.Machine.execScat w s
  | .ldgs w => Sys2Proof.Machine.execLdgs w s
  | .pref w => Sys2Proof.Machine.execPref w s
  | .cctlWb w => Sys2Proof.Machine.execCctlWb w s
  | .cctlInv w => Sys2Proof.Machine.execCctlInv w s
  | .cctlWball w => Sys2Proof.Machine.execCctlWball w s
  | .cctlInvall w => Sys2Proof.Machine.execCctlInvall w s
  | .tst w => Sys2Proof.Machine.execTst w s
  | .tld w => Sys2Proof.Machine.execTld w s
  | .tldTmo a => Sys2Proof.Machine.execTldTmo a s
  | .atom w => Sys2Proof.Machine.execAtom w s
  | .atoms w => Sys2Proof.Machine.execAtoms w s
  | .red w => Sys2Proof.Machine.execRed w s
  | .fence w => Sys2Proof.Machine.execFence w s
  | .storeDrain f => Sys2Proof.Machine.execStoreDrain f s
  | .bara w => Sys2Proof.Machine.execBara w s
  | .barw w => Sys2Proof.Machine.execBarw w s
  | .bars w => Sys2Proof.Machine.execBars w s
  | .mbinit w => Sys2Proof.Machine.execMbinit w s
  | .mbarv w => Sys2Proof.Machine.execMbarv w s
  | .mbtst w => Sys2Proof.Machine.execMbtst w s
  | .mbwait w => Sys2Proof.Machine.execMbwait w s
  | .tshldGl w => Sys2Proof.Machine.execTshldGl w s
  | .tshldSp w => Sys2Proof.Machine.execTshldSp w s
  | .tshpSet w => Sys2Proof.Machine.execTshpSet w s
  | .tshpAdd w => Sys2Proof.Machine.execTshpAdd w s
  | .tshpAdd64 w => Sys2Proof.Machine.execTshpAdd64 w s
  | .tshstGl w => Sys2Proof.Machine.execTshstGl w s
  | .tshstSp w => Sys2Proof.Machine.execTshstSp w s
  | .cpy w => Sys2Proof.Machine.execCpy w s
  | .gset w => Sys2Proof.Machine.execGset w s
  | .gsetClr w => Sys2Proof.Machine.execGsetClr w s
  | .qfncCq w => Sys2Proof.Machine.execQfncCq w s
  | .qfncMq w => Sys2Proof.Machine.execQfncMq w s
  | .qfncKq w => Sys2Proof.Machine.execQfncKq w s
  | .qwait w => Sys2Proof.Machine.execQwait w s
  | .mldb w => Sys2Proof.Machine.execMldb w s
  | .mma w => Sys2Proof.Machine.execMma w s
  | .macc w => Sys2Proof.Machine.execMacc w s
  | .mtbl w => Sys2Proof.Machine.execMtbl w s
  | .coll w => Sys2Proof.Machine.execColl w s
  | .sigsSet w => Sys2Proof.Machine.execSigsSet w s
  | .sigsAdd w => Sys2Proof.Machine.execSigsAdd w s
  | .queueAccept q => Sys2Proof.Machine.execQueueAccept q s
  | .guardTest q => Sys2Proof.Machine.execGuardTest q s
  | .triggerMet vd die => Sys2Proof.Machine.execTriggerMet vd die s
  | .cpyPerformed core => Sys2Proof.Machine.execCpyPerformed core s
  | .mldbPerformed pair => Sys2Proof.Machine.execMldbPerformed pair s
  | .mmaPerformed pair => Sys2Proof.Machine.execMmaPerformed pair s
  | .pchkmis pair rows row col => Sys2Proof.Machine.execPchkmis pair rows row col s
  | .maccPerformed pair => Sys2Proof.Machine.execMaccPerformed pair s
  | .mtblPerformed pair => Sys2Proof.Machine.execMtblPerformed pair s
  | .qfncPerformed q => Sys2Proof.Machine.execQfncPerformed q s
  | .collPerformed vd die => Sys2Proof.Machine.execCollPerformed vd die s
  | .guardopen q => Sys2Proof.Machine.execGuardopen q s
  | .chunkExponentUp m => Sys2Proof.Machine.execChunkExponentUp m s
  | .chunkExponentDown m => Sys2Proof.Machine.execChunkExponentDown m s
  | .chunkDataUp m => Sys2Proof.Machine.execChunkDataUp m s
  | .chunkResultDown m => Sys2Proof.Machine.execChunkResultDown m s
  | .collAbort m => Sys2Proof.Machine.execCollAbort m s
  | .collNeighbourTimeout vd die endpoint => Sys2Proof.Machine.execCollNeighbourTimeout vd die endpoint s
  | .lsadjStep w => Sys2Proof.Machine.execLsadjStep w s
  | .lsadjSet w => Sys2Proof.Machine.execLsadjSet w s
  | .lsadjGet w => Sys2Proof.Machine.execLsadjGet w s
  | .ovfrRd w => Sys2Proof.Machine.execOvfrRd w s
  | .ovfrRdc w => Sys2Proof.Machine.execOvfrRdc w s
  | .trap w => Sys2Proof.Machine.execTrap w s
  | .brk w => Sys2Proof.Machine.execBrk w s
  | .tret w => Sys2Proof.Machine.execTret w s
  | .halt w => Sys2Proof.Machine.execHalt w s
  | .ctlr w => Sys2Proof.Machine.execCtlr w s
  | .ctlw w => Sys2Proof.Machine.execCtlw w s
  | .prst part => Sys2Proof.Machine.execPrst part s
  | .vdrst vd => Sys2Proof.Machine.execVdrst vd s
  | .plcq w => Sys2Proof.Machine.execPlcq w s
  | .capq w => Sys2Proof.Machine.execCapq w s
  | .clkr w => Sys2Proof.Machine.execClkr w s
  | .trans a src => Sys2Proof.Machine.execTrans a src s
  | .uncorrectableError loc => Sys2Proof.Machine.execUncorrectableError loc s
  | .recordWrite part => Sys2Proof.Machine.execRecordWrite part s
  | .rjtmo core group j => Sys2Proof.Machine.execRjtmo core group j s
  | .fragmentLoad core quad => Sys2Proof.Machine.execFragmentLoad core quad s
  | .ejectHandover core thread => Sys2Proof.Machine.execEjectHandover core thread s
  | .ejectReturn core thread => Sys2Proof.Machine.execEjectReturn core thread s
  | .pageWalkDone walk => Sys2Proof.Machine.execPageWalkDone walk s
  | .gangForm part => Sys2Proof.Machine.execGangForm part s
  | .blockRetire core => Sys2Proof.Machine.execBlockRetire core s
  | .entryBegin fe q => Sys2Proof.Machine.execEntryBegin fe q s
  | .periodBoundary part => Sys2Proof.Machine.execPeriodBoundary part s
  | .sliceEnd part => Sys2Proof.Machine.execSliceEnd part s
  | .blockTake core => Sys2Proof.Machine.execBlockTake core s
  | .forcedTake core => Sys2Proof.Machine.execForcedTake core s
  | .contextSave part => Sys2Proof.Machine.execContextSave part s
  | .gangResume part gang => Sys2Proof.Machine.execGangResume part gang s
  | .wdog fe q => Sys2Proof.Machine.execWdog fe q s
  | .launch fe hdr bank => Sys2Proof.Machine.execLaunch fe hdr bank s
  | .waittag fe hdr => Sys2Proof.Machine.execWaittag fe hdr s
  | .waitsig fe hdr => Sys2Proof.Machine.execWaitsig fe hdr s
  | .tlbinv fe hdr => Sys2Proof.Machine.execTlbinv fe hdr s
  | .tlbinvPerformed cmd => Sys2Proof.Machine.execTlbinvPerformed cmd s
  | .icinv fe hdr => Sys2Proof.Machine.execIcinv fe hdr s
  | .icinvPerformed cmd => Sys2Proof.Machine.execIcinvPerformed cmd s
  | .pageresp fe hdr => Sys2Proof.Machine.execPageresp fe hdr s
  | .heldRecordIntake fe q => Sys2Proof.Machine.execHeldRecordIntake fe q s
  | .remoteWrite pa data => Sys2Proof.Machine.execRemoteWrite pa data s
  | .remoteRead pa n => Sys2Proof.Machine.execRemoteRead pa n s
  | .msgResend fe => Sys2Proof.Machine.execMsgResend fe s
  | .captureStart vd value => Sys2Proof.Machine.execCaptureStart vd value s
  | .pagePreserve vd va => Sys2Proof.Machine.execPagePreserve vd va s
  | .partitionEnable part value => Sys2Proof.Machine.execPartitionEnable part value s
  | .partitionDisable part value => Sys2Proof.Machine.execPartitionDisable part value s
  | .pcolorWrite part value => Sys2Proof.Machine.execPcolorWrite part value s
  | .genableClear value => Sys2Proof.Machine.execGenableClear value s
  | .modrst value => Sys2Proof.Machine.execModrst value s
  | .queueEnable fe q value => Sys2Proof.Machine.execQueueEnable fe q value s
  | .queueDisable fe q value => Sys2Proof.Machine.execQueueDisable fe q value s
  | .qwdtWrite fe q value => Sys2Proof.Machine.execQwdtWrite fe q value s
  | .vdEnable fe vd value => Sys2Proof.Machine.execVdEnable fe vd value s
  | .vdDisable fe vd value => Sys2Proof.Machine.execVdDisable fe vd value s
  | .vdResetComplete vd => Sys2Proof.Machine.execVdResetComplete vd s
  | .placeTableWrite fe vd off value => Sys2Proof.Machine.execPlaceTableWrite fe vd off value s
  | .capmWrite die off value => Sys2Proof.Machine.execCapmWrite die off value s
  | .memberTableWrite die vd x value => Sys2Proof.Machine.execMemberTableWrite die vd x value s
  | .lossScaleHostWrite fe vd sel value => Sys2Proof.Machine.execLossScaleHostWrite fe vd sel value s
  | .hmRestart part value => Sys2Proof.Machine.execHmRestart part value s
  | .registerWrite die off value => Sys2Proof.Machine.execRegisterWrite die off value s
  | .linkDown die link => Sys2Proof.Machine.execLinkDown die link s
  | .securityAlarm src => Sys2Proof.Machine.execSecurityAlarm src s
  | .bootRecord sent image => Sys2Proof.Machine.execBootRecord sent image s
  | .selfTestDone results => Sys2Proof.Machine.execSelfTestDone results s
  | .linkUp die link => Sys2Proof.Machine.execLinkUp die link s
  | .atomPerformed a => Sys2Proof.Machine.execAtomPerformed a s
  | .tstPerformed a => Sys2Proof.Machine.execTstPerformed a s
  | .tldReturn a => Sys2Proof.Machine.execTldReturn a s
  | .correctableError die level => Sys2Proof.Machine.execCorrectableError die level s

end Sys2Proof.Machine
end

