-- ==== Sys2Proof/Machine/Service.lean ====
section
/-! DEFINITION. The passing of time, and what the module does of itself: the events that are due in a core cycle (R40, R41,
R68, R72, R185, R297, R300, R361, R383), and those by which its units go on with their work. -/

namespace Sys2Proof.Machine

/-- An outcome followed by what comes next, unless it stops. -/
def thenDo (o : Out) (k : State → Out) : Out :=
  match o with
  | .next s => k s
  | .fault r => .fault r
  | .refused r => .refused r

/-- Several things done in order. -/
def inOrder {α : Type} (k : α → State → Out) : List α → State → Out
  | [], s => .next s
  | x :: xs, s => thenDo (k x s) (inOrder k xs)

/-- Time passes (R3, R283): the allowances of devices that have become runnable (R296), the clock, the watchdogs (R382). -/
def passTime (s : State) (dt : Nat) : State :=
  let s := refreshAll s
  expireAll (tickQueues { s with clock := s.clock + dt } dt)

/-- The agents of the module: on cores, on tenders, and the harbourmasters. -/
def State.everyAgent (s : State) : List Agent := s.agents ++ s.supers.map fun x => .hm x.1

/-! ### What is due in a core cycle -/

/-- The spilled fragments that have become ready noted on every core (R72). -/
def State.noteSpilled (s : State) : State := s.cores.foldl (fun (s : State) x => noteReady s x.1) s

/-- What is due for an agent: the end of a YIELD (R185), the limit of a TLD (R361). -/
def dueFor (s : State) (a : Agent) : List Instr :=
  match s.ctx? a with
  | none => []
  | some c =>
    match c.f.wait with
    | .sleep _ _ => [.sleepWake a]
    | .tld _ _ => [.tldTmo a]
    | _ => []

/-- What is due on a core: rejoin timeouts (R68), the forced take (R300), the loads of spilled fragments (R72). -/
def dueOn (core : Nat) (b : Block) : List Instr :=
  (b.groups.flatMap fun g => (List.range 8).map fun j => Instr.rjtmo core g.index j) ++ [.forcedTake core] ++
    (List.range 4).map fun q => .fragmentLoad core q

/-- The front ends send again what they retain, every millisecond (R390). DESIGN CHOICE: at the whole milliseconds of module
time. -/
def resends (s : State) : List Instr :=
  if s.cycles % 1750000 == 0 then (s.fes.filter fun f => !f.2.retained.isEmpty).map fun f => .msgResend f.1 else []

/-- The events of a core cycle (R40, R41): each happens where it is due, the watchdogs that have counted it before a device
leaves (R396). -/
def dueEvents (s : State) : List Instr :=
  s.fes.flatMap (fun f => (f.2.queues.filter fun q => q.2.wdt != 0#16).map fun q => Instr.wdog f.1 q.1) ++
    resends s ++
    s.everyAgent.flatMap (dueFor s) ++
    s.cores.flatMap (fun x => (x.2.block.map (dueOn x.1)).getD []) ++
    ((s.parts.filter fun p => p.2.en).flatMap fun p => [Instr.periodBoundary p.1, .sliceEnd p.1]) ++
    s.kqueues.flatMap fun x =>
      match x.2 with
      | [] => []
      | _ :: _ => (s.members.filter fun m => m.1 / 32 == 256 * (x.1 % 32) + x.1 / 32).flatMap fun m =>
          m.2.words.map fun w => .collNeighbourTimeout (x.1 / 32) (x.1 % 32) w.2

/-! ### The work of the units -/

/-- What the memory system has to do for an agent. -/
def workFor (s : State) (a : Agent) : List Instr :=
  match s.ctx? a with
  | none => []
  | some c =>
    ((c.g.tags.filter fun t => t.2.st == .pending).map fun t => Instr.tagLanded a t.1) ++
      (match c.f.wait with
       | .atom => [.atomPerformed a]
       | .tld _ _ => [.tldReturn a]
       | _ => []) ++
      match a with
      | .frag _ _ _ => []
      | _ => if c.g.tsts.isEmpty then [] else [.tstPerformed a]

/-- The agent under which an accepted tile store of a group of a core goes on: the fragment that holds its lane, or one that
is gone (R133). -/
def tileAgent (core : Nat) (g : Group) (t : TileStore) : Agent :=
  .frag core g.index (((g.frags.find? fun f => (t.mask &&& f.mask) != 0#64).map (·.fid)).getD
    ((g.frags.map (·.fid)).foldl max 0 + 1))

/-- What there is to do for the block of a core. -/
def workOn (core : Nat) (b : Block) : List Instr :=
  (List.range b.warps.length).map (fun h => Instr.storeDrain (.warp core h)) ++
    (List.range 4).map (fun q => Instr.rgrowGrant core q) ++
    (b.groups.flatMap fun g => (g.tsts.map (tileAgent core g)).eraseDups.map Instr.tstPerformed) ++
    (b.groups.flatMap fun g => (g.frags.filter Frag.leaving).map fun f =>
      Instr.ejectHandover core (g.width * g.index + (maskLanes f.mask).headD 0)) ++
    [.blockTake core, .blockRetire core]

/-- What an engine has to do at the head of its queue. -/
def engineWork (q : QueueId) : List Instr :=
  [.guardTest q, .guardopen q, .qfncPerformed q] ++
    match q with
    | .copy k => [.cpyPerformed k]
    | .matrix p => [.mldbPerformed p, .mmaPerformed p, .maccPerformed p, .mtblPerformed p]
    | .coll v d => [.triggerMet v d, .collPerformed v d]

/-- The queues that a waiting command may enter, or an entry withdrawn from a block that runs again (R240, R245). -/
def State.openQueues (s : State) : List QueueId :=
  ((s.cores.flatMap fun x => (x.2.block.filter fun b => b.st != .suspended).elim [] fun b =>
      b.withdrawn.map fun y => requeue x.1 y.1) ++ s.everyAgent.filterMap fun a => (s.ctx? a).bind fun c =>
    match c.f.wait with
    | .engine q _ => some q
    | _ => none).eraseDups

/-- The page that a capture preserves next, as its device and its address (R116). -/
def captureWork (s : State) (x : Nat × Vd) : List Instr :=
  if x.2.busy then
    let ps := capturePages s (x.1 / 256) (x.1 % 256)
    [.pagePreserve (x.1 % 256) (BitVec.ofNat 64 (((ps.find? (pageNext s x.1 ps)).map (·.base)).getD 0))]
  else []

/-- What the scheduler of a partition has to do. -/
def shareWork (x : Nat × Part) : List Instr :=
  [.recordWrite x.1, .contextSave x.1] ++ x.2.saved.map (fun g => Instr.gangResume x.1 g.gang) ++ [.gangForm x.1]

/-- A WAITSIG of a queue has begun and goes on, the queue enabled or not (R287). -/
def Queue.waits (q : Queue) : Bool := q.entries.any fun e => e.begun && !e.completed && hdrKind e.hdr == 3

/-- What a front end has to do for its queues. -/
def queueWork (x : Nat × Fe) : List Instr :=
  (x.2.queues.filter fun q => q.2.en || q.2.waits).flatMap fun q => [Instr.heldRecordIntake x.1 q.1, .entryBegin x.1 q.1]

/-- One round of the units of the module, each doing the next thing that it can. DESIGN CHOICE: their order, which the manual
leaves open; the agenda makes any other. -/
def serviceEvents (s : State) : List Instr :=
  s.walks.map (fun w => Instr.pageWalkDone w.id) ++
    s.everyAgent.flatMap (workFor s) ++
    s.cores.flatMap (fun x => (x.2.block.map (workOn x.1)).getD []) ++
    s.ejected.flatMap (fun e => [Instr.storeDrain (.ejected e.core e.thread), .ejectReturn e.core e.thread]) ++
    s.supers.map (fun x => Instr.storeDrain (.hm x.1)) ++
    s.openQueues.map (fun q => Instr.queueAccept q) ++
    s.busyQueues.flatMap engineWork ++
    (s.fabric.flatMap fun m => [Instr.chunkExponentUp m, .chunkExponentDown m, .chunkDataUp m, .chunkResultDown m, .collAbort m]) ++
    (s.commands.flatMap fun c => [Instr.tlbinvPerformed c.id, .icinvPerformed c.id]) ++
    s.vds.flatMap (captureWork s) ++
    ((s.parts.filter fun p => p.2.en).flatMap shareWork) ++
    s.fes.flatMap queueWork ++
    (s.vds.filter fun x => x.2.resetting.isSome).map fun x => .vdResetComplete (x.1 % 256)

/-- The units go on with their work in this core cycle: every so many cycles, a number that no program has a part in (R41). -/
def State.served (s : State) : Bool := s.cycles % (Config.servicePeriod + 1) == 0

end Sys2Proof.Machine
end

