-- ==== Sys2Proof/Machine/Turns.lean ====
section
/-! DEFINITION. What one turn of the agenda does, and a core cycle of the module. In a core cycle what is due happens, every
quadrant and every tender selects and issues, and the units are served; the agenda resolves what order there is between
these, and adds what the host and the world outside do. With an empty agenda core cycles pass. -/

namespace Sys2Proof.Machine

/-! ### The two half-issues of a width-64 pair (R30) -/

/-- The lanes of the even warp of a pair. -/
def evenLanes : W64 := 0xFFFFFFFF#64

/-- An instruction executed by the lanes of a half alone, where its fragment then just goes on at the next instruction; the mask
of the fragment is whole again. -/
def halfRun (a : Agent) (i : Instr) (half : W64) (s : State) : Option State :=
  match s.ctx? a with
  | none => none
  | some c =>
    match exec i (s.mapFrag a fun f => { f with mask := f.mask &&& half }) with
    | .next t =>
      match t.ctx? a with
      | some d =>
        if d.f.pc == c.f.pc + 16 && d.f.stop.isNone && d.f.wait == .none then
          some (t.mapFrag a fun f => { f with mask := c.f.mask })
        else none
      | none => none
    | _ => none

/-- The first half-issue: the even warp's lanes execute, and the fragment stays at its instruction. An instruction that does
not just go on takes its outcome whole. -/
def firstHalf (a : Agent) (i : Instr) (c : Ctx) (s : State) : Out :=
  match halfRun a i evenLanes s with
  | none => exec i s
  | some t =>
    let due := s.clock + coreTicks (occupancy i)
    .next (t.mapFrag a fun f =>
      { c.f with pend := f.pend, halfTill := due + coreTicks 1, half := some ⟨due, i, c.f.pend, c.g.lanes⟩ })

/-- The landing tag that a load fills, with another state of it. -/
def Group.withLoad (g : Group) (i : Instr) (k : Tag → Tag) : Group :=
  match i with
  | .ld w => g.setTag w.tag.toNat (k (g.tag w.tag.toNat))
  | _ => g

/-- The landing tag of a load. -/
def Group.loadTag (g : Group) (i : Instr) : Tag :=
  match i with
  | .ld w => g.tag w.tag.toNat
  | _ => Tag.empty

/-- What both halves of a load bring its tag. -/
def Tag.join (x y : Tag) : Tag :=
  if x.st == .empty then y
  else if y.st == .empty then x
  else { y with mask := x.mask ||| y.mask, data := x.data ++ y.data, bad := x.bad ++ y.bad }

/-- What the first half-issue has changed put back: the threads of its lanes, the pending results, the tag of a load. -/
def Group.undoHalf (g : Group) (f : Frag) (h : Half) : Group :=
  let ls := maskLanes (f.mask &&& evenLanes)
  let g := ls.foldl (fun (g : Group) l => g.setLane l (h.threads.getD l (g.lane l))) g
  (g.withLoad h.instr fun _ => Tag.empty).setFrag { f with pend := h.pend, half := none }

/-- The second half-issue of a fragment, where it is due and its unit lets it issue: the odd warp's lanes execute, and the
fragment goes on. DEDUCED: where they do not just go on, a trap or a wait is that of the whole instruction, which then leaves
nothing of its first half-issue (log entry 125). -/
def secondHalf (a : Agent) (s : State) : Out :=
  match s.ctx? a with
  | none => .next s
  | some c =>
    match c.f.half with
    | none => .next s
    | some h =>
      if s.clock < h.due || !unitReady s c then .next s
      else
        let s := { s with cur := some a }
        let open_ := s.mapGroup a fun g => g.withLoad h.instr fun _ => Tag.empty
        match halfRun a h.instr (~~~evenLanes) (open_.mapFrag a fun f => { f with half := none }) with
        | some t => .next (t.mapGroup a fun g => g.withLoad h.instr fun y => (c.g.loadTag h.instr).join y)
        | none => exec h.instr (s.mapGroup a fun g => g.undoHalf c.f h)

/-- An agent issues one instruction (R71): the stages before its meaning, then its meaning, in two half-issues where both warps
of a width-64 pair take part (R30). -/
def issueTurn (a : Agent) (s : State) : Out :=
  match prepare s a with
  | .inr o => o
  | .inl (i, s) =>
    match s.ctx? a with
    | some c => if c.halves == 2 && halfwise i then firstHalf a i c s else exec i s
    | none => exec i s

/-- A quadrant issues the second halves that are due, then selects and issues, once in a core cycle (R30, R71, R399). -/
def quadTurn (core q : Nat) (s : State) : Out :=
  let due := (quadFrags s core q).filter fun c => c.f.half.isSome
  thenDo (inOrder secondHalf (due.map fun c => c.agent) s) fun s =>
    let cs := opportunities s core q
    let picks := pickOf cs
    inOrder issueTurn (picks.map fun x => x.1.agent) (quadCount s core q cs picks)

/-- An event of the module happens: it has no issuer. -/
def eventTurn (i : Instr) (s : State) : Out := exec i { s with cur := none }

/-! ### Tenders (R77) -/

/-- The contexts of a tender in use, by their number on it, with their agents. -/
def State.tenderAgents (s : State) (die t : Nat) : List (Nat × Agent) :=
  ((s.ejected.filter fun e => dieOf e.core == die && e.ctx / 8 == t).map fun e => (e.ctx % 8, Agent.ejected e.core e.thread)) ++
    s.supers.filterMap fun x => x.2.ctx.bind fun c =>
      if (s.part x.1).base / 2 == die && c / 8 == t then some (c % 8, Agent.hm x.1) else none

/-- An agent can issue now. -/
def State.agentReady (s : State) (a : Agent) : Bool :=
  match s.ctx? a with
  | some c => ready s c
  | none => false

/-- The contexts that a tender issues in a tender cycle (R77): up to four ready ones, in turn from the one its round robin
has come to. -/
def tenderPick (s : State) (die t : Nat) : List (Nat × Agent) :=
  let xs := s.tenderAgents die t
  let from_ := (tblGet (0, 0) s.tenders (24 * die + t)).1
  (((List.range 8).filterMap fun i => xs.find? fun x => x.1 == (from_ + i) % 8).filter fun x => s.agentReady x.2).take 4

/-- Ticks in a tender cycle, of 3.2 GHz (R3). -/
def tenderTicks : Nat := 35

/-- A tender takes the tender cycle that has come, once (R77). -/
def tenderTurn (die t : Nat) (s : State) : Out :=
  let x := tblGet (0, 0) s.tenders (24 * die + t)
  if s.clock < x.2 then .next s
  else
    let picks := tenderPick s die t
    match picks.getLast? with
    | none => .next s
    | some l =>
      let y := ((l.1 + 1) % 8, (s.clock / tenderTicks + 1) * tenderTicks)
      inOrder issueTurn (picks.map (·.2)) { s with tenders := tblSet (0, 0) s.tenders (24 * die + t) y }

/-- The tenders with a context in use, as die and tender. -/
def State.busyTenders (s : State) : List (Nat × Nat) :=
  (s.ejected.map (fun (e : Ejected) => (dieOf e.core, e.ctx / 8)) ++
    s.supers.filterMap (fun (x : Nat × Super) => x.2.ctx.map fun c => ((s.part x.1).base / 2, c / 8))).eraseDups

/-! ### A core cycle -/

/-- The quadrants of the cores that hold a block. -/
def State.quads (s : State) : List (Nat × Nat) :=
  (s.cores.filter fun x => x.2.block.isSome).flatMap fun x => (List.range 4).map fun q => (x.1, q)

/-- The tender cycles that begin within a core cycle, by their ticks from its start. -/
def tenderStarts (now : Nat) : List Nat := (upFrom 1 64).filter fun o => (now + o) % tenderTicks == 0

/-- The rest of a core cycle of which `d` ticks are over: its tender cycles, one after the other. -/
def tenderCycles : List Nat → Nat → State → Out
  | [], d, s => .next (passTime s (coreTicks 1 - d))
  | o :: os, d, s =>
    let s := passTime s (o - d)
    thenDo (inOrder (fun x s => tenderTurn x.1 x.2 s) s.busyTenders s) (tenderCycles os o)

/-- What is due in a core cycle happens (R40, R41). -/
def dueTurn (s : State) : Out :=
  let s := s.noteSpilled
  inOrder eventTurn (dueEvents s) s

/-- The units of the module are served, where the cycle is one of those (R41). -/
def serviceTurn (s : State) : Out :=
  if s.served then inOrder eventTurn (serviceEvents s) s else .next s

/-- A core cycle: what is due, the quadrants, the units, and the time that passes with the tender cycles in it. -/
def cycleTurn (s : State) : Out :=
  thenDo (dueTurn s) fun s =>
    thenDo (inOrder (fun x s => quadTurn x.1 x.2 s) s.quads s) fun s =>
      thenDo (serviceTurn s) fun s => tenderCycles (tenderStarts s.clock) 0 s

/-- Core cycles one after the other. -/
def cycles : Nat → State → Out
  | 0, s => .next s
  | n + 1, s => thenDo (cycleTurn s) (cycles n)

/-! ### The turns of the agenda -/

/-- A slice evicts a line: it is written back and dropped (R109). -/
def evictTurn (cl line : Nat) (s : State) : Out :=
  .next (match tblFind (s.slice cl) line with
    | some _ => s.dropLine cl line
    | none => s)

/-- An instruction cache drops the lines at an address (R316). -/
def dropCodeTurn (holder va : Nat) (s : State) : Out :=
  .next { s with code := s.code.filter fun l => !(l.holder == holder && l.va == va / 128 * 128) }

/-- A send reaches a command endpoint: its records are received in order (R306). -/
def sendTurn (fe : Nat) (bs : List Byte) (s : State) : Out :=
  let (is, s) := receiveSend s fe bs
  inOrder eventTurn is s

/-- An instruction has gone past its commit (R56): it has performed, it waits to perform, or its fragment is gone. -/
def commits (a : Agent) (pc : Nat) (o : Out) : Bool :=
  match o with
  | .next s =>
    (match s.ctx? a with
     | some c => c.f.stop.isNone && (c.f.rst.pc == pc || c.f.rst.pc == pc + 16)
     | none => true)
  | _ => false

/-- A parity error strikes an agent at its perform step (R337): a strand-ending instruction that passes its checks has
committed, and reruns from itself. -/
def strikeTurn (a : Agent) (s : State) : Out :=
  let strike (s : State) : Out := eventTurn (.trans a .latch) s
  match prepare s a, s.ctx? a with
  | .inl (i, t), some c => strike (if endsStrand i && commits a c.f.pc (exec i t) then t.ensureCommit (t.reread c) else s)
  | _, _ => strike s

/-- One turn. -/
def runTurn (t : Turn) (s : State) : Out :=
  match t with
  | .quad core q => quadTurn core q s
  | .tender die t => tenderTurn die t s
  | .event i => eventTurn i s
  | .tick n => cycles n s
  | .parity q => .next (parityTurn q s)
  | .strike a => strikeTurn a s
  | .evict cl line => evictTurn cl line s
  | .dropCode holder va => dropCodeTurn holder va s
  | .send fe bs => sendTurn fe bs s

/-! ### A program placed from outside -/

/-- The kernel of a placed instruction: one full warp of width 32, all registers, every capability
class, code at address 0. -/
def placedKernel : Kernel where
  n := 32
  width := some 32
  gp := 1
  gf := 0
  g := 256
  scratch := 0
  useMask := ~~~0#64
  codeBase := 0#64
  codeSize := 65536
  survTab := 0#64
  survN := 0
  barrTab := 0#64
  barrN := 0
  bank := []

/-- The group of a placed instruction: it stands inside a strand, so any word may follow. -/
def placedGroup (fid now : Nat) : Group :=
  let g := entryGroup placedKernel 0#32 0#32 0#32 2#32 fid 0 now
  { g with frags := g.frags.map fun f => { f with expect := none } }

/-- The block of a placed instruction: on core 0, the leader of its pair in a gang of two. -/
def placedBlock (fid now : Nat) : Block where
  fe := 0
  vd := 0
  part := 0
  queue := 0
  tag := 0
  index := 0
  gang := 0
  rank := 0
  gangSize := 2
  lclu := 0
  lcore := 0
  kern := placedKernel
  st := .running
  groups := [placedGroup fid now]
  warps := [⟨256, 256, false, []⟩]
  bars := []
  gates := []
  taking := none
  first := true
  kept := []
  keptBytes := 0
  withdrawn := []
  gtFloor := 0

/-- The translation of the page at address 0 to physical address 0. -/
def placedTlb : TlbEntry := ⟨0, 0#16, 0, 65536, 0, true, true, false, false, false, true, 0⟩

/-- The bits of an instruction, all above `nbits` zero, as its sixteen bytes, lowest first (R138). -/
def placedBytes (nbits w : Nat) : List Byte := leBytes 16 (w % 2 ^ min nbits 128)

/-- A state with an instruction placed where the next step fetches it: its bytes at physical address 0,
a block on core 0 whose one fragment is about to issue it, and the turn of its quadrant, with both issues free, at the head
of the agenda. -/
def placeInstr (s : State) (nbits w : Nat) : State :=
  let (fid, s) := s.fresh
  let c := s.core 0
  { s with
    mem := s.mem.write 0 (placedBytes nbits w), areas := cutAreas s.areas 0 (placedBytes nbits w).length
    code := s.code.filter fun l => l.holder != 0
    cores := tblSet Core.empty s.cores 0
      { c with block := some (placedBlock fid s.clock), tlb := placedTlb :: c.tlb, held := [], heldS := [] }
    agenda := .quad 0 0 :: s.agenda }

end Sys2Proof.Machine
end

