-- ==== Sys2Proof/Machine/Step.lean ====
section
/-! DEFINITION. One step of the module: the next turn of the agenda, or, with none, a core cycle. -/

namespace Sys2Proof.Machine

/-- One step. -/
def step (s : State) : Host.Outcome State Fault Refusal :=
  match s.agenda with
  | [] => cycleTurn s
  | t :: ts => runTurn t { s with agenda := ts }

/-- A state with the instruction of `nbits` bits of value `w` placed where `step` fetches next. -/
def State.withFetchWord (s : State) (nbits w : Nat) : State := placeInstr s nbits w

end Sys2Proof.Machine
end

