-- ==== Sys2Proof/Machine/Readers.lean ====
section
/-! DEFINITION. How claims read a group: its registers and predicates by place, and the rest of it. -/

namespace Sys2Proof.Machine

/-- The value of a register or predicate of a group; a predicate reads 1 or 0. -/
def readLoc (g : Group) : RegLoc → W32
  | .near l i => (g.lane l).nreg i
  | .vec l i => (g.lane l).vreg i
  | .scal i => g.sreg i
  | .pred l i => if (g.lane l).pred i then 1#32 else 0#32

/-- The registers a destination of `n` words names in lane `l` (R44). -/
def destRegs (d : Opnd) (l n : Nat) : List RegLoc := (destLocs d l (List.replicate n 0#32)).map (·.1)

/-- What a thread has apart from its registers, predicates, generator and poison. -/
def threadRest (t : Thread) : Bool × Bool × Bool × W32 × BitVec 16 := (t.present, t.exited, t.away, t.srsRst, t.arv)

/-- What a group has apart from its registers, flags and fragments. -/
def groupRest (g : Group) :
    Nat × Nat × Tbl RejReg × Tbl (Tbl W32) × Tbl (W64 × Tbl W32) × Tbl Tag × List SEntry × List TileStore × Nat :=
  (g.width, g.index, g.j, g.t, g.mloads, g.tags, g.sbuf, g.tsts, g.lanes.length)

/-- V register `i` of lane `l` is poisoned (R362). -/
def poisonAt (g : Group) (l i : Nat) : Bool := (g.lane l).bad.contains i

/-- A register can be written: its lane exists, or it is scalar; a predicate other than P7. -/
def writable (g : Group) : RegLoc → Prop
  | .near l _ => l < g.lanes.length
  | .vec l _ => l < g.lanes.length
  | .scal _ => True
  | .pred l i => l < g.lanes.length ∧ i < 7

end Sys2Proof.Machine
end

