-- ==== Sys2Proof/Safety.lean ====
section
/-! DEFINITION. What a safe run is, in the words claims use: no step of it faults or is refused. -/

namespace Sys2Proof.Machine

/-- An outcome that goes on. -/
def Out.goesOn (o : Out) : Prop := ∃ s, o = .next s

/-- A state from which `n` steps all go on. -/
def State.safeFor (s : State) (n : Nat) : Prop := Out.goesOn (Sys2Proof.core.run n s)

/-- A state from which every step goes on. -/
def State.safe (s : State) : Prop := ∀ n, s.safeFor n

end Sys2Proof.Machine
end

