-- ==== Sys2Proof/Certificates/Slice0/Obligations.lean ====
section
/-! DEFINITION. The statements for the provers. Each formalises a rule of the manual or follows from its
sections; the vocabulary they share comes first. A statement is about every state, so also about states that
no run reaches. -/

namespace Sys2Proof.Claims

open Sys2Proof Sys2Proof.Machine

/-! ### Vocabulary -/

/-- `c` is the context that issues `i` in `s`, at a level and place where `i` may run (R345 to R350). -/
structure Issues (s : State) (i : Instr) (c : Ctx) : Prop where
  issuer : s.cur = some c.agent
  ctx : s.ctx? c.agent = some c
  place : placeTrap s c i = none

/-- No V register of an acting lane is poisoned, so no source stops the instruction (R364). -/
def Clean (c : Ctx) (g : Guard) : Prop := ∀ l ∈ c.acting g, (c.g.lane l).bad = []

/-- The number that the `n` registers of a destination hold in lane `l`, the first one lowest (R43). -/
def dValue (g : Group) (d : Opnd) (l n : Nat) : Nat :=
  packElements 32 ((destRegs d l n).map fun r => (readLoc g r).toNat)

/-- The fragments of a group once the issuing one stands at its next instruction; `k` says what else of that
fragment changed. -/
def movedOn (c : Ctx) (k : Frag → Frag) : List Frag :=
  c.g.frags.map fun x => if x.fid == c.f.fid then k (c.f.goTo (c.f.pc + 16) none) else x

/-! ### Register instructions -/

/-- The instructions that act on the registers of their own lane alone (R160 to R173, R187, R188, R192 to
R205). -/
def arith : List (ArithOp → Instr) :=
  [.iadd, .iaddx, .isub, .imul, .imulh, .imad, .imin, .imax, .iabs, .ineg, .icmp, .lea, .and, .or, .xor, .not, .tern,
   .shl, .shr, .sar, .rol, .funsh, .bfx, .bfi, .popc, .clz, .brev, .bytx, .mov, .sel, .cvti] ++
  [.fadd, .fmul, .ffma, .fmin, .fmax, .fcmp, .frnd, .fcvt, .f2i, .i2f, .fdiv, .fsqrt, .frcp, .frsq, .fexp2, .flog2,
   .fsin, .fcos, .ftanh, .fclass, .fscalb, .ffrexp, .dot2, .dot4, .dot8, .qcvt, .dqcvt, .sclmax] ++
  [.plop, .p2s, .rqry, .fmtsetSrs, .fmtget, .fmtgetSrs]

/-- The registers that D names (R43, R44): a pair for a pair type, and what R162, R194, R200 to R204 say. -/
def resultWords : Instr → Nat
  | .fcmp _ | .fclass _ | .dot2 _ | .dot4 _ | .dot8 _ | .qcvt _ | .sclmax _ => 1
  | .dqcvt w => if w.ty == .f32 then 8 else 4
  | .ffrexp w => if w.mode == 1#4 then 1 else w.ty.regs
  | .iadd w | .iaddx w | .isub w | .imul w | .imulh w | .imad w | .imin w | .imax w | .iabs w | .ineg w | .icmp w
  | .lea w | .and w | .or w | .xor w | .not w | .tern w | .shl w | .shr w | .sar w | .rol w | .funsh w | .bfx w
  | .bfi w | .popc w | .clz w | .brev w | .bytx w | .mov w | .sel w | .cvti w | .fadd w | .fmul w | .ffma w | .fmin w
  | .fmax w | .frnd w | .fcvt w | .f2i w | .i2f w | .fdiv w | .fsqrt w | .frcp w | .frsq w | .fexp2 w | .flog2 w
  | .fsin w | .fcos w | .ftanh w | .fscalb w => w.ty.regs
  | _ => 1

/-- The predicate an instruction writes in each of its lanes, where it writes one (R157). -/
def writesPred : Instr → Option Nat
  | .iaddx w | .icmp w | .fcmp w | .qcvt w | .plop w => some (arithPd w)
  | .fclass w => if w.mode == 1#4 then some (arithPd w) else none
  | _ => none

/-- The instruction advances or writes the generator of its lanes (R93, R94). -/
def changesSrs : Instr → Bool
  | .fcvt w | .qcvt w => w.rnd == .sr
  | .fmtsetSrs _ => true
  | _ => false

/-- The instructions that can raise the sticky overflow flag (R190). -/
def mayOverflow : Instr → Bool
  | .fadd _ | .fmul _ | .ffma _ | .fmin _ | .fmax _ | .frnd _ | .fcvt _ | .f2i _ | .i2f _ | .fdiv _ | .fsqrt _ | .frcp _
  | .frsq _ | .fexp2 _ | .flog2 _ | .fsin _ | .fcos _ | .ftanh _ | .fscalb _ | .ffrexp _ | .dot2 _ | .dot4 _ | .dot8 _
  | .dqcvt _ => true
  | _ => false

/-- What a register instruction leaves unchanged in the issuing group. -/
structure RegFrame (c : Ctx) (i : Instr) (w : ArithOp) (g' : Group) : Prop where
  /-- Rejoin registers, manifests, tags, buffered stores, the shape of the group. -/
  rest : groupRest g' = groupRest c.g
  /-- The fragment stands at the next instruction; with lookahead it may hold one more pending result. A result written
  at once goes before the pending ones of its own registers, which an instruction with lookahead overtakes (R51). -/
  frags : ∃ p, (w.la = 0#4 → ∃ ws, (∀ q ∈ ws, ∃ l ∈ c.acting w.guard, q.1 ∈ destRegs w.d l (resultWords i)) ∧
      p = c.f.pend.map fun q => q.overtaken ws) ∧
    g'.frags = movedOn c fun f => { f with pend := p }
  /-- Every register and predicate but D of the acting lanes and the predicate the instruction writes. -/
  keeps : ∀ r, (∀ l ∈ c.acting w.guard, r ∉ destRegs w.d l (resultWords i) ∧ ∀ k, writesPred i = some k → r ≠ .pred l k) →
    readLoc g' r = readLoc c.g r
  poison : ∀ l x, (∀ m ∈ c.acting w.guard, RegLoc.vec l x ∉ destRegs w.d m (resultWords i)) → poisonAt g' l x = poisonAt c.g l x
  thread : ∀ l, threadRest (g'.lane l) = threadRest (c.g.lane l)
  srs : ∀ l, changesSrs i = false ∨ l ∉ c.acting w.guard → (g'.lane l).srs = (c.g.lane l).srs
  /-- OVF and OVFN are never cleared, and only the instructions of R190 raise them. -/
  sticky : (c.g.ovf = true → g'.ovf = true) ∧ (c.g.ovfn = true → g'.ovfn = true)
  ovf : mayOverflow i = false → g'.ovf = c.g.ovf ∧ g'.ovfn = c.g.ovfn

/-! ### Cross-lane instructions -/

/-- The cross-lane instructions (R206). -/
def cross : List (ArithOp → Instr) := [.lrd, .pcol, .redx, .scanx, .cmpx, .peer]

/-- The registers D names: a mask takes a pair at width 64 (R209, R213), CMPX writes key and payload (R212). -/
def crossWords (width : Nat) : Instr → Nat
  | .lrd w | .redx w | .scanx w => w.ty.regs
  | .cmpx _ => 2
  | .pcol w => if w.mode == 3#4 && width == 64 then 2 else 1
  | .peer w => if w.mode != 2#4 && width == 64 then 2 else 1
  | _ => 1

/-- The predicate written in every participating lane (R208, R209, R213). -/
def crossPred : Instr → Option Nat
  | .lrd w => some (arithPd w)
  | .pcol w => if w.mode.toNat < 3 then some (arithPd w) else none
  | .peer w => if w.mode == 0#4 then none else some (arithPd w)
  | _ => none

/-- XEMP of the fragment afterwards (R207): REDX and SCANX set it when no lane participates, else clear it. -/
def crossXemp (c : Ctx) (g : Guard) : Instr → Bool
  | .redx _ | .scanx _ => (c.acting g).isEmpty
  | _ => c.f.xemp

/-- What a cross-lane instruction leaves unchanged in the issuing group. The B field of SCANX names a second
destination, an S register (R211). -/
structure CrossFrame (c : Ctx) (i : Instr) (w : ArithOp) (g' : Group) : Prop where
  rest : groupRest g' = groupRest c.g
  frags : ∃ p, (w.la = 0#4 → ∃ ws, (∀ q ∈ ws, (∃ l, (l ∈ c.acting w.guard ∨ writesScalar w.d = true) ∧
        (q.1 ∈ destRegs w.d l (crossWords c.g.width i) ∨ ∃ k, crossPred i = some k ∧ q.1 = .pred l k)) ∨
        i = .scanx w ∧ q.1 ∈ destRegs w.b.op 0 w.ty.regs) ∧
      p = c.f.pend.map fun q => q.overtaken ws) ∧
    g'.frags = movedOn c fun f => { f with pend := p, xemp := crossXemp c w.guard i }
  keeps : ∀ r, (∀ l, l ∈ c.acting w.guard ∨ writesScalar w.d = true → r ∉ destRegs w.d l (crossWords c.g.width i)) →
    (∀ l ∈ c.acting w.guard, ∀ k, crossPred i = some k → r ≠ .pred l k) →
    (i = .scanx w → r ∉ destRegs w.b.op 0 w.ty.regs) → readLoc g' r = readLoc c.g r
  thread : ∀ l, threadRest (g'.lane l) = threadRest (c.g.lane l) ∧ (g'.lane l).srs = (c.g.lane l).srs
  poison : ∀ l x, (∀ m ∈ c.acting w.guard, RegLoc.vec l x ∉ destRegs w.d m (crossWords c.g.width i)) →
    poisonAt g' l x = poisonAt c.g l x
  ovf : g'.ovf = c.g.ovf ∧ g'.ovfn = c.g.ovfn

/-! ### Results -/

/-- The element operations of R160, on integers read by the signedness of the type. -/
def intOps : List ((ArithOp → Instr) × (Nat → Int → Int → Int → Int)) :=
  [(.iadd, fun _ x y _ => x + y), (.isub, fun _ x y _ => x - y), (.imul, fun _ x y _ => x * y),
   (.imulh, fun w x y _ => x * y / (2 ^ w : Nat)), (.imad, fun _ x y z => x * y + z), (.imin, fun _ x y _ => min x y),
   (.imax, fun _ x y _ => max x y), (.iabs, fun _ x _ _ => (x.natAbs : Int)), (.ineg, fun _ x _ _ => -x)]

/-- The integer that element `k` of a source is (R84, R85, R160). -/
def intElement (c : Ctx) (l : Nat) (w : ArithOp) (x : Src) (k : Nat) : Int :=
  readInt w.ty.isSignedInt w.ty.width (element (c.src l w.ty x w.imm) w.ty.width k)

/-- The comparison of R162. -/
def holds (mode : Nat) (x y : Int) : Prop :=
  match mode with
  | 0 => x = y
  | 1 => x ≠ y
  | 2 => x < y
  | 3 => x ≤ y
  | 4 => x > y
  | _ => x ≥ y

/-- The class of R200 of an encoding with `fb` fraction bits and `eb` exponent bits. -/
def classOfBits (fb eb x : Nat) : Nat :=
  let f := x % 2 ^ fb
  let e := x / 2 ^ fb % 2 ^ eb
  let neg := x / 2 ^ (fb + eb) % 2 = 1
  if e = 2 ^ eb - 1 then
    if f = 0 then (if neg then 2 else 9) else if f / 2 ^ (fb - 1) = 0 then 0 else 1
  else if e = 0 then
    if f = 0 then (if neg then 5 else 6) else if neg then 4 else 7
  else if neg then 3 else 8

/-- What holds of the issuing context in a later state. -/
def After (t : State) (c : Ctx) (k : Ctx → Prop) : Prop := ∃ d, t.ctx? c.agent = some d ∧ k d

/-- The context of a branch once the pending results of its fragment are written (R51). -/
def settled (s : State) (c : Ctx) : Ctx := (s.settle c).reread c

/-- Every active lane reads the legal target `t` from an unpoisoned A (R174). -/
def oneTarget (d : Ctx) (w : CtlOp) (t : Nat) : Prop :=
  targetOk t = true ∧ ∀ l ∈ d.active, regTarget d w l = t ∧ d.poisoned l w.a.op 1 = false

/-- A fragment waits at an RJWAIT, on whatever register. -/
def waitsSome (x : Frag) : Prop := ∃ n, x.wait = .rejoin n

/-- The lanes that wait on register `j` once the fragment of `c` has arrived there (R67). -/
def joinedMask (c : Ctx) (j : Nat) : W64 := c.f.mask ||| ((c.g.waiter j).map (·.mask)).getD 0#64

/-- The fragment that stands for them: the one that waits there already, else the arriving one (R67). -/
def joinedFid (c : Ctx) (j : Nat) : Nat := ((c.g.waiter j).map (·.fid)).getD c.f.fid

/-- A running fragment of a core issues an RJWAIT whose register it fits; the numbers of the fragments of its group differ, and
what waits on the register waits at the same instruction. -/
structure Rejoins (s : State) (c : Ctx) (k i f j : Nat) : Prop where
  agent : c.agent = .frag k i f
  fits : (c.g.rej j).fits j c.f = true
  runs : c.f.wait = .none ∧ c.f.stop = none
  fids : (c.g.frags.map (·.fid)).Nodup
  waiter : ∀ y, c.g.waiter j = some y → y.pc = c.f.pc
  block : ∃ b, s.block? k = some b ∧ b.st ≠ .suspended

/-- Every register and predicate of a group but some places is as in another group. -/
def keepsBut (g g' : Group) (ps : List RegLoc) : Prop := ∀ r, r ∉ ps → readLoc g' r = readLoc g r

/-- Global memory, the slices, the scratchpads and accumulators of the cores as in another state. -/
def sameMemory (s t : State) : Prop :=
  t.ram = s.ram ∧ t.l2 = s.l2 ∧ ∀ k, (t.core k).scratch = (s.core k).scratch ∧ (t.core k).acc = (s.core k).acc

/-- A scratchpad access of lanes that nothing delays or stops: no earlier acquire or tile store is pending, the
addresses are legal and lie on `ps`, no line is absent and no granule poisoned (R103 to R105, R364). -/
structure ScratchOpen (s : State) (c : Ctx) (ak n : Nat) (addrs : List (Nat × Nat)) (ps : List (Nat × Nat × Nat)) : Prop where
  free : accessBlock c = none
  legal : scratchLanes s c ak addrs = .inl ps
  present : ∀ p ∈ ps, (s.core p.2.1).absentLine p.2.2 n = none
  sound : ∀ p ∈ ps, (s.core p.2.1).scratchPoisoned p.2.2 n = false

/-- The lanes of the acting set that exist in the group. -/
def Lane (c : Ctx) (g : Guard) (l : Nat) : Prop := l ∈ c.acting g ∧ l < c.g.lanes.length

/-- No line is absent and no granule poisoned under `n` bytes of a scratchpad (R105, R364). -/
def soundRange (s : State) (k off n : Nat) : Prop :=
  (s.core k).absentLine off n = none ∧ (s.core k).scratchPoisoned off n = false

/-- The slice of a cluster lists each line once, in order. -/
def sliceSorted (s : State) (cl : Nat) : Prop := tblSorted (s.slice cl) = true

/-- A slice has room for some more lines, so that none has to leave it (R14, R109). -/
def roomFor (s : State) (cl lines : Nat) : Prop := (s.slice cl).length + lines ≤ sliceLines

/-- The low (0) or high (1) 4-bit element of a byte (R120). -/
def nibble (b : Byte) (i : Nat) : Nat := b.toNat / 16 ^ i % 16

/-- Global memory after the dirty 4-bit elements of some lines of a slice have been written back, and nothing else (R109,
R120). -/
def WrittenBack (s t : State) (cl : Nat) (lines : Nat → Bool) : Prop :=
  ∀ a, ∀ i < 2, nibble (t.mscByte a) i =
    match tblFind (s.slice cl) (a / 128) with
    | some l =>
      if lines (a / 128) && isHbm a && l.dirty.getLsbD (2 * (a % 128) + i) then nibble (tblGet 0#8 l.data (a % 128)) i
      else nibble (s.mscByte a) i
    | none => nibble (s.mscByte a) i

/-- A line is dirty, but not throughout. -/
def partDirty (l : L2Line) : Bool := l.dirty != 0#256 && l.dirty != BitVec.allOnes 256

/-- No line of a slice over a byte is dirty in part, so that an acquire does not write it back (R128). -/
def wholeAt (s : State) (cl a : Nat) : Prop := ∀ l ∈ s.slice cl, l.1 = a / 128 → partDirty l.2 = false

/-- Global memory after an acquire of a cluster: at most its lines that are dirty in part have been written back (R128). -/
def AcquiredAt (s t : State) (cl : Nat) : Prop := ∀ x, wholeAt s cl x → t.mscByte x = s.mscByte x

/-- The fragment of `c` stands at the next instruction and no register of its group has changed. -/
def PassedOn (t : State) (c : Ctx) : Prop := After t c fun d => d.f.pc = c.f.pc + 16 ∧ keepsBut c.g d.g []

/-- The release mark of a fragment after a release at a scope (R127). -/
def markedBy (f : Frag) (sc : Scope) : Option Scope :=
  some (match f.mark with
    | some m => scopeMax m sc
    | none => sc)

/-- A strand-ending instruction has performed (R56, R331): the fragment stands at the next instruction, which
must be an SBEG and is its restart point. -/
def Ended (c d : Ctx) : Prop :=
  d.f.pc = c.f.pc + 16 ∧ d.f.rst.pc = c.f.pc + 16 ∧ d.f.expect = some (.strand 3 c.f.pc) ∧ d.f.wait = .none

/-- The state in which a strand-ending instruction of `c` performs (R56, R126, R127): its strand is committed, no acquire load
of it is open, and the release mark, if it holds one, has taken its action. -/
def Performs (s : State) (c : Ctx) (t : State) : Prop :=
  let s := s.ensureCommit c
  acquirePending (s.reread c) = none ∧ s.takeMark (s.reread c) = some t

/-- The state in which the arrival of BARA, BARS or MBARV performs: committed, with no acquire load open and its release
done (R126, R233). -/
def Arrives (s : State) (c : Ctx) (w : MemOp) (t : State) : Prop :=
  let s := barHeld s c w
  acquirePending (s.reread c) = none ∧ s.takeMark (s.reread c) = some t

/-- A named barrier after `k` more arrivals with expected count `e`, and the count that completes it (R232). -/
def barAfter (b : Block) (n e k : Nat) : Barrier × Nat :=
  let x := b.barrier n
  let x : Barrier := { exp := if x.cnt = 0 then min e 2048 else x.exp, cnt := x.cnt + k }
  (x, if x.exp = 0 then b.liveThreads else x.exp)

/-- The operands that an engine command checks for alignment, each with its alignment in bytes (R347). -/
def cmdAligned (c : Ctx) : Instr → List (Nat × Nat)
  | .ldgs w => [((engPair c w.a.op).toNat, 16), ((c.reg 0 w.b.op 0).toNat, 16)] ++
      (if w.c.op = .none then [] else [((c.reg 0 w.c.op 0).toNat, 8)])
  | .mma w => [((engSrc c w w.a).toNat, 16), ((engSrc c w w.b).toNat, 16)] ++
      (if w.ty = .q4 then [((engSrc c w w.c).toNat, 4)] else [])
  | .macc w => (if w.ext.getLsbD 4 then [] else [((engSrc c w w.a).toNat, 16), ((engSrc c w w.b).toNat, 16)]) ++
      (if w.ext.getLsbD 3 then [((engSrc c w w.c).toNat, 16)] else [])
  | .mtbl w => [((engSrc c w w.a).toNat, 16)]
  | .coll w => if w.b.op = .none then [] else [((engPair c w.b.op).toNat, 4)]
  | .sigsSet w | .sigsAdd w => [((engPair c w.a.op).toNat, 4)]
  | _ => []

/-- The commands that an engine queue takes (R238 to R240). -/
def commands (m : MemOp) (w : EngOp) : List Instr :=
  [.ldgs m, .cpy w, .qfncCq w, .qfncMq w, .qfncKq w, .mldb w, .mma w, .macc w, .mtbl w, .coll w]

/-- The guard of a command. -/
def cmdGuard (i : Instr) : Guard := (i.common?.map (·.guard)).getD ⟨false, 7#3⟩

/-- MLDB takes part with at least one unpoisoned lane (R255, R364). -/
def loadsQuarter (c : Ctx) : Instr → Prop
  | .mldb w => mldbLanes c w ≠ [] ∧
      ∀ x ∈ mldbLanes c w, c.poisoned x.2 w.a.op (mldbSpan w.ty) = false ∧ c.poisoned x.2 w.b.op 1 = false
  | _ => True

/-- What an accepted entry is (R240): what the command captured, not yet begun. -/
def EntryOf (e : QEntry) (c : Ctx) (x : Capture) : Prop :=
  e.op = x.op ∧ e.obj = x.obj ∧ e.gate = x.gate ∧ e.fe = c.fe ∧ e.vd = c.vd ∧ e.core = c.core ∧ e.pc = c.f.pc ∧
    e.passed = false ∧ e.begun = false ∧ e.progress = 0

/-- No entry at the head of a queue is held by a guard slot of this number (R243). -/
def NoneHeld (s : State) (n : Nat) : Prop := ∀ q e rest, s.engineQueue q = e :: rest → e.begun = true ∨ e.gate ≠ some n

/-- The entry at the head of the one queue that holds any is held by guard slot `n` of the block of `c` (R243). -/
structure HeldBy (s : State) (c : Ctx) (n : Nat) (q : QueueId) (e : QEntry) (rest : List QEntry) : Prop where
  only : s.busyQueues = [q]
  head : s.engineQueue q = e :: rest
  slot : e.gate = some n ∧ e.passed = false ∧ e.begun = false
  sound : e.page = none ∧ e.retries < 4
  block : e.core = c.core ∧ e.block? s ≠ none

/-- The head entry of a queue is at work: begun, with no page request open and no error (R243, R362). -/
def AtWork (s : State) (q : QueueId) (e : QEntry) (rest : List QEntry) : Prop :=
  s.engineQueue q = e :: rest ∧ e.begun = true ∧ e.page = none ∧ e.retries < 4

/-- An entry of a matrix queue breaks no limit, and every line that it reads is present (R105, R365, R375). -/
def MatrixFree (s : State) (p : Nat) (e : QEntry) : Prop := matrixFault s p e = none ∧ matrixWaits s p e = false

/-- The barrier object of an entry lies at an offset of a core's scratchpad (R241). -/
def objectAt (s : State) (e : QEntry) (k off : Nat) : Prop :=
  ∃ a b, e.obj = some a ∧ e.block? s = some b ∧ scratchAt s e.fe e.vd e.core b.lclu b.kern.scratch a.toNat = .inl (k, off)

/-- The end of an entry reports nothing: its object, where it has one, lies at a good address, and it has carried
no poison (R241, R364). -/
def QuietEnd (s : State) (e : QEntry) : Prop := e.taint = none ∧ (e.obj = none ∨ ∃ k off, objectAt s e k off)

/-- The object of an entry lies outside `n` bytes of a scratchpad from an offset. -/
def objectOutside (s : State) (e : QEntry) (core lo n : Nat) : Prop :=
  ∀ k off, objectAt s e k off → k ≠ core ∨ off + 8 ≤ lo ∨ lo + n ≤ off

/-- A byte of a scratchpad does not lie in the object of an entry. -/
def offObject (s : State) (e : QEntry) (core x : Nat) : Prop := ∀ k off, objectAt s e k off → k ≠ core ∨ x < off ∨ off + 8 ≤ x

/-- A harbourmaster of a partition, where there is one, is not halted. -/
def notHalted (s : State) (p : Nat) : Prop := ∀ h, tblFind s.supers p = some h → h.halted = false

/-- A record stands in the ring of a partition or among those held for it (R322, R327), with its time, or that of its front
end's die at its posting, and the action of its group; the bit LOST may be set. -/
def Reported (s t : State) (p : Nat) (r : Rec) : Prop :=
  ∃ w ∈ (t.part p).ring ++ (t.part p).heldRecs, ∃ lost : Bool,
    w = r.word (r.time.getD (s.dieTime (p / 2))) ((s.part p).action r.cause.code.2) ||| (if lost then 1#512 <<< 102 else 0#512)

/-- A record of a cause would be posted and has room in the ring (R322, R327). -/
def CanReport (s : State) (p : Nat) (c : Cause) : Prop :=
  notHalted s p ∧ (s.part p).heldRecs = [] ∧ (s.part p).ring.length < (s.part p).ringSize ∧ (s.part p).action c.code.2 ≠ 0

/-- The record of R354 for an entry and a cause. -/
def engineReports (s t : State) (e : QEntry) (c : Cause) (detail addr : Nat) : Prop :=
  CanReport s (e.part s) c → Reported s t (e.part s) (engineRec s e c detail addr)

/-- A message of R313 reaches the member at the head of a queue, from its neighbour `i`, while its collective is at
work (R263, R389). -/
structure Receives (s : State) (m : ChunkMsg) (e : QEntry) (rest : List QEntry) (j : CollJob) (r : CollRun) (i : Nat) : Prop where
  head : s.engineQueue (.coll m.vd (m.dst.toNat % 32)) = e :: rest
  page : e.page = none
  job : collJob s (.coll m.vd (m.dst.toNat % 32)) e = some j
  run : e.run = some r
  comes : chunkComes s m = true
  group : j.tab.group = m.group
  index : r.j % 2 ^ 32 = m.j
  live : r.aborted = false ∧ r.triggered = true ∧ r.watch = none
  same : m.mixed = false ∧ m.cmd = j.cmd
  sender : j.tab.senderOf m = some i

/-- Nothing is known yet of the other chunks of a collective whose member has a child. -/
def OthersEmpty (j : CollJob) (r : CollRun) (c : Nat) : Prop :=
  j.tab.children ≠ [] ∧ ∀ d, d < j.chunks → d ≠ c → r.chunk d = Chunk.empty

/-- The entry at the head of a collective queue, with what its run says of one chunk. -/
def ChunkNow (t : State) (m : ChunkMsg) (rest : List QEntry) (c : Nat) (k : Chunk → Prop) : Prop :=
  ∃ e r, t.engineQueue (.coll m.vd (m.dst.toNat % 32)) = e :: rest ∧ e.run = some r ∧ k (r.chunk c)

/-- D of a scalar instruction holds the words `ws`, no other register of its group has changed, and its fragment
stands at the next instruction. -/
def Gives (t : State) (c : Ctx) (d : Opnd) (ws : List W32) : Prop :=
  After t c fun e =>
    let q := destLocs d (c.active.headD 0) ws
    e.f.pc = c.f.pc + 16 ∧ (c.active.headD 0 < c.g.lanes.length → ∀ x ∈ q, readLoc e.g x.1 = x.2) ∧
      keepsBut c.g e.g (q.map (·.1))

/-- A fragment of a core that is stopped after a trap (R323): with a cause, a handle, and a PC. -/
def Stopped (t : State) (c : Ctx) (h : Nat) (cause : Cause) (pc : Nat) : Prop :=
  After t c fun d => d.f.stop = some ⟨h, cause.code.1, none⟩ ∧ d.f.pc = pc

/-- The byte that the items of a store leave at an address, of global memory or of the scratchpad of a core: that of the last
one which writes it, else what stood there (R120). One that another part of the store has beaten writes nothing. -/
def byteLeft (items : List SItem) (glob : Bool) (core a : Nat) (old : Byte) : Byte :=
  items.foldl (fun b i =>
    match i.beaten, i.base glob core, i.act with
    | false, some p, .bytes bs => if p ≤ a then (bs[a - p]?).getD b else b
    | _, _, _ => b) old

/-- The lines of a slice that an item touches. -/
def itemLines (i : SItem) : Nat :=
  match i.place with
  | .glob pa _ _ _ _ => (granules 128 pa i.size).length
  | .scratch _ _ => 0

/-- The lines of a slice that an entry touches. -/
def entryLines (e : SEntry) : Nat := (e.items.map itemLines).sum

/-- What the queue of a warp holds once the entry `e` of the same commit, or of another part of its store, has performed from the
queue of warp `h` (R120); the queues of other agents have no such part. -/
def yielded (s : State) (id : FifoId) (e : SEntry) (k : Nat) (xs : List SEntry) : List SEntry :=
  match id with
  | .warp c h =>
    match s.block? c with
    | some b => xs.map fun x => x.yieldTo e (queueLane b.kern.w k) (queueLane b.kern.w h)
    | none => xs
  | _ => xs

/-- The warp of a queue; 0 for a queue of no warp. -/
def warpOfQueue : FifoId → Nat
  | .warp _ h => h
  | _ => 0
/-- An item that stores bytes to a scratchpad. -/
def inScratch (i : SItem) : Prop := ∃ k off bs, i.place = .scratch k off ∧ i.act = .bytes bs

/-- An item that stores bytes of the stacks, at a home die that is not lost. -/
def inGlobal (s : State) (die : Nat) (i : SItem) : Prop :=
  ∃ pa va pte b z bs, i.place = .glob pa va pte b z ∧ i.act = .bytes bs ∧ (∀ k < bs.length, isHbm (pa + k) = true) ∧
    s.homeLost die pa = false

/-- A virtual device is being reset. -/
def resets (t : State) (f v : Nat) : Prop := (t.vd f v).resetting ≠ none

/-- The record of a send is taken in by a front end (R308, R309, R371): it arrives, and nothing makes the front end reject it. -/
structure Accepts (s : State) (f : Nat) (h : BitVec 512) : Prop where
  hears : s.hears f = true
  room : stuffed s f = false
  header : badHeader h = false
  device : deviceOff s f h = false

/-- The writes by the host of the registers of die `d` (R285). -/
def hostWrites (d v n o : Nat) (x : W32) : List Instr :=
  [.partitionEnable (2 * d + o % 2) x, .partitionDisable (2 * d + o % 2) x, .pcolorWrite (2 * d + o % 2) x, .hmRestart (2 * d + o % 2) x,
   .queueEnable d n x, .queueDisable d n x, .qwdtWrite d n x, .vdEnable d v x, .vdDisable d v x, .lossScaleHostWrite d v n x,
   .placeTableWrite d v o x, .capmWrite d o x, .memberTableWrite d v n x, .registerWrite d o x] ++
  if d = 0 then [.genableClear x, .modrst x] else []

/-- A harbourmaster with its context cleared and its root taken (R377). -/
def superCleared (s : State) (p : Nat) (h : Super) : State :=
  { s with supers := tblInsert s.supers p { Super.idle (h.ctx.getD 0) with fifo := h.fifo, root := (s.part p).hmroot } }

/-- A source without modifier. -/
def plainly (o : Opnd) : Src := ⟨o, .packed, false, false⟩

/-- The fields of a word with an unguarded guard and no lookahead. -/
def fields (d : Opnd) (a b c : Src) (ty : Ty) (imm : W32) : Common := ⟨0#4, ⟨false, 7#3⟩, d, a, b, c, ty, imm⟩

end Sys2Proof.Claims

open Sys2Proof Sys2Proof.Machine Sys2Proof.Claims

/-- Every register instruction completes on unpoisoned operands, at every level that may run it, and changes
D, its predicate, its generator and the sticky flags alone: the rest of the module is as before. -/
def Obligations.RegisterFrame : Prop :=
  ∀ mk ∈ arith, ∀ (w : ArithOp) (s : State) (c : Ctx), Issues s (mk w) c → Clean c w.guard →
    ∃ n g', exec (mk w) s = .next (State.putGroup { s with freeCtr := n } c g') ∧ RegFrame c (mk w) w g'

/-- Every cross-lane instruction completes on unpoisoned operands and stays within its group. -/
def Obligations.CrossLaneFrame : Prop :=
  ∀ mk ∈ cross, ∀ (w : ArithOp) (s : State) (c : Ctx), Issues s (mk w) c → (mk w).wf = true → Clean c w.guard →
    ∃ g', exec (mk w) s = .next (s.putGroup c g') ∧ CrossFrame c (mk w) w g'

/-- R160: each element of D is the operation on the elements of the sources, saturated with `.sat` and wrapped
otherwise. R30: where both warps of a width-64 pair take part in such an instruction, it takes effect in two half-issues, the
even warp's lanes first, with its fragment still at it; the odd warp's once its unit's next opportunity has come, and the
fragment goes on. That cross-lane, scalar and strand-ending instructions and stores take effect with their first half-issue is
the model's reading (log entry 125). -/
def Obligations.IntegerResult : Prop :=
  (∀ p ∈ intOps, ∀ (w : ArithOp) (s : State) (c : Ctx), Issues s (p.1 w) c → (p.1 w).wf = true → Clean c w.guard →
     ∃ g', exec (p.1 w) s = .next (s.putGroup c g') ∧
       ∀ l, Lane c w.guard l → w.d ≠ .none → ∀ k < tyBits w.ty / w.ty.width,
         let v := p.2 w.ty.width (intElement c l w w.a k) (intElement c l w w.b k) (intElement c l w w.c k)
         element (dValue g' w.d l w.ty.regs) w.ty.width k =
           wrap w.ty.width (if w.sat then clampInt w.ty.isSignedInt w.ty.width v else v)) ∧
  (∀ p ∈ intOps, ∀ (w : ArithOp) (s : State) (c : Ctx), let i := p.1 w
     s.ctx? c.agent = some c → i.wf = true → Clean c w.guard → placeTrap s c i = none → halfwise i = true → w.d ≠ .none →
     c.f.wait = .none → c.f.stop = none →
     let result (g : Group) (l : Nat) : Prop := ∀ k < tyBits w.ty / w.ty.width,
       let v := p.2 w.ty.width (intElement c l w w.a k) (intElement c l w w.b k) (intElement c l w w.c k)
       element (dValue g w.d l w.ty.regs) w.ty.width k =
         wrap w.ty.width (if w.sat then clampInt w.ty.isSignedInt w.ty.width v else v)
     (s.cur = some c.agent → ∃ t, firstHalf c.agent i c s = .next t ∧ After t c fun d =>
       d.f.pc = c.f.pc ∧ d.f.mask = c.f.mask ∧ ready t d = false ∧
       (∃ h, d.f.half = some h ∧ h.instr = i ∧ h.due = s.clock + 64 * occupancy i) ∧
       (∀ l, Lane c w.guard l → l < 32 → result d.g l) ∧ ∀ l, 32 ≤ l → d.g.lane l = c.g.lane l) ∧
     (∀ h, c.f.half = some h → h.instr = i → h.due ≤ s.clock → unitReady s c = true → ∃ t, secondHalf c.agent s = .next t ∧
       After t c fun d => d.f.pc = c.f.pc + 16 ∧ d.f.mask = c.f.mask ∧ d.f.half = none ∧
         (∀ l, Lane c w.guard l → 32 ≤ l → l < 64 → result d.g l) ∧ ∀ l < 32, d.g.lane l = c.g.lane l))

/-- R167: the count is B read unsigned; a count of the width or more gives 0, or the sign for SAR. -/
def Obligations.ShiftResult : Prop :=
  ∀ mk ∈ ([.shl, .shr, .sar, .rol] : List (ArithOp → Instr)), ∀ (w : ArithOp) (s : State) (c : Ctx),
    Issues s (mk w) c → (mk w).wf = true → Clean c w.guard →
    ∃ g', exec (mk w) s = .next (s.putGroup c g') ∧
      ∀ l, Lane c w.guard l → w.d ≠ .none →
        let a := c.src l w.ty w.a w.imm % 2 ^ w.ty.width
        let n := c.src l .n32 w.b w.imm
        let d := dValue g' w.d l w.ty.regs
        (mk w = .shl w → d = if n < w.ty.width then a * 2 ^ n % 2 ^ w.ty.width else 0) ∧
        (mk w = .shr w → d = if n < w.ty.width then a / 2 ^ n else 0) ∧
        (mk w = .sar w → toSigned w.ty.width d =
          if n < w.ty.width then toSigned w.ty.width a / (2 ^ n : Nat) else if 0 ≤ toSigned w.ty.width a then 0 else -1) ∧
        (mk w = .rol w → ∀ i < 32, testBit d i = testBit a ((i + 32 - n % 32) % 32))

/-- R162: ICMP writes its predicate, ANDed with the source predicate, and all ones or zero to D. R200: FCLASS gives each of the
ten classes its own bit, in D, or tests it against the mask of IMM. -/
def Obligations.ComparesAndClasses : Prop :=
  (∀ (w : ArithOp) (s : State) (c : Ctx), Issues s (.icmp w) c → (Instr.icmp w).wf = true → Clean c w.guard →
     ∃ g', exec (.icmp w) s = .next (s.putGroup c g') ∧ ∀ l, Lane c w.guard l →
       let r := holds w.mode.toNat (intElement c l w w.a 0) (intElement c l w w.b 0)
       (arithPd w ≠ 7 → ((g'.lane l).pred (arithPd w) = true ↔ r ∧ arithPs w (c.g.lane l) = true)) ∧
       ∀ q ∈ destRegs w.d l w.ty.regs, (r → readLoc g' q = 0xFFFFFFFF#32) ∧ (¬ r → readLoc g' q = 0#32)) ∧
  (∀ (w : ArithOp) (s : State) (c : Ctx), Issues s (.fclass w) c → (Instr.fclass w).wf = true → Clean c w.guard →
     ∃ g', exec (.fclass w) s = .next (s.putGroup c g') ∧ ∀ l, Lane c w.guard l →
       ∀ t ∈ ([(.f64, 52, 11), (.f32, 23, 8), (.f16, 10, 5), (.bf16, 7, 8)] : List (Ty × Nat × Nat)), w.ty = t.1 →
         let k := classOfBits t.2.1 t.2.2 (element (c.src l w.ty w.a w.imm) w.ty.width 0)
         (w.mode = 0#4 → ∀ q ∈ destRegs w.d l 1, readLoc g' q = BitVec.ofNat 32 (2 ^ k)) ∧
         (w.mode = 1#4 → arithPd w ≠ 7 → ((g'.lane l).pred (arithPd w) = true ↔ testBit (w.imm.toNat % 1024) k = true)))

/-- R209: the votes of PCOL over the participating lanes, the mask and the count of those whose predicate is true, and the
flag XEMP. With no participating lane an S register gets the empty mask, the count 0 or the flag, and no other register
or predicate changes. -/
def Obligations.VoteResult : Prop :=
  ∀ (w : ArithOp) (s : State) (c : Ctx), Issues s (.pcol w) c → (Instr.pcol w).wf = true →
    let ls := c.acting w.guard
    let n := if c.g.width = 64 ∧ w.mode = 3#4 then 2 else 1
    ∃ g', exec (.pcol w) s = .next (s.putGroup c g') ∧
      (ls = [] → keepsBut c.g g' (if writesScalar w.d then destRegs w.d 0 n else [])) ∧
      ∀ l,
        let ps (i : Nat) : Prop := arithPs w (c.g.lane i) = true
        let pd : Prop := (g'.lane l).pred (arithPd w) = true
        let d := dValue g' w.d l n
        (Lane c w.guard l → arithPd w ≠ 7 →
          (w.mode = 0#4 → (pd ↔ ∀ i ∈ ls, ps i)) ∧ (w.mode = 1#4 → (pd ↔ ∃ i ∈ ls, ps i)) ∧
          (w.mode = 2#4 → (pd ↔ ∀ i ∈ ls, ∀ j ∈ ls, (ps i ↔ ps j)))) ∧
        (Lane c w.guard l ∨ writesScalar w.d = true → w.d ≠ .none →
          (w.mode = 3#4 → ∀ i < 32 * n, (testBit d i = true ↔ i ∈ ls ∧ ps i)) ∧
          (w.mode = 4#4 → d = bit c.f.xemp) ∧
          (w.mode = 5#4 → d = (ls.filter fun i => arithPs w (c.g.lane i)).length))

/-- R364: an arithmetic or cross-lane instruction whose A field names a poisoned V register of an acting lane
takes the trap POISON and has none of its own effect. -/
def Obligations.PoisonStops : Prop :=
  ∀ mk ∈ arith ++ cross, ∀ (w : ArithOp) (s : State) (c : Ctx) (l : Nat) (i : BitVec 8), Issues s (mk w) c →
    (mk w).wf = true → w.a.op = .vec i → l ∈ c.acting w.guard → i.toNat ∈ (c.g.lane l).bad →
    ∃ n, exec (mk w) s = .next (takeTrap { s with freeCtr := n } c poisonTrap)

/-! ### Control -/

/-- R174: a branch with no acting lane goes on at the next instruction, with nothing of its effect. R174: acting
lanes that are neither none nor all of the active lanes trap BRUMIX. -/
def Obligations.BranchesGuarded : Prop :=
  (∀ mk ∈ ([.bru, .brx, .call, .callx, .ret] : List (CtlOp → Instr)), ∀ (w : CtlOp) (s : State) (c : Ctx),
     Issues s (mk w) c → branchLanes (settled s c) w = [] →
     ∃ g', exec (mk w) s = .next (s.putGroup c g') ∧ groupRest g' = groupRest c.g ∧
       After (s.putGroup c g') c fun d =>
         d.f.pc = c.f.pc + 16 ∧ d.f.depth = c.f.depth ∧ d.f.mask = c.f.mask ∧ d.f.carried = c.f.carried) ∧
  (∀ mk ∈ ([.bru, .brx, .call, .callx, .ret] : List (CtlOp → Instr)), ∀ (w : CtlOp) (s : State) (c : Ctx),
     Issues s (mk w) c → branchLanes (settled s c) w ≠ [] → branchLanes (settled s c) w ≠ (settled s c).active →
     exec (mk w) s = .next (takeTrap s c { cause := .brumix }))

/-- R175, R178: BRU and CALL go to the target of IMM; CALL writes the offset of the next instruction to D and goes
one level deeper. R177, R178: with one target for every active lane, BRX, CALLX and RET go there; BRX notes its
register, CALLX goes one level deeper and RET one level up. -/
def Obligations.BranchesTaken : Prop :=
  (∀ (w : CtlOp) (s : State) (c : Ctx), branchLanes (settled s c) w = (settled s c).active → (settled s c).active ≠ [] →
     (Issues s (.bru w) c → ∃ g', exec (.bru w) s = .next (s.putGroup c g') ∧ groupRest g' = groupRest c.g ∧
       After (s.putGroup c g') c fun d =>
         d.f.pc = relTarget c.f.pc w.imm ∧ d.f.depth = c.f.depth ∧ d.f.mask = c.f.mask ∧ d.f.carried = c.f.carried) ∧
     (Issues s (.call w) c → c.f.depth ≠ 31 →
       ∃ g', exec (.call w) s = .next (s.putGroup c g') ∧ groupRest g' = groupRest c.g ∧
       After (s.putGroup c g') c fun d =>
         d.f.pc = relTarget c.f.pc w.imm ∧ d.f.depth = c.f.depth + 1 ∧ d.f.mask = c.f.mask ∧ d.f.carried = c.f.carried ∧
         ∀ l ∈ c.active, l < c.g.lanes.length → ∀ q ∈ destRegs w.d l 1, readLoc d.g q = BitVec.ofNat 32 (c.f.pc + 16))) ∧
  (∀ (w : CtlOp) (s : State) (c : Ctx) (t : Nat), branchLanes (settled s c) w = (settled s c).active →
     (settled s c).active ≠ [] → oneTarget (settled s c) w t →
     (Issues s (.brx w) c → ∃ g', exec (.brx w) s = .next (s.putGroup c g') ∧ groupRest g' = groupRest c.g ∧
       After (s.putGroup c g') c fun d =>
         d.f.pc = t ∧ d.f.carried = some w.jx.toNat ∧ d.f.depth = c.f.depth ∧ d.f.mask = c.f.mask) ∧
     (Issues s (.callx w) c → c.f.depth ≠ 31 →
       ∃ g', exec (.callx w) s = .next (s.putGroup c g') ∧ groupRest g' = groupRest c.g ∧
       After (s.putGroup c g') c fun d => d.f.pc = t ∧ d.f.depth = c.f.depth + 1 ∧ d.f.mask = c.f.mask ∧
         ∀ l ∈ c.active, l < c.g.lanes.length → ∀ q ∈ destRegs w.d l 1, readLoc d.g q = BitVec.ofNat 32 (c.f.pc + 16)) ∧
     (Issues s (.ret w) c → c.f.depth ≠ 0 →
       ∃ g', exec (.ret w) s = .next (s.putGroup c g') ∧ groupRest g' = groupRest c.g ∧
       After (s.putGroup c g') c fun d => d.f.pc = t ∧ d.f.depth = c.f.depth - 1 ∧ d.f.mask = c.f.mask))

/-- R64, R176: a BRD that none or all of its lanes take leaves its fragment whole, at the next instruction or at the target,
with Jx carried; one whose split the budget of R63 forbids is issued again. A BRD whose lanes part leaves the lanes not taken in
its fragment at the next instruction and puts the others into a new fragment at the target; both carry Jx. The number of the
fragment is one already given. R74, R76: the smaller side, the taken one of two equal ones, is ejected where its bit is set, it
has no more than EJTHR lanes and a context is free for each: the strand is committed, both sides begin at a new restart point,
the side waits for its hand-over, and each of its lanes in turn has the lowest context of the tender with the fewest in use. Else
it stays in the warp. With no acting lane the fragment goes on at the next instruction, which is the model's choice (log entry
33). -/
def Obligations.DivergentBranch : Prop :=
  ∀ (w : CtlOp) (s : State) (c : Ctx), Issues s (.brd w) c → openTag c = none →
    let c' := settled s c
    let taken := branchLanes c' w
    let rest := c'.active.filter fun l => !taken.contains l
    let target := relTarget c.f.pc w.imm
    (c'.active ≠ [] → taken = [] ∨ taken = c'.active →
      ∃ g', exec (.brd w) s = .next (s.putGroup c g') ∧ groupRest g' = groupRest c.g ∧ After (s.putGroup c g') c fun d =>
        d.f.pc = (if taken = [] then c.f.pc + 16 else target) ∧ d.f.carried = some w.jx.toNat ∧ d.f.mask = c.f.mask ∧
          d.f.depth = c.f.depth) ∧
    (taken ≠ [] → taken ≠ c'.active → State.maySplit (s.settle c) c' = false →
      ∃ g', exec (.brd w) s = .next (s.putGroup c g') ∧ groupRest g' = groupRest c.g ∧ After (s.putGroup c g') c fun d =>
        d.f.pc = c.f.pc ∧ d.f.mask = c.f.mask ∧ d.f.carried = c.f.carried) ∧
    (taken ≠ [] → taken ≠ c'.active → State.maySplit (s.settle c) c' = true → c.f.fid < s.serial →
      let first : Prop := taken.length ≤ rest.length
      let side := if first then taken else rest
      let die := dieOf c.core
      let ctxs := (s.settle c).reserve c.part die side
      let asked := if first then w.ejt else w.ejf
      let ejects : Prop := asked = true ∧ side.length ≤ min 8 ((s.part c.part).divctl.toNat % 16)
      let parts (d : Ctx) (k : Frag → Prop) : Prop :=
        d.f.pc = c.f.pc + 16 ∧ d.f.mask = c.f.mask &&& ~~~lanesMask taken ∧ d.f.carried = some w.jx.toNat ∧
        ∃ x ∈ d.g.frags, x.mask = lanesMask taken ∧ x.pc = target ∧ x.carried = some w.jx.toNat ∧ x.depth = c.f.depth ∧ k x
      (¬ ejects ∨ ctxs = none → ∃ t, exec (.brd w) s = .next t ∧ After t c fun d =>
        d.f.wait = .none ∧ d.f.rst.pc = c.f.rst.pc ∧ parts d fun x => x.wait = .none ∧ x.rst.pc = c.f.rst.pc) ∧
      (ejects → ∀ ts, ctxs = some ts → ts.map (·.1) = side ∧
        (∀ pre x post, ts = pre ++ x :: post → let used := pre.map (·.2) ++ (s.settle c).usedCtxs die
          x.2 < 192 ∧ x.2 ∉ used ∧ ∀ y < 192, y ∉ used → tenderLoad used (x.2 / 8) < tenderLoad used (y / 8) ∨
            tenderLoad used (x.2 / 8) = tenderLoad used (y / 8) ∧ x.2 ≤ y) ∧
        ∃ t, exec (.brd w) s = .next t ∧ After t c fun d =>
          d.f.rst.pc = c.f.pc + 16 ∧ (∀ e ∈ d.g.sbuf, e.mask &&& c.f.mask = 0#64) ∧ parts d fun x => x.rst.pc = target ∧
            ∃ n, (first → x.wait = .handover n none ∧ x.ctxs = ts ∧ d.f.wait = .none) ∧
              (¬ first → d.f.wait = .handover n none ∧ d.f.ctxs = ts ∧ x.wait = .none)))

/-- R56, R127, R179: on a core, once its release has been done, the acting lanes of EXIT have exited and left their fragment,
whose other lanes go on at the next instruction; until then it waits, and with an open tag it traps TAGUSE (R335). A harbourmaster
that exits stands still. R46, R48, R49, R57, R95: SBEG commits its strand: what the fragment has in the strand buffer goes to the
FIFO store queues of its warps in program order, each part with its own items, and nothing of it is left there; its Consumed tags
are Empty and its others no longer new; a pending RSHRINK is applied; SBEG is the restart point, with the strand id of IMM, the
near file is zero and the generator recorded. -/
def Obligations.StrandsBeginAndEnd : Prop :=
  (∀ (w : CtlOp) (s : State) (c : Ctx), Issues s (.exit w) c → c.acting w.guard ≠ [] →
     let d := s.ensureCommit c
     (∀ n, openTag c = some n → exec (.exit w) s = .next (takeTrap s c (tagTrap n))) ∧
     (openTag c = none → d.takeMark (d.reread c) = none → ∃ t, exec (.exit w) s = .next t ∧ After t c fun e =>
       e.f.pc = c.f.pc ∧ e.f.wait = .perform) ∧
     (∀ k i f t0, c.agent = .frag k i f → openTag c = none → d.takeMark (d.reread c) = some t0 → (c.g.frags.map (·.fid)).Nodup →
       ∃ t g', exec (.exit w) s = .next t ∧ t.group? (.grp k i) = some g' ∧
         (∀ l ∈ c.acting w.guard, l < c.g.lanes.length → (g'.lane l).exited = true) ∧
         (c.f.committed = false → ∀ e ∈ g'.sbuf, e.mask &&& c.f.mask = 0#64) ∧
         (c.acting w.guard = c.active → g'.frag? f = none) ∧
         ((∃ l ∈ c.active, l ∉ c.acting w.guard) → ∃ x, g'.frag? f = some x ∧ x.pc = c.f.pc + 16 ∧
           x.mask = c.f.mask &&& ~~~lanesMask (c.acting w.guard))) ∧
     (∀ p m t0, c.agent = .hm p → openTag c = none → d.takeMark (d.reread c) = some t0 → tblFind s.supers p = some m →
       ∃ t n, exec (.exit w) s = .next t ∧ tblFind t.supers p = some n ∧ n.run = false)) ∧
  (∀ (w : CtlOp) (s : State) (c : Ctx), Issues s (.sbeg w) c →
     ∃ t, exec (.sbeg w) s = .next t ∧
       (After t c fun d =>
         d.f.pc = c.f.pc + 16 ∧ d.f.rst.pc = c.f.pc ∧ d.f.rst.sid = w.imm.toNat % 65536 ∧ d.f.rst.fmt = c.f.fmt ∧
         d.f.pend = [] ∧ d.f.shrink = none ∧ (∀ e ∈ d.g.sbuf, e.mask &&& c.f.mask = 0#64) ∧
         (∀ i < 16, d.g.tag i = if (c.g.tag i).belongs c.f.mask then
             (if (c.g.tag i).st = .consumed then Tag.empty else { c.g.tag i with fresh := false })
           else c.g.tag i) ∧
         ∀ l ∈ c.active, l < c.g.lanes.length → (d.g.lane l).n = [] ∧ (d.g.lane l).srsRst = (d.g.lane l).srs) ∧
       ∀ k i f b, c.agent = .frag k i f → s.block? k = some b → ∀ h ∈ warpsOf c.g.width c.g.index, h < b.warps.length →
         t.fifo (.warp k h) = s.fifo (.warp k h) ++ ((((upFrom s.serial c.g.sbuf.length).zip c.g.sbuf).map fun e =>
           e.2.part c.g.width c.g.index c.f.mask h e.1).filter fun e => !e.items.isEmpty) ∧
         ∀ n, c.f.shrink = some n → n < (s.counts c).1 → ∃ b', t.block? k = some b' ∧ (b'.warp h).c = n ∧ (b'.warp h).g = ceil8 n) ∧
  (∀ (e : SEntry) (width index : Nat) (m : W64) (h n : Nat), let p := e.part width index m h n
     p.serial = n ∧ p.store = e.store ∧ p.strong = e.strong ∧ p.rel = e.rel ∧ p.items.map (fun i => (i.place, i.act)) =
       (e.items.filter fun i => (i.owners &&& ownMask width index m) != 0#64 && warpOfLane width index i.lane == h).map
         fun i => (i.place, i.act))

/-- R66, R70, R180, R182: RJSET writes the image of its fragment, RJMOV copies an image to S registers and back, its mask
bits above the width 0; with no fragment waiting on the register no other register of the group changes. R67: an RJWAIT whose
register does not fit the fragment is passed; otherwise the fragment commits, waits at the RJWAIT, one with what waits there
already, and once every lane of the mask is covered goes on behind it with the FMT and the carried register of the image,
XEMP 0, 24 cycles later, and leaves the register empty. R69: when every lane of the group waits and none is ejected, each
waiting fragment goes on behind its RJWAIT and RJDS is 1. -/
def Obligations.Rejoining : Prop :=
  (∀ (w : CtlOp) (s : State) (c : Ctx),
     let j := w.jx.toNat
     (Issues s (.rjset w) c → c.g.waiter j = none → ∃ t, exec (.rjset w) s = .next t ∧ After t c fun d =>
       d.f.pc = c.f.pc + 16 ∧ d.g.rej j = RejReg.make (relTarget c.f.pc w.imm) c.f.depth c.f.carried c.f.fmt c.f.mask ∧
       ∀ i, i ≠ j → d.g.rej i = c.g.rej i) ∧
     (Issues s (.rjmovRead w) c → (Instr.rjmovRead w).wf = true →
       ∃ t, exec (.rjmovRead w) s = .next t ∧ After t c fun d => d.f.pc = c.f.pc + 16 ∧
         ∀ q ∈ destLocs w.d 0 (rejWords c.g.width (c.g.rej j)), readLoc d.g q.1 = q.2) ∧
     (Issues s (.rjmovWrite w) c → c.g.waiter j = none →
       ∃ t, exec (.rjmovWrite w) s = .next t ∧ After t c fun d => d.f.pc = c.f.pc + 16 ∧
         (∀ k < 64, (d.g.rej j).img.getLsbD k = (testBit (c.regs 0 w.a.op 2) k && !(c.g.width == 16 && 16 ≤ k && k < 32))) ∧
         (d.g.rej j).hi = (if c.g.width = 64 then c.reg 0 w.a.op 2 else 0#32) ∧
         (d.g.rej j).arrival = (c.g.rej j).arrival ∧ ∀ i, i ≠ j → d.g.rej i = c.g.rej i)) ∧
  (∀ (w : CtlOp) (s : State) (c : Ctx), Issues s (.rjwait w) c → openTag c = none →
     let j := w.jx.toNat
     (c.g.rej j).fits j c.f = false → returning s c j = false →
       ∃ t, exec (.rjwait w) s = .next t ∧ After t c fun e => e.f.pc = c.f.pc + 16 ∧ e.f.wait = .none) ∧
  (∀ (w : CtlOp) (s : State) (c : Ctx) (k i f : Nat), Issues s (.rjwait w) c → openTag c = none →
     let j := w.jx.toNat
     Rejoins s c k i f j →
     let r := c.g.rej j
     let m := joinedMask c j
     let live (l : Nat) : Prop := (c.g.lane l).present = true ∧ (c.g.lane l).exited = false
     let covered : Prop := ∀ l ∈ maskLanes r.mask, live l → m.getLsbD l = true
     ∃ t g', exec (.rjwait w) s = .next t ∧ t.group? (.grp k i) = some g' ∧ keepsBut (settled s c).g g' [] ∧
       (∀ e ∈ g'.sbuf, e.mask &&& c.f.mask = 0#64) ∧
       ((∃ l ∈ maskLanes r.mask, live l ∧ m.getLsbD l = false ∧ l < c.g.lanes.length ∧ ∀ x ∈ c.g.frags, waitsSome x → x.mask.getLsbD l = false) →
         ∃ x, g'.frag? (joinedFid c j) = some x ∧ x.mask = m ∧ x.pc = c.f.pc ∧ x.wait = .rejoin j ∧ (g'.rej j).mask = r.mask ∧
           (joinedFid c j ≠ f → g'.frag? f = none) ∧
           (c.g.waiter j = none → x.committed = true ∧ x.rst.pc = c.f.pc ∧
             (g'.rej j).arrival = some (s.clock, 64 * 256 * max 1 (bitField (s.part c.part).divctl.toNat 16 8)))) ∧
       (covered → (∃ l, c.f.mask.getLsbD l = true ∧ live l ∧ l < c.g.lanes.length ∧
           ∀ x ∈ c.g.frags, x.fid ≠ f → x.mask.getLsbD l = false) →
         ∃ x, g'.frag? (joinedFid c j) = some x ∧ x.mask = m ∧ x.pc = c.f.pc + 16 ∧ x.wait = .none ∧ x.fmt = r.fmtr ∧
           x.carried = r.outer ∧ x.xemp = false ∧ x.readyAt = s.clock + 64 * 24 ∧ (g'.rej j).mask = 0#64 ∧
           (joinedFid c j ≠ f → g'.frag? f = none)) ∧
       (¬ covered → (s.part c.part).divctl.getLsbD 24 = false →
         (∀ l < c.g.lanes.length, live l → (c.g.lane l).away = false ∧
           ∃ x ∈ c.g.frags, x.mask.getLsbD l = true ∧ x.stop = none ∧ (x.fid = f ∨ waitsSome x)) →
         (∀ x ∈ c.g.frags, ∀ n, (x.fid = joinedFid c j ∧ n = j ∨ x.fid ≠ f ∧ x.wait = .rejoin n) →
           ∃ y, g'.frag? x.fid = some y ∧ y.pc = x.pc + 16 ∧ y.wait = .none ∧ y.fmt = (c.g.rej n).fmtr ∧
             y.carried = (c.g.rej n).outer ∧ (g'.rej n).mask = 0#64) ∧
         ∃ b, t.block? k = some b ∧ ∀ h ∈ warpsOf c.g.width i, h < b.warps.length → (b.warp h).rjds = true))

/-- R183: ELECT makes its predicate true in the lowest active lane and false in the other active ones, and writes that lane's
number to D. R173: S2P writes the predicates that its mask selects from the bits of A. Neither writes another register or
predicate, nor those of an inactive lane. -/
def Obligations.PredicatesWritten : Prop :=
  (∀ (w : CtlOp) (s : State) (c : Ctx), Issues s (.elect w) c → (Instr.elect w).wf = true → c.active ≠ [] →
     ∃ g', exec (.elect w) s = .next (s.putGroup c g') ∧ groupRest g' = groupRest c.g ∧
       (∀ l ∈ c.active, l < c.g.lanes.length → w.imm ≠ 7#32 →
         ((g'.lane l).pred w.imm.toNat = true ↔ ∀ m ∈ c.active, l ≤ m)) ∧
       (∀ q ∈ destRegs w.d 0 1, readLoc g' q = BitVec.ofNat 32 (c.active.headD 0)) ∧
       keepsBut c.g g' (destRegs w.d 0 1 ++ c.active.map fun l => .pred l w.imm.toNat)) ∧
  (∀ (w : ArithOp) (s : State) (c : Ctx), Issues s (.s2p w) c → Clean c w.guard →
     ∃ g', exec (.s2p w) s = .next (s.putGroup c g') ∧ groupRest g' = groupRest c.g ∧
       (∀ l, Lane c w.guard l → ∀ i < 7, (g'.lane l).pred i =
         if testBit w.imm.toNat i then testBit (c.src l .b32 w.a w.imm) i else (c.g.lane l).pred i) ∧
       ∀ r, (∀ l ∈ c.acting w.guard, ∀ i < 7, testBit w.imm.toNat i = true → r ≠ .pred l i) → readLoc g' r = readLoc c.g r)

/-- R184, R185: NOP goes on; SLEEP waits for the core cycles of A, at most 2^20; YIELD for 16; the waking ends
the wait when its time has come. -/
def Obligations.Pacing : Prop :=
  ∀ (w : CtlOp) (s : State) (c : Ctx),
    (Issues s (.nop w) c → ∃ g', exec (.nop w) s = .next (s.putGroup c g') ∧ g'.lanes = c.g.lanes ∧
      After (s.putGroup c g') c fun d => d.f.pc = c.f.pc + 16) ∧
    (Issues s (.sleep w) c → c.acting w.guard ≠ [] → c.src 0 .b32 w.a w.imm ≠ 0 →
      ∃ g', exec (.sleep w) s = .next (s.putGroup c g') ∧ g'.lanes = c.g.lanes ∧
      After (s.putGroup c g') c fun d => d.f.pc = c.f.pc + 16 ∧
        d.f.wait = .sleep (s.clock + 64 * min (c.src 0 .b32 w.a w.imm) (2 ^ 20)) false) ∧
    (Issues s (.yield w) c → c.acting w.guard ≠ [] →
      ∃ g', exec (.yield w) s = .next (s.putGroup c g') ∧ g'.lanes = c.g.lanes ∧
      After (s.putGroup c g') c fun d => d.f.pc = c.f.pc + 16 ∧ d.f.wait = .sleep (s.clock + 64 * 16) true) ∧
    (∀ a till y, s.ctx? a = some c → c.f.wait = .sleep till y → till ≤ s.clock →
      ∃ g', exec (.sleepWake a) s = .next (s.putGroup c g') ∧ g'.lanes = c.g.lanes ∧
      After (s.putGroup c g') c fun d => d.f.pc = c.f.pc ∧ d.f.wait = .none)

/-! ### Predicates, grants and the format register -/

/-- R47, R48, R186: a request above the present count that the pool of the quadrant allows, with no request waiting
before it, is granted at once: the count is the request, the granted count rounds it up to eight. R48: a request
that waits alone in its quadrant is granted once the pool allows it, and its RGROW is done. R48, R52, R186,
R188: RSHRINK is recorded for the next SBEG, never below eight; FMTSET writes every field of FMT but its
reserved bit 6, and FMTSET.rm the rounding mode alone. -/
def Obligations.RegisterGrants : Prop :=
  (∀ (w : ArithOp) (s : State) (c : Ctx) (k i f : Nat), c.agent = .frag k i f → c.acting w.guard ≠ [] →
     let n := scalarCount c w
     let hs := warpsOf c.g.width c.g.index
     (s.counts c).1 < n → n ≤ 256 → fitsPool s c.core c.g.width hs n = true →
     growWaiters s c.core (quadOf c.g.width c.warp) = [] →
     (Issues s (.rgrowWait w) c → ∃ t b, exec (.rgrowWait w) s = .next t ∧ t.block? k = some b ∧
       (After t c fun d => d.f.pc = c.f.pc + 16) ∧
       ∀ h ∈ hs, h < b.warps.length → (b.warp h).c = n ∧ (b.warp h).g = ceil8 n) ∧
     (Issues s (.rgrowTry w) c → ∃ t b, exec (.rgrowTry w) s = .next t ∧ t.block? k = some b ∧
       (After t c fun d => d.f.pc = c.f.pc + 16 ∧
         ∀ l ∈ c.active, l < c.g.lanes.length → arithPd w < 7 → (d.g.lane l).pred (arithPd w) = true) ∧
       ∀ h ∈ hs, h < b.warps.length → (b.warp h).c = n ∧ (b.warp h).g = ceil8 n)) ∧
  (∀ (s : State) (c : Ctx) (k q o n i f : Nat), s.ctx? (.frag k i f) = some c →
     growWaiters s k q = [(o, n, .frag k i f)] → (s.counts c).1 < n →
     fitsPool s k c.g.width (warpsOf c.g.width c.g.index) n = true →
     ∃ t b, exec (.rgrowGrant k q) s = .next t ∧ t.block? k = some b ∧
       (After t c fun d => d.f.pc = c.f.pc + 16 ∧ d.f.wait = .none) ∧
       ∀ h ∈ warpsOf c.g.width c.g.index, h < b.warps.length → (b.warp h).c = n ∧ (b.warp h).g = ceil8 n) ∧
  (∀ (w : ArithOp) (s : State) (c : Ctx), c.acting w.guard ≠ [] →
     (Issues s (.rshrink w) c → scalarCount c w ≤ 256 → ∃ g', exec (.rshrink w) s = .next (s.putGroup c g') ∧
       g'.lanes = c.g.lanes ∧ After (s.putGroup c g') c fun d =>
         d.f.pc = c.f.pc + 16 ∧ d.f.shrink = some (max 8 (scalarCount c w)) ∧ d.f.fmt = c.f.fmt) ∧
     (Issues s (.fmtset w) c → ∃ g', exec (.fmtset w) s = .next (s.putGroup c g') ∧
       g'.lanes = c.g.lanes ∧ After (s.putGroup c g') c fun d =>
         d.f.pc = c.f.pc + 16 ∧ d.f.fmt = BitVec.ofNat 32 (scalarCount c w) &&& 0xBF#32 ∧ d.f.shrink = c.f.shrink) ∧
     (Issues s (.fmtsetRm w) c → ∃ g', exec (.fmtsetRm w) s = .next (s.putGroup c g') ∧
       g'.lanes = c.g.lanes ∧ After (s.putGroup c g') c fun d =>
         d.f.pc = c.f.pc + 16 ∧ d.f.shrink = c.f.shrink ∧
         d.f.fmt = (c.f.fmt &&& 0xFFFFFFFC#32) ||| (BitVec.ofNat 32 (scalarCount c w) &&& 3#32)))

/-! ### Loads -/

/-- R49, R55, R109, R218: an LD whose tag is Empty leaves it Pending with the lanes of the load, and writes no register; its data
are, for each lane, the bytes at its address, of the slice of its core's cluster or of memory where it goes past the slice,
with the lane's own pending stores over them. A load that goes past the slice, or that fills a full one, may have dirty lines of it
written back, and no other byte of memory changes. R49,
R219: the data of a pending load arrives and its tag is Landed; LAND then gives each of its lanes the words of
its item and leaves the tag Consumed. -/
def Obligations.LandingLoads : Prop :=
  (∀ (w : MemOp) (s s1 : State) (c : Ctx) (es : List (Nat × W64 × TlbEntry)), Issues s (.ld w) c → Clean c w.guard →
     let ls := c.units w.toCommon false
     ls ≠ [] → (c.g.tag w.tag.toNat).st = .empty → (∀ l ∈ ls, misaligned w (c.globalVa l w.a.op w.imm).toNat = false) →
     accessBlock c = none →
     translateLanes c .read 1 (some w.tag.toNat) s (ls.map fun l => (l, c.globalVa l w.a.op w.imm)) = .inl (es, s1) →
     let room : Prop := roomFor s1 c.cluster (2 * es.length)
     ∃ t, exec (.ld w) s = .next t ∧
       (∀ a, (∀ l ∈ s1.slice c.cluster, l.1 = a / 128 → l.2.dirty = 0#256) → t.mscByte a = s1.mscByte a) ∧
       (c.level = .core → w.kind = .plain ∨ scopeWide w.scope = false → room → t.ram = s1.ram) ∧ After t c fun d =>
       d.f.pc = c.f.pc + 16 ∧ keepsBut c.g d.g [] ∧ d.g.sbuf = c.g.sbuf ∧
       (d.g.tag w.tag.toNat).st = .pending ∧ (d.g.tag w.tag.toNat).fresh = true ∧
       (w.toCommon.operandsScalar = false → (d.g.tag w.tag.toNat).mask = lanesMask ls) ∧
       (∀ x ∈ es,
         let pa := x.2.2.phys x.2.1.toNat
         let n := accessBytes w
         let got := tblGet [] (d.g.tag w.tag.toNat).data (if w.toCommon.operandsScalar then 0 else x.1)
         let past : Prop := c.level ≠ .core ∨ w.kind ≠ .plain ∧ scopeWide w.scope = true
         (¬ past → room → got = overlay s1 c x.1 true 0 pa n (s1.sliceByte c.cluster)) ∧
         (past → (∀ k < n, ∀ l ∈ s1.slice c.cluster, l.1 = (pa + k) / 128 → l.2.dirty = 0#256) →
           (∀ q ∈ ownItems s1 c x.1, q.base true 0 = none) → got = (upFrom pa n).map s1.mscByte)) ∧
       ∀ i, i ≠ w.tag.toNat → d.g.tag i = c.g.tag i) ∧
  ((∀ (a : Agent) (tag : Nat) (s : State) (c : Ctx), s.ctx? a = some c → (c.g.tag tag).st = .pending →
     (c.g.tag tag).acq = none → ∃ g', exec (.tagLanded a tag) s = .next (s.putGroup c g') ∧
       g' = c.g.setTag tag { c.g.tag tag with st := .landed }) ∧
   ∀ (w : MemOp) (s : State) (c : Ctx), Issues s (.land w) c → (Instr.land w).wf = true → c.acting w.guard ≠ [] →
     let t := c.g.tag w.tag.toNat
     t.st = .landed → t.bad = [] →
     ∃ g', exec (.land w) s = .next (s.putGroup c g') ∧ (g'.tag w.tag.toNat).st = .consumed ∧
       (t.scalar = false → writesScalar w.d = false → ∀ l, Lane c w.guard l → t.mask.getLsbD l = true →
         ∀ q ∈ destLocs w.d l (loadWords w.ty (cntItems w.cnt) (tblGet [] t.data l)), readLoc g' q.1 = q.2) ∧
       (t.scalar = true → ∀ l, Lane c w.guard l →
         ∀ q ∈ destLocs w.d l (loadWords w.ty (cntItems w.cnt) (tblGet [] t.data 0)), readLoc g' q.1 = q.2) ∧
       keepsBut c.g g' ((c.acting w.guard).flatMap fun l => destRegs w.d l w.dataSpan))

/-- R55, R216, R221, R224: LDS and GATH give each lane the bytes of the scratchpad at its address, with the lane's
own buffered stores over them, and change no memory. R223: LDC gives each lane the bytes of the constant bank at
its address. R222 forbids a post-incrementing LDS with D = A alone; where D only holds A among its registers, that the loaded
word stands is the model's choice (log entry 141). -/
def Obligations.DirectLoads : Prop :=
  (∀ (w : MemOp) (s : State) (c : Ctx) (ps : List (Nat × Nat × Nat)), Clean c w.guard →
     let ls := c.units w.toCommon false
     let reads (cnt n : Nat) (d : Ctx) : Prop := w.la = 0#4 → ∀ p ∈ ps, p.1 < c.g.lanes.length →
       ∀ q ∈ destLocs w.d p.1 (loadWords w.ty cnt (overlay s c p.1 false p.2.1 p.2.2 n (s.core p.2.1).scratchByte)),
         readLoc d.g q.1 = q.2
     let frame (ws : List RegLoc) (d : Ctx) : Prop := keepsBut c.g d.g (ws ++ ls.flatMap fun l => destRegs w.d l w.dataSpan)
     ls ≠ [] →
     (Issues s (.lds w) c → (Instr.lds w).wf = true → w.kind ≠ .acq →
       (∀ a ∈ ldsAddrs c w ls, misaligned w a.2 = false) → ScratchOpen s c 1 (accessBytes w) (ldsAddrs c w ls) ps →
       ∃ t, exec (.lds w) s = .next t ∧ sameMemory s t ∧ After t c fun d =>
         d.f.pc = c.f.pc + 16 ∧ reads (cntItems w.cnt) (accessBytes w) d ∧ frame ((postWrites c w ls).map (·.1)) d) ∧
     (Issues s (.gath w) c → (Instr.gath w).wf = true → (∀ l ∈ ls, gatherAddr c l w % w.ty.itemBytes = 0) →
       ScratchOpen s c 1 w.ty.itemBytes (ls.map fun l => (l, gatherAddr c l w)) ps →
       ∃ t, exec (.gath w) s = .next t ∧ sameMemory s t ∧ After t c fun d =>
         d.f.pc = c.f.pc + 16 ∧ reads 1 w.ty.itemBytes d ∧ keepsBut c.g d.g (ls.flatMap fun l => destRegs w.d l w.ty.regs))) ∧
  (∀ (w : MemOp) (s : State) (c : Ctx), Issues s (.ldc w) c → (Instr.ldc w).wf = true → Clean c w.guard →
     (∀ l ∈ c.units w.toCommon false, misaligned w (c.spAddr l w.a.op w.imm) = false) →
     ∃ g', exec (.ldc w) s = .next (s.putGroup c g') ∧ groupRest g' = groupRest c.g ∧
       (w.la = 0#4 → ∀ l ∈ c.units w.toCommon false, l < c.g.lanes.length →
         let o := c.spAddr l w.a.op w.imm
         ∀ q ∈ destLocs w.d l (loadWords w.ty (cntItems w.cnt) ((upFrom o (accessBytes w)).map c.bankByte)),
           readLoc g' q.1 = q.2) ∧
       keepsBut c.g g' ((c.units w.toCommon false).flatMap fun l => destRegs w.d l w.dataSpan))

/-! ### Stores -/

/-- R55, R220 to R224: ST, STS and SCAT append one entry to the strand buffer, with an item for each acting lane at
its address, and no byte of memory, slice or scratchpad changes before the strand commits. The page tables alone
may have taken their marks of R113. R57, R109, R120, R121: the head of a FIFO store queue, of whatever warp or lane, leaves it,
and the bytes of all its items stand where they say, those of the highest lane where several write one byte: in the
scratchpads; in the slice of the core's cluster, where it has room, dirty, and not yet in memory; for a strong one at `.stk` or
wider in memory and in the slice's copy; or, for one that bypasses the slice, in memory. No other byte changes. That such a one
drops its lines from the slice is the model's reading of R79 (log entry 115). In the queues of a width-64 pair the items of the
other part of the same store which it beats write nothing any more (R120, log entry 30). R121, R123, R130: an entry does not perform while
an older one stands in the other queue of its pair, or a tile store before it that writes its bytes. -/
def Obligations.StoresDrain : Prop :=
  (∀ (w : MemOp) (s : State) (c : Ctx), Clean c w.guard →
     let ls := c.units w.toCommon false
     ls ≠ [] → sbovf c ls = none →
     (∀ (es : List (Nat × W64 × TlbEntry)) (s1 : State), Issues s (.st w) c →
       (∀ l ∈ ls, misaligned w (c.globalVa l w.a.op w.imm).toNat = false) →
       translateLanes c .write 2 none s (ls.map fun l => (l, c.globalVa l w.a.op w.imm)) = .inl (es, s1) →
       ∃ t, exec (.st w) s = .next t ∧ sameMemory s1 t ∧ After t c fun d =>
         d.f.pc = c.f.pc + 16 ∧ keepsBut c.g d.g [] ∧ ∃ e, d.g.sbuf = c.g.sbuf ++ [e] ∧ e.strong = strongScope c w ∧
           e.items = es.map fun x => storeItem c (sharers c w.toCommon) x.1 (globPlace x.2.2 x.2.1)
             (storeAct c x.1 w.ty w.b (cntItems w.cnt) (w.hint.getLsbD 0))) ∧
     (∀ ps : List (Nat × Nat × Nat), Issues s (.sts w) c → (∀ a ∈ ldsAddrs c w ls, misaligned w a.2 = false) →
       scratchLanes s c 2 (ldsAddrs c w ls) = .inl ps →
       ∃ t, exec (.sts w) s = .next t ∧ sameMemory s t ∧ After t c fun d =>
         d.f.pc = c.f.pc + 16 ∧ keepsBut c.g d.g ((postWrites c w ls).map (·.1)) ∧
         ∃ e, d.g.sbuf = c.g.sbuf ++ [e] ∧ e.strong = strongScope c w ∧
           e.items = ps.map fun p => storeItem c (sharers c w.toCommon) p.1 (.scratch p.2.1 p.2.2)
             (storeAct c p.1 w.ty w.b (cntItems w.cnt) (w.hint.getLsbD 0))) ∧
     (∀ ps : List (Nat × Nat × Nat), Issues s (.scat w) c →
       (∀ l ∈ ls, w.ty = .q4 ∨ gatherAddr c l w % w.ty.itemBytes = 0) →
       scratchLanes s c 2 (ls.map fun l => (l, gatherAddr c l w)) = .inl ps →
       ∃ t, exec (.scat w) s = .next t ∧ sameMemory s t ∧ After t c fun d =>
         d.f.pc = c.f.pc + 16 ∧ keepsBut c.g d.g [] ∧ ∃ e, d.g.sbuf = c.g.sbuf ++ [e] ∧
           e.items = ps.map fun p => storeItem c (sharers c w.toCommon) p.1 (.scratch p.2.1 p.2.2)
             (storeAct c p.1 w.ty w.c 1 (w.hint.getLsbD 0)))) ∧
  (∀ (id : FifoId) (s : State) (e : SEntry) (rest : List SEntry) (o : FifoOwner),
     s.fifo id = e :: rest → s.fifoOwner id = some o →
     (s.behindTwin id e = true ∨ e.behindTile o.tsts = true →
       ∃ t, exec (.storeDrain id) s = .next t ∧ t.fifo id = s.fifo id ∧ sameMemory s t) ∧
     (e.rel = none → s.behindTwin id e = false → e.behindTile o.tsts = false →
     e.items.any (itemWaits s o.die o.space) = false → e.acqs.any o.acqs.contains = false →
     ∃ t, exec (.storeDrain id) s = .next t ∧ t.fifo id = yielded s id e (warpOfQueue id) rest ∧
       ((∀ i ∈ e.items, inScratch i) → t.ram = s.ram ∧ t.l2 = s.l2 ∧
         ∀ k a, (t.core k).scratchByte a = byteLeft e.items false k a ((s.core k).scratchByte a)) ∧
       ((∀ i ∈ e.items, inGlobal s o.die i) →
         (∀ k, (t.core k).scratch = (s.core k).scratch) ∧
         let left (old : Nat → Byte) (new : Nat → Byte) (a : Nat) : Prop := new a = byteLeft e.items true 0 a (old a)
         match storePath e.bypass o.cl e.strong with
         | .slice k => roomFor s k (entryLines e) →
             (∀ a, left (s.sliceByte k) (t.sliceByte k) a) ∧ (∀ a, t.mscByte a = s.mscByte a) ∧
             ∀ i ∈ e.items, i.beaten = false → ∀ a ∈ i.span true 0, ∃ l, tblFind (t.slice k) (a / 128) = some l ∧
               l.dirty.getLsbD (2 * (a % 128)) = true ∧ l.dirty.getLsbD (2 * (a % 128) + 1) = true
         | .through k => (∀ a, left s.mscByte t.mscByte a) ∧ ∀ a, left (s.sliceByte k) (t.sliceByte k) a
         | .bypass none => ∀ a, left s.mscByte t.mscByte a
         | .bypass (some k) =>
             (∀ a, (∀ l, tblFind (s.slice k) (a / 128) = some l → l.dirty = 0#256) → left s.mscByte t.mscByte a) ∧
             ∀ i ∈ e.items, i.beaten = false → ∀ a ∈ i.span true 0,
               left s.mscByte t.mscByte a ∧ tblFind (t.slice k) (a / 128) = none) ∧
       ∀ c h b k, id = .warp c h → s.block? c = some b → k ∈ twins b.kern.w h → k ≠ h → k < b.warps.length →
         (t.fifo (.warp c k)).map (·.items) = (s.fifo (.warp c k)).map fun x =>
           if x.store = e.store then
             x.items.map fun i => { i with beaten := i.beaten || e.items.any fun j => j.place.cell == i.place.cell &&
               ((!i.atomic && decide (queueLane 64 k i.lane < queueLane 64 h j.lane)) || queueLane 64 k i.lane == queueLane 64 h j.lane) }
           else x.items))

/-- R120, R131, R222, R229, R230, R265: an item of a RED, of an ATOMS without D or of a SIGS.add that drains reads the value at
its place, applies its operation to it and writes it back, in one step: in the slice, where it is dirty then; at the memory-side
cache, over what the slice held dirty; or in the scratchpad, but on poison there, where it changes nothing (log entry 58). An
integer sum wraps. A 4-bit element that drains changes its own half of its byte and no other one. -/
def Obligations.ElementsDrain : Prop :=
  ∀ (id : FifoId) (s : State) (e : SEntry) (rest : List SEntry) (o : FifoOwner) (i : SItem),
    s.fifo id = e :: rest → s.fifoOwner id = some o → s.headReady id o e = true → e.rel = none → e.items = [i] → i.beaten = false →
    ∃ t, exec (.storeDrain id) s = .next t ∧ t.fifo id = yielded s id e (warpOfQueue id) rest ∧
      (∀ aop ty x, i.act = .atomic aop ty x →
        let n := atomicBytes ty
        let new (bs : List Byte) : List Byte := leBytes n (atomicOp aop ty (leNat bs) x.toNat 0)
        (∀ k off, i.place = .scratch k off → t.ram = s.ram ∧ t.l2 = s.l2 ∧
          (t.core k).scratchRead off n =
            (if (s.core k).scratchPoisoned off n then (s.core k).scratchRead off n else new ((s.core k).scratchRead off n)) ∧
          ∀ c a, c ≠ k ∨ a < off ∨ off + n ≤ a → (t.core c).scratchByte a = (s.core c).scratchByte a) ∧
        (∀ pa va pte b z, i.place = .glob pa va pte b z → s.homeLost o.die pa = false → (∀ k < n, isHbm (pa + k) = true) →
          (∀ c, (t.core c).scratch = (s.core c).scratch) ∧
          (∀ k, atomicPath e.bypass o.cl e.strong = .slice k → roomFor s k (entryLines e) →
            (upFrom pa n).map (t.sliceByte k) = new ((upFrom pa n).map (s.sliceByte k)) ∧ (∀ a, t.mscByte a = s.mscByte a) ∧
            ∀ a, a < pa ∨ pa + n ≤ a → t.sliceByte k a = s.sliceByte k a) ∧
          (∀ k, atomicPath e.bypass o.cl e.strong = .bypass (some k) → sliceSorted s k →
            t.mscRead pa n = new (s.engineRead k pa n) ∧ (∀ a ∈ upFrom pa n, tblFind (t.slice k) (a / 128) = none) ∧
            ∀ a, a < pa ∨ pa + n ≤ a → a / 128 ∉ granules 128 pa n → t.mscByte a = s.mscByte a ∧ t.sliceByte k a = s.sliceByte k a) ∧
          (atomicPath e.bypass o.cl e.strong = .bypass none →
            t.mscRead pa n = new (s.mscRead pa n) ∧ ∀ a, a < pa ∨ pa + n ≤ a → t.mscByte a = s.mscByte a))) ∧
      (∀ hi x, i.act = .nibble hi x →
        let new (b : Byte) : Byte := BitVec.ofNat 8 (if hi then b.toNat % 16 + 16 * x.toNat else b.toNat / 16 * 16 + x.toNat)
        (∀ k off, i.place = .scratch k off → t.ram = s.ram ∧ t.l2 = s.l2 ∧
          ∀ c a, (t.core c).scratchByte a = if c = k ∧ a = off then new ((s.core k).scratchByte off) else (s.core c).scratchByte a) ∧
        (∀ pa va pte b z, i.place = .glob pa va pte b z → s.homeLost o.die pa = false → isHbm pa = true →
          let left (old : Nat → Byte) (y : Nat → Byte) (a : Nat) : Prop := y a = if a = pa then new (old pa) else old a
          (∀ k, storePath e.bypass o.cl e.strong = .slice k → roomFor s k 1 →
            (∀ a, left (s.sliceByte k) (t.sliceByte k) a) ∧ (∀ a, t.mscByte a = s.mscByte a) ∧
            ∃ l, tblFind (t.slice k) (pa / 128) = some l ∧ l.dirty.getLsbD (2 * (pa % 128) + bit hi) = true) ∧
          (∀ k, storePath e.bypass o.cl e.strong = .through k →
            (∀ a, left s.mscByte t.mscByte a) ∧ ∀ a, left (s.sliceByte k) (t.sliceByte k) a) ∧
          (storePath e.bypass o.cl e.strong = .bypass none → ∀ a, left s.mscByte t.mscByte a))) ∧
      ∀ o x : Nat, o < 2 ^ 32 → x < 2 ^ 32 → atomicOp 0 .n32 o x 0 = (o + x) % 2 ^ 32 ∧ atomicOp 0 .i32 o x 0 = (o + x) % 2 ^ 32

/-! ### Caches, fences, atomics, tiles -/

/-- R227: CCTL waits until the FIFO store queue of its warp is empty. Then the `.wball` form writes every dirty byte
of the slice back and leaves each line clean, `.invall` leaves no line, and the line forms act on the line of a
lane's address. R226: PREF writes no register, and no memory where its slice has room; on a core it brings the lines of its
addresses into the slice, or with `.msc` none; an address without a translation does nothing. Both wait for a free walker where
they need one (R111, R114). R14, R109: a line that misses enters its slice, and no more than 196,608 lines of 128 bytes stand in
one of 24 MiB; a dirty line that leaves for it is written back. R126, R128, R231: FENCE.rel sets
the release mark; FENCE.acq at `.stk` or wider leaves no line in the slice of the issuer's cluster but those dirty throughout
(one dirty in part is written back: log entry 117); FENCE.sc goes on once every earlier store of the fragment has performed. -/
def Obligations.CachesAndFences : Prop :=
  (∀ (w : MemOp) (s : State) (c : Ctx), c.acting w.guard ≠ [] →
     let cl := s.clusterFor c
     (s.fifosEmpty c = false → ∀ mk ∈ ([.cctlWb, .cctlInv, .cctlWball, .cctlInvall] : List (MemOp → Instr)),
       Issues s (mk w) c → ∃ t, exec (mk w) s = .next t ∧ t.l2 = s.l2 ∧ t.ram = s.ram ∧
         After t c fun d => d.f.pc = c.f.pc ∧ d.f.wait = .perform) ∧
     (s.fifosEmpty c = true → sliceSorted s cl →
       (Issues s (.cctlWball w) c → ∃ t, exec (.cctlWball w) s = .next t ∧ PassedOn t c ∧
         WrittenBack s t cl (fun _ => true) ∧ ∀ l ∈ t.slice cl, l.2.dirty = 0#256) ∧
       (Issues s (.cctlInvall w) c → ∃ t, exec (.cctlInvall w) s = .next t ∧ PassedOn t c ∧
         WrittenBack s t cl (fun _ => true) ∧ t.slice cl = []) ∧
       (Clean c w.guard → s.xlatLooks c ((c.units w.toCommon false).map fun l => c.globalVa l w.a.op w.imm) = none →
         ∀ mk ∈ ([.cctlWb, .cctlInv] : List (MemOp → Instr)), Issues s (mk w) c → ∃ t, exec (mk w) s = .next t ∧ t.l2 = s.l2 ∧
           t.ram = s.ram ∧ After t c fun d => d.f.pc = c.f.pc ∧ d.f.wait = .perform) ∧
       (Clean c w.guard → ∀ l e s1, c.units w.toCommon false = [l] →
         s.xlatLook c (c.globalVa l w.a.op w.imm) = (.hit e, s1) →
         let line := e.phys (c.globalVa l w.a.op w.imm).toNat / 128
         (Issues s (.cctlWb w) c → ∃ t, exec (.cctlWb w) s = .next t ∧ PassedOn t c ∧ WrittenBack s t cl (· == line) ∧
           ∀ x, tblFind (t.slice cl) line = some x → x.dirty = 0#256) ∧
         (Issues s (.cctlInv w) c → ∃ t, exec (.cctlInv w) s = .next t ∧ PassedOn t c ∧ WrittenBack s t cl (· == line) ∧
           tblFind (t.slice cl) line = none)))) ∧
  (∀ (w : MemOp) (s : State) (c : Ctx), Issues s (.pref w) c → Clean c w.guard →
     let looks := s.xlatLooks c ((c.units w.toCommon false).map fun l => c.globalVa l w.a.op w.imm)
     (looks = none → ∃ t, exec (.pref w) s = .next t ∧ t.l2 = s.l2 ∧ t.ram = s.ram ∧
       After t c fun d => d.f.pc = c.f.pc ∧ d.f.wait = .perform) ∧
     ∀ es s1, looks = some (es, s1) →
     let pa (x : W64 × TlbEntry) : Nat := x.2.phys x.1.toNat
     (∀ x ∈ es, s1.homeLost (c.die s1) (pa x) = false) →
     ∃ t, exec (.pref w) s = .next t ∧ PassedOn t c ∧
       (roomFor s c.cluster es.length → t.ram = s.ram ∧
         (∀ line x, tblFind (s.slice c.cluster) line = some x → tblFind (t.slice c.cluster) line = some x) ∧
         ∀ x ∈ es, c.level = .core → w.hint.getLsbD 0 = false → isHbm (pa x) = true →
           (tblFind (t.slice c.cluster) (pa x / 128)).isSome = true) ∧
       ∀ line x, tblFind (t.slice c.cluster) line = some x → tblFind (s.slice c.cluster) line = some x ∨
         c.level = .core ∧ w.hint.getLsbD 0 = false ∧ ∃ y ∈ es, line = pa y / 128) ∧
  (∀ (s : State) (cl line : Nat), sliceSorted s cl → (s.slice cl).length ≤ sliceLines →
     let t := s.fillLine cl line
     (tblFind (t.slice cl) line).isSome = true ∧ (t.slice cl).length ≤ sliceLines ∧
       (roomFor s cl 1 → t.ram = s.ram ∧ ∀ x, x ≠ line → tblFind (t.slice cl) x = tblFind (s.slice cl) x) ∧
       ∃ gone : List Nat, (∀ x ∈ gone, x ≠ line ∧ tblFind (t.slice cl) x = none) ∧ gone.length ≤ 1 ∧
         WrittenBack s t cl (fun x => gone.contains x) ∧
         ∀ x, x ≠ line → x ∉ gone → tblFind (t.slice cl) x = tblFind (s.slice cl) x) ∧
  (∀ (w : MemOp) (s : State) (c : Ctx), Issues s (.fence w) c → c.acting w.guard ≠ [] →
     let sc := c.scope w.scope
     (w.kind = .rel → ∃ t, exec (.fence w) s = .next t ∧ sameMemory s t ∧ PassedOn t c ∧
       After t c fun d => d.f.mark = markedBy c.f sc) ∧
     (w.kind = .acq → acquirePending c = none → ∃ t, exec (.fence w) s = .next t ∧ PassedOn t c ∧
       (After t c fun d => d.f.mark = c.f.mark) ∧ (c.level = .super ∨ scopeWide sc = false → sameMemory s t) ∧
       (c.level ≠ .super → scopeWide sc = true → sliceSorted s c.cluster →
         WrittenBack s t c.cluster (fun line => (tblFind (s.slice c.cluster) line).any partDirty) ∧
         ∀ l, l ∈ t.slice c.cluster ↔ l ∈ s.slice c.cluster ∧ l.2.dirty = BitVec.allOnes 256)) ∧
     (w.kind = .sc → acquirePending c = none →
       (storesDone s c = true → ∃ t, exec (.fence w) s = .next t ∧ PassedOn t c ∧
         After t c fun d => d.f.mark = markedBy c.f sc) ∧
       (storesDone s c = false → ∃ t, exec (.fence w) s = .next t ∧ sameMemory s t ∧
         After t c fun d => d.f.pc = c.f.pc ∧ d.f.wait = .perform ∧ d.f.mark = c.f.mark)))

/-- R229, R230: RED, and ATOMS without a destination, append one entry with an atomic item for each acting lane; no
byte of memory, slice or scratchpad changes before the strand commits. R56, R230: an ATOM, or an ATOMS with a
destination, commits its strand first: nothing is left of the fragment in the strand buffer, the instruction is
the restart point, and the fragment waits until it performs. -/
def Obligations.AtomicsIssued : Prop :=
  (∀ (w : MemOp) (s : State) (c : Ctx), Clean c w.guard →
     let ls := c.units w.toCommon false
     let act (l : Nat) : StoreAct := .atomic w.hint.toNat w.ty (atomB c l w)
     ls ≠ [] → sbovf c ls = none →
     (∀ (es : List (Nat × W64 × TlbEntry)) (s1 : State), Issues s (.red w) c →
       (∀ l ∈ ls, atomMisaligned w (c.globalVa l w.a.op w.imm).toNat = false) →
       translateLanes c .atomic 3 none s (ls.map fun l => (l, c.globalVa l w.a.op w.imm)) = .inl (es, s1) →
       ∃ t, exec (.red w) s = .next t ∧ sameMemory s1 t ∧ PassedOn t c ∧ After t c fun d =>
         ∃ e, d.g.sbuf = c.g.sbuf ++ [e] ∧ e.strong = strongScope c w ∧
           e.items = es.map fun x => storeItem c (sharers c w.toCommon) x.1 (globPlace x.2.2 x.2.1) (act x.1)) ∧
     (∀ ps : List (Nat × Nat × Nat), Issues s (.atoms w) c → w.d = .none →
       (∀ l ∈ ls, atomMisaligned w (c.spAddr l w.a.op w.imm) = false) →
       scratchLanes s c 2 (ls.map fun l => (l, c.spAddr l w.a.op w.imm)) = .inl ps →
       (∀ p ∈ ps, (s.core p.2.1).scratchPoisoned p.2.2 (atomicBytes w.ty) = false) →
       ∃ t, exec (.atoms w) s = .next t ∧ sameMemory s t ∧ PassedOn t c ∧ After t c fun d =>
         ∃ e, d.g.sbuf = c.g.sbuf ++ [e] ∧
           e.items = ps.map fun p => storeItem c (sharers c w.toCommon) p.1 (.scratch p.2.1 p.2.2) (act p.1))) ∧
  (∀ (w : MemOp) (s : State) (c : Ctx),
     let ls := c.units w.toCommon false
     let holds (t : State) : Prop := t.ram = s.ram ∧ After t c fun d =>
       d.f.pc = c.f.pc ∧ d.f.wait = .atom ∧ (c.f.committed = false →
         d.f.committed = true ∧ d.f.rst.pc = c.f.pc ∧ d.f.pend = [] ∧ ∀ e ∈ d.g.sbuf, e.mask &&& c.f.mask = 0#64)
     ls ≠ [] →
     (Issues s (.atom w) c → (∀ l ∈ ls, atomMisaligned w (c.globalVa l w.a.op w.imm).toNat = false) →
       ∃ t, exec (.atom w) s = .next t ∧ holds t) ∧
     (Issues s (.atoms w) c → w.d ≠ .none → (∀ l ∈ ls, atomMisaligned w (c.spAddr l w.a.op w.imm) = false) →
       ∃ t, exec (.atoms w) s = .next t ∧ holds t))

/-- R229, R230: an atomic that performs for one lane reads the old value into D and writes the new one, in one
step: in the scratchpad, or, at a scope of `.stk` or wider, at the memory-side cache of the home die. No other byte
changes, but where an acquire writes back a line of the slice that is dirty in part (log entry 117). -/
def Obligations.AtomicsPerform : Prop :=
  ∀ (w : MemOp) (s : State) (c : Ctx) (a : Agent) (l : Nat), s.ctx? a = some c → c.f.wait = .atom → c.f.stop = none →
    unitReady s c = true → s.fifosEmpty c = true → accessBlock c = none → c.f.mark = none → Clean c w.guard →
    c.units w.toCommon false = [l] → l < c.g.lanes.length →
    let n := atomicBytes w.ty
    let done (o : Nat) (t : State) : Prop := After t c fun d => Ended c d ∧
      (∀ q ∈ destLocs w.d l (atomWords w o), readLoc d.g q.1 = q.2) ∧ keepsBut c.g d.g (destRegs w.d l (atomWords w o).length)
    (∀ k off, peekInstr s c = some (.atoms w) → scratchLanes s c 3 [(l, c.spAddr l w.a.op w.imm)] = .inl [(l, k, off)] →
      soundRange s k off n →
      let o := leNat ((s.core k).scratchRead off n)
      ∃ t, exec (.atomPerformed a) s = .next t ∧ done o t ∧
        (∀ x, hasAcquire w.kind = false ∨ wholeAt s c.cluster x → t.mscByte x = s.mscByte x) ∧
        (t.core k).scratchRead off n = leBytes n (atomNew c l w o) ∧
        ∀ x, x < off ∨ off + n ≤ x → (t.core k).scratchByte x = (s.core k).scratchByte x) ∧
    (∀ va e s1, peekInstr s c = some (.atom w) →
      translateLanes c .atomic 3 none s [(l, c.globalVa l w.a.op w.imm)] = .inl ([(l, va, e)], s1) →
      s1.pageHeld c.space e.pte = false → c.level = .core → scopeWide w.scope = true →
      let pa := e.phys va.toNat
      let o := leNat (s1.mscRead pa n)
      (∀ i < n, isHbm (pa + i) = true) → s1.enginePoison? c.cluster pa n = none →
      (∀ g ∈ granules 128 pa n, tblFind (s1.slice c.cluster) g = none) →
      ∃ t, exec (.atomPerformed a) s = .next t ∧ done o t ∧ t.mscRead pa n = leBytes n (atomNew c l w o) ∧
        ∀ x, x < pa ∨ pa + n ≤ x → hasAcquire w.kind = false ∨ wholeAt s1 c.cluster x → t.mscByte x = s1.mscByte x)

/-- R132, R133, R228: after its commit a TST hands the bytes of its tiles, with their addresses, to the home die, and its strand
has ended; no memory changes yet. A TLD waits for its data. One piece of a tile that performs is written at the memory-side
cache, and one that returns stands in the scratchpad. R133: the oldest tile store that its home die holds is
written at the memory-side cache, byte for byte, and is gone from the group. R132, R133: one with AON makes VER odd, then writes META and
the tile, then leaves VER two higher, in three steps of the model (log entry 57). R133, R228: a TLD that returns puts
the bytes that its piece reads into the scratchpad at its offset, and its fragment goes on. -/
def Obligations.TilesMoved : Prop :=
  (∀ (w : MemOp) (s : State) (c : Ctx),
     let ls := c.units w.toCommon false
     (∀ t0 es t1 ps, Issues s (.tst w) c →
       let s0 := if tileAon w && !c.f.committed then s.setMark c.agent (c.scope w.scope) else s
       Performs s0 c t0 →
       let s1 := s0.ensureCommit c
       let d := s1.reread c
       ls.any (tileMisaligned c w true) = false → ls ≠ [] → s1.fifosEmpty d = true → accessBlock d = none →
       ls.any (tilePoisoned d w) = false →
       scratchRanges s1 d 1 (ls.map fun l => (l, tileSp d w l, tileBytes s1 d w l)) = .inl ps →
       (∀ p ∈ ps, (s1.core p.2.1).absentLine p.2.2.1 p.2.2.2 = none) →
       translateLanes d .write 2 none t0 ((tilePieces s1 d w ls).map fun p => (p.1, BitVec.ofNat 64 p.2.2.1)) = .inl (es, t1) →
       ∃ t, exec (.tst w) s = .next t ∧ t.ram = t1.ram ∧ t.l2 = t1.l2 ∧ After t c fun f => Ended c f ∧ keepsBut d.g f.g [] ∧
         ∃ new, f.g.tsts = d.g.tsts ++ new ∧ new.map (·.mask) = ps.map (fun p => lanesMask [p.1]) ∧
           new.map (·.segs) = (ps.map fun p => (((tilePieces s1 d w ls).zip es).filter fun x => x.1.1 == p.1).map fun x =>
             (x.2.2.2.phys x.2.2.1.toNat, x.2.2.2.pte, (s1.core p.2.1).scratchRead (p.2.2.1 + x.1.2.1) x.1.2.2.2)) ∧
           ∀ x ∈ new, x.aon = tileAon w ∧ x.scope = d.scope w.scope ∧ x.stage = 0) ∧
     (∀ ps es s1, Issues s (.tld w) c → ls ≠ [] → ls.any (tileMisaligned c w false) = false → ls.any (tilePoisoned c w) = false →
       accessBlock c = none → scratchRanges s c 2 (ls.map fun l => (l, tileSp c w l, tileBytes s c w l)) = .inl ps →
       translateLanes c .read 1 none s ((tilePieces s c w ls).map fun p => (p.1, BitVec.ofNat 64 p.2.2.1)) = .inl (es, s1) →
       ∃ t, exec (.tld w) s = .next t ∧ sameMemory s1 t ∧ After t c fun d => d.f.pc = c.f.pc ∧ keepsBut c.g d.g [] ∧
         ∃ items, d.f.wait = .tld s.clock items ∧ items.length = (tilePieces s c w ls).length) ∧
     (∀ a since items, s.ctx? a = some c → c.f.wait = .tld since items → c.f.stop = none → since + 64 * 2 ^ 20 ≤ s.clock →
       exec (.tldTmo a) s = .next (takeTrap s c { cause := .tldtmo }))) ∧
  (∀ (a : Agent) (s : State) (c : Ctx) (x : TileStore) (rest : List TileStore) (o : FifoOwner) (pa pte : Nat) (bs : List Byte),
     s.ctx? a = some c → c.g.tsts = x :: rest → x.mask &&& c.f.mask ≠ 0#64 → x ∉ rest →
     s.fifoOwner (fifoOf a ((warpsOf c.g.width c.g.index).headD 0)) = some o →
     x.segs = [(pa, pte, bs)] → x.aon = false → x.bad = [] → s.pageHeld o.space pte = false → s.homeLost o.die pa = false →
     (∀ i < bs.length, isHbm (pa + i) = true) →
     ∃ t, exec (.tstPerformed a) s = .next t ∧ (∀ i, (h : i < bs.length) → t.mscByte (pa + i) = bs[i]) ∧
       ((∀ k, o.cl = some k → ∀ g ∈ granules 128 pa bs.length, tblFind (s.slice k) g = none) →
         ∀ y, y < pa ∨ pa + bs.length ≤ y → t.mscByte y = s.mscByte y) ∧
       After t c fun d => d.g = { c.g with tsts := rest }) ∧
  (∀ (a : Agent) (s : State) (c : Ctx) (x : TileStore) (rest : List TileStore) (o : FifoOwner) (pa pte : Nat) (bs : List Byte),
     s.ctx? a = some c → c.g.tsts = x :: rest → x.mask &&& c.f.mask ≠ 0#64 → x ∉ rest → tileBehind s x = false →
     s.fifoOwner (fifoOf a ((warpsOf c.g.width c.g.index).headD 0)) = some o →
     x.segs = [(pa, pte, bs)] → x.aon = true → x.bad = [] → s.pageHeld o.space pte = false → s.homeLost o.die pa = false →
     64 ≤ bs.length → (∀ i < bs.length, isHbm (pa + i) = true) → (∀ k, o.cl = some k → s.slice k = []) →
     let held (t : State) (l : List TileStore) : Prop := After t c fun d => d.g = { c.g with tsts := l ++ rest }
     ∃ t, exec (.tstPerformed a) s = .next t ∧
       (x.stage = 0 → t.mscWord pa = (s.mscWord pa + 1) % 2 ^ 32 ∧ held t [{ x with stage := 1, ver := s.mscWord pa }] ∧
         ∀ y, y < pa ∨ pa + 4 ≤ y → t.mscByte y = s.mscByte y) ∧
       (x.stage = 1 → t.mscWord pa = s.mscWord pa ∧ (∀ i, (h : i < bs.length) → 4 ≤ i → t.mscByte (pa + i) = bs[i]) ∧
         held t [{ x with stage := 2 }] ∧ ∀ y, y < pa ∨ pa + bs.length ≤ y → t.mscByte y = s.mscByte y) ∧
       (x.stage = 2 → t.mscWord pa = (x.ver + 2) % 2 ^ 32 ∧ held t [] ∧
         ∀ y, y < pa ∨ pa + 4 ≤ y → t.mscByte y = s.mscByte y)) ∧
  (∀ (w : MemOp) (a : Agent) (s s1 : State) (c : Ctx) (since l o pa n k off : Nat) (bs : List Byte), s.ctx? a = some c →
     c.f.wait = .tld since [(l, o, pa, n)] → peekInstr s c = some (.tld w) → c.f.stop = none → unitReady s c = true →
     let s0 := if tileAon w && o == 0 then (s.pastSlice c pa 4).touchLines c.part pa 4 else s
     s.clock < since + 64 * 2 ^ 20 → (tileAon w = true → o = 0 → s0.mscWord pa % 2 = 0) → s.homeLost (c.die s) pa = false → c.units w.toCommon false = [l] →
     scratchRanges s c 2 [(l, tileSp c w l, n)] = .inl [(l, k, off, n)] → (s.core k).absentLine off n = none →
     tileReads c (tileAon w) s0 [(l, o, pa, n)] = ([(l, o, bs)], none, s1) →
     ∃ t, exec (.tldReturn a) s = .next t ∧ PassedOn t c ∧
       (∀ x, tileAon w = false ∨ wholeAt s1 c.cluster x → t.mscByte x = s1.mscByte x) ∧
       (∀ i, (h : i < bs.length) → (t.core k).scratchByte (off + o + i) = bs[i]) ∧
       ∀ x, x < off + o ∨ off + o + bs.length ≤ x → (t.core k).scratchByte x = (s.core k).scratchByte x)

/-! ### Barriers -/

/-- R232 to R234: BARA and BARS arrive for their acting lanes, on a core or a tender. Short of the target, the barrier counts
them, their arrival bits are set and the fragment of BARS waits before the SBEG that follows; at the target the count is 0,
no arrival bit of the block is left, and the fragment of BARS is ready after 6 core cycles, or 40 on a tender, unless its block
is to be taken (R298). R233: BARW passes when no acting lane's arrival bit is set, and otherwise waits for the lanes whose bit
is; while its block is to be taken, one at a listed label waits in either case (log entry 43). -/
def Obligations.NamedBarriers : Prop :=
  (∀ (w : MemOp) (s t0 : State) (c : Ctx) (b : Block), c.acting w.guard ≠ [] → Arrives s c w t0 → t0.block? c.core = some b →
     (∀ l ∈ c.acting w.guard, l < c.g.lanes.length) → c.level ≠ .super →
     let ls := c.acting w.guard
     let n := barIndex w
     let e := ((barHeld s c w).reread c).src (ls.headD 0) .b32 w.b w.imm
     let r := barAfter b n e ls.length
     let short (t : State) : Prop := r.1.cnt < r.2 →
       (∃ b', t.block? c.core = some b' ∧ b'.barrier n = r.1) ∧ After t c fun d => ∀ l ∈ ls, (d.g.lane l).arv.getLsbD n = true
     let full (t : State) : Prop := r.2 ≤ r.1.cnt → ∃ b', t.block? c.core = some b' ∧ b'.barrier n = { r.1 with cnt := 0 } ∧
       ∀ g ∈ b'.groups, ∀ x ∈ g.lanes, x.arv.getLsbD n = false
     (Issues s (.bara w) c → ∃ t, exec (.bara w) s = .next t ∧ short t ∧ full t ∧ After t c fun d => Ended c d) ∧
     (Issues s (.bars w) c → ∃ t, exec (.bars w) s = .next t ∧ short t ∧ full t ∧ After t c fun d =>
       d.f.pc = c.f.pc + 16 ∧ d.f.rst.pc = c.f.pc + 16 ∧
       (r.1.cnt < r.2 → d.f.wait = .barrier n (lanesMask ls) (some (c.scope w.scope))) ∧
       (r.2 ≤ r.1.cnt → b.taking = none → d.f.wait = .none ∧ d.f.readyAt = s.clock + 64 * (if c.level = .tender then 40 else 6)) ∧
       (r.2 ≤ r.1.cnt → d.f.wait = .none ∨ b.taking ≠ none ∧ d.f.wait = .barrier n (lanesMask ls) (some (c.scope w.scope))))) ∧
  (∀ (w : MemOp) (s : State) (c : Ctx), Issues s (.barw w) c → c.acting w.guard ≠ [] →
     let held := (c.acting w.guard).filter fun l => (c.g.lane l).arv.getLsbD (barIndex w)
     let all := Wait.barrier (barIndex w) (lanesMask (c.acting w.guard)) none
     (held = [] → heldForTake s c all = false → ∃ t, exec (.barw w) s = .next t ∧ AcquiredAt s t c.cluster ∧ PassedOn t c) ∧
     (held = [] → heldForTake s c all = true → ∃ t, exec (.barw w) s = .next t ∧ sameMemory s t ∧ After t c fun d =>
       d.f.pc = c.f.pc ∧ d.f.wait = all) ∧
     (held ≠ [] → ∃ t, exec (.barw w) s = .next t ∧ sameMemory s t ∧ After t c fun d =>
       d.f.pc = c.f.pc ∧ d.f.wait = .barrier (barIndex w) (lanesMask held) none))

/-- R235: an arrival of `k` that leaves arrivals pending lowers their number and keeps the phase; one that leaves
none flips the phase and puts the expected count in place; one of more than are pending sets OVA; reserved bits are zero (R7). R235 to R237:
MBINIT stores an object with both counts; MBARV arrives at one in one step and reads the upper word; MBTST
writes to its predicate whether the phase differs from the parity; MBWAIT passes when every lane's phase does,
and otherwise waits for the lanes whose phase does not. -/
def Obligations.ObjectBarriers : Prop :=
  (∀ (x k : Nat) (skip : Bool), x < 2 ^ 64 →
     let y := objArrive x k skip
     y < 2 ^ 64 ∧ bitField y 32 16 = bitField x 32 16 ∧ bitField y 16 16 = 0 ∧ bitField y 49 12 = 0 ∧
     (k < bitField x 0 16 → bitField y 0 16 = bitField x 0 16 - k ∧ bitField y 48 1 = bitField x 48 1 ∧
       bitField y 61 1 = bitField x 61 1 ∧ bitField y 63 1 = bitField x 63 1) ∧
     (bitField x 0 16 ≤ k → bitField y 0 16 = bitField x 32 16 ∧ bitField y 48 1 = 1 - bitField x 48 1 ∧
       bitField y 62 1 = 0 ∧ bitField y 63 1 = (if skip then 1 else bitField x 62 1)) ∧
     (bitField x 0 16 < k → bitField y 61 1 = 1)) ∧
  (∀ (w : MemOp) (s : State) (c : Ctx) (ps : List (Nat × Nat × Nat)), Clean c w.guard →
     let ls := c.units w.toCommon false
     let val (d : Ctx) (l : Nat) : Nat := d.src l .b32 w.b w.imm
     ls ≠ [] → ls.any (fun l => objAddr c w l % 8 != 0) = false →
     (Issues s (.mbinit w) c → sbovf c ls = none → scratchLanes s c 2 (ls.map fun l => (l, objAddr c w l)) = .inl ps →
       ∃ t, exec (.mbinit w) s = .next t ∧ sameMemory s t ∧ PassedOn t c ∧ After t c fun d =>
         ∃ e, d.g.sbuf = c.g.sbuf ++ [e] ∧
           e.items = ps.map fun p => storeItem c (sharers c w.toCommon) p.1 (.scratch p.2.1 p.2.2)
             (.bytes (leBytes 8 (objInit (val c p.1))))) ∧
     (∀ t0 l k off, Issues s (.mbarv w) c → Arrives s c w t0 → ls = [l] → l < c.g.lanes.length →
       let d := (barHeld s c w).reread c
       objPlaces (barHeld s c w) d w 3 ls = .inl [(l, k, off)] →
       let x := (t0.core k).object off
       let n := val d l % 65536
       ∃ t, exec (.mbarv w) s = .next t ∧ (t.core k).object off = (if n = 0 then x else objArrive x n false) ∧
         After t c fun f => Ended c f ∧ ∀ q ∈ destRegs w.d l 1, readLoc f.g q = BitVec.ofNat 32 (x / 2 ^ 32)) ∧
     (∀ ps, Issues s (.mbtst w) c → accessBlock c = none → writesScalar w.d = false →
       objPlaces s c w 1 (c.acting w.guard) = .inl ps →
       ∃ t, exec (.mbtst w) s = .next t ∧ AcquiredAt s t c.cluster ∧ After t c fun d => d.f.pc = c.f.pc + 16 ∧
         ∀ p ∈ ps, p.1 < c.g.lanes.length →
           (w.hint.toNat % 8 ≠ 7 → (d.g.lane p.1).pred (w.hint.toNat % 8) = (testBit (objSeen s c p) 48 != testBit (val c p.1) 0)) ∧
           ∀ q ∈ destRegs w.d p.1 1, readLoc d.g q = BitVec.ofNat 32 (objSeen s c p / 2 ^ 32)) ∧
     (Issues s (.mbwait w) c → accessBlock c = none → objPlaces s c w 1 ls = .inl ps → (∀ i sc, c.f.wait ≠ .object i sc) →
       let held := ps.filter fun p => testBit (objSeen s c p) 48 == testBit (val c p.1) 0
       (held = [] → ∃ t, exec (.mbwait w) s = .next t ∧ AcquiredAt s t c.cluster ∧ PassedOn t c) ∧
       (held ≠ [] → ∃ t, exec (.mbwait w) s = .next t ∧ sameMemory s t ∧ After t c fun d => d.f.pc = c.f.pc ∧
         ∃ items sc, d.f.wait = .object items sc ∧ items.map (·.1) = held.map (·.1))))

/-! ### Manifests, commands and guards -/

/-- R246, R248 to R250: TSHLD fills a manifest with the 128 bytes at its address; TSHP changes one word of it, or a
pair of words as a 64-bit number; a reserved bit of a word stays zero (R7). What TSHLD reads stands in the manifest once an
instruction names it (log entry 130). TSHST appends a store of its 128 bytes. -/
def Obligations.Manifests : Prop :=
  ∀ (w : EngOp) (s : State) (c : Ctx) (l : Nat) (ls : List Nat), c.acting w.guard = l :: ls →
    let m := engManifest w
    let i := w.ext.toNat % 32
    let v := engSrc c w w.a
    let old (k : Nat) : W32 := tblGet 0#32 (c.g.manifest m) k
    let edit (mk : EngOp → Instr) (k : Tbl W32 → Prop) : Prop := Issues s (mk w) c →
      ∃ t, exec (mk w) s = .next t ∧ sameMemory s t ∧ PassedOn t c ∧ After t c fun d => k (d.g.manifest m) ∧
        ∀ n, n ≠ m → d.g.manifest n = c.g.manifest n
    let loads (x : Tbl W32) (bs : List Byte) : Prop := ∀ k < 32,
      tblGet 0#32 x k = BitVec.ofNat 32 (leNat ((bs.drop (4 * k)).take 4)) &&& manifestMask k
    let loaded (t : State) (bs : List Byte) : Prop := After t c fun d => d.g.t = c.g.t ∧
      ∃ x, tblFind d.g.mloads m = some (c.f.mask, x) ∧ loads x bs ∧ (d.g.landManifest m).manifest m = x
    edit .tshpSet (fun x => tblGet 0#32 x i = v &&& manifestMask i ∧ ∀ k, k ≠ i → tblGet 0#32 x k = old k) ∧
    edit .tshpAdd (fun x => tblGet 0#32 x i = (old i + v) &&& manifestMask i ∧ ∀ k, k ≠ i → tblGet 0#32 x k = old k) ∧
    edit .tshpAdd64 (fun x =>
      let y := (old (i + 1) ++ old i) + v.signExtend 64
      tblGet 0#32 x i = y.setWidth 32 &&& manifestMask i ∧ tblGet 0#32 x (i + 1) = y.extractLsb' 32 32 &&& manifestMask (i + 1) ∧
      ∀ k, k ≠ i → k ≠ i + 1 → tblGet 0#32 x k = old k) ∧
    ((tshSp c w) % 16 = 0 → ∀ k off, scratchRange s c (tshSp c w) 128 = .inl (k, off) →
      (Issues s (.tshldSp w) c → accessBlock c = none → soundRange s k off 128 →
        ∃ t, exec (.tshldSp w) s = .next t ∧ sameMemory s t ∧ PassedOn t c ∧
          loaded t (overlay s c l false k off 128 (s.core k).scratchByte)) ∧
      (Issues s (.tshstSp w) c → sbovf c [l] = none →
        ∃ t, exec (.tshstSp w) s = .next t ∧ sameMemory s t ∧ PassedOn t c ∧ After t c fun d =>
          ∃ e, d.g.sbuf = c.g.sbuf ++ [e] ∧
            e.items = [storeItem c (c.acting w.guard) l (.scratch k off) (.bytes (manifestBytes (c.g.manifest m)))])) ∧
    ((tshVa c w).toNat % 16 = 0 → (tshVa c w).toNat % 65536 + 128 ≤ 65536 →
      (∀ va e s1, Issues s (.tshldGl w) c → accessBlock c = none →
        translateLanes c .read 1 none s [(l, tshVa c w)] = .inl ([(l, va, e)], s1) →
        ∀ bs s2, tileReads c false s1 [(l, 0, e.phys va.toNat, 128)] = ([(l, 0, bs)], none, s2) →
        ∃ t, exec (.tshldGl w) s = .next t ∧ sameMemory s2 t ∧ PassedOn t c ∧ loaded t bs) ∧
      (∀ va e s1, Issues s (.tshstGl w) c → sbovf c [l] = none →
        translateLanes c .write 2 none s [(l, tshVa c w)] = .inl ([(l, va, e)], s1) →
        ∃ t, exec (.tshstGl w) s = .next t ∧ sameMemory s1 t ∧ PassedOn t c ∧ After t c fun d =>
          ∃ x, d.g.sbuf = c.g.sbuf ++ [x] ∧
            x.items = [storeItem c (c.acting w.guard) l (globPlace e va) (.bytes (manifestBytes (c.g.manifest m)))]))

/-- R239, R240: a command whose operands are aligned, whose queue has a free slot and on which no fragment stalls
before it, is accepted: its entry stands last in the queue with what it captured, and its strand has ended.
R240: the command that has stalled longest on a queue takes a slot that has become free. -/
def Obligations.CommandsAccepted : Prop :=
  (∀ (m : MemOp) (w : EngOp), ∀ i ∈ commands m w, ∀ (s t0 : State) (c : Ctx) (x : Capture), Issues s i c →
     c.acting (cmdGuard i) ≠ [] → (∀ v ∈ cmdAligned c i, v.1 % v.2 = 0) → Performs s c t0 →
     let d := t0.reread c
     loadsQuarter d i → captureOf t0 d i = some x → t0.queueFree x.q c.part = true → t0.stalled x.q = [] →
     (∀ b, t0.block? c.core = some b → b.owes c.core x.q = false) →
     ∃ t e, exec i s = .next t ∧ EntryOf e c x ∧ t.engineQueue x.q = t0.engineQueue x.q ++ [e] ∧ t.ram = t0.ram ∧
       After t c fun f => Ended c f) ∧
  (∀ (q : QueueId) (s : State) (c : Ctx) (o : Nat) (a : Agent) (i : Instr) (x : Capture), (o, a) ∈ s.stalled q →
     (∀ y ∈ s.stalled q, y ≠ (o, a) → o < y.1) → s.ctx? a = some c → (∃ k g f, a = .frag k g f) →
     (∀ y ∈ s.cores, ∀ b, y.2.block = some b → b.owes y.1 q = false) →
     (∀ b, s.block? c.core = some b → b.owes c.core q = false) → s.queueFree q c.part = true → peekInstr s c = some i → captureOf s c i = some x →
     ∃ t e, exec (.queueAccept q) s = .next t ∧ EntryOf e c x ∧ t.engineQueue x.q = s.engineQueue x.q ++ [e] ∧
       After t c fun f => Ended c f)

/-- R242, R243, R253, R265: GSET opens the way of its guard slot by a nonzero A and closes it by zero, GSET.clr leaves it
open; an entry that is held by the slot at the head of its queue is tested at once. QWAIT goes on when the named queues hold no entry of its virtual device, and otherwise waits for those
entries; SIGS appends one strong releasing entry to the FIFO store queue of its warp. -/
def Obligations.GuardsAndSignals : Prop :=
  ∀ (w : EngOp) (s t0 : State) (c : Ctx), c.acting w.guard ≠ [] →
    let d := t0.reread c
    let slot := w.ext.toNat % 16
    let gate (mk : EngOp → Instr) (v : Gate) : Prop := Issues s (mk w) c → Performs s c t0 → NoneHeld t0 slot →
      ∃ t b, exec (mk w) s = .next t ∧ t.block? c.core = some b ∧ b.gate slot = v ∧ t.ram = t0.ram ∧
        (After t c fun f => Ended c f) ∧ ∀ b0 n, t0.block? c.core = some b0 → n ≠ slot → b.gate n = b0.gate n
    gate .gset (if engSrc d w w.a = 0#32 then .no else .yes) ∧ gate .gsetClr .unset ∧
    (∀ q e rest, Issues s (.gset w) c → Performs s c t0 → HeldBy t0 c slot q e rest →
      (∀ names, engSrc d w w.a ≠ 0#32 → e.op = .qfnc names → ∃ t, exec (.gset w) s = .next t ∧
        t.engineQueue q = { e with passed := true, begun := true, lines := [] } :: rest ∧ After t c fun f => Ended c f) ∧
      (engSrc d w w.a = 0#32 → e.obj = none → ∃ t, exec (.gset w) s = .next t ∧ t.engineQueue q = rest ∧
        After t c fun f => Ended c f)) ∧
    (Issues s (.qwait w) c → (∀ q, c.f.wait ≠ .queues q) →
      let q := namedEntries s c w
      ((∀ x ∈ q, x.2 = []) → ∃ t, exec (.qwait w) s = .next t ∧ AcquiredAt s t c.cluster ∧ PassedOn t c) ∧
      ((∃ x ∈ q, x.2 ≠ []) → ∃ t, exec (.qwait w) s = .next t ∧ sameMemory s t ∧
        After t c fun f => f.f.pc = c.f.pc ∧ f.f.wait = .queues q)) ∧
    (∀ e t1, Performs s c t0 → (engPair c w.a.op).toNat % 4 = 0 →
      let l := (d.acting w.guard).headD 0
      (∀ b, t0.block? c.core = some b → warpOfLane c.g.width c.g.index l < b.warps.length) →
      let q := fifoOf c.agent (warpOfLane c.g.width c.g.index l)
      let sends (acc : Access) (ak : Nat) (mk : EngOp → Instr) (act : W32 → StoreAct) : Prop := Issues s (mk w) c →
        translate t0 d (engPair d w.a.op) acc ak none = .inl (e, t1) →
        ∃ t x, exec (mk w) s = .next t ∧ t.fifo q = t1.fifo q ++ [x] ∧ t.ram = t1.ram ∧ (After t c fun f => Ended c f) ∧
          x.strong = some .dom ∧ x.rel = some .dom ∧
          ∃ y, x.items = [y] ∧ y.place = globPlace e (engPair d w.a.op) ∧ y.act = act (engSrc d w w.b)
      sends .write 2 .sigsSet (fun b => .bytes (leBytes 4 b.toNat)) ∧
      sends .atomic 3 .sigsAdd (fun b => .atomic 0 .n32 (b.setWidth 64)))

/-! ### Engines at work -/

/-- R241, R243: an entry at the head waits while its guard is open, is discarded when its guard is closed (its slot
returns and its object takes a skipped arrival), and otherwise begins: R104, R105, R134: one that breaks no limit (R365) once the
stores of its warp have performed and the lines that it reads are present, with the lines that it writes absent; R263: a COLL
takes its index. R135, R252, R259, R367: QFNC performs
once the entries it names are gone, from their queues and from the blocks they were withdrawn with, which is the model's reading of
what is named (log entry 66); PCHKMIS reports the oldest pair check of the last 1 µs, if its results differ (R370), and closes it
with 0 rows if they are equal, as log entry 143 has it; an open-guarded entry of a retiring block is discarded with GUARDOPEN. -/
def Obligations.QueueHeads : Prop :=
  (∀ (q : QueueId) (s : State) (e : QEntry) (rest : List QEntry), s.engineQueue q = e :: rest → e.begun = false →
     e.page = none → e.retries < 4 →
     (headGate s e = .unset → exec (.guardTest q) s = .next s) ∧
     (headGate s e = .no → (e.obj = none ∨ ∃ k off, objectAt s e k off) →
       ∃ t, exec (.guardTest q) s = .next t ∧ t.engineQueue q = rest ∧ t.ram = s.ram ∧
         ∀ k off, objectAt s e k off → (t.core k).object off = objArrive ((s.core k).object off) 1 true) ∧
     (headGate s e = .yes →
       let e1 := { e with passed := true }
       let s1 := s.setHead q e1
       let begins (ls : List (Nat × Nat)) : Prop := ∃ t, exec (.guardTest q) s = .next t ∧
         t.engineQueue q = { e1 with begun := true, lines := ls } :: rest ∧ t.ram = s.ram ∧
         ∀ k l, (t.core k).lineWriters l = (s.core k).lineWriters l + (ls.filter (· == (k, l))).length
       let waits : Prop := ∃ t, exec (.guardTest q) s = .next t ∧ t.engineQueue q = e1 :: rest ∧ t.ram = s.ram
       (∀ names, e.op = .qfnc names → begins []) ∧
       (∀ p, q = .matrix p → (∀ names, e.op ≠ .qfnc names) → copyJob s1 e1 = none → (∀ ty k x m a g h, e.op ≠ .coll ty k x m a g h) →
         matrixFault s1 p e1 = none →
         let ls := match e.op with
           | .macc t _ _ false _ _ _ _ a b _ _ => maccLines p t a.toNat b.toNat 0
           | _ => []
         (ownDrained s1 e1 = true → matrixWaits s1 p e1 = false → linesFull s1 ls = false → begins ls) ∧
         (ownDrained s1 e1 = false ∨ matrixWaits s1 p e1 = true → waits)) ∧
       (∀ j, copyJob s1 e1 = some j → jobFails s1 e1 j = none → (∀ va dst len, e.op = .ldgs va dst len → ldgsFault len = none) →
         (∀ m so off, e.op = .cpy m so off → cpyFault s1 e1 m so off = none) →
         let ls := jobLines s1 e1 j
         let open_ := if ls = [] then ownDrained s1 e1 else ownEmpty s1 e1
         (open_ = true → linesFull s1 ls = false → begins ls) ∧ (open_ = false → waits)) ∧
       (∀ j ty kind x m a g thr, e.op = .coll ty kind x m a (some g) thr → collJob s1 q e1 = some j → collFault j m = false →
         j.tab.broken = false → (∀ n ∈ j.tab.neighbours, neighbourLost s j.die n.2 = false) → ownDrained s1 e1 = false →
         ∃ t r, exec (.guardTest q) s = .next t ∧ t.engineQueue q = { e1 with begun := true, run := some r } :: rest ∧
           r.j = j.tab.j ∧ r.triggered = false ∧ (t.member j.die j.vd j.x).j = j.tab.j + 1))) ∧
  ((∀ (q : QueueId) (s : State) (e : QEntry) (rest : List QEntry) (names : QueueWait), AtWork s q e rest → QuietEnd s e →
     e.op = .qfnc names →
     ((∀ x ∈ names, ∀ n ∈ x.2, s.entryLeft n = false) →
       ∃ t, exec (.qfncPerformed q) s = .next t ∧ t.engineQueue q = rest ∧ t.ram = s.ram) ∧
     ((∃ x ∈ names, ∃ n ∈ x.2, s.entryLeft n = true) → exec (.qfncPerformed q) s = .next s)) ∧
   (∀ (p rows row col : Nat) (s : State) (x : PairCheck) (rest : List PairCheck), (s.pair p).pending s.clock = x :: rest →
     ∃ t, exec (.pchkmis p rows row col) s = .next t ∧ (t.pair p).checks = rest ∧
       (rows ≠ 0 → engineReports s t x.entry .pchkmis (min rows 255) (row % 128 + col % 32 * 2 ^ 7 + x.tile % 8 * 2 ^ 12)) ∧
       (rows = 0 → ∀ k, t.part k = s.part k)) ∧
   (∀ (q : QueueId) (s : State) (e : QEntry) (rest : List QEntry) (g : Nat) (b : Block), s.engineQueue q = e :: rest →
     e.gate = some g → e.block? s = some b → b.st = .retiring → b.gate g = .unset → e.begun = false →
     (e.obj = none ∨ ∃ k off, objectAt s e k off) →
     ∃ t, exec (.guardopen q) s = .next t ∧ (t.engineQueue q).length = rest.length ∧ engineReports s t e .guardopen g 0))

/-- R225, R241, R251: the last element of a copy between scratchpads moves its bytes, and the entry leaves its queue. R241, R261:
a MACC to scratchpads without bias or activation writes each row of its tile, converted element by element, and with Z leaves the
tile zero. No other byte of a scratchpad changes but those of the entry's barrier object, no other word of an accumulator, and no
byte of global memory. -/
def Obligations.EngineMoves : Prop :=
  (∀ (core : Nat) (s : State) (e : QEntry) (rest : List QEntry) (j : CopyJob) (k o k' o' : Nat),
     AtWork s (.copy core) e rest → copyJob s e = some j → 0 < j.elem → j.size = e.progress + j.elem → QuietEnd s e →
     let r := e.progress / j.row
     let d := e.progress % j.row
     spotOf s e j.src (j.src.rows.getD r 0 + d) = .scratch k o → spotOf s e j.dst (j.dst.rows.getD r 0 + d) = .scratch k' o' →
     (s.core k).scratchPoisoned o j.elem = false → objectOutside s e k' o' j.elem →
     ∃ t, exec (.cpyPerformed core) s = .next t ∧ t.engineQueue (.copy core) = rest ∧ t.ram = s.ram ∧
       t.l2 = s.l2 ∧ (t.core k').scratchRead o' j.elem = (s.core k).scratchRead o j.elem ∧
       ∀ y x, offObject s e y x → y ≠ k' ∨ x < o' ∨ o' + j.elem ≤ x →
         (t.core y).scratchByte x = (s.core y).scratchByte x ∧ (t.core y).acc = (s.core y).acc) ∧
  (∀ (p : Nat) (s : State) (e : QEntry) (rest : List QEntry) (ty : Ty) (rnd : Rnd) (n : Nat) (zero sat : Bool) (a b c seed : W32),
     AtWork s (.matrix p) e rest → QuietEnd s e → e.op = .macc ty rnd n false false false zero sat a b c seed →
     ty ∈ ([.f32, .bf16, .f16, .e4m3, .e5m2] : List Ty) → 4 * ty.width ≤ b.toNat → a.toNat + 128 * b.toNat ≤ 2 ^ 32 →
     (∀ x ∈ pairCores p, (s.core x).accBad = [] ∧ objectOutside s e x a.toNat (128 * b.toNat)) → MatrixFree s p e → e.progress = 0 →
     ∃ t, exec (.maccPerformed p) s = .next t ∧ t.engineQueue (.matrix p) = rest ∧ t.ram = s.ram ∧ t.l2 = s.l2 ∧
       (∀ y x, offObject s e y x → y ∉ pairCores p ∨ (∀ i < 128, x < a.toNat + i * b.toNat ∨ a.toNat + i * b.toNat + 4 * ty.width ≤ x) →
         (t.core y).scratchByte x = (s.core y).scratchByte x) ∧
       (∀ y m, y ∉ pairCores p ∨ m / 4096 ≠ n → (t.core y).accWord m = (s.core y).accWord m) ∧
       ∀ side < 2, ∀ i < 128,
         let x := 2 * p + side
         (t.core x).scratchRead (a.toNat + i * b.toNat) (4 * ty.width) =
           ((List.range 32).flatMap fun j => leBytes (ty.width / 8)
             (maccElement (s.pair p) ty rnd false sat none seed side i j ((s.core x).accWord (accIndex n i j)).toNat)) ∧
         ∀ j < 32, (t.core x).accWord (accIndex n i j) = if zero then 0#32 else (s.core x).accWord (accIndex n i j))

/-- R99, R100, R255 to R260: MLDB puts what it captured into its quarter; an MMA replaces each element of its tile on
both cores by the pass over the row of A and the column of the stationary buffer; MTBL loads the table; each entry
then leaves the queue. -/
def Obligations.MatrixPerforms : Prop :=
  ∀ (p : Nat) (s : State) (e : QEntry) (rest : List QEntry), AtWork s (.matrix p) e rest → QuietEnd s e →
    (∀ k q ty west data scales, e.op = .mldb k q ty west data scales →
      ∃ t, exec (.mldbPerformed p) s = .next t ∧ t.engineQueue (.matrix p) = rest ∧
        let old := (s.pair p).buf k
        let new := (t.pair p).buf k
        new.qv = (if old.qv = 0xF#4 then 0#4 else old.qv) ||| (1#4 <<< q) ∧
          tblFind new.quarters q = some ⟨ty, west, data, scales⟩ ∧
          ∀ q', q' ≠ q → tblFind new.quarters q' = tblFind old.quarters q') ∧
    (∀ ty n k z a b c, e.op = .mma ty n k z false a b c → ty ≠ .f64 → MatrixFree s p e →
      (∀ x ∈ pairCores p, mmaTaint (s.core x) ty a.toNat b.toNat c.toNat = false) →
      ∃ t, exec (.mmaPerformed p) s = .next t ∧ t.engineQueue (.matrix p) = rest ∧
        ∀ x ∈ pairCores p, ∀ i < 128, ∀ j < 32,
          let core := s.core x
          let old := if z then 0 else (core.accWord (accIndex n i j)).toNat
          (t.core x).accWord (accIndex n i j) = BitVec.ofNat 32 (passElement ty old
            (rowValues core ty ((a.toNat + i * b.toNat) % 2 ^ 32) i c.toNat)
            ((List.range (passK ty)).map fun q => ((s.pair p).buf k).value s.freeCtr ty q j))) ∧
    (∀ a, e.op = .mtbl a → MatrixFree s p e → (s.core (2 * p)).scratchPoisoned a.toNat 2064 = false →
      ∃ t, exec (.mtblPerformed p) s = .next t ∧ t.engineQueue (.matrix p) = rest ∧
        let w (o : Nat) : W32 := BitVec.ofNat 32 (leNat ((s.core (2 * p)).scratchRead (a.toNat + o) 4))
        (t.pair p).lo = w 0 ∧ (t.pair p).scl = w 4 ∧
          ∀ i < 256, tblGet 0#32 (t.pair p).slope i = w (16 + 8 * i) ∧ tblGet 0#32 (t.pair p).icpt i = w (20 + 8 * i))

/-! ### Collectives -/

/-- R134, R264: a held COLL whose table is whole and none of whose neighbours is lost is released, with an acquire, once the stores
of its warp have performed and the word that it watches has reached its threshold, and not before; one that meets a broken table
ends at once, also after it has come back from a suspension (R245, R373). R372,
R373: a member that hears of an abort, or for which a neighbour of another module has been silent for CTMO.TMO,
breaks its table and writes no further chunk; its COLL is aborted. R263, R374: a COLL all of whose chunks have
ended leaves its queue, once its status slot is written where its table names one. -/
def Obligations.CollectivesHeldAndEnded : Prop :=
  (∀ (vd die : Nat) (s : State) (e : QEntry) (rest : List QEntry) (j : CollJob) (r : CollRun) (pa : Nat) (thr : W32),
     s.engineQueue (.coll vd die) = e :: rest → collJob s (.coll vd die) e = some j → e.page = none → e.run = some r →
     r.watch = some (pa, thr) → r.triggered = false → r.aborted = false → r.chunks = [] → j.tab.children ≠ [] →
     (j.tab.broken = true → ∃ t e' r', exec (.triggerMet vd die) s = .next t ∧ t.engineQueue (.coll vd die) = e' :: rest ∧
       e'.run = some r' ∧ r'.aborted = true ∧ r'.j = r.j ∧ r'.chunks = []) ∧
     (j.tab.broken = false → (∀ n ∈ j.tab.neighbours, neighbourLost s j.die n.2 = false) →
     (thr.toNat ≤ s.mscWord pa → ownDrained s e = true → ∃ t e' r', exec (.triggerMet vd die) s = .next t ∧
       AcquiredAt s t (clusterOf e.core) ∧ t.engineQueue (.coll vd die) = e' :: rest ∧ e'.run = some r' ∧ r'.triggered = true ∧
       r'.watch = none ∧ r'.j = r.j ∧ r'.chunks = []) ∧
     (s.mscWord pa < thr.toNat ∨ ownDrained s e = false → ∃ t, exec (.triggerMet vd die) s = .next t ∧ t.ram = s.ram ∧ t.l2 = s.l2 ∧
       t.engineQueue (.coll vd die) = e :: rest))) ∧
  (∀ (s : State) (q : QueueId) (vd die : Nat) (e : QEntry) (rest : List QEntry) (j : CollJob) (r : CollRun), q = .coll vd die →
     s.engineQueue q = e :: rest → collJob s q e = some j → e.run = some r → r.aborted = false →
     let lost (t : State) : Prop := (t.member die vd j.x).broken = true ∧
       ∃ e' rest' r', t.engineQueue q = e' :: rest' ∧ e'.run = some r' ∧ r'.aborted = true ∧ r'.chunks = r.chunks
     (∀ m : ChunkMsg, m.stage = Stage.abort.code → chunkComes s m = true → m.vd = vd → m.dst.toNat % 32 = die → m.table = j.x →
       m.j ≤ r.j % 2 ^ 32 → ∃ t, exec (.collAbort m) s = .next t ∧ lost t) ∧
     (∀ (i t0 : Nat) (ep : W32), j.tab.neighbours.find? (fun x => x.2 == ep) = some (i, ep) → moduleOf ep ≠ Config.moduleNumber →
       tblFind r.waits i = some t0 → t0 + 112000 * max 1 (s.die die).ctmo.toNat ≤ s.clock →
       ∃ t, exec (.collNeighbourTimeout vd die ep) s = .next t ∧ lost t)) ∧
  (∀ (s : State) (vd die : Nat) (e : QEntry) (rest : List QEntry) (j : CollJob) (r : CollRun),
     s.engineQueue (.coll vd die) = e :: rest → collJob s (.coll vd die) e = some j → e.run = some r → e.page = none →
     r.aborted = false → collOver j r = true → QuietEnd s e →
     (j.tab.staddr = 0 → ∃ t, exec (.collPerformed vd die) s = .next t ∧ t.engineQueue (.coll vd die) = rest ∧ t.ram = s.ram) ∧
     (j.tab.staddr ≠ 0 → ∀ s1,
       engineStore s e false (statusBytes j r) (pageSplit ((j.tab.staddr + j.tab.stsize * (r.j % j.tab.stslots)) % 2 ^ 64)
         (statusBytes j r).length) = .ok s1 →
       ∃ t, exec (.collPerformed vd die) s = .next t ∧ (t.engineQueue (.coll vd die)).length = rest.length ∧ t.ram = s1.ram))

/-- R102, R313: the exponent and the partial sums of a child's subtree join those of the member; the agreed exponent
goes on to every child; the results are written, and sent on to every child. -/
def Obligations.ChunksFlow : Prop :=
  ∀ (s : State) (m : ChunkMsg) (e : QEntry) (rest : List QEntry) (j : CollJob) (r : CollRun) (i : Nat),
    Receives s m e rest j r i →
    let ch := r.chunk m.chunk
    let kids := j.tab.children
    let taken (t : State) : Prop := t.ram = s.ram ∧ t.fabric = s.fabric.erase m
    (m.stage = Stage.expUp.code → OthersEmpty j r m.chunk → i ∉ ch.expFrom → ch.expFrom.length + 1 < kids.length → ch.dataFrom.length < kids.length →
      ∃ t, exec (.chunkExponentUp m) s = .next t ∧ taken t ∧ ChunkNow t m rest m.chunk fun x =>
        x.expFrom = i :: ch.expFrom ∧ x.cnt = ch.cnt + m.cnt ∧
        x.emax = maxExponent ch.emax m.emax) ∧
    (m.stage = Stage.dataUp.code → OthersEmpty j r m.chunk → i ∉ ch.dataFrom → ch.dataFrom.length + 1 < kids.length → ch.expFrom.length < kids.length →
      ∃ t, exec (.chunkDataUp m) s = .next t ∧ taken t ∧ ChunkNow t m rest m.chunk fun x =>
        x.dataFrom = i :: ch.dataFrom ∧ x.cnt = ch.cnt + m.cnt ∧
        ∀ k < (j.span m.chunk).length, x.spec.getD k 0 = joinMark (ch.spec.getD k 0) (m.mark k) ∧
          x.sums.getD k 0 = if ch.sums = [] then m.sum k else joinPart j (ch.sums.getD k 0) (m.sum k)) ∧
    (m.stage = Stage.expDown.code → OthersEmpty j r m.chunk → ch.agreed = none → ch.dataFrom.length < kids.length → ch.expFrom.length < kids.length →
      ∃ t, exec (.chunkExponentDown m) s = .next t ∧ t.ram = s.ram ∧
        (ChunkNow t m rest m.chunk fun x => x.agreed = some m.emax) ∧
        ∃ ms, t.fabric = s.fabric.erase m ++ ms ∧ ms.map (·.dst) = kids ∧
          ∀ x ∈ ms, x.stage = Stage.expDown.code ∧ x.chunk = m.chunk ∧ x.emax = m.emax) ∧
    (∀ rs s1, rs = resultCodes j.width (j.span m.chunk).length m.payload → m.stage = Stage.resultDown.code → ch.status = none →
      m.whole = true → collWrite s e j m.chunk rs = .ok s1 →
      s1.engineQueue (.coll m.vd (m.dst.toNat % 32)) = e :: rest → s1.fabric = s.fabric →
      ∃ t, exec (.chunkResultDown m) s = .next t ∧ t.ram = s1.ram ∧ (ChunkNow t m rest m.chunk fun x => x.status = some 0) ∧
        (m ∈ s.fabric → ∃ ms, t.fabric = s.fabric.erase m ++ ms ∧ ms.map (·.dst) = kids ∧
          ∀ x ∈ ms, x.stage = Stage.resultDown.code ∧ x.chunk = m.chunk ∧ x.payload = resultPayload j.width rs))

/-! ### Training, control registers, place and time -/

/-- R271 to R275: LSADJ reads the six registers of its virtual device; it sets one within its bounds and traps LSVAL
on a value that is refused; a step is taken once per step number, and lowers the scale after an overflow or
raises it after LSINT steps without one. R270, R276, R281 to R283: OVFR reads OVF, and OVFR.rdc also clears OVFN
and leaves a clear of OVF pending; CTLR reads the control registers of its partition; CAPQ reads the capability
mask of the core or the use mask of the kernel; CLKR reads the core cycles, or module time with a skew of at
most 8 ns, and never less than at the migration of its block, by the model's skew and saved time (log entry 105); PLCQ reads
place and numbers. -/
def Obligations.SystemValues : Prop :=
  (∀ (w : SysOp) (s : State) (c : Ctx) (f v : Nat), lossVd s c = some (f, v) → c.acting w.guard ≠ [] →
     let d := s.vd f v
     let sel := w.ext.toNat % 8
     let a := sysSrc c w w.a
     let b := sysSrc c w w.b
     (Issues s (.lsadjGet w) c → ∃ t, exec (.lsadjGet w) s = .next t ∧ Gives t c w.d [d.lsGet sel] ∧ t.vd f v = d) ∧
     (Issues s (.lsadjSet w) c →
       (∀ x, d.lsSet sel a = some x → ∃ t, exec (.lsadjSet w) s = .next t ∧ t.vd f v = x ∧ PassedOn t c) ∧
       (d.lsSet sel a = none → sel ≤ 2 ∧ exec (.lsadjSet w) s = .next (takeTrap s c { cause := .lsval, detail := sel }))) ∧
     (scaleOk a = true → ∃ x, d.lsSet 0 a = some x ∧ x.lsc.toNat = max d.lsmin.toNat (min a.toNat d.lsmax.toNat)) ∧
     (Issues s (.lsadjStep w) c → d.lsint.toNat ≤ 2 ^ 30 → ∃ t, exec (.lsadjStep w) s = .next t ∧
       let e := t.vd f v
       let run := d.lsrun.toNat % 2 ^ 30 + 1
       Gives t c w.d [if e.lskip then 1#32 else 0#32] ∧ (b = d.lsstep → e = d) ∧
       (b ≠ d.lsstep → e.lsstep = b ∧ e.lsmin = d.lsmin ∧ e.lsmax = d.lsmax ∧
         (a ≠ 0#32 → e.lskip = true ∧ e.lsrun.toNat % 2 ^ 30 = 0 ∧
           e.lsc.toNat = if d.lsc = d.lsmin then d.lsc.toNat else max (d.lsc.toNat - 0x00800000) d.lsmin.toNat) ∧
         (a = 0#32 → e.lskip = false ∧ (run < d.lsint.toNat → e.lsrun.toNat % 2 ^ 30 = run ∧ e.lsc = d.lsc) ∧
           (d.lsint.toNat ≤ run → e.lsrun.toNat % 2 ^ 30 = 0 ∧
             e.lsc.toNat = if d.lsc = d.lsmax then d.lsc.toNat else min (d.lsc.toNat + 0x00800000) d.lsmax.toNat))))) ∧
  (∀ (w : SysOp) (s : State) (c : Ctx), c.acting w.guard ≠ [] →
     let flag : W32 := if c.g.ovf then 1#32 else 0#32
     let half (x : W64) : W32 := if w.mode.toNat % 2 = 0 then x.setWidth 32 else (x >>> 32).setWidth 32
     (Issues s (.ovfrRd w) c → ∃ t, exec (.ovfrRd w) s = .next t ∧ Gives t c w.d [flag] ∧
       After t c fun d => d.g.ovf = c.g.ovf ∧ d.g.ovfn = c.g.ovfn ∧ d.f.ovfClear = c.f.ovfClear) ∧
     (Issues s (.ovfrRdc w) c → ∃ t, exec (.ovfrRdc w) s = .next t ∧ Gives t c w.d [flag] ∧
       After t c fun d => d.g.ovf = c.g.ovf ∧ d.g.ovfn = false ∧ d.f.ovfClear = true) ∧
     (Issues s (.ctlr w) c → ∃ t x, exec (.ctlr w) s = .next t ∧ Gives t c w.d [x] ∧
       let n := w.imm.toNat % 4096
       (n = 1 → x = (s.part c.part).divctl) ∧ (n = 2 → x = (s.part c.part).engbw) ∧ (n = 3 → x = (s.part c.part).dbgctl) ∧
       (n = 0x10 → ∀ f v, ctlVd s c w = some (f, v) → x = (s.vd f v).capctl)) ∧
     (Issues s (.capq w) c → ∃ t, exec (.capq w) s = .next t ∧
       Gives t c w.d [half (if w.mode.toNat < 2 then (s.core c.core).caps else c.kern.useMask)]) ∧
     (Issues s (.clkr w) c → ∃ t x, exec (.clkr w) s = .next t ∧ Gives t c w.d (words 64 x) ∧
       (w.mode = 0#8 → x = s.clock / 64) ∧ (w.mode ≠ 0#8 → s.clock / 112 ≤ x + 8 ∧
         (s.blockOf c = none → x ≤ s.clock / 112) ∧
         ∀ b, s.blockOf c = some b → b.gtFloor ≤ x ∧ (b.gtFloor ≤ s.clock / 112 → x ≤ s.clock / 112))) ∧
     (Issues s (.plcq w) c → ∃ g', exec (.plcq w) s = .next (s.putGroup c g') ∧ groupRest g' = groupRest c.g ∧
       (w.la = 0#4 → ∀ l ∈ c.units w.toCommon false, l < c.g.lanes.length →
         writesScalar w.d = false ∨ c.units w.toCommon false = [l] →
         ∀ q ∈ destRegs w.d l 1, readLoc g' q = BitVec.ofNat 32 (plcqValue s c w.mode.toNat l))))

/-- R268, R276, R277: CTLW of a harbourmaster writes DIVCTL, ENGBW, DBGCTL and CAPOFF of its partition, a reserved
bit never; on a core or a tender CTLW, TRET and HALT trap PRIV. R278, R279, R280, R328, R329: TRAP commits and
stops its fragment at the next instruction; BRK stops it where it stands, its pending results written, if BRKEN is set and
otherwise passes;
TRET ends the stop that its handle names, going on there or rerunning the strand by its mode, and answers 0
where none stands; HALT waits for a record, or takes the oldest one to S0 to S15. -/
def Obligations.SystemControl : Prop :=
  (∀ (w : SysOp) (s : State) (c : Ctx), s.cur = some c.agent → s.ctx? c.agent = some c →
     (c.level = .super → c.acting w.guard ≠ [] → placeTrap s c (.ctlw w) = none →
       let n := w.imm.toNat % 4096
       let x := sysSrc c w w.a
       let p := s.part c.part
       ∃ t, exec (.ctlw w) s = .next t ∧ t.ram = s.ram ∧
         (n = 1 → PassedOn t c ∧ t.part c.part = { p with divctl := x &&& 0x01FF000F#32 }) ∧
         (n = 2 → PassedOn t c ∧ t.part c.part = { p with engbw := x &&& 0x0000FFFF#32 }) ∧
         (n = 3 → PassedOn t c ∧ t.part c.part = { p with dbgctl := x &&& 1#32 }) ∧
         (n = 0x11 → ∀ f v, ctlVd s c w = some (f, v) →
           (t.vd f v).capoff.toNat = (s.vd f v).capoff.toNat / 2 ^ 32 * 2 ^ 32 + x.toNat)) ∧
     (c.level ≠ .super → ∀ mk ∈ ([.ctlw, .tret, .halt] : List (SysOp → Instr)),
       exec (mk w) s = .next (takeTrap s c { cause := .priv }))) ∧
  (∀ (w : SysOp) (s : State) (c : Ctx), c.acting w.guard ≠ [] →
     (∀ k i f, c.agent = .frag k i f → notHalted s c.part →
       (Issues s (.trap w) c → ∃ t h, exec (.trap w) s = .next t ∧ Stopped t c h .swtrap (c.f.pc + 16) ∧
         ∃ r : Rec, Reported s t c.part r ∧ r.cause = .swtrap ∧ r.addr = w.imm.toNat % 65536 ∧ r.fpc = c.f.pc ∧
           r.rstpc = c.f.pc + 16 ∧ r.handle = h ∧ r.stop = true) ∧
       (Issues s (.brk w) c →
         ((s.part c.part).dbgctl.getLsbD 0 = true → ∃ t h, exec (.brk w) s = .next t ∧ Stopped t c h .brk c.f.pc ∧
           After t c fun d => d.f.pend = [] ∧ d.g.lanes = (settled s c).g.lanes ∧ d.g.sbuf = c.g.sbuf) ∧
         ((s.part c.part).dbgctl.getLsbD 0 = false → ∃ t, exec (.brk w) s = .next t ∧ PassedOn t c))) ∧
     (Issues s (.tret w) c → c.level = .super →
       let mode := w.imm.toNat % 4
       (∀ a e x, s.stopped? c.part (sysSrc c w w.a).toNat = some a → s.ctx? a = some e → e.f.stop = some x →
         stuckCause x.cause = false → x.tret = none → (∀ b, s.block? e.core = some b → b.st ≠ .suspended) →
         ∃ t, exec (.tret w) s = .next t ∧ Gives t c w.d [1#32] ∧ After t e fun d => d.f.stop = none ∧
           (mode = 1 → d.f.pc = e.f.rst.pc ∧ d.f.pend = []) ∧
           (mode = 0 → x.cause = Cause.swtrap.code.1 ∨ x.cause = Cause.rjdead.code.1 → d.f.pc = e.f.pc) ∧
           (mode = 0 → x.cause = Cause.brk.code.1 → d.f.pc = if e.f.pc = e.f.rst.pc then e.f.pc else e.f.pc + 16)) ∧
       (s.stopped? c.part (sysSrc c w w.a).toNat = none → (s.part c.part).saved = [] →
         ∃ t, exec (.tret w) s = .next t ∧ Gives t c w.d [0#32] ∧ t.cores = s.cores ∧ t.ejected = s.ejected)) ∧
     (Issues s (.halt w) c → ∀ m, tblFind s.supers c.part = some m → c.level = .super →
       ((s.part c.part).ring = [] → ∃ t n, exec (.halt w) s = .next t ∧ tblFind t.supers c.part = some n ∧ n.halted = true ∧
         After t c fun d => d.f.pc = c.f.pc ∧ keepsBut c.g d.g []) ∧
       (∀ r rest, (s.part c.part).ring = r :: rest → m.run = true → m.trapped = false →
         ∃ t n, exec (.halt w) s = .next t ∧ tblFind t.supers c.part = some n ∧ n.halted = false ∧
           (t.part c.part).ring = rest ∧ After t c fun d => d.f.pc = c.f.pc + 16 ∧
             (∀ k < 16, d.g.sreg k = r.extractLsb' (32 * k) 32) ∧ keepsBut c.g d.g ((List.range 16).map .scal))))

/-- R322 to R326: a fault of a fragment of a core deschedules its warp, with every fragment that is not stopped back at
its restart point without its pending results, its near file and its buffered stores; the fragment is stopped under a nonzero
handle of 32 bits that no stopped fragment has, numbered as the model does (log entry 103), and a record tells the time, the
cause, its detail and address, the PC and the lanes. -/
def Obligations.TrapEntry : Prop :=
  ∀ (s : State) (c : Ctx) (k i f : Nat) (x : TrapInfo), c.agent = .frag k i f → s.ctx? c.agent = some c →
    x.cause.inPlace = false → c.f.aborts = true →
    (∀ b, s.block? k = some b → ∀ g ∈ b.groups, (g.frags.map (·.fid)).Nodup) →
    let t := takeTrap s c x
    let h := nextHandle s.handles (s.part c.part).handle
    (s.handles.length < 2 ^ 32 - 1 → 0 < h ∧ h < 2 ^ 32 ∧ h ∉ s.handles) ∧
    (notHalted s c.part → Stopped t c h x.cause c.f.rst.pc ∧
      After t c fun d => d.f.pend = [] ∧ d.f.fmt = c.f.rst.fmt ∧
        (∀ l ∈ c.active, l < c.g.lanes.length → (d.g.lane l).n = [] ∧ (d.g.lane l).srs = (c.g.lane l).srsRst) ∧
        (∀ e ∈ d.g.sbuf, e.mask &&& c.f.mask = 0#64)) ∧
    (notHalted s c.part → ∀ g, s.group? (.grp k g.index) = some g → shareWarp g.width i g.index = true →
      ∀ y ∈ g.frags, y.aborts = true → (g.index ≠ i ∨ y.fid ≠ f) →
      ∃ d, t.ctx? (.frag k g.index y.fid) = some d ∧ d.f.pc = y.rst.pc ∧ d.f.fmt = y.rst.fmt ∧ d.f.pend = [] ∧ d.f.stop = y.stop ∧
        ∀ e ∈ d.g.sbuf, e.mask &&& y.mask = 0#64) ∧
    (notHalted s c.part → ∃ r : Rec, Reported s t c.part r ∧ r.cause = x.cause ∧ r.detail = x.detail ∧ r.addr = x.addr ∧
      r.ak = x.ak ∧ r.tag = x.tag ∧ r.fpc = x.fpc.getD c.f.pc ∧ r.rstpc = c.f.rst.pc ∧ r.mask = c.f.mask.toNat ∧
      r.handle = h ∧ r.stop = true ∧ r.part = c.part ∧ r.vd = c.vd ∧ r.time = some (s.timeFor c))

/-! ### Faults of the module -/

/-- R114, R356: a page fault of a thread of a core sends the fragment back to its restart point, to wait there for
the answer to a page request of its region, and reports PAGEF with the kind of the access. R113, R114: a walk
that has begun ends: as the entries stood when it began, its translation stands in the TLB of the core, and a fragment that
waited on it issues its instruction again; where it fails the fragment's access, the page request is raised. R308, R358: of a
walk whose page a TLBINV has named since it began no TLB takes the result, and a fragment that waited on it issues again. -/
def Obligations.WalksAndPageFaults : Prop :=
  (∀ (s : State) (c : Ctx) (k i f level detail base size ak : Nat) (va : W64) (acc : Access) (tag : Option Nat),
     c.agent = .frag k i f → s.ctx? c.agent = some c → c.f.aborts = true → (c.g.frags.map (·.fid)).Nodup →
     notHalted s c.part →
     let t := pageFault s c (level, detail, base, size) va acc ak tag
     (∃ q ∈ t.pageReqs, q.fe = c.fe ∧ q.vd = c.vd ∧ q.level = level ∧ q.detail = detail ∧ q.base = base ∧
       After t c fun d => d.f.wait = .page q.id detail va ak tag c.f.pc ∧ d.f.pc = c.f.rst.pc ∧ d.f.pend = []) ∧
     ∃ r : Rec, Reported s t c.part r ∧ r.cause = .pagef ∧ r.detail = detail ∧ r.addr = va.toNat ∧ r.ak = ak ∧
       r.fpc = c.f.pc ∧ r.rstpc = c.f.rst.pc ∧ r.stop = false) ∧
  (∀ (s : State) (w : Walk) (r : WalkRes), (s.walks.find? fun x => x.id == w.id) = some w → w.found = some r →
     let filled (t : State) (core : Nat) (acc : Access) : Prop := (∀ x ∈ t.walks, x.id ≠ w.id) ∧
       ∀ l, s.judge w.space acc false r = .leaf l → s.tlbOf w.space l (isWrite acc) ∈ (t.core core).tlb
     (w.stale = true → ∃ t, exec (.pageWalkDone w.id) s = .next t ∧ (∀ k, (t.core k).tlb = (s.core k).tlb) ∧ t.clusterTlb = s.clusterTlb ∧
       ∀ c va ak tag, walkWaiters s w.id = [(c, va, ak, tag)] → s.ctx? c.agent = some c → After t c fun d => d.f.wait = .none ∧ d.f.pc = c.f.pc) ∧
     (w.stale = false →
     (walkWaiters s w.id = [] → (∃ l, s.judge w.space w.acc false r = .leaf l) →
       ∃ t, exec (.pageWalkDone w.id) s = .next t ∧ filled t w.core w.acc) ∧
     (∀ c va ak tag, walkWaiters s w.id = [(c, va, ak, tag)] → s.ctx? c.agent = some c → r.covers va.toNat = true →
       let acc := accessOf ak
       ((∃ l, s.judge w.space acc false r = .leaf l) → ∃ t, exec (.pageWalkDone w.id) s = .next t ∧ filled t c.core acc ∧
         After t c fun d => d.f.wait = .none ∧ d.f.pc = c.f.pc ∧ d.g.lanes = c.g.lanes) ∧
       (∀ level detail base size k i f, s.judge w.space acc false r = .fail level detail base size → c.agent = .frag k i f →
         c.f.aborts = true → (c.g.frags.map (·.fid)).Nodup → ∃ t, exec (.pageWalkDone w.id) s = .next t ∧ filled t c.core acc ∧
         ∃ q ∈ t.pageReqs, q.fe = c.fe ∧ q.vd = c.vd ∧ q.level = level ∧ q.detail = detail ∧ q.base = base ∧
           After t c fun d => d.f.wait = .page q.id detail va ak tag c.f.pc ∧ d.f.pc = c.f.rst.pc))))

/-- R342, R362, R363: an uncorrectable error poisons what it struck, a register, eight bytes of a scratchpad or two
words of an accumulator, or the 32 bytes of memory around it; it is counted in the UE field of its level, a
corrected one in the CE field; both counts saturate and no byte of memory changes. R337, R338: a transient fault
sends the fragment back to its restart point and counts one more abort; the fourth in one strand stops it with
PERSIST. R327: the oldest held record is written to the next slot of the ring in memory, and is delivered in its
turn. -/
def Obligations.ErrorsAndRecords : Prop :=
  (∀ (s : State) (core : Nat),
     let ue (t : State) (d i : Nat) : Prop :=
       let x := (tblGet 0#32 (s.die d).ras i).toNat
       (tblGet 0#32 (t.die d).ras i).toNat = min (x / 65536 + 1) 65535 * 65536 + x % 65536
     (∀ i lane reg g, s.group? (.grp core i) = some g → lane < g.lanes.length →
       ∃ t g', exec (.uncorrectableError (.vreg core i lane reg)) s = .next t ∧ t.group? (.grp core i) = some g' ∧
         poisonAt g' lane reg = true ∧ keepsBut g g' [] ∧ t.ram = s.ram ∧ ue t (dieOf core) 0) ∧
     (∀ off, (∀ b, s.block? core = some b → contextSlot b off = none) →
       ∃ t, exec (.uncorrectableError (.scratch core off)) s = .next t ∧ (t.core core).scratchPoisoned off 1 = true ∧
         (t.core core).scratch = (s.core core).scratch ∧ t.ram = s.ram ∧ ue t (dieOf core) 1) ∧
     (∀ k, ∃ t, exec (.uncorrectableError (.accum core k)) s = .next t ∧ (t.core core).accBad.contains (k / 2) = true ∧
       (t.core core).acc = (s.core core).acc ∧ t.ram = s.ram ∧ ue t (dieOf core) 2) ∧
     (∀ pa, isHbm pa = true →
       (∃ t, exec (.uncorrectableError (.msc pa true)) s = .next t ∧ t.memPoisoned pa 1 = true ∧ t.ram = s.ram ∧
         ue t (homeDie pa) 4) ∧
       ∃ t, exec (.uncorrectableError (.hbm pa)) s = .next t ∧ t.memPoisoned pa 1 = true ∧ t.ram = s.ram ∧
         ue t (homeDie pa) 5) ∧
     (∀ die level, ∃ t, exec (.correctableError die level) s = .next t ∧ t.ram = s.ram ∧ t.memBad = s.memBad ∧
       let x := (tblGet 0#32 (s.die die).ras level).toNat
       (tblGet 0#32 (t.die die).ras level).toNat = x / 65536 * 65536 + min (x % 65536 + 1) 65535)) ∧
  (∀ (s : State) (c : Ctx) (k i f : Nat) (src : TransSource), c.agent = .frag k i f → s.ctx? c.agent = some c →
     ready s c = true ∨ c.f.toPerform = true → c.f.stop = none → c.f.aborts = true → (c.g.frags.map (·.fid)).Nodup →
     src ≠ .handover →
     ∃ t, exec (.trans c.agent src) s = .next t ∧ After t c fun d =>
       d.f.pc = c.f.rst.pc ∧ d.f.pend = [] ∧ d.f.trans = c.f.trans + 1 ∧ (c.f.trans < 3 → d.f.stop = none) ∧
       (3 ≤ c.f.trans → ∃ h, d.f.stop = some ⟨h, Cause.persist.code.1, none⟩)) ∧
  (∀ (p : Nat) (s : State) (r : BitVec 512) (rest : List (BitVec 512)), (s.part p).heldRecs = r :: rest →
     (s.part p).ring.length < (s.part p).ringSize → (s.part p).disabling = false → notHalted s p →
     let slot := (s.part p).frbase + 64 * ((s.part p).wcnt % (s.part p).ringSize)
     ∃ t w, exec (.recordWrite p) s = .next t ∧ (w = r ∨ ((s.part p).lost = true ∧ w = r ||| (1#512 <<< 102))) ∧
       (t.part p).heldRecs = rest ∧ (t.part p).ring = (s.part p).ring ++ [w] ∧
       (t.part p).wcnt = ((s.part p).wcnt + 1) % 65536 ∧ (t.part p).lost = false ∧
       ((∀ k < 64, isHbm (slot + k) = true) → t.mscRead slot 64 = leBytes 64 w.toNat) ∧
       ∀ a, a < slot ∨ slot + 64 ≤ a → t.mscByte a = s.mscByte a)

/-- R68, R72, R341: a wait on a rejoin register that is not covered within its limit lets its fragment go on, past
the RJWAIT, with the lanes not covered left in the register; of the spilled fragments of a
quadrant the one that became ready first takes a free entry of its table. R76, R79: the lanes of an ejected side are handed
over together once its warp has drained, with the whole slice written back (log entry 37), and 40 + 2n core cycles have passed;
each lives in its context with the registers that its survivor entry lists and knows the rejoin at which it returns, as it stood
then (log entry 115); at its RJWAIT it returns with the listed ones. -/
def Obligations.FragmentsAndLanes : Prop :=
  ((∀ (k i j : Nat) (s : State) (b : Block) (g : Group) (f : Frag) (t0 limit : Nat), s.block? k = some b → b.st = .running →
     s.group? (.grp k i) = some g → g.waiter j = some f → (g.rej j).arrival = some (t0, limit) → t0 + limit ≤ s.clock →
     ∃ t g' f', exec (.rjtmo k i j) s = .next t ∧ t.group? (.grp k i) = some g' ∧ g'.frag? f.fid = some f' ∧
       f'.pc = f.pc + 16 ∧ f'.wait = .none ∧ f'.readyAt = s.clock + 64 * 24 ∧ (g'.rej j).mask = g.uncovered j ∧
       (g'.rej j).arrival = none ∧ keepsBut g g' []) ∧
   (∀ (k i f q : Nat) (s : State) (b : Block) (c : Ctx), s.block? k = some b → s.ctx? (.frag k i f) = some c →
     loadHead s k q = some c → (∀ g ∈ b.groups, ∀ x ∈ g.frags, x.slot ≠ .outside) →
     let since (x : Ctx) : Nat := x.f.readySince.getD s.clock
     (∀ y ∈ quadFrags s k q, (∃ n, y.f.slot = .spilled n) → able s y = true → since c ≤ since y) ∧
     ∀ e, b.place b.kern.w i = .entry e → ∃ t, exec (.fragmentLoad k q) s = .next t ∧ After t c fun d =>
       d.f.slot = .entry e ∧ d.f.issued = false ∧ d.f.pc = c.f.pc ∧ d.f.mask = c.f.mask ∧ d.g.lanes = c.g.lanes)) ∧
  ((∀ (k th n : Nat) (s : State) (c : Ctx), handoverCtx s k th = some c →
     let e := s.survAt c c.f.pc
     (c.f.wait = .handover n none → drainedTo s c n = true → sliceSorted s (clusterOf k) →
       ∃ t, exec (.ejectHandover k th) s = .next t ∧ WrittenBack s t (clusterOf k) (fun _ => true) ∧
         After t c fun d => d.f.wait = .handover n (some s.clock) ∧ d.f.pc = c.f.pc) ∧
     (∀ t0, c.f.wait = .handover n (some t0) → t0 + 64 * (40 + 2 * survCount e) ≤ s.clock → (c.f.ctxs.map (·.1)).Nodup →
       c.f.mask = lanesMask (c.f.ctxs.map (·.1)) → (∀ x ∈ c.f.ctxs, x.1 < c.g.width ∧ x.1 < c.g.lanes.length ∧ x.1 < 64) →
       ∃ t g', exec (.ejectHandover k th) s = .next t ∧ t.group? (.grp k c.g.index) = some g' ∧
         ∀ x ∈ c.f.ctxs, (g'.lane x.1).away = true ∧ ∃ y ∈ t.ejected, y.core = k ∧ y.ctx = x.2 ∧ y.thread = threadOf c.g x.1 ∧
           y.home = (c.f.carried.map fun j => (j, (c.g.rej j).rpc, (c.g.rej j).depth)) ∧
           (∀ r < 256, survV e r = true → (y.grp.lane x.1).vreg r = (c.g.lane x.1).vreg r) ∧
           ∀ r < 64, survS e r = true → y.grp.sreg r = c.g.sreg r)) ∧
   (∀ (k th l j : Nat) (s : State) (c : Ctx) (y : Ejected) (g : Group), s.ctx? (.ejected k th) = some c →
     s.ejected? k th = some y → c.f.wait = .rejoin j → mayReturn s k th y j c.f = true → y.fifo = [] → c.f.stop = none → c.f.pend = [] →
     threadLane y.grp.width th = (y.grp.index, l) → s.group? (.grp k y.grp.index) = some g → l < g.lanes.length →
     (∀ x ∈ g.frags, x.fid < s.serial) →
     let e := s.survAt c (c.f.pc + 16)
     ∃ t g', exec (.ejectReturn k th) s = .next t ∧ t.ejected? k th = none ∧ t.group? (.grp k y.grp.index) = some g' ∧
       (g'.lane l).away = false ∧ ∀ r < 256, (g'.lane l).vreg r = if survV e r then (y.grp.lane l).vreg r else (g.lane l).vreg r))

/-! ### The distributor and the sharing of time -/

/-- R26, R31 to R33, R290: the first candidate of the resident device that finds eligible cores forms its next gang: one
running block on each core of the run, in order, every thread at the entry with its numbers in V0 and S0 to S4. -/
def Obligations.GangForms : Prop :=
  ∀ (p v pri q size i c0 : Nat) (s : State) (e : Entry) (g : Grid), (s.part p).en = true → (s.part p).switching = false →
    (s.part p).resident = some v → (s.vd (p / 2) v).resetting = none →
    (∀ x ∈ (s.part p).saved, x.vd ≠ v ∨ x.fe ≠ p / 2) →
    (candidates s p v).findSome? (fun x => x.2.2.grid.bind fun g => (nextGang s p (p / 2) v g).map fun y => (x, g, y)) =
      some ((pri, q, e), g, size, i, c0) →
    let at' (r : Nat) : Option Nat := (s.vd (p / 2) v).core? i (c0 + r)
    (∀ r r' k, at' r = some k → at' r' = some k → r = r') →
    let num (x : Nat) : W32 := BitVec.ofNat 32 x
    ∃ t, exec (.gangForm p) s = .next t ∧ (∀ x, (∀ cl, wholeAt s cl x) → t.mscByte x = s.mscByte x) ∧
      (∃ x ∈ (t.queue (p / 2) q).entries, x.tag = e.tag ∧
        x.grid = some { g with formed := g.formed + size, gangs := g.gangs + 1 }) ∧
      ∀ r < size, ∀ k, at' r = some k → ∃ b, t.block? k = some b ∧ b.st = .running ∧ b.vd = v ∧ b.index = g.formed + r ∧
        b.gang = g.gangs ∧ b.rank = r ∧ b.gangSize = size ∧ b.kern = g.kern ∧
        ∀ n < g.kern.groups, ∃ x ∈ b.groups, x.index = n ∧ x.sreg 0 = num (g.formed + r) ∧ x.sreg 1 = num g.gangs ∧
          x.sreg 2 = num r ∧ x.sreg 3 = num size ∧ x.sreg 4 = num n ∧
          ∀ l < g.kern.w, g.kern.w * n + l < g.kern.n → (x.lane l).present = true ∧ (x.lane l).exited = false ∧
            (x.lane l).vreg 0 = num (g.kern.w * n + l)

/-- R37, R38, R287 to R289, R383: a drained retiring block frees its core, and with the last block of its grid the entry
is done; a LAUNCH begins when its device is resident, a WAITTAG completes at its tag, a WAITSIG at its value; the
watchdog of a queue expires. -/
def Obligations.QueueEntries : Prop :=
  ∀ (s : State) (f q : Nat),
    (∀ (k : Nat) (b : Block), s.block? k = some b → b.st = .retiring → drained s k b = true → (∀ g ∈ b.groups, g.sbuf = []) → b.withdrawn = [] →
      ∃ t, exec (.blockRetire k) s = .next t ∧ t.block? k = none ∧
        ∀ e g, (s.queue b.fe b.queue).entries.find? (fun x => x.tag == b.tag && hdrVd x.hdr == b.vd) = some e → e.grid = some g →
          (g.retired + 1 ≠ g.blocks → t.outbox = s.outbox ∧ ∃ x ∈ (t.queue b.fe b.queue).entries, x.tag = b.tag ∧
            x.grid = some { g with retired := g.retired + 1 }) ∧
          (g.retired + 1 = g.blocks → t.outbox = (s.done b.fe e.hdr e.tag 0).outbox)) ∧
    (∀ e, (∀ x ∈ (s.queue f q).entries, hdrKind x.hdr ≠ 3) → (s.queue f q).next? = some e →
      let p := (s.vd f (s.queue f q).vd).part.toNat
      (hdrKind e.hdr = 1 → (s.part p).resident = some (s.queue f q).vd → (s.part p).switching = false →
        ∃ t, exec (.entryBegin f q) s = .next t ∧ (t.queue f q).count = 0 ∧
          ∃ x ∈ (t.queue f q).entries, x.tag = e.tag ∧ x.begun = true) ∧
      (hdrKind e.hdr = 1 → (s.part p).resident ≠ some (s.queue f q).vd → exec (.entryBegin f q) s = .next s) ∧
      (hdrKind e.hdr = 2 → tagReached s f e.hdr = true → ∃ t, exec (.entryBegin f q) s = .next t ∧
        t.outbox = (s.done f e.hdr e.tag 0).outbox)) ∧
    (∀ e pa base size, (s.queue f q).entries.find? (fun x => x.begun && !x.completed && hdrKind x.hdr == 3) = some e →
      e.watch = some (pa, base, size) →
      ((e.met = true ∨ waitsigMet e.hdr (s.mscWord pa) = true) → ∃ t, exec (.entryBegin f q) s = .next t ∧
        t.outbox = (s.done f e.hdr e.tag 0).outbox ∧ t.ram = s.ram) ∧
      (e.met = false → waitsigMet e.hdr (s.mscWord pa) = false → exec (.entryBegin f q) s = .next s)) ∧
    (watchdogRuns s f (s.queue f q) = true → 112000000 * (s.queue f q).wdt.toNat ≤ (s.queue f q).count →
      let p := (s.vd f (s.queue f q).vd).part.toNat
      ∃ t, exec (.wdog f q) s = .next t ∧ (t.queue f q).wdx = true ∧
        (CanReport s p .wdog → ∃ r : Rec, Reported s t p r ∧ r.cause = .wdog ∧ r.queue = q ∧ r.vd = (s.queue f q).vd))

/-- R285, R296 to R298: at a period boundary the next period begins, with TAPER and TASLICE as written and no time charged
yet; a partition without a resident device takes the selected one; a slice that ends for another device asks for the
blocks of the resident one, or hands over at once if it has none. -/
def Obligations.TimeShared : Prop :=
  ∀ (p : Nat) (s : State), (s.part p).en = true →
    ((s.part p).period + (s.part p).span ≤ s.clock → ∃ t, exec (.periodBoundary p) s = .next t ∧
      (t.part p).period = (s.part p).period + (s.part p).span ∧ (t.part p).taperNow = (s.part p).taper ∧
      (t.part p).tasliceNow = (s.part p).taslice ∧ ∀ v ∈ s.vdsOf p, (t.vd (p / 2) v).charged = 0) ∧
    ((s.part p).switching = false → (s.part p).resident = none → ∃ t, exec (.sliceEnd p) s = .next t ∧
      (t.part p).resident = selectVd (refresh s p) p) ∧
    (∀ v u, (s.part p).switching = false → (s.part p).resident = some v →
      let s1 := refresh s p
      let s2 := chargeSlice s1 p
      sliceOver s1 p = true → selectVd s2 p = some u → u ≠ v → ∃ t, exec (.sliceEnd p) s = .next t ∧
        (s.blocksOf (p / 2) v = [] → (t.part p).resident = some u ∧ (t.part p).switching = false) ∧
        (s.blocksOf (p / 2) v ≠ [] → (t.part p).resident = some v ∧ (t.part p).switching = true ∧
          (t.part p).successor = some u ∧ ∀ k b, s.block? k = some b → b.fe = p / 2 → b.vd = v → b.st = .running →
            t.block? k = some { b with taking := some s.clock }))

/-- R298 to R302: a block whose threads all wait at listed barriers is suspended; 200 µs after the request it is by force,
each fragment back at its restart point with its registers; once nothing of the device is left but suspended, drained
blocks, they leave their cores; the first saved gang of a number all of whose cores are eligible runs again, block by
block. -/
def Obligations.BlocksTaken : Prop :=
  ∀ (s : State),
    (∀ k b, s.block? k = some b → b.taking ≠ none → b.st = .running → atBarrier s k b = true →
      ∃ t b', exec (.blockTake k) s = .next t ∧ t.block? k = some b' ∧ b'.st = .suspended ∧ t.ram = s.ram ∧
        b'.groups.map (·.index) = b.groups.map (·.index) ∧ ∀ k', k' ≠ k → t.core k' = s.core k') ∧
    (∀ k b t0, s.block? k = some b → b.taking = some t0 → b.st = .running → t0 + 22400000 ≤ s.clock →
      ∃ t b', exec (.forcedTake k) s = .next t ∧ t.block? k = some b' ∧ b'.st = .suspended ∧ t.ram = s.ram ∧
        ∀ g ∈ b.groups, (g.frags.map (·.fid)).Nodup → ∃ g' ∈ b'.groups, g'.index = g.index ∧
          (∀ l i, (g'.lane l).vreg i = (g.lane l).vreg i) ∧
          ∀ f ∈ g.frags, f.aborts = true → ∃ f' ∈ g'.frags, f'.fid = f.fid ∧ f'.pc = f.rst.pc ∧ f'.pend = []) ∧
    (∀ p v, (s.part p).switching = true → (s.part p).resident = some v → s.ejected = [] → s.busyQueues = [] →
      (∀ x ∈ s.blocksOf (p / 2) v, x.2.st = .suspended ∧ drained s x.1 x.2 = true) →
      ∃ t gs, exec (.contextSave p) s = .next t ∧ (t.part p).switching = false ∧ (t.part p).successor = none ∧
        (t.part p).saved.map (·.blocks) = (s.part p).saved.map (·.blocks) ++ gs ∧
        ∀ x ∈ s.blocksOf (p / 2) v, t.block? x.1 = none ∧ ∃ y ∈ gs, { x.2 with gtFloor := s.timeNs } ∈ y) ∧
    (∀ p n g ks, ((s.part p).saved.filter fun x => (s.part p).resident == some x.vd && x.gang == n).findSome?
        (fun g => (gangCores s p g).map fun ks => (g, ks)) = some (g, ks) → (s.part p).switching = false → g.scratch.length = g.blocks.length →
      g.acc.length = g.blocks.length → g.bad.length = g.blocks.length →
      ∃ t, exec (.gangResume p n) s = .next t ∧ g ∉ (t.part p).saved ∧
        ∀ (i k : Nat) (b : Block), g.blocks[i]? = some b → ks[i]? = some k → ∃ b', t.block? k = some b' ∧
          b'.st = .running ∧ b'.index = b.index ∧ b'.gang = b.gang ∧ b'.taking = none ∧ b'.groups.length = b.groups.length)

/-! ### The host -/

/-- R288, R306 to R309, R371: a LAUNCH, WAITTAG or WAITSIG whose turn it is stands in its queue with its tag, acknowledged with
STATUS 0, and the next SEQ is awaited; one that comes early is held and taken in at its turn; a record that breaks a rule
is rejected with the STATUS of its cause; none arrives while the port of the die is down. -/
def Obligations.HostRecords : Prop :=
  ∀ (s : State) (f : Nat) (h : BitVec 512) (bank : List W32),
    let x := s.queue f (hdrQueue h)
    let ahead := (hdrSeq h + 2 ^ 32 - x.next) % 2 ^ 32
    ∀ i ∈ ([.launch f h bank, .waittag f h, .waitsig f h] : List Instr),
    let bank := match i with
      | .launch _ _ b => b
      | _ => []
    let stands (t : State) (g : Option Grid) : Prop := ∃ e ∈ (t.queue f (hdrQueue h)).entries,
      e.tag = hdrSeq h ∧ e.hdr = h ∧ e.begun = false ∧ e.completed = false ∧ e.grid = g
    (s.hears f = false → exec i s = .next s) ∧
    (s.hears f = true → stuffed s f = false →
      (badHeader h = true → exec i s = .next (s.ack f h 4)) ∧
      (badHeader h = false → deviceOff s f h = true → exec i s = .next (s.ack f h 1))) ∧
    (Accepts s f h → queueOff s f h = true → exec i s = .next (s.ack f h 3)) ∧
    (Accepts s f h → queueOff s f h = false → (63 < ahead ∨ ∃ r ∈ x.held, hdrSeq r.1 = hdrSeq h) →
      exec i s = .next (s.ack f h 5)) ∧
    (Accepts s f h → queueOff s f h = false → (∀ r ∈ x.held, hdrSeq r.1 ≠ hdrSeq h) →
      (hdrSeq h = x.next → ∃ t, exec i s = .next t ∧ (t.queue f (hdrQueue h)).next = (x.next + 1) % 2 ^ 32 ∧
        (hdrKind h ≠ 1 → stands t none ∧ t.outbox = (s.ack f h 0).outbox) ∧
        (hdrKind h = 1 → ∀ g, launchGrid s f h bank = some g → stands t (some g) ∧ t.outbox = (s.ack f h 0).outbox) ∧
        (hdrKind h = 1 → launchGrid s f h bank = none → t.outbox = (s.ack f h 2).outbox)) ∧
      (0 < ahead → ahead ≤ 63 → ∃ t, exec i s = .next t ∧ t.outbox = s.outbox ∧
        (t.queue f (hdrQueue h)).held = x.held ++ [(h, bank)]) ∧
      (x.held.find? (fun r => hdrSeq r.1 == x.next) = none → exec (.heldRecordIntake f (hdrQueue h)) s = .next s)) ∧
    (∀ r, x.held.find? (fun r => hdrSeq r.1 == x.next) = some r → x.en = true → hdrQueue r.1 = hdrQueue h →
      ∃ t, exec (.heldRecordIntake f (hdrQueue h)) s = .next t ∧ (t.queue f (hdrQueue h)).next = (x.next + 1) % 2 ^ 32 ∧
        (hdrKind r.1 ≠ 1 → ∃ e ∈ (t.queue f (hdrQueue h)).entries, e.tag = x.next ∧ e.hdr = r.1 ∧ e.begun = false))

/-- R308, R309, R316, R356 to R358, R385, R390: TLBINV drops what it names from the TLBs and is done once earlier walks and
the stores with an old translation are; ICINV is done once no named line is held; a page response ends the waits on its
request, or is counted as stale; retained messages are sent once a port is up. -/
def Obligations.HostCommands : Prop :=
  ∀ (s : State) (f : Nat) (h : BitVec 512),
    let v := hdrVd h
    (Accepts s f h →
      (∃ t c, exec (.tlbinv f h) s = .next t ∧ t.commands = s.commands ++ [c] ∧ c.fe = f ∧ c.hdr = h ∧
        (∀ k, ∀ e ∈ (t.core k).tlb, e.space = 256 * f + v → invNames h e.base e.size = false) ∧
        (∀ w ∈ t.walks, w.space = 256 * f + v → ∀ r, w.found = some r → h.getLsbD 320 = true ∨ r.covers (hdrField h 256 64) = true →
          w.stale = true) ∧
        ∀ k, ∀ e ∈ tblGet [] t.clusterTlb k, e.space = 256 * f + v → invNames h e.base e.size = false) ∧
      (∃ t, exec (.icinv f h) s = .next t ∧ t.ram = s.ram ∧ (hdrField h 352 2 = 0 → t.commands = s.commands ∧
          t.outbox = ((s.ack f h 0).done f h 0 0).outbox) ∧
        (hdrField h 352 2 ≠ 0 → ∃ c, t.commands = s.commands ++ [c] ∧ c.fe = f ∧ c.hdr = h)) ∧
      ((∀ r ∈ s.pageReqs, r.fe = f → r.vd = v → r.id ≠ hdrField h 256 32) →
        ∃ t, exec (.pageresp f h) s = .next t ∧ (t.fe f).stale = min ((s.fe f).stale + 1) 0xFFFFFFFF) ∧
      (∀ r, s.pageReqs.find? (fun r => r.fe == f && r.vd == v && r.id == hdrField h 256 32) = some r →
        hdrField h 288 16 = (s.vd f v).gen.toNat → h.getLsbD 304 = false → r.id ≤ s.serial →
        ∃ t, exec (.pageresp f h) s = .next t ∧ (∀ x ∈ t.pageReqs, x.id ≠ r.id) ∧
          ∀ a ∈ s.agents, ∀ c, s.ctx? a = some c → pageWait c.f r.id ≠ none →
            After t c fun d => d.f.wait = .none ∧ d.f.pc = c.f.pc)) ∧
    (∀ c, s.commands.find? (fun x => x.id == c.id && hdrKind x.hdr == 4) = some c →
      ((∀ w ∈ s.walks, w.id ∉ c.walks) → (∀ e ∈ s.committedOf c.fe (hdrVd c.hdr), e.serial < c.id → e.holdsGone c.hdr = false) →
        ∃ t, exec (.tlbinvPerformed c.id) s = .next t ∧ (∀ x ∈ t.commands, x.id ≠ c.id) ∧
          t.outbox = (s.done c.fe c.hdr 0 0).outbox) ∧
      ((∃ w ∈ s.walks, w.id ∈ c.walks) → exec (.tlbinvPerformed c.id) s = .next s)) ∧
    (∀ c, s.commands.find? (fun x => x.id == c.id && hdrKind x.hdr == 5) = some c →
      ∃ t, exec (.icinvPerformed c.id) s = .next t ∧ (∀ x ∈ t.commands, x.id ≠ c.id) ∧
        (∀ l ∈ t.code, l.named c.fe c.hdr = false) ∧ t.outbox = (s.done c.fe c.hdr 0 0).outbox) ∧
    (s.portUp f = true → ∃ t, exec (.msgResend f) s = .next t ∧ t.outbox = s.outbox ++ (s.fe f).retained ∧ (t.fe f).retained = []) ∧
    (s.portUp f = false → exec (.msgResend f) s = .next s)

/-- R106, R107, R304, R364: a remote write of bytes of the stacks stores them and nothing else, a remote read answers the
bytes there; an access that breaks the word rule, or reads poison, is answered with an error and changes nothing. R16: with the
port of the die that it names down, no access of the host arrives, and none of its writes of the control range (log entry 123). -/
def Obligations.RemoteAccess : Prop :=
  (∀ (s : State) (d v n o : Nat) (x : W32), d < 32 → s.hears d = false → ∀ i ∈ hostWrites d v n o x, exec i s = .next s) ∧
  ∀ (s : State) (pa : Nat) (bs : List Byte), bs ≠ [] →
    let n := bs.length
    (remoteComes s pa = false → exec (.remoteWrite pa bs) s = .next s ∧ exec (.remoteRead pa n) s = .next s) ∧
    (remoteComes s pa = true →
      let answer (a : Answer) : State := { s with answers := s.answers ++ [a] }
      ((∀ k < n, isHbm (pa + k) = true) → reachesLost s pa n = false →
        (∃ t, exec (.remoteWrite pa bs) s = .next t ∧ t.answers = s.answers ++ [⟨true, []⟩] ∧ t.l2 = s.l2 ∧ t.cores = s.cores ∧
          (∀ k < n, some (t.mscByte (pa + k)) = bs[k]?) ∧ ∀ a, a < pa ∨ pa + n ≤ a → t.mscByte a = s.mscByte a) ∧
        ((∀ k < n, s.memPoisoned (pa + k) 1 = false) →
          exec (.remoteRead pa n) s = .next (answer ⟨true, s.mscRead pa n⟩)) ∧
        ((∃ k < n, s.memPoisoned (pa + k) 1 = true) → exec (.remoteRead pa n) s = .next (answer ⟨false, []⟩))) ∧
      (wordBreach pa n = true → exec (.remoteWrite pa bs) s = .next (answer ⟨false, []⟩) ∧
        exec (.remoteRead pa n) s = .next (answer ⟨false, []⟩)))

/-- R115, R116: a changed GENC starts a capture, or is refused while one runs; the preservation of a page to which
a write is held, else of the lowest page left, copies it and gives its leaf the new generation; with no page left the capture is over and the host hears of it. -/
def Obligations.Captures : Prop :=
  (∀ (s : State) (f v : Nat) (x : W32), s.feOf v = some f → s.hears f = true →
    let d := s.vd f v
    ∃ t, exec (.captureStart v x) s = .next t ∧ t.ram = s.ram ∧
      (x.getLsbD 0 ≠ d.genc → d.busy = false → (t.vd f v).genc = x.getLsbD 0 ∧ (t.vd f v).busy = true) ∧
      (x.getLsbD 0 ≠ d.genc → d.busy = true → (t.vd f v).genc = d.genc ∧ (t.vd f v).refusedBit = true) ∧
      (x.getLsbD 0 = d.genc → (t.vd f v).genc = d.genc ∧ (t.vd f v).busy = d.busy ∧
        (t.vd f v).refusedBit = (d.refusedBit && !x.getLsbD 30))) ∧
  (∀ (s : State) (f v : Nat) (va : W64), (List.range 32).find? (fun f => (s.vd f v).busy) = some f →
    let d := s.vd f v
    (capturePages s f v = [] → ∃ t, exec (.pagePreserve v va) s = .next t ∧ (t.vd f v).busy = false ∧ t.ram = s.ram ∧
      t.outbox = (s.sendMsg f (msgHead 4 v 0 (bit d.genc) f ++ leBytes 8 s.timeNs)).outbox) ∧
    (∀ l, (capturePages s f v).find? (fun l => decide (l.base ≤ va.toNat) && decide (va.toNat < l.base + l.size)) = some l →
      let held (p : Leaf) : Prop := (256 * f + v, p.pte) ∈ s.wanted
      let turn : Prop := ((∃ p ∈ capturePages s f v, held p) ∧ held l) ∨
        ((∀ p ∈ capturePages s f v, ¬ held p) ∧ ∃ p rest, capturePages s f v = p :: rest ∧ p.base = l.base)
      (¬ turn → exec (.pagePreserve v va) s = .next s) ∧
      (turn → s.memPoisoned (ptePa l.val) l.size = false → ∀ s1,
        captureCopy (s.markLeaf (256 * f + v) l.pte true false) f v (ptePa l.val) false (pageSplit ((l.base + d.capoff.toNat) % 2 ^ 64) l.size) =
          (s1, true) →
        (∀ k < 8, isHbm (l.pte + k) = true) →
        ∃ t, exec (.pagePreserve v va) s = .next t ∧ pteGen (leNat (t.mscRead l.pte 8)) = d.genc ∧
          ∀ a, a < l.pte ∨ l.pte + 8 ≤ a → t.mscByte a = s1.mscByte a)))

/-! ### The control range -/

/-- R284, R285, R327, R400: a partition is enabled with a range that no other enabled one touches and a colour of its own,
its ring empty and WCNT 0 (log entry 91) and a context for its harbourmaster; a clash leaves it off; disabling resets its devices
and, with none, turns it off; its colours never meet those of another enabled partition. R287, R382, R397: a queue is
enabled empty, expecting SEQ 1, unless a begun entry still runs, and what was held for it is dropped; while it is enabled a
write changes EN and PRI alone (log entry 85); a write of QWDT sets the limit, starts the timer again where it clears WDX, and
where the time of a LAUNCH that runs has come to the new limit, expires at once. -/
def Obligations.PartitionsAndQueues : Prop :=
  (∀ (p : Nat) (x : W32) (s : State), s.hears (p / 2) = true →
     let base := bitField x.toNat 0 6
     let limit := bitField x.toNat 8 6
     let s1 := s.setPart p { s.part p with base := base, limit := limit }
     let clash : Prop := ∃ q < 64, q ≠ p ∧ (s.part q).en = true ∧ (s.part q).base ≤ limit ∧ base ≤ (s.part q).limit
     let others := (s.othersOn p).foldl (fun (m : BitVec 16) q => m ||| (s.part q).colours) 0#16
     let kept := x.setWidth 16 &&& ~~~others
     ((s.part p).en = false →
       (∀ ctx, x.getLsbD 31 = true → base ≤ limit → ¬ clash → (s.part p).colours ≠ 0#16 →
         s1.superCtxs (base / 2) + s1.granted p (base / 2) (·.ejGrant) < 192 → superCtx (s1.usedCtxs (base / 2)) = some ctx →
         ∃ t h, exec (.partitionEnable p x) s = .next t ∧ (t.part p).en = true ∧ (t.part p).base = base ∧
           (t.part p).limit = limit ∧ (t.part p).ring = [] ∧ (t.part p).wcnt = 0 ∧ (t.part p).resident = none ∧
           (t.part p).taperNow = (s.part p).taper ∧ tblFind t.supers p = some h ∧ h.ctx = some ctx) ∧
       (clash → ∃ t, exec (.partitionEnable p x) s = .next t ∧ (t.part p).en = false ∧ t.supers = s.supers)) ∧
     ((s.part p).en = true → x.getLsbD 31 = false → (s.part p).disabling = false →
       ∃ t, exec (.partitionDisable p x) s = .next t ∧ (∀ v ∈ s.partVds p, resets t (p / 2) v) ∧
         (s.partVds p ≠ [] → (t.part p).en = true ∧ (t.part p).disabling = true) ∧
         (s.partVds p = [] → s.vdsOf p = [] → (s.part p).heldRecs = [] → (t.part p).en = false ∧
           ∀ h, tblFind t.supers p = some h → h.ctx = none ∧ h.run = false)) ∧
     (∃ t, exec (.pcolorWrite p x) s = .next t ∧
       (t.part p).colours = (if (s.part p).en = true ∧ kept = 0#16 then (s.part p).colours else kept) ∧
       ∀ q < 64, q ≠ p → (s.part q).en = true → kept &&& (s.part q).colours = 0#16)) ∧
  (∀ (f q : Nat) (x : W32) (s : State), s.hears f = true →
     let c := s.queue f q
     (c.en = false → x.getLsbD 31 = true → (∀ e ∈ c.entries, e.begun = true → e.completed = true) →
       ∃ t, exec (.queueEnable f q x) s = .next t ∧ t.queue f q = { c with
         en := true, pri := x.extractLsb' 8 2, vd := x.toNat % 256, ctag := 0, entries := [], next := 1, held := [], count := 0 }) ∧
     (c.en = false → x.getLsbD 31 = true → (∃ e ∈ c.entries, e.begun = true ∧ e.completed = false) →
       exec (.queueEnable f q x) s = .next s) ∧
     (c.en = true → ∃ t, exec (.queueDisable f q x) s = .next t ∧
       t.queue f q = { c with en := x.getLsbD 31, pri := x.extractLsb' 8 2 }) ∧
     (∃ t, exec (.qwdtWrite f q x) s = .next t ∧ (t.queue f q).wdt = x.setWidth 16 ∧
       (t.queue f q).count = (if x.getLsbD 31 then 0 else c.count) ∧
       let reached : Prop := x.setWidth 16 ≠ 0#16 ∧ c.entries.any Entry.runs = true ∧ 112000000 * (x.setWidth 16).toNat ≤ c.count
       (x.getLsbD 31 = true → (t.queue f q).wdx = false) ∧ (x.getLsbD 31 = false → reached → (t.queue f q).wdx = true) ∧
       (x.getLsbD 31 = false → ¬ reached → (t.queue f q).wdx = c.wdx)))

/-- R292, R379, R389, R396, R397: a device that no other front end holds is enabled in a partition of its own one; disabling
resets it: its generation rises, its blocks retire; once its last block is gone its record is posted, and the reset is over when
the record stands in the ring, at once or, where it is held, when it is written (log entry 96). -/
def Obligations.Devices : Prop :=
  ∀ (f v : Nat) (x : W32) (s : State), s.hears f = true →
    let d := s.vd f v
    let part := (x.extractLsb' 16 6 : BitVec 6)
    let free : Prop := ∀ g < 32, (s.vd g v).resetting = none
    (d.en = false → x.getLsbD 31 = true → free → (∀ g < 32, g ≠ f → (s.vd g v).en = false) → part.toNat / 2 = f →
      ∃ t, exec (.vdEnable f v x) s = .next t ∧ (t.vd f v).en = true ∧ (t.vd f v).part = part ∧
        (t.vd f v).weight = x.setWidth 8 ∧ (t.vd f v).cap = x.extractLsb' 8 8 ∧ (t.vd f v).gen = d.gen) ∧
    (d.en = false → x.getLsbD 31 = true → free → (∃ g < 32, g ≠ f ∧ (s.vd g v).en = true) →
      ∃ t, exec (.vdEnable f v x) s = .next t ∧ (t.vd f v).en = false ∧ (CanReport s part.toNat .feerr →
        ∃ r : Rec, Reported s t part.toNat r ∧ r.cause = .feerr ∧ r.detail = 6 ∧ r.vd = v)) ∧
    (d.en = true → x.getLsbD 31 = false → d.resetting = none →
      ∃ t, exec (.vdDisable f v x) s = .next t ∧ (t.vd f v).en = false ∧ (t.vd f v).resetting = some 0 ∧
        (t.vd f v).gen = d.gen + 1 ∧ t.ram = s.ram ∧
        ∀ k b, t.block? k = some b → b.fe = f → b.vd = v → b.st = .retiring) ∧
    ((List.range 32).find? (fun g => (s.vd g v).resetting.isSome) = some f →
      let p := d.resetPart
      ((∀ y ∈ s.cores, ∀ b, y.2.block = some b → b.fe ≠ f ∨ b.vd ≠ v) → s.resetHeld p v = false →
        ∃ t, exec (.vdResetComplete v) s = .next t ∧ t.cores.map (·.1) = s.cores.map (·.1) ∧
          ((t.vd f v).resetting = none ↔ t.resetHeld p v = false) ∧
          (CanReport s p .vdreset → (t.vd f v).resetting = none ∧
            ∃ r : Rec, Reported s t p r ∧ r.cause = .vdreset ∧ r.vd = v ∧ d.resetting = some r.detail)) ∧
      (∀ r rest, (s.part p).heldRecs = r :: rest → r.extractLsb' 120 8 = 0x29#8 → (r.extractLsb' 168 8).toNat = v → p / 2 = f →
        (s.part p).ring.length < (s.part p).ringSize → ∃ t, exec (.recordWrite p) s = .next t ∧ (t.vd f v).resetting = none) ∧
      ((∃ y ∈ s.cores, ∃ b, y.2.block = some b ∧ b.fe = f ∧ b.vd = v) → exec (.vdResetComplete v) s = .next s))

/-- R263, R271, R291, R294, R363, R373, R388, R389: a place-table word is written where the table stays in order and no block is
placed, and is refused otherwise (log entry 82); a capability mask by halves; word 0 of a member table starts its count again and
mends it; a word of a table written whole loses its poison (log entry 93); a loss-scale register as LSADJ.set would; CTMO through
the range as a whole, in which reserved words ignore a write. -/
def Obligations.ControlTables : Prop :=
  ∀ (f v : Nat) (x : W32) (s : State), s.hears f = true →
    (∀ off, let o := off % 4096 / 4 * 4
      let d := s.vd f v
      let d' := { d with place := tblSet 0#32 d.place o (x &&& placeMask o), placeBad := setErase d.placeBad o }
      (s.blocksOf f v ≠ [] → exec (.placeTableWrite f v off x) s = .next s) ∧
      (s.blocksOf f v = [] → ∃ t, exec (.placeTableWrite f v off x) s = .next t ∧
        (t.vd f v).place = if d'.placeOk then d'.place else d.place)) ∧
    (∀ die off, s.hears die = true → let p := capmPlace die off
      ∃ t, exec (.capmWrite die off x) s = .next t ∧ (t.core p.1).capm.toNat =
        if p.2 then (s.core p.1).capm.toNat % 2 ^ 32 + x.toNat % 2 ^ 18 * 2 ^ 32
        else (s.core p.1).capm.toNat / 2 ^ 32 * 2 ^ 32 + x.toNat) ∧
    (∀ die n, s.hears die = true → ∃ t, exec (.memberTableWrite die v n x) s = .next t ∧ tblGet 0#32 (t.member die v n).words 0 = x ∧
      (t.member die v n).j = 0 ∧ (t.member die v n).broken = false ∧ 0 ∉ (t.member die v n).bad) ∧
    (∀ sel < 6, (∀ d, (s.vd f v).lsSet sel x = some d → ∃ t, exec (.lossScaleHostWrite f v sel x) s = .next t ∧ t.vd f v = d) ∧
      ((s.vd f v).lsSet sel x = none → exec (.lossScaleHostWrite f v sel x) s = .next s)) ∧
    (∀ die < 32, s.hears die = true → (∃ t, exec (.registerWrite die 0x3000040 x) s = .next t ∧ (t.die die).ctmo = x.setWidth 16) ∧
      ∀ off, 0x280 ≤ off → off < 0x1000 → exec (.registerWrite die off x) s = .next s)

/-- R377 to R381, R384, R391, R394: HMCTL.RESTART starts the harbourmaster of an enabled partition at its descriptor; PRST resets
the devices of a partition, VDRST one device, a cleared GENABLE all of them; GENABLE is set but where an alarm has just cleared
it, which is the model's reading of one moment (log entry 142); the key in MODRST resets the module, and memory stays as the
committed stores and the dirty lines of the slices leave it, which no reset discards (R57, log entry 95). -/
def Obligations.Restarts : Prop :=
  ∀ (s : State) (p : Nat) (x : W32), s.hears (p / 2) = true → s.hears 0 = true →
    ((x.getLsbD 0 = false ∨ (s.part p).en = false) → exec (.hmRestart p x) s = .next s) ∧
    (∀ h e, x.getLsbD 0 = true → (s.part p).en = true → tblFind s.supers p = some h →
      let s1 := superCleared s p h
      let va := (s.part p).hmdesc
      s1.xlatPeek (0x10000 + p) va .read true = some e →
      let w := descWidth (leNat (s.mscRead (e.phys va.toNat) 64))
      w ≠ some 16 → w ≠ some 64 → ∃ t n, exec (.hmRestart p x) s = .next t ∧ tblFind t.supers p = some n ∧ n.run = true ∧
        n.trapped = false ∧ n.halted = false ∧ n.grp.frags.map (·.pc) = [0]) ∧
    (∃ t, exec (.prst p) s = .next t ∧ (∀ v ∈ s.partVds p, resets t (p / 2) v) ∧
      (s.partVds p ≠ [] → (t.part p).resetting ≠ []) ∧
      (s.partVds p = [] → s.vdsOf p = [] → (t.part p).resetting = [])) ∧
    (∀ v f, s.feOf v = some f → (s.vd f v).resetting = none → ∃ t, exec (.vdrst v) s = .next t ∧
      (t.vd f v).resetting = some 1 ∧ (t.vd f v).gen = (s.vd f v).gen + 1) ∧
    (x.getLsbD 0 = true → ∃ t, exec (.genableClear x) s = .next t ∧ (t.genable = true ↔ s.genable = true ∨ s.haltedAt ≠ some s.clock)) ∧
    (x.getLsbD 0 = false → ∃ t, exec (.genableClear x) s = .next t ∧ t.genable = false ∧
      (s.genable = true → ∀ q < 64, ∀ v ∈ s.vdsOf q, (s.vd (q / 2) v).en = true → resets t (q / 2) v)) ∧
    (x.setWidth 16 = 0xB007#16 → ∃ t, exec (.modrst x) s = .next t ∧ t.ram = s.settled.ram ∧
      (s.committedCount = 0 → (∀ x ∈ s.l2, ∀ l ∈ x.2, l.2.dirty = 0#256) → t.ram = s.ram) ∧ t.clock = 0 ∧ t.cores = [] ∧
      t.parts = [] ∧ t.fes = [] ∧ t.vds = [] ∧ t.genable = false ∧ t.boot = .waiting) ∧
    (x.setWidth 16 ≠ 0xB007#16 → exec (.modrst x) s = .next s)

/-- R318, R319, R363, R371, R386, R392: a link that fails is down at both ends, one that trains is up; an alarm is latched,
told to the host, and acts as it is armed, the keys erased at once; a boot record of a good form and signature starts the
self-test, whose results open the module with the record's capability masks, and without which it has not completed (log entry
100). -/
def Obligations.FabricAndBoot : Prop :=
  ∀ (s : State),
    (∀ die < 32, ∀ link < 4, let e := linkPeer die link
      ((s.die die).up.getLsbD link = true → ∃ t, exec (.linkDown die link) s = .next t ∧
        (t.die die).up.getLsbD link = false ∧ (t.die die).down.getLsbD link = true ∧
        (t.die e).up.getLsbD (linkBack link) = false ∧ (t.die e).down.getLsbD (linkBack link) = true) ∧
      ∃ t, exec (.linkUp die link) s = .next t ∧ (t.die die).up.getLsbD link = true ∧
        (t.die e).up.getLsbD (linkBack link) = true) ∧
    (∀ src : BitVec 5, src ≠ 0#5 → ∃ t, exec (.securityAlarm src) s = .next t ∧ t.alarm = true ∧
      t.alarmSrc = s.alarmSrc ||| src ∧ t.keysErased = (s.keysErased || s.eraseArm) ∧
      t.genable = (s.genable && !s.haltArm) ∧ (s.haltArm = false →
        t.outbox = (s.sendMsg 0 (msgHead 7 0 0x80 (s.alarmSrc ||| src).toNat 0 ++ leBytes 8 s.timeNs)).outbox)) ∧
    (∀ (sent : BootSend) (image : List Byte),
      ((s.die 0).up.getLsbD 4 = false → exec (.bootRecord sent image) s = .next s) ∧
      ((s.boot = .waiting ∨ s.boot = .failed) → (s.die 0).up.getLsbD 4 = true →
        (s.boot = .waiting → portsTrained s = true) → image.length ≤ 2 ^ 26 →
        (recordOk sent.record = true → recordSigned sent.record = true → imageSigned image = true →
          ∃ t, exec (.bootRecord sent image) s = .next t ∧ t.boot = .testing ∧ t.record = sent.record ∧
            t.bootFrom = sent.sender ∧ t.attest = sha512 image ++ sha512 sent.record ∧ t.ram = s.ram) ∧
        ((recordOk sent.record = false ∨ recordSigned sent.record = false ∨ imageSigned image = false) →
          ∃ t, exec (.bootRecord sent image) s = .next t ∧ t.boot = .failed ∧ t.record = s.record))) ∧
    (∀ results, s.boot = .testing →
      (results ≠ [] → ∃ t, exec (.selfTestDone results) s = .next t ∧ t.boot = .open ∧ t.ram = s.ram ∧
        ∀ k < 2048, (t.core k).capm = BitVec.ofNat 64 (recField s.record (64 + 8 * k) 8)) ∧
      (results = [] → ∃ t, exec (.selfTestDone results) s = .next t ∧ t.boot = .failed))

/-! ### Encoding, the step, and reset -/

/-- R138 to R149: the words that the encodings of a few assembly lines give decode to their instructions. -/
def Obligations.WorkedWords : Prop :=
  let no := plainly .none
  decodeWord 0x2081D044050200C00001000000000000#128 = .ok (.ffma
    ⟨fields (.vec 4) (plainly (.vec 1)) (plainly (.vec 2)) (plainly (.near 3)) .f32 0#32, .rne, false, 0#4, 0#8⟩) ∧
  decodeWord 0x204290540E07C0000301200000000000#128 = .ok (.fmul
    ⟨⟨0#4, ⟨true, 2#3⟩, .vec 5, ⟨.vec 3, .packed, true, true⟩, plainly (.scal 7), no, .f32, 0#32⟩, .rtz, false, 0#4, 0#8⟩) ∧
  decodeWord 0x0001D0640903C025000A100000000000#128 = .ok (.iadd
    ⟨⟨0#4, ⟨false, 7#3⟩, .vec 6, ⟨.vec 2, .sel 1, false, false⟩, ⟨.vec 3, .swh, false, false⟩, no, .i16, 0#32⟩,
      .rne, true, 0#4, 0#8⟩) ∧
  decodeWord 0x810DD0840B00C0000009000000000040#128 = .ok (.lds
    ⟨⟨3#4, ⟨false, 7#3⟩, .vec 8, plainly (.vec 2), no, no, .i32, 0x40#32⟩, .plain, .blk, 0#2, 0#4, 0#4⟩) ∧
  decodeWord 0x6041F00C0300C000000F60C800000200#128 = .ok (.brd
    ⟨fields .none no no no .b32 0x200#32, 3#3, false, 0#4, true, true, 1#3⟩) ∧
  decodeWord 0x6441F00C0300C000000F000000000000#128 = .ok (.sbeg
    ⟨fields .none no no no .b32 0#32, 0#3, false, 0#4, false, false, 0#3⟩) ∧
  decodeWord 0x8141F0040502C0000009000000000000#128 = .ok (.sts
    ⟨fields .none (plainly (.vec 1)) (plainly (.vec 2)) no .i32 0#32, .plain, .blk, 0#2, 0#4, 0#4⟩) ∧
  decodeWord 0x6181F00C0300C000000F000000000000#128 = .ok (.exit
    ⟨fields .none no no no .b32 0#32, 0#3, false, 0#4, false, false, 0#3⟩)

/-- R138 to R149: the decoder reads back every well-formed instruction that has a word, and every word that it accepts
is the word of a well-formed instruction; an opcode above 0x388 names nothing. -/
def Obligations.RoundTrip : Prop :=
  (∀ (i : Instr) (w : W128), i.wf = true → encode i = some w → decodeWord w = .ok i) ∧
  (∀ (i : Instr) (w : W128), decodeWord w = .ok i → i.wf = true ∧ encode i = some w) ∧
  ∀ w : W128, 0x388 < w.toNat / 2 ^ 118 → decodeWord w = .error .unassignedOpcode

/-- The model's own choice of who moves next (log entry 1): the turn at the head of the agenda is what a step does:
the one agent that a quadrant or a tender selects, if its fetched bytes decode, runs the
decoded instruction with itself as the issuer, at the same PC and with its registers as they were; of two that a quadrant
selects the second runs after the first, both after the second half-issues that are due; an event happens without an issuer; with an
empty agenda a core cycle passes. What a fragment of a width-64 pair does in two half-issues is stated by IntegerResult. -/
def Obligations.StepRuns : Prop :=
  let runs (o : Machine.Out) (s : State) (a : Agent) : Prop :=
    ∀ (s1 : State) (c : Ctx) (bs : List Byte) (i : Instr), s.ctx? a = some c → ready s c = true →
      fetch s c = .inl (bs, s1) → fetchTrap c bs = none → decodeFor c bs = .inl i → c.halves ≠ 2 ∨ halfwise i = false →
      ∃ t, o = exec i t ∧ t.cur = some a ∧ t.ram = s1.ram ∧ t.l2 = s1.l2 ∧ After t c fun d =>
        d.f.pc = c.f.pc ∧ d.f.mask = c.f.mask ∧ d.level = c.level ∧
          (c.f.pend = [] → c.g.mloads = [] → keepsBut c.g d.g [])
  (∀ (s : State) (k q : Nat) (rest : List Turn), s.agenda = .quad k q :: rest →
    ∀ s0, inOrder secondHalf (((quadFrags { s with agenda := rest } k q).filter fun c => c.f.half.isSome).map fun c => c.agent)
      { s with agenda := rest } = .next s0 →
    let cs := opportunities s0 k q
    (∀ c w, pickOf cs = [(c, w)] → runs (Machine.step s) (quadCount s0 k q cs [(c, w)]) c.agent) ∧
    (∀ c w d v t, pickOf cs = [(c, w), (d, v)] → issueTurn c.agent (quadCount s0 k q cs [(c, w), (d, v)]) = .next t →
      runs (Machine.step s) t d.agent) ∧
    (pickOf cs = [] → Machine.step s = .next s0)) ∧
  (∀ (s : State) (die t : Nat) (rest : List Turn), s.agenda = .tender die t :: rest →
    let s0 := { s with agenda := rest }
    let turned (n : Nat) := tblSet (0, 0) s.tenders (24 * die + t) ((n + 1) % 8, (s.clock / 35 + 1) * 35)
    (tblGet (0, 0) s.tenders (24 * die + t)).2 ≤ s.clock → ∀ n a, tenderPick s0 die t = [(n, a)] →
      runs (Machine.step s) { s0 with tenders := turned n } a) ∧
  (∀ (s : State) (i : Instr) (rest : List Turn), s.agenda = .event i :: rest →
    Machine.step s = exec i { s with agenda := rest, cur := none }) ∧
  (∀ s : State, s.agenda = [] → s.cores = [] → s.busyTenders = [] → dueEvents s = [] → serviceEvents s = [] →
    ∃ t, Machine.step s = .next t ∧ t.clock = s.clock + 64 ∧ t.ram = s.ram ∧ t.l2 = s.l2 ∧ t.ejected = s.ejected)

/-- The model's own form of memory (log entry 2) is kept by every step: rising addresses, and no entry that an
unlisted byte would read as. -/
def Obligations.MemoryKept : Prop :=
  ∀ s t : State, s.mem.wf = true → Machine.step s = .next t → t.mem.wf = true

/-- R73, R266, R271, R277, R285, R286, R363, R384: the module after reset: no core runs a block, no partition, queue or
device is enabled, GENABLE is 0, and the registers for which the manual gives a reset value hold it. -/
def Obligations.AfterReset : Prop :=
  let s := State.reset
  s.mem.wf = true ∧ s.genable = false ∧ s.boot = .waiting ∧ (∀ k, s.block? k = none) ∧
    (∀ p, (s.part p).en = false ∧ (s.part p).taper = 1000#16 ∧ (s.part p).taslice = 200#16 ∧ (s.part p).kqslot = 16 ∧
      (s.part p).ejctx = 16 ∧ (s.part p).divctl = 0x00400002#32 ∧ (s.part p).engbw = 0x101#32 ∧ (s.part p).dbgctl = 0#32) ∧
    (∀ f q, (s.queue f q).en = false) ∧ (∀ d, (s.die d).ctmo = 100#16 ∧ (s.die d).up = 0#5) ∧
    ∀ f v, (s.vd f v).en = false ∧ (s.vd f v).lsc = 0x47800000#32 ∧ (s.vd f v).lsmin = 0x3F800000#32 ∧
      (s.vd f v).lsmax = 0x4B800000#32 ∧ (s.vd f v).lsint = 2000#32 ∧ (s.vd f v).lsrun = 0#32 ∧ (s.vd f v).weight = 1#8

/-! ### Rules stated whole -/

/-- R44: a destination names N, V, S or nothing; a word whose D names a K word or the immediate is illegal; a register
instruction without a destination discards its result. -/
def Obligations.DestinationRule : Prop :=
  (∀ (w : W128) (i : Instr) (x : Common), decodeWord w = .ok i → i.common? = some x →
    (∃ k, x.d = .near k) ∨ (∃ k, x.d = .vec k) ∨ (∃ k, x.d = .scal k) ∨ x.d = .none) ∧
  (∀ w : W128, opRow (w.toNat / 2 ^ 118) ≠ none →
    let d := w.toNat / 2 ^ 100 % 1024
    (d / 256 = 2 ∧ 64 ≤ d % 256) ∨ d = 0x301 → decodeWord w = .error .badField) ∧
  ∀ mk ∈ arith, ∀ (w : ArithOp) (s : State) (c : Ctx), Issues s (mk w) c → Clean c w.guard → w.d = .none →
    ∃ n g', exec (mk w) s = .next (State.putGroup { s with freeCtr := n } c g') ∧
      ∀ r, (∀ l k, writesPred (mk w) = some k → r ≠ .pred l k) → readLoc g' r = readLoc c.g r

/-- R148: a word with a nonzero LA decodes only to one of sixteen instructions. -/
def Obligations.LookaheadRule : Prop :=
  ∀ (w : W128) (i : Instr), decodeWord w = .ok i → w.toNat / 2 ^ 114 % 16 ≠ 0 →
    (∃ x, i ∈ ([.fdiv x, .fsqrt x, .frcp x, .frsq x, .fexp2 x, .flog2 x, .fsin x, .fcos x, .ftanh x, .lrd x, .redx x, .scanx x,
      .cmpx x, .peer x] : List Instr)) ∨ ∃ x, i = .lds x ∨ i = .ldc x

/-- R165: AND, OR, XOR and NOT act bitwise on 32 bits; only .b32 is admitted, without negate or absolute. -/
def Obligations.BitwiseResult : Prop :=
  ∀ p ∈ ([(.and, 0x010, fun a b => a &&& b), (.or, 0x011, fun a b => a ||| b), (.xor, 0x012, fun a b => a ^^^ b),
      (.not, 0x013, fun a _ => ~~~a)] : List ((ArithOp → Instr) × Nat × (W32 → W32 → W32))),
    ∀ w : ArithOp, (p.1 w).opc? = some p.2.1 ∧
      ((p.1 w).wf = true → w.ty = .b32 ∧ w.c.op = .none ∧ (p.2.1 = 0x013 → w.b.op = .none) ∧
        ∀ x ∈ ([w.a, w.b, w.c] : List Src), x.neg = false ∧ x.abs = false) ∧
      ∀ (s : State) (c : Ctx), Issues s (p.1 w) c → (p.1 w).wf = true → Clean c w.guard →
        ∃ g', exec (p.1 w) s = .next (s.putGroup c g') ∧ ∀ l, Lane c w.guard l → ∀ q ∈ destRegs w.d l 1,
          readLoc g' q = p.2.2 (BitVec.ofNat 32 (c.src l .b32 w.a w.imm)) (BitVec.ofNat 32 (c.src l .b32 w.b w.imm))
end

