-- ==== Sys2Proof/Laws/Table.lean ====
section
/-! SUPPORT. Laws of tables: a read after a write, and the rising order of keys. -/

namespace Sys2Proof.Laws

open Sys2Proof.Machine

variable {α : Type}

@[simp] theorem tblFind_nil (i : Nat) : tblFind ([] : Tbl α) i = none := rfl

@[simp] theorem tblErase_nil (i : Nat) : tblErase ([] : Tbl α) i = [] := rfl

theorem tblErase_cons (k : Nat) (v : α) (t : Tbl α) (i : Nat) :
    tblErase ((k, v) :: t) i = if k = i then tblErase t i else (k, v) :: tblErase t i := rfl

theorem tblFind_cons (k : Nat) (v : α) (t : Tbl α) (i : Nat) :
    tblFind ((k, v) :: t) i = if k = i then some v else tblFind t i := rfl

theorem tblPut_cons (k : Nat) (v : α) (t : Tbl α) (i : Nat) (x : α) :
    tblPut ((k, v) :: t) i x = if k < i then (k, v) :: tblPut t i x else (i, x) :: (k, v) :: t := rfl

@[simp] theorem tblFind_tblErase_same (t : Tbl α) (i : Nat) : tblFind (tblErase t i) i = none := by
  induction t with
  | nil => rfl
  | cons p t ih =>
    obtain ⟨k, v⟩ := p
    rw [tblErase_cons]
    split
    · exact ih
    · rename_i h
      rw [tblFind_cons, if_neg h]
      exact ih

theorem tblFind_tblErase_ne (t : Tbl α) {i j : Nat} (h : i ≠ j) :
    tblFind (tblErase t i) j = tblFind t j := by
  induction t with
  | nil => rfl
  | cons p t ih =>
    obtain ⟨k, v⟩ := p
    rw [tblErase_cons, tblFind_cons]
    split
    · rename_i hk
      rw [ih, if_neg (by omega)]
    · rw [tblFind_cons, ih]

@[simp] theorem tblFind_tblPut_same (t : Tbl α) (i : Nat) (x : α) (h : tblFind t i = none) :
    tblFind (tblPut t i x) i = some x := by
  induction t with
  | nil => simp [tblPut, tblFind_cons]
  | cons p t ih =>
    obtain ⟨k, v⟩ := p
    rw [tblFind_cons] at h
    split at h
    · cases h
    · rename_i hk
      rw [tblPut_cons]
      split
      · rw [tblFind_cons, if_neg hk]
        exact ih h
      · rw [tblFind_cons, if_pos rfl]

theorem tblFind_tblPut_ne (t : Tbl α) {i j : Nat} (x : α) (h : i ≠ j) :
    tblFind (tblPut t i x) j = tblFind t j := by
  induction t with
  | nil => simp [tblPut, tblFind_cons, h]
  | cons p t ih =>
    obtain ⟨k, v⟩ := p
    rw [tblPut_cons]
    split
    · rw [tblFind_cons, tblFind_cons, ih]
    · rw [tblFind_cons, if_neg h]

/-- Reading the key that was written. -/
@[simp] theorem tblFind_tblInsert_same (t : Tbl α) (i : Nat) (x : α) : tblFind (tblInsert t i x) i = some x :=
  tblFind_tblPut_same _ _ _ (tblFind_tblErase_same _ _)

/-- Reading another key than the one written. -/
theorem tblFind_tblInsert_ne (t : Tbl α) {i j : Nat} (x : α) (h : i ≠ j) :
    tblFind (tblInsert t i x) j = tblFind t j := by
  rw [tblInsert, tblFind_tblPut_ne _ _ h, tblFind_tblErase_ne _ h]

theorem tblErase_of_none (t : Tbl α) (i : Nat) (h : tblFind t i = none) : tblErase t i = t := by
  induction t with
  | nil => rfl
  | cons p t ih =>
    obtain ⟨k, v⟩ := p
    rw [tblFind_cons] at h
    split at h
    · cases h
    · rename_i hk
      rw [tblErase_cons, if_neg hk, ih h]

@[simp] theorem tblErase_tblErase (t : Tbl α) (i : Nat) : tblErase (tblErase t i) i = tblErase t i :=
  tblErase_of_none _ _ (tblFind_tblErase_same _ _)

theorem tblErase_tblPut (t : Tbl α) (i : Nat) (x : α) (h : tblFind t i = none) :
    tblErase (tblPut t i x) i = t := by
  induction t with
  | nil => simp [tblPut, tblErase_cons]
  | cons p t ih =>
    obtain ⟨k, v⟩ := p
    have h' := h
    rw [tblFind_cons] at h
    split at h
    · cases h
    · rename_i hk
      rw [tblPut_cons]
      split
      · rw [tblErase_cons, if_neg hk, ih h]
      · rw [tblErase_cons, if_pos rfl, tblErase_of_none _ _ h']

@[simp] theorem tblErase_tblInsert (t : Tbl α) (i : Nat) (x : α) : tblErase (tblInsert t i x) i = tblErase t i := by
  rw [tblInsert, tblErase_tblPut _ _ _ (tblFind_tblErase_same _ _)]

/-- A second write of a key replaces the first. -/
@[simp] theorem tblInsert_tblInsert (t : Tbl α) (i : Nat) (x y : α) : tblInsert (tblInsert t i x) i y = tblInsert t i y := by
  simp [tblInsert, tblErase_tblPut]

section Default
variable [DecidableEq α] (d : α)

/-- Reading the key that was written. -/
@[simp] theorem tblGet_tblSet_same (t : Tbl α) (i : Nat) (x : α) : tblGet d (tblSet d t i x) i = x := by
  unfold tblGet tblSet
  split
  · rename_i h
    simp [h]
  · simp

/-- Reading another key than the one written. -/
theorem tblGet_tblSet_ne (t : Tbl α) {i j : Nat} (x : α) (h : i ≠ j) : tblGet d (tblSet d t i x) j = tblGet d t j := by
  unfold tblGet tblSet
  split
  · rw [tblFind_tblErase_ne _ h]
  · rw [tblFind_tblInsert_ne _ _ h]

/-- A second write of a key replaces the first. -/
@[simp] theorem tblSet_tblSet (t : Tbl α) (i : Nat) (x y : α) : tblSet d (tblSet d t i x) i y = tblSet d t i y := by
  by_cases hx : x = d <;> by_cases hy : y = d <;> simp [tblSet, tblInsert, hx, hy, tblErase_tblPut]

end Default

/-! ### The rising order of keys -/

/-- Every key of a table is above a bound. -/
def AllAbove (b : Nat) (t : Tbl α) : Prop := ∀ p ∈ t, b < p.1

theorem tblSorted_cons (k : Nat) (v : α) (t : Tbl α) :
    tblSorted ((k, v) :: t) = true ↔ AllAbove k t ∧ tblSorted t = true := by
  induction t generalizing k v with
  | nil => simp [tblSorted, AllAbove]
  | cons p t ih =>
    obtain ⟨l, w⟩ := p
    simp only [tblSorted, Bool.and_eq_true, decide_eq_true_eq]
    constructor
    · rintro ⟨h1, h2⟩
      refine ⟨?_, h2⟩
      intro q hq
      rcases List.mem_cons.1 hq with rfl | hq
      · exact h1
      · exact Nat.lt_trans h1 (((ih l w).1 h2).1 q hq)
    · rintro ⟨h1, h2⟩
      exact ⟨h1 (l, w) (by simp), h2⟩

theorem mem_of_mem_tblErase (t : Tbl α) (i : Nat) (p : Nat × α) (h : p ∈ tblErase t i) : p ∈ t ∧ p.1 ≠ i := by
  induction t with
  | nil => simp at h
  | cons q t ih =>
    obtain ⟨k, v⟩ := q
    rw [tblErase_cons] at h
    split at h
    · exact ⟨List.mem_cons_of_mem _ (ih h).1, (ih h).2⟩
    · rcases List.mem_cons.1 h with rfl | h
      · exact ⟨by simp, by assumption⟩
      · exact ⟨List.mem_cons_of_mem _ (ih h).1, (ih h).2⟩

theorem mem_tblPut (t : Tbl α) (i : Nat) (x : α) (p : Nat × α) (h : p ∈ tblPut t i x) : p = (i, x) ∨ p ∈ t := by
  induction t with
  | nil => simpa [tblPut] using h
  | cons q t ih =>
    obtain ⟨k, v⟩ := q
    rw [tblPut_cons] at h
    split at h
    · rcases List.mem_cons.1 h with rfl | h
      · simp
      · rcases ih h with h | h
        · exact .inl h
        · exact .inr (List.mem_cons_of_mem _ h)
    · rcases List.mem_cons.1 h with h | h
      · exact .inl h
      · exact .inr h

theorem tblErase_sorted (t : Tbl α) (i : Nat) (h : tblSorted t = true) : tblSorted (tblErase t i) = true := by
  induction t with
  | nil => rfl
  | cons p t ih =>
    obtain ⟨k, v⟩ := p
    obtain ⟨h1, h2⟩ := (tblSorted_cons k v t).1 h
    rw [tblErase_cons]
    split
    · exact ih h2
    · exact (tblSorted_cons _ _ _).2 ⟨fun p hp => h1 p (mem_of_mem_tblErase _ _ _ hp).1, ih h2⟩

theorem tblPut_sorted (t : Tbl α) (i : Nat) (x : α) (h : tblSorted t = true) (hi : ∀ p ∈ t, p.1 ≠ i) :
    tblSorted (tblPut t i x) = true := by
  induction t with
  | nil => rfl
  | cons p t ih =>
    obtain ⟨k, v⟩ := p
    obtain ⟨h1, h2⟩ := (tblSorted_cons k v t).1 h
    have hk : k ≠ i := hi (k, v) (by simp)
    rw [tblPut_cons]
    split
    · rename_i hlt
      refine (tblSorted_cons _ _ _).2 ⟨?_, ih h2 fun p hp => hi p (List.mem_cons_of_mem _ hp)⟩
      intro p hp
      rcases mem_tblPut _ _ _ _ hp with rfl | hp
      · exact hlt
      · exact h1 p hp
    · refine (tblSorted_cons _ _ _).2 ⟨?_, h⟩
      intro p hp
      rcases List.mem_cons.1 hp with rfl | hp
      · simp only; omega
      · have := h1 p hp
        omega

/-- A write keeps the keys rising. -/
theorem tblInsert_sorted (t : Tbl α) (i : Nat) (x : α) (h : tblSorted t = true) : tblSorted (tblInsert t i x) = true :=
  tblPut_sorted _ _ _ (tblErase_sorted _ _ h) fun p hp => (mem_of_mem_tblErase _ _ p hp).2

end Sys2Proof.Laws
end

