-- ==== Sys2Proof/Laws/Access.lean ====
section
/-! SUPPORT. Laws of the accessors: reading a part of the state that was written, and what an issuing
context says about the state. -/

namespace Sys2Proof.Laws

open Sys2Proof Sys2Proof.Machine

/-! ### Cores and blocks -/

@[simp] theorem core_setCore_same (s : State) (k : Nat) (x : Core) : (s.setCore k x).core k = x :=
  tblGet_tblSet_same _ _ _ _

theorem core_setCore_ne (s : State) {k j : Nat} (x : Core) (h : k ≠ j) : (s.setCore k x).core j = s.core j :=
  tblGet_tblSet_ne _ _ _ h

@[simp] theorem setCore_setCore (s : State) (k : Nat) (x y : Core) : (s.setCore k x).setCore k y = s.setCore k y := by
  simp [State.setCore]

@[simp] theorem block_setBlock_same (s : State) (k : Nat) (b : Block) : (s.setBlock k b).block? k = some b := by
  simp [State.setBlock, State.block?]

theorem block_setBlock_ne (s : State) {k j : Nat} (b : Block) (h : k ≠ j) : (s.setBlock k b).block? j = s.block? j := by
  simp [State.setBlock, State.block?, core_setCore_ne _ _ h]

@[simp] theorem setBlock_setBlock (s : State) (k : Nat) (a b : Block) : (s.setBlock k a).setBlock k b = s.setBlock k b := by
  simp [State.setBlock]

/-! ### Lists that replace an element -/

theorem find_replace {α : Type} (l : List α) (p : α → Bool) (x y : α) (hf : l.find? p = some x) (hy : p y = true) :
    (l.map fun z => if p z then y else z).find? p = some y := by
  induction l with
  | nil => simp at hf
  | cons z l ih =>
    simp only [List.map_cons]
    by_cases hz : p z = true
    · simp [hz, hy]
    · simp only [hz, Bool.false_eq_true, if_false]
      rw [List.find?_cons_of_neg (by simp [hz])] at hf ⊢
      exact ih hf

theorem replace_replace {α : Type} (l : List α) (p : α → Bool) (x y : α) (hx : p x = true) :
    (l.map fun z => if p z then x else z).map (fun z => if p z then y else z) = l.map fun z => if p z then y else z := by
  rw [List.map_map]
  apply List.map_congr_left
  intro z _
  by_cases hz : p z = true <;> simp [hz, hx]

/-! ### Groups -/

/-- The site of a group names the group's index, where it has one. -/
def Site.fits (t : Site) (g : Group) : Prop :=
  match t with
  | .grp _ i => g.index = i
  | _ => True

theorem ejected_setEjected (s : State) (c t : Nat) (e x : Ejected) (he : s.ejected? c t = some e)
    (hx : (x.core == c && x.thread == t) = true) : (s.setEjected c t x).ejected? c t = some x :=
  find_replace s.ejected (fun e => e.core == c && e.thread == t) e x he hx

theorem ejected_key (s : State) (c t : Nat) (e : Ejected) (he : s.ejected? c t = some e) :
    (e.core == c && e.thread == t) = true := by
  have h := List.find?_some he
  simpa using h

theorem setEjected_setEjected (s : State) (c t : Nat) (x y : Ejected) (hx : (x.core == c && x.thread == t) = true) :
    (s.setEjected c t x).setEjected c t y = s.setEjected c t y := by
  have h := replace_replace s.ejected (fun z => z.core == c && z.thread == t) x y hx
  simp only [State.setEjected]
  rw [h]

/-- The group at a site after it is replaced. -/
theorem group_setGroup (s : State) (t : Site) (g x : Group) (h : s.group? t = some g) (hx : Site.fits t x) :
    (s.setGroup x t).group? t = some x := by
  cases t with
  | grp c i =>
    simp only [State.group?] at h
    cases hb : s.block? c with
    | none => simp [hb] at h
    | some b =>
      simp only [hb, Option.bind_some] at h
      simp only [State.setGroup, hb, State.group?, block_setBlock_same, Option.bind_some]
      have hx' : x.index = i := hx
      exact find_replace b.groups (fun y => y.index == i) g x h (by simp [hx'])
  | ej c t =>
    simp only [State.group?] at h
    cases he : s.ejected? c t with
    | none => simp [he] at h
    | some e =>
      simp only [State.setGroup, he, State.group?]
      rw [ejected_setEjected s c t e { e with grp := x } he (ejected_key s c t e he)]
      rfl
  | hm p =>
    simp only [State.group?] at h
    cases hp : tblFind s.supers p with
    | none => simp [hp] at h
    | some u => simp [State.setGroup, hp, State.group?]

/-- A second replacement of a group undoes the first. -/
theorem setGroup_setGroup (s : State) (t : Site) (g x y : Group) (h : s.group? t = some g) (hx : Site.fits t x) :
    (s.setGroup x t).setGroup y t = s.setGroup y t := by
  cases t with
  | grp c i =>
    simp only [State.group?] at h
    cases hb : s.block? c with
    | none => simp [hb] at h
    | some b =>
      have hx' : x.index = i := hx
      simp only [State.setGroup, hb, block_setBlock_same, setBlock_setBlock]
      rw [replace_replace b.groups (fun z => z.index == i) x y (by simp [hx'])]
  | ej c t =>
    simp only [State.group?] at h
    cases he : s.ejected? c t with
    | none => simp [he] at h
    | some e =>
      have hk := ejected_key s c t e he
      simp only [State.setGroup, he]
      rw [ejected_setEjected s c t e { e with grp := x } he hk]
      exact setEjected_setEjected s c t { e with grp := x } { e with grp := y } hk
  | hm p =>
    simp only [State.group?] at h
    cases hp : tblFind s.supers p with
    | none => simp [hp] at h
    | some u => simp [State.setGroup, hp]

/-! ### Fragments of a group -/

theorem frag_setFrag (g : Group) (f x : Frag) (fid : Nat) (h : g.frag? fid = some f) (hx : x.fid = fid) :
    (g.setFrag x).frag? fid = some x := by
  subst hx
  exact find_replace g.frags (fun y => y.fid == x.fid) f x h (by simp)

theorem frag_fid (g : Group) (f : Frag) (fid : Nat) (h : g.frag? fid = some f) : f.fid = fid := by
  have := List.find?_some h
  simpa using this

theorem setFrag_setFrag (g : Group) (x y : Frag) (h : x.fid = y.fid) : (g.setFrag x).setFrag y = g.setFrag y := by
  simp only [Group.setFrag, h]
  rw [replace_replace g.frags (fun z => z.fid == y.fid) x y (by simp [h])]

/-! ### Contexts -/

/-- What a context says: the agent, its group and its fragment. -/
theorem ctx_facts (s : State) (a : Agent) (c : Ctx) (h : s.ctx? a = some c) :
    c.agent = a ∧ s.group? (agentSite a) = some c.g ∧ c.g.frag? (agentFid a) = some c.f ∧ Site.fits (agentSite a) c.g := by
  cases a with
  | frag k i fid =>
    simp only [State.ctx?, Option.bind_eq_bind, Option.bind_eq_some_iff, Option.some.injEq] at h
    obtain ⟨b, hb, g, hg, f, hf, rfl⟩ := h
    refine ⟨rfl, hg, hf, ?_⟩
    simp only [agentSite, State.group?, hb, Option.bind_some] at hg
    have := List.find?_some hg
    simpa [Site.fits, agentSite] using this
  | ejected k t =>
    simp only [State.ctx?, Option.bind_eq_bind, Option.bind_eq_some_iff, Option.some.injEq] at h
    obtain ⟨b, hb, e, he, f, hf, rfl⟩ := h
    exact ⟨rfl, by simp [agentSite, State.group?, he], hf, trivial⟩
  | hm p =>
    simp only [State.ctx?, Option.bind_eq_bind, Option.bind_eq_some_iff, Option.some.injEq] at h
    obtain ⟨u, hu, f, hf, k, hk, rfl⟩ := h
    exact ⟨rfl, by simp [agentSite, State.group?, hu], hf, trivial⟩

theorem block_setGroup_grp (s : State) (k i : Nat) (g x : Group) (b : Block) (hb : s.block? k = some b)
    (_h : s.group? (.grp k i) = some g) :
    (s.setGroup x (.grp k i)).block? k = some { b with groups := b.groups.map fun y => if y.index == i then x else y } := by
  simp only [State.setGroup, hb, block_setBlock_same]

/-- The context of an issuer after its group is replaced. -/
theorem ctx_putGroup (s : State) (a : Agent) (c : Ctx) (g : Group) (f : Frag) (h : s.ctx? a = some c)
    (hi : Site.fits (agentSite a) g) (hw : g.width = c.g.width) (hf : g.frag? (agentFid a) = some f) :
    (s.putGroup c g).ctx? a = some { c with g := g, f := f } := by
  have hfacts := ctx_facts s a c h
  obtain ⟨ha, hg, -, -⟩ := hfacts
  have hgg : (s.putGroup c g).group? (agentSite a) = some g := by
    unfold State.putGroup; rw [ha]; exact group_setGroup s _ c.g g hg hi
  cases a with
  | frag k i fid =>
    simp only [State.ctx?, Option.bind_eq_bind, Option.bind_eq_some_iff, Option.some.injEq] at h
    obtain ⟨b, hb, g0, hg0, f0, hf0, rfl⟩ := h
    simp only [State.ctx?, Option.bind_eq_bind]
    rw [hgg]
    simp only [State.putGroup, agentSite]
    rw [block_setGroup_grp s k i g0 g b hb hg0]
    simp only [agentFid] at hf
    simp only [Option.bind_some, hf, hw]
    rfl
  | ejected k t =>
    simp only [State.ctx?, Option.bind_eq_bind, Option.bind_eq_some_iff, Option.some.injEq] at h
    obtain ⟨b, hb, e, he, f0, hf0, rfl⟩ := h
    simp only [State.ctx?, Option.bind_eq_bind, State.putGroup, agentSite, State.setGroup, he]
    rw [ejected_setEjected s k t e { e with grp := g } he (ejected_key s k t e he)]
    have hb' : (s.setEjected k t { e with grp := g }).block? k = some b := hb
    rw [hb']
    simp only [agentFid] at hf
    simp only [Option.bind_some, hf]
  | hm p =>
    simp only [State.ctx?, Option.bind_eq_bind, Option.bind_eq_some_iff, Option.some.injEq] at h
    obtain ⟨u, hu, f0, hf0, kk, hk, rfl⟩ := h
    simp only [agentFid] at hf
    simp only [State.ctx?, Option.bind_eq_bind, State.putGroup, agentSite, State.setGroup, hu, tblFind_tblInsert_same,
      Option.bind_some, hf, hk]

/-- A context's group changed in a fragment after the group was replaced. -/
theorem mapFrag_putGroup (s : State) (a : Agent) (c : Ctx) (g : Group) (f : Frag) (k : Frag → Frag)
    (h : s.ctx? a = some c) (hi : Site.fits (agentSite a) g) (hf : g.frag? (agentFid a) = some f) :
    (s.putGroup c g).mapFrag a k = s.putGroup c (g.setFrag (k f)) := by
  obtain ⟨ha, hg, -, -⟩ := ctx_facts s a c h
  unfold State.mapFrag State.putGroup
  rw [ha, group_setGroup s _ c.g g hg hi]
  simp only [hf]
  rw [setGroup_setGroup s _ c.g g _ hg hi]

/-- A context's fragment changed. -/
theorem mapFrag_ctx (s : State) (a : Agent) (c : Ctx) (k : Frag → Frag) (h : s.ctx? a = some c) :
    s.mapFrag a k = s.putGroup c (c.g.setFrag (k c.f)) := by
  obtain ⟨ha, hg, hf, -⟩ := ctx_facts s a c h
  unfold State.mapFrag State.putGroup
  simp only [hg, hf, ha]

/-- The issuer of an instruction, where the state names one. -/
theorem issuing_of (s : State) (i : Instr) (c : Ctx) (k : Ctx → Out) (hc : s.cur.bind s.ctx? = some c)
    (hp : placeTrap s c i = none) : issuing s i k = k c := by
  simp [issuing, withIssuer, hc, hp]

end Sys2Proof.Laws
end

