-- ==== Sys2Proof/Laws/Alu.lean ====
section
/-! SUPPORT. What the frame of register instructions can do (R45, R51): the registers and predicates it may
write, the values they take, and that everything else of the group stays. -/

namespace Sys2Proof.Laws

open Sys2Proof Sys2Proof.Machine

/-! ### Lanes -/

@[simp] theorem lane_setLane_same (g : Group) (l : Nat) (t : Thread) (h : l < g.lanes.length) : (g.setLane l t).lane l = t := by
  simp [Group.lane, Group.setLane, h]

theorem lane_setLane_ne (g : Group) {l k : Nat} (t : Thread) (h : l ≠ k) : (g.setLane l t).lane k = g.lane k := by
  simp [Group.lane, Group.setLane, List.getD_eq_getElem?_getD, List.getElem?_set_ne h]

theorem setLane_beyond (g : Group) (l : Nat) (t : Thread) (h : g.lanes.length ≤ l) : g.setLane l t = g := by
  simp [Group.setLane, List.set_eq_of_length_le h]

@[simp] theorem groupRest_setLane (g : Group) (l : Nat) (t : Thread) : groupRest (g.setLane l t) = groupRest g := by
  simp [groupRest, Group.setLane]

@[simp] theorem frags_setLane (g : Group) (l : Nat) (t : Thread) : (g.setLane l t).frags = g.frags := rfl
@[simp] theorem ovf_setLane (g : Group) (l : Nat) (t : Thread) : (g.setLane l t).ovf = g.ovf := rfl
@[simp] theorem ovfn_setLane (g : Group) (l : Nat) (t : Thread) : (g.setLane l t).ovfn = g.ovfn := rfl
@[simp] theorem sreg_setLane (g : Group) (l i : Nat) (t : Thread) : (g.setLane l t).sreg i = g.sreg i := rfl
@[simp] theorem lanes_setLane (g : Group) (l : Nat) (t : Thread) : (g.setLane l t).lanes.length = g.lanes.length := by
  simp [Group.setLane]

@[simp] theorem lane_setSreg (g : Group) (i l : Nat) (x : W32) : (g.setSreg i x).lane l = g.lane l := rfl
@[simp] theorem groupRest_setSreg (g : Group) (i : Nat) (x : W32) : groupRest (g.setSreg i x) = groupRest g := rfl
@[simp] theorem sreg_setSreg_same (g : Group) (i : Nat) (x : W32) : (g.setSreg i x).sreg i = x := tblGet_tblSet_same _ _ _ _
theorem sreg_setSreg_ne (g : Group) {i j : Nat} (x : W32) (h : i ≠ j) : (g.setSreg i x).sreg j = g.sreg j :=
  tblGet_tblSet_ne _ _ _ h

/-! ### Threads -/

@[simp] theorem vreg_setVreg_same (t : Thread) (i : Nat) (x : W32) : (t.setVreg i x).vreg i = x := tblGet_tblSet_same _ _ _ _
theorem vreg_setVreg_ne (t : Thread) {i j : Nat} (x : W32) (h : i ≠ j) : (t.setVreg i x).vreg j = t.vreg j :=
  tblGet_tblSet_ne _ _ _ h
@[simp] theorem nreg_setNreg_same (t : Thread) (i : Nat) (x : W32) : (t.setNreg i x).nreg i = x := tblGet_tblSet_same _ _ _ _
theorem nreg_setNreg_ne (t : Thread) {i j : Nat} (x : W32) (h : i ≠ j) : (t.setNreg i x).nreg j = t.nreg j :=
  tblGet_tblSet_ne _ _ _ h

theorem bit_shift (i j : Nat) (h : i ≠ j) : (1#7 <<< i).getLsbD j = false := by
  rw [BitVec.getLsbD_shiftLeft, BitVec.getLsbD_one]
  by_cases hij : j < i
  · simp [hij]
  · have : ¬ j - i = 0 := by omega
    simp [this]

theorem pred_setPred_ne (t : Thread) {i j : Nat} (v : Bool) (h : i ≠ j) : (t.setPred i v).pred j = t.pred j := by
  unfold Thread.setPred Thread.pred
  have hb := bit_shift i j h
  split
  · rfl
  · by_cases hj : j < 7
    · cases v <;> simp only [Bool.false_eq_true, if_false, if_true, BitVec.getLsbD_or, BitVec.getLsbD_and,
        BitVec.getLsbD_not, hb] <;> simp [hj]
    · have h1 : ∀ x : BitVec 7, x.getLsbD j = false := fun x => BitVec.getLsbD_of_ge _ _ (by omega)
      simp only [h1]

theorem pred_setPred_same (t : Thread) (i : Nat) (v : Bool) (h : i < 7) : (t.setPred i v).pred i = v := by
  unfold Thread.setPred Thread.pred
  have h7 : (i == 7) = false := by simp; omega
  cases v <;> simp [h7, h]

theorem pred_seven (t : Thread) : t.pred 7 = true := rfl

@[simp] theorem threadRest_setVreg (t : Thread) (i : Nat) (x : W32) : threadRest (t.setVreg i x) = threadRest t := rfl
@[simp] theorem threadRest_setNreg (t : Thread) (i : Nat) (x : W32) : threadRest (t.setNreg i x) = threadRest t := rfl
@[simp] theorem threadRest_setPred (t : Thread) (i : Nat) (v : Bool) : threadRest (t.setPred i v) = threadRest t := by
  unfold Thread.setPred; split <;> rfl
@[simp] theorem srs_setPred (t : Thread) (i : Nat) (v : Bool) : (t.setPred i v).srs = t.srs := by
  unfold Thread.setPred; split <;> rfl
@[simp] theorem vreg_setPred (t : Thread) (i j : Nat) (v : Bool) : (t.setPred i v).vreg j = t.vreg j := by
  unfold Thread.setPred; split <;> rfl
@[simp] theorem nreg_setPred (t : Thread) (i j : Nat) (v : Bool) : (t.setPred i v).nreg j = t.nreg j := by
  unfold Thread.setPred; split <;> rfl
@[simp] theorem bad_setPred (t : Thread) (i : Nat) (v : Bool) : (t.setPred i v).bad = t.bad := by
  unfold Thread.setPred; split <;> rfl
@[simp] theorem vreg_setNreg (t : Thread) (i j : Nat) (x : W32) : (t.setNreg i x).vreg j = t.vreg j := rfl
@[simp] theorem nreg_setVreg (t : Thread) (i j : Nat) (x : W32) : (t.setVreg i x).nreg j = t.nreg j := rfl
@[simp] theorem pred_setNreg (t : Thread) (i j : Nat) (x : W32) : (t.setNreg i x).pred j = t.pred j := rfl
@[simp] theorem pred_setVreg (t : Thread) (i j : Nat) (x : W32) : (t.setVreg i x).pred j = t.pred j := rfl
@[simp] theorem srs_setVreg (t : Thread) (i : Nat) (x : W32) : (t.setVreg i x).srs = t.srs := rfl
@[simp] theorem srs_setNreg (t : Thread) (i : Nat) (x : W32) : (t.setNreg i x).srs = t.srs := rfl

/-! ### Results -/

theorem groupRest_writeLoc (g : Group) (w : RegLoc × W32) : groupRest (g.writeLoc w) = groupRest g := by
  unfold Group.writeLoc; split <;> simp

theorem frags_writeLoc (g : Group) (w : RegLoc × W32) : (g.writeLoc w).frags = g.frags := by
  unfold Group.writeLoc; split <;> rfl

theorem ovf_writeLoc (g : Group) (w : RegLoc × W32) : (g.writeLoc w).ovf = g.ovf ∧ (g.writeLoc w).ovfn = g.ovfn := by
  unfold Group.writeLoc; split <;> exact ⟨rfl, rfl⟩

/-- Writing through a lane touches that lane alone. -/
theorem lane_setLane (g : Group) (l k : Nat) (t : Thread) :
    (g.setLane l t).lane k = if k = l ∧ l < g.lanes.length then t else g.lane k := by
  by_cases hl : l < g.lanes.length
  · by_cases hk : k = l
    · subst hk; simp [hl]
    · simp [hk, lane_setLane_ne g t (Ne.symm hk)]
  · rw [setLane_beyond g l t (by omega)]; simp [hl]

theorem threadRest_writeLoc (g : Group) (w : RegLoc × W32) (l : Nat) :
    threadRest ((g.writeLoc w).lane l) = threadRest (g.lane l) ∧ ((g.writeLoc w).lane l).srs = (g.lane l).srs := by
  unfold Group.writeLoc
  split <;> simp only [lane_setLane, lane_setSreg] <;> (try split) <;> simp_all

theorem readLoc_writeLoc_ne (g : Group) (w : RegLoc × W32) (r : RegLoc) (h : r ≠ w.1) :
    readLoc (g.writeLoc w) r = readLoc g r := by
  obtain ⟨p, x⟩ := w
  cases p <;> cases r <;> simp only [Group.writeLoc, readLoc, lane_setSreg, sreg_setLane] at h ⊢
  all_goals first
    | (simp only [lane_setLane]; split
       · rename_i hk
         obtain ⟨rfl, -⟩ := hk
         first
           | rfl
           | (rw [nreg_setNreg_ne]; intro e; exact h (by rw [e]))
           | (rw [vreg_setVreg_ne]; intro e; exact h (by rw [e]))
           | (rw [pred_setPred_ne]; intro e; exact h (by rw [e]))
           | simp
       · rfl)
    | (rw [sreg_setSreg_ne]; intro e; exact h (by rw [e]))
    | rfl

/-- What a place holds after a word is written to it: a predicate holds whether the word is not zero. -/
def stored : RegLoc → W32 → W32
  | .pred _ _, x => if x != 0#32 then 1#32 else 0#32
  | _, x => x

theorem readLoc_writeLoc_same (g : Group) (w : RegLoc × W32) (h : writable g w.1) :
    readLoc (g.writeLoc w) w.1 =
      stored w.1 w.2 := by
  obtain ⟨p, x⟩ := w
  cases p with
  | near l i => simp [Group.writeLoc, readLoc, stored, lane_setLane_same g l _ h]
  | vec l i => simp [Group.writeLoc, readLoc, stored, lane_setLane_same g l _ h]
  | scal i => simp [Group.writeLoc, readLoc, stored]
  | pred l i =>
    simp only [Group.writeLoc, readLoc, stored, lane_setLane_same g l _ h.1, pred_setPred_same _ _ _ h.2]

theorem setErase_contains (t : List Nat) {i j : Nat} (h : j ≠ i) : (setErase t i).contains j = t.contains j := by
  rw [Bool.eq_iff_iff, List.contains_iff_mem, List.contains_iff_mem, setErase, List.mem_filter]
  simp [h]

theorem poison_writeLoc_ne (g : Group) (w : RegLoc × W32) (l i : Nat) (h : RegLoc.vec l i ≠ w.1) :
    poisonAt (g.writeLoc w) l i = poisonAt g l i := by
  obtain ⟨p, x⟩ := w
  have key : ∀ (m : Nat) (t : Thread), (l = m → t.bad.contains i = (g.lane m).bad.contains i) →
      poisonAt (g.setLane m t) l i = poisonAt g l i := by
    intro m t ht
    unfold poisonAt
    rw [lane_setLane]
    split
    · rename_i hk
      obtain ⟨rfl, -⟩ := hk
      exact ht rfl
    · rfl
  cases p with
  | scal k => rfl
  | near m k => exact key m _ fun _ => rfl
  | vec m k =>
    refine key m _ fun e => setErase_contains _ fun e2 => h ?_
    rw [e, e2]
  | pred m k => exact key m _ fun _ => by rw [bad_setPred]

theorem writeLocs_cons (g : Group) (w : RegLoc × W32) (ws : List (RegLoc × W32)) :
    g.writeLocs (w :: ws) = (g.writeLoc w).writeLocs ws := rfl

theorem groupRest_writeLocs (ws : List (RegLoc × W32)) (g : Group) : groupRest (g.writeLocs ws) = groupRest g := by
  induction ws generalizing g with
  | nil => rfl
  | cons w ws ih => rw [writeLocs_cons, ih, groupRest_writeLoc]

theorem frags_writeLocs (ws : List (RegLoc × W32)) (g : Group) : (g.writeLocs ws).frags = g.frags := by
  induction ws generalizing g with
  | nil => rfl
  | cons w ws ih => rw [writeLocs_cons, ih, frags_writeLoc]

theorem ovf_writeLocs (ws : List (RegLoc × W32)) (g : Group) :
    (g.writeLocs ws).ovf = g.ovf ∧ (g.writeLocs ws).ovfn = g.ovfn := by
  induction ws generalizing g with
  | nil => exact ⟨rfl, rfl⟩
  | cons w ws ih =>
    rw [writeLocs_cons, (ih _).1, (ih _).2]
    exact ovf_writeLoc g w

theorem threadRest_writeLocs (ws : List (RegLoc × W32)) (g : Group) (l : Nat) :
    threadRest ((g.writeLocs ws).lane l) = threadRest (g.lane l) ∧ ((g.writeLocs ws).lane l).srs = (g.lane l).srs := by
  induction ws generalizing g with
  | nil => exact ⟨rfl, rfl⟩
  | cons w ws ih =>
    rw [writeLocs_cons, (ih _).1, (ih _).2]
    exact threadRest_writeLoc g w l

theorem readLoc_writeLocs_ne (ws : List (RegLoc × W32)) (g : Group) (r : RegLoc) (h : ∀ w ∈ ws, w.1 ≠ r) :
    readLoc (g.writeLocs ws) r = readLoc g r := by
  induction ws generalizing g with
  | nil => rfl
  | cons w ws ih =>
    rw [writeLocs_cons, ih _ fun v hv => h v (List.mem_cons_of_mem _ hv),
      readLoc_writeLoc_ne _ _ _ (Ne.symm (h w (by simp)))]

theorem poison_writeLocs_ne (ws : List (RegLoc × W32)) (g : Group) (l i : Nat) (h : ∀ w ∈ ws, w.1 ≠ .vec l i) :
    poisonAt (g.writeLocs ws) l i = poisonAt g l i := by
  induction ws generalizing g with
  | nil => rfl
  | cons w ws ih =>
    rw [writeLocs_cons, ih _ fun v hv => h v (List.mem_cons_of_mem _ hv),
      poison_writeLoc_ne _ _ _ _ (Ne.symm (h w (by simp)))]

theorem lanes_of_groupRest (g h : Group) (e : groupRest g = groupRest h) : g.lanes.length = h.lanes.length := by
  simp only [groupRest, Prod.mk.injEq] at e
  exact e.2.2.2.2.2.2.2.2

theorem writable_congr (g h : Group) (r : RegLoc) (e : groupRest g = groupRest h) (hr : writable g r) : writable h r := by
  have := lanes_of_groupRest g h e
  cases r <;> simp_all [writable]

/-- The value a register takes among writes to distinct places. -/
theorem readLoc_writeLocs_mem (ws : List (RegLoc × W32)) (g : Group) (r : RegLoc) (x : W32)
    (hn : (ws.map (·.1)).Nodup) (hm : (r, x) ∈ ws) (hw : writable g r) :
    readLoc (g.writeLocs ws) r =
      stored r x := by
  induction ws generalizing g with
  | nil => simp at hm
  | cons w ws ih =>
    rw [writeLocs_cons]
    simp only [List.map_cons, List.nodup_cons] at hn
    rcases List.mem_cons.1 hm with rfl | hm
    · rw [readLoc_writeLocs_ne _ _ _ fun v hv (e : v.1 = r) => hn.1 (List.mem_map.2 ⟨v, hv, e⟩)]
      exact readLoc_writeLoc_same g (r, x) hw
    · exact ih _ hn.2 hm (writable_congr _ _ _ (groupRest_writeLoc g w).symm hw)

/-! ### Results of lanes apart from D -/

theorem laneRes_eq (g : Group) (pd : Nat) (r : Nat × LaneRes) :
    ∃ t, g.laneRes pd r = g.setLane r.1 t ∧ threadRest t = threadRest (g.lane r.1) ∧
      (∀ i, t.vreg i = (g.lane r.1).vreg i) ∧ (∀ i, t.nreg i = (g.lane r.1).nreg i) ∧
      t.srs = r.2.srs.getD (g.lane r.1).srs ∧
      (∀ i, i ≠ pd ∨ r.2.pd = none → t.pred i = (g.lane r.1).pred i) ∧
      (∀ v, r.2.pd = some v → pd < 7 → t.pred pd = v) ∧ t.bad = (g.lane r.1).bad := by
  obtain ⟨l, d, p, o, x⟩ := r
  cases p with
  | none =>
    cases x with
    | none => exact ⟨g.lane l, rfl, rfl, fun _ => rfl, fun _ => rfl, rfl, fun _ _ => rfl, by simp, rfl⟩
    | some x => exact ⟨{ g.lane l with srs := x }, rfl, rfl, fun _ => rfl, fun _ => rfl, rfl, fun _ _ => rfl, by simp, rfl⟩
  | some v =>
    cases x with
    | none =>
      refine ⟨(g.lane l).setPred pd v, rfl, by simp, by simp, by simp, by simp, ?_, ?_, by simp⟩
      · intro i hi
        exact pred_setPred_ne _ _ (by rcases hi with h | h; exact Ne.symm h; cases h)
      · rintro u ⟨⟩ hp
        exact pred_setPred_same _ _ _ hp
    | some x =>
      refine ⟨{ (g.lane l).setPred pd v with srs := x }, rfl, ?_, ?_, ?_, rfl, ?_, ?_, bad_setPred _ _ _⟩
      · exact threadRest_setPred _ _ _
      · exact fun i => vreg_setPred _ _ _ _
      · exact fun i => nreg_setPred _ _ _ _
      · intro i hi
        exact pred_setPred_ne _ _ (by rcases hi with h | h; exact Ne.symm h; cases h)
      · rintro u ⟨⟩ hp
        exact pred_setPred_same _ _ _ hp

/-- What the results of lanes apart from D do to a group. -/
structure LanesDone (pd : Nat) (rs : List (Nat × LaneRes)) (g g' : Group) : Prop where
  rest : groupRest g' = groupRest g
  frags : g'.frags = g.frags
  ovf : g'.ovf = g.ovf ∧ g'.ovfn = g.ovfn
  keeps : ∀ r, (∀ x ∈ rs, x.2.pd ≠ none → r ≠ .pred x.1 pd) → readLoc g' r = readLoc g r
  thread : ∀ l, threadRest (g'.lane l) = threadRest (g.lane l)
  srs : ∀ l, (∀ x ∈ rs, x.1 = l → x.2.srs = none) → (g'.lane l).srs = (g.lane l).srs
  poison : ∀ l, (g'.lane l).bad = (g.lane l).bad

theorem lanesDone_one (g : Group) (pd : Nat) (r : Nat × LaneRes) : LanesDone pd [r] g (g.laneRes pd r) := by
  obtain ⟨t, h, h1, h2, h3, h4, h5, -, h7⟩ := laneRes_eq g pd r
  rw [h]
  refine ⟨groupRest_setLane _ _ _, rfl, ⟨rfl, rfl⟩, ?_, ?_, ?_, ?_⟩
  · intro q hq
    cases q with
    | scal i => rfl
    | near l i => simp only [readLoc, lane_setLane]; split
                  · rename_i hk; obtain ⟨rfl, -⟩ := hk; exact h3 i
                  · rfl
    | vec l i => simp only [readLoc, lane_setLane]; split
                 · rename_i hk; obtain ⟨rfl, -⟩ := hk; exact h2 i
                 · rfl
    | pred l i =>
      simp only [readLoc, lane_setLane]
      by_cases hk : l = r.1 ∧ r.1 < g.lanes.length
      · obtain ⟨rfl, hl⟩ := hk
        simp only [hl, and_self, if_true]
        rw [h5 i]
        by_cases hn : r.2.pd = none
        · exact .inr hn
        · refine .inl fun e => hq r (by simp) hn (by rw [e])
      · simp only [hk, if_false]
  · intro l
    rw [lane_setLane]; split
    · rename_i hk; obtain ⟨rfl, -⟩ := hk; exact h1
    · rfl
  · intro l hl
    rw [lane_setLane]; split
    · rename_i hk
      obtain ⟨rfl, -⟩ := hk
      rw [h4, hl r (by simp) rfl]; rfl
    · rfl
  · intro l
    rw [lane_setLane]; split
    · rename_i hk; obtain ⟨rfl, -⟩ := hk; exact h7
    · rfl

theorem lanesDone_fold (pd : Nat) (rs : List (Nat × LaneRes)) (g : Group) :
    LanesDone pd rs g (rs.foldl (fun g r => g.laneRes pd r) g) := by
  induction rs generalizing g with
  | nil => exact ⟨rfl, rfl, ⟨rfl, rfl⟩, fun _ _ => rfl, fun _ => rfl, fun _ _ => rfl, fun _ => rfl⟩
  | cons r rs ih =>
    have a := lanesDone_one g pd r
    have b := ih (g.laneRes pd r)
    refine ⟨b.rest.trans a.rest, b.frags.trans a.frags, ⟨b.ovf.1.trans a.ovf.1, b.ovf.2.trans a.ovf.2⟩, ?_, ?_, ?_, ?_⟩
    · intro q hq
      rw [List.foldl_cons, b.keeps q fun x hx => hq x (List.mem_cons_of_mem _ hx),
        a.keeps q fun x hx => hq x (by rw [List.mem_singleton.1 hx]; simp)]
    · intro l
      rw [List.foldl_cons, b.thread, a.thread]
    · intro l hl
      rw [List.foldl_cons, b.srs l fun x hx => hl x (List.mem_cons_of_mem _ hx),
        a.srs l fun x hx => hl x (by rw [List.mem_singleton.1 hx]; simp)]
    · intro l
      rw [List.foldl_cons, b.poison, a.poison]

/-- The predicate of a lane after the results of distinct lanes. -/
theorem lanes_pred (pd : Nat) (rs : List (Nat × LaneRes)) (g : Group) (hn : (rs.map (·.1)).Nodup) (hp : pd < 7)
    (r : Nat × LaneRes) (hr : r ∈ rs) (v : Bool) (hv : r.2.pd = some v) (hl : r.1 < g.lanes.length) :
    ((rs.foldl (fun g r => g.laneRes pd r) g).lane r.1).pred pd = v := by
  induction rs generalizing g with
  | nil => simp at hr
  | cons x rs ih =>
    simp only [List.map_cons, List.nodup_cons] at hn
    have hlen : (g.laneRes pd x).lanes.length = g.lanes.length := lanes_of_groupRest _ _ (lanesDone_one g pd x).rest
    rcases List.mem_cons.1 hr with rfl | hr
    · rw [List.foldl_cons]
      have hk := (lanesDone_fold pd rs (g.laneRes pd r)).keeps (.pred r.1 pd) (by
        intro y hy _ e
        refine hn.1 (List.mem_map.2 ⟨y, hy, ?_⟩)
        simpa using (RegLoc.pred.inj e).1.symm)
      obtain ⟨t, h, -, -, -, -, -, h6, -⟩ := laneRes_eq g pd r
      have ht : ((g.laneRes pd r).lane r.1).pred pd = v := by rw [h, lane_setLane_same _ _ _ hl]; exact h6 v hv hp
      simp only [readLoc, ht] at hk
      cases hb : ((rs.foldl (fun g r => g.laneRes pd r) (g.laneRes pd r)).lane r.1).pred pd <;> cases v <;> simp_all
    · rw [List.foldl_cons]
      exact ih _ hn.2 hr (by rw [hlen]; exact hl)

/-- The generator of a lane after the results of distinct lanes. -/
theorem lanes_srs (pd : Nat) (rs : List (Nat × LaneRes)) (g : Group) (hn : (rs.map (·.1)).Nodup)
    (r : Nat × LaneRes) (hr : r ∈ rs) (v : W32) (hv : r.2.srs = some v) (hl : r.1 < g.lanes.length) :
    ((rs.foldl (fun g r => g.laneRes pd r) g).lane r.1).srs = v := by
  induction rs generalizing g with
  | nil => simp at hr
  | cons x rs ih =>
    simp only [List.map_cons, List.nodup_cons] at hn
    have hlen : (g.laneRes pd x).lanes.length = g.lanes.length := lanes_of_groupRest _ _ (lanesDone_one g pd x).rest
    rcases List.mem_cons.1 hr with rfl | hr
    · rw [List.foldl_cons, (lanesDone_fold pd rs (g.laneRes pd r)).srs]
      · obtain ⟨t, h, -, -, -, h4, -, -, -⟩ := laneRes_eq g pd r
        rw [h, lane_setLane_same _ _ _ hl, h4, hv]; rfl
      · intro y hy e
        exact absurd (List.mem_map.2 ⟨y, hy, e⟩) hn.1
    · rw [List.foldl_cons]
      exact ih _ hn.2 hr (by rw [hlen]; exact hl)

/-! ### The whole frame -/

theorem destLocs_fst (d : Opnd) (l : Nat) (ws : List W32) : (destLocs d l ws).map (·.1) = destRegs d l ws.length := by
  unfold destRegs destLocs
  cases d <;> simp [List.zip, List.map_zipWith] <;>
    (apply List.ext_getElem <;> simp)

/-- The registers of a destination, one by one. -/
theorem mem_destRegs (d : Opnd) (l n : Nat) (r : RegLoc) :
    r ∈ destRegs d l n ↔ ∃ m, m < n ∧
      match d with
      | .near i => r = .near l (i.toNat + m)
      | .vec i => r = .vec l (i.toNat + m)
      | .scal i => r = .scal (i.toNat + m)
      | _ => False := by
  unfold destRegs destLocs
  cases d <;> simp [List.zip, List.mem_iff_getElem, eq_comm]

theorem destRegs_mono (d : Opnd) (l : Nat) {n m : Nat} (h : n ≤ m) (r : RegLoc) (hr : r ∈ destRegs d l n) :
    r ∈ destRegs d l m := by
  rw [mem_destRegs] at hr ⊢
  obtain ⟨k, hk, hr⟩ := hr
  exact ⟨k, by omega, hr⟩

theorem maskLanes_nodup (m : W64) : (maskLanes m).Nodup := List.Pairwise.filter _ List.nodup_range

theorem acting_nodup (c : Ctx) (g : Guard) : (c.acting g).Nodup := List.Pairwise.filter _ (maskLanes_nodup _)

theorem units_nodup (c : Ctx) (w : Common) (p : Bool) : (c.units w p).Nodup := by
  unfold Ctx.units
  simp only
  split
  · exact List.Pairwise.sublist (List.take_sublist _ _) (acting_nodup c w.guard)
  · exact acting_nodup c w.guard

theorem mem_units_acting (c : Ctx) (w : Common) (p : Bool) (l : Nat) (h : l ∈ c.units w p) : l ∈ c.acting w.guard := by
  unfold Ctx.units at h
  simp only at h
  split at h
  · exact List.mem_of_mem_take h
  · exact h

theorem units_scal (c : Ctx) (w : Common) (i : BitVec 6) (hd : w.d = .scal i) (hs : w.scalarDestOk = true) :
    (c.units w false).length ≤ 1 := by
  unfold Ctx.units
  simp only [Common.scalarDestOk, hd] at hs
  simp only [hs]; simp; try omega

/-- The places that instruction results go to, over the lanes. -/
def resultRegs (ls : List Nat) (d : Opnd) (k : Nat → LaneRes) : List RegLoc :=
  ls.flatMap fun l => destRegs d l (k l).d.length

/-- The results that go to D, over the lanes, in order. -/
def resultWrites (ls : List Nat) (d : Opnd) (k : Nat → LaneRes) : List (RegLoc × W32) := ls.flatMap fun l => destLocs d l (k l).d

/-- What a register instruction leaves in the issuing group: the fragment one instruction on, the results in
the registers D names, the predicate, the generator, the sticky flags; nothing else. With `look` the instruction honours
lookahead: its results may be pending, and written at once they overtake the pending ones. -/
structure AluDone (look : Bool) (c : Ctx) (w : Common) (ls : List Nat) (pd : Nat) (k : Nat → LaneRes) (g' : Group) : Prop where
  rest : groupRest g' = groupRest c.g
  frags : ∃ p, (look = false → p = c.f.pend) ∧
    (look = true → w.la = 0#4 → p = c.f.pend.map fun q => q.overtaken (resultWrites ls w.d k)) ∧
    g'.frags = c.g.frags.map fun x => if x.fid == c.f.fid then { c.f.goTo (c.f.pc + 16) none with pend := p } else x
  keeps : ∀ r, r ∉ resultRegs ls w.d k → (∀ l ∈ ls, (k l).pd ≠ none → r ≠ .pred l pd) → readLoc g' r = readLoc c.g r
  thread : ∀ l, threadRest (g'.lane l) = threadRest (c.g.lane l)
  srs : ∀ l, l ∉ ls ∨ (k l).srs = none → (g'.lane l).srs = (c.g.lane l).srs
  newSrs : ∀ l ∈ ls, l < c.g.lanes.length → ∀ x, (k l).srs = some x → (g'.lane l).srs = x
  ovf : g'.ovf = (c.g.ovf || ls.any fun l => (k l).ovf) ∧ g'.ovfn = (c.g.ovfn || ls.any fun l => (k l).ovf)
  value : (look = true → w.la = 0#4) → (resultRegs ls w.d k).Nodup → ∀ l ∈ ls, ∀ q ∈ destLocs w.d l (k l).d, writable c.g q.1 →
    readLoc g' q.1 = q.2
  pred : ∀ l ∈ ls, l < c.g.lanes.length → pd < 7 → ∀ v, (k l).pd = some v → (g'.lane l).pred pd = v
  poison : ∀ l i, RegLoc.vec l i ∉ resultRegs ls w.d k → poisonAt g' l i = poisonAt c.g l i

theorem destLocs_not_pred (d : Opnd) (l : Nat) (ws : List W32) (q : RegLoc × W32) (h : q ∈ destLocs d l ws)
    (m i : Nat) : q.1 ≠ .pred m i := by
  unfold destLocs at h
  cases d <;> simp at h <;> (obtain ⟨a, b, -, rfl⟩ := h; simp)

theorem readLoc_frags (g : Group) (fs : List Frag) (r : RegLoc) : readLoc { g with frags := fs } r = readLoc g r := by
  cases r <;> rfl

theorem goTo_pend (f : Frag) (p : List Pend) (pc : Nat) (e : Option Expect) :
    Frag.goTo { f with pend := p } pc e = { f.goTo pc e with pend := p } := rfl

/-- How the results of D go to a group: with lookahead or without. -/
def putResults (look : Bool) (c : Ctx) (w : Common) (g : Group) (ws : List (RegLoc × W32)) : Group :=
  if look then g.result c.f.fid w.la.toNat ws else g.writeLocs ws

/-- A group with the results of D, by what it was before them: written at once, or pending. -/
theorem putResults_eq (look : Bool) (c : Ctx) (w : Common) (g : Group) (ws : List (RegLoc × W32))
    (hf : g.frag? c.f.fid = some c.f) :
    ∃ p g0, (look = false → p = c.f.pend) ∧ (look = true → w.la = 0#4 → p = c.f.pend.map fun q => q.overtaken ws) ∧
      (g0 = g ∧ p = c.f.pend ∨ g0 = g.setFrag { c.f with pend := p }) ∧
      (putResults look c w g ws = g0.writeLocs ws ∨ putResults look c w g ws = g0 ∧ look = true ∧ w.la ≠ 0#4) := by
  cases look with
  | false => exact ⟨c.f.pend, g, fun _ => rfl, by simp, .inl ⟨rfl, rfl⟩, .inl rfl⟩
  | true =>
    by_cases h0 : w.la = 0#4
    · exact ⟨c.f.pend.map fun q => q.overtaken ws, _, by simp, fun _ _ => rfl, .inr rfl,
        .inl (by simp [putResults, Group.result, hf, h0])⟩
    · have hne : ¬w.la.toNat = 0 := fun e => h0 (BitVec.eq_of_toNat_eq (by simpa using e))
      exact ⟨c.f.pend ++ [⟨w.la.toNat, ws⟩], _, by simp, fun _ e => absurd e h0, .inr rfl,
        .inr ⟨by simp [putResults, Group.result, hf, hne], rfl, h0⟩⟩

/-- The ONE spec lemma of `alu` and `aluLook`: with no poisoned source they go on at the next instruction, with the results
of `k` in the issuing group. -/
theorem aluWith_next (look : Bool) (s : State) (c : Ctx) (w : Common) (perLane : Bool) (pd : Nat) (srcs : List (Opnd × Nat))
    (k : Nat → LaneRes) (hc : s.ctx? c.agent = some c)
    (hp : ∀ l ∈ c.units w perLane, ∀ o ∈ srcs, c.poisoned l o.1 o.2 = false) :
    ∃ g', aluWith (putResults look c w) s c w perLane pd srcs k = .next (s.putGroup c g') ∧
      AluDone look c w (c.units w perLane) pd k g' := by
  obtain ⟨-, -, hf, hi⟩ := ctx_facts s _ c hc
  have hpois : ((c.units w perLane).any fun l => srcs.any fun o => c.poisoned l o.1 o.2) = false := by
    rw [List.any_eq_false]
    intro l hl
    rw [Bool.not_eq_true, List.any_eq_false]
    intro o ho
    simp [hp l hl o ho]
  generalize hls : c.units w perLane = ls at *
  have hnd : ls.Nodup := hls ▸ units_nodup c w perLane
  let rs := ls.map fun l => (l, k l)
  let g1 := rs.foldl (fun g r => g.laneRes pd r) c.g
  have hl1 : LanesDone pd rs c.g g1 := lanesDone_fold pd rs c.g
  let b := rs.any fun r => r.2.ovf
  let g2 := g1.raiseOvf b
  let ws := rs.flatMap fun r => destLocs w.d r.1 r.2.d
  let g3 := putResults look c w g2 ws
  have hfid : c.f.fid = agentFid c.agent := frag_fid _ _ _ hf
  have h2rest : groupRest g2 = groupRest c.g := by
    rw [← hl1.rest]; simp only [g2, Group.raiseOvf]; split <;> rfl
  have h2frags : g2.frags = c.g.frags := by
    rw [← hl1.frags]; simp only [g2, Group.raiseOvf]; split <;> rfl
  have h2lane : ∀ l, g2.lane l = g1.lane l := by intro l; simp only [g2, Group.raiseOvf]; split <;> rfl
  have h2read : ∀ r, readLoc g2 r = readLoc g1 r := by
    intro r; simp only [g2, Group.raiseOvf]; split
    · cases r <;> rfl
    · rfl
  have h2f : g2.frag? c.f.fid = some c.f := by
    rw [hfid]; unfold Group.frag?; rw [h2frags]; exact hf
  have hws : ws = resultWrites ls w.d k := by simp only [ws, rs, resultWrites, List.flatMap_map]
  obtain ⟨p, g0, hp0, hp1, h0, h3⟩ := putResults_eq look c w g2 ws h2f
  -- the group before the results of D
  have h0rest : groupRest g0 = groupRest c.g := by rcases h0 with ⟨rfl, -⟩ | rfl <;> exact h2rest
  have h0lane : ∀ l, g0.lane l = g2.lane l := by rcases h0 with ⟨rfl, -⟩ | rfl <;> exact fun _ => rfl
  have h0read : ∀ r, readLoc g0 r = readLoc g2 r := by
    rcases h0 with ⟨rfl, -⟩ | rfl
    · exact fun _ => rfl
    · exact fun r => readLoc_frags _ _ r
  have h0ovf : g0.ovf = g2.ovf ∧ g0.ovfn = g2.ovfn := by rcases h0 with ⟨rfl, -⟩ | rfl <;> exact ⟨rfl, rfl⟩
  have h0f : g0.frag? c.f.fid = some { c.f with pend := p } := by
    rcases h0 with ⟨rfl, rfl⟩ | rfl
    · exact h2f
    · exact frag_setFrag g2 c.f _ c.f.fid h2f rfl
  have h0frags : ∀ z : Frag, z.fid = c.f.fid →
      (g0.frags.map fun x => if x.fid == c.f.fid then z else x) = c.g.frags.map fun x => if x.fid == c.f.fid then z else x := by
    intro z hz
    rcases h0 with ⟨rfl, -⟩ | rfl
    · rw [h2frags]
    · simp only [Group.setFrag, h2frags]
      exact replace_replace c.g.frags (fun z => z.fid == c.f.fid) _ _ (by simp)
  -- the group after them
  have h3rest : groupRest g3 = groupRest c.g := by
    rcases h3 with h | ⟨h, -⟩
    · exact (congrArg groupRest h).trans ((groupRest_writeLocs ws g0).trans h0rest)
    · exact (congrArg groupRest h).trans h0rest
  have h3frags : g3.frags = g0.frags := by
    rcases h3 with h | ⟨h, -⟩
    · exact (congrArg Group.frags h).trans (frags_writeLocs ws g0)
    · exact congrArg Group.frags h
  have h3f : g3.frag? c.f.fid = some { c.f with pend := p } := by unfold Group.frag?; rw [h3frags]; exact h0f
  have h3thread : ∀ l, threadRest (g3.lane l) = threadRest (g2.lane l) ∧ (g3.lane l).srs = (g2.lane l).srs := by
    intro l
    rcases h3 with h | ⟨h, -⟩
    · have := threadRest_writeLocs ws g0 l
      rw [← h, h0lane] at this; exact this
    · have : g3 = g0 := h
      rw [this, h0lane]; exact ⟨rfl, rfl⟩
  have h3keeps : ∀ r, (∀ q ∈ ws, q.1 ≠ r) → readLoc g3 r = readLoc g2 r := by
    intro r hr
    rcases h3 with h | ⟨h, -⟩
    · exact (congrArg (readLoc · r) h).trans ((readLoc_writeLocs_ne ws g0 r hr).trans (h0read r))
    · exact (congrArg (readLoc · r) h).trans (h0read r)
  have h3i : Site.fits (agentSite c.agent) g3 := by
    have : g3.index = c.g.index := by
      simp only [groupRest, Prod.mk.injEq] at h3rest; exact h3rest.2.1
    unfold Site.fits at hi ⊢
    split at hi <;> simp_all
  let g' := g3.setFrag (Frag.goTo { c.f with pend := p } (c.f.pc + 16) none)
  have hout : aluWith (putResults look c w) s c w perLane pd srcs k = .next (s.putGroup c g') := by
    unfold aluWith
    simp only [hls, hpois, Bool.false_eq_true, if_false]
    unfold finish State.advance
    congr 1
    exact mapFrag_putGroup s c.agent c g3 _ _ hc h3i (hfid ▸ h3f)
  refine ⟨g', hout, ?_⟩
  have hread : ∀ r, readLoc g' r = readLoc g3 r := fun r => readLoc_frags _ _ r
  have hlane : ∀ l, g'.lane l = g3.lane l := fun _ => rfl
  have hlocs : ∀ q ∈ ws, q.1 ∈ resultRegs ls w.d k := by
    intro q hq
    simp only [ws, rs, List.mem_flatMap, List.mem_map] at hq
    obtain ⟨x, ⟨l, hl, rfl⟩, hq⟩ := hq
    refine List.mem_flatMap.2 ⟨l, hl, ?_⟩
    rw [← destLocs_fst]
    exact List.mem_map_of_mem hq
  refine ⟨h3rest, ⟨p, hp0, fun h e => hws ▸ hp1 h e, ?_⟩, ?_, ?_, ?_, ?_, ?_, ?_, ?_, ?_⟩
  · have := h0frags (Frag.goTo { c.f with pend := p } (c.f.pc + 16) none) rfl
    rw [← h3frags] at this; exact this
  · intro r hr hpd
    rw [hread, h3keeps r fun q hq e => hr (e ▸ hlocs q hq), h2read, hl1.keeps]
    intro x hx hn
    obtain ⟨l, hl, rfl⟩ := List.mem_map.1 hx
    exact hpd l hl hn
  · intro l
    rw [hlane, (h3thread l).1, h2lane, hl1.thread]
  · intro l hl
    rw [hlane, (h3thread l).2, h2lane]
    apply hl1.srs
    intro x hx e
    obtain ⟨m, hm, rfl⟩ := List.mem_map.1 hx
    simp only at e; subst e
    rcases hl with h | h
    · exact absurd hm h
    · exact h
  · intro l hl hlen x hx
    rw [hlane, (h3thread l).2, h2lane]
    refine lanes_srs pd rs c.g ?_ (l, k l) (List.mem_map_of_mem hl) x hx hlen
    simpa [rs, List.map_map, Function.comp_def] using hnd
  · have ho : g3.ovf = g2.ovf ∧ g3.ovfn = g2.ovfn := by
      rcases h3 with h | ⟨h, -⟩
      · have := ovf_writeLocs ws g0
        rw [← h, h0ovf.1, h0ovf.2] at this; exact this
      · have : g3 = g0 := h
        rw [this]; exact h0ovf
    have hb : b = ls.any fun l => (k l).ovf := by simp [b, rs, List.any_map, Function.comp_def]
    have h2o : g2.ovf = (g1.ovf || b) ∧ g2.ovfn = (g1.ovfn || b) := by
      simp only [g2, Group.raiseOvf]; cases b <;> simp
    have e1 : g'.ovf = g3.ovf := rfl
    have e2 : g'.ovfn = g3.ovfn := rfl
    rw [e1, e2, ho.1, ho.2, h2o.1, h2o.2, hl1.ovf.1, hl1.ovf.2, hb]
    exact ⟨rfl, rfl⟩
  · intro hla hn l hl q hq hw
    have h : g3 = g0.writeLocs ws := by
      rcases h3 with h | ⟨-, h1, h2⟩
      · exact h
      · exact absurd (hla h1) h2
    have hq' : q ∈ ws := by
      simp only [ws, rs, List.mem_flatMap, List.mem_map]
      exact ⟨(l, k l), ⟨l, hl, rfl⟩, hq⟩
    have hmap : ws.map (·.1) = resultRegs ls w.d k := by
      simp only [ws, rs, resultRegs, List.flatMap_map, List.map_flatMap, destLocs_fst]
    rw [hread, h, readLoc_writeLocs_mem ws g0 q.1 q.2 (hmap ▸ hn) hq' (writable_congr _ _ _ h0rest.symm hw)]
    have := destLocs_not_pred w.d l (k l).d q hq
    cases hr : q.1 with
    | pred m i => exact absurd hr (this m i)
    | _ => rfl
  · intro l hl hlen h7 v hv
    have h1 : (g1.lane l).pred pd = v := by
      refine lanes_pred pd rs c.g ?_ h7 (l, k l) (List.mem_map_of_mem hl) v hv hlen
      simpa [rs, List.map_map, Function.comp_def] using hnd
    have h32 : readLoc g3 (.pred l pd) = readLoc g2 (.pred l pd) := by
      refine h3keeps _ fun q hq e => ?_
      simp only [ws, rs, List.mem_flatMap, List.mem_map] at hq
      obtain ⟨x, ⟨m, hm, rfl⟩, hq⟩ := hq
      exact destLocs_not_pred _ _ _ _ hq l pd e
    rw [h2read] at h32
    rw [hlane]
    simp only [readLoc, h1] at h32
    cases hb : (g3.lane l).pred pd <;> cases v <;> simp_all
  · intro l i hr
    have h32 : poisonAt g3 l i = poisonAt g0 l i := by
      rcases h3 with h | ⟨h, -⟩
      · exact (congrArg (poisonAt · l i) h).trans (poison_writeLocs_ne ws g0 l i fun q hq e => hr (e ▸ hlocs q hq))
      · exact congrArg (poisonAt · l i) h
    have h20 : poisonAt g0 l i = poisonAt g2 l i := by unfold poisonAt; rw [h0lane]
    have h10 : poisonAt g2 l i = poisonAt c.g l i := by
      unfold poisonAt; rw [h2lane, hl1.poison]
    exact h32.trans (h20.trans h10)

/-- The spec lemma of `alu`. -/
theorem alu_next (s : State) (c : Ctx) (w : Common) (perLane : Bool) (pd : Nat) (srcs : List (Opnd × Nat))
    (k : Nat → LaneRes) (hc : s.ctx? c.agent = some c)
    (hp : ∀ l ∈ c.units w perLane, ∀ o ∈ srcs, c.poisoned l o.1 o.2 = false) :
    ∃ g', alu s c w perLane pd srcs k = .next (s.putGroup c g') ∧ AluDone false c w (c.units w perLane) pd k g' :=
  aluWith_next false s c w perLane pd srcs k hc hp

/-- The spec lemma of `aluLook`. -/
theorem aluLook_next (s : State) (c : Ctx) (w : Common) (perLane : Bool) (pd : Nat) (srcs : List (Opnd × Nat))
    (k : Nat → LaneRes) (hc : s.ctx? c.agent = some c)
    (hp : ∀ l ∈ c.units w perLane, ∀ o ∈ srcs, c.poisoned l o.1 o.2 = false) :
    ∃ g', aluLook s c w perLane pd srcs k = .next (s.putGroup c g') ∧ AluDone true c w (c.units w perLane) pd k g' :=
  aluWith_next true s c w perLane pd srcs k hc hp

end Sys2Proof.Laws
end

