-- ==== Sys2Proof/Laws/CrossLane.lean ====
section
/-! SUPPORT. What the frame of cross-lane instructions can do (R206). -/

namespace Sys2Proof.Laws

open Sys2Proof Sys2Proof.Machine

/-- What the writing of results does to a group: with lookahead (`look`) at once or as pending results (R51), else at
once. -/
structure ResultDone (look : Bool) (c : Ctx) (w : Common) (ws : List (RegLoc × W32)) (g' : Group) (f' : Frag) : Prop where
  rest : groupRest g' = groupRest c.g
  frag : g'.frag? c.f.fid = some f' ∧ ∃ p, f' = { c.f with pend := p } ∧ (look = false → p = c.f.pend) ∧
    (look = true → w.la = 0#4 → p = c.f.pend.map fun q => q.overtaken ws) ∧
    g'.frags.map (fun x => if x.fid == c.f.fid then f' else x) = c.g.frags.map fun x => if x.fid == c.f.fid then f' else x
  keeps : ∀ r, (∀ q ∈ ws, q.1 ≠ r) → readLoc g' r = readLoc c.g r
  thread : ∀ l, threadRest (g'.lane l) = threadRest (c.g.lane l) ∧ (g'.lane l).srs = (c.g.lane l).srs
  ovf : g'.ovf = c.g.ovf ∧ g'.ovfn = c.g.ovfn
  value : (look = true → w.la = 0#4) → (ws.map (·.1)).Nodup → ∀ q ∈ ws, writable c.g q.1 → readLoc g' q.1 = stored q.1 q.2
  poison : ∀ l i, (∀ q ∈ ws, q.1 ≠ .vec l i) → poisonAt g' l i = poisonAt c.g l i

/-- The spec lemma of `putResults`. -/
theorem result_done (look : Bool) (c : Ctx) (w : Common) (ws : List (RegLoc × W32)) (hf : c.g.frag? c.f.fid = some c.f) :
    ∃ f', ResultDone look c w ws (putResults look c w c.g ws) f' := by
  obtain ⟨p, g0, hp0, hp1, h0, h3⟩ := putResults_eq look c w c.g ws hf
  -- the group before the results is written with the pending results alone changed
  have hg0 : g0 = { c.g with frags := g0.frags } := by rcases h0 with ⟨rfl, -⟩ | rfl <;> rfl
  have hread : ∀ r, readLoc g0 r = readLoc c.g r := by rw [hg0]; exact readLoc_frags _ _
  have hwr : ∀ r, writable c.g r → writable g0 r := by rw [hg0]; intro r; cases r <;> exact id
  have hfr : g0.frag? c.f.fid = some { c.f with pend := p } := by
    rcases h0 with ⟨rfl, rfl⟩ | rfl
    · exact hf
    · exact frag_setFrag c.g c.f _ c.f.fid hf rfl
  have hmap : g0.frags.map (fun x => if x.fid == c.f.fid then { c.f with pend := p } else x) =
      c.g.frags.map fun x => if x.fid == c.f.fid then { c.f with pend := p } else x := by
    rcases h0 with ⟨rfl, -⟩ | rfl
    · rfl
    · exact replace_replace c.g.frags (fun z => z.fid == c.f.fid) _ _ (by simp)
  have hrest : groupRest g0 = groupRest c.g := by rw [hg0]; rfl
  have hlane : ∀ l, g0.lane l = c.g.lane l := by rw [hg0]; exact fun _ => rfl
  have hpo : ∀ l i, poisonAt g0 l i = poisonAt c.g l i := fun l i => by unfold poisonAt; rw [hlane]
  have hovf : g0.ovf = c.g.ovf ∧ g0.ovfn = c.g.ovfn := by rw [hg0]; exact ⟨rfl, rfl⟩
  refine ⟨{ c.f with pend := p }, ?_⟩
  rcases h3 with h3 | ⟨h3, hl, hla⟩ <;> rw [h3]
  · refine ⟨(groupRest_writeLocs _ _).trans hrest, ⟨?_, p, rfl, hp0, hp1, ?_⟩, ?_, ?_, ?_, ?_, ?_⟩
    · unfold Group.frag?; rw [frags_writeLocs]; exact hfr
    · rw [frags_writeLocs]; exact hmap
    · exact fun r h => (readLoc_writeLocs_ne _ _ _ h).trans (hread r)
    · intro l; rw [← hlane l]; exact threadRest_writeLocs ws g0 l
    · rw [← hovf.1, ← hovf.2]; exact ovf_writeLocs ws g0
    · exact fun _ hn q hq hw => readLoc_writeLocs_mem ws g0 q.1 q.2 hn hq (hwr _ hw)
    · exact fun l i h => (poison_writeLocs_ne ws g0 l i h).trans (hpo l i)
  · refine ⟨hrest, ⟨hfr, p, rfl, hp0, hp1, hmap⟩, fun r _ => hread r, ?_, hovf, fun e => absurd (e hl) hla, fun l i _ => hpo l i⟩
    intro l; rw [hlane]; exact ⟨rfl, rfl⟩

/-- What a cross-lane instruction leaves in the issuing group, its results with lookahead (`look`) or without. -/
structure CrossDone (look : Bool) (c : Ctx) (w : Common) (pd : Nat) (preds : List (Nat × Bool)) (xemp : Option Bool)
    (ws : List (RegLoc × W32)) (g' : Group) : Prop where
  rest : groupRest g' = groupRest c.g
  frags : ∃ p, (look = false → p = c.f.pend) ∧
    (look = true → w.la = 0#4 →
      p = c.f.pend.map fun q => q.overtaken (preds.map (fun x => (RegLoc.pred x.1 pd, if x.2 then 1#32 else 0#32)) ++ ws)) ∧
    g'.frags = c.g.frags.map fun x =>
      if x.fid == c.f.fid then { c.f.goTo (c.f.pc + 16) none with pend := p, xemp := xemp.getD c.f.xemp } else x
  keeps : ∀ r, (∀ q ∈ ws, q.1 ≠ r) → (∀ q ∈ preds, r ≠ .pred q.1 pd) → readLoc g' r = readLoc c.g r
  thread : ∀ l, threadRest (g'.lane l) = threadRest (c.g.lane l) ∧ (g'.lane l).srs = (c.g.lane l).srs
  ovf : g'.ovf = c.g.ovf ∧ g'.ovfn = c.g.ovfn
  value : (look = true → w.la = 0#4) → (preds.map (fun q => RegLoc.pred q.1 pd) ++ ws.map (·.1)).Nodup →
    (∀ q ∈ ws, writable c.g q.1 → readLoc g' q.1 = stored q.1 q.2) ∧
    (∀ q ∈ preds, writable c.g (.pred q.1 pd) → (g'.lane q.1).pred pd = q.2)
  poison : ∀ l i, (∀ q ∈ ws, q.1 ≠ .vec l i) → poisonAt g' l i = poisonAt c.g l i

/-- The ONE spec lemma of `crossWith`: with no poisoned source it goes on at the next instruction. -/
theorem crossWith_next (look : Bool) (s : State) (c : Ctx) (w : ArithOp) (spans : List (Opnd × Nat)) (pd : Nat)
    (preds : List (Nat × Bool)) (xemp : Option Bool) (ws : List (RegLoc × W32)) (hc : s.ctx? c.agent = some c)
    (hp : ∀ l ∈ c.acting w.guard, ∀ o ∈ spans, c.poisoned l o.1 o.2 = false) :
    ∃ g', crossWith (putResults look c w.toCommon) s c w spans pd preds xemp ws = .next (s.putGroup c g') ∧
      CrossDone look c w.toCommon pd preds xemp ws g' := by
  obtain ⟨-, -, hf, hi⟩ := ctx_facts s _ c hc
  have hpois : ((c.acting w.guard).any fun l => spans.any fun o => c.poisoned l o.1 o.2) = false := by
    rw [List.any_eq_false]
    intro l hl
    rw [Bool.not_eq_true, List.any_eq_false]
    intro o ho
    simp [hp l hl o ho]
  have hfid : c.f.fid = agentFid c.agent := frag_fid _ _ _ hf
  have hf' : c.g.frag? c.f.fid = some c.f := by rw [hfid]; exact hf
  let all := (preds.map fun p => (RegLoc.pred p.1 pd, if p.2 then 1#32 else 0#32)) ++ ws
  obtain ⟨f', hd⟩ := result_done look c w.toCommon all hf'
  let g := putResults look c w.toCommon c.g all
  obtain ⟨hgf, p, hpf, hp0, hp1, hmap⟩ := hd.frag
  have hfits : ∀ g0 : Group, groupRest g0 = groupRest c.g → Site.fits (agentSite c.agent) g0 := by
    intro g0 h0
    have : g0.index = c.g.index := by simp only [groupRest, Prod.mk.injEq] at h0; exact h0.2.1
    unfold Site.fits at hi ⊢
    split at hi <;> simp_all
  let f2 : Frag := { f' with xemp := xemp.getD c.f.xemp }
  let g' := (g.setFrag (f2.goTo (f2.pc + 16) none))
  have hid : f'.fid = c.f.fid := frag_fid _ _ _ hgf
  have hout : crossWith (putResults look c w.toCommon) s c w spans pd preds xemp ws = .next (s.putGroup c g') := by
    unfold crossWith
    simp only [hpois, Bool.false_eq_true, if_false]
    unfold finish State.advance
    congr 1
    have hgf2 : g.frag? (agentFid c.agent) = some f' := by
      rw [← hfid]; exact hgf
    cases xemp with
    | none =>
      show (s.putGroup c g).mapFrag c.agent _ = _
      rw [mapFrag_putGroup s c.agent c g f' _ hc (hfits g hd.rest) hgf2]
      have : f2 = f' := by simp only [f2, Option.getD_none, hpf]
      rw [this.symm]
    | some b =>
      show ((s.putGroup c g).mapFrag c.agent _).mapFrag c.agent _ = _
      rw [mapFrag_putGroup s c.agent c g f' _ hc (hfits g hd.rest) hgf2]
      rw [mapFrag_putGroup s c.agent c _ { f' with xemp := b } _ hc (hfits _ (by rw [← hd.rest]; rfl))
        (frag_setFrag g f' _ _ hgf2 (by rw [← hfid]; exact hid))]
      rw [setFrag_setFrag _ _ _ (by simp [Frag.goTo])]
      rfl
  refine ⟨g', hout, ?_⟩
  have hread : ∀ r, readLoc g' r = readLoc g r := fun r => readLoc_frags _ _ r
  refine ⟨hd.rest, ⟨p, hp0, hp1, ?_⟩, ?_, ?_, ?_, ?_, ?_⟩
  · have h1 : g'.frags = g.frags.map fun x => if x.fid == c.f.fid then f2.goTo (f2.pc + 16) none else x := by
      simp only [g', Group.setFrag, Frag.goTo, f2, hid]
    have h2 := congrArg (List.map fun x => if x.fid == c.f.fid then f2.goTo (f2.pc + 16) none else x) hmap
    have h3 : (f'.fid == c.f.fid) = true := by simp [hid]
    rw [replace_replace g.frags (fun z => z.fid == c.f.fid) f' _ h3,
      replace_replace c.g.frags (fun z => z.fid == c.f.fid) f' _ h3] at h2
    rw [h1, h2]
    have : f2.goTo (f2.pc + 16) none = { c.f.goTo (c.f.pc + 16) none with pend := p, xemp := xemp.getD c.f.xemp } := by
      simp only [f2, hpf, Frag.goTo]
    rw [this]
  · intro r hr hpd
    rw [hread]
    apply hd.keeps
    intro q hq e
    rcases List.mem_append.1 hq with hq | hq
    · obtain ⟨x, hx, rfl⟩ := List.mem_map.1 hq
      exact hpd x hx e.symm
    · exact hr q hq e
  · exact fun l => hd.thread l
  · exact hd.ovf
  · intro h0 hn
    have hn' : (all.map (·.1)).Nodup := by
      simpa [all, List.map_append, List.map_map, Function.comp_def] using hn
    constructor
    · intro q hq hw
      rw [hread]
      exact hd.value h0 hn' q (List.mem_append_right _ hq) hw
    · intro q hq hw
      have := hd.value h0 hn' (.pred q.1 pd, if q.2 then 1#32 else 0#32)
        (List.mem_append_left _ (List.mem_map.2 ⟨q, hq, rfl⟩)) hw
      rw [← hread] at this
      simp only [readLoc, stored] at this
      cases hb : (g'.lane q.1).pred pd <;> cases hq2 : q.2 <;> simp_all
  · intro l i h
    refine hd.poison l i fun q hq e => ?_
    rcases List.mem_append.1 hq with hq | hq
    · obtain ⟨x, -, rfl⟩ := List.mem_map.1 hq
      cases e
    · exact h q hq e

/-- `crossOp` writes with lookahead. -/
theorem crossOp_eq (s : State) (c : Ctx) (w : ArithOp) :
    crossOp s c w = crossWith (putResults true c w.toCommon) s c w := by
  unfold crossOp putResults; rfl

/-- Without lookahead the results are written at once. -/
theorem writeLocs_eq (c : Ctx) (w : Common) : Group.writeLocs = putResults false c w := rfl

/-- The spec lemma of `crossOp`. -/
theorem crossOp_next (s : State) (c : Ctx) (w : ArithOp) (spans : List (Opnd × Nat)) (pd : Nat)
    (preds : List (Nat × Bool)) (xemp : Option Bool) (ws : List (RegLoc × W32)) (hc : s.ctx? c.agent = some c)
    (hp : ∀ l ∈ c.acting w.guard, ∀ o ∈ spans, c.poisoned l o.1 o.2 = false) :
    ∃ g', crossOp s c w spans pd preds xemp ws = .next (s.putGroup c g') ∧
      CrossDone true c w.toCommon pd preds xemp ws g' :=
  crossOp_eq s c w ▸ crossWith_next true s c w spans pd preds xemp ws hc hp

end Sys2Proof.Laws
end

