-- ==== Sys2Proof/Laws/Memory.lean ====
section
/-! SUPPORT. Laws of global memory: what a byte reads as after a write, and the canonical form, which
every operation keeps. -/

namespace Sys2Proof.Laws

open Sys2Proof Sys2Proof.Machine

/-- The byte just written. -/
@[simp] theorem Memory.get_set_same (m : Memory) (a : Nat) (b : Byte) : (m.set a b).get a = b :=
  tblGet_tblSet_same _ _ _ _

/-- Any other byte. -/
theorem Memory.get_set_ne (m : Memory) {a x : Nat} (b : Byte) (h : a ≠ x) : (m.set a b).get x = m.get x :=
  tblGet_tblSet_ne _ _ _ h

/-- A byte outside the bytes written. -/
theorem Memory.get_write_outside (bs : List Byte) (m : Memory) (a x : Nat) (h : x < a ∨ a + bs.length ≤ x) :
    (m.write a bs).get x = m.get x := by
  induction bs generalizing m a with
  | nil => rfl
  | cons b bs ih =>
    simp only [List.length_cons] at h
    rw [Memory.write, ih _ _ (by omega), Memory.get_set_ne _ _ (by omega)]

/-- A byte among the bytes written. -/
theorem Memory.get_write_inside (bs : List Byte) (m : Memory) (a i : Nat) (h : i < bs.length) :
    (m.write a bs).get (a + i) = bs[i] := by
  induction bs generalizing m a i with
  | nil => simp at h
  | cons b bs ih =>
    rw [Memory.write]
    cases i with
    | zero => rw [Memory.get_write_outside _ _ _ _ (by omega)]; simp
    | succ i =>
      have := ih (m.set a b) (a + 1) i (by simpa using h)
      rw [show a + (i + 1) = a + 1 + i by omega, this]
      simp

/-- The canonical form in words: rising keys, no listed byte equal to an unlisted one. -/
theorem Memory.wf_iff (m : Memory) : m.wf = true ↔ tblSorted m = true ∧ ∀ p ∈ m, p.2 ≠ Memory.unlisted := by
  simp [Memory.wf, List.all_eq_true]

/-- A write of one byte keeps the canonical form. -/
theorem Memory.set_wf (m : Memory) (a : Nat) (b : Byte) (h : m.wf = true) : (m.set a b).wf = true := by
  obtain ⟨h1, h2⟩ := (Memory.wf_iff m).1 h
  refine (Memory.wf_iff _).2 ?_
  unfold Memory.set tblSet
  split
  · exact ⟨tblErase_sorted _ _ h1, fun p hp => h2 p (mem_of_mem_tblErase _ _ p hp).1⟩
  · rename_i hb
    refine ⟨tblInsert_sorted _ _ _ h1, fun p hp => ?_⟩
    rcases mem_tblPut _ _ _ _ hp with rfl | hp
    · exact hb
    · exact h2 p (mem_of_mem_tblErase _ _ p hp).1

/-- A write of bytes keeps the canonical form. -/
theorem Memory.write_wf (bs : List Byte) (m : Memory) (a : Nat) (h : m.wf = true) : (m.write a bs).wf = true := by
  induction bs generalizing m a with
  | nil => exact h
  | cons b bs ih => exact ih _ _ (Memory.set_wf _ _ _ h)

/-- Reset memory has the canonical form. -/
theorem reset_mem_wf : State.reset.mem.wf = true := rfl

end Sys2Proof.Laws
end

