-- ==== Sys2Proof/Laws/State.lean ====
section
/-! SUPPORT. What each update leaves alone, one equation per field: later proofs read a field of an
updated record by these and never open the update. -/

namespace Sys2Proof.Laws

open Sys2Proof Sys2Proof.Machine

/-! ### `State.setCore`: a core -/

@[simp] theorem setCore_clock (s : State) (k : Nat) (x : Core) : (s.setCore k x).clock = s.clock := rfl
@[simp] theorem setCore_agenda (s : State) (k : Nat) (x : Core) : (s.setCore k x).agenda = s.agenda := rfl
@[simp] theorem setCore_cur (s : State) (k : Nat) (x : Core) : (s.setCore k x).cur = s.cur := rfl
@[simp] theorem setCore_freeCtr (s : State) (k : Nat) (x : Core) : (s.setCore k x).freeCtr = s.freeCtr := rfl
@[simp] theorem setCore_serial (s : State) (k : Nat) (x : Core) : (s.setCore k x).serial = s.serial := rfl
@[simp] theorem setCore_mem (s : State) (k : Nat) (x : Core) : (s.setCore k x).mem = s.mem := rfl
@[simp] theorem setCore_areas (s : State) (k : Nat) (x : Core) : (s.setCore k x).areas = s.areas := rfl
@[simp] theorem setCore_memBad (s : State) (k : Nat) (x : Core) : (s.setCore k x).memBad = s.memBad := rfl
@[simp] theorem setCore_mscBad (s : State) (k : Nat) (x : Core) : (s.setCore k x).mscBad = s.mscBad := rfl
@[simp] theorem setCore_msc (s : State) (k : Nat) (x : Core) : (s.setCore k x).msc = s.msc := rfl
@[simp] theorem setCore_l2 (s : State) (k : Nat) (x : Core) : (s.setCore k x).l2 = s.l2 := rfl
@[simp] theorem setCore_clusterTlb (s : State) (k : Nat) (x : Core) : (s.setCore k x).clusterTlb = s.clusterTlb := rfl
@[simp] theorem setCore_tenders (s : State) (k : Nat) (x : Core) : (s.setCore k x).tenders = s.tenders := rfl
@[simp] theorem setCore_pairs (s : State) (k : Nat) (x : Core) : (s.setCore k x).pairs = s.pairs := rfl
@[simp] theorem setCore_kqueues (s : State) (k : Nat) (x : Core) : (s.setCore k x).kqueues = s.kqueues := rfl
@[simp] theorem setCore_ejected (s : State) (k : Nat) (x : Core) : (s.setCore k x).ejected = s.ejected := rfl
@[simp] theorem setCore_supers (s : State) (k : Nat) (x : Core) : (s.setCore k x).supers = s.supers := rfl
@[simp] theorem setCore_fes (s : State) (k : Nat) (x : Core) : (s.setCore k x).fes = s.fes := rfl
@[simp] theorem setCore_parts (s : State) (k : Nat) (x : Core) : (s.setCore k x).parts = s.parts := rfl
@[simp] theorem setCore_vds (s : State) (k : Nat) (x : Core) : (s.setCore k x).vds = s.vds := rfl
@[simp] theorem setCore_members (s : State) (k : Nat) (x : Core) : (s.setCore k x).members = s.members := rfl
@[simp] theorem setCore_dies (s : State) (k : Nat) (x : Core) : (s.setCore k x).dies = s.dies := rfl
@[simp] theorem setCore_walks (s : State) (k : Nat) (x : Core) : (s.setCore k x).walks = s.walks := rfl
@[simp] theorem setCore_pageReqs (s : State) (k : Nat) (x : Core) : (s.setCore k x).pageReqs = s.pageReqs := rfl
@[simp] theorem setCore_wanted (s : State) (k : Nat) (x : Core) : (s.setCore k x).wanted = s.wanted := rfl
@[simp] theorem setCore_pages (s : State) (k : Nat) (x : Core) : (s.setCore k x).pages = s.pages := rfl
@[simp] theorem setCore_commands (s : State) (k : Nat) (x : Core) : (s.setCore k x).commands = s.commands := rfl
@[simp] theorem setCore_code (s : State) (k : Nat) (x : Core) : (s.setCore k x).code = s.code := rfl
@[simp] theorem setCore_fabric (s : State) (k : Nat) (x : Core) : (s.setCore k x).fabric = s.fabric := rfl
@[simp] theorem setCore_outbox (s : State) (k : Nat) (x : Core) : (s.setCore k x).outbox = s.outbox := rfl
@[simp] theorem setCore_answers (s : State) (k : Nat) (x : Core) : (s.setCore k x).answers = s.answers := rfl
@[simp] theorem setCore_genable (s : State) (k : Nat) (x : Core) : (s.setCore k x).genable = s.genable := rfl
@[simp] theorem setCore_boot (s : State) (k : Nat) (x : Core) : (s.setCore k x).boot = s.boot := rfl
@[simp] theorem setCore_respep (s : State) (k : Nat) (x : Core) : (s.setCore k x).respep = s.respep := rfl
@[simp] theorem setCore_bootFrom (s : State) (k : Nat) (x : Core) : (s.setCore k x).bootFrom = s.bootFrom := rfl
@[simp] theorem setCore_attest (s : State) (k : Nat) (x : Core) : (s.setCore k x).attest = s.attest := rfl
@[simp] theorem setCore_record (s : State) (k : Nat) (x : Core) : (s.setCore k x).record = s.record := rfl
@[simp] theorem setCore_alarm (s : State) (k : Nat) (x : Core) : (s.setCore k x).alarm = s.alarm := rfl
@[simp] theorem setCore_alarmSrc (s : State) (k : Nat) (x : Core) : (s.setCore k x).alarmSrc = s.alarmSrc := rfl
@[simp] theorem setCore_haltedAt (s : State) (k : Nat) (x : Core) : (s.setCore k x).haltedAt = s.haltedAt := rfl
@[simp] theorem setCore_haltArm (s : State) (k : Nat) (x : Core) : (s.setCore k x).haltArm = s.haltArm := rfl
@[simp] theorem setCore_eraseArm (s : State) (k : Nat) (x : Core) : (s.setCore k x).eraseArm = s.eraseArm := rfl
@[simp] theorem setCore_keysErased (s : State) (k : Nat) (x : Core) : (s.setCore k x).keysErased = s.keysErased := rfl
@[simp] theorem setCore_selfTest (s : State) (k : Nat) (x : Core) : (s.setCore k x).selfTest = s.selfTest := rfl

/-! ### `State.setPair`: a pair -/

@[simp] theorem setPair_clock (s : State) (k : Nat) (x : Pair) : (s.setPair k x).clock = s.clock := rfl
@[simp] theorem setPair_agenda (s : State) (k : Nat) (x : Pair) : (s.setPair k x).agenda = s.agenda := rfl
@[simp] theorem setPair_cur (s : State) (k : Nat) (x : Pair) : (s.setPair k x).cur = s.cur := rfl
@[simp] theorem setPair_freeCtr (s : State) (k : Nat) (x : Pair) : (s.setPair k x).freeCtr = s.freeCtr := rfl
@[simp] theorem setPair_serial (s : State) (k : Nat) (x : Pair) : (s.setPair k x).serial = s.serial := rfl
@[simp] theorem setPair_mem (s : State) (k : Nat) (x : Pair) : (s.setPair k x).mem = s.mem := rfl
@[simp] theorem setPair_areas (s : State) (k : Nat) (x : Pair) : (s.setPair k x).areas = s.areas := rfl
@[simp] theorem setPair_memBad (s : State) (k : Nat) (x : Pair) : (s.setPair k x).memBad = s.memBad := rfl
@[simp] theorem setPair_mscBad (s : State) (k : Nat) (x : Pair) : (s.setPair k x).mscBad = s.mscBad := rfl
@[simp] theorem setPair_msc (s : State) (k : Nat) (x : Pair) : (s.setPair k x).msc = s.msc := rfl
@[simp] theorem setPair_l2 (s : State) (k : Nat) (x : Pair) : (s.setPair k x).l2 = s.l2 := rfl
@[simp] theorem setPair_cores (s : State) (k : Nat) (x : Pair) : (s.setPair k x).cores = s.cores := rfl
@[simp] theorem setPair_clusterTlb (s : State) (k : Nat) (x : Pair) : (s.setPair k x).clusterTlb = s.clusterTlb := rfl
@[simp] theorem setPair_tenders (s : State) (k : Nat) (x : Pair) : (s.setPair k x).tenders = s.tenders := rfl
@[simp] theorem setPair_kqueues (s : State) (k : Nat) (x : Pair) : (s.setPair k x).kqueues = s.kqueues := rfl
@[simp] theorem setPair_ejected (s : State) (k : Nat) (x : Pair) : (s.setPair k x).ejected = s.ejected := rfl
@[simp] theorem setPair_supers (s : State) (k : Nat) (x : Pair) : (s.setPair k x).supers = s.supers := rfl
@[simp] theorem setPair_fes (s : State) (k : Nat) (x : Pair) : (s.setPair k x).fes = s.fes := rfl
@[simp] theorem setPair_parts (s : State) (k : Nat) (x : Pair) : (s.setPair k x).parts = s.parts := rfl
@[simp] theorem setPair_vds (s : State) (k : Nat) (x : Pair) : (s.setPair k x).vds = s.vds := rfl
@[simp] theorem setPair_members (s : State) (k : Nat) (x : Pair) : (s.setPair k x).members = s.members := rfl
@[simp] theorem setPair_dies (s : State) (k : Nat) (x : Pair) : (s.setPair k x).dies = s.dies := rfl
@[simp] theorem setPair_walks (s : State) (k : Nat) (x : Pair) : (s.setPair k x).walks = s.walks := rfl
@[simp] theorem setPair_pageReqs (s : State) (k : Nat) (x : Pair) : (s.setPair k x).pageReqs = s.pageReqs := rfl
@[simp] theorem setPair_wanted (s : State) (k : Nat) (x : Pair) : (s.setPair k x).wanted = s.wanted := rfl
@[simp] theorem setPair_pages (s : State) (k : Nat) (x : Pair) : (s.setPair k x).pages = s.pages := rfl
@[simp] theorem setPair_commands (s : State) (k : Nat) (x : Pair) : (s.setPair k x).commands = s.commands := rfl
@[simp] theorem setPair_code (s : State) (k : Nat) (x : Pair) : (s.setPair k x).code = s.code := rfl
@[simp] theorem setPair_fabric (s : State) (k : Nat) (x : Pair) : (s.setPair k x).fabric = s.fabric := rfl
@[simp] theorem setPair_outbox (s : State) (k : Nat) (x : Pair) : (s.setPair k x).outbox = s.outbox := rfl
@[simp] theorem setPair_answers (s : State) (k : Nat) (x : Pair) : (s.setPair k x).answers = s.answers := rfl
@[simp] theorem setPair_genable (s : State) (k : Nat) (x : Pair) : (s.setPair k x).genable = s.genable := rfl
@[simp] theorem setPair_boot (s : State) (k : Nat) (x : Pair) : (s.setPair k x).boot = s.boot := rfl
@[simp] theorem setPair_respep (s : State) (k : Nat) (x : Pair) : (s.setPair k x).respep = s.respep := rfl
@[simp] theorem setPair_bootFrom (s : State) (k : Nat) (x : Pair) : (s.setPair k x).bootFrom = s.bootFrom := rfl
@[simp] theorem setPair_attest (s : State) (k : Nat) (x : Pair) : (s.setPair k x).attest = s.attest := rfl
@[simp] theorem setPair_record (s : State) (k : Nat) (x : Pair) : (s.setPair k x).record = s.record := rfl
@[simp] theorem setPair_alarm (s : State) (k : Nat) (x : Pair) : (s.setPair k x).alarm = s.alarm := rfl
@[simp] theorem setPair_alarmSrc (s : State) (k : Nat) (x : Pair) : (s.setPair k x).alarmSrc = s.alarmSrc := rfl
@[simp] theorem setPair_haltedAt (s : State) (k : Nat) (x : Pair) : (s.setPair k x).haltedAt = s.haltedAt := rfl
@[simp] theorem setPair_haltArm (s : State) (k : Nat) (x : Pair) : (s.setPair k x).haltArm = s.haltArm := rfl
@[simp] theorem setPair_eraseArm (s : State) (k : Nat) (x : Pair) : (s.setPair k x).eraseArm = s.eraseArm := rfl
@[simp] theorem setPair_keysErased (s : State) (k : Nat) (x : Pair) : (s.setPair k x).keysErased = s.keysErased := rfl
@[simp] theorem setPair_selfTest (s : State) (k : Nat) (x : Pair) : (s.setPair k x).selfTest = s.selfTest := rfl

/-! ### `State.setFe`: a front end -/

@[simp] theorem setFe_clock (s : State) (k : Nat) (x : Fe) : (s.setFe k x).clock = s.clock := rfl
@[simp] theorem setFe_agenda (s : State) (k : Nat) (x : Fe) : (s.setFe k x).agenda = s.agenda := rfl
@[simp] theorem setFe_cur (s : State) (k : Nat) (x : Fe) : (s.setFe k x).cur = s.cur := rfl
@[simp] theorem setFe_freeCtr (s : State) (k : Nat) (x : Fe) : (s.setFe k x).freeCtr = s.freeCtr := rfl
@[simp] theorem setFe_serial (s : State) (k : Nat) (x : Fe) : (s.setFe k x).serial = s.serial := rfl
@[simp] theorem setFe_mem (s : State) (k : Nat) (x : Fe) : (s.setFe k x).mem = s.mem := rfl
@[simp] theorem setFe_areas (s : State) (k : Nat) (x : Fe) : (s.setFe k x).areas = s.areas := rfl
@[simp] theorem setFe_memBad (s : State) (k : Nat) (x : Fe) : (s.setFe k x).memBad = s.memBad := rfl
@[simp] theorem setFe_mscBad (s : State) (k : Nat) (x : Fe) : (s.setFe k x).mscBad = s.mscBad := rfl
@[simp] theorem setFe_msc (s : State) (k : Nat) (x : Fe) : (s.setFe k x).msc = s.msc := rfl
@[simp] theorem setFe_l2 (s : State) (k : Nat) (x : Fe) : (s.setFe k x).l2 = s.l2 := rfl
@[simp] theorem setFe_cores (s : State) (k : Nat) (x : Fe) : (s.setFe k x).cores = s.cores := rfl
@[simp] theorem setFe_clusterTlb (s : State) (k : Nat) (x : Fe) : (s.setFe k x).clusterTlb = s.clusterTlb := rfl
@[simp] theorem setFe_tenders (s : State) (k : Nat) (x : Fe) : (s.setFe k x).tenders = s.tenders := rfl
@[simp] theorem setFe_pairs (s : State) (k : Nat) (x : Fe) : (s.setFe k x).pairs = s.pairs := rfl
@[simp] theorem setFe_kqueues (s : State) (k : Nat) (x : Fe) : (s.setFe k x).kqueues = s.kqueues := rfl
@[simp] theorem setFe_ejected (s : State) (k : Nat) (x : Fe) : (s.setFe k x).ejected = s.ejected := rfl
@[simp] theorem setFe_supers (s : State) (k : Nat) (x : Fe) : (s.setFe k x).supers = s.supers := rfl
@[simp] theorem setFe_parts (s : State) (k : Nat) (x : Fe) : (s.setFe k x).parts = s.parts := rfl
@[simp] theorem setFe_vds (s : State) (k : Nat) (x : Fe) : (s.setFe k x).vds = s.vds := rfl
@[simp] theorem setFe_members (s : State) (k : Nat) (x : Fe) : (s.setFe k x).members = s.members := rfl
@[simp] theorem setFe_dies (s : State) (k : Nat) (x : Fe) : (s.setFe k x).dies = s.dies := rfl
@[simp] theorem setFe_walks (s : State) (k : Nat) (x : Fe) : (s.setFe k x).walks = s.walks := rfl
@[simp] theorem setFe_pageReqs (s : State) (k : Nat) (x : Fe) : (s.setFe k x).pageReqs = s.pageReqs := rfl
@[simp] theorem setFe_wanted (s : State) (k : Nat) (x : Fe) : (s.setFe k x).wanted = s.wanted := rfl
@[simp] theorem setFe_pages (s : State) (k : Nat) (x : Fe) : (s.setFe k x).pages = s.pages := rfl
@[simp] theorem setFe_commands (s : State) (k : Nat) (x : Fe) : (s.setFe k x).commands = s.commands := rfl
@[simp] theorem setFe_code (s : State) (k : Nat) (x : Fe) : (s.setFe k x).code = s.code := rfl
@[simp] theorem setFe_fabric (s : State) (k : Nat) (x : Fe) : (s.setFe k x).fabric = s.fabric := rfl
@[simp] theorem setFe_outbox (s : State) (k : Nat) (x : Fe) : (s.setFe k x).outbox = s.outbox := rfl
@[simp] theorem setFe_answers (s : State) (k : Nat) (x : Fe) : (s.setFe k x).answers = s.answers := rfl
@[simp] theorem setFe_genable (s : State) (k : Nat) (x : Fe) : (s.setFe k x).genable = s.genable := rfl
@[simp] theorem setFe_boot (s : State) (k : Nat) (x : Fe) : (s.setFe k x).boot = s.boot := rfl
@[simp] theorem setFe_respep (s : State) (k : Nat) (x : Fe) : (s.setFe k x).respep = s.respep := rfl
@[simp] theorem setFe_bootFrom (s : State) (k : Nat) (x : Fe) : (s.setFe k x).bootFrom = s.bootFrom := rfl
@[simp] theorem setFe_attest (s : State) (k : Nat) (x : Fe) : (s.setFe k x).attest = s.attest := rfl
@[simp] theorem setFe_record (s : State) (k : Nat) (x : Fe) : (s.setFe k x).record = s.record := rfl
@[simp] theorem setFe_alarm (s : State) (k : Nat) (x : Fe) : (s.setFe k x).alarm = s.alarm := rfl
@[simp] theorem setFe_alarmSrc (s : State) (k : Nat) (x : Fe) : (s.setFe k x).alarmSrc = s.alarmSrc := rfl
@[simp] theorem setFe_haltedAt (s : State) (k : Nat) (x : Fe) : (s.setFe k x).haltedAt = s.haltedAt := rfl
@[simp] theorem setFe_haltArm (s : State) (k : Nat) (x : Fe) : (s.setFe k x).haltArm = s.haltArm := rfl
@[simp] theorem setFe_eraseArm (s : State) (k : Nat) (x : Fe) : (s.setFe k x).eraseArm = s.eraseArm := rfl
@[simp] theorem setFe_keysErased (s : State) (k : Nat) (x : Fe) : (s.setFe k x).keysErased = s.keysErased := rfl
@[simp] theorem setFe_selfTest (s : State) (k : Nat) (x : Fe) : (s.setFe k x).selfTest = s.selfTest := rfl

/-! ### `State.setPart`: a partition slot -/

@[simp] theorem setPart_clock (s : State) (k : Nat) (x : Part) : (s.setPart k x).clock = s.clock := rfl
@[simp] theorem setPart_agenda (s : State) (k : Nat) (x : Part) : (s.setPart k x).agenda = s.agenda := rfl
@[simp] theorem setPart_cur (s : State) (k : Nat) (x : Part) : (s.setPart k x).cur = s.cur := rfl
@[simp] theorem setPart_freeCtr (s : State) (k : Nat) (x : Part) : (s.setPart k x).freeCtr = s.freeCtr := rfl
@[simp] theorem setPart_serial (s : State) (k : Nat) (x : Part) : (s.setPart k x).serial = s.serial := rfl
@[simp] theorem setPart_mem (s : State) (k : Nat) (x : Part) : (s.setPart k x).mem = s.mem := rfl
@[simp] theorem setPart_areas (s : State) (k : Nat) (x : Part) : (s.setPart k x).areas = s.areas := rfl
@[simp] theorem setPart_memBad (s : State) (k : Nat) (x : Part) : (s.setPart k x).memBad = s.memBad := rfl
@[simp] theorem setPart_mscBad (s : State) (k : Nat) (x : Part) : (s.setPart k x).mscBad = s.mscBad := rfl
@[simp] theorem setPart_msc (s : State) (k : Nat) (x : Part) : (s.setPart k x).msc = s.msc := rfl
@[simp] theorem setPart_l2 (s : State) (k : Nat) (x : Part) : (s.setPart k x).l2 = s.l2 := rfl
@[simp] theorem setPart_cores (s : State) (k : Nat) (x : Part) : (s.setPart k x).cores = s.cores := rfl
@[simp] theorem setPart_clusterTlb (s : State) (k : Nat) (x : Part) : (s.setPart k x).clusterTlb = s.clusterTlb := rfl
@[simp] theorem setPart_tenders (s : State) (k : Nat) (x : Part) : (s.setPart k x).tenders = s.tenders := rfl
@[simp] theorem setPart_pairs (s : State) (k : Nat) (x : Part) : (s.setPart k x).pairs = s.pairs := rfl
@[simp] theorem setPart_kqueues (s : State) (k : Nat) (x : Part) : (s.setPart k x).kqueues = s.kqueues := rfl
@[simp] theorem setPart_ejected (s : State) (k : Nat) (x : Part) : (s.setPart k x).ejected = s.ejected := rfl
@[simp] theorem setPart_supers (s : State) (k : Nat) (x : Part) : (s.setPart k x).supers = s.supers := rfl
@[simp] theorem setPart_fes (s : State) (k : Nat) (x : Part) : (s.setPart k x).fes = s.fes := rfl
@[simp] theorem setPart_vds (s : State) (k : Nat) (x : Part) : (s.setPart k x).vds = s.vds := rfl
@[simp] theorem setPart_members (s : State) (k : Nat) (x : Part) : (s.setPart k x).members = s.members := rfl
@[simp] theorem setPart_dies (s : State) (k : Nat) (x : Part) : (s.setPart k x).dies = s.dies := rfl
@[simp] theorem setPart_walks (s : State) (k : Nat) (x : Part) : (s.setPart k x).walks = s.walks := rfl
@[simp] theorem setPart_pageReqs (s : State) (k : Nat) (x : Part) : (s.setPart k x).pageReqs = s.pageReqs := rfl
@[simp] theorem setPart_wanted (s : State) (k : Nat) (x : Part) : (s.setPart k x).wanted = s.wanted := rfl
@[simp] theorem setPart_pages (s : State) (k : Nat) (x : Part) : (s.setPart k x).pages = s.pages := rfl
@[simp] theorem setPart_commands (s : State) (k : Nat) (x : Part) : (s.setPart k x).commands = s.commands := rfl
@[simp] theorem setPart_code (s : State) (k : Nat) (x : Part) : (s.setPart k x).code = s.code := rfl
@[simp] theorem setPart_fabric (s : State) (k : Nat) (x : Part) : (s.setPart k x).fabric = s.fabric := rfl
@[simp] theorem setPart_outbox (s : State) (k : Nat) (x : Part) : (s.setPart k x).outbox = s.outbox := rfl
@[simp] theorem setPart_answers (s : State) (k : Nat) (x : Part) : (s.setPart k x).answers = s.answers := rfl
@[simp] theorem setPart_genable (s : State) (k : Nat) (x : Part) : (s.setPart k x).genable = s.genable := rfl
@[simp] theorem setPart_boot (s : State) (k : Nat) (x : Part) : (s.setPart k x).boot = s.boot := rfl
@[simp] theorem setPart_respep (s : State) (k : Nat) (x : Part) : (s.setPart k x).respep = s.respep := rfl
@[simp] theorem setPart_bootFrom (s : State) (k : Nat) (x : Part) : (s.setPart k x).bootFrom = s.bootFrom := rfl
@[simp] theorem setPart_attest (s : State) (k : Nat) (x : Part) : (s.setPart k x).attest = s.attest := rfl
@[simp] theorem setPart_record (s : State) (k : Nat) (x : Part) : (s.setPart k x).record = s.record := rfl
@[simp] theorem setPart_alarm (s : State) (k : Nat) (x : Part) : (s.setPart k x).alarm = s.alarm := rfl
@[simp] theorem setPart_alarmSrc (s : State) (k : Nat) (x : Part) : (s.setPart k x).alarmSrc = s.alarmSrc := rfl
@[simp] theorem setPart_haltedAt (s : State) (k : Nat) (x : Part) : (s.setPart k x).haltedAt = s.haltedAt := rfl
@[simp] theorem setPart_haltArm (s : State) (k : Nat) (x : Part) : (s.setPart k x).haltArm = s.haltArm := rfl
@[simp] theorem setPart_eraseArm (s : State) (k : Nat) (x : Part) : (s.setPart k x).eraseArm = s.eraseArm := rfl
@[simp] theorem setPart_keysErased (s : State) (k : Nat) (x : Part) : (s.setPart k x).keysErased = s.keysErased := rfl
@[simp] theorem setPart_selfTest (s : State) (k : Nat) (x : Part) : (s.setPart k x).selfTest = s.selfTest := rfl

/-! ### `State.setVd`: the registers of a virtual device -/

@[simp] theorem setVd_clock (s : State) (f v : Nat) (x : Vd) : (s.setVd f v x).clock = s.clock := rfl
@[simp] theorem setVd_agenda (s : State) (f v : Nat) (x : Vd) : (s.setVd f v x).agenda = s.agenda := rfl
@[simp] theorem setVd_cur (s : State) (f v : Nat) (x : Vd) : (s.setVd f v x).cur = s.cur := rfl
@[simp] theorem setVd_freeCtr (s : State) (f v : Nat) (x : Vd) : (s.setVd f v x).freeCtr = s.freeCtr := rfl
@[simp] theorem setVd_serial (s : State) (f v : Nat) (x : Vd) : (s.setVd f v x).serial = s.serial := rfl
@[simp] theorem setVd_mem (s : State) (f v : Nat) (x : Vd) : (s.setVd f v x).mem = s.mem := rfl
@[simp] theorem setVd_areas (s : State) (f v : Nat) (x : Vd) : (s.setVd f v x).areas = s.areas := rfl
@[simp] theorem setVd_memBad (s : State) (f v : Nat) (x : Vd) : (s.setVd f v x).memBad = s.memBad := rfl
@[simp] theorem setVd_mscBad (s : State) (f v : Nat) (x : Vd) : (s.setVd f v x).mscBad = s.mscBad := rfl
@[simp] theorem setVd_msc (s : State) (f v : Nat) (x : Vd) : (s.setVd f v x).msc = s.msc := rfl
@[simp] theorem setVd_l2 (s : State) (f v : Nat) (x : Vd) : (s.setVd f v x).l2 = s.l2 := rfl
@[simp] theorem setVd_cores (s : State) (f v : Nat) (x : Vd) : (s.setVd f v x).cores = s.cores := rfl
@[simp] theorem setVd_clusterTlb (s : State) (f v : Nat) (x : Vd) : (s.setVd f v x).clusterTlb = s.clusterTlb := rfl
@[simp] theorem setVd_tenders (s : State) (f v : Nat) (x : Vd) : (s.setVd f v x).tenders = s.tenders := rfl
@[simp] theorem setVd_pairs (s : State) (f v : Nat) (x : Vd) : (s.setVd f v x).pairs = s.pairs := rfl
@[simp] theorem setVd_kqueues (s : State) (f v : Nat) (x : Vd) : (s.setVd f v x).kqueues = s.kqueues := rfl
@[simp] theorem setVd_ejected (s : State) (f v : Nat) (x : Vd) : (s.setVd f v x).ejected = s.ejected := rfl
@[simp] theorem setVd_supers (s : State) (f v : Nat) (x : Vd) : (s.setVd f v x).supers = s.supers := rfl
@[simp] theorem setVd_fes (s : State) (f v : Nat) (x : Vd) : (s.setVd f v x).fes = s.fes := rfl
@[simp] theorem setVd_parts (s : State) (f v : Nat) (x : Vd) : (s.setVd f v x).parts = s.parts := rfl
@[simp] theorem setVd_members (s : State) (f v : Nat) (x : Vd) : (s.setVd f v x).members = s.members := rfl
@[simp] theorem setVd_dies (s : State) (f v : Nat) (x : Vd) : (s.setVd f v x).dies = s.dies := rfl
@[simp] theorem setVd_walks (s : State) (f v : Nat) (x : Vd) : (s.setVd f v x).walks = s.walks := rfl
@[simp] theorem setVd_pageReqs (s : State) (f v : Nat) (x : Vd) : (s.setVd f v x).pageReqs = s.pageReqs := rfl
@[simp] theorem setVd_wanted (s : State) (f v : Nat) (x : Vd) : (s.setVd f v x).wanted = s.wanted := rfl
@[simp] theorem setVd_pages (s : State) (f v : Nat) (x : Vd) : (s.setVd f v x).pages = s.pages := rfl
@[simp] theorem setVd_commands (s : State) (f v : Nat) (x : Vd) : (s.setVd f v x).commands = s.commands := rfl
@[simp] theorem setVd_code (s : State) (f v : Nat) (x : Vd) : (s.setVd f v x).code = s.code := rfl
@[simp] theorem setVd_fabric (s : State) (f v : Nat) (x : Vd) : (s.setVd f v x).fabric = s.fabric := rfl
@[simp] theorem setVd_outbox (s : State) (f v : Nat) (x : Vd) : (s.setVd f v x).outbox = s.outbox := rfl
@[simp] theorem setVd_answers (s : State) (f v : Nat) (x : Vd) : (s.setVd f v x).answers = s.answers := rfl
@[simp] theorem setVd_genable (s : State) (f v : Nat) (x : Vd) : (s.setVd f v x).genable = s.genable := rfl
@[simp] theorem setVd_boot (s : State) (f v : Nat) (x : Vd) : (s.setVd f v x).boot = s.boot := rfl
@[simp] theorem setVd_respep (s : State) (f v : Nat) (x : Vd) : (s.setVd f v x).respep = s.respep := rfl
@[simp] theorem setVd_bootFrom (s : State) (f v : Nat) (x : Vd) : (s.setVd f v x).bootFrom = s.bootFrom := rfl
@[simp] theorem setVd_attest (s : State) (f v : Nat) (x : Vd) : (s.setVd f v x).attest = s.attest := rfl
@[simp] theorem setVd_record (s : State) (f v : Nat) (x : Vd) : (s.setVd f v x).record = s.record := rfl
@[simp] theorem setVd_alarm (s : State) (f v : Nat) (x : Vd) : (s.setVd f v x).alarm = s.alarm := rfl
@[simp] theorem setVd_alarmSrc (s : State) (f v : Nat) (x : Vd) : (s.setVd f v x).alarmSrc = s.alarmSrc := rfl
@[simp] theorem setVd_haltedAt (s : State) (f v : Nat) (x : Vd) : (s.setVd f v x).haltedAt = s.haltedAt := rfl
@[simp] theorem setVd_haltArm (s : State) (f v : Nat) (x : Vd) : (s.setVd f v x).haltArm = s.haltArm := rfl
@[simp] theorem setVd_eraseArm (s : State) (f v : Nat) (x : Vd) : (s.setVd f v x).eraseArm = s.eraseArm := rfl
@[simp] theorem setVd_keysErased (s : State) (f v : Nat) (x : Vd) : (s.setVd f v x).keysErased = s.keysErased := rfl
@[simp] theorem setVd_selfTest (s : State) (f v : Nat) (x : Vd) : (s.setVd f v x).selfTest = s.selfTest := rfl

/-! ### `State.setDie`: a die -/

@[simp] theorem setDie_clock (s : State) (k : Nat) (x : Die) : (s.setDie k x).clock = s.clock := rfl
@[simp] theorem setDie_agenda (s : State) (k : Nat) (x : Die) : (s.setDie k x).agenda = s.agenda := rfl
@[simp] theorem setDie_cur (s : State) (k : Nat) (x : Die) : (s.setDie k x).cur = s.cur := rfl
@[simp] theorem setDie_freeCtr (s : State) (k : Nat) (x : Die) : (s.setDie k x).freeCtr = s.freeCtr := rfl
@[simp] theorem setDie_serial (s : State) (k : Nat) (x : Die) : (s.setDie k x).serial = s.serial := rfl
@[simp] theorem setDie_mem (s : State) (k : Nat) (x : Die) : (s.setDie k x).mem = s.mem := rfl
@[simp] theorem setDie_areas (s : State) (k : Nat) (x : Die) : (s.setDie k x).areas = s.areas := rfl
@[simp] theorem setDie_memBad (s : State) (k : Nat) (x : Die) : (s.setDie k x).memBad = s.memBad := rfl
@[simp] theorem setDie_mscBad (s : State) (k : Nat) (x : Die) : (s.setDie k x).mscBad = s.mscBad := rfl
@[simp] theorem setDie_msc (s : State) (k : Nat) (x : Die) : (s.setDie k x).msc = s.msc := rfl
@[simp] theorem setDie_l2 (s : State) (k : Nat) (x : Die) : (s.setDie k x).l2 = s.l2 := rfl
@[simp] theorem setDie_cores (s : State) (k : Nat) (x : Die) : (s.setDie k x).cores = s.cores := rfl
@[simp] theorem setDie_clusterTlb (s : State) (k : Nat) (x : Die) : (s.setDie k x).clusterTlb = s.clusterTlb := rfl
@[simp] theorem setDie_tenders (s : State) (k : Nat) (x : Die) : (s.setDie k x).tenders = s.tenders := rfl
@[simp] theorem setDie_pairs (s : State) (k : Nat) (x : Die) : (s.setDie k x).pairs = s.pairs := rfl
@[simp] theorem setDie_kqueues (s : State) (k : Nat) (x : Die) : (s.setDie k x).kqueues = s.kqueues := rfl
@[simp] theorem setDie_ejected (s : State) (k : Nat) (x : Die) : (s.setDie k x).ejected = s.ejected := rfl
@[simp] theorem setDie_supers (s : State) (k : Nat) (x : Die) : (s.setDie k x).supers = s.supers := rfl
@[simp] theorem setDie_fes (s : State) (k : Nat) (x : Die) : (s.setDie k x).fes = s.fes := rfl
@[simp] theorem setDie_parts (s : State) (k : Nat) (x : Die) : (s.setDie k x).parts = s.parts := rfl
@[simp] theorem setDie_vds (s : State) (k : Nat) (x : Die) : (s.setDie k x).vds = s.vds := rfl
@[simp] theorem setDie_members (s : State) (k : Nat) (x : Die) : (s.setDie k x).members = s.members := rfl
@[simp] theorem setDie_walks (s : State) (k : Nat) (x : Die) : (s.setDie k x).walks = s.walks := rfl
@[simp] theorem setDie_pageReqs (s : State) (k : Nat) (x : Die) : (s.setDie k x).pageReqs = s.pageReqs := rfl
@[simp] theorem setDie_wanted (s : State) (k : Nat) (x : Die) : (s.setDie k x).wanted = s.wanted := rfl
@[simp] theorem setDie_pages (s : State) (k : Nat) (x : Die) : (s.setDie k x).pages = s.pages := rfl
@[simp] theorem setDie_commands (s : State) (k : Nat) (x : Die) : (s.setDie k x).commands = s.commands := rfl
@[simp] theorem setDie_code (s : State) (k : Nat) (x : Die) : (s.setDie k x).code = s.code := rfl
@[simp] theorem setDie_fabric (s : State) (k : Nat) (x : Die) : (s.setDie k x).fabric = s.fabric := rfl
@[simp] theorem setDie_outbox (s : State) (k : Nat) (x : Die) : (s.setDie k x).outbox = s.outbox := rfl
@[simp] theorem setDie_answers (s : State) (k : Nat) (x : Die) : (s.setDie k x).answers = s.answers := rfl
@[simp] theorem setDie_genable (s : State) (k : Nat) (x : Die) : (s.setDie k x).genable = s.genable := rfl
@[simp] theorem setDie_boot (s : State) (k : Nat) (x : Die) : (s.setDie k x).boot = s.boot := rfl
@[simp] theorem setDie_respep (s : State) (k : Nat) (x : Die) : (s.setDie k x).respep = s.respep := rfl
@[simp] theorem setDie_bootFrom (s : State) (k : Nat) (x : Die) : (s.setDie k x).bootFrom = s.bootFrom := rfl
@[simp] theorem setDie_attest (s : State) (k : Nat) (x : Die) : (s.setDie k x).attest = s.attest := rfl
@[simp] theorem setDie_record (s : State) (k : Nat) (x : Die) : (s.setDie k x).record = s.record := rfl
@[simp] theorem setDie_alarm (s : State) (k : Nat) (x : Die) : (s.setDie k x).alarm = s.alarm := rfl
@[simp] theorem setDie_alarmSrc (s : State) (k : Nat) (x : Die) : (s.setDie k x).alarmSrc = s.alarmSrc := rfl
@[simp] theorem setDie_haltedAt (s : State) (k : Nat) (x : Die) : (s.setDie k x).haltedAt = s.haltedAt := rfl
@[simp] theorem setDie_haltArm (s : State) (k : Nat) (x : Die) : (s.setDie k x).haltArm = s.haltArm := rfl
@[simp] theorem setDie_eraseArm (s : State) (k : Nat) (x : Die) : (s.setDie k x).eraseArm = s.eraseArm := rfl
@[simp] theorem setDie_keysErased (s : State) (k : Nat) (x : Die) : (s.setDie k x).keysErased = s.keysErased := rfl
@[simp] theorem setDie_selfTest (s : State) (k : Nat) (x : Die) : (s.setDie k x).selfTest = s.selfTest := rfl

/-! ### `State.setMember`: a member table -/

@[simp] theorem setMember_clock (s : State) (d v x : Nat) (m : Member) : (s.setMember d v x m).clock = s.clock := rfl
@[simp] theorem setMember_agenda (s : State) (d v x : Nat) (m : Member) : (s.setMember d v x m).agenda = s.agenda := rfl
@[simp] theorem setMember_cur (s : State) (d v x : Nat) (m : Member) : (s.setMember d v x m).cur = s.cur := rfl
@[simp] theorem setMember_freeCtr (s : State) (d v x : Nat) (m : Member) : (s.setMember d v x m).freeCtr = s.freeCtr := rfl
@[simp] theorem setMember_serial (s : State) (d v x : Nat) (m : Member) : (s.setMember d v x m).serial = s.serial := rfl
@[simp] theorem setMember_mem (s : State) (d v x : Nat) (m : Member) : (s.setMember d v x m).mem = s.mem := rfl
@[simp] theorem setMember_areas (s : State) (d v x : Nat) (m : Member) : (s.setMember d v x m).areas = s.areas := rfl
@[simp] theorem setMember_memBad (s : State) (d v x : Nat) (m : Member) : (s.setMember d v x m).memBad = s.memBad := rfl
@[simp] theorem setMember_mscBad (s : State) (d v x : Nat) (m : Member) : (s.setMember d v x m).mscBad = s.mscBad := rfl
@[simp] theorem setMember_msc (s : State) (d v x : Nat) (m : Member) : (s.setMember d v x m).msc = s.msc := rfl
@[simp] theorem setMember_l2 (s : State) (d v x : Nat) (m : Member) : (s.setMember d v x m).l2 = s.l2 := rfl
@[simp] theorem setMember_cores (s : State) (d v x : Nat) (m : Member) : (s.setMember d v x m).cores = s.cores := rfl
@[simp] theorem setMember_clusterTlb (s : State) (d v x : Nat) (m : Member) : (s.setMember d v x m).clusterTlb = s.clusterTlb := rfl
@[simp] theorem setMember_tenders (s : State) (d v x : Nat) (m : Member) : (s.setMember d v x m).tenders = s.tenders := rfl
@[simp] theorem setMember_pairs (s : State) (d v x : Nat) (m : Member) : (s.setMember d v x m).pairs = s.pairs := rfl
@[simp] theorem setMember_kqueues (s : State) (d v x : Nat) (m : Member) : (s.setMember d v x m).kqueues = s.kqueues := rfl
@[simp] theorem setMember_ejected (s : State) (d v x : Nat) (m : Member) : (s.setMember d v x m).ejected = s.ejected := rfl
@[simp] theorem setMember_supers (s : State) (d v x : Nat) (m : Member) : (s.setMember d v x m).supers = s.supers := rfl
@[simp] theorem setMember_fes (s : State) (d v x : Nat) (m : Member) : (s.setMember d v x m).fes = s.fes := rfl
@[simp] theorem setMember_parts (s : State) (d v x : Nat) (m : Member) : (s.setMember d v x m).parts = s.parts := rfl
@[simp] theorem setMember_vds (s : State) (d v x : Nat) (m : Member) : (s.setMember d v x m).vds = s.vds := rfl
@[simp] theorem setMember_dies (s : State) (d v x : Nat) (m : Member) : (s.setMember d v x m).dies = s.dies := rfl
@[simp] theorem setMember_walks (s : State) (d v x : Nat) (m : Member) : (s.setMember d v x m).walks = s.walks := rfl
@[simp] theorem setMember_pageReqs (s : State) (d v x : Nat) (m : Member) : (s.setMember d v x m).pageReqs = s.pageReqs := rfl
@[simp] theorem setMember_wanted (s : State) (d v x : Nat) (m : Member) : (s.setMember d v x m).wanted = s.wanted := rfl
@[simp] theorem setMember_pages (s : State) (d v x : Nat) (m : Member) : (s.setMember d v x m).pages = s.pages := rfl
@[simp] theorem setMember_commands (s : State) (d v x : Nat) (m : Member) : (s.setMember d v x m).commands = s.commands := rfl
@[simp] theorem setMember_code (s : State) (d v x : Nat) (m : Member) : (s.setMember d v x m).code = s.code := rfl
@[simp] theorem setMember_fabric (s : State) (d v x : Nat) (m : Member) : (s.setMember d v x m).fabric = s.fabric := rfl
@[simp] theorem setMember_outbox (s : State) (d v x : Nat) (m : Member) : (s.setMember d v x m).outbox = s.outbox := rfl
@[simp] theorem setMember_answers (s : State) (d v x : Nat) (m : Member) : (s.setMember d v x m).answers = s.answers := rfl
@[simp] theorem setMember_genable (s : State) (d v x : Nat) (m : Member) : (s.setMember d v x m).genable = s.genable := rfl
@[simp] theorem setMember_boot (s : State) (d v x : Nat) (m : Member) : (s.setMember d v x m).boot = s.boot := rfl
@[simp] theorem setMember_respep (s : State) (d v x : Nat) (m : Member) : (s.setMember d v x m).respep = s.respep := rfl
@[simp] theorem setMember_bootFrom (s : State) (d v x : Nat) (m : Member) : (s.setMember d v x m).bootFrom = s.bootFrom := rfl
@[simp] theorem setMember_attest (s : State) (d v x : Nat) (m : Member) : (s.setMember d v x m).attest = s.attest := rfl
@[simp] theorem setMember_record (s : State) (d v x : Nat) (m : Member) : (s.setMember d v x m).record = s.record := rfl
@[simp] theorem setMember_alarm (s : State) (d v x : Nat) (m : Member) : (s.setMember d v x m).alarm = s.alarm := rfl
@[simp] theorem setMember_alarmSrc (s : State) (d v x : Nat) (m : Member) : (s.setMember d v x m).alarmSrc = s.alarmSrc := rfl
@[simp] theorem setMember_haltedAt (s : State) (d v x : Nat) (m : Member) : (s.setMember d v x m).haltedAt = s.haltedAt := rfl
@[simp] theorem setMember_haltArm (s : State) (d v x : Nat) (m : Member) : (s.setMember d v x m).haltArm = s.haltArm := rfl
@[simp] theorem setMember_eraseArm (s : State) (d v x : Nat) (m : Member) : (s.setMember d v x m).eraseArm = s.eraseArm := rfl
@[simp] theorem setMember_keysErased (s : State) (d v x : Nat) (m : Member) : (s.setMember d v x m).keysErased = s.keysErased := rfl
@[simp] theorem setMember_selfTest (s : State) (d v x : Nat) (m : Member) : (s.setMember d v x m).selfTest = s.selfTest := rfl

/-! ### `State.setSlice`: a slice -/

@[simp] theorem setSlice_clock (s : State) (k : Nat) (x : Tbl L2Line) : (s.setSlice k x).clock = s.clock := rfl
@[simp] theorem setSlice_agenda (s : State) (k : Nat) (x : Tbl L2Line) : (s.setSlice k x).agenda = s.agenda := rfl
@[simp] theorem setSlice_cur (s : State) (k : Nat) (x : Tbl L2Line) : (s.setSlice k x).cur = s.cur := rfl
@[simp] theorem setSlice_freeCtr (s : State) (k : Nat) (x : Tbl L2Line) : (s.setSlice k x).freeCtr = s.freeCtr := rfl
@[simp] theorem setSlice_serial (s : State) (k : Nat) (x : Tbl L2Line) : (s.setSlice k x).serial = s.serial := rfl
@[simp] theorem setSlice_mem (s : State) (k : Nat) (x : Tbl L2Line) : (s.setSlice k x).mem = s.mem := rfl
@[simp] theorem setSlice_areas (s : State) (k : Nat) (x : Tbl L2Line) : (s.setSlice k x).areas = s.areas := rfl
@[simp] theorem setSlice_memBad (s : State) (k : Nat) (x : Tbl L2Line) : (s.setSlice k x).memBad = s.memBad := rfl
@[simp] theorem setSlice_mscBad (s : State) (k : Nat) (x : Tbl L2Line) : (s.setSlice k x).mscBad = s.mscBad := rfl
@[simp] theorem setSlice_msc (s : State) (k : Nat) (x : Tbl L2Line) : (s.setSlice k x).msc = s.msc := rfl
@[simp] theorem setSlice_cores (s : State) (k : Nat) (x : Tbl L2Line) : (s.setSlice k x).cores = s.cores := rfl
@[simp] theorem setSlice_clusterTlb (s : State) (k : Nat) (x : Tbl L2Line) : (s.setSlice k x).clusterTlb = s.clusterTlb := rfl
@[simp] theorem setSlice_tenders (s : State) (k : Nat) (x : Tbl L2Line) : (s.setSlice k x).tenders = s.tenders := rfl
@[simp] theorem setSlice_pairs (s : State) (k : Nat) (x : Tbl L2Line) : (s.setSlice k x).pairs = s.pairs := rfl
@[simp] theorem setSlice_kqueues (s : State) (k : Nat) (x : Tbl L2Line) : (s.setSlice k x).kqueues = s.kqueues := rfl
@[simp] theorem setSlice_ejected (s : State) (k : Nat) (x : Tbl L2Line) : (s.setSlice k x).ejected = s.ejected := rfl
@[simp] theorem setSlice_supers (s : State) (k : Nat) (x : Tbl L2Line) : (s.setSlice k x).supers = s.supers := rfl
@[simp] theorem setSlice_fes (s : State) (k : Nat) (x : Tbl L2Line) : (s.setSlice k x).fes = s.fes := rfl
@[simp] theorem setSlice_parts (s : State) (k : Nat) (x : Tbl L2Line) : (s.setSlice k x).parts = s.parts := rfl
@[simp] theorem setSlice_vds (s : State) (k : Nat) (x : Tbl L2Line) : (s.setSlice k x).vds = s.vds := rfl
@[simp] theorem setSlice_members (s : State) (k : Nat) (x : Tbl L2Line) : (s.setSlice k x).members = s.members := rfl
@[simp] theorem setSlice_dies (s : State) (k : Nat) (x : Tbl L2Line) : (s.setSlice k x).dies = s.dies := rfl
@[simp] theorem setSlice_walks (s : State) (k : Nat) (x : Tbl L2Line) : (s.setSlice k x).walks = s.walks := rfl
@[simp] theorem setSlice_pageReqs (s : State) (k : Nat) (x : Tbl L2Line) : (s.setSlice k x).pageReqs = s.pageReqs := rfl
@[simp] theorem setSlice_wanted (s : State) (k : Nat) (x : Tbl L2Line) : (s.setSlice k x).wanted = s.wanted := rfl
@[simp] theorem setSlice_pages (s : State) (k : Nat) (x : Tbl L2Line) : (s.setSlice k x).pages = s.pages := rfl
@[simp] theorem setSlice_commands (s : State) (k : Nat) (x : Tbl L2Line) : (s.setSlice k x).commands = s.commands := rfl
@[simp] theorem setSlice_code (s : State) (k : Nat) (x : Tbl L2Line) : (s.setSlice k x).code = s.code := rfl
@[simp] theorem setSlice_fabric (s : State) (k : Nat) (x : Tbl L2Line) : (s.setSlice k x).fabric = s.fabric := rfl
@[simp] theorem setSlice_outbox (s : State) (k : Nat) (x : Tbl L2Line) : (s.setSlice k x).outbox = s.outbox := rfl
@[simp] theorem setSlice_answers (s : State) (k : Nat) (x : Tbl L2Line) : (s.setSlice k x).answers = s.answers := rfl
@[simp] theorem setSlice_genable (s : State) (k : Nat) (x : Tbl L2Line) : (s.setSlice k x).genable = s.genable := rfl
@[simp] theorem setSlice_boot (s : State) (k : Nat) (x : Tbl L2Line) : (s.setSlice k x).boot = s.boot := rfl
@[simp] theorem setSlice_respep (s : State) (k : Nat) (x : Tbl L2Line) : (s.setSlice k x).respep = s.respep := rfl
@[simp] theorem setSlice_bootFrom (s : State) (k : Nat) (x : Tbl L2Line) : (s.setSlice k x).bootFrom = s.bootFrom := rfl
@[simp] theorem setSlice_attest (s : State) (k : Nat) (x : Tbl L2Line) : (s.setSlice k x).attest = s.attest := rfl
@[simp] theorem setSlice_record (s : State) (k : Nat) (x : Tbl L2Line) : (s.setSlice k x).record = s.record := rfl
@[simp] theorem setSlice_alarm (s : State) (k : Nat) (x : Tbl L2Line) : (s.setSlice k x).alarm = s.alarm := rfl
@[simp] theorem setSlice_alarmSrc (s : State) (k : Nat) (x : Tbl L2Line) : (s.setSlice k x).alarmSrc = s.alarmSrc := rfl
@[simp] theorem setSlice_haltedAt (s : State) (k : Nat) (x : Tbl L2Line) : (s.setSlice k x).haltedAt = s.haltedAt := rfl
@[simp] theorem setSlice_haltArm (s : State) (k : Nat) (x : Tbl L2Line) : (s.setSlice k x).haltArm = s.haltArm := rfl
@[simp] theorem setSlice_eraseArm (s : State) (k : Nat) (x : Tbl L2Line) : (s.setSlice k x).eraseArm = s.eraseArm := rfl
@[simp] theorem setSlice_keysErased (s : State) (k : Nat) (x : Tbl L2Line) : (s.setSlice k x).keysErased = s.keysErased := rfl
@[simp] theorem setSlice_selfTest (s : State) (k : Nat) (x : Tbl L2Line) : (s.setSlice k x).selfTest = s.selfTest := rfl

/-! ### `State.setQueue`: a hardware queue -/

@[simp] theorem setQueue_clock (s : State) (f q : Nat) (x : Queue) : (s.setQueue f q x).clock = s.clock := rfl
@[simp] theorem setQueue_agenda (s : State) (f q : Nat) (x : Queue) : (s.setQueue f q x).agenda = s.agenda := rfl
@[simp] theorem setQueue_cur (s : State) (f q : Nat) (x : Queue) : (s.setQueue f q x).cur = s.cur := rfl
@[simp] theorem setQueue_freeCtr (s : State) (f q : Nat) (x : Queue) : (s.setQueue f q x).freeCtr = s.freeCtr := rfl
@[simp] theorem setQueue_serial (s : State) (f q : Nat) (x : Queue) : (s.setQueue f q x).serial = s.serial := rfl
@[simp] theorem setQueue_mem (s : State) (f q : Nat) (x : Queue) : (s.setQueue f q x).mem = s.mem := rfl
@[simp] theorem setQueue_areas (s : State) (f q : Nat) (x : Queue) : (s.setQueue f q x).areas = s.areas := rfl
@[simp] theorem setQueue_memBad (s : State) (f q : Nat) (x : Queue) : (s.setQueue f q x).memBad = s.memBad := rfl
@[simp] theorem setQueue_mscBad (s : State) (f q : Nat) (x : Queue) : (s.setQueue f q x).mscBad = s.mscBad := rfl
@[simp] theorem setQueue_msc (s : State) (f q : Nat) (x : Queue) : (s.setQueue f q x).msc = s.msc := rfl
@[simp] theorem setQueue_l2 (s : State) (f q : Nat) (x : Queue) : (s.setQueue f q x).l2 = s.l2 := rfl
@[simp] theorem setQueue_cores (s : State) (f q : Nat) (x : Queue) : (s.setQueue f q x).cores = s.cores := rfl
@[simp] theorem setQueue_clusterTlb (s : State) (f q : Nat) (x : Queue) : (s.setQueue f q x).clusterTlb = s.clusterTlb := rfl
@[simp] theorem setQueue_tenders (s : State) (f q : Nat) (x : Queue) : (s.setQueue f q x).tenders = s.tenders := rfl
@[simp] theorem setQueue_pairs (s : State) (f q : Nat) (x : Queue) : (s.setQueue f q x).pairs = s.pairs := rfl
@[simp] theorem setQueue_kqueues (s : State) (f q : Nat) (x : Queue) : (s.setQueue f q x).kqueues = s.kqueues := rfl
@[simp] theorem setQueue_ejected (s : State) (f q : Nat) (x : Queue) : (s.setQueue f q x).ejected = s.ejected := rfl
@[simp] theorem setQueue_supers (s : State) (f q : Nat) (x : Queue) : (s.setQueue f q x).supers = s.supers := rfl
@[simp] theorem setQueue_parts (s : State) (f q : Nat) (x : Queue) : (s.setQueue f q x).parts = s.parts := rfl
@[simp] theorem setQueue_vds (s : State) (f q : Nat) (x : Queue) : (s.setQueue f q x).vds = s.vds := rfl
@[simp] theorem setQueue_members (s : State) (f q : Nat) (x : Queue) : (s.setQueue f q x).members = s.members := rfl
@[simp] theorem setQueue_dies (s : State) (f q : Nat) (x : Queue) : (s.setQueue f q x).dies = s.dies := rfl
@[simp] theorem setQueue_walks (s : State) (f q : Nat) (x : Queue) : (s.setQueue f q x).walks = s.walks := rfl
@[simp] theorem setQueue_pageReqs (s : State) (f q : Nat) (x : Queue) : (s.setQueue f q x).pageReqs = s.pageReqs := rfl
@[simp] theorem setQueue_wanted (s : State) (f q : Nat) (x : Queue) : (s.setQueue f q x).wanted = s.wanted := rfl
@[simp] theorem setQueue_pages (s : State) (f q : Nat) (x : Queue) : (s.setQueue f q x).pages = s.pages := rfl
@[simp] theorem setQueue_commands (s : State) (f q : Nat) (x : Queue) : (s.setQueue f q x).commands = s.commands := rfl
@[simp] theorem setQueue_code (s : State) (f q : Nat) (x : Queue) : (s.setQueue f q x).code = s.code := rfl
@[simp] theorem setQueue_fabric (s : State) (f q : Nat) (x : Queue) : (s.setQueue f q x).fabric = s.fabric := rfl
@[simp] theorem setQueue_outbox (s : State) (f q : Nat) (x : Queue) : (s.setQueue f q x).outbox = s.outbox := rfl
@[simp] theorem setQueue_answers (s : State) (f q : Nat) (x : Queue) : (s.setQueue f q x).answers = s.answers := rfl
@[simp] theorem setQueue_genable (s : State) (f q : Nat) (x : Queue) : (s.setQueue f q x).genable = s.genable := rfl
@[simp] theorem setQueue_boot (s : State) (f q : Nat) (x : Queue) : (s.setQueue f q x).boot = s.boot := rfl
@[simp] theorem setQueue_respep (s : State) (f q : Nat) (x : Queue) : (s.setQueue f q x).respep = s.respep := rfl
@[simp] theorem setQueue_bootFrom (s : State) (f q : Nat) (x : Queue) : (s.setQueue f q x).bootFrom = s.bootFrom := rfl
@[simp] theorem setQueue_attest (s : State) (f q : Nat) (x : Queue) : (s.setQueue f q x).attest = s.attest := rfl
@[simp] theorem setQueue_record (s : State) (f q : Nat) (x : Queue) : (s.setQueue f q x).record = s.record := rfl
@[simp] theorem setQueue_alarm (s : State) (f q : Nat) (x : Queue) : (s.setQueue f q x).alarm = s.alarm := rfl
@[simp] theorem setQueue_alarmSrc (s : State) (f q : Nat) (x : Queue) : (s.setQueue f q x).alarmSrc = s.alarmSrc := rfl
@[simp] theorem setQueue_haltedAt (s : State) (f q : Nat) (x : Queue) : (s.setQueue f q x).haltedAt = s.haltedAt := rfl
@[simp] theorem setQueue_haltArm (s : State) (f q : Nat) (x : Queue) : (s.setQueue f q x).haltArm = s.haltArm := rfl
@[simp] theorem setQueue_eraseArm (s : State) (f q : Nat) (x : Queue) : (s.setQueue f q x).eraseArm = s.eraseArm := rfl
@[simp] theorem setQueue_keysErased (s : State) (f q : Nat) (x : Queue) : (s.setQueue f q x).keysErased = s.keysErased := rfl
@[simp] theorem setQueue_selfTest (s : State) (f q : Nat) (x : Queue) : (s.setQueue f q x).selfTest = s.selfTest := rfl

/-! ### `State.setBlock`: the block of a core -/

@[simp] theorem setBlock_clock (s : State) (k : Nat) (x : Block) : (s.setBlock k x).clock = s.clock := rfl
@[simp] theorem setBlock_agenda (s : State) (k : Nat) (x : Block) : (s.setBlock k x).agenda = s.agenda := rfl
@[simp] theorem setBlock_cur (s : State) (k : Nat) (x : Block) : (s.setBlock k x).cur = s.cur := rfl
@[simp] theorem setBlock_freeCtr (s : State) (k : Nat) (x : Block) : (s.setBlock k x).freeCtr = s.freeCtr := rfl
@[simp] theorem setBlock_serial (s : State) (k : Nat) (x : Block) : (s.setBlock k x).serial = s.serial := rfl
@[simp] theorem setBlock_mem (s : State) (k : Nat) (x : Block) : (s.setBlock k x).mem = s.mem := rfl
@[simp] theorem setBlock_areas (s : State) (k : Nat) (x : Block) : (s.setBlock k x).areas = s.areas := rfl
@[simp] theorem setBlock_memBad (s : State) (k : Nat) (x : Block) : (s.setBlock k x).memBad = s.memBad := rfl
@[simp] theorem setBlock_mscBad (s : State) (k : Nat) (x : Block) : (s.setBlock k x).mscBad = s.mscBad := rfl
@[simp] theorem setBlock_msc (s : State) (k : Nat) (x : Block) : (s.setBlock k x).msc = s.msc := rfl
@[simp] theorem setBlock_l2 (s : State) (k : Nat) (x : Block) : (s.setBlock k x).l2 = s.l2 := rfl
@[simp] theorem setBlock_clusterTlb (s : State) (k : Nat) (x : Block) : (s.setBlock k x).clusterTlb = s.clusterTlb := rfl
@[simp] theorem setBlock_tenders (s : State) (k : Nat) (x : Block) : (s.setBlock k x).tenders = s.tenders := rfl
@[simp] theorem setBlock_pairs (s : State) (k : Nat) (x : Block) : (s.setBlock k x).pairs = s.pairs := rfl
@[simp] theorem setBlock_kqueues (s : State) (k : Nat) (x : Block) : (s.setBlock k x).kqueues = s.kqueues := rfl
@[simp] theorem setBlock_ejected (s : State) (k : Nat) (x : Block) : (s.setBlock k x).ejected = s.ejected := rfl
@[simp] theorem setBlock_supers (s : State) (k : Nat) (x : Block) : (s.setBlock k x).supers = s.supers := rfl
@[simp] theorem setBlock_fes (s : State) (k : Nat) (x : Block) : (s.setBlock k x).fes = s.fes := rfl
@[simp] theorem setBlock_parts (s : State) (k : Nat) (x : Block) : (s.setBlock k x).parts = s.parts := rfl
@[simp] theorem setBlock_vds (s : State) (k : Nat) (x : Block) : (s.setBlock k x).vds = s.vds := rfl
@[simp] theorem setBlock_members (s : State) (k : Nat) (x : Block) : (s.setBlock k x).members = s.members := rfl
@[simp] theorem setBlock_dies (s : State) (k : Nat) (x : Block) : (s.setBlock k x).dies = s.dies := rfl
@[simp] theorem setBlock_walks (s : State) (k : Nat) (x : Block) : (s.setBlock k x).walks = s.walks := rfl
@[simp] theorem setBlock_pageReqs (s : State) (k : Nat) (x : Block) : (s.setBlock k x).pageReqs = s.pageReqs := rfl
@[simp] theorem setBlock_wanted (s : State) (k : Nat) (x : Block) : (s.setBlock k x).wanted = s.wanted := rfl
@[simp] theorem setBlock_pages (s : State) (k : Nat) (x : Block) : (s.setBlock k x).pages = s.pages := rfl
@[simp] theorem setBlock_commands (s : State) (k : Nat) (x : Block) : (s.setBlock k x).commands = s.commands := rfl
@[simp] theorem setBlock_code (s : State) (k : Nat) (x : Block) : (s.setBlock k x).code = s.code := rfl
@[simp] theorem setBlock_fabric (s : State) (k : Nat) (x : Block) : (s.setBlock k x).fabric = s.fabric := rfl
@[simp] theorem setBlock_outbox (s : State) (k : Nat) (x : Block) : (s.setBlock k x).outbox = s.outbox := rfl
@[simp] theorem setBlock_answers (s : State) (k : Nat) (x : Block) : (s.setBlock k x).answers = s.answers := rfl
@[simp] theorem setBlock_genable (s : State) (k : Nat) (x : Block) : (s.setBlock k x).genable = s.genable := rfl
@[simp] theorem setBlock_boot (s : State) (k : Nat) (x : Block) : (s.setBlock k x).boot = s.boot := rfl
@[simp] theorem setBlock_respep (s : State) (k : Nat) (x : Block) : (s.setBlock k x).respep = s.respep := rfl
@[simp] theorem setBlock_bootFrom (s : State) (k : Nat) (x : Block) : (s.setBlock k x).bootFrom = s.bootFrom := rfl
@[simp] theorem setBlock_attest (s : State) (k : Nat) (x : Block) : (s.setBlock k x).attest = s.attest := rfl
@[simp] theorem setBlock_record (s : State) (k : Nat) (x : Block) : (s.setBlock k x).record = s.record := rfl
@[simp] theorem setBlock_alarm (s : State) (k : Nat) (x : Block) : (s.setBlock k x).alarm = s.alarm := rfl
@[simp] theorem setBlock_alarmSrc (s : State) (k : Nat) (x : Block) : (s.setBlock k x).alarmSrc = s.alarmSrc := rfl
@[simp] theorem setBlock_haltedAt (s : State) (k : Nat) (x : Block) : (s.setBlock k x).haltedAt = s.haltedAt := rfl
@[simp] theorem setBlock_haltArm (s : State) (k : Nat) (x : Block) : (s.setBlock k x).haltArm = s.haltArm := rfl
@[simp] theorem setBlock_eraseArm (s : State) (k : Nat) (x : Block) : (s.setBlock k x).eraseArm = s.eraseArm := rfl
@[simp] theorem setBlock_keysErased (s : State) (k : Nat) (x : Block) : (s.setBlock k x).keysErased = s.keysErased := rfl
@[simp] theorem setBlock_selfTest (s : State) (k : Nat) (x : Block) : (s.setBlock k x).selfTest = s.selfTest := rfl

/-! ### `State.setEjected`: an ejected lane -/

@[simp] theorem setEjected_clock (s : State) (c t : Nat) (x : Ejected) : (s.setEjected c t x).clock = s.clock := rfl
@[simp] theorem setEjected_agenda (s : State) (c t : Nat) (x : Ejected) : (s.setEjected c t x).agenda = s.agenda := rfl
@[simp] theorem setEjected_cur (s : State) (c t : Nat) (x : Ejected) : (s.setEjected c t x).cur = s.cur := rfl
@[simp] theorem setEjected_freeCtr (s : State) (c t : Nat) (x : Ejected) : (s.setEjected c t x).freeCtr = s.freeCtr := rfl
@[simp] theorem setEjected_serial (s : State) (c t : Nat) (x : Ejected) : (s.setEjected c t x).serial = s.serial := rfl
@[simp] theorem setEjected_mem (s : State) (c t : Nat) (x : Ejected) : (s.setEjected c t x).mem = s.mem := rfl
@[simp] theorem setEjected_areas (s : State) (c t : Nat) (x : Ejected) : (s.setEjected c t x).areas = s.areas := rfl
@[simp] theorem setEjected_memBad (s : State) (c t : Nat) (x : Ejected) : (s.setEjected c t x).memBad = s.memBad := rfl
@[simp] theorem setEjected_mscBad (s : State) (c t : Nat) (x : Ejected) : (s.setEjected c t x).mscBad = s.mscBad := rfl
@[simp] theorem setEjected_msc (s : State) (c t : Nat) (x : Ejected) : (s.setEjected c t x).msc = s.msc := rfl
@[simp] theorem setEjected_l2 (s : State) (c t : Nat) (x : Ejected) : (s.setEjected c t x).l2 = s.l2 := rfl
@[simp] theorem setEjected_cores (s : State) (c t : Nat) (x : Ejected) : (s.setEjected c t x).cores = s.cores := rfl
@[simp] theorem setEjected_clusterTlb (s : State) (c t : Nat) (x : Ejected) : (s.setEjected c t x).clusterTlb = s.clusterTlb := rfl
@[simp] theorem setEjected_tenders (s : State) (c t : Nat) (x : Ejected) : (s.setEjected c t x).tenders = s.tenders := rfl
@[simp] theorem setEjected_pairs (s : State) (c t : Nat) (x : Ejected) : (s.setEjected c t x).pairs = s.pairs := rfl
@[simp] theorem setEjected_kqueues (s : State) (c t : Nat) (x : Ejected) : (s.setEjected c t x).kqueues = s.kqueues := rfl
@[simp] theorem setEjected_supers (s : State) (c t : Nat) (x : Ejected) : (s.setEjected c t x).supers = s.supers := rfl
@[simp] theorem setEjected_fes (s : State) (c t : Nat) (x : Ejected) : (s.setEjected c t x).fes = s.fes := rfl
@[simp] theorem setEjected_parts (s : State) (c t : Nat) (x : Ejected) : (s.setEjected c t x).parts = s.parts := rfl
@[simp] theorem setEjected_vds (s : State) (c t : Nat) (x : Ejected) : (s.setEjected c t x).vds = s.vds := rfl
@[simp] theorem setEjected_members (s : State) (c t : Nat) (x : Ejected) : (s.setEjected c t x).members = s.members := rfl
@[simp] theorem setEjected_dies (s : State) (c t : Nat) (x : Ejected) : (s.setEjected c t x).dies = s.dies := rfl
@[simp] theorem setEjected_walks (s : State) (c t : Nat) (x : Ejected) : (s.setEjected c t x).walks = s.walks := rfl
@[simp] theorem setEjected_pageReqs (s : State) (c t : Nat) (x : Ejected) : (s.setEjected c t x).pageReqs = s.pageReqs := rfl
@[simp] theorem setEjected_wanted (s : State) (c t : Nat) (x : Ejected) : (s.setEjected c t x).wanted = s.wanted := rfl
@[simp] theorem setEjected_pages (s : State) (c t : Nat) (x : Ejected) : (s.setEjected c t x).pages = s.pages := rfl
@[simp] theorem setEjected_commands (s : State) (c t : Nat) (x : Ejected) : (s.setEjected c t x).commands = s.commands := rfl
@[simp] theorem setEjected_code (s : State) (c t : Nat) (x : Ejected) : (s.setEjected c t x).code = s.code := rfl
@[simp] theorem setEjected_fabric (s : State) (c t : Nat) (x : Ejected) : (s.setEjected c t x).fabric = s.fabric := rfl
@[simp] theorem setEjected_outbox (s : State) (c t : Nat) (x : Ejected) : (s.setEjected c t x).outbox = s.outbox := rfl
@[simp] theorem setEjected_answers (s : State) (c t : Nat) (x : Ejected) : (s.setEjected c t x).answers = s.answers := rfl
@[simp] theorem setEjected_genable (s : State) (c t : Nat) (x : Ejected) : (s.setEjected c t x).genable = s.genable := rfl
@[simp] theorem setEjected_boot (s : State) (c t : Nat) (x : Ejected) : (s.setEjected c t x).boot = s.boot := rfl
@[simp] theorem setEjected_respep (s : State) (c t : Nat) (x : Ejected) : (s.setEjected c t x).respep = s.respep := rfl
@[simp] theorem setEjected_bootFrom (s : State) (c t : Nat) (x : Ejected) : (s.setEjected c t x).bootFrom = s.bootFrom := rfl
@[simp] theorem setEjected_attest (s : State) (c t : Nat) (x : Ejected) : (s.setEjected c t x).attest = s.attest := rfl
@[simp] theorem setEjected_record (s : State) (c t : Nat) (x : Ejected) : (s.setEjected c t x).record = s.record := rfl
@[simp] theorem setEjected_alarm (s : State) (c t : Nat) (x : Ejected) : (s.setEjected c t x).alarm = s.alarm := rfl
@[simp] theorem setEjected_alarmSrc (s : State) (c t : Nat) (x : Ejected) : (s.setEjected c t x).alarmSrc = s.alarmSrc := rfl
@[simp] theorem setEjected_haltedAt (s : State) (c t : Nat) (x : Ejected) : (s.setEjected c t x).haltedAt = s.haltedAt := rfl
@[simp] theorem setEjected_haltArm (s : State) (c t : Nat) (x : Ejected) : (s.setEjected c t x).haltArm = s.haltArm := rfl
@[simp] theorem setEjected_eraseArm (s : State) (c t : Nat) (x : Ejected) : (s.setEjected c t x).eraseArm = s.eraseArm := rfl
@[simp] theorem setEjected_keysErased (s : State) (c t : Nat) (x : Ejected) : (s.setEjected c t x).keysErased = s.keysErased := rfl
@[simp] theorem setEjected_selfTest (s : State) (c t : Nat) (x : Ejected) : (s.setEjected c t x).selfTest = s.selfTest := rfl

/-! ### `State.dropEjected`: an ejected lane, removed -/

@[simp] theorem dropEjected_clock (s : State) (c t : Nat) : (s.dropEjected c t).clock = s.clock := rfl
@[simp] theorem dropEjected_agenda (s : State) (c t : Nat) : (s.dropEjected c t).agenda = s.agenda := rfl
@[simp] theorem dropEjected_cur (s : State) (c t : Nat) : (s.dropEjected c t).cur = s.cur := rfl
@[simp] theorem dropEjected_freeCtr (s : State) (c t : Nat) : (s.dropEjected c t).freeCtr = s.freeCtr := rfl
@[simp] theorem dropEjected_serial (s : State) (c t : Nat) : (s.dropEjected c t).serial = s.serial := rfl
@[simp] theorem dropEjected_mem (s : State) (c t : Nat) : (s.dropEjected c t).mem = s.mem := rfl
@[simp] theorem dropEjected_areas (s : State) (c t : Nat) : (s.dropEjected c t).areas = s.areas := rfl
@[simp] theorem dropEjected_memBad (s : State) (c t : Nat) : (s.dropEjected c t).memBad = s.memBad := rfl
@[simp] theorem dropEjected_mscBad (s : State) (c t : Nat) : (s.dropEjected c t).mscBad = s.mscBad := rfl
@[simp] theorem dropEjected_msc (s : State) (c t : Nat) : (s.dropEjected c t).msc = s.msc := rfl
@[simp] theorem dropEjected_l2 (s : State) (c t : Nat) : (s.dropEjected c t).l2 = s.l2 := rfl
@[simp] theorem dropEjected_cores (s : State) (c t : Nat) : (s.dropEjected c t).cores = s.cores := rfl
@[simp] theorem dropEjected_clusterTlb (s : State) (c t : Nat) : (s.dropEjected c t).clusterTlb = s.clusterTlb := rfl
@[simp] theorem dropEjected_tenders (s : State) (c t : Nat) : (s.dropEjected c t).tenders = s.tenders := rfl
@[simp] theorem dropEjected_pairs (s : State) (c t : Nat) : (s.dropEjected c t).pairs = s.pairs := rfl
@[simp] theorem dropEjected_kqueues (s : State) (c t : Nat) : (s.dropEjected c t).kqueues = s.kqueues := rfl
@[simp] theorem dropEjected_supers (s : State) (c t : Nat) : (s.dropEjected c t).supers = s.supers := rfl
@[simp] theorem dropEjected_fes (s : State) (c t : Nat) : (s.dropEjected c t).fes = s.fes := rfl
@[simp] theorem dropEjected_parts (s : State) (c t : Nat) : (s.dropEjected c t).parts = s.parts := rfl
@[simp] theorem dropEjected_vds (s : State) (c t : Nat) : (s.dropEjected c t).vds = s.vds := rfl
@[simp] theorem dropEjected_members (s : State) (c t : Nat) : (s.dropEjected c t).members = s.members := rfl
@[simp] theorem dropEjected_dies (s : State) (c t : Nat) : (s.dropEjected c t).dies = s.dies := rfl
@[simp] theorem dropEjected_walks (s : State) (c t : Nat) : (s.dropEjected c t).walks = s.walks := rfl
@[simp] theorem dropEjected_pageReqs (s : State) (c t : Nat) : (s.dropEjected c t).pageReqs = s.pageReqs := rfl
@[simp] theorem dropEjected_wanted (s : State) (c t : Nat) : (s.dropEjected c t).wanted = s.wanted := rfl
@[simp] theorem dropEjected_pages (s : State) (c t : Nat) : (s.dropEjected c t).pages = s.pages := rfl
@[simp] theorem dropEjected_commands (s : State) (c t : Nat) : (s.dropEjected c t).commands = s.commands := rfl
@[simp] theorem dropEjected_code (s : State) (c t : Nat) : (s.dropEjected c t).code = s.code := rfl
@[simp] theorem dropEjected_fabric (s : State) (c t : Nat) : (s.dropEjected c t).fabric = s.fabric := rfl
@[simp] theorem dropEjected_outbox (s : State) (c t : Nat) : (s.dropEjected c t).outbox = s.outbox := rfl
@[simp] theorem dropEjected_answers (s : State) (c t : Nat) : (s.dropEjected c t).answers = s.answers := rfl
@[simp] theorem dropEjected_genable (s : State) (c t : Nat) : (s.dropEjected c t).genable = s.genable := rfl
@[simp] theorem dropEjected_boot (s : State) (c t : Nat) : (s.dropEjected c t).boot = s.boot := rfl
@[simp] theorem dropEjected_respep (s : State) (c t : Nat) : (s.dropEjected c t).respep = s.respep := rfl
@[simp] theorem dropEjected_bootFrom (s : State) (c t : Nat) : (s.dropEjected c t).bootFrom = s.bootFrom := rfl
@[simp] theorem dropEjected_attest (s : State) (c t : Nat) : (s.dropEjected c t).attest = s.attest := rfl
@[simp] theorem dropEjected_record (s : State) (c t : Nat) : (s.dropEjected c t).record = s.record := rfl
@[simp] theorem dropEjected_alarm (s : State) (c t : Nat) : (s.dropEjected c t).alarm = s.alarm := rfl
@[simp] theorem dropEjected_alarmSrc (s : State) (c t : Nat) : (s.dropEjected c t).alarmSrc = s.alarmSrc := rfl
@[simp] theorem dropEjected_haltedAt (s : State) (c t : Nat) : (s.dropEjected c t).haltedAt = s.haltedAt := rfl
@[simp] theorem dropEjected_haltArm (s : State) (c t : Nat) : (s.dropEjected c t).haltArm = s.haltArm := rfl
@[simp] theorem dropEjected_eraseArm (s : State) (c t : Nat) : (s.dropEjected c t).eraseArm = s.eraseArm := rfl
@[simp] theorem dropEjected_keysErased (s : State) (c t : Nat) : (s.dropEjected c t).keysErased = s.keysErased := rfl
@[simp] theorem dropEjected_selfTest (s : State) (c t : Nat) : (s.dropEjected c t).selfTest = s.selfTest := rfl

/-! ### `State.drawn`: a free value drawn -/

@[simp] theorem drawn_clock (s : State)  : (s.drawn).clock = s.clock := rfl
@[simp] theorem drawn_agenda (s : State)  : (s.drawn).agenda = s.agenda := rfl
@[simp] theorem drawn_cur (s : State)  : (s.drawn).cur = s.cur := rfl
@[simp] theorem drawn_serial (s : State)  : (s.drawn).serial = s.serial := rfl
@[simp] theorem drawn_mem (s : State)  : (s.drawn).mem = s.mem := rfl
@[simp] theorem drawn_areas (s : State)  : (s.drawn).areas = s.areas := rfl
@[simp] theorem drawn_memBad (s : State)  : (s.drawn).memBad = s.memBad := rfl
@[simp] theorem drawn_mscBad (s : State)  : (s.drawn).mscBad = s.mscBad := rfl
@[simp] theorem drawn_msc (s : State)  : (s.drawn).msc = s.msc := rfl
@[simp] theorem drawn_l2 (s : State)  : (s.drawn).l2 = s.l2 := rfl
@[simp] theorem drawn_cores (s : State)  : (s.drawn).cores = s.cores := rfl
@[simp] theorem drawn_clusterTlb (s : State)  : (s.drawn).clusterTlb = s.clusterTlb := rfl
@[simp] theorem drawn_tenders (s : State)  : (s.drawn).tenders = s.tenders := rfl
@[simp] theorem drawn_pairs (s : State)  : (s.drawn).pairs = s.pairs := rfl
@[simp] theorem drawn_kqueues (s : State)  : (s.drawn).kqueues = s.kqueues := rfl
@[simp] theorem drawn_ejected (s : State)  : (s.drawn).ejected = s.ejected := rfl
@[simp] theorem drawn_supers (s : State)  : (s.drawn).supers = s.supers := rfl
@[simp] theorem drawn_fes (s : State)  : (s.drawn).fes = s.fes := rfl
@[simp] theorem drawn_parts (s : State)  : (s.drawn).parts = s.parts := rfl
@[simp] theorem drawn_vds (s : State)  : (s.drawn).vds = s.vds := rfl
@[simp] theorem drawn_members (s : State)  : (s.drawn).members = s.members := rfl
@[simp] theorem drawn_dies (s : State)  : (s.drawn).dies = s.dies := rfl
@[simp] theorem drawn_walks (s : State)  : (s.drawn).walks = s.walks := rfl
@[simp] theorem drawn_pageReqs (s : State)  : (s.drawn).pageReqs = s.pageReqs := rfl
@[simp] theorem drawn_wanted (s : State)  : (s.drawn).wanted = s.wanted := rfl
@[simp] theorem drawn_pages (s : State)  : (s.drawn).pages = s.pages := rfl
@[simp] theorem drawn_commands (s : State)  : (s.drawn).commands = s.commands := rfl
@[simp] theorem drawn_code (s : State)  : (s.drawn).code = s.code := rfl
@[simp] theorem drawn_fabric (s : State)  : (s.drawn).fabric = s.fabric := rfl
@[simp] theorem drawn_outbox (s : State)  : (s.drawn).outbox = s.outbox := rfl
@[simp] theorem drawn_answers (s : State)  : (s.drawn).answers = s.answers := rfl
@[simp] theorem drawn_genable (s : State)  : (s.drawn).genable = s.genable := rfl
@[simp] theorem drawn_boot (s : State)  : (s.drawn).boot = s.boot := rfl
@[simp] theorem drawn_respep (s : State)  : (s.drawn).respep = s.respep := rfl
@[simp] theorem drawn_bootFrom (s : State)  : (s.drawn).bootFrom = s.bootFrom := rfl
@[simp] theorem drawn_attest (s : State)  : (s.drawn).attest = s.attest := rfl
@[simp] theorem drawn_record (s : State)  : (s.drawn).record = s.record := rfl
@[simp] theorem drawn_alarm (s : State)  : (s.drawn).alarm = s.alarm := rfl
@[simp] theorem drawn_alarmSrc (s : State)  : (s.drawn).alarmSrc = s.alarmSrc := rfl
@[simp] theorem drawn_haltedAt (s : State)  : (s.drawn).haltedAt = s.haltedAt := rfl
@[simp] theorem drawn_haltArm (s : State)  : (s.drawn).haltArm = s.haltArm := rfl
@[simp] theorem drawn_eraseArm (s : State)  : (s.drawn).eraseArm = s.eraseArm := rfl
@[simp] theorem drawn_keysErased (s : State)  : (s.drawn).keysErased = s.keysErased := rfl
@[simp] theorem drawn_selfTest (s : State)  : (s.drawn).selfTest = s.selfTest := rfl

/-! ### `State.poisonMem`: granules of memory, poisoned -/

@[simp] theorem poisonMem_clock (s : State) (a n : Nat) : (s.poisonMem a n).clock = s.clock := rfl
@[simp] theorem poisonMem_agenda (s : State) (a n : Nat) : (s.poisonMem a n).agenda = s.agenda := rfl
@[simp] theorem poisonMem_cur (s : State) (a n : Nat) : (s.poisonMem a n).cur = s.cur := rfl
@[simp] theorem poisonMem_freeCtr (s : State) (a n : Nat) : (s.poisonMem a n).freeCtr = s.freeCtr := rfl
@[simp] theorem poisonMem_serial (s : State) (a n : Nat) : (s.poisonMem a n).serial = s.serial := rfl
@[simp] theorem poisonMem_msc (s : State) (a n : Nat) : (s.poisonMem a n).msc = s.msc := rfl
@[simp] theorem poisonMem_mem (s : State) (a n : Nat) : (s.poisonMem a n).mem = s.mem := rfl
@[simp] theorem poisonMem_areas (s : State) (a n : Nat) : (s.poisonMem a n).areas = s.areas := rfl
@[simp] theorem poisonMem_l2 (s : State) (a n : Nat) : (s.poisonMem a n).l2 = s.l2 := rfl
@[simp] theorem poisonMem_cores (s : State) (a n : Nat) : (s.poisonMem a n).cores = s.cores := rfl
@[simp] theorem poisonMem_clusterTlb (s : State) (a n : Nat) : (s.poisonMem a n).clusterTlb = s.clusterTlb := rfl
@[simp] theorem poisonMem_tenders (s : State) (a n : Nat) : (s.poisonMem a n).tenders = s.tenders := rfl
@[simp] theorem poisonMem_pairs (s : State) (a n : Nat) : (s.poisonMem a n).pairs = s.pairs := rfl
@[simp] theorem poisonMem_kqueues (s : State) (a n : Nat) : (s.poisonMem a n).kqueues = s.kqueues := rfl
@[simp] theorem poisonMem_ejected (s : State) (a n : Nat) : (s.poisonMem a n).ejected = s.ejected := rfl
@[simp] theorem poisonMem_supers (s : State) (a n : Nat) : (s.poisonMem a n).supers = s.supers := rfl
@[simp] theorem poisonMem_fes (s : State) (a n : Nat) : (s.poisonMem a n).fes = s.fes := rfl
@[simp] theorem poisonMem_parts (s : State) (a n : Nat) : (s.poisonMem a n).parts = s.parts := rfl
@[simp] theorem poisonMem_vds (s : State) (a n : Nat) : (s.poisonMem a n).vds = s.vds := rfl
@[simp] theorem poisonMem_members (s : State) (a n : Nat) : (s.poisonMem a n).members = s.members := rfl
@[simp] theorem poisonMem_dies (s : State) (a n : Nat) : (s.poisonMem a n).dies = s.dies := rfl
@[simp] theorem poisonMem_walks (s : State) (a n : Nat) : (s.poisonMem a n).walks = s.walks := rfl
@[simp] theorem poisonMem_pageReqs (s : State) (a n : Nat) : (s.poisonMem a n).pageReqs = s.pageReqs := rfl
@[simp] theorem poisonMem_wanted (s : State) (a n : Nat) : (s.poisonMem a n).wanted = s.wanted := rfl
@[simp] theorem poisonMem_pages (s : State) (a n : Nat) : (s.poisonMem a n).pages = s.pages := rfl
@[simp] theorem poisonMem_commands (s : State) (a n : Nat) : (s.poisonMem a n).commands = s.commands := rfl
@[simp] theorem poisonMem_code (s : State) (a n : Nat) : (s.poisonMem a n).code = s.code := rfl
@[simp] theorem poisonMem_fabric (s : State) (a n : Nat) : (s.poisonMem a n).fabric = s.fabric := rfl
@[simp] theorem poisonMem_outbox (s : State) (a n : Nat) : (s.poisonMem a n).outbox = s.outbox := rfl
@[simp] theorem poisonMem_answers (s : State) (a n : Nat) : (s.poisonMem a n).answers = s.answers := rfl
@[simp] theorem poisonMem_genable (s : State) (a n : Nat) : (s.poisonMem a n).genable = s.genable := rfl
@[simp] theorem poisonMem_boot (s : State) (a n : Nat) : (s.poisonMem a n).boot = s.boot := rfl
@[simp] theorem poisonMem_respep (s : State) (a n : Nat) : (s.poisonMem a n).respep = s.respep := rfl
@[simp] theorem poisonMem_bootFrom (s : State) (a n : Nat) : (s.poisonMem a n).bootFrom = s.bootFrom := rfl
@[simp] theorem poisonMem_attest (s : State) (a n : Nat) : (s.poisonMem a n).attest = s.attest := rfl
@[simp] theorem poisonMem_record (s : State) (a n : Nat) : (s.poisonMem a n).record = s.record := rfl
@[simp] theorem poisonMem_alarm (s : State) (a n : Nat) : (s.poisonMem a n).alarm = s.alarm := rfl
@[simp] theorem poisonMem_alarmSrc (s : State) (a n : Nat) : (s.poisonMem a n).alarmSrc = s.alarmSrc := rfl
@[simp] theorem poisonMem_haltedAt (s : State) (a n : Nat) : (s.poisonMem a n).haltedAt = s.haltedAt := rfl
@[simp] theorem poisonMem_haltArm (s : State) (a n : Nat) : (s.poisonMem a n).haltArm = s.haltArm := rfl
@[simp] theorem poisonMem_eraseArm (s : State) (a n : Nat) : (s.poisonMem a n).eraseArm = s.eraseArm := rfl
@[simp] theorem poisonMem_keysErased (s : State) (a n : Nat) : (s.poisonMem a n).keysErased = s.keysErased := rfl
@[simp] theorem poisonMem_selfTest (s : State) (a n : Nat) : (s.poisonMem a n).selfTest = s.selfTest := rfl

/-! ### `Group.setFrag`: a fragment -/

@[simp] theorem setFrag_width (g : Group) (f : Frag) : (g.setFrag f).width = g.width := rfl
@[simp] theorem setFrag_index (g : Group) (f : Frag) : (g.setFrag f).index = g.index := rfl
@[simp] theorem setFrag_s (g : Group) (f : Frag) : (g.setFrag f).s = g.s := rfl
@[simp] theorem setFrag_j (g : Group) (f : Frag) : (g.setFrag f).j = g.j := rfl
@[simp] theorem setFrag_t (g : Group) (f : Frag) : (g.setFrag f).t = g.t := rfl
@[simp] theorem setFrag_tags (g : Group) (f : Frag) : (g.setFrag f).tags = g.tags := rfl
@[simp] theorem setFrag_ovf (g : Group) (f : Frag) : (g.setFrag f).ovf = g.ovf := rfl
@[simp] theorem setFrag_ovfn (g : Group) (f : Frag) : (g.setFrag f).ovfn = g.ovfn := rfl
@[simp] theorem setFrag_lanes (g : Group) (f : Frag) : (g.setFrag f).lanes = g.lanes := rfl
@[simp] theorem setFrag_sbuf (g : Group) (f : Frag) : (g.setFrag f).sbuf = g.sbuf := rfl
@[simp] theorem setFrag_tsts (g : Group) (f : Frag) : (g.setFrag f).tsts = g.tsts := rfl

/-! ### `Group.setLane`: a lane -/

@[simp] theorem setLane_width (g : Group) (l : Nat) (t : Thread) : (g.setLane l t).width = g.width := rfl
@[simp] theorem setLane_index (g : Group) (l : Nat) (t : Thread) : (g.setLane l t).index = g.index := rfl
@[simp] theorem setLane_s (g : Group) (l : Nat) (t : Thread) : (g.setLane l t).s = g.s := rfl
@[simp] theorem setLane_j (g : Group) (l : Nat) (t : Thread) : (g.setLane l t).j = g.j := rfl
@[simp] theorem setLane_t (g : Group) (l : Nat) (t : Thread) : (g.setLane l t).t = g.t := rfl
@[simp] theorem setLane_tags (g : Group) (l : Nat) (t : Thread) : (g.setLane l t).tags = g.tags := rfl
@[simp] theorem setLane_ovf (g : Group) (l : Nat) (t : Thread) : (g.setLane l t).ovf = g.ovf := rfl
@[simp] theorem setLane_ovfn (g : Group) (l : Nat) (t : Thread) : (g.setLane l t).ovfn = g.ovfn := rfl
@[simp] theorem setLane_frags (g : Group) (l : Nat) (t : Thread) : (g.setLane l t).frags = g.frags := rfl
@[simp] theorem setLane_sbuf (g : Group) (l : Nat) (t : Thread) : (g.setLane l t).sbuf = g.sbuf := rfl
@[simp] theorem setLane_tsts (g : Group) (l : Nat) (t : Thread) : (g.setLane l t).tsts = g.tsts := rfl

/-! ### `Group.setRej`: a rejoin register -/

@[simp] theorem setRej_width (g : Group) (k : Nat) (r : RejReg) : (g.setRej k r).width = g.width := rfl
@[simp] theorem setRej_index (g : Group) (k : Nat) (r : RejReg) : (g.setRej k r).index = g.index := rfl
@[simp] theorem setRej_s (g : Group) (k : Nat) (r : RejReg) : (g.setRej k r).s = g.s := rfl
@[simp] theorem setRej_t (g : Group) (k : Nat) (r : RejReg) : (g.setRej k r).t = g.t := rfl
@[simp] theorem setRej_tags (g : Group) (k : Nat) (r : RejReg) : (g.setRej k r).tags = g.tags := rfl
@[simp] theorem setRej_ovf (g : Group) (k : Nat) (r : RejReg) : (g.setRej k r).ovf = g.ovf := rfl
@[simp] theorem setRej_ovfn (g : Group) (k : Nat) (r : RejReg) : (g.setRej k r).ovfn = g.ovfn := rfl
@[simp] theorem setRej_lanes (g : Group) (k : Nat) (r : RejReg) : (g.setRej k r).lanes = g.lanes := rfl
@[simp] theorem setRej_frags (g : Group) (k : Nat) (r : RejReg) : (g.setRej k r).frags = g.frags := rfl
@[simp] theorem setRej_sbuf (g : Group) (k : Nat) (r : RejReg) : (g.setRej k r).sbuf = g.sbuf := rfl
@[simp] theorem setRej_tsts (g : Group) (k : Nat) (r : RejReg) : (g.setRej k r).tsts = g.tsts := rfl

/-! ### `Group.setTag`: a landing tag -/

@[simp] theorem setTag_width (g : Group) (k : Nat) (x : Tag) : (g.setTag k x).width = g.width := rfl
@[simp] theorem setTag_index (g : Group) (k : Nat) (x : Tag) : (g.setTag k x).index = g.index := rfl
@[simp] theorem setTag_s (g : Group) (k : Nat) (x : Tag) : (g.setTag k x).s = g.s := rfl
@[simp] theorem setTag_j (g : Group) (k : Nat) (x : Tag) : (g.setTag k x).j = g.j := rfl
@[simp] theorem setTag_t (g : Group) (k : Nat) (x : Tag) : (g.setTag k x).t = g.t := rfl
@[simp] theorem setTag_ovf (g : Group) (k : Nat) (x : Tag) : (g.setTag k x).ovf = g.ovf := rfl
@[simp] theorem setTag_ovfn (g : Group) (k : Nat) (x : Tag) : (g.setTag k x).ovfn = g.ovfn := rfl
@[simp] theorem setTag_lanes (g : Group) (k : Nat) (x : Tag) : (g.setTag k x).lanes = g.lanes := rfl
@[simp] theorem setTag_frags (g : Group) (k : Nat) (x : Tag) : (g.setTag k x).frags = g.frags := rfl
@[simp] theorem setTag_sbuf (g : Group) (k : Nat) (x : Tag) : (g.setTag k x).sbuf = g.sbuf := rfl
@[simp] theorem setTag_tsts (g : Group) (k : Nat) (x : Tag) : (g.setTag k x).tsts = g.tsts := rfl

/-! ### `Group.setManifest`: a manifest -/

@[simp] theorem setManifest_width (g : Group) (k : Nat) (m : Tbl W32) : (g.setManifest k m).width = g.width := rfl
@[simp] theorem setManifest_index (g : Group) (k : Nat) (m : Tbl W32) : (g.setManifest k m).index = g.index := rfl
@[simp] theorem setManifest_s (g : Group) (k : Nat) (m : Tbl W32) : (g.setManifest k m).s = g.s := rfl
@[simp] theorem setManifest_j (g : Group) (k : Nat) (m : Tbl W32) : (g.setManifest k m).j = g.j := rfl
@[simp] theorem setManifest_tags (g : Group) (k : Nat) (m : Tbl W32) : (g.setManifest k m).tags = g.tags := rfl
@[simp] theorem setManifest_ovf (g : Group) (k : Nat) (m : Tbl W32) : (g.setManifest k m).ovf = g.ovf := rfl
@[simp] theorem setManifest_ovfn (g : Group) (k : Nat) (m : Tbl W32) : (g.setManifest k m).ovfn = g.ovfn := rfl
@[simp] theorem setManifest_lanes (g : Group) (k : Nat) (m : Tbl W32) : (g.setManifest k m).lanes = g.lanes := rfl
@[simp] theorem setManifest_frags (g : Group) (k : Nat) (m : Tbl W32) : (g.setManifest k m).frags = g.frags := rfl
@[simp] theorem setManifest_sbuf (g : Group) (k : Nat) (m : Tbl W32) : (g.setManifest k m).sbuf = g.sbuf := rfl
@[simp] theorem setManifest_tsts (g : Group) (k : Nat) (m : Tbl W32) : (g.setManifest k m).tsts = g.tsts := rfl

/-! ### `Group.setSreg`: an S register -/

@[simp] theorem setSreg_width (g : Group) (i : Nat) (x : W32) : (g.setSreg i x).width = g.width := rfl
@[simp] theorem setSreg_index (g : Group) (i : Nat) (x : W32) : (g.setSreg i x).index = g.index := rfl
@[simp] theorem setSreg_j (g : Group) (i : Nat) (x : W32) : (g.setSreg i x).j = g.j := rfl
@[simp] theorem setSreg_t (g : Group) (i : Nat) (x : W32) : (g.setSreg i x).t = g.t := rfl
@[simp] theorem setSreg_tags (g : Group) (i : Nat) (x : W32) : (g.setSreg i x).tags = g.tags := rfl
@[simp] theorem setSreg_ovf (g : Group) (i : Nat) (x : W32) : (g.setSreg i x).ovf = g.ovf := rfl
@[simp] theorem setSreg_ovfn (g : Group) (i : Nat) (x : W32) : (g.setSreg i x).ovfn = g.ovfn := rfl
@[simp] theorem setSreg_lanes (g : Group) (i : Nat) (x : W32) : (g.setSreg i x).lanes = g.lanes := rfl
@[simp] theorem setSreg_frags (g : Group) (i : Nat) (x : W32) : (g.setSreg i x).frags = g.frags := rfl
@[simp] theorem setSreg_sbuf (g : Group) (i : Nat) (x : W32) : (g.setSreg i x).sbuf = g.sbuf := rfl
@[simp] theorem setSreg_tsts (g : Group) (i : Nat) (x : W32) : (g.setSreg i x).tsts = g.tsts := rfl

/-! ### `Thread.setVreg`: a vector register -/

@[simp] theorem setVreg_present (t : Thread) (i : Nat) (x : W32) : (t.setVreg i x).present = t.present := rfl
@[simp] theorem setVreg_exited (t : Thread) (i : Nat) (x : W32) : (t.setVreg i x).exited = t.exited := rfl
@[simp] theorem setVreg_away (t : Thread) (i : Nat) (x : W32) : (t.setVreg i x).away = t.away := rfl
@[simp] theorem setVreg_n (t : Thread) (i : Nat) (x : W32) : (t.setVreg i x).n = t.n := rfl
@[simp] theorem setVreg_p (t : Thread) (i : Nat) (x : W32) : (t.setVreg i x).p = t.p := rfl
@[simp] theorem setVreg_srs (t : Thread) (i : Nat) (x : W32) : (t.setVreg i x).srs = t.srs := rfl
@[simp] theorem setVreg_srsRst (t : Thread) (i : Nat) (x : W32) : (t.setVreg i x).srsRst = t.srsRst := rfl
@[simp] theorem setVreg_arv (t : Thread) (i : Nat) (x : W32) : (t.setVreg i x).arv = t.arv := rfl

/-! ### `Thread.setNreg`: a near register -/

@[simp] theorem setNreg_present (t : Thread) (i : Nat) (x : W32) : (t.setNreg i x).present = t.present := rfl
@[simp] theorem setNreg_exited (t : Thread) (i : Nat) (x : W32) : (t.setNreg i x).exited = t.exited := rfl
@[simp] theorem setNreg_away (t : Thread) (i : Nat) (x : W32) : (t.setNreg i x).away = t.away := rfl
@[simp] theorem setNreg_v (t : Thread) (i : Nat) (x : W32) : (t.setNreg i x).v = t.v := rfl
@[simp] theorem setNreg_p (t : Thread) (i : Nat) (x : W32) : (t.setNreg i x).p = t.p := rfl
@[simp] theorem setNreg_srs (t : Thread) (i : Nat) (x : W32) : (t.setNreg i x).srs = t.srs := rfl
@[simp] theorem setNreg_srsRst (t : Thread) (i : Nat) (x : W32) : (t.setNreg i x).srsRst = t.srsRst := rfl
@[simp] theorem setNreg_arv (t : Thread) (i : Nat) (x : W32) : (t.setNreg i x).arv = t.arv := rfl
@[simp] theorem setNreg_bad (t : Thread) (i : Nat) (x : W32) : (t.setNreg i x).bad = t.bad := rfl

/-! ### `Block.setWarp`: a warp -/

@[simp] theorem setWarp_fe (b : Block) (h : Nat) (w : Warp) : (b.setWarp h w).fe = b.fe := rfl
@[simp] theorem setWarp_vd (b : Block) (h : Nat) (w : Warp) : (b.setWarp h w).vd = b.vd := rfl
@[simp] theorem setWarp_part (b : Block) (h : Nat) (w : Warp) : (b.setWarp h w).part = b.part := rfl
@[simp] theorem setWarp_queue (b : Block) (h : Nat) (w : Warp) : (b.setWarp h w).queue = b.queue := rfl
@[simp] theorem setWarp_tag (b : Block) (h : Nat) (w : Warp) : (b.setWarp h w).tag = b.tag := rfl
@[simp] theorem setWarp_index (b : Block) (h : Nat) (w : Warp) : (b.setWarp h w).index = b.index := rfl
@[simp] theorem setWarp_gang (b : Block) (h : Nat) (w : Warp) : (b.setWarp h w).gang = b.gang := rfl
@[simp] theorem setWarp_rank (b : Block) (h : Nat) (w : Warp) : (b.setWarp h w).rank = b.rank := rfl
@[simp] theorem setWarp_gangSize (b : Block) (h : Nat) (w : Warp) : (b.setWarp h w).gangSize = b.gangSize := rfl
@[simp] theorem setWarp_lclu (b : Block) (h : Nat) (w : Warp) : (b.setWarp h w).lclu = b.lclu := rfl
@[simp] theorem setWarp_lcore (b : Block) (h : Nat) (w : Warp) : (b.setWarp h w).lcore = b.lcore := rfl
@[simp] theorem setWarp_kern (b : Block) (h : Nat) (w : Warp) : (b.setWarp h w).kern = b.kern := rfl
@[simp] theorem setWarp_st (b : Block) (h : Nat) (w : Warp) : (b.setWarp h w).st = b.st := rfl
@[simp] theorem setWarp_groups (b : Block) (h : Nat) (w : Warp) : (b.setWarp h w).groups = b.groups := rfl
@[simp] theorem setWarp_bars (b : Block) (h : Nat) (w : Warp) : (b.setWarp h w).bars = b.bars := rfl
@[simp] theorem setWarp_gates (b : Block) (h : Nat) (w : Warp) : (b.setWarp h w).gates = b.gates := rfl
@[simp] theorem setWarp_taking (b : Block) (h : Nat) (w : Warp) : (b.setWarp h w).taking = b.taking := rfl
@[simp] theorem setWarp_first (b : Block) (h : Nat) (w : Warp) : (b.setWarp h w).first = b.first := rfl
@[simp] theorem setWarp_kept (b : Block) (h : Nat) (w : Warp) : (b.setWarp h w).kept = b.kept := rfl
@[simp] theorem setWarp_withdrawn (b : Block) (h : Nat) (w : Warp) : (b.setWarp h w).withdrawn = b.withdrawn := rfl

/-! ### Predicates and groups -/

@[simp] theorem setPred_present (t : Thread) (i : Nat) (x : Bool) : (t.setPred i x).present = t.present := by
  unfold Thread.setPred; split <;> rfl
@[simp] theorem setPred_exited (t : Thread) (i : Nat) (x : Bool) : (t.setPred i x).exited = t.exited := by
  unfold Thread.setPred; split <;> rfl
@[simp] theorem setPred_away (t : Thread) (i : Nat) (x : Bool) : (t.setPred i x).away = t.away := by
  unfold Thread.setPred; split <;> rfl
@[simp] theorem setPred_v (t : Thread) (i : Nat) (x : Bool) : (t.setPred i x).v = t.v := by
  unfold Thread.setPred; split <;> rfl
@[simp] theorem setPred_n (t : Thread) (i : Nat) (x : Bool) : (t.setPred i x).n = t.n := by
  unfold Thread.setPred; split <;> rfl
@[simp] theorem setPred_srs (t : Thread) (i : Nat) (x : Bool) : (t.setPred i x).srs = t.srs := by
  unfold Thread.setPred; split <;> rfl
@[simp] theorem setPred_srsRst (t : Thread) (i : Nat) (x : Bool) : (t.setPred i x).srsRst = t.srsRst := by
  unfold Thread.setPred; split <;> rfl
@[simp] theorem setPred_arv (t : Thread) (i : Nat) (x : Bool) : (t.setPred i x).arv = t.arv := by
  unfold Thread.setPred; split <;> rfl
@[simp] theorem setPred_bad (t : Thread) (i : Nat) (x : Bool) : (t.setPred i x).bad = t.bad := by
  unfold Thread.setPred; split <;> rfl
@[simp] theorem setGroup_clock (s : State) (x : Group) (k : Site) : (s.setGroup x k).clock = s.clock := by
  cases k <;> (simp only [State.setGroup]; split <;> rfl)
@[simp] theorem setGroup_agenda (s : State) (x : Group) (k : Site) : (s.setGroup x k).agenda = s.agenda := by
  cases k <;> (simp only [State.setGroup]; split <;> rfl)
@[simp] theorem setGroup_cur (s : State) (x : Group) (k : Site) : (s.setGroup x k).cur = s.cur := by
  cases k <;> (simp only [State.setGroup]; split <;> rfl)
@[simp] theorem setGroup_freeCtr (s : State) (x : Group) (k : Site) : (s.setGroup x k).freeCtr = s.freeCtr := by
  cases k <;> (simp only [State.setGroup]; split <;> rfl)
@[simp] theorem setGroup_serial (s : State) (x : Group) (k : Site) : (s.setGroup x k).serial = s.serial := by
  cases k <;> (simp only [State.setGroup]; split <;> rfl)
@[simp] theorem setGroup_mem (s : State) (x : Group) (k : Site) : (s.setGroup x k).mem = s.mem := by
  cases k <;> (simp only [State.setGroup]; split <;> rfl)
@[simp] theorem setGroup_areas (s : State) (x : Group) (k : Site) : (s.setGroup x k).areas = s.areas := by
  cases k <;> (simp only [State.setGroup]; split <;> rfl)
@[simp] theorem setGroup_memBad (s : State) (x : Group) (k : Site) : (s.setGroup x k).memBad = s.memBad := by
  cases k <;> (simp only [State.setGroup]; split <;> rfl)
@[simp] theorem setGroup_mscBad (s : State) (x : Group) (k : Site) : (s.setGroup x k).mscBad = s.mscBad := by
  cases k <;> (simp only [State.setGroup]; split <;> rfl)
@[simp] theorem setGroup_msc (s : State) (x : Group) (k : Site) : (s.setGroup x k).msc = s.msc := by
  cases k <;> (simp only [State.setGroup]; split <;> rfl)
@[simp] theorem setGroup_l2 (s : State) (x : Group) (k : Site) : (s.setGroup x k).l2 = s.l2 := by
  cases k <;> (simp only [State.setGroup]; split <;> rfl)
@[simp] theorem setGroup_clusterTlb (s : State) (x : Group) (k : Site) : (s.setGroup x k).clusterTlb = s.clusterTlb := by
  cases k <;> (simp only [State.setGroup]; split <;> rfl)
@[simp] theorem setGroup_tenders (s : State) (x : Group) (k : Site) : (s.setGroup x k).tenders = s.tenders := by
  cases k <;> (simp only [State.setGroup]; split <;> rfl)
@[simp] theorem setGroup_pairs (s : State) (x : Group) (k : Site) : (s.setGroup x k).pairs = s.pairs := by
  cases k <;> (simp only [State.setGroup]; split <;> rfl)
@[simp] theorem setGroup_kqueues (s : State) (x : Group) (k : Site) : (s.setGroup x k).kqueues = s.kqueues := by
  cases k <;> (simp only [State.setGroup]; split <;> rfl)
@[simp] theorem setGroup_fes (s : State) (x : Group) (k : Site) : (s.setGroup x k).fes = s.fes := by
  cases k <;> (simp only [State.setGroup]; split <;> rfl)
@[simp] theorem setGroup_parts (s : State) (x : Group) (k : Site) : (s.setGroup x k).parts = s.parts := by
  cases k <;> (simp only [State.setGroup]; split <;> rfl)
@[simp] theorem setGroup_vds (s : State) (x : Group) (k : Site) : (s.setGroup x k).vds = s.vds := by
  cases k <;> (simp only [State.setGroup]; split <;> rfl)
@[simp] theorem setGroup_members (s : State) (x : Group) (k : Site) : (s.setGroup x k).members = s.members := by
  cases k <;> (simp only [State.setGroup]; split <;> rfl)
@[simp] theorem setGroup_dies (s : State) (x : Group) (k : Site) : (s.setGroup x k).dies = s.dies := by
  cases k <;> (simp only [State.setGroup]; split <;> rfl)
@[simp] theorem setGroup_walks (s : State) (x : Group) (k : Site) : (s.setGroup x k).walks = s.walks := by
  cases k <;> (simp only [State.setGroup]; split <;> rfl)
@[simp] theorem setGroup_pageReqs (s : State) (x : Group) (k : Site) : (s.setGroup x k).pageReqs = s.pageReqs := by
  cases k <;> (simp only [State.setGroup]; split <;> rfl)
@[simp] theorem setGroup_wanted (s : State) (x : Group) (k : Site) : (s.setGroup x k).wanted = s.wanted := by
  cases k <;> (simp only [State.setGroup]; split <;> rfl)
@[simp] theorem setGroup_pages (s : State) (x : Group) (k : Site) : (s.setGroup x k).pages = s.pages := by
  cases k <;> (simp only [State.setGroup]; split <;> rfl)
@[simp] theorem setGroup_commands (s : State) (x : Group) (k : Site) : (s.setGroup x k).commands = s.commands := by
  cases k <;> (simp only [State.setGroup]; split <;> rfl)
@[simp] theorem setGroup_code (s : State) (x : Group) (k : Site) : (s.setGroup x k).code = s.code := by
  cases k <;> (simp only [State.setGroup]; split <;> rfl)
@[simp] theorem setGroup_fabric (s : State) (x : Group) (k : Site) : (s.setGroup x k).fabric = s.fabric := by
  cases k <;> (simp only [State.setGroup]; split <;> rfl)
@[simp] theorem setGroup_outbox (s : State) (x : Group) (k : Site) : (s.setGroup x k).outbox = s.outbox := by
  cases k <;> (simp only [State.setGroup]; split <;> rfl)
@[simp] theorem setGroup_answers (s : State) (x : Group) (k : Site) : (s.setGroup x k).answers = s.answers := by
  cases k <;> (simp only [State.setGroup]; split <;> rfl)
@[simp] theorem setGroup_genable (s : State) (x : Group) (k : Site) : (s.setGroup x k).genable = s.genable := by
  cases k <;> (simp only [State.setGroup]; split <;> rfl)
@[simp] theorem setGroup_boot (s : State) (x : Group) (k : Site) : (s.setGroup x k).boot = s.boot := by
  cases k <;> (simp only [State.setGroup]; split <;> rfl)
@[simp] theorem setGroup_respep (s : State) (x : Group) (k : Site) : (s.setGroup x k).respep = s.respep := by
  cases k <;> (simp only [State.setGroup]; split <;> rfl)
@[simp] theorem setGroup_bootFrom (s : State) (x : Group) (k : Site) : (s.setGroup x k).bootFrom = s.bootFrom := by
  cases k <;> (simp only [State.setGroup]; split <;> rfl)
@[simp] theorem setGroup_attest (s : State) (x : Group) (k : Site) : (s.setGroup x k).attest = s.attest := by
  cases k <;> (simp only [State.setGroup]; split <;> rfl)
@[simp] theorem setGroup_record (s : State) (x : Group) (k : Site) : (s.setGroup x k).record = s.record := by
  cases k <;> (simp only [State.setGroup]; split <;> rfl)
@[simp] theorem setGroup_alarm (s : State) (x : Group) (k : Site) : (s.setGroup x k).alarm = s.alarm := by
  cases k <;> (simp only [State.setGroup]; split <;> rfl)
@[simp] theorem setGroup_alarmSrc (s : State) (x : Group) (k : Site) : (s.setGroup x k).alarmSrc = s.alarmSrc := by
  cases k <;> (simp only [State.setGroup]; split <;> rfl)
@[simp] theorem setGroup_haltedAt (s : State) (x : Group) (k : Site) : (s.setGroup x k).haltedAt = s.haltedAt := by
  cases k <;> (simp only [State.setGroup]; split <;> rfl)
@[simp] theorem setGroup_haltArm (s : State) (x : Group) (k : Site) : (s.setGroup x k).haltArm = s.haltArm := by
  cases k <;> (simp only [State.setGroup]; split <;> rfl)
@[simp] theorem setGroup_eraseArm (s : State) (x : Group) (k : Site) : (s.setGroup x k).eraseArm = s.eraseArm := by
  cases k <;> (simp only [State.setGroup]; split <;> rfl)
@[simp] theorem setGroup_keysErased (s : State) (x : Group) (k : Site) : (s.setGroup x k).keysErased = s.keysErased := by
  cases k <;> (simp only [State.setGroup]; split <;> rfl)
@[simp] theorem setGroup_selfTest (s : State) (x : Group) (k : Site) : (s.setGroup x k).selfTest = s.selfTest := by
  cases k <;> (simp only [State.setGroup]; split <;> rfl)

end Sys2Proof.Laws
end

