-- ==== Sys2Proof/Laws/MemoryWf.lean ====
section
/-! SUPPORT. Every operation that writes global memory keeps its canonical form; a read at the memory-side cache after
a write there; open bytes of save areas. -/

namespace Sys2Proof.Laws

open Sys2Proof Sys2Proof.Machine

/-- A property that every step of a fold keeps. -/
theorem foldl_keeps {α β : Type} (P : β → Prop) (k : β → α → β) (xs : List α) (s : β) (h0 : P s)
    (h : ∀ s x, P s → P (k s x)) : P (xs.foldl k s) := by
  induction xs generalizing s with
  | nil => exact h0
  | cons x xs ih => exact ih _ (h _ _ h0)

/-- A fold whose every step leaves a field alone leaves it alone. -/
theorem foldl_same {α β γ : Type} (p : β → γ) (k : β → α → β) (xs : List α) (s : β) (h : ∀ s x, p (k s x) = p s) :
    p (xs.foldl k s) = p s := foldl_keeps (fun t => p t = p s) k xs s rfl fun t x ht => (h t x).trans ht

@[simp] theorem signal_mem (s : State) (a n : Nat) : (s.signal a n).mem = s.mem := rfl
@[simp] theorem signal_l2 (s : State) (a n : Nat) : (s.signal a n).l2 = s.l2 := rfl
@[simp] theorem signal_cores (s : State) (a n : Nat) : (s.signal a n).cores = s.cores := rfl
@[simp] theorem signal_agenda (s : State) (a n : Nat) : (s.signal a n).agenda = s.agenda := rfl
@[simp] theorem signal_clock (s : State) (a n : Nat) : (s.signal a n).clock = s.clock := rfl

/-- The memory after a write at the memory-side cache: the bytes where there is a stack, nothing elsewhere (R106). -/
theorem mscWrite_mem (s : State) (pa : Nat) (bs : List Byte) :
    (s.mscWrite pa bs).mem = if isHbm pa then s.mem.write pa bs else s.mem := by
  unfold State.mscWrite; split <;> rfl
@[simp] theorem mscWrite_l2 (s : State) (pa : Nat) (bs : List Byte) : (s.mscWrite pa bs).l2 = s.l2 := by
  unfold State.mscWrite; split <;> rfl
@[simp] theorem mscWrite_cores (s : State) (pa : Nat) (bs : List Byte) : (s.mscWrite pa bs).cores = s.cores := by
  unfold State.mscWrite; split <;> rfl

theorem mscWrite_wf (s : State) (pa : Nat) (bs : List Byte) (h : s.mem.wf = true) : (s.mscWrite pa bs).mem.wf = true := by
  rw [mscWrite_mem]
  split
  · exact Memory.write_wf _ _ _ h
  · exact h

@[simp] theorem useLine_mem (s : State) (line : Nat) : (s.useLine line).mem = s.mem := rfl
@[simp] theorem touch_mem (s : State) (part pa : Nat) : (s.touch part pa).mem = s.mem := by
  unfold State.touch
  split
  · rfl
  · split
    · rfl
    · rw [setDie_mem]; split <;> rfl
@[simp] theorem touchLines_mem (s : State) (part pa n : Nat) : (s.touchLines part pa n).mem = s.mem :=
  foldl_same State.mem _ _ s fun s _ => touch_mem s _ _
@[simp] theorem strikeMsc_mem (s : State) (pa : Nat) : (s.strikeMsc pa).mem = s.mem := rfl
@[simp] theorem markFirst_mem (s : State) (cl pa n : Nat) : (s.markFirst cl pa n).mem = s.mem :=
  foldl_same State.mem _ _ s fun s _ => by split <;> rfl
@[simp] theorem touchFrom_mem (s : State) (cl line : Nat) : (s.touchFrom cl line).mem = s.mem := by
  unfold State.touchFrom; split
  · exact touch_mem _ _ _
  · rfl
@[simp] theorem clearMem_mem (s : State) (g : Nat) : (s.clearMem g).mem = s.mem := rfl

theorem writeBack_wf (s : State) (cl line : Nat) (h : s.mem.wf = true) : (s.writeBack cl line).mem.wf = true := by
  unfold State.writeBack
  split
  · exact h
  · simp only [setSlice_mem]
    rw [foldl_same State.mem _ _ _ fun s x => poisonMem_mem s _ _, foldl_same State.mem _ _ _ fun s x => clearMem_mem s _]
    refine foldl_keeps (fun (s : State) => s.mem.wf = true) _ _ _ ?_ fun s x hs => ?_
    · split <;> simpa using h
    · split
      · exact mscWrite_wf _ _ _ hs
      · exact hs

theorem dropLine_wf (s : State) (cl line : Nat) (h : s.mem.wf = true) : (s.dropLine cl line).mem.wf = true :=
  writeBack_wf s cl line h

theorem writeBackAll_wf (s : State) (cl : Nat) (h : s.mem.wf = true) : (s.writeBackAll cl).mem.wf = true :=
  foldl_keeps (fun (s : State) => s.mem.wf = true) _ _ s h fun s x hs => by
    split
    · exact hs
    · exact writeBack_wf _ _ _ hs

@[simp] theorem clearClean_mem (s : State) (cl : Nat) : (s.clearClean cl).mem = s.mem := rfl

theorem dropPartial_wf (s : State) (cl : Nat) (h : s.mem.wf = true) : (s.dropPartial cl).mem.wf = true :=
  foldl_keeps (fun (s : State) => s.mem.wf = true) _ _ s h fun s x hs => by
    split
    · exact hs
    · exact dropLine_wf _ _ _ hs

theorem acquireSlice_wf (s : State) (cl : Nat) (h : s.mem.wf = true) : (s.acquireSlice cl).mem.wf = true :=
  dropPartial_wf s cl h

theorem evictLines_wf (s : State) (cl pa n : Nat) (h : s.mem.wf = true) : (s.evictLines cl pa n).mem.wf = true :=
  foldl_keeps (fun (s : State) => s.mem.wf = true) _ _ s h fun s x hs => by
    split
    · exact dropLine_wf _ _ _ hs
    · exact hs

theorem dropAll_wf (s : State) (cl : Nat) (h : s.mem.wf = true) : (s.dropAll cl).mem.wf = true := writeBackAll_wf s cl h

theorem makeRoom_wf (s : State) (cl : Nat) (h : s.mem.wf = true) : (s.makeRoom cl).mem.wf = true := by
  unfold State.makeRoom
  split
  · exact h
  · split
    · exact dropLine_wf _ _ _ h
    · exact h

/-- A line that a slice with room takes leaves memory as it is. -/
theorem fillLine_mem (s : State) (cl line : Nat) (h : (s.slice cl).length < sliceLines) : (s.fillLine cl line).mem = s.mem := by
  unfold State.fillLine; split
  · rfl
  · simp [State.makeRoom, h]

theorem fillLine_wf (s : State) (cl line : Nat) (h : s.mem.wf = true) : (s.fillLine cl line).mem.wf = true := by
  unfold State.fillLine; split
  · exact h
  · simpa using makeRoom_wf s cl h

@[simp] theorem lineNibble_mem (s : State) (cl pa : Nat) (hi : Bool) (code : BitVec 4) (d : Bool) :
    (s.lineNibble cl pa hi code d).mem = s.mem := by
  unfold State.lineNibble; split <;> rfl

@[simp] theorem lineWrite_mem (s : State) (cl pa : Nat) (bs : List Byte) (d : Bool) :
    (s.lineWrite cl pa bs d).mem = s.mem := by
  unfold State.lineWrite; split <;> rfl

theorem sliceRead_wf (s : State) (cl pa n : Nat) (fill : Bool) (h : s.mem.wf = true) :
    (s.sliceRead cl pa n fill).mem.wf = true :=
  foldl_keeps (fun (s : State) => s.mem.wf = true) _ _ s h fun s x hs => by
    split
    · exact fillLine_wf s cl x hs
    · split
      · rw [touchFrom_mem]; exact hs
      · exact hs

theorem sliceWrite_wf (s : State) (cl pa : Nat) (bs : List Byte) (h : s.mem.wf = true) :
    (s.sliceWrite cl pa bs).mem.wf = true := by
  unfold State.sliceWrite
  split
  · exact foldl_keeps (fun (s : State) => s.mem.wf = true) _ _ s h fun s x hs => by
      rw [lineWrite_mem]; exact fillLine_wf s cl _ hs
  · exact h

/-- A write through the slice changes memory as the write at the memory-side cache does (R109). -/
theorem throughWrite_mem (s : State) (cl pa : Nat) (bs : List Byte) :
    (s.throughWrite cl pa bs).mem = (s.mscWrite pa bs).mem :=
  foldl_same State.mem _ _ _ fun s x => lineWrite_mem s cl x.1 x.2 false

theorem throughWrite_wf (s : State) (cl pa : Nat) (bs : List Byte) (h : s.mem.wf = true) :
    (s.throughWrite cl pa bs).mem.wf = true := by
  rw [throughWrite_mem]; exact mscWrite_wf _ _ _ h

/-- Lines dropped from a slice. -/
theorem dropLines_wf (s : State) (cl : Nat) (ls : List Nat) (h : s.mem.wf = true) :
    (ls.foldl (fun (s : State) l => s.dropLine cl l) s).mem.wf = true :=
  foldl_keeps (fun (s : State) => s.mem.wf = true) _ _ s h fun _ _ hs => dropLine_wf _ _ _ hs

theorem engineWrite_wf (s : State) (cl pa : Nat) (bs : List Byte) (h : s.mem.wf = true) :
    (s.engineWrite cl pa bs).mem.wf = true := mscWrite_wf _ _ _ (dropLines_wf _ _ _ h)

@[simp] theorem mapFrags_mem (s : State) (k : Frag → Frag) : (s.mapFrags k).mem = s.mem := rfl
@[simp] theorem scratchWrite_mem (s : State) (core o : Nat) (bs : List Byte) : (s.scratchWrite core o bs).mem = s.mem := rfl

/-! ### Save areas -/

/-- An open byte has the draw of the area that holds it. -/
def drawOf (areas : List SaveBytes) (x : Nat) : Option Nat := (areaOf areas x).map (·.draw)

theorem drawOf_nil (x : Nat) : drawOf [] x = none := rfl

theorem drawOf_cons (r : SaveBytes) (rs : List SaveBytes) (x : Nat) :
    drawOf (r :: rs) x = if r.base ≤ x ∧ x < r.base + r.size then some r.draw else drawOf rs x := by
  unfold drawOf areaOf
  by_cases h : r.base ≤ x ∧ x < r.base + r.size
  · rw [List.find?_cons_of_pos (by simpa using h), if_pos h]; rfl
  · rw [List.find?_cons_of_neg (by simpa using h), if_neg h]

theorem drawOf_append (a b : List SaveBytes) (x : Nat) :
    drawOf (a ++ b) x = match drawOf a x with
      | some d => some d
      | none => drawOf b x := by
  induction a with
  | nil => rfl
  | cons r a ih => rw [List.cons_append, drawOf_cons, drawOf_cons]; split <;> simp_all

/-- An area without its empty form. -/
theorem drawOf_filter (l : List SaveBytes) (x : Nat) : drawOf (l.filter fun r => r.size != 0) x = drawOf l x := by
  induction l with
  | nil => rfl
  | cons r l ih =>
    rw [List.filter_cons, drawOf_cons]
    split
    · rw [drawOf_cons, ih]
    · rename_i h
      have h : r.size = 0 := by simpa using h
      rw [ih, if_neg (by omega)]

/-- A write gives its bytes a value and leaves every other open byte with its draw. -/
theorem drawOf_cutAreas (rs : List SaveBytes) (a n x : Nat) :
    drawOf (cutAreas rs a n) x = if a ≤ x ∧ x < a + n then none else drawOf rs x := by
  induction rs with
  | nil => simp [cutAreas, drawOf_nil]
  | cons r rs ih =>
    rw [cutAreas, List.flatMap_cons, ← cutAreas, drawOf_append, ih, drawOf_filter, drawOf_cons, drawOf_cons, drawOf_cons,
      drawOf_nil]
    dsimp only
    by_cases h : a ≤ x ∧ x < a + n
    · rw [if_neg (by omega), if_neg (by omega)]; simp [h]
    · rw [if_neg h, if_neg h]
      by_cases hr : r.base ≤ x ∧ x < r.base + r.size
      · rw [if_pos hr]
        by_cases hx : x < a
        · rw [if_pos (by omega)]
        · rw [if_neg (by omega), if_pos (by omega)]
      · rw [if_neg hr, if_neg (by omega), if_neg (by omega)]

/-! ### The memory-side cache -/

theorem mscByte_eq (s : State) (x : Nat) : s.mscByte x =
    if isHbm x then (match drawOf s.areas x with
      | some d => Config.freeByte d x
      | none => s.mem.get x) else 0#8 := by
  unfold State.mscByte drawOf
  cases areaOf s.areas x <;> rfl

theorem mscWrite_areas (s : State) (pa : Nat) (bs : List Byte) :
    (s.mscWrite pa bs).areas = if isHbm pa then cutAreas s.areas pa bs.length else s.areas := by
  unfold State.mscWrite; split <;> rfl

/-- A byte just written reads as written. -/
theorem mscByte_mscWrite_inside (s : State) (pa i : Nat) (bs : List Byte) (h : i < bs.length) (hp : isHbm pa = true)
    (hi : isHbm (pa + i) = true) : (s.mscWrite pa bs).mscByte (pa + i) = bs[i] := by
  rw [mscByte_eq, if_pos hi, mscWrite_areas, if_pos hp, drawOf_cutAreas, if_pos (by omega), mscWrite_mem, if_pos hp]
  exact Memory.get_write_inside bs _ _ _ h

/-- Any other byte reads as before. -/
theorem mscByte_mscWrite_outside (s : State) (pa x : Nat) (bs : List Byte) (h : x < pa ∨ pa + bs.length ≤ x) :
    (s.mscWrite pa bs).mscByte x = s.mscByte x := by
  rw [mscByte_eq, mscByte_eq, mscWrite_areas, mscWrite_mem]
  by_cases hp : isHbm pa = true
  · rw [if_pos hp, if_pos hp, drawOf_cutAreas, if_neg (show ¬(pa ≤ x ∧ x < pa + bs.length) by omega),
      Memory.get_write_outside _ _ _ _ h]
  · rw [if_neg hp, if_neg hp]

@[simp] theorem saveBytes_mem (s : State) (a n : Nat) : (s.saveBytes a n).mem = s.mem := rfl

end Sys2Proof.Laws
end

