-- ==== Sys2Proof/Laws/Ops.lean ====
section
/-! SUPPORT. What the shared operations leave alone: moving a fragment, parking it and waking it change
only the module's fragments; and what taking a trap, posting a record, a release and an acquire may do to memory. -/

namespace Sys2Proof.Laws

open Sys2Proof Sys2Proof.Machine

/-! ### Operations on the group of an agent -/

@[simp] theorem mapFrag_clock (s : State) (a : Agent) (k : Frag → Frag) : (s.mapFrag a k).clock = s.clock := by
  unfold State.mapFrag; (repeat' split) <;> simp
@[simp] theorem mapFrag_agenda (s : State) (a : Agent) (k : Frag → Frag) : (s.mapFrag a k).agenda = s.agenda := by
  unfold State.mapFrag; (repeat' split) <;> simp
@[simp] theorem mapFrag_cur (s : State) (a : Agent) (k : Frag → Frag) : (s.mapFrag a k).cur = s.cur := by
  unfold State.mapFrag; (repeat' split) <;> simp
@[simp] theorem mapFrag_freeCtr (s : State) (a : Agent) (k : Frag → Frag) : (s.mapFrag a k).freeCtr = s.freeCtr := by
  unfold State.mapFrag; (repeat' split) <;> simp
@[simp] theorem mapFrag_serial (s : State) (a : Agent) (k : Frag → Frag) : (s.mapFrag a k).serial = s.serial := by
  unfold State.mapFrag; (repeat' split) <;> simp
@[simp] theorem mapFrag_mem (s : State) (a : Agent) (k : Frag → Frag) : (s.mapFrag a k).mem = s.mem := by
  unfold State.mapFrag; (repeat' split) <;> simp
@[simp] theorem mapFrag_areas (s : State) (a : Agent) (k : Frag → Frag) : (s.mapFrag a k).areas = s.areas := by
  unfold State.mapFrag; (repeat' split) <;> simp
@[simp] theorem mapFrag_memBad (s : State) (a : Agent) (k : Frag → Frag) : (s.mapFrag a k).memBad = s.memBad := by
  unfold State.mapFrag; (repeat' split) <;> simp
@[simp] theorem mapFrag_mscBad (s : State) (a : Agent) (k : Frag → Frag) : (s.mapFrag a k).mscBad = s.mscBad := by
  unfold State.mapFrag; (repeat' split) <;> simp
@[simp] theorem mapFrag_msc (s : State) (a : Agent) (k : Frag → Frag) : (s.mapFrag a k).msc = s.msc := by
  unfold State.mapFrag; (repeat' split) <;> simp
@[simp] theorem mapFrag_l2 (s : State) (a : Agent) (k : Frag → Frag) : (s.mapFrag a k).l2 = s.l2 := by
  unfold State.mapFrag; (repeat' split) <;> simp
@[simp] theorem mapFrag_clusterTlb (s : State) (a : Agent) (k : Frag → Frag) : (s.mapFrag a k).clusterTlb = s.clusterTlb := by
  unfold State.mapFrag; (repeat' split) <;> simp
@[simp] theorem mapFrag_tenders (s : State) (a : Agent) (k : Frag → Frag) : (s.mapFrag a k).tenders = s.tenders := by
  unfold State.mapFrag; (repeat' split) <;> simp
@[simp] theorem mapFrag_pairs (s : State) (a : Agent) (k : Frag → Frag) : (s.mapFrag a k).pairs = s.pairs := by
  unfold State.mapFrag; (repeat' split) <;> simp
@[simp] theorem mapFrag_kqueues (s : State) (a : Agent) (k : Frag → Frag) : (s.mapFrag a k).kqueues = s.kqueues := by
  unfold State.mapFrag; (repeat' split) <;> simp
@[simp] theorem mapFrag_fes (s : State) (a : Agent) (k : Frag → Frag) : (s.mapFrag a k).fes = s.fes := by
  unfold State.mapFrag; (repeat' split) <;> simp
@[simp] theorem mapFrag_parts (s : State) (a : Agent) (k : Frag → Frag) : (s.mapFrag a k).parts = s.parts := by
  unfold State.mapFrag; (repeat' split) <;> simp
@[simp] theorem mapFrag_vds (s : State) (a : Agent) (k : Frag → Frag) : (s.mapFrag a k).vds = s.vds := by
  unfold State.mapFrag; (repeat' split) <;> simp
@[simp] theorem mapFrag_members (s : State) (a : Agent) (k : Frag → Frag) : (s.mapFrag a k).members = s.members := by
  unfold State.mapFrag; (repeat' split) <;> simp
@[simp] theorem mapFrag_dies (s : State) (a : Agent) (k : Frag → Frag) : (s.mapFrag a k).dies = s.dies := by
  unfold State.mapFrag; (repeat' split) <;> simp
@[simp] theorem mapFrag_walks (s : State) (a : Agent) (k : Frag → Frag) : (s.mapFrag a k).walks = s.walks := by
  unfold State.mapFrag; (repeat' split) <;> simp
@[simp] theorem mapFrag_pageReqs (s : State) (a : Agent) (k : Frag → Frag) : (s.mapFrag a k).pageReqs = s.pageReqs := by
  unfold State.mapFrag; (repeat' split) <;> simp
@[simp] theorem mapFrag_wanted (s : State) (a : Agent) (k : Frag → Frag) : (s.mapFrag a k).wanted = s.wanted := by
  unfold State.mapFrag; (repeat' split) <;> simp
@[simp] theorem mapFrag_pages (s : State) (a : Agent) (k : Frag → Frag) : (s.mapFrag a k).pages = s.pages := by
  unfold State.mapFrag; (repeat' split) <;> simp
@[simp] theorem mapFrag_commands (s : State) (a : Agent) (k : Frag → Frag) : (s.mapFrag a k).commands = s.commands := by
  unfold State.mapFrag; (repeat' split) <;> simp
@[simp] theorem mapFrag_code (s : State) (a : Agent) (k : Frag → Frag) : (s.mapFrag a k).code = s.code := by
  unfold State.mapFrag; (repeat' split) <;> simp
@[simp] theorem mapFrag_fabric (s : State) (a : Agent) (k : Frag → Frag) : (s.mapFrag a k).fabric = s.fabric := by
  unfold State.mapFrag; (repeat' split) <;> simp
@[simp] theorem mapFrag_outbox (s : State) (a : Agent) (k : Frag → Frag) : (s.mapFrag a k).outbox = s.outbox := by
  unfold State.mapFrag; (repeat' split) <;> simp
@[simp] theorem mapFrag_answers (s : State) (a : Agent) (k : Frag → Frag) : (s.mapFrag a k).answers = s.answers := by
  unfold State.mapFrag; (repeat' split) <;> simp
@[simp] theorem mapFrag_genable (s : State) (a : Agent) (k : Frag → Frag) : (s.mapFrag a k).genable = s.genable := by
  unfold State.mapFrag; (repeat' split) <;> simp
@[simp] theorem mapFrag_boot (s : State) (a : Agent) (k : Frag → Frag) : (s.mapFrag a k).boot = s.boot := by
  unfold State.mapFrag; (repeat' split) <;> simp
@[simp] theorem mapFrag_respep (s : State) (a : Agent) (k : Frag → Frag) : (s.mapFrag a k).respep = s.respep := by
  unfold State.mapFrag; (repeat' split) <;> simp
@[simp] theorem mapFrag_bootFrom (s : State) (a : Agent) (k : Frag → Frag) : (s.mapFrag a k).bootFrom = s.bootFrom := by
  unfold State.mapFrag; (repeat' split) <;> simp
@[simp] theorem mapFrag_attest (s : State) (a : Agent) (k : Frag → Frag) : (s.mapFrag a k).attest = s.attest := by
  unfold State.mapFrag; (repeat' split) <;> simp
@[simp] theorem mapFrag_record (s : State) (a : Agent) (k : Frag → Frag) : (s.mapFrag a k).record = s.record := by
  unfold State.mapFrag; (repeat' split) <;> simp
@[simp] theorem mapFrag_alarm (s : State) (a : Agent) (k : Frag → Frag) : (s.mapFrag a k).alarm = s.alarm := by
  unfold State.mapFrag; (repeat' split) <;> simp
@[simp] theorem mapFrag_alarmSrc (s : State) (a : Agent) (k : Frag → Frag) : (s.mapFrag a k).alarmSrc = s.alarmSrc := by
  unfold State.mapFrag; (repeat' split) <;> simp
@[simp] theorem mapFrag_haltArm (s : State) (a : Agent) (k : Frag → Frag) : (s.mapFrag a k).haltArm = s.haltArm := by
  unfold State.mapFrag; (repeat' split) <;> simp
@[simp] theorem mapFrag_eraseArm (s : State) (a : Agent) (k : Frag → Frag) : (s.mapFrag a k).eraseArm = s.eraseArm := by
  unfold State.mapFrag; (repeat' split) <;> simp
@[simp] theorem mapFrag_keysErased (s : State) (a : Agent) (k : Frag → Frag) : (s.mapFrag a k).keysErased = s.keysErased := by
  unfold State.mapFrag; (repeat' split) <;> simp
@[simp] theorem mapFrag_selfTest (s : State) (a : Agent) (k : Frag → Frag) : (s.mapFrag a k).selfTest = s.selfTest := by
  unfold State.mapFrag; (repeat' split) <;> simp

@[simp] theorem mapGroup_clock (s : State) (a : Agent) (k : Group → Group) : (s.mapGroup a k).clock = s.clock := by
  unfold State.mapGroup; split <;> simp
@[simp] theorem mapGroup_agenda (s : State) (a : Agent) (k : Group → Group) : (s.mapGroup a k).agenda = s.agenda := by
  unfold State.mapGroup; split <;> simp
@[simp] theorem mapGroup_cur (s : State) (a : Agent) (k : Group → Group) : (s.mapGroup a k).cur = s.cur := by
  unfold State.mapGroup; split <;> simp
@[simp] theorem mapGroup_freeCtr (s : State) (a : Agent) (k : Group → Group) : (s.mapGroup a k).freeCtr = s.freeCtr := by
  unfold State.mapGroup; split <;> simp
@[simp] theorem mapGroup_serial (s : State) (a : Agent) (k : Group → Group) : (s.mapGroup a k).serial = s.serial := by
  unfold State.mapGroup; split <;> simp
@[simp] theorem mapGroup_mem (s : State) (a : Agent) (k : Group → Group) : (s.mapGroup a k).mem = s.mem := by
  unfold State.mapGroup; split <;> simp
@[simp] theorem mapGroup_areas (s : State) (a : Agent) (k : Group → Group) : (s.mapGroup a k).areas = s.areas := by
  unfold State.mapGroup; split <;> simp
@[simp] theorem mapGroup_memBad (s : State) (a : Agent) (k : Group → Group) : (s.mapGroup a k).memBad = s.memBad := by
  unfold State.mapGroup; split <;> simp
@[simp] theorem mapGroup_mscBad (s : State) (a : Agent) (k : Group → Group) : (s.mapGroup a k).mscBad = s.mscBad := by
  unfold State.mapGroup; split <;> simp
@[simp] theorem mapGroup_msc (s : State) (a : Agent) (k : Group → Group) : (s.mapGroup a k).msc = s.msc := by
  unfold State.mapGroup; split <;> simp
@[simp] theorem mapGroup_l2 (s : State) (a : Agent) (k : Group → Group) : (s.mapGroup a k).l2 = s.l2 := by
  unfold State.mapGroup; split <;> simp
@[simp] theorem mapGroup_clusterTlb (s : State) (a : Agent) (k : Group → Group) : (s.mapGroup a k).clusterTlb = s.clusterTlb := by
  unfold State.mapGroup; split <;> simp
@[simp] theorem mapGroup_tenders (s : State) (a : Agent) (k : Group → Group) : (s.mapGroup a k).tenders = s.tenders := by
  unfold State.mapGroup; split <;> simp
@[simp] theorem mapGroup_pairs (s : State) (a : Agent) (k : Group → Group) : (s.mapGroup a k).pairs = s.pairs := by
  unfold State.mapGroup; split <;> simp
@[simp] theorem mapGroup_kqueues (s : State) (a : Agent) (k : Group → Group) : (s.mapGroup a k).kqueues = s.kqueues := by
  unfold State.mapGroup; split <;> simp
@[simp] theorem mapGroup_fes (s : State) (a : Agent) (k : Group → Group) : (s.mapGroup a k).fes = s.fes := by
  unfold State.mapGroup; split <;> simp
@[simp] theorem mapGroup_parts (s : State) (a : Agent) (k : Group → Group) : (s.mapGroup a k).parts = s.parts := by
  unfold State.mapGroup; split <;> simp
@[simp] theorem mapGroup_vds (s : State) (a : Agent) (k : Group → Group) : (s.mapGroup a k).vds = s.vds := by
  unfold State.mapGroup; split <;> simp
@[simp] theorem mapGroup_members (s : State) (a : Agent) (k : Group → Group) : (s.mapGroup a k).members = s.members := by
  unfold State.mapGroup; split <;> simp
@[simp] theorem mapGroup_dies (s : State) (a : Agent) (k : Group → Group) : (s.mapGroup a k).dies = s.dies := by
  unfold State.mapGroup; split <;> simp
@[simp] theorem mapGroup_walks (s : State) (a : Agent) (k : Group → Group) : (s.mapGroup a k).walks = s.walks := by
  unfold State.mapGroup; split <;> simp
@[simp] theorem mapGroup_pageReqs (s : State) (a : Agent) (k : Group → Group) : (s.mapGroup a k).pageReqs = s.pageReqs := by
  unfold State.mapGroup; split <;> simp
@[simp] theorem mapGroup_wanted (s : State) (a : Agent) (k : Group → Group) : (s.mapGroup a k).wanted = s.wanted := by
  unfold State.mapGroup; split <;> simp
@[simp] theorem mapGroup_pages (s : State) (a : Agent) (k : Group → Group) : (s.mapGroup a k).pages = s.pages := by
  unfold State.mapGroup; split <;> simp
@[simp] theorem mapGroup_commands (s : State) (a : Agent) (k : Group → Group) : (s.mapGroup a k).commands = s.commands := by
  unfold State.mapGroup; split <;> simp
@[simp] theorem mapGroup_code (s : State) (a : Agent) (k : Group → Group) : (s.mapGroup a k).code = s.code := by
  unfold State.mapGroup; split <;> simp
@[simp] theorem mapGroup_fabric (s : State) (a : Agent) (k : Group → Group) : (s.mapGroup a k).fabric = s.fabric := by
  unfold State.mapGroup; split <;> simp
@[simp] theorem mapGroup_outbox (s : State) (a : Agent) (k : Group → Group) : (s.mapGroup a k).outbox = s.outbox := by
  unfold State.mapGroup; split <;> simp
@[simp] theorem mapGroup_answers (s : State) (a : Agent) (k : Group → Group) : (s.mapGroup a k).answers = s.answers := by
  unfold State.mapGroup; split <;> simp
@[simp] theorem mapGroup_genable (s : State) (a : Agent) (k : Group → Group) : (s.mapGroup a k).genable = s.genable := by
  unfold State.mapGroup; split <;> simp
@[simp] theorem mapGroup_boot (s : State) (a : Agent) (k : Group → Group) : (s.mapGroup a k).boot = s.boot := by
  unfold State.mapGroup; split <;> simp
@[simp] theorem mapGroup_respep (s : State) (a : Agent) (k : Group → Group) : (s.mapGroup a k).respep = s.respep := by
  unfold State.mapGroup; split <;> simp
@[simp] theorem mapGroup_bootFrom (s : State) (a : Agent) (k : Group → Group) : (s.mapGroup a k).bootFrom = s.bootFrom := by
  unfold State.mapGroup; split <;> simp
@[simp] theorem mapGroup_attest (s : State) (a : Agent) (k : Group → Group) : (s.mapGroup a k).attest = s.attest := by
  unfold State.mapGroup; split <;> simp
@[simp] theorem mapGroup_record (s : State) (a : Agent) (k : Group → Group) : (s.mapGroup a k).record = s.record := by
  unfold State.mapGroup; split <;> simp
@[simp] theorem mapGroup_alarm (s : State) (a : Agent) (k : Group → Group) : (s.mapGroup a k).alarm = s.alarm := by
  unfold State.mapGroup; split <;> simp
@[simp] theorem mapGroup_alarmSrc (s : State) (a : Agent) (k : Group → Group) : (s.mapGroup a k).alarmSrc = s.alarmSrc := by
  unfold State.mapGroup; split <;> simp
@[simp] theorem mapGroup_haltArm (s : State) (a : Agent) (k : Group → Group) : (s.mapGroup a k).haltArm = s.haltArm := by
  unfold State.mapGroup; split <;> simp
@[simp] theorem mapGroup_eraseArm (s : State) (a : Agent) (k : Group → Group) : (s.mapGroup a k).eraseArm = s.eraseArm := by
  unfold State.mapGroup; split <;> simp
@[simp] theorem mapGroup_keysErased (s : State) (a : Agent) (k : Group → Group) : (s.mapGroup a k).keysErased = s.keysErased := by
  unfold State.mapGroup; split <;> simp
@[simp] theorem mapGroup_selfTest (s : State) (a : Agent) (k : Group → Group) : (s.mapGroup a k).selfTest = s.selfTest := by
  unfold State.mapGroup; split <;> simp

@[simp] theorem advance_clock (s : State) (a : Agent) : (s.advance a).clock = s.clock := by
  simp [State.advance]
@[simp] theorem advance_agenda (s : State) (a : Agent) : (s.advance a).agenda = s.agenda := by
  simp [State.advance]
@[simp] theorem advance_cur (s : State) (a : Agent) : (s.advance a).cur = s.cur := by
  simp [State.advance]
@[simp] theorem advance_freeCtr (s : State) (a : Agent) : (s.advance a).freeCtr = s.freeCtr := by
  simp [State.advance]
@[simp] theorem advance_serial (s : State) (a : Agent) : (s.advance a).serial = s.serial := by
  simp [State.advance]
@[simp] theorem advance_mem (s : State) (a : Agent) : (s.advance a).mem = s.mem := by
  simp [State.advance]
@[simp] theorem advance_areas (s : State) (a : Agent) : (s.advance a).areas = s.areas := by
  simp [State.advance]
@[simp] theorem advance_memBad (s : State) (a : Agent) : (s.advance a).memBad = s.memBad := by
  simp [State.advance]
@[simp] theorem advance_mscBad (s : State) (a : Agent) : (s.advance a).mscBad = s.mscBad := by
  simp [State.advance]
@[simp] theorem advance_msc (s : State) (a : Agent) : (s.advance a).msc = s.msc := by
  simp [State.advance]
@[simp] theorem advance_l2 (s : State) (a : Agent) : (s.advance a).l2 = s.l2 := by
  simp [State.advance]
@[simp] theorem advance_clusterTlb (s : State) (a : Agent) : (s.advance a).clusterTlb = s.clusterTlb := by
  simp [State.advance]
@[simp] theorem advance_tenders (s : State) (a : Agent) : (s.advance a).tenders = s.tenders := by
  simp [State.advance]
@[simp] theorem advance_pairs (s : State) (a : Agent) : (s.advance a).pairs = s.pairs := by
  simp [State.advance]
@[simp] theorem advance_kqueues (s : State) (a : Agent) : (s.advance a).kqueues = s.kqueues := by
  simp [State.advance]
@[simp] theorem advance_fes (s : State) (a : Agent) : (s.advance a).fes = s.fes := by
  simp [State.advance]
@[simp] theorem advance_parts (s : State) (a : Agent) : (s.advance a).parts = s.parts := by
  simp [State.advance]
@[simp] theorem advance_vds (s : State) (a : Agent) : (s.advance a).vds = s.vds := by
  simp [State.advance]
@[simp] theorem advance_members (s : State) (a : Agent) : (s.advance a).members = s.members := by
  simp [State.advance]
@[simp] theorem advance_dies (s : State) (a : Agent) : (s.advance a).dies = s.dies := by
  simp [State.advance]
@[simp] theorem advance_walks (s : State) (a : Agent) : (s.advance a).walks = s.walks := by
  simp [State.advance]
@[simp] theorem advance_pageReqs (s : State) (a : Agent) : (s.advance a).pageReqs = s.pageReqs := by
  simp [State.advance]
@[simp] theorem advance_wanted (s : State) (a : Agent) : (s.advance a).wanted = s.wanted := by
  simp [State.advance]
@[simp] theorem advance_pages (s : State) (a : Agent) : (s.advance a).pages = s.pages := by
  simp [State.advance]
@[simp] theorem advance_commands (s : State) (a : Agent) : (s.advance a).commands = s.commands := by
  simp [State.advance]
@[simp] theorem advance_code (s : State) (a : Agent) : (s.advance a).code = s.code := by
  simp [State.advance]
@[simp] theorem advance_fabric (s : State) (a : Agent) : (s.advance a).fabric = s.fabric := by
  simp [State.advance]
@[simp] theorem advance_outbox (s : State) (a : Agent) : (s.advance a).outbox = s.outbox := by
  simp [State.advance]
@[simp] theorem advance_answers (s : State) (a : Agent) : (s.advance a).answers = s.answers := by
  simp [State.advance]
@[simp] theorem advance_genable (s : State) (a : Agent) : (s.advance a).genable = s.genable := by
  simp [State.advance]
@[simp] theorem advance_boot (s : State) (a : Agent) : (s.advance a).boot = s.boot := by
  simp [State.advance]
@[simp] theorem advance_respep (s : State) (a : Agent) : (s.advance a).respep = s.respep := by
  simp [State.advance]
@[simp] theorem advance_bootFrom (s : State) (a : Agent) : (s.advance a).bootFrom = s.bootFrom := by
  simp [State.advance]
@[simp] theorem advance_attest (s : State) (a : Agent) : (s.advance a).attest = s.attest := by
  simp [State.advance]
@[simp] theorem advance_record (s : State) (a : Agent) : (s.advance a).record = s.record := by
  simp [State.advance]
@[simp] theorem advance_alarm (s : State) (a : Agent) : (s.advance a).alarm = s.alarm := by
  simp [State.advance]
@[simp] theorem advance_alarmSrc (s : State) (a : Agent) : (s.advance a).alarmSrc = s.alarmSrc := by
  simp [State.advance]
@[simp] theorem advance_haltArm (s : State) (a : Agent) : (s.advance a).haltArm = s.haltArm := by
  simp [State.advance]
@[simp] theorem advance_eraseArm (s : State) (a : Agent) : (s.advance a).eraseArm = s.eraseArm := by
  simp [State.advance]
@[simp] theorem advance_keysErased (s : State) (a : Agent) : (s.advance a).keysErased = s.keysErased := by
  simp [State.advance]
@[simp] theorem advance_selfTest (s : State) (a : Agent) : (s.advance a).selfTest = s.selfTest := by
  simp [State.advance]

@[simp] theorem park_clock (s : State) (a : Agent) (w : Wait) : (s.park a w).clock = s.clock := by
  simp [State.park]
@[simp] theorem park_agenda (s : State) (a : Agent) (w : Wait) : (s.park a w).agenda = s.agenda := by
  simp [State.park]
@[simp] theorem park_cur (s : State) (a : Agent) (w : Wait) : (s.park a w).cur = s.cur := by
  simp [State.park]
@[simp] theorem park_freeCtr (s : State) (a : Agent) (w : Wait) : (s.park a w).freeCtr = s.freeCtr := by
  simp [State.park]
@[simp] theorem park_serial (s : State) (a : Agent) (w : Wait) : (s.park a w).serial = s.serial := by
  simp [State.park]
@[simp] theorem park_mem (s : State) (a : Agent) (w : Wait) : (s.park a w).mem = s.mem := by
  simp [State.park]
@[simp] theorem park_areas (s : State) (a : Agent) (w : Wait) : (s.park a w).areas = s.areas := by
  simp [State.park]
@[simp] theorem park_memBad (s : State) (a : Agent) (w : Wait) : (s.park a w).memBad = s.memBad := by
  simp [State.park]
@[simp] theorem park_mscBad (s : State) (a : Agent) (w : Wait) : (s.park a w).mscBad = s.mscBad := by
  simp [State.park]
@[simp] theorem park_msc (s : State) (a : Agent) (w : Wait) : (s.park a w).msc = s.msc := by
  simp [State.park]
@[simp] theorem park_l2 (s : State) (a : Agent) (w : Wait) : (s.park a w).l2 = s.l2 := by
  simp [State.park]
@[simp] theorem park_clusterTlb (s : State) (a : Agent) (w : Wait) : (s.park a w).clusterTlb = s.clusterTlb := by
  simp [State.park]
@[simp] theorem park_tenders (s : State) (a : Agent) (w : Wait) : (s.park a w).tenders = s.tenders := by
  simp [State.park]
@[simp] theorem park_pairs (s : State) (a : Agent) (w : Wait) : (s.park a w).pairs = s.pairs := by
  simp [State.park]
@[simp] theorem park_kqueues (s : State) (a : Agent) (w : Wait) : (s.park a w).kqueues = s.kqueues := by
  simp [State.park]
@[simp] theorem park_fes (s : State) (a : Agent) (w : Wait) : (s.park a w).fes = s.fes := by
  simp [State.park]
@[simp] theorem park_parts (s : State) (a : Agent) (w : Wait) : (s.park a w).parts = s.parts := by
  simp [State.park]
@[simp] theorem park_vds (s : State) (a : Agent) (w : Wait) : (s.park a w).vds = s.vds := by
  simp [State.park]
@[simp] theorem park_members (s : State) (a : Agent) (w : Wait) : (s.park a w).members = s.members := by
  simp [State.park]
@[simp] theorem park_dies (s : State) (a : Agent) (w : Wait) : (s.park a w).dies = s.dies := by
  simp [State.park]
@[simp] theorem park_walks (s : State) (a : Agent) (w : Wait) : (s.park a w).walks = s.walks := by
  simp [State.park]
@[simp] theorem park_pageReqs (s : State) (a : Agent) (w : Wait) : (s.park a w).pageReqs = s.pageReqs := by
  simp [State.park]
@[simp] theorem park_wanted (s : State) (a : Agent) (w : Wait) : (s.park a w).wanted = s.wanted := by
  simp [State.park]
@[simp] theorem park_pages (s : State) (a : Agent) (w : Wait) : (s.park a w).pages = s.pages := by
  simp [State.park]
@[simp] theorem park_commands (s : State) (a : Agent) (w : Wait) : (s.park a w).commands = s.commands := by
  simp [State.park]
@[simp] theorem park_code (s : State) (a : Agent) (w : Wait) : (s.park a w).code = s.code := by
  simp [State.park]
@[simp] theorem park_fabric (s : State) (a : Agent) (w : Wait) : (s.park a w).fabric = s.fabric := by
  simp [State.park]
@[simp] theorem park_outbox (s : State) (a : Agent) (w : Wait) : (s.park a w).outbox = s.outbox := by
  simp [State.park]
@[simp] theorem park_answers (s : State) (a : Agent) (w : Wait) : (s.park a w).answers = s.answers := by
  simp [State.park]
@[simp] theorem park_genable (s : State) (a : Agent) (w : Wait) : (s.park a w).genable = s.genable := by
  simp [State.park]
@[simp] theorem park_boot (s : State) (a : Agent) (w : Wait) : (s.park a w).boot = s.boot := by
  simp [State.park]
@[simp] theorem park_respep (s : State) (a : Agent) (w : Wait) : (s.park a w).respep = s.respep := by
  simp [State.park]
@[simp] theorem park_bootFrom (s : State) (a : Agent) (w : Wait) : (s.park a w).bootFrom = s.bootFrom := by
  simp [State.park]
@[simp] theorem park_attest (s : State) (a : Agent) (w : Wait) : (s.park a w).attest = s.attest := by
  simp [State.park]
@[simp] theorem park_record (s : State) (a : Agent) (w : Wait) : (s.park a w).record = s.record := by
  simp [State.park]
@[simp] theorem park_alarm (s : State) (a : Agent) (w : Wait) : (s.park a w).alarm = s.alarm := by
  simp [State.park]
@[simp] theorem park_alarmSrc (s : State) (a : Agent) (w : Wait) : (s.park a w).alarmSrc = s.alarmSrc := by
  simp [State.park]
@[simp] theorem park_haltArm (s : State) (a : Agent) (w : Wait) : (s.park a w).haltArm = s.haltArm := by
  simp [State.park]
@[simp] theorem park_eraseArm (s : State) (a : Agent) (w : Wait) : (s.park a w).eraseArm = s.eraseArm := by
  simp [State.park]
@[simp] theorem park_keysErased (s : State) (a : Agent) (w : Wait) : (s.park a w).keysErased = s.keysErased := by
  simp [State.park]
@[simp] theorem park_selfTest (s : State) (a : Agent) (w : Wait) : (s.park a w).selfTest = s.selfTest := by
  simp [State.park]

@[simp] theorem wake_clock (s : State) (a : Agent) : (s.wake a).clock = s.clock := by
  simp [State.wake]
@[simp] theorem wake_agenda (s : State) (a : Agent) : (s.wake a).agenda = s.agenda := by
  simp [State.wake]
@[simp] theorem wake_cur (s : State) (a : Agent) : (s.wake a).cur = s.cur := by
  simp [State.wake]
@[simp] theorem wake_freeCtr (s : State) (a : Agent) : (s.wake a).freeCtr = s.freeCtr := by
  simp [State.wake]
@[simp] theorem wake_serial (s : State) (a : Agent) : (s.wake a).serial = s.serial := by
  simp [State.wake]
@[simp] theorem wake_mem (s : State) (a : Agent) : (s.wake a).mem = s.mem := by
  simp [State.wake]
@[simp] theorem wake_areas (s : State) (a : Agent) : (s.wake a).areas = s.areas := by
  simp [State.wake]
@[simp] theorem wake_memBad (s : State) (a : Agent) : (s.wake a).memBad = s.memBad := by
  simp [State.wake]
@[simp] theorem wake_mscBad (s : State) (a : Agent) : (s.wake a).mscBad = s.mscBad := by
  simp [State.wake]
@[simp] theorem wake_msc (s : State) (a : Agent) : (s.wake a).msc = s.msc := by
  simp [State.wake]
@[simp] theorem wake_l2 (s : State) (a : Agent) : (s.wake a).l2 = s.l2 := by
  simp [State.wake]
@[simp] theorem wake_clusterTlb (s : State) (a : Agent) : (s.wake a).clusterTlb = s.clusterTlb := by
  simp [State.wake]
@[simp] theorem wake_tenders (s : State) (a : Agent) : (s.wake a).tenders = s.tenders := by
  simp [State.wake]
@[simp] theorem wake_pairs (s : State) (a : Agent) : (s.wake a).pairs = s.pairs := by
  simp [State.wake]
@[simp] theorem wake_kqueues (s : State) (a : Agent) : (s.wake a).kqueues = s.kqueues := by
  simp [State.wake]
@[simp] theorem wake_fes (s : State) (a : Agent) : (s.wake a).fes = s.fes := by
  simp [State.wake]
@[simp] theorem wake_parts (s : State) (a : Agent) : (s.wake a).parts = s.parts := by
  simp [State.wake]
@[simp] theorem wake_vds (s : State) (a : Agent) : (s.wake a).vds = s.vds := by
  simp [State.wake]
@[simp] theorem wake_members (s : State) (a : Agent) : (s.wake a).members = s.members := by
  simp [State.wake]
@[simp] theorem wake_dies (s : State) (a : Agent) : (s.wake a).dies = s.dies := by
  simp [State.wake]
@[simp] theorem wake_walks (s : State) (a : Agent) : (s.wake a).walks = s.walks := by
  simp [State.wake]
@[simp] theorem wake_pageReqs (s : State) (a : Agent) : (s.wake a).pageReqs = s.pageReqs := by
  simp [State.wake]
@[simp] theorem wake_wanted (s : State) (a : Agent) : (s.wake a).wanted = s.wanted := by
  simp [State.wake]
@[simp] theorem wake_pages (s : State) (a : Agent) : (s.wake a).pages = s.pages := by
  simp [State.wake]
@[simp] theorem wake_commands (s : State) (a : Agent) : (s.wake a).commands = s.commands := by
  simp [State.wake]
@[simp] theorem wake_code (s : State) (a : Agent) : (s.wake a).code = s.code := by
  simp [State.wake]
@[simp] theorem wake_fabric (s : State) (a : Agent) : (s.wake a).fabric = s.fabric := by
  simp [State.wake]
@[simp] theorem wake_outbox (s : State) (a : Agent) : (s.wake a).outbox = s.outbox := by
  simp [State.wake]
@[simp] theorem wake_answers (s : State) (a : Agent) : (s.wake a).answers = s.answers := by
  simp [State.wake]
@[simp] theorem wake_genable (s : State) (a : Agent) : (s.wake a).genable = s.genable := by
  simp [State.wake]
@[simp] theorem wake_boot (s : State) (a : Agent) : (s.wake a).boot = s.boot := by
  simp [State.wake]
@[simp] theorem wake_respep (s : State) (a : Agent) : (s.wake a).respep = s.respep := by
  simp [State.wake]
@[simp] theorem wake_bootFrom (s : State) (a : Agent) : (s.wake a).bootFrom = s.bootFrom := by
  simp [State.wake]
@[simp] theorem wake_attest (s : State) (a : Agent) : (s.wake a).attest = s.attest := by
  simp [State.wake]
@[simp] theorem wake_record (s : State) (a : Agent) : (s.wake a).record = s.record := by
  simp [State.wake]
@[simp] theorem wake_alarm (s : State) (a : Agent) : (s.wake a).alarm = s.alarm := by
  simp [State.wake]
@[simp] theorem wake_alarmSrc (s : State) (a : Agent) : (s.wake a).alarmSrc = s.alarmSrc := by
  simp [State.wake]
@[simp] theorem wake_haltArm (s : State) (a : Agent) : (s.wake a).haltArm = s.haltArm := by
  simp [State.wake]
@[simp] theorem wake_eraseArm (s : State) (a : Agent) : (s.wake a).eraseArm = s.eraseArm := by
  simp [State.wake]
@[simp] theorem wake_keysErased (s : State) (a : Agent) : (s.wake a).keysErased = s.keysErased := by
  simp [State.wake]
@[simp] theorem wake_selfTest (s : State) (a : Agent) : (s.wake a).selfTest = s.selfTest := by
  simp [State.wake]

@[simp] theorem putGroup_clock (s : State) (c : Ctx) (g : Group) : (s.putGroup c g).clock = s.clock := by
  simp [State.putGroup]
@[simp] theorem putGroup_agenda (s : State) (c : Ctx) (g : Group) : (s.putGroup c g).agenda = s.agenda := by
  simp [State.putGroup]
@[simp] theorem putGroup_cur (s : State) (c : Ctx) (g : Group) : (s.putGroup c g).cur = s.cur := by
  simp [State.putGroup]
@[simp] theorem putGroup_freeCtr (s : State) (c : Ctx) (g : Group) : (s.putGroup c g).freeCtr = s.freeCtr := by
  simp [State.putGroup]
@[simp] theorem putGroup_serial (s : State) (c : Ctx) (g : Group) : (s.putGroup c g).serial = s.serial := by
  simp [State.putGroup]
@[simp] theorem putGroup_mem (s : State) (c : Ctx) (g : Group) : (s.putGroup c g).mem = s.mem := by
  simp [State.putGroup]
@[simp] theorem putGroup_areas (s : State) (c : Ctx) (g : Group) : (s.putGroup c g).areas = s.areas := by
  simp [State.putGroup]
@[simp] theorem putGroup_memBad (s : State) (c : Ctx) (g : Group) : (s.putGroup c g).memBad = s.memBad := by
  simp [State.putGroup]
@[simp] theorem putGroup_mscBad (s : State) (c : Ctx) (g : Group) : (s.putGroup c g).mscBad = s.mscBad := by
  simp [State.putGroup]
@[simp] theorem putGroup_msc (s : State) (c : Ctx) (g : Group) : (s.putGroup c g).msc = s.msc := by
  simp [State.putGroup]
@[simp] theorem putGroup_l2 (s : State) (c : Ctx) (g : Group) : (s.putGroup c g).l2 = s.l2 := by
  simp [State.putGroup]
@[simp] theorem putGroup_clusterTlb (s : State) (c : Ctx) (g : Group) : (s.putGroup c g).clusterTlb = s.clusterTlb := by
  simp [State.putGroup]
@[simp] theorem putGroup_tenders (s : State) (c : Ctx) (g : Group) : (s.putGroup c g).tenders = s.tenders := by
  simp [State.putGroup]
@[simp] theorem putGroup_pairs (s : State) (c : Ctx) (g : Group) : (s.putGroup c g).pairs = s.pairs := by
  simp [State.putGroup]
@[simp] theorem putGroup_kqueues (s : State) (c : Ctx) (g : Group) : (s.putGroup c g).kqueues = s.kqueues := by
  simp [State.putGroup]
@[simp] theorem putGroup_fes (s : State) (c : Ctx) (g : Group) : (s.putGroup c g).fes = s.fes := by
  simp [State.putGroup]
@[simp] theorem putGroup_parts (s : State) (c : Ctx) (g : Group) : (s.putGroup c g).parts = s.parts := by
  simp [State.putGroup]
@[simp] theorem putGroup_vds (s : State) (c : Ctx) (g : Group) : (s.putGroup c g).vds = s.vds := by
  simp [State.putGroup]
@[simp] theorem putGroup_members (s : State) (c : Ctx) (g : Group) : (s.putGroup c g).members = s.members := by
  simp [State.putGroup]
@[simp] theorem putGroup_dies (s : State) (c : Ctx) (g : Group) : (s.putGroup c g).dies = s.dies := by
  simp [State.putGroup]
@[simp] theorem putGroup_walks (s : State) (c : Ctx) (g : Group) : (s.putGroup c g).walks = s.walks := by
  simp [State.putGroup]
@[simp] theorem putGroup_pageReqs (s : State) (c : Ctx) (g : Group) : (s.putGroup c g).pageReqs = s.pageReqs := by
  simp [State.putGroup]
@[simp] theorem putGroup_wanted (s : State) (c : Ctx) (g : Group) : (s.putGroup c g).wanted = s.wanted := by
  simp [State.putGroup]
@[simp] theorem putGroup_pages (s : State) (c : Ctx) (g : Group) : (s.putGroup c g).pages = s.pages := by
  simp [State.putGroup]
@[simp] theorem putGroup_commands (s : State) (c : Ctx) (g : Group) : (s.putGroup c g).commands = s.commands := by
  simp [State.putGroup]
@[simp] theorem putGroup_code (s : State) (c : Ctx) (g : Group) : (s.putGroup c g).code = s.code := by
  simp [State.putGroup]
@[simp] theorem putGroup_fabric (s : State) (c : Ctx) (g : Group) : (s.putGroup c g).fabric = s.fabric := by
  simp [State.putGroup]
@[simp] theorem putGroup_outbox (s : State) (c : Ctx) (g : Group) : (s.putGroup c g).outbox = s.outbox := by
  simp [State.putGroup]
@[simp] theorem putGroup_answers (s : State) (c : Ctx) (g : Group) : (s.putGroup c g).answers = s.answers := by
  simp [State.putGroup]
@[simp] theorem putGroup_genable (s : State) (c : Ctx) (g : Group) : (s.putGroup c g).genable = s.genable := by
  simp [State.putGroup]
@[simp] theorem putGroup_boot (s : State) (c : Ctx) (g : Group) : (s.putGroup c g).boot = s.boot := by
  simp [State.putGroup]
@[simp] theorem putGroup_respep (s : State) (c : Ctx) (g : Group) : (s.putGroup c g).respep = s.respep := by
  simp [State.putGroup]
@[simp] theorem putGroup_bootFrom (s : State) (c : Ctx) (g : Group) : (s.putGroup c g).bootFrom = s.bootFrom := by
  simp [State.putGroup]
@[simp] theorem putGroup_attest (s : State) (c : Ctx) (g : Group) : (s.putGroup c g).attest = s.attest := by
  simp [State.putGroup]
@[simp] theorem putGroup_record (s : State) (c : Ctx) (g : Group) : (s.putGroup c g).record = s.record := by
  simp [State.putGroup]
@[simp] theorem putGroup_alarm (s : State) (c : Ctx) (g : Group) : (s.putGroup c g).alarm = s.alarm := by
  simp [State.putGroup]
@[simp] theorem putGroup_alarmSrc (s : State) (c : Ctx) (g : Group) : (s.putGroup c g).alarmSrc = s.alarmSrc := by
  simp [State.putGroup]
@[simp] theorem putGroup_haltArm (s : State) (c : Ctx) (g : Group) : (s.putGroup c g).haltArm = s.haltArm := by
  simp [State.putGroup]
@[simp] theorem putGroup_eraseArm (s : State) (c : Ctx) (g : Group) : (s.putGroup c g).eraseArm = s.eraseArm := by
  simp [State.putGroup]
@[simp] theorem putGroup_keysErased (s : State) (c : Ctx) (g : Group) : (s.putGroup c g).keysErased = s.keysErased := by
  simp [State.putGroup]
@[simp] theorem putGroup_selfTest (s : State) (c : Ctx) (g : Group) : (s.putGroup c g).selfTest = s.selfTest := by
  simp [State.putGroup]

@[simp] theorem putFrag_clock (s : State) (c : Ctx) (f : Frag) : (s.putFrag c f).clock = s.clock := by
  unfold State.putFrag; split <;> simp
@[simp] theorem putFrag_agenda (s : State) (c : Ctx) (f : Frag) : (s.putFrag c f).agenda = s.agenda := by
  unfold State.putFrag; split <;> simp
@[simp] theorem putFrag_cur (s : State) (c : Ctx) (f : Frag) : (s.putFrag c f).cur = s.cur := by
  unfold State.putFrag; split <;> simp
@[simp] theorem putFrag_freeCtr (s : State) (c : Ctx) (f : Frag) : (s.putFrag c f).freeCtr = s.freeCtr := by
  unfold State.putFrag; split <;> simp
@[simp] theorem putFrag_serial (s : State) (c : Ctx) (f : Frag) : (s.putFrag c f).serial = s.serial := by
  unfold State.putFrag; split <;> simp
@[simp] theorem putFrag_mem (s : State) (c : Ctx) (f : Frag) : (s.putFrag c f).mem = s.mem := by
  unfold State.putFrag; split <;> simp
@[simp] theorem putFrag_areas (s : State) (c : Ctx) (f : Frag) : (s.putFrag c f).areas = s.areas := by
  unfold State.putFrag; split <;> simp
@[simp] theorem putFrag_memBad (s : State) (c : Ctx) (f : Frag) : (s.putFrag c f).memBad = s.memBad := by
  unfold State.putFrag; split <;> simp
@[simp] theorem putFrag_mscBad (s : State) (c : Ctx) (f : Frag) : (s.putFrag c f).mscBad = s.mscBad := by
  unfold State.putFrag; split <;> simp
@[simp] theorem putFrag_msc (s : State) (c : Ctx) (f : Frag) : (s.putFrag c f).msc = s.msc := by
  unfold State.putFrag; split <;> simp
@[simp] theorem putFrag_l2 (s : State) (c : Ctx) (f : Frag) : (s.putFrag c f).l2 = s.l2 := by
  unfold State.putFrag; split <;> simp
@[simp] theorem putFrag_clusterTlb (s : State) (c : Ctx) (f : Frag) : (s.putFrag c f).clusterTlb = s.clusterTlb := by
  unfold State.putFrag; split <;> simp
@[simp] theorem putFrag_tenders (s : State) (c : Ctx) (f : Frag) : (s.putFrag c f).tenders = s.tenders := by
  unfold State.putFrag; split <;> simp
@[simp] theorem putFrag_pairs (s : State) (c : Ctx) (f : Frag) : (s.putFrag c f).pairs = s.pairs := by
  unfold State.putFrag; split <;> simp
@[simp] theorem putFrag_kqueues (s : State) (c : Ctx) (f : Frag) : (s.putFrag c f).kqueues = s.kqueues := by
  unfold State.putFrag; split <;> simp
@[simp] theorem putFrag_fes (s : State) (c : Ctx) (f : Frag) : (s.putFrag c f).fes = s.fes := by
  unfold State.putFrag; split <;> simp
@[simp] theorem putFrag_parts (s : State) (c : Ctx) (f : Frag) : (s.putFrag c f).parts = s.parts := by
  unfold State.putFrag; split <;> simp
@[simp] theorem putFrag_vds (s : State) (c : Ctx) (f : Frag) : (s.putFrag c f).vds = s.vds := by
  unfold State.putFrag; split <;> simp
@[simp] theorem putFrag_members (s : State) (c : Ctx) (f : Frag) : (s.putFrag c f).members = s.members := by
  unfold State.putFrag; split <;> simp
@[simp] theorem putFrag_dies (s : State) (c : Ctx) (f : Frag) : (s.putFrag c f).dies = s.dies := by
  unfold State.putFrag; split <;> simp
@[simp] theorem putFrag_walks (s : State) (c : Ctx) (f : Frag) : (s.putFrag c f).walks = s.walks := by
  unfold State.putFrag; split <;> simp
@[simp] theorem putFrag_pageReqs (s : State) (c : Ctx) (f : Frag) : (s.putFrag c f).pageReqs = s.pageReqs := by
  unfold State.putFrag; split <;> simp
@[simp] theorem putFrag_wanted (s : State) (c : Ctx) (f : Frag) : (s.putFrag c f).wanted = s.wanted := by
  unfold State.putFrag; split <;> simp
@[simp] theorem putFrag_pages (s : State) (c : Ctx) (f : Frag) : (s.putFrag c f).pages = s.pages := by
  unfold State.putFrag; split <;> simp
@[simp] theorem putFrag_commands (s : State) (c : Ctx) (f : Frag) : (s.putFrag c f).commands = s.commands := by
  unfold State.putFrag; split <;> simp
@[simp] theorem putFrag_code (s : State) (c : Ctx) (f : Frag) : (s.putFrag c f).code = s.code := by
  unfold State.putFrag; split <;> simp
@[simp] theorem putFrag_fabric (s : State) (c : Ctx) (f : Frag) : (s.putFrag c f).fabric = s.fabric := by
  unfold State.putFrag; split <;> simp
@[simp] theorem putFrag_outbox (s : State) (c : Ctx) (f : Frag) : (s.putFrag c f).outbox = s.outbox := by
  unfold State.putFrag; split <;> simp
@[simp] theorem putFrag_answers (s : State) (c : Ctx) (f : Frag) : (s.putFrag c f).answers = s.answers := by
  unfold State.putFrag; split <;> simp
@[simp] theorem putFrag_genable (s : State) (c : Ctx) (f : Frag) : (s.putFrag c f).genable = s.genable := by
  unfold State.putFrag; split <;> simp
@[simp] theorem putFrag_boot (s : State) (c : Ctx) (f : Frag) : (s.putFrag c f).boot = s.boot := by
  unfold State.putFrag; split <;> simp
@[simp] theorem putFrag_respep (s : State) (c : Ctx) (f : Frag) : (s.putFrag c f).respep = s.respep := by
  unfold State.putFrag; split <;> simp
@[simp] theorem putFrag_bootFrom (s : State) (c : Ctx) (f : Frag) : (s.putFrag c f).bootFrom = s.bootFrom := by
  unfold State.putFrag; split <;> simp
@[simp] theorem putFrag_attest (s : State) (c : Ctx) (f : Frag) : (s.putFrag c f).attest = s.attest := by
  unfold State.putFrag; split <;> simp
@[simp] theorem putFrag_record (s : State) (c : Ctx) (f : Frag) : (s.putFrag c f).record = s.record := by
  unfold State.putFrag; split <;> simp
@[simp] theorem putFrag_alarm (s : State) (c : Ctx) (f : Frag) : (s.putFrag c f).alarm = s.alarm := by
  unfold State.putFrag; split <;> simp
@[simp] theorem putFrag_alarmSrc (s : State) (c : Ctx) (f : Frag) : (s.putFrag c f).alarmSrc = s.alarmSrc := by
  unfold State.putFrag; split <;> simp
@[simp] theorem putFrag_haltArm (s : State) (c : Ctx) (f : Frag) : (s.putFrag c f).haltArm = s.haltArm := by
  unfold State.putFrag; split <;> simp
@[simp] theorem putFrag_eraseArm (s : State) (c : Ctx) (f : Frag) : (s.putFrag c f).eraseArm = s.eraseArm := by
  unfold State.putFrag; split <;> simp
@[simp] theorem putFrag_keysErased (s : State) (c : Ctx) (f : Frag) : (s.putFrag c f).keysErased = s.keysErased := by
  unfold State.putFrag; split <;> simp
@[simp] theorem putFrag_selfTest (s : State) (c : Ctx) (f : Frag) : (s.putFrag c f).selfTest = s.selfTest := by
  unfold State.putFrag; split <;> simp

@[simp] theorem mapWarp_clock (s : State) (c h : Nat) (f : Warp → Warp) : (s.mapWarp c h f).clock = s.clock := by
  unfold State.mapWarp; split <;> simp
@[simp] theorem mapWarp_agenda (s : State) (c h : Nat) (f : Warp → Warp) : (s.mapWarp c h f).agenda = s.agenda := by
  unfold State.mapWarp; split <;> simp
@[simp] theorem mapWarp_cur (s : State) (c h : Nat) (f : Warp → Warp) : (s.mapWarp c h f).cur = s.cur := by
  unfold State.mapWarp; split <;> simp
@[simp] theorem mapWarp_freeCtr (s : State) (c h : Nat) (f : Warp → Warp) : (s.mapWarp c h f).freeCtr = s.freeCtr := by
  unfold State.mapWarp; split <;> simp
@[simp] theorem mapWarp_serial (s : State) (c h : Nat) (f : Warp → Warp) : (s.mapWarp c h f).serial = s.serial := by
  unfold State.mapWarp; split <;> simp
@[simp] theorem mapWarp_mem (s : State) (c h : Nat) (f : Warp → Warp) : (s.mapWarp c h f).mem = s.mem := by
  unfold State.mapWarp; split <;> simp
@[simp] theorem mapWarp_areas (s : State) (c h : Nat) (f : Warp → Warp) : (s.mapWarp c h f).areas = s.areas := by
  unfold State.mapWarp; split <;> simp
@[simp] theorem mapWarp_memBad (s : State) (c h : Nat) (f : Warp → Warp) : (s.mapWarp c h f).memBad = s.memBad := by
  unfold State.mapWarp; split <;> simp
@[simp] theorem mapWarp_mscBad (s : State) (c h : Nat) (f : Warp → Warp) : (s.mapWarp c h f).mscBad = s.mscBad := by
  unfold State.mapWarp; split <;> simp
@[simp] theorem mapWarp_msc (s : State) (c h : Nat) (f : Warp → Warp) : (s.mapWarp c h f).msc = s.msc := by
  unfold State.mapWarp; split <;> simp
@[simp] theorem mapWarp_l2 (s : State) (c h : Nat) (f : Warp → Warp) : (s.mapWarp c h f).l2 = s.l2 := by
  unfold State.mapWarp; split <;> simp
@[simp] theorem mapWarp_clusterTlb (s : State) (c h : Nat) (f : Warp → Warp) : (s.mapWarp c h f).clusterTlb = s.clusterTlb := by
  unfold State.mapWarp; split <;> simp
@[simp] theorem mapWarp_tenders (s : State) (c h : Nat) (f : Warp → Warp) : (s.mapWarp c h f).tenders = s.tenders := by
  unfold State.mapWarp; split <;> simp
@[simp] theorem mapWarp_pairs (s : State) (c h : Nat) (f : Warp → Warp) : (s.mapWarp c h f).pairs = s.pairs := by
  unfold State.mapWarp; split <;> simp
@[simp] theorem mapWarp_kqueues (s : State) (c h : Nat) (f : Warp → Warp) : (s.mapWarp c h f).kqueues = s.kqueues := by
  unfold State.mapWarp; split <;> simp
@[simp] theorem mapWarp_fes (s : State) (c h : Nat) (f : Warp → Warp) : (s.mapWarp c h f).fes = s.fes := by
  unfold State.mapWarp; split <;> simp
@[simp] theorem mapWarp_parts (s : State) (c h : Nat) (f : Warp → Warp) : (s.mapWarp c h f).parts = s.parts := by
  unfold State.mapWarp; split <;> simp
@[simp] theorem mapWarp_vds (s : State) (c h : Nat) (f : Warp → Warp) : (s.mapWarp c h f).vds = s.vds := by
  unfold State.mapWarp; split <;> simp
@[simp] theorem mapWarp_members (s : State) (c h : Nat) (f : Warp → Warp) : (s.mapWarp c h f).members = s.members := by
  unfold State.mapWarp; split <;> simp
@[simp] theorem mapWarp_dies (s : State) (c h : Nat) (f : Warp → Warp) : (s.mapWarp c h f).dies = s.dies := by
  unfold State.mapWarp; split <;> simp
@[simp] theorem mapWarp_walks (s : State) (c h : Nat) (f : Warp → Warp) : (s.mapWarp c h f).walks = s.walks := by
  unfold State.mapWarp; split <;> simp
@[simp] theorem mapWarp_pageReqs (s : State) (c h : Nat) (f : Warp → Warp) : (s.mapWarp c h f).pageReqs = s.pageReqs := by
  unfold State.mapWarp; split <;> simp
@[simp] theorem mapWarp_wanted (s : State) (c h : Nat) (f : Warp → Warp) : (s.mapWarp c h f).wanted = s.wanted := by
  unfold State.mapWarp; split <;> simp
@[simp] theorem mapWarp_pages (s : State) (c h : Nat) (f : Warp → Warp) : (s.mapWarp c h f).pages = s.pages := by
  unfold State.mapWarp; split <;> simp
@[simp] theorem mapWarp_commands (s : State) (c h : Nat) (f : Warp → Warp) : (s.mapWarp c h f).commands = s.commands := by
  unfold State.mapWarp; split <;> simp
@[simp] theorem mapWarp_code (s : State) (c h : Nat) (f : Warp → Warp) : (s.mapWarp c h f).code = s.code := by
  unfold State.mapWarp; split <;> simp
@[simp] theorem mapWarp_fabric (s : State) (c h : Nat) (f : Warp → Warp) : (s.mapWarp c h f).fabric = s.fabric := by
  unfold State.mapWarp; split <;> simp
@[simp] theorem mapWarp_outbox (s : State) (c h : Nat) (f : Warp → Warp) : (s.mapWarp c h f).outbox = s.outbox := by
  unfold State.mapWarp; split <;> simp
@[simp] theorem mapWarp_answers (s : State) (c h : Nat) (f : Warp → Warp) : (s.mapWarp c h f).answers = s.answers := by
  unfold State.mapWarp; split <;> simp
@[simp] theorem mapWarp_genable (s : State) (c h : Nat) (f : Warp → Warp) : (s.mapWarp c h f).genable = s.genable := by
  unfold State.mapWarp; split <;> simp
@[simp] theorem mapWarp_boot (s : State) (c h : Nat) (f : Warp → Warp) : (s.mapWarp c h f).boot = s.boot := by
  unfold State.mapWarp; split <;> simp
@[simp] theorem mapWarp_respep (s : State) (c h : Nat) (f : Warp → Warp) : (s.mapWarp c h f).respep = s.respep := by
  unfold State.mapWarp; split <;> simp
@[simp] theorem mapWarp_bootFrom (s : State) (c h : Nat) (f : Warp → Warp) : (s.mapWarp c h f).bootFrom = s.bootFrom := by
  unfold State.mapWarp; split <;> simp
@[simp] theorem mapWarp_attest (s : State) (c h : Nat) (f : Warp → Warp) : (s.mapWarp c h f).attest = s.attest := by
  unfold State.mapWarp; split <;> simp
@[simp] theorem mapWarp_record (s : State) (c h : Nat) (f : Warp → Warp) : (s.mapWarp c h f).record = s.record := by
  unfold State.mapWarp; split <;> simp
@[simp] theorem mapWarp_alarm (s : State) (c h : Nat) (f : Warp → Warp) : (s.mapWarp c h f).alarm = s.alarm := by
  unfold State.mapWarp; split <;> simp
@[simp] theorem mapWarp_alarmSrc (s : State) (c h : Nat) (f : Warp → Warp) : (s.mapWarp c h f).alarmSrc = s.alarmSrc := by
  unfold State.mapWarp; split <;> simp
@[simp] theorem mapWarp_haltArm (s : State) (c h : Nat) (f : Warp → Warp) : (s.mapWarp c h f).haltArm = s.haltArm := by
  unfold State.mapWarp; split <;> simp
@[simp] theorem mapWarp_eraseArm (s : State) (c h : Nat) (f : Warp → Warp) : (s.mapWarp c h f).eraseArm = s.eraseArm := by
  unfold State.mapWarp; split <;> simp
@[simp] theorem mapWarp_keysErased (s : State) (c h : Nat) (f : Warp → Warp) : (s.mapWarp c h f).keysErased = s.keysErased := by
  unfold State.mapWarp; split <;> simp
@[simp] theorem mapWarp_selfTest (s : State) (c h : Nat) (f : Warp → Warp) : (s.mapWarp c h f).selfTest = s.selfTest := by
  unfold State.mapWarp; split <;> simp

@[simp] theorem setFifo_clock (s : State) (i : FifoId) (q : List SEntry) : (s.setFifo i q).clock = s.clock := by
  unfold State.setFifo; (repeat' split) <;> simp
@[simp] theorem setFifo_agenda (s : State) (i : FifoId) (q : List SEntry) : (s.setFifo i q).agenda = s.agenda := by
  unfold State.setFifo; (repeat' split) <;> simp
@[simp] theorem setFifo_cur (s : State) (i : FifoId) (q : List SEntry) : (s.setFifo i q).cur = s.cur := by
  unfold State.setFifo; (repeat' split) <;> simp
@[simp] theorem setFifo_freeCtr (s : State) (i : FifoId) (q : List SEntry) : (s.setFifo i q).freeCtr = s.freeCtr := by
  unfold State.setFifo; (repeat' split) <;> simp
@[simp] theorem setFifo_serial (s : State) (i : FifoId) (q : List SEntry) : (s.setFifo i q).serial = s.serial := by
  unfold State.setFifo; (repeat' split) <;> simp
@[simp] theorem setFifo_mem (s : State) (i : FifoId) (q : List SEntry) : (s.setFifo i q).mem = s.mem := by
  unfold State.setFifo; (repeat' split) <;> simp
@[simp] theorem setFifo_areas (s : State) (i : FifoId) (q : List SEntry) : (s.setFifo i q).areas = s.areas := by
  unfold State.setFifo; (repeat' split) <;> simp
@[simp] theorem setFifo_memBad (s : State) (i : FifoId) (q : List SEntry) : (s.setFifo i q).memBad = s.memBad := by
  unfold State.setFifo; (repeat' split) <;> simp
@[simp] theorem setFifo_mscBad (s : State) (i : FifoId) (q : List SEntry) : (s.setFifo i q).mscBad = s.mscBad := by
  unfold State.setFifo; (repeat' split) <;> simp
@[simp] theorem setFifo_msc (s : State) (i : FifoId) (q : List SEntry) : (s.setFifo i q).msc = s.msc := by
  unfold State.setFifo; (repeat' split) <;> simp
@[simp] theorem setFifo_l2 (s : State) (i : FifoId) (q : List SEntry) : (s.setFifo i q).l2 = s.l2 := by
  unfold State.setFifo; (repeat' split) <;> simp
@[simp] theorem setFifo_clusterTlb (s : State) (i : FifoId) (q : List SEntry) : (s.setFifo i q).clusterTlb = s.clusterTlb := by
  unfold State.setFifo; (repeat' split) <;> simp
@[simp] theorem setFifo_tenders (s : State) (i : FifoId) (q : List SEntry) : (s.setFifo i q).tenders = s.tenders := by
  unfold State.setFifo; (repeat' split) <;> simp
@[simp] theorem setFifo_pairs (s : State) (i : FifoId) (q : List SEntry) : (s.setFifo i q).pairs = s.pairs := by
  unfold State.setFifo; (repeat' split) <;> simp
@[simp] theorem setFifo_kqueues (s : State) (i : FifoId) (q : List SEntry) : (s.setFifo i q).kqueues = s.kqueues := by
  unfold State.setFifo; (repeat' split) <;> simp
@[simp] theorem setFifo_fes (s : State) (i : FifoId) (q : List SEntry) : (s.setFifo i q).fes = s.fes := by
  unfold State.setFifo; (repeat' split) <;> simp
@[simp] theorem setFifo_parts (s : State) (i : FifoId) (q : List SEntry) : (s.setFifo i q).parts = s.parts := by
  unfold State.setFifo; (repeat' split) <;> simp
@[simp] theorem setFifo_vds (s : State) (i : FifoId) (q : List SEntry) : (s.setFifo i q).vds = s.vds := by
  unfold State.setFifo; (repeat' split) <;> simp
@[simp] theorem setFifo_members (s : State) (i : FifoId) (q : List SEntry) : (s.setFifo i q).members = s.members := by
  unfold State.setFifo; (repeat' split) <;> simp
@[simp] theorem setFifo_dies (s : State) (i : FifoId) (q : List SEntry) : (s.setFifo i q).dies = s.dies := by
  unfold State.setFifo; (repeat' split) <;> simp
@[simp] theorem setFifo_walks (s : State) (i : FifoId) (q : List SEntry) : (s.setFifo i q).walks = s.walks := by
  unfold State.setFifo; (repeat' split) <;> simp
@[simp] theorem setFifo_pageReqs (s : State) (i : FifoId) (q : List SEntry) : (s.setFifo i q).pageReqs = s.pageReqs := by
  unfold State.setFifo; (repeat' split) <;> simp
@[simp] theorem setFifo_wanted (s : State) (i : FifoId) (q : List SEntry) : (s.setFifo i q).wanted = s.wanted := by
  unfold State.setFifo; (repeat' split) <;> simp
@[simp] theorem setFifo_pages (s : State) (i : FifoId) (q : List SEntry) : (s.setFifo i q).pages = s.pages := by
  unfold State.setFifo; (repeat' split) <;> simp
@[simp] theorem setFifo_commands (s : State) (i : FifoId) (q : List SEntry) : (s.setFifo i q).commands = s.commands := by
  unfold State.setFifo; (repeat' split) <;> simp
@[simp] theorem setFifo_code (s : State) (i : FifoId) (q : List SEntry) : (s.setFifo i q).code = s.code := by
  unfold State.setFifo; (repeat' split) <;> simp
@[simp] theorem setFifo_fabric (s : State) (i : FifoId) (q : List SEntry) : (s.setFifo i q).fabric = s.fabric := by
  unfold State.setFifo; (repeat' split) <;> simp
@[simp] theorem setFifo_outbox (s : State) (i : FifoId) (q : List SEntry) : (s.setFifo i q).outbox = s.outbox := by
  unfold State.setFifo; (repeat' split) <;> simp
@[simp] theorem setFifo_answers (s : State) (i : FifoId) (q : List SEntry) : (s.setFifo i q).answers = s.answers := by
  unfold State.setFifo; (repeat' split) <;> simp
@[simp] theorem setFifo_genable (s : State) (i : FifoId) (q : List SEntry) : (s.setFifo i q).genable = s.genable := by
  unfold State.setFifo; (repeat' split) <;> simp
@[simp] theorem setFifo_boot (s : State) (i : FifoId) (q : List SEntry) : (s.setFifo i q).boot = s.boot := by
  unfold State.setFifo; (repeat' split) <;> simp
@[simp] theorem setFifo_respep (s : State) (i : FifoId) (q : List SEntry) : (s.setFifo i q).respep = s.respep := by
  unfold State.setFifo; (repeat' split) <;> simp
@[simp] theorem setFifo_bootFrom (s : State) (i : FifoId) (q : List SEntry) : (s.setFifo i q).bootFrom = s.bootFrom := by
  unfold State.setFifo; (repeat' split) <;> simp
@[simp] theorem setFifo_attest (s : State) (i : FifoId) (q : List SEntry) : (s.setFifo i q).attest = s.attest := by
  unfold State.setFifo; (repeat' split) <;> simp
@[simp] theorem setFifo_record (s : State) (i : FifoId) (q : List SEntry) : (s.setFifo i q).record = s.record := by
  unfold State.setFifo; (repeat' split) <;> simp
@[simp] theorem setFifo_alarm (s : State) (i : FifoId) (q : List SEntry) : (s.setFifo i q).alarm = s.alarm := by
  unfold State.setFifo; (repeat' split) <;> simp
@[simp] theorem setFifo_alarmSrc (s : State) (i : FifoId) (q : List SEntry) : (s.setFifo i q).alarmSrc = s.alarmSrc := by
  unfold State.setFifo; (repeat' split) <;> simp
@[simp] theorem setFifo_haltArm (s : State) (i : FifoId) (q : List SEntry) : (s.setFifo i q).haltArm = s.haltArm := by
  unfold State.setFifo; (repeat' split) <;> simp
@[simp] theorem setFifo_eraseArm (s : State) (i : FifoId) (q : List SEntry) : (s.setFifo i q).eraseArm = s.eraseArm := by
  unfold State.setFifo; (repeat' split) <;> simp
@[simp] theorem setFifo_keysErased (s : State) (i : FifoId) (q : List SEntry) : (s.setFifo i q).keysErased = s.keysErased := by
  unfold State.setFifo; (repeat' split) <;> simp
@[simp] theorem setFifo_selfTest (s : State) (i : FifoId) (q : List SEntry) : (s.setFifo i q).selfTest = s.selfTest := by
  unfold State.setFifo; (repeat' split) <;> simp

@[simp] theorem setMark_clock (s : State) (a : Agent) (x : Scope) : (s.setMark a x).clock = s.clock := by
  simp [State.setMark]
@[simp] theorem setMark_agenda (s : State) (a : Agent) (x : Scope) : (s.setMark a x).agenda = s.agenda := by
  simp [State.setMark]
@[simp] theorem setMark_cur (s : State) (a : Agent) (x : Scope) : (s.setMark a x).cur = s.cur := by
  simp [State.setMark]
@[simp] theorem setMark_freeCtr (s : State) (a : Agent) (x : Scope) : (s.setMark a x).freeCtr = s.freeCtr := by
  simp [State.setMark]
@[simp] theorem setMark_serial (s : State) (a : Agent) (x : Scope) : (s.setMark a x).serial = s.serial := by
  simp [State.setMark]
@[simp] theorem setMark_mem (s : State) (a : Agent) (x : Scope) : (s.setMark a x).mem = s.mem := by
  simp [State.setMark]
@[simp] theorem setMark_areas (s : State) (a : Agent) (x : Scope) : (s.setMark a x).areas = s.areas := by
  simp [State.setMark]
@[simp] theorem setMark_memBad (s : State) (a : Agent) (x : Scope) : (s.setMark a x).memBad = s.memBad := by
  simp [State.setMark]
@[simp] theorem setMark_mscBad (s : State) (a : Agent) (x : Scope) : (s.setMark a x).mscBad = s.mscBad := by
  simp [State.setMark]
@[simp] theorem setMark_msc (s : State) (a : Agent) (x : Scope) : (s.setMark a x).msc = s.msc := by
  simp [State.setMark]
@[simp] theorem setMark_l2 (s : State) (a : Agent) (x : Scope) : (s.setMark a x).l2 = s.l2 := by
  simp [State.setMark]
@[simp] theorem setMark_clusterTlb (s : State) (a : Agent) (x : Scope) : (s.setMark a x).clusterTlb = s.clusterTlb := by
  simp [State.setMark]
@[simp] theorem setMark_tenders (s : State) (a : Agent) (x : Scope) : (s.setMark a x).tenders = s.tenders := by
  simp [State.setMark]
@[simp] theorem setMark_pairs (s : State) (a : Agent) (x : Scope) : (s.setMark a x).pairs = s.pairs := by
  simp [State.setMark]
@[simp] theorem setMark_kqueues (s : State) (a : Agent) (x : Scope) : (s.setMark a x).kqueues = s.kqueues := by
  simp [State.setMark]
@[simp] theorem setMark_fes (s : State) (a : Agent) (x : Scope) : (s.setMark a x).fes = s.fes := by
  simp [State.setMark]
@[simp] theorem setMark_parts (s : State) (a : Agent) (x : Scope) : (s.setMark a x).parts = s.parts := by
  simp [State.setMark]
@[simp] theorem setMark_vds (s : State) (a : Agent) (x : Scope) : (s.setMark a x).vds = s.vds := by
  simp [State.setMark]
@[simp] theorem setMark_members (s : State) (a : Agent) (x : Scope) : (s.setMark a x).members = s.members := by
  simp [State.setMark]
@[simp] theorem setMark_dies (s : State) (a : Agent) (x : Scope) : (s.setMark a x).dies = s.dies := by
  simp [State.setMark]
@[simp] theorem setMark_walks (s : State) (a : Agent) (x : Scope) : (s.setMark a x).walks = s.walks := by
  simp [State.setMark]
@[simp] theorem setMark_pageReqs (s : State) (a : Agent) (x : Scope) : (s.setMark a x).pageReqs = s.pageReqs := by
  simp [State.setMark]
@[simp] theorem setMark_wanted (s : State) (a : Agent) (x : Scope) : (s.setMark a x).wanted = s.wanted := by
  simp [State.setMark]
@[simp] theorem setMark_pages (s : State) (a : Agent) (x : Scope) : (s.setMark a x).pages = s.pages := by
  simp [State.setMark]
@[simp] theorem setMark_commands (s : State) (a : Agent) (x : Scope) : (s.setMark a x).commands = s.commands := by
  simp [State.setMark]
@[simp] theorem setMark_code (s : State) (a : Agent) (x : Scope) : (s.setMark a x).code = s.code := by
  simp [State.setMark]
@[simp] theorem setMark_fabric (s : State) (a : Agent) (x : Scope) : (s.setMark a x).fabric = s.fabric := by
  simp [State.setMark]
@[simp] theorem setMark_outbox (s : State) (a : Agent) (x : Scope) : (s.setMark a x).outbox = s.outbox := by
  simp [State.setMark]
@[simp] theorem setMark_answers (s : State) (a : Agent) (x : Scope) : (s.setMark a x).answers = s.answers := by
  simp [State.setMark]
@[simp] theorem setMark_genable (s : State) (a : Agent) (x : Scope) : (s.setMark a x).genable = s.genable := by
  simp [State.setMark]
@[simp] theorem setMark_boot (s : State) (a : Agent) (x : Scope) : (s.setMark a x).boot = s.boot := by
  simp [State.setMark]
@[simp] theorem setMark_respep (s : State) (a : Agent) (x : Scope) : (s.setMark a x).respep = s.respep := by
  simp [State.setMark]
@[simp] theorem setMark_bootFrom (s : State) (a : Agent) (x : Scope) : (s.setMark a x).bootFrom = s.bootFrom := by
  simp [State.setMark]
@[simp] theorem setMark_attest (s : State) (a : Agent) (x : Scope) : (s.setMark a x).attest = s.attest := by
  simp [State.setMark]
@[simp] theorem setMark_record (s : State) (a : Agent) (x : Scope) : (s.setMark a x).record = s.record := by
  simp [State.setMark]
@[simp] theorem setMark_alarm (s : State) (a : Agent) (x : Scope) : (s.setMark a x).alarm = s.alarm := by
  simp [State.setMark]
@[simp] theorem setMark_alarmSrc (s : State) (a : Agent) (x : Scope) : (s.setMark a x).alarmSrc = s.alarmSrc := by
  simp [State.setMark]
@[simp] theorem setMark_haltArm (s : State) (a : Agent) (x : Scope) : (s.setMark a x).haltArm = s.haltArm := by
  simp [State.setMark]
@[simp] theorem setMark_eraseArm (s : State) (a : Agent) (x : Scope) : (s.setMark a x).eraseArm = s.eraseArm := by
  simp [State.setMark]
@[simp] theorem setMark_keysErased (s : State) (a : Agent) (x : Scope) : (s.setMark a x).keysErased = s.keysErased := by
  simp [State.setMark]
@[simp] theorem setMark_selfTest (s : State) (a : Agent) (x : Scope) : (s.setMark a x).selfTest = s.selfTest := by
  simp [State.setMark]

@[simp] theorem deschedule_clock (s : State) (a : Agent) : (s.deschedule a).clock = s.clock := by
  unfold State.deschedule; (repeat' split) <;> simp
@[simp] theorem deschedule_agenda (s : State) (a : Agent) : (s.deschedule a).agenda = s.agenda := by
  unfold State.deschedule; (repeat' split) <;> simp
@[simp] theorem deschedule_cur (s : State) (a : Agent) : (s.deschedule a).cur = s.cur := by
  unfold State.deschedule; (repeat' split) <;> simp
@[simp] theorem deschedule_freeCtr (s : State) (a : Agent) : (s.deschedule a).freeCtr = s.freeCtr := by
  unfold State.deschedule; (repeat' split) <;> simp
@[simp] theorem deschedule_serial (s : State) (a : Agent) : (s.deschedule a).serial = s.serial := by
  unfold State.deschedule; (repeat' split) <;> simp
@[simp] theorem deschedule_mem (s : State) (a : Agent) : (s.deschedule a).mem = s.mem := by
  unfold State.deschedule; (repeat' split) <;> simp
@[simp] theorem deschedule_areas (s : State) (a : Agent) : (s.deschedule a).areas = s.areas := by
  unfold State.deschedule; (repeat' split) <;> simp
@[simp] theorem deschedule_memBad (s : State) (a : Agent) : (s.deschedule a).memBad = s.memBad := by
  unfold State.deschedule; (repeat' split) <;> simp
@[simp] theorem deschedule_mscBad (s : State) (a : Agent) : (s.deschedule a).mscBad = s.mscBad := by
  unfold State.deschedule; (repeat' split) <;> simp
@[simp] theorem deschedule_msc (s : State) (a : Agent) : (s.deschedule a).msc = s.msc := by
  unfold State.deschedule; (repeat' split) <;> simp
@[simp] theorem deschedule_l2 (s : State) (a : Agent) : (s.deschedule a).l2 = s.l2 := by
  unfold State.deschedule; (repeat' split) <;> simp
@[simp] theorem deschedule_clusterTlb (s : State) (a : Agent) : (s.deschedule a).clusterTlb = s.clusterTlb := by
  unfold State.deschedule; (repeat' split) <;> simp
@[simp] theorem deschedule_tenders (s : State) (a : Agent) : (s.deschedule a).tenders = s.tenders := by
  unfold State.deschedule; (repeat' split) <;> simp
@[simp] theorem deschedule_pairs (s : State) (a : Agent) : (s.deschedule a).pairs = s.pairs := by
  unfold State.deschedule; (repeat' split) <;> simp
@[simp] theorem deschedule_kqueues (s : State) (a : Agent) : (s.deschedule a).kqueues = s.kqueues := by
  unfold State.deschedule; (repeat' split) <;> simp
@[simp] theorem deschedule_fes (s : State) (a : Agent) : (s.deschedule a).fes = s.fes := by
  unfold State.deschedule; (repeat' split) <;> simp
@[simp] theorem deschedule_parts (s : State) (a : Agent) : (s.deschedule a).parts = s.parts := by
  unfold State.deschedule; (repeat' split) <;> simp
@[simp] theorem deschedule_vds (s : State) (a : Agent) : (s.deschedule a).vds = s.vds := by
  unfold State.deschedule; (repeat' split) <;> simp
@[simp] theorem deschedule_members (s : State) (a : Agent) : (s.deschedule a).members = s.members := by
  unfold State.deschedule; (repeat' split) <;> simp
@[simp] theorem deschedule_dies (s : State) (a : Agent) : (s.deschedule a).dies = s.dies := by
  unfold State.deschedule; (repeat' split) <;> simp
@[simp] theorem deschedule_walks (s : State) (a : Agent) : (s.deschedule a).walks = s.walks := by
  unfold State.deschedule; (repeat' split) <;> simp
@[simp] theorem deschedule_pageReqs (s : State) (a : Agent) : (s.deschedule a).pageReqs = s.pageReqs := by
  unfold State.deschedule; (repeat' split) <;> simp
@[simp] theorem deschedule_wanted (s : State) (a : Agent) : (s.deschedule a).wanted = s.wanted := by
  unfold State.deschedule; (repeat' split) <;> simp
@[simp] theorem deschedule_pages (s : State) (a : Agent) : (s.deschedule a).pages = s.pages := by
  unfold State.deschedule; (repeat' split) <;> simp
@[simp] theorem deschedule_commands (s : State) (a : Agent) : (s.deschedule a).commands = s.commands := by
  unfold State.deschedule; (repeat' split) <;> simp
@[simp] theorem deschedule_code (s : State) (a : Agent) : (s.deschedule a).code = s.code := by
  unfold State.deschedule; (repeat' split) <;> simp
@[simp] theorem deschedule_fabric (s : State) (a : Agent) : (s.deschedule a).fabric = s.fabric := by
  unfold State.deschedule; (repeat' split) <;> simp
@[simp] theorem deschedule_outbox (s : State) (a : Agent) : (s.deschedule a).outbox = s.outbox := by
  unfold State.deschedule; (repeat' split) <;> simp
@[simp] theorem deschedule_answers (s : State) (a : Agent) : (s.deschedule a).answers = s.answers := by
  unfold State.deschedule; (repeat' split) <;> simp
@[simp] theorem deschedule_genable (s : State) (a : Agent) : (s.deschedule a).genable = s.genable := by
  unfold State.deschedule; (repeat' split) <;> simp
@[simp] theorem deschedule_boot (s : State) (a : Agent) : (s.deschedule a).boot = s.boot := by
  unfold State.deschedule; (repeat' split) <;> simp
@[simp] theorem deschedule_respep (s : State) (a : Agent) : (s.deschedule a).respep = s.respep := by
  unfold State.deschedule; (repeat' split) <;> simp
@[simp] theorem deschedule_bootFrom (s : State) (a : Agent) : (s.deschedule a).bootFrom = s.bootFrom := by
  unfold State.deschedule; (repeat' split) <;> simp
@[simp] theorem deschedule_attest (s : State) (a : Agent) : (s.deschedule a).attest = s.attest := by
  unfold State.deschedule; (repeat' split) <;> simp
@[simp] theorem deschedule_record (s : State) (a : Agent) : (s.deschedule a).record = s.record := by
  unfold State.deschedule; (repeat' split) <;> simp
@[simp] theorem deschedule_alarm (s : State) (a : Agent) : (s.deschedule a).alarm = s.alarm := by
  unfold State.deschedule; (repeat' split) <;> simp
@[simp] theorem deschedule_alarmSrc (s : State) (a : Agent) : (s.deschedule a).alarmSrc = s.alarmSrc := by
  unfold State.deschedule; (repeat' split) <;> simp
@[simp] theorem deschedule_haltArm (s : State) (a : Agent) : (s.deschedule a).haltArm = s.haltArm := by
  unfold State.deschedule; (repeat' split) <;> simp
@[simp] theorem deschedule_eraseArm (s : State) (a : Agent) : (s.deschedule a).eraseArm = s.eraseArm := by
  unfold State.deschedule; (repeat' split) <;> simp
@[simp] theorem deschedule_keysErased (s : State) (a : Agent) : (s.deschedule a).keysErased = s.keysErased := by
  unfold State.deschedule; (repeat' split) <;> simp
@[simp] theorem deschedule_selfTest (s : State) (a : Agent) : (s.deschedule a).selfTest = s.selfTest := by
  unfold State.deschedule; (repeat' split) <;> simp

@[simp] theorem recordSrs_clock (s : State) (a : Agent) : (s.recordSrs a).clock = s.clock := by
  simp [State.recordSrs]
@[simp] theorem recordSrs_agenda (s : State) (a : Agent) : (s.recordSrs a).agenda = s.agenda := by
  simp [State.recordSrs]
@[simp] theorem recordSrs_cur (s : State) (a : Agent) : (s.recordSrs a).cur = s.cur := by
  simp [State.recordSrs]
@[simp] theorem recordSrs_freeCtr (s : State) (a : Agent) : (s.recordSrs a).freeCtr = s.freeCtr := by
  simp [State.recordSrs]
@[simp] theorem recordSrs_serial (s : State) (a : Agent) : (s.recordSrs a).serial = s.serial := by
  simp [State.recordSrs]
@[simp] theorem recordSrs_mem (s : State) (a : Agent) : (s.recordSrs a).mem = s.mem := by
  simp [State.recordSrs]
@[simp] theorem recordSrs_areas (s : State) (a : Agent) : (s.recordSrs a).areas = s.areas := by
  simp [State.recordSrs]
@[simp] theorem recordSrs_memBad (s : State) (a : Agent) : (s.recordSrs a).memBad = s.memBad := by
  simp [State.recordSrs]
@[simp] theorem recordSrs_mscBad (s : State) (a : Agent) : (s.recordSrs a).mscBad = s.mscBad := by
  simp [State.recordSrs]
@[simp] theorem recordSrs_msc (s : State) (a : Agent) : (s.recordSrs a).msc = s.msc := by
  simp [State.recordSrs]
@[simp] theorem recordSrs_l2 (s : State) (a : Agent) : (s.recordSrs a).l2 = s.l2 := by
  simp [State.recordSrs]
@[simp] theorem recordSrs_clusterTlb (s : State) (a : Agent) : (s.recordSrs a).clusterTlb = s.clusterTlb := by
  simp [State.recordSrs]
@[simp] theorem recordSrs_tenders (s : State) (a : Agent) : (s.recordSrs a).tenders = s.tenders := by
  simp [State.recordSrs]
@[simp] theorem recordSrs_pairs (s : State) (a : Agent) : (s.recordSrs a).pairs = s.pairs := by
  simp [State.recordSrs]
@[simp] theorem recordSrs_kqueues (s : State) (a : Agent) : (s.recordSrs a).kqueues = s.kqueues := by
  simp [State.recordSrs]
@[simp] theorem recordSrs_fes (s : State) (a : Agent) : (s.recordSrs a).fes = s.fes := by
  simp [State.recordSrs]
@[simp] theorem recordSrs_parts (s : State) (a : Agent) : (s.recordSrs a).parts = s.parts := by
  simp [State.recordSrs]
@[simp] theorem recordSrs_vds (s : State) (a : Agent) : (s.recordSrs a).vds = s.vds := by
  simp [State.recordSrs]
@[simp] theorem recordSrs_members (s : State) (a : Agent) : (s.recordSrs a).members = s.members := by
  simp [State.recordSrs]
@[simp] theorem recordSrs_dies (s : State) (a : Agent) : (s.recordSrs a).dies = s.dies := by
  simp [State.recordSrs]
@[simp] theorem recordSrs_walks (s : State) (a : Agent) : (s.recordSrs a).walks = s.walks := by
  simp [State.recordSrs]
@[simp] theorem recordSrs_pageReqs (s : State) (a : Agent) : (s.recordSrs a).pageReqs = s.pageReqs := by
  simp [State.recordSrs]
@[simp] theorem recordSrs_wanted (s : State) (a : Agent) : (s.recordSrs a).wanted = s.wanted := by
  simp [State.recordSrs]
@[simp] theorem recordSrs_pages (s : State) (a : Agent) : (s.recordSrs a).pages = s.pages := by
  simp [State.recordSrs]
@[simp] theorem recordSrs_commands (s : State) (a : Agent) : (s.recordSrs a).commands = s.commands := by
  simp [State.recordSrs]
@[simp] theorem recordSrs_code (s : State) (a : Agent) : (s.recordSrs a).code = s.code := by
  simp [State.recordSrs]
@[simp] theorem recordSrs_fabric (s : State) (a : Agent) : (s.recordSrs a).fabric = s.fabric := by
  simp [State.recordSrs]
@[simp] theorem recordSrs_outbox (s : State) (a : Agent) : (s.recordSrs a).outbox = s.outbox := by
  simp [State.recordSrs]
@[simp] theorem recordSrs_answers (s : State) (a : Agent) : (s.recordSrs a).answers = s.answers := by
  simp [State.recordSrs]
@[simp] theorem recordSrs_genable (s : State) (a : Agent) : (s.recordSrs a).genable = s.genable := by
  simp [State.recordSrs]
@[simp] theorem recordSrs_boot (s : State) (a : Agent) : (s.recordSrs a).boot = s.boot := by
  simp [State.recordSrs]
@[simp] theorem recordSrs_respep (s : State) (a : Agent) : (s.recordSrs a).respep = s.respep := by
  simp [State.recordSrs]
@[simp] theorem recordSrs_bootFrom (s : State) (a : Agent) : (s.recordSrs a).bootFrom = s.bootFrom := by
  simp [State.recordSrs]
@[simp] theorem recordSrs_attest (s : State) (a : Agent) : (s.recordSrs a).attest = s.attest := by
  simp [State.recordSrs]
@[simp] theorem recordSrs_record (s : State) (a : Agent) : (s.recordSrs a).record = s.record := by
  simp [State.recordSrs]
@[simp] theorem recordSrs_alarm (s : State) (a : Agent) : (s.recordSrs a).alarm = s.alarm := by
  simp [State.recordSrs]
@[simp] theorem recordSrs_alarmSrc (s : State) (a : Agent) : (s.recordSrs a).alarmSrc = s.alarmSrc := by
  simp [State.recordSrs]
@[simp] theorem recordSrs_haltArm (s : State) (a : Agent) : (s.recordSrs a).haltArm = s.haltArm := by
  simp [State.recordSrs]
@[simp] theorem recordSrs_eraseArm (s : State) (a : Agent) : (s.recordSrs a).eraseArm = s.eraseArm := by
  simp [State.recordSrs]
@[simp] theorem recordSrs_keysErased (s : State) (a : Agent) : (s.recordSrs a).keysErased = s.keysErased := by
  simp [State.recordSrs]
@[simp] theorem recordSrs_selfTest (s : State) (a : Agent) : (s.recordSrs a).selfTest = s.selfTest := by
  simp [State.recordSrs]

@[simp] theorem performed_clock (s : State) (a : Agent) : (s.performed a).clock = s.clock := by
  simp [State.performed]
@[simp] theorem performed_agenda (s : State) (a : Agent) : (s.performed a).agenda = s.agenda := by
  simp [State.performed]
@[simp] theorem performed_cur (s : State) (a : Agent) : (s.performed a).cur = s.cur := by
  simp [State.performed]
@[simp] theorem performed_freeCtr (s : State) (a : Agent) : (s.performed a).freeCtr = s.freeCtr := by
  simp [State.performed]
@[simp] theorem performed_serial (s : State) (a : Agent) : (s.performed a).serial = s.serial := by
  simp [State.performed]
@[simp] theorem performed_mem (s : State) (a : Agent) : (s.performed a).mem = s.mem := by
  simp [State.performed]
@[simp] theorem performed_areas (s : State) (a : Agent) : (s.performed a).areas = s.areas := by
  simp [State.performed]
@[simp] theorem performed_memBad (s : State) (a : Agent) : (s.performed a).memBad = s.memBad := by
  simp [State.performed]
@[simp] theorem performed_mscBad (s : State) (a : Agent) : (s.performed a).mscBad = s.mscBad := by
  simp [State.performed]
@[simp] theorem performed_msc (s : State) (a : Agent) : (s.performed a).msc = s.msc := by
  simp [State.performed]
@[simp] theorem performed_l2 (s : State) (a : Agent) : (s.performed a).l2 = s.l2 := by
  simp [State.performed]
@[simp] theorem performed_clusterTlb (s : State) (a : Agent) : (s.performed a).clusterTlb = s.clusterTlb := by
  simp [State.performed]
@[simp] theorem performed_tenders (s : State) (a : Agent) : (s.performed a).tenders = s.tenders := by
  simp [State.performed]
@[simp] theorem performed_pairs (s : State) (a : Agent) : (s.performed a).pairs = s.pairs := by
  simp [State.performed]
@[simp] theorem performed_kqueues (s : State) (a : Agent) : (s.performed a).kqueues = s.kqueues := by
  simp [State.performed]
@[simp] theorem performed_fes (s : State) (a : Agent) : (s.performed a).fes = s.fes := by
  simp [State.performed]
@[simp] theorem performed_parts (s : State) (a : Agent) : (s.performed a).parts = s.parts := by
  simp [State.performed]
@[simp] theorem performed_vds (s : State) (a : Agent) : (s.performed a).vds = s.vds := by
  simp [State.performed]
@[simp] theorem performed_members (s : State) (a : Agent) : (s.performed a).members = s.members := by
  simp [State.performed]
@[simp] theorem performed_dies (s : State) (a : Agent) : (s.performed a).dies = s.dies := by
  simp [State.performed]
@[simp] theorem performed_walks (s : State) (a : Agent) : (s.performed a).walks = s.walks := by
  simp [State.performed]
@[simp] theorem performed_pageReqs (s : State) (a : Agent) : (s.performed a).pageReqs = s.pageReqs := by
  simp [State.performed]
@[simp] theorem performed_wanted (s : State) (a : Agent) : (s.performed a).wanted = s.wanted := by
  simp [State.performed]
@[simp] theorem performed_pages (s : State) (a : Agent) : (s.performed a).pages = s.pages := by
  simp [State.performed]
@[simp] theorem performed_commands (s : State) (a : Agent) : (s.performed a).commands = s.commands := by
  simp [State.performed]
@[simp] theorem performed_code (s : State) (a : Agent) : (s.performed a).code = s.code := by
  simp [State.performed]
@[simp] theorem performed_fabric (s : State) (a : Agent) : (s.performed a).fabric = s.fabric := by
  simp [State.performed]
@[simp] theorem performed_outbox (s : State) (a : Agent) : (s.performed a).outbox = s.outbox := by
  simp [State.performed]
@[simp] theorem performed_answers (s : State) (a : Agent) : (s.performed a).answers = s.answers := by
  simp [State.performed]
@[simp] theorem performed_genable (s : State) (a : Agent) : (s.performed a).genable = s.genable := by
  simp [State.performed]
@[simp] theorem performed_boot (s : State) (a : Agent) : (s.performed a).boot = s.boot := by
  simp [State.performed]
@[simp] theorem performed_respep (s : State) (a : Agent) : (s.performed a).respep = s.respep := by
  simp [State.performed]
@[simp] theorem performed_bootFrom (s : State) (a : Agent) : (s.performed a).bootFrom = s.bootFrom := by
  simp [State.performed]
@[simp] theorem performed_attest (s : State) (a : Agent) : (s.performed a).attest = s.attest := by
  simp [State.performed]
@[simp] theorem performed_record (s : State) (a : Agent) : (s.performed a).record = s.record := by
  simp [State.performed]
@[simp] theorem performed_alarm (s : State) (a : Agent) : (s.performed a).alarm = s.alarm := by
  simp [State.performed]
@[simp] theorem performed_alarmSrc (s : State) (a : Agent) : (s.performed a).alarmSrc = s.alarmSrc := by
  simp [State.performed]
@[simp] theorem performed_haltArm (s : State) (a : Agent) : (s.performed a).haltArm = s.haltArm := by
  simp [State.performed]
@[simp] theorem performed_eraseArm (s : State) (a : Agent) : (s.performed a).eraseArm = s.eraseArm := by
  simp [State.performed]
@[simp] theorem performed_keysErased (s : State) (a : Agent) : (s.performed a).keysErased = s.keysErased := by
  simp [State.performed]
@[simp] theorem performed_selfTest (s : State) (a : Agent) : (s.performed a).selfTest = s.selfTest := by
  simp [State.performed]

/-! ### Commit -/

/-- The commit of a strand changes no field but the cores', the tenders' and the serial number. -/
theorem commit_keeps {γ : Type} (p : State → γ) (s : State) (a : Agent) (hg : ∀ s k, p (s.mapGroup a k) = p s)
    (hn : ∀ (s : State) n, p { s with serial := n } = p s) (hq : ∀ s i q, p (s.setFifo i q) = p s) :
    p (s.commit a) = p s := by
  unfold State.commit
  dsimp only
  split
  · exact hg _ _
  · split
    · exact hg _ _
    · rw [hg, foldl_same p _ _ _ fun s h => hq s _ _, hn, hg, hg]

@[simp] theorem commit_mem (s : State) (a : Agent) : (s.commit a).mem = s.mem :=
  commit_keeps State.mem s a (by simp) (by simp) (by simp)
@[simp] theorem commit_l2 (s : State) (a : Agent) : (s.commit a).l2 = s.l2 :=
  commit_keeps State.l2 s a (by simp) (by simp) (by simp)
@[simp] theorem commit_parts (s : State) (a : Agent) : (s.commit a).parts = s.parts :=
  commit_keeps State.parts s a (by simp) (by simp) (by simp)
@[simp] theorem commitAt_mem (s : State) (a : Agent) : (s.commitAt a).mem = s.mem := by simp [State.commitAt]
@[simp] theorem commitAt_l2 (s : State) (a : Agent) : (s.commitAt a).l2 = s.l2 := by simp [State.commitAt]
@[simp] theorem commitAt_parts (s : State) (a : Agent) : (s.commitAt a).parts = s.parts := by simp [State.commitAt]
@[simp] theorem ensureCommit_mem (s : State) (c : Ctx) : (s.ensureCommit c).mem = s.mem := by
  unfold State.ensureCommit; split <;> simp
@[simp] theorem ensureCommit_l2 (s : State) (c : Ctx) : (s.ensureCommit c).l2 = s.l2 := by
  unfold State.ensureCommit; split <;> simp

/-! ### Records and traps -/

/-- The form of memory over a choice. -/
theorem wf_ite {c : Prop} [Decidable c] {x y : State} (hx : x.mem.wf = true) (hy : y.mem.wf = true) :
    (if c then x else y).mem.wf = true := by split <;> assumption

@[simp] theorem deliverEvent_mem (s : State) (p : Nat) : (s.deliverEvent p).mem = s.mem := by
  unfold State.deliverEvent
  dsimp only
  split
  · split <;> simp
  · rfl

theorem writeRecord_wf (s : State) (p : Nat) (r : BitVec 512) (h : s.mem.wf = true) : (s.writeRecord p r).mem.wf = true := by
  unfold State.writeRecord
  rw [deliverEvent_mem]
  exact mscWrite_wf _ _ _ h

/-- Posting a record: written to the ring, held, dropped, or not armed; memory keeps its form. -/
theorem post_wf (s : State) (p : Nat) (k : RecClass) (r : Rec) (h : s.mem.wf = true) : (s.post p k r).mem.wf = true := by
  unfold State.post
  dsimp only
  split
  · exact h
  · split
    · exact writeRecord_wf _ _ _ h
    · split <;> simpa using h

/-- Taking a trap keeps the form of memory. -/
theorem takeTrap_wf (s : State) (c : Ctx) (t : TrapInfo) (h : s.mem.wf = true) : (takeTrap s c t).mem.wf = true := by
  unfold takeTrap
  dsimp only
  generalize hs : (if t.cause.inPlace = true then s else s.deschedule c.agent) = s1
  have h1 : s1.mem.wf = true := by subst hs; split <;> simpa using h
  split
  · exact h1
  · split
    · refine post_wf _ _ _ _ ?_
      split <;> exact h1
    · refine post_wf _ _ _ _ ?_
      simpa [State.newHandle] using h1

theorem trapOut_wf (s t : State) (c : Ctx) (x : TrapInfo) (h : s.mem.wf = true) (e : trapOut s c x = .next t) :
    t.mem.wf = true := by
  unfold trapOut at e; cases e; exact takeTrap_wf s c x h

/-! ### Releases and acquires -/

theorem releaseAction_wf (s : State) (cl : Nat) (x : Scope) (h : s.mem.wf = true) : (s.releaseAction cl x).mem.wf = true := by
  unfold State.releaseAction
  split
  · exact writeBackAll_wf _ _ h
  · exact h

theorem acquireAction_wf (s : State) (cl : Nat) (x : Scope) (h : s.mem.wf = true) : (s.acquireAction cl x).mem.wf = true := by
  unfold State.acquireAction
  split
  · exact acquireSlice_wf _ _ h
  · exact h

theorem acquire_wf (s : State) (c : Ctx) (x : Scope) (h : s.mem.wf = true) : (s.acquire c x).mem.wf = true := by
  unfold State.acquire
  split
  · exact h
  · exact acquireAction_wf _ _ _ h

theorem release_wf (s : State) (c : Ctx) (x : Scope) (h : s.mem.wf = true) : (s.release c x).mem.wf = true := by
  unfold State.release
  split
  · exact h
  · exact releaseAction_wf _ _ _ h

theorem takeMark_wf (s t : State) (c : Ctx) (h : s.mem.wf = true) (e : s.takeMark c = some t) : t.mem.wf = true := by
  unfold State.takeMark at e
  split at e
  · cases e; exact h
  · dsimp only at e
    split at e
    · cases e
      simpa using release_wf _ _ _ h
    · cases e

@[simp] theorem objArrive_mem (s : State) (core off k : Nat) (b : Bool) : (s.objArrive core off k b).mem = s.mem := rfl

/-! ### Translation -/

theorem markLeaf_wf (s : State) (space pte : Nat) (a d : Bool) (h : s.mem.wf = true) :
    (s.markLeaf space pte a d).mem.wf = true := by
  unfold State.markLeaf
  exact wf_ite h (mscWrite_wf _ _ _ (by rw [touch_mem]; exact h))

end Sys2Proof.Laws
end

