-- ==== Sys2Proof/Laws/Parts.lean ====
section
/-! SUPPORT. What the operations on the parts of one store, on accepted tile stores, on the half-issues of a width-64 pair, on
the head of a store queue, on lookups and on the context of an ejected lane can do, said once each. -/

namespace Sys2Proof.Laws

open Sys2Proof Sys2Proof.Machine

/-! ### The parts of one store -/

@[simp] theorem yieldTo_store (x e : SEntry) (kx ke : Nat → Nat) : (x.yieldTo e kx ke).store = x.store := by
  unfold SEntry.yieldTo; split <;> rfl
@[simp] theorem yieldTo_serial (x e : SEntry) (kx ke : Nat → Nat) : (x.yieldTo e kx ke).serial = x.serial := by
  unfold SEntry.yieldTo; split <;> rfl
@[simp] theorem yieldTo_mask (x e : SEntry) (kx ke : Nat → Nat) : (x.yieldTo e kx ke).mask = x.mask := by
  unfold SEntry.yieldTo; split <;> rfl
@[simp] theorem yieldTo_strong (x e : SEntry) (kx ke : Nat → Nat) : (x.yieldTo e kx ke).strong = x.strong := by
  unfold SEntry.yieldTo; split <;> rfl
@[simp] theorem yieldTo_rel (x e : SEntry) (kx ke : Nat → Nat) : (x.yieldTo e kx ke).rel = x.rel := by
  unfold SEntry.yieldTo; split <;> rfl

/-- A part that yields keeps the lane, the owners, the place and the action of every item. -/
theorem yieldTo_items (x e : SEntry) (kx ke : Nat → Nat) :
    (x.yieldTo e kx ke).items.map (fun i => (i.lane, i.owners, i.place, i.act)) =
      x.items.map fun i => (i.lane, i.owners, i.place, i.act) := by
  unfold SEntry.yieldTo
  split
  · rfl
  · rw [List.map_map]
    refine List.map_congr_left fun i _ => ?_
    simp only [Function.comp]
    split <;> rfl

/-- A part of another store yields nothing. -/
theorem yieldTo_other {x e : SEntry} (kx ke : Nat → Nat) (h : x.store ≠ e.store) : x.yieldTo e kx ke = x := by
  simp [SEntry.yieldTo, h]

/-- What the two parts of an entry own of an item is what the entry owns of it. -/
theorem owners_split (i m : W64) : (i &&& m) ||| (i &&& ~~~m) = i := by
  ext k hk
  simp only [BitVec.getElem_or, BitVec.getElem_and, BitVec.getElem_not]
  cases i[k] <;> cases m[k] <;> rfl

/-! ### Accepted tile stores -/

theorem mem_joinTile (t y : TileStore) (xs : List TileStore) : y ∈ joinTile t xs ↔ y = t ∨ y ∈ xs := by
  induction xs with
  | nil => simp [joinTile]
  | cons x xs ih =>
    simp only [joinTile]
    split
    · simp
    · simp only [List.mem_cons, ih, or_left_comm]

/-- A tile store joins a list in the order of arrival without breaking that order. -/
theorem joinTile_sorted (t : TileStore) (xs : List TileStore) (h : xs.Pairwise fun x y => x.serial ≤ y.serial) :
    (joinTile t xs).Pairwise fun x y => x.serial ≤ y.serial := by
  induction xs with
  | nil => simp [joinTile]
  | cons x xs ih =>
    rw [List.pairwise_cons] at h
    simp only [joinTile]
    split
    next le =>
      refine List.pairwise_cons.2 ⟨fun y hy => ?_, List.pairwise_cons.2 h⟩
      rcases List.mem_cons.1 hy with rfl | hy
      · exact le
      · exact Nat.le_trans le (h.1 y hy)
    next gt =>
      refine List.pairwise_cons.2 ⟨fun y hy => ?_, ih h.2⟩
      rcases (mem_joinTile t y xs).1 hy with rfl | hy
      · omega
      · exact h.1 y hy

/-! ### Half-issues -/

/-- A half that counts ran the instruction under its mask to the next instruction, without a stop or a wait. -/
theorem halfRun_some {a : Agent} {i : Instr} {half : W64} {s t : State} (h : halfRun a i half s = some t) :
    ∃ c u d, s.ctx? a = some c ∧ exec i (s.mapFrag a fun f => { f with mask := f.mask &&& half }) = .next u ∧ u.ctx? a = some d ∧
      d.f.pc = c.f.pc + 16 ∧ d.f.stop = none ∧ d.f.wait = .none ∧ t = u.mapFrag a fun f => { f with mask := c.f.mask } := by
  unfold halfRun at h
  split at h
  · cases h
  next c hc =>
    split at h
    next u hu =>
      split at h
      next d hd =>
        split at h
        next ok =>
          simp only [Bool.and_eq_true, beq_iff_eq, Option.isNone_iff_eq_none] at ok
          cases h
          exact ⟨c, u, d, hc, hu, hd, ok.1.1, ok.1.2, ok.2, rfl⟩
        · cases h
      · cases h
    · cases h

/-- A first half-issue takes the instruction whole, or leaves the fragment at it with its second half due. -/
theorem firstHalf_cases (a : Agent) (i : Instr) (c : Ctx) (s : State) :
    firstHalf a i c s = exec i s ∨ ∃ t, halfRun a i evenLanes s = some t ∧ ∃ k : Frag → Frag, firstHalf a i c s = .next (t.mapFrag a k) ∧
      ∀ f, (k f).pc = c.f.pc ∧ (k f).mask = c.f.mask ∧
        (k f).half = some ⟨s.clock + coreTicks (occupancy i), i, c.f.pend, c.g.lanes⟩ := by
  unfold firstHalf
  split
  · exact .inl rfl
  next t ht => exact .inr ⟨t, ht, _, rfl, fun _ => ⟨rfl, rfl, rfl⟩⟩

/-- A fragment without a second half that is due, or whose unit is not free, waits. -/
theorem secondHalf_waits {a : Agent} {s : State} {c : Ctx} (hc : s.ctx? a = some c)
    (h : ∀ x, c.f.half = some x → s.clock < x.due ∨ unitReady s c = false) : secondHalf a s = .next s := by
  unfold secondHalf
  rw [hc]
  dsimp only
  split
  · rfl
  next x hx =>
    rcases h x hx with h | h <;> simp [h]

/-! ### The head of a store queue -/

/-- A drain takes the head of a queue that may perform, its release action first, and nothing else. -/
theorem drainHead_some {s t : State} {id : FifoId} (h : s.drainHead id = some t) :
    ∃ e rest o, s.fifo id = e :: rest ∧ s.fifoOwner id = some o ∧ s.headReady id o e = true ∧
      ((t = s.performEntry id o e rest) ∨ ∃ sc k, e.rel = some sc ∧ o.cl = some k ∧ t = (s.releaseAction k sc).performEntry id o e rest) := by
  unfold State.drainHead at h
  split at h
  next e rest o he ho =>
    split at h
    · cases h
    next ok =>
      refine ⟨e, rest, o, he, ho, by simpa using ok, ?_⟩
      cases h
      split
      next sc k h1 h2 => exact .inr ⟨sc, k, h1, h2, rfl⟩
      · exact .inl rfl
  · cases h

/-- The head of a queue may perform only when nothing older stands in the other queue of its pair and no tile store before it
writes its bytes (R121, R123). -/
theorem headReady_first {s : State} {id : FifoId} {o : FifoOwner} {e : SEntry} (h : s.headReady id o e = true) :
    s.behindTwin id e = false ∧ e.behindTile o.tsts = false ∧ (e.items.any (itemWaits s o.die o.space)) = false := by
  simp only [State.headReady, Bool.and_eq_true, Bool.not_eq_true', Bool.or_eq_false_iff] at h
  exact ⟨h.1.2.1, h.1.2.2, h.1.1.1⟩

/-! ### Lookups, and the end of an ejected lane's context -/

@[simp] theorem touchWalk_mem (s : State) (root space : Nat) (va : W64) : (s.touchWalk root space va).mem = s.mem := by
  unfold State.touchWalk
  split
  · rfl
  · exact foldl_same State.mem _ _ s fun s _ => touch_mem s _ _

/-- A lookup for PREF and CCTL writes no memory, so it sets neither A nor D. -/
@[simp] theorem xlatLook_mem (s : State) (c : Ctx) (va : W64) : (s.xlatLook c va).2.mem = s.mem := by
  unfold State.xlatLook
  split
  · rfl
  · split
    · dsimp only; split <;> simp
    · rfl

theorem noteWrote_mem (s : State) (core thread pa n : Nat) : (s.noteWrote core thread pa n).mem = s.mem := by
  unfold State.noteWrote; split <;> rfl

theorem freeContext_wf (s : State) (e : Ejected) (h : s.mem.wf = true) : (s.freeContext e).mem.wf = true :=
  dropLines_wf s (clusterOf e.core) e.wrote h

end Sys2Proof.Laws
end

