-- ==== Sys2Proof/Laws/PerInstr.lean ====
section
/-! SUPPORT. One lemma per instruction: the row of its opcode in the map of R149 gives the instruction
back from its class word; an event of the module has no word. -/

namespace Sys2Proof.Laws

open Sys2Proof

/-- The instruction of an opcode row with a class word. -/
def rowInstr : OpRow → Body → Option Instr
  | .arith f, .arith w => some (f w)
  | .ctl f, .ctl w => some (f w)
  | .mem f, .mem w => some (f w)
  | .eng f, .eng w => some (f w)
  | .sys f, .sys w => some (f w)
  | _, _ => none

/-- The opcode of a well-formed instruction has a row, and the row with the class word is the
instruction (R149, R150). -/
def Encoding.Statement (i : Instr) : Prop :=
  i.wf = true → ∀ p, i.split = some p → (opRow p.1.toNat).bind (fun r => rowInstr r p.2) = some i

theorem Encoding.iadd (w : ArithOp) : Encoding.Statement (.iadd w) := by
  intro _ p hp; cases hp <;> rfl
theorem Encoding.iaddx (w : ArithOp) : Encoding.Statement (.iaddx w) := by
  intro _ p hp; cases hp <;> rfl
theorem Encoding.isub (w : ArithOp) : Encoding.Statement (.isub w) := by
  intro _ p hp; cases hp <;> rfl
theorem Encoding.imul (w : ArithOp) : Encoding.Statement (.imul w) := by
  intro _ p hp; cases hp <;> rfl
theorem Encoding.imulh (w : ArithOp) : Encoding.Statement (.imulh w) := by
  intro _ p hp; cases hp <;> rfl
theorem Encoding.imad (w : ArithOp) : Encoding.Statement (.imad w) := by
  intro _ p hp; cases hp <;> rfl
theorem Encoding.imin (w : ArithOp) : Encoding.Statement (.imin w) := by
  intro _ p hp; cases hp <;> rfl
theorem Encoding.imax (w : ArithOp) : Encoding.Statement (.imax w) := by
  intro _ p hp; cases hp <;> rfl
theorem Encoding.iabs (w : ArithOp) : Encoding.Statement (.iabs w) := by
  intro _ p hp; cases hp <;> rfl
theorem Encoding.ineg (w : ArithOp) : Encoding.Statement (.ineg w) := by
  intro _ p hp; cases hp <;> rfl
theorem Encoding.icmp (w : ArithOp) : Encoding.Statement (.icmp w) := by
  intro _ p hp; cases hp <;> rfl
theorem Encoding.lea (w : ArithOp) : Encoding.Statement (.lea w) := by
  intro _ p hp; cases hp <;> rfl
theorem Encoding.and (w : ArithOp) : Encoding.Statement (.and w) := by
  intro _ p hp; cases hp <;> rfl
theorem Encoding.or (w : ArithOp) : Encoding.Statement (.or w) := by
  intro _ p hp; cases hp <;> rfl
theorem Encoding.xor (w : ArithOp) : Encoding.Statement (.xor w) := by
  intro _ p hp; cases hp <;> rfl
theorem Encoding.not (w : ArithOp) : Encoding.Statement (.not w) := by
  intro _ p hp; cases hp <;> rfl
theorem Encoding.tern (w : ArithOp) : Encoding.Statement (.tern w) := by
  intro _ p hp; cases hp <;> rfl
theorem Encoding.shl (w : ArithOp) : Encoding.Statement (.shl w) := by
  intro _ p hp; cases hp <;> rfl
theorem Encoding.shr (w : ArithOp) : Encoding.Statement (.shr w) := by
  intro _ p hp; cases hp <;> rfl
theorem Encoding.sar (w : ArithOp) : Encoding.Statement (.sar w) := by
  intro _ p hp; cases hp <;> rfl
theorem Encoding.rol (w : ArithOp) : Encoding.Statement (.rol w) := by
  intro _ p hp; cases hp <;> rfl
theorem Encoding.funsh (w : ArithOp) : Encoding.Statement (.funsh w) := by
  intro _ p hp; cases hp <;> rfl
theorem Encoding.bfx (w : ArithOp) : Encoding.Statement (.bfx w) := by
  intro _ p hp; cases hp <;> rfl
theorem Encoding.bfi (w : ArithOp) : Encoding.Statement (.bfi w) := by
  intro _ p hp; cases hp <;> rfl
theorem Encoding.popc (w : ArithOp) : Encoding.Statement (.popc w) := by
  intro _ p hp; cases hp <;> rfl
theorem Encoding.clz (w : ArithOp) : Encoding.Statement (.clz w) := by
  intro _ p hp; cases hp <;> rfl
theorem Encoding.brev (w : ArithOp) : Encoding.Statement (.brev w) := by
  intro _ p hp; cases hp <;> rfl
theorem Encoding.bytx (w : ArithOp) : Encoding.Statement (.bytx w) := by
  intro _ p hp; cases hp <;> rfl
theorem Encoding.mov (w : ArithOp) : Encoding.Statement (.mov w) := by
  intro _ p hp; cases hp <;> rfl
theorem Encoding.sel (w : ArithOp) : Encoding.Statement (.sel w) := by
  intro _ p hp; cases hp <;> rfl
theorem Encoding.cvti (w : ArithOp) : Encoding.Statement (.cvti w) := by
  intro _ p hp; cases hp <;> rfl
theorem Encoding.fadd (w : ArithOp) : Encoding.Statement (.fadd w) := by
  intro _ p hp; cases hp <;> rfl
theorem Encoding.fmul (w : ArithOp) : Encoding.Statement (.fmul w) := by
  intro _ p hp; cases hp <;> rfl
theorem Encoding.ffma (w : ArithOp) : Encoding.Statement (.ffma w) := by
  intro _ p hp; cases hp <;> rfl
theorem Encoding.fmin (w : ArithOp) : Encoding.Statement (.fmin w) := by
  intro _ p hp; cases hp <;> rfl
theorem Encoding.fmax (w : ArithOp) : Encoding.Statement (.fmax w) := by
  intro _ p hp; cases hp <;> rfl
theorem Encoding.fcmp (w : ArithOp) : Encoding.Statement (.fcmp w) := by
  intro _ p hp; cases hp <;> rfl
theorem Encoding.frnd (w : ArithOp) : Encoding.Statement (.frnd w) := by
  intro _ p hp; cases hp <;> rfl
theorem Encoding.fcvt (w : ArithOp) : Encoding.Statement (.fcvt w) := by
  intro _ p hp; cases hp <;> rfl
theorem Encoding.f2i (w : ArithOp) : Encoding.Statement (.f2i w) := by
  intro _ p hp; cases hp <;> rfl
theorem Encoding.i2f (w : ArithOp) : Encoding.Statement (.i2f w) := by
  intro _ p hp; cases hp <;> rfl
theorem Encoding.fdiv (w : ArithOp) : Encoding.Statement (.fdiv w) := by
  intro _ p hp; cases hp <;> rfl
theorem Encoding.fsqrt (w : ArithOp) : Encoding.Statement (.fsqrt w) := by
  intro _ p hp; cases hp <;> rfl
theorem Encoding.frcp (w : ArithOp) : Encoding.Statement (.frcp w) := by
  intro _ p hp; cases hp <;> rfl
theorem Encoding.frsq (w : ArithOp) : Encoding.Statement (.frsq w) := by
  intro _ p hp; cases hp <;> rfl
theorem Encoding.fexp2 (w : ArithOp) : Encoding.Statement (.fexp2 w) := by
  intro _ p hp; cases hp <;> rfl
theorem Encoding.flog2 (w : ArithOp) : Encoding.Statement (.flog2 w) := by
  intro _ p hp; cases hp <;> rfl
theorem Encoding.fsin (w : ArithOp) : Encoding.Statement (.fsin w) := by
  intro _ p hp; cases hp <;> rfl
theorem Encoding.fcos (w : ArithOp) : Encoding.Statement (.fcos w) := by
  intro _ p hp; cases hp <;> rfl
theorem Encoding.ftanh (w : ArithOp) : Encoding.Statement (.ftanh w) := by
  intro _ p hp; cases hp <;> rfl
theorem Encoding.fclass (w : ArithOp) : Encoding.Statement (.fclass w) := by
  intro _ p hp; cases hp <;> rfl
theorem Encoding.fscalb (w : ArithOp) : Encoding.Statement (.fscalb w) := by
  intro _ p hp; cases hp <;> rfl
theorem Encoding.ffrexp (w : ArithOp) : Encoding.Statement (.ffrexp w) := by
  intro _ p hp; cases hp <;> rfl
theorem Encoding.dot2 (w : ArithOp) : Encoding.Statement (.dot2 w) := by
  intro _ p hp; cases hp <;> rfl
theorem Encoding.dot4 (w : ArithOp) : Encoding.Statement (.dot4 w) := by
  intro _ p hp; cases hp <;> rfl
theorem Encoding.dot8 (w : ArithOp) : Encoding.Statement (.dot8 w) := by
  intro _ p hp; cases hp <;> rfl
theorem Encoding.qcvt (w : ArithOp) : Encoding.Statement (.qcvt w) := by
  intro _ p hp; cases hp <;> rfl
theorem Encoding.dqcvt (w : ArithOp) : Encoding.Statement (.dqcvt w) := by
  intro _ p hp; cases hp <;> rfl
theorem Encoding.sclmax (w : ArithOp) : Encoding.Statement (.sclmax w) := by
  intro _ p hp; cases hp <;> rfl
theorem Encoding.lrd (w : ArithOp) : Encoding.Statement (.lrd w) := by
  intro _ p hp; cases hp <;> rfl
theorem Encoding.pcol (w : ArithOp) : Encoding.Statement (.pcol w) := by
  intro _ p hp; cases hp <;> rfl
theorem Encoding.redx (w : ArithOp) : Encoding.Statement (.redx w) := by
  intro _ p hp; cases hp <;> rfl
theorem Encoding.scanx (w : ArithOp) : Encoding.Statement (.scanx w) := by
  intro _ p hp; cases hp <;> rfl
theorem Encoding.cmpx (w : ArithOp) : Encoding.Statement (.cmpx w) := by
  intro _ p hp; cases hp <;> rfl
theorem Encoding.peer (w : ArithOp) : Encoding.Statement (.peer w) := by
  intro _ p hp; cases hp <;> rfl
theorem Encoding.bru (w : CtlOp) : Encoding.Statement (.bru w) := by
  intro _ p hp; cases hp <;> rfl
theorem Encoding.brd (w : CtlOp) : Encoding.Statement (.brd w) := by
  intro _ p hp; cases hp <;> rfl
theorem Encoding.brx (w : CtlOp) : Encoding.Statement (.brx w) := by
  intro _ p hp; cases hp <;> rfl
theorem Encoding.call (w : CtlOp) : Encoding.Statement (.call w) := by
  intro _ p hp; cases hp <;> rfl
theorem Encoding.callx (w : CtlOp) : Encoding.Statement (.callx w) := by
  intro _ p hp; cases hp <;> rfl
theorem Encoding.ret (w : CtlOp) : Encoding.Statement (.ret w) := by
  intro _ p hp; cases hp <;> rfl
theorem Encoding.exit (w : CtlOp) : Encoding.Statement (.exit w) := by
  intro _ p hp; cases hp <;> rfl
theorem Encoding.rjset (w : CtlOp) : Encoding.Statement (.rjset w) := by
  intro _ p hp; cases hp <;> rfl
theorem Encoding.rjwait (w : CtlOp) : Encoding.Statement (.rjwait w) := by
  intro _ p hp; cases hp <;> rfl
theorem Encoding.rjmovRead (w : CtlOp) : Encoding.Statement (.rjmovRead w) := by
  intro h p hp; cases hp
  refine congrArg some ?_
  delta Instr.wf at h
  simp only [wfRjmov, CtlOp.base, Bool.false_eq_true, if_false, Bool.and_eq_true, beq_iff_eq] at h
  simp [h]
theorem Encoding.rjmovWrite (w : CtlOp) : Encoding.Statement (.rjmovWrite w) := by
  intro h p hp; cases hp
  refine congrArg some ?_
  delta Instr.wf at h
  simp only [wfRjmov, CtlOp.base, if_true, Bool.and_eq_true, beq_iff_eq] at h
  simp [h]
theorem Encoding.elect (w : CtlOp) : Encoding.Statement (.elect w) := by
  intro _ p hp; cases hp <;> rfl
theorem Encoding.nop (w : CtlOp) : Encoding.Statement (.nop w) := by
  intro _ p hp; cases hp <;> rfl
theorem Encoding.sbeg (w : CtlOp) : Encoding.Statement (.sbeg w) := by
  intro _ p hp; cases hp <;> rfl
theorem Encoding.yield (w : CtlOp) : Encoding.Statement (.yield w) := by
  intro _ p hp; cases hp <;> rfl
theorem Encoding.sleep (w : CtlOp) : Encoding.Statement (.sleep w) := by
  intro _ p hp; cases hp <;> rfl
theorem Encoding.sleepWake (a : Agent) : Encoding.Statement (.sleepWake a) := by
  intro _ p hp; cases hp <;> rfl
theorem Encoding.plop (w : ArithOp) : Encoding.Statement (.plop w) := by
  intro _ p hp; cases hp <;> rfl
theorem Encoding.p2s (w : ArithOp) : Encoding.Statement (.p2s w) := by
  intro _ p hp; cases hp <;> rfl
theorem Encoding.s2p (w : ArithOp) : Encoding.Statement (.s2p w) := by
  intro _ p hp; cases hp <;> rfl
theorem Encoding.rgrowWait (w : ArithOp) : Encoding.Statement (.rgrowWait w) := by
  intro h p hp; cases hp
  refine congrArg some ?_
  delta Instr.wf at h
  simp only [wfGrant, Bool.and_eq_true, beq_iff_eq] at h
  simp [h]
theorem Encoding.rgrowTry (w : ArithOp) : Encoding.Statement (.rgrowTry w) := by
  intro h p hp; cases hp
  refine congrArg some ?_
  delta Instr.wf at h
  simp only [wfGrant, Bool.and_eq_true, beq_iff_eq] at h
  simp [h]
theorem Encoding.rgrowGrant (core quad : Nat) : Encoding.Statement (.rgrowGrant core quad) := by
  intro _ p hp; cases hp <;> rfl
theorem Encoding.rshrink (w : ArithOp) : Encoding.Statement (.rshrink w) := by
  intro _ p hp; cases hp <;> rfl
theorem Encoding.rqry (w : ArithOp) : Encoding.Statement (.rqry w) := by
  intro _ p hp; cases hp <;> rfl
theorem Encoding.fmtset (w : ArithOp) : Encoding.Statement (.fmtset w) := by
  intro h p hp; cases hp
  refine congrArg some ?_
  delta Instr.wf at h
  simp only [wfFmtset, Bool.and_eq_true, beq_iff_eq] at h
  simp [h]
theorem Encoding.fmtsetRm (w : ArithOp) : Encoding.Statement (.fmtsetRm w) := by
  intro h p hp; cases hp
  refine congrArg some ?_
  delta Instr.wf at h
  simp only [wfFmtset, Bool.and_eq_true, beq_iff_eq] at h
  simp [h]
theorem Encoding.fmtsetSrs (w : ArithOp) : Encoding.Statement (.fmtsetSrs w) := by
  intro h p hp; cases hp
  refine congrArg some ?_
  delta Instr.wf at h
  simp only [wfFmtset, Bool.and_eq_true, beq_iff_eq] at h
  simp [h]
theorem Encoding.fmtget (w : ArithOp) : Encoding.Statement (.fmtget w) := by
  intro h p hp; cases hp
  refine congrArg some ?_
  delta Instr.wf at h
  simp only [wfFmtget, Bool.and_eq_true, beq_iff_eq] at h
  simp [h]
theorem Encoding.fmtgetSrs (w : ArithOp) : Encoding.Statement (.fmtgetSrs w) := by
  intro h p hp; cases hp
  refine congrArg some ?_
  delta Instr.wf at h
  simp only [wfFmtget, Bool.and_eq_true, beq_iff_eq] at h
  simp [h]
theorem Encoding.ld (w : MemOp) : Encoding.Statement (.ld w) := by
  intro _ p hp; cases hp <;> rfl
theorem Encoding.tagLanded (a : Agent) (tag : Nat) : Encoding.Statement (.tagLanded a tag) := by
  intro _ p hp; cases hp <;> rfl
theorem Encoding.land (w : MemOp) : Encoding.Statement (.land w) := by
  intro _ p hp; cases hp <;> rfl
theorem Encoding.st (w : MemOp) : Encoding.Statement (.st w) := by
  intro _ p hp; cases hp <;> rfl
theorem Encoding.lds (w : MemOp) : Encoding.Statement (.lds w) := by
  intro _ p hp; cases hp <;> rfl
theorem Encoding.sts (w : MemOp) : Encoding.Statement (.sts w) := by
  intro _ p hp; cases hp <;> rfl
theorem Encoding.ldc (w : MemOp) : Encoding.Statement (.ldc w) := by
  intro _ p hp; cases hp <;> rfl
theorem Encoding.gath (w : MemOp) : Encoding.Statement (.gath w) := by
  intro _ p hp; cases hp <;> rfl
theorem Encoding.scat (w : MemOp) : Encoding.Statement (.scat w) := by
  intro _ p hp; cases hp <;> rfl
theorem Encoding.ldgs (w : MemOp) : Encoding.Statement (.ldgs w) := by
  intro _ p hp; cases hp <;> rfl
theorem Encoding.pref (w : MemOp) : Encoding.Statement (.pref w) := by
  intro _ p hp; cases hp <;> rfl
theorem Encoding.cctlWb (w : MemOp) : Encoding.Statement (.cctlWb w) := by
  intro h p hp; cases hp
  refine congrArg some ?_
  delta Instr.wf at h
  simp only [wfCctl, Bool.and_eq_true, beq_iff_eq] at h
  simp [h]
theorem Encoding.cctlInv (w : MemOp) : Encoding.Statement (.cctlInv w) := by
  intro h p hp; cases hp
  refine congrArg some ?_
  delta Instr.wf at h
  simp only [wfCctl, Bool.and_eq_true, beq_iff_eq] at h
  simp [h]
theorem Encoding.cctlWball (w : MemOp) : Encoding.Statement (.cctlWball w) := by
  intro h p hp; cases hp
  refine congrArg some ?_
  delta Instr.wf at h
  simp only [wfCctl, Bool.and_eq_true, beq_iff_eq] at h
  simp [h]
theorem Encoding.cctlInvall (w : MemOp) : Encoding.Statement (.cctlInvall w) := by
  intro h p hp; cases hp
  refine congrArg some ?_
  delta Instr.wf at h
  simp only [wfCctl, Bool.and_eq_true, beq_iff_eq] at h
  simp [h]
theorem Encoding.tst (w : MemOp) : Encoding.Statement (.tst w) := by
  intro _ p hp; cases hp <;> rfl
theorem Encoding.tld (w : MemOp) : Encoding.Statement (.tld w) := by
  intro _ p hp; cases hp <;> rfl
theorem Encoding.tldTmo (a : Agent) : Encoding.Statement (.tldTmo a) := by
  intro _ p hp; cases hp <;> rfl
theorem Encoding.atom (w : MemOp) : Encoding.Statement (.atom w) := by
  intro _ p hp; cases hp <;> rfl
theorem Encoding.atoms (w : MemOp) : Encoding.Statement (.atoms w) := by
  intro _ p hp; cases hp <;> rfl
theorem Encoding.red (w : MemOp) : Encoding.Statement (.red w) := by
  intro _ p hp; cases hp <;> rfl
theorem Encoding.fence (w : MemOp) : Encoding.Statement (.fence w) := by
  intro _ p hp; cases hp <;> rfl
theorem Encoding.storeDrain (f : FifoId) : Encoding.Statement (.storeDrain f) := by
  intro _ p hp; cases hp <;> rfl
theorem Encoding.bara (w : MemOp) : Encoding.Statement (.bara w) := by
  intro _ p hp; cases hp <;> rfl
theorem Encoding.barw (w : MemOp) : Encoding.Statement (.barw w) := by
  intro _ p hp; cases hp <;> rfl
theorem Encoding.bars (w : MemOp) : Encoding.Statement (.bars w) := by
  intro _ p hp; cases hp <;> rfl
theorem Encoding.mbinit (w : MemOp) : Encoding.Statement (.mbinit w) := by
  intro _ p hp; cases hp <;> rfl
theorem Encoding.mbarv (w : MemOp) : Encoding.Statement (.mbarv w) := by
  intro _ p hp; cases hp <;> rfl
theorem Encoding.mbtst (w : MemOp) : Encoding.Statement (.mbtst w) := by
  intro _ p hp; cases hp <;> rfl
theorem Encoding.mbwait (w : MemOp) : Encoding.Statement (.mbwait w) := by
  intro _ p hp; cases hp <;> rfl
theorem Encoding.tshldGl (w : EngOp) : Encoding.Statement (.tshldGl w) := by
  intro h p hp; cases hp
  refine congrArg some ?_
  delta Instr.wf at h
  simp only [wfTsh, Bool.and_eq_true, beq_iff_eq] at h
  simp [h]
theorem Encoding.tshldSp (w : EngOp) : Encoding.Statement (.tshldSp w) := by
  intro h p hp; cases hp
  refine congrArg some ?_
  delta Instr.wf at h
  simp only [wfTsh, Bool.and_eq_true, beq_iff_eq] at h
  simp [h]
theorem Encoding.tshpSet (w : EngOp) : Encoding.Statement (.tshpSet w) := by
  intro h p hp; cases hp
  refine congrArg some ?_
  delta Instr.wf at h
  simp only [wfTshp, Bool.and_eq_true, beq_iff_eq] at h
  simp [h]
theorem Encoding.tshpAdd (w : EngOp) : Encoding.Statement (.tshpAdd w) := by
  intro h p hp; cases hp
  refine congrArg some ?_
  delta Instr.wf at h
  simp only [wfTshp, Bool.and_eq_true, beq_iff_eq] at h
  simp [h]
theorem Encoding.tshpAdd64 (w : EngOp) : Encoding.Statement (.tshpAdd64 w) := by
  intro h p hp; cases hp
  refine congrArg some ?_
  delta Instr.wf at h
  simp only [wfTshp, Bool.and_eq_true, beq_iff_eq] at h
  simp [h]
theorem Encoding.tshstGl (w : EngOp) : Encoding.Statement (.tshstGl w) := by
  intro h p hp; cases hp
  refine congrArg some ?_
  delta Instr.wf at h
  simp only [wfTsh, Bool.and_eq_true, beq_iff_eq] at h
  simp [h]
theorem Encoding.tshstSp (w : EngOp) : Encoding.Statement (.tshstSp w) := by
  intro h p hp; cases hp
  refine congrArg some ?_
  delta Instr.wf at h
  simp only [wfTsh, Bool.and_eq_true, beq_iff_eq] at h
  simp [h]
theorem Encoding.cpy (w : EngOp) : Encoding.Statement (.cpy w) := by
  intro _ p hp; cases hp <;> rfl
theorem Encoding.gset (w : EngOp) : Encoding.Statement (.gset w) := by
  intro h p hp; cases hp
  refine congrArg some ?_
  delta Instr.wf at h
  simp only [wfGset, Bool.and_eq_true, beq_iff_eq] at h
  simp [h]
theorem Encoding.gsetClr (w : EngOp) : Encoding.Statement (.gsetClr w) := by
  intro h p hp; cases hp
  refine congrArg some ?_
  delta Instr.wf at h
  simp only [wfGset, Bool.and_eq_true, beq_iff_eq] at h
  simp [h]
theorem Encoding.qfncCq (w : EngOp) : Encoding.Statement (.qfncCq w) := by
  intro h p hp; cases hp
  refine congrArg some ?_
  delta Instr.wf at h
  simp only [wfQueues, Bool.and_eq_true, beq_iff_eq] at h
  simp [h]
theorem Encoding.qfncMq (w : EngOp) : Encoding.Statement (.qfncMq w) := by
  intro h p hp; cases hp
  refine congrArg some ?_
  delta Instr.wf at h
  simp only [wfQueues, Bool.and_eq_true, beq_iff_eq] at h
  simp [h]
theorem Encoding.qfncKq (w : EngOp) : Encoding.Statement (.qfncKq w) := by
  intro h p hp; cases hp
  refine congrArg some ?_
  delta Instr.wf at h
  simp only [wfQueues, Bool.and_eq_true, beq_iff_eq] at h
  simp [h]
theorem Encoding.qwait (w : EngOp) : Encoding.Statement (.qwait w) := by
  intro _ p hp; cases hp <;> rfl
theorem Encoding.mldb (w : EngOp) : Encoding.Statement (.mldb w) := by
  intro _ p hp; cases hp <;> rfl
theorem Encoding.mma (w : EngOp) : Encoding.Statement (.mma w) := by
  intro _ p hp; cases hp <;> rfl
theorem Encoding.macc (w : EngOp) : Encoding.Statement (.macc w) := by
  intro _ p hp; cases hp <;> rfl
theorem Encoding.mtbl (w : EngOp) : Encoding.Statement (.mtbl w) := by
  intro _ p hp; cases hp <;> rfl
theorem Encoding.coll (w : EngOp) : Encoding.Statement (.coll w) := by
  intro _ p hp; cases hp <;> rfl
theorem Encoding.sigsSet (w : EngOp) : Encoding.Statement (.sigsSet w) := by
  intro h p hp; cases hp
  refine congrArg some ?_
  delta Instr.wf at h
  simp only [wfSigs, Bool.and_eq_true, beq_iff_eq] at h
  simp [h]
theorem Encoding.sigsAdd (w : EngOp) : Encoding.Statement (.sigsAdd w) := by
  intro h p hp; cases hp
  refine congrArg some ?_
  delta Instr.wf at h
  simp only [wfSigs, Bool.and_eq_true, beq_iff_eq] at h
  simp [h]
theorem Encoding.queueAccept (q : QueueId) : Encoding.Statement (.queueAccept q) := by
  intro _ p hp; cases hp <;> rfl
theorem Encoding.guardTest (q : QueueId) : Encoding.Statement (.guardTest q) := by
  intro _ p hp; cases hp <;> rfl
theorem Encoding.triggerMet (vd die : Nat) : Encoding.Statement (.triggerMet vd die) := by
  intro _ p hp; cases hp <;> rfl
theorem Encoding.cpyPerformed (core : Nat) : Encoding.Statement (.cpyPerformed core) := by
  intro _ p hp; cases hp <;> rfl
theorem Encoding.mldbPerformed (pair : Nat) : Encoding.Statement (.mldbPerformed pair) := by
  intro _ p hp; cases hp <;> rfl
theorem Encoding.mmaPerformed (pair : Nat) : Encoding.Statement (.mmaPerformed pair) := by
  intro _ p hp; cases hp <;> rfl
theorem Encoding.pchkmis (pair rows row col : Nat) : Encoding.Statement (.pchkmis pair rows row col) := by
  intro _ p hp; cases hp <;> rfl
theorem Encoding.maccPerformed (pair : Nat) : Encoding.Statement (.maccPerformed pair) := by
  intro _ p hp; cases hp <;> rfl
theorem Encoding.mtblPerformed (pair : Nat) : Encoding.Statement (.mtblPerformed pair) := by
  intro _ p hp; cases hp <;> rfl
theorem Encoding.qfncPerformed (q : QueueId) : Encoding.Statement (.qfncPerformed q) := by
  intro _ p hp; cases hp <;> rfl
theorem Encoding.collPerformed (vd die : Nat) : Encoding.Statement (.collPerformed vd die) := by
  intro _ p hp; cases hp <;> rfl
theorem Encoding.guardopen (q : QueueId) : Encoding.Statement (.guardopen q) := by
  intro _ p hp; cases hp <;> rfl
theorem Encoding.chunkExponentUp (m : ChunkMsg) : Encoding.Statement (.chunkExponentUp m) := by
  intro _ p hp; cases hp <;> rfl
theorem Encoding.chunkExponentDown (m : ChunkMsg) : Encoding.Statement (.chunkExponentDown m) := by
  intro _ p hp; cases hp <;> rfl
theorem Encoding.chunkDataUp (m : ChunkMsg) : Encoding.Statement (.chunkDataUp m) := by
  intro _ p hp; cases hp <;> rfl
theorem Encoding.chunkResultDown (m : ChunkMsg) : Encoding.Statement (.chunkResultDown m) := by
  intro _ p hp; cases hp <;> rfl
theorem Encoding.collAbort (m : ChunkMsg) : Encoding.Statement (.collAbort m) := by
  intro _ p hp; cases hp <;> rfl
theorem Encoding.collNeighbourTimeout (vd die : Nat) (endpoint : W32) : Encoding.Statement (.collNeighbourTimeout vd die endpoint) := by
  intro _ p hp; cases hp <;> rfl
theorem Encoding.lsadjStep (w : SysOp) : Encoding.Statement (.lsadjStep w) := by
  intro h p hp; cases hp
  refine congrArg some ?_
  delta Instr.wf at h
  simp only [wfLsadj, SysOp.base, Bool.and_eq_true, beq_iff_eq] at h
  simp [h]
theorem Encoding.lsadjSet (w : SysOp) : Encoding.Statement (.lsadjSet w) := by
  intro h p hp; cases hp
  refine congrArg some ?_
  delta Instr.wf at h
  simp only [wfLsadj, SysOp.base, Bool.and_eq_true, beq_iff_eq] at h
  simp [h]
theorem Encoding.lsadjGet (w : SysOp) : Encoding.Statement (.lsadjGet w) := by
  intro h p hp; cases hp
  refine congrArg some ?_
  delta Instr.wf at h
  simp only [wfLsadj, SysOp.base, Bool.and_eq_true, beq_iff_eq] at h
  simp [h]
theorem Encoding.ovfrRd (w : SysOp) : Encoding.Statement (.ovfrRd w) := by
  intro h p hp; cases hp
  refine congrArg some ?_
  delta Instr.wf at h
  simp only [Bool.and_eq_true, beq_iff_eq] at h
  simp [h]
theorem Encoding.ovfrRdc (w : SysOp) : Encoding.Statement (.ovfrRdc w) := by
  intro h p hp; cases hp
  refine congrArg some ?_
  delta Instr.wf at h
  simp only [Bool.and_eq_true, beq_iff_eq] at h
  simp [h]
theorem Encoding.trap (w : SysOp) : Encoding.Statement (.trap w) := by
  intro _ p hp; cases hp <;> rfl
theorem Encoding.brk (w : SysOp) : Encoding.Statement (.brk w) := by
  intro _ p hp; cases hp <;> rfl
theorem Encoding.tret (w : SysOp) : Encoding.Statement (.tret w) := by
  intro _ p hp; cases hp <;> rfl
theorem Encoding.halt (w : SysOp) : Encoding.Statement (.halt w) := by
  intro _ p hp; cases hp <;> rfl
theorem Encoding.ctlr (w : SysOp) : Encoding.Statement (.ctlr w) := by
  intro _ p hp; cases hp <;> rfl
theorem Encoding.ctlw (w : SysOp) : Encoding.Statement (.ctlw w) := by
  intro _ p hp; cases hp <;> rfl
theorem Encoding.prst (part : Nat) : Encoding.Statement (.prst part) := by
  intro _ p hp; cases hp <;> rfl
theorem Encoding.vdrst (vd : Nat) : Encoding.Statement (.vdrst vd) := by
  intro _ p hp; cases hp <;> rfl
theorem Encoding.plcq (w : SysOp) : Encoding.Statement (.plcq w) := by
  intro _ p hp; cases hp <;> rfl
theorem Encoding.capq (w : SysOp) : Encoding.Statement (.capq w) := by
  intro _ p hp; cases hp <;> rfl
theorem Encoding.clkr (w : SysOp) : Encoding.Statement (.clkr w) := by
  intro _ p hp; cases hp <;> rfl
theorem Encoding.trans (a : Agent) (src : TransSource) : Encoding.Statement (.trans a src) := by
  intro _ p hp; cases hp <;> rfl
theorem Encoding.uncorrectableError (loc : StorageLoc) : Encoding.Statement (.uncorrectableError loc) := by
  intro _ p hp; cases hp <;> rfl
theorem Encoding.recordWrite (part : Nat) : Encoding.Statement (.recordWrite part) := by
  intro _ p hp; cases hp <;> rfl
theorem Encoding.rjtmo (core group j : Nat) : Encoding.Statement (.rjtmo core group j) := by
  intro _ p hp; cases hp <;> rfl
theorem Encoding.fragmentLoad (core quad : Nat) : Encoding.Statement (.fragmentLoad core quad) := by
  intro _ p hp; cases hp <;> rfl
theorem Encoding.ejectHandover (core thread : Nat) : Encoding.Statement (.ejectHandover core thread) := by
  intro _ p hp; cases hp <;> rfl
theorem Encoding.ejectReturn (core thread : Nat) : Encoding.Statement (.ejectReturn core thread) := by
  intro _ p hp; cases hp <;> rfl
theorem Encoding.pageWalkDone (walk : Nat) : Encoding.Statement (.pageWalkDone walk) := by
  intro _ p hp; cases hp <;> rfl
theorem Encoding.gangForm (part : Nat) : Encoding.Statement (.gangForm part) := by
  intro _ p hp; cases hp <;> rfl
theorem Encoding.blockRetire (core : Nat) : Encoding.Statement (.blockRetire core) := by
  intro _ p hp; cases hp <;> rfl
theorem Encoding.entryBegin (fe q : Nat) : Encoding.Statement (.entryBegin fe q) := by
  intro _ p hp; cases hp <;> rfl
theorem Encoding.periodBoundary (part : Nat) : Encoding.Statement (.periodBoundary part) := by
  intro _ p hp; cases hp <;> rfl
theorem Encoding.sliceEnd (part : Nat) : Encoding.Statement (.sliceEnd part) := by
  intro _ p hp; cases hp <;> rfl
theorem Encoding.blockTake (core : Nat) : Encoding.Statement (.blockTake core) := by
  intro _ p hp; cases hp <;> rfl
theorem Encoding.forcedTake (core : Nat) : Encoding.Statement (.forcedTake core) := by
  intro _ p hp; cases hp <;> rfl
theorem Encoding.contextSave (part : Nat) : Encoding.Statement (.contextSave part) := by
  intro _ p hp; cases hp <;> rfl
theorem Encoding.gangResume (part gang : Nat) : Encoding.Statement (.gangResume part gang) := by
  intro _ p hp; cases hp <;> rfl
theorem Encoding.wdog (fe q : Nat) : Encoding.Statement (.wdog fe q) := by
  intro _ p hp; cases hp <;> rfl
theorem Encoding.launch (fe : Nat) (hdr : BitVec 512) (bank : List W32) : Encoding.Statement (.launch fe hdr bank) := by
  intro _ p hp; cases hp <;> rfl
theorem Encoding.waittag (fe : Nat) (hdr : BitVec 512) : Encoding.Statement (.waittag fe hdr) := by
  intro _ p hp; cases hp <;> rfl
theorem Encoding.waitsig (fe : Nat) (hdr : BitVec 512) : Encoding.Statement (.waitsig fe hdr) := by
  intro _ p hp; cases hp <;> rfl
theorem Encoding.tlbinv (fe : Nat) (hdr : BitVec 512) : Encoding.Statement (.tlbinv fe hdr) := by
  intro _ p hp; cases hp <;> rfl
theorem Encoding.tlbinvPerformed (cmd : Nat) : Encoding.Statement (.tlbinvPerformed cmd) := by
  intro _ p hp; cases hp <;> rfl
theorem Encoding.icinv (fe : Nat) (hdr : BitVec 512) : Encoding.Statement (.icinv fe hdr) := by
  intro _ p hp; cases hp <;> rfl
theorem Encoding.icinvPerformed (cmd : Nat) : Encoding.Statement (.icinvPerformed cmd) := by
  intro _ p hp; cases hp <;> rfl
theorem Encoding.pageresp (fe : Nat) (hdr : BitVec 512) : Encoding.Statement (.pageresp fe hdr) := by
  intro _ p hp; cases hp <;> rfl
theorem Encoding.heldRecordIntake (fe q : Nat) : Encoding.Statement (.heldRecordIntake fe q) := by
  intro _ p hp; cases hp <;> rfl
theorem Encoding.remoteWrite (pa : Nat) (data : List Byte) : Encoding.Statement (.remoteWrite pa data) := by
  intro _ p hp; cases hp <;> rfl
theorem Encoding.remoteRead (pa n : Nat) : Encoding.Statement (.remoteRead pa n) := by
  intro _ p hp; cases hp <;> rfl
theorem Encoding.msgResend (fe : Nat) : Encoding.Statement (.msgResend fe) := by
  intro _ p hp; cases hp <;> rfl
theorem Encoding.captureStart (vd : Nat) (value : W32) : Encoding.Statement (.captureStart vd value) := by
  intro _ p hp; cases hp <;> rfl
theorem Encoding.pagePreserve (vd : Nat) (va : W64) : Encoding.Statement (.pagePreserve vd va) := by
  intro _ p hp; cases hp <;> rfl
theorem Encoding.partitionEnable (part : Nat) (value : W32) : Encoding.Statement (.partitionEnable part value) := by
  intro _ p hp; cases hp <;> rfl
theorem Encoding.partitionDisable (part : Nat) (value : W32) : Encoding.Statement (.partitionDisable part value) := by
  intro _ p hp; cases hp <;> rfl
theorem Encoding.pcolorWrite (part : Nat) (value : W32) : Encoding.Statement (.pcolorWrite part value) := by
  intro _ p hp; cases hp <;> rfl
theorem Encoding.genableClear (value : W32) : Encoding.Statement (.genableClear value) := by
  intro _ p hp; cases hp <;> rfl
theorem Encoding.modrst (value : W32) : Encoding.Statement (.modrst value) := by
  intro _ p hp; cases hp <;> rfl
theorem Encoding.queueEnable (fe q : Nat) (value : W32) : Encoding.Statement (.queueEnable fe q value) := by
  intro _ p hp; cases hp <;> rfl
theorem Encoding.queueDisable (fe q : Nat) (value : W32) : Encoding.Statement (.queueDisable fe q value) := by
  intro _ p hp; cases hp <;> rfl
theorem Encoding.qwdtWrite (fe q : Nat) (value : W32) : Encoding.Statement (.qwdtWrite fe q value) := by
  intro _ p hp; cases hp <;> rfl
theorem Encoding.vdEnable (fe vd : Nat) (value : W32) : Encoding.Statement (.vdEnable fe vd value) := by
  intro _ p hp; cases hp <;> rfl
theorem Encoding.vdDisable (fe vd : Nat) (value : W32) : Encoding.Statement (.vdDisable fe vd value) := by
  intro _ p hp; cases hp <;> rfl
theorem Encoding.vdResetComplete (vd : Nat) : Encoding.Statement (.vdResetComplete vd) := by
  intro _ p hp; cases hp <;> rfl
theorem Encoding.placeTableWrite (fe vd off : Nat) (value : W32) : Encoding.Statement (.placeTableWrite fe vd off value) := by
  intro _ p hp; cases hp <;> rfl
theorem Encoding.capmWrite (die off : Nat) (value : W32) : Encoding.Statement (.capmWrite die off value) := by
  intro _ p hp; cases hp <;> rfl
theorem Encoding.memberTableWrite (die vd x : Nat) (value : W32) : Encoding.Statement (.memberTableWrite die vd x value) := by
  intro _ p hp; cases hp <;> rfl
theorem Encoding.lossScaleHostWrite (fe vd sel : Nat) (value : W32) : Encoding.Statement (.lossScaleHostWrite fe vd sel value) := by
  intro _ p hp; cases hp <;> rfl
theorem Encoding.hmRestart (part : Nat) (value : W32) : Encoding.Statement (.hmRestart part value) := by
  intro _ p hp; cases hp <;> rfl
theorem Encoding.registerWrite (die off : Nat) (value : W32) : Encoding.Statement (.registerWrite die off value) := by
  intro _ p hp; cases hp <;> rfl
theorem Encoding.linkDown (die link : Nat) : Encoding.Statement (.linkDown die link) := by
  intro _ p hp; cases hp <;> rfl
theorem Encoding.securityAlarm (src : BitVec 5) : Encoding.Statement (.securityAlarm src) := by
  intro _ p hp; cases hp <;> rfl
theorem Encoding.bootRecord (sent : BootSend) (image : List Byte) : Encoding.Statement (.bootRecord sent image) := by
  intro _ p hp; cases hp <;> rfl
theorem Encoding.selfTestDone (results : List (Nat × Byte)) : Encoding.Statement (.selfTestDone results) := by
  intro _ p hp; cases hp <;> rfl
theorem Encoding.linkUp (die link : Nat) : Encoding.Statement (.linkUp die link) := by
  intro _ p hp; cases hp <;> rfl
theorem Encoding.atomPerformed (a : Agent) : Encoding.Statement (.atomPerformed a) := by
  intro _ p hp; cases hp <;> rfl
theorem Encoding.tstPerformed (a : Agent) : Encoding.Statement (.tstPerformed a) := by
  intro _ p hp; cases hp <;> rfl
theorem Encoding.tldReturn (a : Agent) : Encoding.Statement (.tldReturn a) := by
  intro _ p hp; cases hp <;> rfl
theorem Encoding.correctableError (die level : Nat) : Encoding.Statement (.correctableError die level) := by
  intro _ p hp; cases hp <;> rfl

end Sys2Proof.Laws
end

