-- ==== Sys2Proof/Laws/Words.lean ====
section
/-! SUPPORT. How many words a result has. -/

namespace Sys2Proof.Laws

open Sys2Proof Sys2Proof.Machine

@[simp] theorem length_words (n x : Nat) : (words n x).length = n / 32 := by simp [words, elements]

/-- A result has the registers of its type (R42). -/
@[simp] theorem length_tyWords (t : Ty) (x : Nat) : (tyWords t x).length = t.regs := by
  simp only [tyWords, length_words, tyBits, Ty.regs]; split <;> rfl

@[simp] theorem length_maskWords (n : Nat) (b : Bool) : (maskWords n b).length = n := by simp [maskWords]

@[simp] theorem length_fltRes (t : Ty) (xs rs) : (fltRes t xs rs).d.length = t.regs := length_tyWords _ _

theorem tyBits_div (t : Ty) : tyBits t / 32 = t.regs := by unfold tyBits Ty.regs; split <;> rfl

theorem one_le_regs (t : Ty) : 1 ≤ t.regs := by unfold Ty.regs; split <;> omega

end Sys2Proof.Laws
end

