-- ==== Sys2Proof/Tests/Slice0.lean ====
section
/-! SUPPORT. Tests: one step each on a small state, with a witness of the hypotheses of every statement, words put
together from the encoding tables, and ill-formed terms that the checks refuse. The expected values are those of the rules. -/

/-! ### The small world of the tests: one block on core 0, one group of width 32 with four lanes -/

namespace Sys2Proof.Tests

-- The tests wait for the kernel one after another, not each in a thread of its own.
set_option Elab.async false

open Sys2Proof Sys2Proof.Machine Sys2Proof.Claims

/-- An outcome goes on, to a state of which `k` holds. -/
def goes (o : Out) (k : State → Bool) : Bool :=
  match o with
  | .next s => k s
  | _ => false

/-- The context of an agent, of which `k` holds. -/
def sees (s : State) (a : Agent) (k : Ctx → Bool) : Bool :=
  match s.ctx? a with
  | some c => k c
  | none => false

/-- V0 is the lane, V1 five more, V2 = 3, V3 = 0x40, V4 and V5 zero; P1 is true in lane 2 alone, P2 in lanes 0 and
1, P3 in no lane, P4 in every lane. -/
def ln (l : Nat) : Thread :=
  { Thread.absent with
    present := true
    exited := false
    v := [(0, BitVec.ofNat 32 l), (1, BitVec.ofNat 32 (l + 5)), (2, 3#32), (3, 0x40#32), (7, 0x80#32)].filter fun x => x.2 != 0#32
    n := [(1, 9#32)]
    p := (if l == 2 then 0x12#7 else if l < 2 then 0x14#7 else 0x10#7)
    srs := 7#32 }

def fr : Frag where
  fid := 0
  mask := 0xF#64
  pc := 32
  depth := 1
  carried := none
  fmt := 0#32
  xemp := false
  rst := ⟨16, 5, 0#32, false, none⟩
  mark := none
  shrink := none
  ovfClear := false
  wait := .none
  stop := none
  trans := 0
  pend := []
  slot := .entry 0
  loaded := 0
  issued := false
  missed := 0
  readyAt := 0
  halfTill := 0
  readySince := none
  committed := false
  counted := false
  expect := none
  rerun := false
  ctxs := []
  half := none

def gr (f : Frag) : Group where
  width := 32
  index := 0
  s := [(0, 1#32), (1, 0x50#32), (4, 12#32), (6, 0x80#32), (8, 0x1000#32)]
  j := []
  t := [(1, [(2, 0x11#32), (3, 0xFFFFFFFF#32)])]
  mloads := []
  tags := []
  ovf := true
  ovfn := true
  lanes := [ln 0, ln 1, ln 2, ln 3]
  frags := [f]
  sbuf := []
  tsts := []

def kern : Kernel := { placedKernel with scratch := 65536, bank := [0x10#32, 0x20#32, 0x30#32, 0x40#32] }

def blk (g : Group) : Block := { placedBlock 0 0 with groups := [g], kern := kern, warps := [⟨64, 64, false, []⟩] }

def part0 : Part := { Part.empty with en := true, colours := 0xFFFF#16, frbase := 0x8000, resident := some 0, handle := 3 }

/-- Page tables of five levels from 0x10000 on that map the page at 0 to itself, to be read, written and fetched, with A
and D set (R112, R113). -/
def tables : Memory :=
  [(0x10001, 0x10#8), (0x10002, 0x01#8), (0x10007, 0x80#8), (0x11001, 0x20#8), (0x11002, 0x01#8), (0x11007, 0x80#8),
   (0x12001, 0x30#8), (0x12002, 0x01#8), (0x12007, 0x80#8), (0x13001, 0x40#8), (0x13002, 0x01#8), (0x13007, 0x80#8),
   (0x14006, 0x80#8), (0x14007, 0xF1#8)]

/-- The module with a block on core 0. -/
def world (b : Block) : State :=
  { State.reset with
    clock := 1000000
    cur := some (.frag 0 0 0)
    serial := 10
    genable := true
    boot := .open
    mem := [(0x100, 0xAA#8), (0x101, 0xBB#8)] ++ tables
    cores := [(0, { Core.empty with block := some b, tlb := [placedTlb], scratch := [(0x40, 0x77#8), (0x80, 0x02#8), (0x82, 0x02#8), (0x84, 0x02#8)] })]
    parts := [(0, part0)]
    vds := [(0, { Vd.empty with en := true, root := 0x10000, place := [(0, 0x80000000#32), (32, 0x83828180#32)] })] }

def wg (g : Group) : State := world (blk g)
def wf (f : Frag) : State := wg (gr f)
def cg (g : Group) : Ctx := ⟨.frag 0 0 0, g, g.frags.headD fr, .core, 0, 0, 0, 0, kern, 64⟩
def cf (f : Frag) : Ctx := cg (gr f)

def s0 : State := wf fr
def c0 : Ctx := cf fr

/-- Core 0, group 0, fragment 0. -/
def me : Agent := .frag 0 0 0

def issuesB (s : State) (i : Instr) (c : Ctx) : Bool :=
  s.cur == some c.agent && s.ctx? c.agent == some c && (placeTrap s c i).isNone

theorem issues_of {s : State} {i : Instr} {c : Ctx} (h : issuesB s i c = true) : Issues s i c := by
  simp only [issuesB, Bool.and_eq_true, beq_iff_eq, Option.isNone_iff_eq_none] at h
  exact ⟨h.1.1, h.1.2, h.2⟩

theorem clean_of {c : Ctx} {g : Guard} (h : ((c.acting g).all fun l => (c.g.lane l).bad.isEmpty) = true) : Clean c g := by
  intro l hl
  exact List.isEmpty_iff.1 (List.all_eq_true.1 h l hl)

/-! Instruction words of the tests. -/

def al : Guard := ⟨false, 7#3⟩
def at1 : Guard := ⟨false, 1#3⟩
def never : Guard := ⟨false, 3#3⟩
def no : Src := plainly .none
def vr (i : Nat) : Src := plainly (.vec (BitVec.ofNat 8 i))
def sr (i : Nat) : Src := plainly (.scal (BitVec.ofNat 6 i))
def im : Src := plainly .imm
def V (i : Nat) : Opnd := .vec (BitVec.ofNat 8 i)
def S (i : Nat) : Opnd := .scal (BitVec.ofNat 6 i)

def com (g : Guard) (d : Opnd) (a b c : Src) (ty : Ty) (imm : Nat) : Common := ⟨0#4, g, d, a, b, c, ty, BitVec.ofNat 32 imm⟩
def ar (d : Opnd) (a b c : Src) (ty : Ty) (mode : Nat := 0) (imm : Nat := 0) (ext : Nat := 0) (g : Guard := al) : ArithOp :=
  ⟨com g d a b c ty imm, .rne, false, BitVec.ofNat 4 mode, BitVec.ofNat 8 ext⟩
def ct (d : Opnd) (a : Src) (imm : Nat := 0) (jx : Nat := 0) (cp : Nat := 7) (mode : Nat := 0) (g : Guard := al) : CtlOp :=
  ⟨com g d a no no .b32 imm, BitVec.ofNat 3 cp, false, BitVec.ofNat 4 mode, false, false, BitVec.ofNat 3 jx⟩
def me' (d : Opnd) (a b c : Src) (ty : Ty) (imm : Nat := 0) (kind : Kind := .plain) (scope : Scope := .blk) (hint : Nat := 0)
    (tag : Nat := 0) (amode : Nat := 0) (g : Guard := al) : MemOp :=
  ⟨com g d a b c ty imm, kind, scope, BitVec.ofNat 2 amode, BitVec.ofNat 4 hint, BitVec.ofNat 4 tag⟩
def en (d : Opnd) (a b c : Src) (ty : Ty := .b32) (mode : Nat := 0) (ext : Nat := 0) (imm : Nat := 0) (g : Guard := al) : EngOp :=
  ⟨com g d a b c ty imm, BitVec.ofNat 3 mode, false, 0#4, BitVec.ofNat 8 ext⟩
def sy (d : Opnd) (a b : Src) (mode : Nat := 0) (ext : Nat := 0) (imm : Nat := 0) (g : Guard := al) : SysOp :=
  ⟨com g d a b no .b32 imm, BitVec.ofNat 8 mode, BitVec.ofNat 8 ext⟩

/-- The fragment is at `pc` after the outcome, and `k` holds of the context. -/
def ends (o : Out) (pc : Nat) (k : Ctx → Bool := fun _ => true) : Bool := goes o fun t => sees t me fun c => c.f.pc == pc && k c
/-- V register `i` of lane `l` is `x`. -/
def isV (l i : Nat) (x : W32) (c : Ctx) : Bool := (c.g.lane l).vreg i == x
/-- S register `i` is `x`. -/
def isS (i : Nat) (x : W32) (c : Ctx) : Bool := c.g.sreg i == x
/-- The outcome is a stop of the fragment for a cause. -/
def traps (o : Out) (cause : Cause) : Bool := goes o fun t => sees t me fun c => c.f.stop == some ⟨4, cause.code.1, none⟩

/-- A harbourmaster that runs, in context 191. -/
def hmOf (f : Frag) : Super :=
  { Super.idle 191 with run := true, kern := some kern, grp := { gr f with frags := [f], lanes := [ln 0] }, g := 64 }
/-- The module with that harbourmaster as the issuer. -/
def wh (f : Frag) : State := { s0 with cur := some (.hm 0), supers := [(0, hmOf f)] }
def ch (f : Frag) : Ctx := ⟨.hm 0, (hmOf f).grp, f, .super, 0, 256, 0, 0, kern, 64⟩
def f1 : Frag := { fr with mask := 1#64 }

/-- The module with entries in the FIFO store queue of warp 0. -/
def wq (q : List SEntry) : State := world { blk (gr fr) with warps := [⟨64, 64, false, q⟩] }
def entry (items : List SItem) : SEntry := ⟨3, 1#64, items, none, none, false, 4, [], false⟩

/-- The state in which a strand-ending instruction performs, where it does. -/
def performed? (s : State) (c : Ctx) : Option State :=
  let s := s.ensureCommit c
  if acquirePending (s.reread c) = none then s.takeMark (s.reread c) else none
/-- The state in which an arrival performs, where it does. -/
def arrived? (s : State) (c : Ctx) (w : MemOp) : Option State :=
  let s := barHeld s c w
  if acquirePending (s.reread c) = none then s.takeMark (s.reread c) else none
/-- A state with the word of an instruction at the PC of the fragment. -/
def placed (s : State) (i : Instr) : State :=
  match encode i with
  | some w => { s with mem := s.mem.write 32 (leBytes 16 w.toNat) }
  | none => s
/-- A line of the slice of cluster 0 with its first byte dirty. -/
def line (b : Byte) : L2Line := ⟨[(0, b)], 3#256, [], false⟩

/-- An entry of an engine queue that block 0 issued. -/
def qe (op : EngineOp) (begun : Bool := true) (gate : Option Nat := none) (obj : Option W32 := none) (run : Option CollRun := none) : QEntry :=
  ⟨7, 0, 0, 0, 0, 0, 0, 0, 5, obj, gate, op, false, begun, 0, none, 0, [], none, [], run⟩
/-- The module with an entry in the copy queue of core 0, the matrix queue of pair 0, the collective queue of die 0. -/
def inCopy (e : QEntry) (b : Block := blk (gr fr)) : State := (world b).setEngineQueue (.copy 0) [e]
def inMatrix (e : QEntry) : State := s0.setEngineQueue (.matrix 0) [e]
def inColl (e : QEntry) (tab : Member) (ms : List ChunkMsg) : State :=
  { s0.setEngineQueue (.coll 0 0) [e] with members := [(0, tab)], fabric := ms, dies := [(0, { Die.empty with up := 0x1F#5 })] }
/-- The module with another partition slot 0. -/
def wp (s : State) (p : Part) : State := { s with parts := [(0, p)] }
/-- A lane away on a tender, in context 5. -/
def aw (f : Frag) : Ejected := ⟨0, 0, 5, { gr f with lanes := [ln 0], frags := [f] }, [], 64, 0, none, []⟩

/-! ### Register instructions: what the statements ask for, and what the rules say comes of it -/

theorem test_hyps_RegisterFrame : let w := ar (V 6) (vr 1) (vr 2) no .i32
    Issues s0 (.iadd w) c0 ∧ Clean c0 w.guard ∧ (Instr.iadd w).wf = true ∧ ends (exec (.iadd w) s0) 48 (isV 2 6 10#32) = true :=
  ⟨issues_of (by decide +kernel), clean_of (by decide +kernel), by decide +kernel⟩

theorem test_hyps_CrossLaneFrame : let w := ar (S 6) (vr 1) no no .n32
    Issues s0 (.redx w) c0 ∧ (Instr.redx w).wf = true ∧ Clean c0 w.guard ∧ ends (exec (.redx w) s0) 48 (isS 6 26#32) = true :=
  ⟨issues_of (by decide +kernel), by decide +kernel, clean_of (by decide +kernel), by decide +kernel⟩

theorem test_hyps_IntegerResult : let w : ArithOp := { ar (V 6) (vr 1) im no .i8 (imm := 0x7F) with sat := true }
    Issues s0 (.iadd w) c0 ∧ (Instr.iadd w).wf = true ∧ Clean c0 w.guard ∧
      ends (exec (.iadd w) s0) 48 (isV 0 6 0x7F7F7F7F#32) = true :=
  ⟨issues_of (by decide +kernel), by decide +kernel, clean_of (by decide +kernel), by decide +kernel⟩

/-- An IADD of a group of width 64 with lane 1 and lane 33: the first half-issue reaches lane 1, the second one lane 33. -/
theorem test_hyps_HalfIssues : let w := ar (V 6) (vr 1) (vr 2) no .i32
    let i : Instr := .iadd w
    let f := { fr with mask := 0x200000002#64 }
    let g := { gr f with width := 64, lanes := (List.range 64).map ln }
    let wide (g : Group) : State := world { blk g with kern := { kern with width := some 64 }, warps := [⟨64, 64, false, []⟩, ⟨64, 64, false, []⟩] }
    let s := wide g
    let c := (s.ctx? me).getD c0
    let u := wide { g with frags := [{ f with half := some ⟨64, i, [], g.lanes⟩ }] }
    s.ctx? me = some c ∧ c.agent = me ∧ i.wf = true ∧ c.acting w.guard = [1, 33] ∧ ((c.acting w.guard).all fun l => (c.g.lane l).bad.isEmpty) = true ∧
    placeTrap s c i = none ∧ halfwise i = true ∧ unitReady u ((u.ctx? me).getD c0) = true ∧
    goes (firstHalf me i c s) (fun t => sees t me fun d => d.f.pc == 32 && d.f.mask == f.mask && !ready t d && d.f.half.any (·.due == 1000064) &&
      isV 1 6 9#32 d && isV 33 6 0#32 d) = true ∧
    goes (secondHalf me u) (fun t => sees t me fun d => d.f.pc == 48 && d.f.half.isNone && isV 1 6 0#32 d && isV 33 6 41#32 d) = true := by
  decide +kernel

theorem test_hyps_ShiftResult : let w := ar (V 6) im (vr 3) no .i32 (imm := 0x80000000)
    let u := ar (V 6) (vr 1) im no .b32 (imm := 31)
    Issues s0 (.sar w) c0 ∧ (Instr.sar w).wf = true ∧ Clean c0 w.guard ∧ ends (exec (.sar w) s0) 48 (isV 1 6 0xFFFFFFFF#32) = true ∧
    Issues s0 (.shl u) c0 ∧ (Instr.shl u).wf = true ∧ ends (exec (.shl u) s0) 48 (isV 2 6 0x80000000#32) = true ∧
    Issues s0 (.shr u) c0 ∧ (Instr.shr u).wf = true ∧ ends (exec (.shr u) s0) 48 (isV 2 6 0#32) = true ∧
    Issues s0 (.rol u) c0 ∧ (Instr.rol u).wf = true ∧ ends (exec (.rol u) s0) 48 (isV 2 6 0x80000003#32) = true :=
  ⟨issues_of (by decide +kernel), by decide +kernel, clean_of (by decide +kernel), by decide +kernel,
   issues_of (by decide +kernel), by decide +kernel, by decide +kernel,
   issues_of (by decide +kernel), by decide +kernel, by decide +kernel,
   issues_of (by decide +kernel), by decide +kernel⟩

/-- ICMP.lt of V1 and 7 to P0 with PS = P7, then FCLASS of 1.0: positive normal is bit 8 of R200. -/
theorem test_hyps_ComparesAndClasses : let w := ar (V 6) (vr 1) im no .i32 (mode := 2) (imm := 7) (ext := 0x70)
    let u := ar (V 6) im no no .f32 (imm := 0x3F800000)
    Issues s0 (.icmp w) c0 ∧ (Instr.icmp w).wf = true ∧ Clean c0 w.guard ∧ arithPd w ≠ 7 ∧
    ends (exec (.icmp w) s0) 48 (fun c => isV 1 6 0xFFFFFFFF#32 c && isV 2 6 0#32 c && (c.g.lane 1).pred 0 && !(c.g.lane 2).pred 0) = true ∧
    Issues s0 (.fclass u) c0 ∧ (Instr.fclass u).wf = true ∧ u.mode = 0#4 :=
  ⟨issues_of (by decide +kernel), by decide +kernel, clean_of (by decide +kernel), by decide +kernel, by decide +kernel,
   issues_of (by decide +kernel), by decide +kernel⟩

/-- FCLASS of one f32 value of each class of R200, in the order of its bits, and its MODE 1 against a mask with bit 8 and one
without. -/
theorem test_hyps_ClassBits : let u (x : Nat) := ar (V 6) im no no .f32 (imm := x)
    let m (k : Nat) := ar .none (vr 2) no no .f32 (mode := 1) (imm := k)
    let xs : List Nat := [0x7F800001, 0x7FC00000, 0xFF800000, 0xBF800000, 0x80000001, 0x80000000, 0, 1, 0x3F800000, 0x7F800000]
    (∀ k < 10, (Instr.fclass (u (xs.getD k 0))).wf = true ∧ ends (exec (.fclass (u (xs.getD k 0))) s0) 48 (isV 1 6 (BitVec.ofNat 32 (2 ^ k))) = true) ∧
    (Instr.fclass (m 0x80)).wf = true ∧ arithPd (m 0x80) = 0 ∧ classOfBits 23 8 3 = 7 ∧
    ends (exec (.fclass (m 0x80)) s0) 48 (fun c => (c.g.lane 1).pred 0) = true ∧
    ends (exec (.fclass (m 0x37F)) s0) 48 (fun c => !(c.g.lane 1).pred 0) = true := by
  decide +kernel

/-- The votes over the predicate P2, which lanes 0 and 1 alone hold. -/
theorem test_hyps_VoteResult : let w (m : Nat) := ar .none no no no .b32 (mode := m) (ext := 0x20)
    (∀ m < 3, (Instr.pcol (w m)).wf = true ∧ issuesB s0 (.pcol (w m)) c0 = true ∧ arithPd (w m) ≠ 7) ∧
    ends (exec (.pcol (w 0)) s0) 48 (fun c => !(c.g.lane 0).pred 0) = true ∧
    ends (exec (.pcol (w 1)) s0) 48 (fun c => (c.g.lane 3).pred 0) = true ∧
    ends (exec (.pcol (w 2)) s0) 48 (fun c => !(c.g.lane 0).pred 0) = true := by
  decide +kernel

/-- PCOL.mask, .xemp and .cnt of P2, which lanes 0 and 1 hold, to S10, and the mask with no lane taking part. -/
theorem test_hyps_VoteNumbers : let w (m : Nat) (x : Nat := 0x27) (g : Guard := al) := ar (S 10) no no no .b32 (mode := m) (ext := x) (g := g)
    (∀ y ∈ [w 3, w 4 0x77, w 5, w 3 0x27 never], (Instr.pcol y).wf = true ∧ issuesB s0 (.pcol y) c0 = true ∧ writesScalar y.d = true) ∧
    ends (exec (.pcol (w 3)) s0) 48 (isS 10 3#32) = true ∧ ends (exec (.pcol (w 4 0x77)) s0) 48 (isS 10 0#32) = true ∧
    ends (exec (.pcol (w 5)) s0) 48 (isS 10 2#32) = true ∧ c0.acting (w 3 0x27 never).guard = [] ∧
    ends (exec (.pcol (w 3 0x27 never)) s0) 48 (isS 10 0#32) = true := by
  decide +kernel

theorem test_hyps_PoisonStops : let g := { gr fr with lanes := [ln 0, { ln 1 with bad := [1] }, ln 2, ln 3] }
    let w := ar (V 6) (vr 1) (vr 2) no .i32
    Issues (wg g) (.iadd w) (cg g) ∧ (Instr.iadd w).wf = true ∧ 1 ∈ (cg g).acting w.guard ∧ (1#8).toNat ∈ ((cg g).g.lane 1).bad ∧
      traps (exec (.iadd w) (wg g)) .poison = true :=
  ⟨issues_of (by decide +kernel), by decide +kernel⟩

/-! ### Control -/

theorem test_hyps_BranchesGuarded : let w := ct .none no 64 (g := never)
    let u := ct .none no 64 (g := at1)
    Issues s0 (.bru w) c0 ∧ branchLanes (settled s0 c0) w = [] ∧ ends (exec (.bru w) s0) 48 = true ∧
    Issues s0 (.bru u) c0 ∧ branchLanes (settled s0 c0) u ≠ [] ∧ branchLanes (settled s0 c0) u ≠ (settled s0 c0).active ∧
      traps (exec (.bru u) s0) .brumix = true :=
  ⟨issues_of (by decide +kernel), by decide +kernel, by decide +kernel, issues_of (by decide +kernel), by decide +kernel⟩

/-- A backward branch to 0, a call two words on, and indirect ones to 0x80, which S6 holds. -/
theorem test_hyps_BranchesTaken : let w := ct .none no 0xFFFFFFE0
    let u := ct (S 10) no 32
    let x := ct (S 10) (sr 6) 0 3
    branchLanes (settled s0 c0) w = (settled s0 c0).active ∧ (settled s0 c0).active ≠ [] ∧ oneTarget (settled s0 c0) x 0x80 ∧
    Issues s0 (.bru w) c0 ∧ ends (exec (.bru w) s0) 0 = true ∧
    Issues s0 (.call u) c0 ∧ c0.f.depth ≠ 31 ∧ ends (exec (.call u) s0) 64 (fun c => c.f.depth == 2 && isS 10 48#32 c) = true ∧
    Issues s0 (.brx x) c0 ∧ ends (exec (.brx x) s0) 0x80 (fun c => c.f.carried == some 3) = true ∧
    Issues s0 (.callx x) c0 ∧ ends (exec (.callx x) s0) 0x80 (fun c => c.f.depth == 2 && isS 10 48#32 c) = true ∧
    Issues s0 (.ret x) c0 ∧ c0.f.depth ≠ 0 ∧ ends (exec (.ret x) s0) 0x80 (fun c => c.f.depth == 0) = true :=
  ⟨by decide +kernel, by decide +kernel, by unfold oneTarget; decide +kernel,
   issues_of (by decide +kernel), by decide +kernel, issues_of (by decide +kernel), by decide +kernel, by decide +kernel,
   issues_of (by decide +kernel), by decide +kernel, issues_of (by decide +kernel), by decide +kernel,
   issues_of (by decide +kernel), by decide +kernel⟩

theorem test_hyps_DivergentBranch : let w := ct .none no 64 3 2
    Issues s0 (.brd w) c0 ∧ openTag c0 = none ∧ w.ejt = false ∧ w.ejf = false ∧ c0.f.fid < s0.serial ∧
    branchLanes (settled s0 c0) w ≠ [] ∧ branchLanes (settled s0 c0) w ≠ (settled s0 c0).active ∧
    State.maySplit (s0.settle c0) (settled s0 c0) = true ∧
    ends (exec (.brd w) s0) 48 (fun c => c.f.mask == 0xC#64 && c.g.frags.any fun f => f.mask == 3#64 && f.pc == 96 && f.carried == some 3) = true :=
  ⟨issues_of (by decide +kernel), by decide +kernel, rfl, rfl, by decide +kernel⟩

/-- A BRD that every lane takes, one that none takes, one that the budget forbids, and one that ejects its two lanes to the contexts
0 and 8, or, with the sides exchanged, that sends away the fragment that falls through. -/
theorem test_hyps_BranchForms : let w (cp : Nat) (e : Bool) : CtlOp := { ct .none no 64 3 cp with ejt := e, ejf := e }
    let full : State := world { blk (gr fr) with groups := [{ gr fr with frags := fr :: (upFrom 1 31).map fun i => { fr with fid := i, mask := 0#64 } }] }
    let back : CtlOp := { w 1 true with cn := true }
    let fc : Ctx := (full.ctx? me).getD c0
    let far := wp s0 { part0 with divctl := 4#32, ejGrant := [(0, 8)] }
    branchLanes (settled s0 c0) (w 4 false) = (settled s0 c0).active ∧ ends (exec (.brd (w 4 false)) s0) 96 (fun c => c.f.carried == some 3) = true ∧
    branchLanes (settled s0 c0) (w 3 false) = [] ∧ ends (exec (.brd (w 3 false)) s0) 48 (fun c => c.f.carried == some 3) = true ∧
    issuesB full (.brd (w 2 false)) fc = true ∧ openTag fc = none ∧ State.maySplit (full.settle fc) (settled full fc) = false ∧
    ends (exec (.brd (w 2 false)) full) 32 (fun c => c.f.mask == 0xF#64 && c.f.carried == none) = true ∧
    issuesB far (.brd (w 2 true)) c0 = true ∧ (far.settle c0).reserve 0 0 [0, 1] = some [(0, 0), (1, 8)] ∧
    ends (exec (.brd (w 2 true)) far) 48 (fun c => c.f.rst.pc == 48 && c.g.frags.any fun f => f.mask == 3#64 && f.pc == 96 &&
      f.rst.pc == 96 && f.ctxs == [(0, 0), (1, 8)]) = true ∧
    issuesB far (.brd back) c0 = true ∧ ends (exec (.brd back) far) 48 (fun c => c.f.mask == 4#64 && c.f.ctxs == [(2, 0)] &&
      c.g.frags.any fun f => f.mask == 0xB#64 && f.pc == 96 && f.wait == .none) = true := by
  decide +kernel

theorem test_hyps_StrandsBeginAndEnd : let w := ct .none no (g := at1)
    let u := ct .none no 0x1234
    Issues s0 (.exit w) c0 ∧ c0.agent = .frag 0 0 0 ∧ c0.acting w.guard ≠ [] ∧ openTag c0 = none ∧ c0.f.mark = none ∧
    goes (exec (.exit w) s0) (fun t => sees t me fun c => (c.g.lane 2).exited && !(c.g.lane 1).exited) = true ∧
    Issues s0 (.sbeg u) c0 ∧
    ends (exec (.sbeg u) s0) 48 (fun c => c.f.rst.pc == 32 && c.f.rst.sid == 0x1234 && (c.g.lane 1).n == [] && (c.g.lane 1).srsRst == 7#32) = true :=
  ⟨issues_of (by decide +kernel), rfl, by decide +kernel, by decide +kernel, rfl, by decide +kernel,
   issues_of (by decide +kernel), by decide +kernel⟩

/-- An SBEG behind two stores, with a Consumed and a landed tag and a shrink to 40 registers. -/
theorem test_hyps_StrandCommits : let i (b : Byte) : SItem := ⟨1, 2#64, .glob 0x300 0x300 0 0 65536, .bytes [b], false⟩
    let e (n : Nat) (b : Byte) : SEntry := { entry [i b] with store := n, mask := 2#64 }
    let x (st : TagSt) : Tag := { Tag.empty with st := st, mask := 3#64, fresh := true }
    let g : Group := { gr { fr with shrink := some 40 } with sbuf := [e 3 1#8, e 4 2#8], tags := [(3, x .consumed), (5, { x .landed with fresh := false })] }
    let u := ct .none no 0x1234
    issuesB (wg g) (.sbeg u) (cg g) = true ∧ 40 < ((wg g).counts (cg g)).1 ∧ ((cg g).g.tag 3).belongs fr.mask = true ∧
    goes (exec (.sbeg u) (wg g)) (fun t => (t.fifo (.warp 0 0)).map (·.items) == [[i 1#8], [i 2#8]] &&
      (t.block? 0).any (fun b => (b.warp 0).c == 40) && sees t me fun c => c.g.sbuf == [] && c.f.shrink == none &&
        (c.g.tag 3).st == .empty && (c.g.tag 5).st == .landed) = true := by
  decide +kernel

/-- EXIT of one lane with a Pending tag, with a release mark behind a store and without, and of a harbourmaster. -/
theorem test_hyps_ExitForms : let w := ct .none no (g := at1)
    let x : Group := { gr fr with tags := [(3, { Tag.empty with st := .pending, mask := 0xF#64 })] }
    let m := { fr with mark := some .blk }
    let q (l : List SEntry) : State := world { blk (gr m) with warps := [⟨64, 64, false, l⟩] }
    let ready (s : State) (c : Ctx) : Bool := ((s.ensureCommit c).takeMark ((s.ensureCommit c).reread c)).isSome
    issuesB (wg x) (.exit w) (cg x) = true ∧ openTag (cg x) = some 3 ∧ traps (exec (.exit w) (wg x)) .taguse = true ∧
    issuesB (q [entry []]) (.exit w) (cf m) = true ∧ openTag (cf m) = none ∧ ready (q [entry []]) (cf m) = false ∧
    goes (exec (.exit w) (q [entry []])) (fun t => sees t me fun c => c.f.pc == 32 && c.f.wait == .perform) = true ∧
    ready (q []) (cf m) = true ∧ (fr.fid :: []).Nodup ∧
    goes (exec (.exit w) (q [])) (fun t => sees t me fun c => c.f.pc == 48 && c.f.mask == 0xB#64 && (c.g.lane 2).exited) = true ∧
    issuesB (wh f1) (.exit (ct .none no)) (ch f1) = true ∧ openTag (ch f1) = none ∧ ready (wh f1) (ch f1) = true ∧
    goes (exec (.exit (ct .none no)) (wh f1)) (fun t => (tblFind t.supers 0).any fun n => !n.run) = true := by
  decide +kernel

/-- RJSET on J2, copies of its image out to S10 to S12 and in from S8 and S9, and an RJWAIT on the empty J2. -/
theorem test_hyps_Rejoining : let w := ct .none no 64 2
    let u := ct (S 10) no 0 2 0
    let x := ct .none (sr 8) 0 2 (mode := 1)
    Issues s0 (.rjset w) c0 ∧ c0.g.waiter 2 = none ∧ ends (exec (.rjset w) s0) 48 (fun c => (c.g.rej 2).img.toNat % 2 ^ 32 == 0xF) = true ∧
    Issues s0 (.rjmovRead u) c0 ∧ (Instr.rjmovRead u).wf = true ∧ ends (exec (.rjmovRead u) s0) 48 = true ∧
    Issues s0 (.rjmovWrite x) c0 ∧ c0.g.width = 32 ∧ ends (exec (.rjmovWrite x) s0) 48 (fun c => (c.g.rej 2).img == 0x1000#64) = true ∧
    Issues s0 (.rjwait w) c0 ∧ openTag c0 = none ∧ returning (s0.settle c0) c0 2 = false ∧
    ((settled s0 c0).g.rej 2).fits 2 (settled s0 c0).f = false ∧ ends (exec (.rjwait w) s0) 48 = true :=
  ⟨issues_of (by decide +kernel), by decide +kernel, by decide +kernel, issues_of (by decide +kernel), by decide +kernel,
   by decide +kernel, issues_of (by decide +kernel), by decide +kernel, by decide +kernel, issues_of (by decide +kernel),
   by decide +kernel⟩

/-- The lanes 0 and 1 arrive on J2, whose image names the lanes 0 to 3: they wait; with the lanes 2 and 3 waiting there they
go on; and with those waiting on J1 all go on and RJDS is set. -/
theorem test_hyps_RejoinArrives : let w := ct .none no 0 2
    let f2 := { fr with mask := 3#64, carried := some 2 }
    let other := { f2 with fid := 1, mask := 0xC#64 }
    let twin : Frag := { other with wait := .rejoin 2, committed := true }
    let away : Frag := { other with wait := .rejoin 1, pc := 0x100, carried := some 1, committed := true }
    let g (x : Frag) : Group := { gr fr with j := [(2, RejReg.make 32 1 (some 3) 0x30#32 0xF#64)], frags := [f2, x] }
    (∀ x ∈ [other, twin, away], issuesB (wg (g x)) (.rjwait w) (cg (g x)) = true ∧ openTag (cg (g x)) = none ∧
      ((g x).rej 2).fits 2 f2 = true ∧ f2.wait = .none ∧ f2.stop = none ∧ ((g x).frags.map (·.fid)).Nodup ∧
      ((wg (g x)).block? 0).any (·.st == .running) = true) ∧ ((g twin).waiter 2).map (·.pc) = some 32 ∧
    goes (exec (.rjwait w) (wg (g other))) (fun t => sees t me fun c =>
      c.f.wait == .rejoin 2 && c.f.committed && c.f.mask == 3#64 && (c.g.rej 2).arrival == some (1000000, 64 * 256 * 64)) = true ∧
    goes (exec (.rjwait w) (wg (g twin))) (fun t => sees t (.frag 0 0 1) fun c =>
      c.f.pc == 48 && c.f.mask == 0xF#64 && c.f.carried == some 3 && c.f.fmt == 0x30#32 && c.f.readyAt == 1000000 + 64 * 24 &&
      c.g.frags.length == 1 && (c.g.rej 2).mask == 0#64) = true ∧
    goes (exec (.rjwait w) (wg (g away))) (fun t => (t.block? 0).any (fun b => b.warps.any (·.rjds)) &&
      sees t me (fun c => c.f.pc == 48 && (c.g.frag? 1).any fun x => x.pc == 0x110)) = true := by
  decide +kernel

/-- RJMOV from S8 and S9 at the widths 16 and 64: at 16 the high half of the mask does not exist, at 64 S10 holds it. -/
theorem test_hyps_RejoinMoved : let x := ct .none (sr 8) 0 2 (mode := 1)
    let g (n : Nat) : Group := { gr fr with width := n, s := [(8, 0xFFFF000F#32), (9, 5#32), (10, 7#32)] }
    (∀ n ∈ [16, 64], issuesB (wg (g n)) (.rjmovWrite x) (cg (g n)) = true ∧ (g n).waiter 2 = none) ∧
    ends (exec (.rjmovWrite x) (wg (g 16))) 48 (fun c => (c.g.rej 2).img == 0x50000000F#64 && (c.g.rej 2).hi == 0#32) = true ∧
    ends (exec (.rjmovWrite x) (wg (g 64))) 48 (fun c => (c.g.rej 2).img == 0x5FFFF000F#64 && (c.g.rej 2).hi == 7#32) = true := by
  decide +kernel

theorem test_hyps_PredicatesWritten : let w := ct (S 10) no 5 0 0
    let u := ar .none (vr 1) no no .b32 (imm := 0x41)
    Issues s0 (.elect w) c0 ∧ (Instr.elect w).wf = true ∧ c0.active ≠ [] ∧
    ends (exec (.elect w) s0) 48 (fun c => (c.g.lane 0).pred 5 && !(c.g.lane 1).pred 5) = true ∧
    Issues s0 (.s2p u) c0 ∧ Clean c0 u.guard ∧
    ends (exec (.s2p u) s0) 48 (fun c => (c.g.lane 0).pred 0 && !(c.g.lane 1).pred 0 && (c.g.lane 2).pred 1) = true :=
  ⟨issues_of (by decide +kernel), by decide +kernel, by decide +kernel, by decide +kernel,
   issues_of (by decide +kernel), clean_of (by decide +kernel), by decide +kernel⟩

/-- SLEEP for 2^21 core cycles waits for 2^20; the waking comes when the time has. -/
theorem test_hyps_Pacing : let w := ct .none no
    let u := ct .none im 0x200000
    let f := { fr with wait := .sleep 1000000 false }
    Issues s0 (.nop w) c0 ∧ ends (exec (.nop w) s0) 48 = true ∧
    Issues s0 (.sleep u) c0 ∧ c0.acting u.guard ≠ [] ∧ c0.src 0 .b32 u.a u.imm ≠ 0 ∧
    ends (exec (.sleep u) s0) 48 (fun c => c.f.wait == .sleep (1000000 + 64 * 0x100000) false) = true ∧
    Issues s0 (.yield w) c0 ∧ c0.acting w.guard ≠ [] ∧
    (wf f).ctx? me = some (cf f) ∧ (cf f).f.wait = .sleep 1000000 false ∧ 1000000 ≤ (wf f).clock ∧
    ends (exec (.sleepWake me) (wf f)) 32 (fun c => c.f.wait == .none) = true :=
  ⟨issues_of (by decide +kernel), by decide +kernel, issues_of (by decide +kernel), by decide +kernel, by decide +kernel,
   by decide +kernel, issues_of (by decide +kernel), by decide +kernel, by decide +kernel, rfl, by decide +kernel⟩

/-- From 64 registers to 65, which rounds to 72. -/
theorem test_hyps_RegisterGrants : let w := ar .none im no no .b32 (imm := 65) (ext := 1)
    let x := ar .none im no no .b32 (imm := 7)
    let z := ar .none im no no .b32 (imm := 0xFF)
    let f := { fr with wait := .grow 3 100 }
    c0.agent = .frag 0 0 0 ∧ c0.acting w.guard ≠ [] ∧ (s0.counts c0).1 < scalarCount c0 w ∧ scalarCount c0 w ≤ 256 ∧
    fitsPool s0 c0.core c0.g.width (warpsOf c0.g.width c0.g.index) (scalarCount c0 w) = true ∧
    growWaiters s0 c0.core (quadOf c0.g.width c0.warp) = [] ∧
    Issues s0 (.rgrowWait w) c0 ∧ ends (exec (.rgrowWait w) s0) 48 (fun c => c.granted == 72) = true ∧
    Issues s0 (.rgrowTry w) c0 ∧ ends (exec (.rgrowTry w) s0) 48 (fun c => c.granted == 72 && (c.g.lane 3).pred 1) = true ∧
    (wf f).ctx? (.frag 0 0 0) = some (cf f) ∧ growWaiters (wf f) 0 0 = [(3, 100, .frag 0 0 0)] ∧ ((wf f).counts (cf f)).1 < 100 ∧
    fitsPool (wf f) 0 (cf f).g.width (warpsOf (cf f).g.width (cf f).g.index) 100 = true ∧
    ends (exec (.rgrowGrant 0 0) (wf f)) 48 (fun c => c.granted == 104) = true ∧
    Issues s0 (.rshrink x) c0 ∧ scalarCount c0 x ≤ 256 ∧ ends (exec (.rshrink x) s0) 48 (fun c => c.f.shrink == some 8) = true ∧
    Issues s0 (.fmtset z) c0 ∧ ends (exec (.fmtset z) s0) 48 (fun c => c.f.fmt == 0xBF#32) = true ∧
    Issues s0 (.fmtsetRm z) c0 ∧ ends (exec (.fmtsetRm z) s0) 48 (fun c => c.f.fmt == 3#32) = true :=
  ⟨rfl, by decide +kernel, by decide +kernel, by decide +kernel, by decide +kernel, by decide +kernel,
   issues_of (by decide +kernel), by decide +kernel, issues_of (by decide +kernel), by decide +kernel, by decide +kernel,
   by decide +kernel, by decide +kernel, by decide +kernel, by decide +kernel, issues_of (by decide +kernel), by decide +kernel,
   by decide +kernel, issues_of (by decide +kernel), by decide +kernel, issues_of (by decide +kernel), by decide +kernel⟩

/-! ### Loads and stores -/

/-- An LD of the bytes at 0x100 to tag 3, its landing, and the LAND of its words. -/
theorem test_hyps_LandingLoads : let w := me' .none (vr 4) no no .i32 (imm := 0x100) (tag := 3)
    let u := me' (V 6) no no no .i32 (tag := 3)
    let g : Tag → Group := fun t => { gr fr with tags := [(3, t)] }
    let pend : Tag := { Tag.empty with st := .pending, mask := 3#64 }
    let landed : Tag := { Tag.empty with st := .landed, mask := 3#64, data := [(0, [1#8, 2#8, 0#8, 0#8]), (1, [0#8, 0#8, 0#8, 0x80#8])] }
    let one : Tag := { Tag.empty with st := .landed, mask := 1#64, scalar := true, data := [(0, [1#8, 2#8, 0#8, 0#8])] }
    Issues s0 (.ld w) c0 ∧ Clean c0 w.guard ∧ c0.units w.toCommon false ≠ [] ∧ (c0.g.tag 3).st = .empty ∧
    (∀ l ∈ c0.units w.toCommon false, misaligned w (c0.globalVa l w.a.op w.imm).toNat = false) ∧ accessBlock c0 = none ∧
    (translateLanes c0 .read 1 (some 3) s0 ((c0.units w.toCommon false).map fun l => (l, c0.globalVa l w.a.op w.imm))).isLeft = true ∧
    ends (exec (.ld w) s0) 48 (fun c => (c.g.tag 3).st == .pending && (c.g.tag 3).mask == 0xF#64) = true ∧
    (wg (g pend)).ctx? me = some (cg (g pend)) ∧ ((cg (g pend)).g.tag 3).acq = none ∧
    ends (exec (.tagLanded me 3) (wg (g pend))) 32 (fun c => (c.g.tag 3).st == .landed) = true ∧
    Issues (wg (g landed)) (.land u) (cg (g landed)) ∧ (Instr.land u).wf = true ∧ (cg (g landed)).acting u.guard ≠ [] ∧
    ends (exec (.land u) (wg (g landed))) 48 (fun c => isV 0 6 0x201#32 c && isV 1 6 0x80000000#32 c && (c.g.tag 3).st == .consumed) = true ∧
    Issues (wg (g one)) (.land u) (cg (g one)) ∧
    ends (exec (.land u) (wg (g one))) 48 (fun c => isV 3 6 0x201#32 c) = true :=
  ⟨issues_of (by decide +kernel), clean_of (by decide +kernel), by decide +kernel, by decide +kernel, by decide +kernel,
   rfl, by decide +kernel, by decide +kernel, by decide +kernel, by decide +kernel, by decide +kernel,
   issues_of (by decide +kernel), by decide +kernel, by decide +kernel, by decide +kernel, issues_of (by decide +kernel), by decide +kernel⟩

/-- The words at 0x104 and 0x100 loaded past the slice from memory, where the first line is clean, and through it, where it holds
0xCC. -/
theorem test_hyps_LoadedBytes : let w (k : Kind) (sc : Scope) := me' .none (vr 5) no no .i32 (imm := 0x100) (tag := 3) (kind := k) (scope := sc) (g := at1)
    let z (b : Byte) : State := { s0 with l2 := [(0, [(2, ⟨[(0, b)], 0#256, [], false⟩)])] }
    let got (s : State) (k : Kind) (sc : Scope) (x : List Byte) : Bool :=
      ends (exec (.ld (w k sc)) s) 48 fun c => tblGet [] (c.g.tag 3).data 2 == x
    issuesB s0 (.ld (w .rlx .stk)) c0 = true ∧ issuesB (z 0xCC#8) (.ld (w .plain .blk)) c0 = true ∧ c0.units (w .rlx .stk).toCommon false = [2] ∧
    ownItems s0 c0 2 = [] ∧ (∀ l ∈ (z 0xCC#8).slice 0, l.2.dirty = 0#256) ∧
    got (z 0xCC#8) .rlx .stk [0xAA#8, 0xBB#8, 0#8, 0#8] = true ∧ got (z 0xCC#8) .plain .blk [0xCC#8, 0#8, 0#8, 0#8] = true ∧
    got s0 .plain .blk [0xAA#8, 0xBB#8, 0#8, 0#8] = true := by
  decide +kernel

/-- LDS and GATH of the word 0x00020002 at 0x80, and LDC of word 1 of the bank. -/
theorem test_hyps_DirectLoads : let w := me' (V 6) (vr 3) no no .i32 (imm := 0x40)
    let u := me' (V 6) (sr 6) (vr 0) no .i32 (amode := 2)
    let x := me' (V 6) (vr 9) no no .i32 (imm := 4)
    let ps := [(0, 0, 0x80), (1, 0, 0x80), (2, 0, 0x80), (3, 0, 0x80)]
    Clean c0 w.guard ∧ c0.units w.toCommon false ≠ [] ∧ Issues s0 (.lds w) c0 ∧ (Instr.lds w).wf = true ∧ w.kind ≠ .acq ∧
    (∀ a ∈ ldsAddrs c0 w (c0.units w.toCommon false), misaligned w a.2 = false) ∧
    ScratchOpen s0 c0 1 (accessBytes w) (ldsAddrs c0 w (c0.units w.toCommon false)) ps ∧
    ends (exec (.lds w) s0) 48 (isV 3 6 0x20002#32) = true ∧
    (let v := { u with toCommon := { u.toCommon with guard := at1, imm := 0xFFFFFFFE#32 } }
     Issues s0 (.gath v) c0 ∧ (Instr.gath v).wf = true ∧ (∀ l ∈ c0.units v.toCommon false, gatherAddr c0 l v % v.ty.itemBytes = 0) ∧
     ScratchOpen s0 c0 1 v.ty.itemBytes ((c0.units v.toCommon false).map fun l => (l, gatherAddr c0 l v)) [(2, 0, 0x80)] ∧
     ends (exec (.gath v) s0) 48 (isV 2 6 0x20002#32) = true) ∧
    Issues s0 (.ldc x) c0 ∧ (Instr.ldc x).wf = true ∧
    (∀ l ∈ c0.units x.toCommon false, misaligned x (c0.spAddr l x.a.op x.imm) = false) ∧
    ends (exec (.ldc x) s0) 48 (isV 1 6 0x20#32) = true :=
  ⟨clean_of (by decide +kernel), by decide +kernel, issues_of (by decide +kernel), by decide +kernel, by decide +kernel,
   by decide +kernel, ⟨by decide +kernel, by decide +kernel, by decide +kernel, by decide +kernel⟩, by decide +kernel,
   ⟨issues_of (by decide +kernel), by decide +kernel, by decide +kernel,
    ⟨by decide +kernel, by decide +kernel, by decide +kernel, by decide +kernel⟩, by decide +kernel⟩,
   issues_of (by decide +kernel), by decide +kernel⟩

/-- ST, STS and SCAT buffer an entry; the drains put two bytes into the scratchpad and, for a harbourmaster, into
memory. -/
theorem test_hyps_StoresDrain : let w := me' .none (vr 4) (vr 1) no .i32 (imm := 0x200)
    let u := me' .none (vr 3) (vr 1) no .i32
    let x := me' .none (sr 6) (vr 5) (vr 1) .i32 (amode := 2)
    let q := entry [⟨0, 1#64, .scratch 0 0x90, .bytes [1#8, 2#8], false⟩]
    let r := entry [⟨0, 1#64, .glob 0x300 0x300 0 0 65536, .bytes [1#8, 2#8], false⟩]
    let h : State := { s0 with supers := [(0, { hmOf f1 with fifo := [r] })] }
    Clean c0 w.guard ∧ c0.units w.toCommon false ≠ [] ∧ sbovf c0 (c0.units w.toCommon false) = none ∧
    Issues s0 (.st w) c0 ∧ (∀ l ∈ c0.units w.toCommon false, misaligned w (c0.globalVa l w.a.op w.imm).toNat = false) ∧
    (translateLanes c0 .write 2 none s0 ((c0.units w.toCommon false).map fun l => (l, c0.globalVa l w.a.op w.imm))).isLeft = true ∧
    ends (exec (.st w) s0) 48 (fun c => c.g.sbuf.map (fun e => e.items.length) == [4]) = true ∧
    Issues s0 (.sts u) c0 ∧ (∀ a ∈ ldsAddrs c0 u (c0.units u.toCommon false), misaligned u a.2 = false) ∧
    (scratchLanes s0 c0 2 (ldsAddrs c0 u (c0.units u.toCommon false))).isLeft = true ∧
    ends (exec (.sts u) s0) 48 (fun c => c.g.sbuf.flatMap (fun e => e.items.map (·.act)) == [.bytes (leBytes 4 5), .bytes (leBytes 4 6), .bytes (leBytes 4 7), .bytes (leBytes 4 8)]) = true ∧
    Issues s0 (.scat x) c0 ∧ (∀ l ∈ c0.units x.toCommon false, x.ty = .q4 ∨ gatherAddr c0 l x % x.ty.itemBytes = 0) ∧
    (scratchLanes s0 c0 2 ((c0.units x.toCommon false).map fun l => (l, gatherAddr c0 l x))).isLeft = true ∧
    ends (exec (.scat x) s0) 48 (fun c => c.g.sbuf.flatMap (fun e => e.items.map (·.place)) == List.replicate 4 (.scratch 0 0x80)) = true ∧
    (wq [q]).fifo (.warp 0 0) = [q] ∧ ((wq [q]).fifoOwner (.warp 0 0)).isSome = true ∧ q.rel = none ∧ q.items.any (itemWaits (wq [q]) 0 0) = false ∧ q.acqs = [] ∧
    (∀ c h, FifoId.warp 0 0 = .warp c h → h % 2 = 0) ∧
    goes (exec (.storeDrain (.warp 0 0)) (wq [q])) (fun t => (t.core 0).scratchRead 0x90 2 == [1#8, 2#8] && t.fifo (.warp 0 0) == []) = true ∧
    h.fifo (.hm 0) = [r] ∧ (h.fifoOwner (.hm 0)).map (·.cl) = some none ∧ r.items.any (itemWaits h 0 0x10000) = false ∧
    (∀ i ∈ List.range 2, isHbm (0x300 + i) = true) ∧ h.homeLost 0 0x300 = false ∧
    goes (exec (.storeDrain (.hm 0)) h) (fun t => t.mem.read 0x300 2 == [1#8, 2#8] && t.fifo (.hm 0) == []) = true :=
  ⟨clean_of (by decide +kernel), by decide +kernel, by decide +kernel, issues_of (by decide +kernel), by decide +kernel,
   by decide +kernel, by decide +kernel, issues_of (by decide +kernel), by decide +kernel, by decide +kernel, by decide +kernel,
   issues_of (by decide +kernel), by decide +kernel, by decide +kernel, by decide +kernel, by decide +kernel, by decide +kernel,
   rfl, by decide +kernel, rfl, fun c h e => (by cases e; rfl), by decide +kernel⟩

/-- The head of the queue of warp 0 with two items goes to the scratchpad; stores through the slice, into it, and past it. At
width 64 the odd part waits for the even one. -/
theorem test_hyps_StorePaths : let gl (pa : Nat) (bs : List Byte) : SItem := ⟨0, 1#64, .glob pa pa 0 0 65536, .bytes bs, false⟩
    let q := entry [⟨0, 1#64, .scratch 0 0x90, .bytes [1#8, 2#8], false⟩, ⟨1, 2#64, .scratch 0 0x91, .bytes [3#8], false⟩]
    let e (sc : Option Scope) (by' : Bool) : SEntry := { entry [gl 0x300 [1#8, 2#8], gl 0x301 [3#8]] with strong := sc, bypass := by' }
    let z (x : SEntry) : State := { wq [x] with l2 := [(0, [(6, line 9#8)])] }
    let drain (s : State) (k : State → Bool) : Bool := goes (exec (.storeDrain (.warp 0 0)) s) k
    let two : State := world { blk { gr fr with width := 64 } with
      kern := { kern with width := some 64 }
      warps := [⟨64, 64, false, [entry [gl 0x300 [1#8], gl 0x301 [2#8]]]⟩, ⟨64, 64, false, [entry [gl 0x301 [3#8]]]⟩] }
    (∀ x ∈ [q, e none false, e (some .stk) false, e none true], (z x).fifo (.warp 0 0) = [x] ∧
      ((z x).fifoOwner (.warp 0 0)).any (fun o => o.cl == some 0 && !x.items.any (itemWaits (z x) o.die o.space) && o.acqs == []) = true) ∧
    (z q).homeLost 0 0x300 = false ∧ isHbm 0x300 = true ∧ isHbm 0x301 = true ∧
    drain (z q) (fun t => (t.core 0).scratchRead 0x90 3 == [1#8, 3#8, 0#8]) = true ∧
    storePath false (some 0) none = .slice 0 ∧ storePath false (some 0) (some .stk) = .through 0 ∧ storePath true (some 0) none = .bypass (some 0) ∧
    drain (z (e none false)) (fun t => t.sliceByte 0 0x301 == 3#8 && t.mscByte 0x301 == 0#8) = true ∧
    drain (z (e (some .stk) false)) (fun t => t.sliceByte 0 0x301 == 3#8 && t.mscByte 0x301 == 3#8) = true ∧
    (tblFind ((z q).slice 0) 6).any (·.dirty != 0#256) = true ∧
    drain (z (e none true)) (fun t => t.mscByte 0x301 == 3#8 && (tblFind (t.slice 0) 6).isNone) = true ∧
    (two.block? 0).map (·.kern.w) = some 64 ∧ (two.fifoOwner (.warp 0 1)).isSome = true ∧ two.behindTwin (.warp 0 1) (entry [gl 0x301 [3#8]]) = true ∧
    two.behindTwin (.warp 0 0) (entry [gl 0x300 [1#8], gl 0x301 [2#8]]) = false ∧
    goes (exec (.storeDrain (.warp 0 1)) two) (fun t => (t.fifo (.warp 0 1)).map (·.items) == [[gl 0x301 [3#8]]]) = true ∧
    goes (exec (.storeDrain (.warp 0 0)) two) (fun t => (t.fifo (.warp 0 1)).map (·.items) == [[gl 0x301 [3#8]]] && t.sliceByte 0 0x301 == 2#8) = true := by
  decide +kernel

/-- A store split by a branch, whose higher lane commits and performs first: the lower one writes its place no more. A store that
comes after a tile store to its bytes waits. -/
theorem test_hyps_PartsSettle : let gl (l : Nat) (b : Byte) : SItem := ⟨l, BitVec.ofNat 64 (2 ^ l), .glob 0x301 0x301 0 0 65536, .bytes [b], false⟩
    let late : SEntry := { entry [gl 0 3#8] with store := 3 }
    let s := world { blk { gr fr with sbuf := [late] } with warps := [⟨64, 64, false, [entry [gl 1 5#8]]⟩] }
    let tile : TileStore := ⟨2, 0, 0, 1#64, [(0x300, 0, [1#8, 2#8])], false, .blk, []⟩
    let u := world { blk { gr fr with tsts := [tile] } with warps := [⟨64, 64, false, [entry [gl 1 5#8]]⟩] }
    goes (exec (.storeDrain (.warp 0 0)) s) (fun t => t.sliceByte 0 0x301 == 5#8 && sees t me fun c =>
      c.g.sbuf.map (·.items) == [[{ gl 0 3#8 with beaten := true }]]) = true ∧
    (u.fifoOwner (.warp 0 0)).any (fun o => (entry [gl 1 5#8]).behindTile o.tsts) = true ∧
    goes (exec (.storeDrain (.warp 0 0)) u) (fun t => t.fifo (.warp 0 0) == [entry [gl 1 5#8]]) = true := by
  decide +kernel

/-- An atomic item and a 4-bit element drain: in the slice, over a dirty line of it, past it, and in the scratchpad. -/
theorem test_hyps_ElementsDrain : let gl (a : StoreAct) : SItem := ⟨0, 1#64, .glob 0x300 0x300 0 0 65536, a, false⟩
    let sp (a : StoreAct) : SItem := ⟨0, 1#64, .scratch 0 0x40, a, false⟩
    let add : StoreAct := .atomic 0 .n32 5#64
    let e (i : SItem) (sc : Option Scope) (by' : Bool) : SEntry := { entry [i] with strong := sc, bypass := by' }
    let z (x : SEntry) : State := { wq [x] with l2 := [(0, [(6, line 9#8)])] }
    let drain (x : SEntry) (k : State → Bool) : Bool := goes (exec (.storeDrain (.warp 0 0)) (z x)) k
    let hm (i : SItem) : State := { s0 with supers := [(0, { hmOf f1 with fifo := [entry [i]] })] }
    (∀ x ∈ [e (gl add) none false, e (gl add) (some .stk) false, e (sp add) none false, e (gl (.nibble true 6#4)) none false,
        e (gl (.nibble true 6#4)) (some .stk) false, e (sp (.nibble true 6#4)) none false],
      (z x).fifo (.warp 0 0) = [x] ∧ ((z x).fifoOwner (.warp 0 0)).any (fun o => (z x).headReady (.warp 0 0) o x) = true) ∧
    (z (entry [])).homeLost 0 0x300 = false ∧ isHbm 0x300 = true ∧ sliceSorted (z (entry [])) 0 ∧ roomFor (z (entry [])) 0 1 ∧
    drain (e (gl add) none false) (fun t => t.sliceByte 0 0x300 == 14#8 && t.mscByte 0x300 == 0#8) = true ∧
    drain (e (gl add) (some .stk) false) (fun t => t.mscByte 0x300 == 14#8 && t.slice 0 == []) = true ∧
    drain (e (sp add) none false) (fun t => (t.core 0).scratchByte 0x40 == 0x7C#8) = true ∧
    drain (e (gl (.nibble true 6#4)) none false) (fun t => t.sliceByte 0 0x300 == 0x69#8 && t.mscByte 0x300 == 0#8) = true ∧
    drain (e (gl (.nibble true 6#4)) (some .stk) false) (fun t => t.mscByte 0x300 == 0x60#8 && t.sliceByte 0 0x300 == 0x69#8) = true ∧
    drain (e (sp (.nibble true 6#4)) none false) (fun t => (t.core 0).scratchByte 0x40 == 0x67#8) = true ∧
    ((hm (gl add)).fifoOwner (.hm 0)).any (fun o => (hm (gl add)).headReady (.hm 0) o (entry [gl add])) = true ∧
    goes (exec (.storeDrain (.hm 0)) (hm (gl add))) (fun t => t.mscByte 0x300 == 5#8) = true ∧
    goes (exec (.storeDrain (.hm 0)) (hm (gl (.nibble false 6#4)))) (fun t => t.mscByte 0x300 == 6#8) = true := by
  unfold sliceSorted roomFor; decide +kernel

/-! ### Caches, fences, atomics, tiles -/

/-- The lines 2 (at 0x100, dirty) and 4 (clean) in the slice. -/
theorem test_hyps_CachesAndFences : let w := me' .none no no no .b32
    let u := me' .none (vr 4) no no .b32 (imm := 0x100) (g := at1)
    let f (k : Kind) := me' .none no no no .b32 (kind := k) (scope := .stk)
    let z : State := { s0 with l2 := [(0, [(2, line 0xCC#8), (4, ⟨[], 0#256, [], false⟩)])] }
    let r := wq [entry []]
    c0.acting w.guard ≠ [] ∧ r.fifosEmpty c0 = false ∧
    issuesB { r with clock := 0 } (.cctlWball w) { c0 with agent := me } = true ∧
    goes (exec (.cctlWball w) r) (fun t => sees t me fun c => c.f.wait == .perform) = true ∧
    z.fifosEmpty c0 = true ∧ sliceSorted z (z.clusterFor c0) ∧
    Issues z (.cctlWball w) c0 ∧ goes (exec (.cctlWball w) z) (fun t => t.mem.get 0x100 == 0xCC#8 && (t.slice 0).all fun l => l.2.dirty == 0#256) = true ∧
    Issues z (.cctlInvall w) c0 ∧ goes (exec (.cctlInvall w) z) (fun t => t.mem.get 0x100 == 0xCC#8 && (t.slice 0).isEmpty) = true ∧
    Clean c0 u.guard ∧ c0.units u.toCommon false = [2] ∧ (z.xlatLook c0 (c0.globalVa 2 u.a.op u.imm)).2 = z ∧ roomFor s0 c0.cluster 1 ∧
    Issues z (.cctlWb u) c0 ∧ Issues z (.cctlInv u) c0 ∧
    goes (exec (.cctlInv u) z) (fun t => t.mem.get 0x100 == 0xCC#8 && (t.slice 0).map (·.1) == [4]) = true ∧
    Issues s0 (.pref u) c0 ∧ s0.homeLost (c0.die s0) 0x100 = false ∧ goes (exec (.pref u) s0) (fun t => (tblFind (t.slice 0) 2).isSome) = true ∧
    Issues z (.fence (f .rel)) c0 ∧ ends (exec (.fence (f .rel)) z) 48 (fun c => c.f.mark == some .stk) = true ∧
    Issues z (.fence (f .acq)) c0 ∧ acquirePending c0 = none ∧ goes (exec (.fence (f .acq)) z) (fun t => (t.slice 0).isEmpty && t.mem.get 0x100 == 0xCC#8) = true ∧
    Issues z (.fence (f .sc)) c0 ∧ storesDone z c0 = true ∧ ends (exec (.fence (f .sc)) z) 48 = true ∧ storesDone r c0 = false :=
  ⟨by decide +kernel, by decide +kernel, by decide +kernel, by decide +kernel, by decide +kernel, by unfold sliceSorted; decide +kernel,
   issues_of (by decide +kernel), by decide +kernel, issues_of (by decide +kernel), by decide +kernel, clean_of (by decide +kernel),
   by decide +kernel, by decide +kernel, by unfold roomFor; decide +kernel, issues_of (by decide +kernel),
   issues_of (by decide +kernel), by decide +kernel,
   issues_of (by decide +kernel), by decide +kernel, by decide +kernel, issues_of (by decide +kernel), by decide +kernel,
   issues_of (by decide +kernel), by decide +kernel, by decide +kernel, issues_of (by decide +kernel), by decide +kernel⟩

/-- PREF with `.msc` fills no line, and one of an address without a translation does nothing; an acquire writes a line that is
dirty in part back. -/
theorem test_hyps_NoFill : let u (h : Nat) := me' .none (vr 4) no no .b32 (imm := 0x100) (hint := h) (g := at1)
    let far := me' .none (vr 3) no no .b32 (imm := 0x20000) (g := at1)
    let z : State := { s0 with l2 := [(0, [(2, line 0xCC#8), (4, { line 0#8 with dirty := BitVec.allOnes 256 })])] }
    let f := me' .none no no no .b32 (kind := .acq) (scope := .stk)
    (∀ i ∈ [u 0, u 1, far], issuesB s0 (.pref i) c0 = true) ∧ (match (s0.xlatLook c0 (c0.globalVa 2 far.a.op far.imm)).1 with | .fail _ _ _ _ => true | _ => false) = true ∧
    goes (exec (.pref (u 1)) s0) (fun t => (t.slice 0).isEmpty) = true ∧ goes (exec (.pref far) s0) (fun t => (t.slice 0).isEmpty) = true ∧
    ((z.slice 0).map fun l => partDirty l.2) = [true, false] ∧
    goes (exec (.fence f) z) (fun t => (t.slice 0).map (·.1) == [4] && t.mscByte 0x100 == 0xCC#8) = true := by
  decide +kernel

theorem test_hyps_AtomicsIssued : let w := me' .none (vr 4) (vr 1) no .n32 (imm := 0x200)
    let u := me' .none (vr 3) (vr 1) no .n32
    let x := me' (V 6) (vr 4) (vr 1) no .n32 (imm := 0x200)
    let y := me' (V 6) (vr 3) (vr 1) no .n32
    Clean c0 w.guard ∧ c0.units w.toCommon false ≠ [] ∧ sbovf c0 (c0.units w.toCommon false) = none ∧
    Issues s0 (.red w) c0 ∧ (∀ l ∈ c0.units w.toCommon false, atomMisaligned w (c0.globalVa l w.a.op w.imm).toNat = false) ∧
    (translateLanes c0 .atomic 3 none s0 ((c0.units w.toCommon false).map fun l => (l, c0.globalVa l w.a.op w.imm))).isLeft = true ∧
    ends (exec (.red w) s0) 48 (fun c => c.g.sbuf.map (fun e => e.items.length) == [4]) = true ∧
    Issues s0 (.atoms u) c0 ∧ (∀ l ∈ c0.units u.toCommon false, atomMisaligned u (c0.spAddr l u.a.op u.imm) = false) ∧
    (scratchLanes s0 c0 2 ((c0.units u.toCommon false).map fun l => (l, c0.spAddr l u.a.op u.imm))).isLeft = true ∧ (s0.core 0).scratchBad = [] ∧
    Issues s0 (.atom x) c0 ∧ (∀ l ∈ c0.units x.toCommon false, atomMisaligned x (c0.globalVa l x.a.op x.imm).toNat = false) ∧
    ends (exec (.atom x) s0) 32 (fun c => c.f.wait == .atom && c.f.committed && c.f.rst.pc == 32) = true ∧
    Issues s0 (.atoms y) c0 ∧ y.d ≠ .none ∧ (∀ l ∈ c0.units y.toCommon false, atomMisaligned y (c0.spAddr l y.a.op y.imm) = false) ∧
    ends (exec (.atoms y) s0) 32 (fun c => c.f.wait == .atom) = true :=
  ⟨clean_of (by decide +kernel), by decide +kernel, by decide +kernel, issues_of (by decide +kernel), by decide +kernel,
   by decide +kernel, by decide +kernel, issues_of (by decide +kernel), by decide +kernel, by decide +kernel, by decide +kernel,
   issues_of (by decide +kernel), by decide +kernel, by decide +kernel, issues_of (by decide +kernel), by decide +kernel⟩

/-- Lane 2 adds 7 to 0x77 in the scratchpad, and to 0xBBAA in memory. -/
theorem test_hyps_AtomicsPerform : let w := me' (V 6) (vr 3) (vr 1) no .n32 (kind := .rlx) (g := at1)
    let u := me' (V 6) (vr 4) (vr 1) no .n32 (imm := 0x100) (kind := .rlx) (scope := .stk) (g := at1)
    let f := { fr with wait := .atom, committed := true }
    let c := cf f
    let s := placed (wf f) (.atoms w)
    let t := placed (wf f) (.atom u)
    s.ctx? me = some c ∧ c.f.wait = .atom ∧ c.f.stop = none ∧ unitReady s c = true ∧ s.fifosEmpty c = true ∧ accessBlock c = none ∧
    c.f.mark = none ∧ Clean c w.guard ∧ c.units w.toCommon false = [2] ∧ 2 < c.g.lanes.length ∧
    peekInstr s c = some (.atoms w) ∧ scratchLanes s c 3 [(2, c.spAddr 2 w.a.op w.imm)] = .inl [(2, 0, 0x40)] ∧ soundRange s 0 0x40 4 ∧
    ends (exec (.atomPerformed me) s) 48 (isV 2 6 0x77#32) = true ∧
    goes (exec (.atomPerformed me) s) (fun t => (t.core 0).scratchRead 0x40 4 == [0x7E#8, 0#8, 0#8, 0#8]) = true ∧
    t.ctx? me = some c ∧ unitReady t c = true ∧ t.fifosEmpty c = true ∧ peekInstr t c = some (.atom u) ∧
    (translateLanes c .atomic 3 none t [(2, c.globalVa 2 u.a.op u.imm)]).isLeft = true ∧ t.pageHeld c.space 0 = false ∧
    c.level = .core ∧ scopeWide u.scope = true ∧ (∀ i < 4, isHbm (0x100 + i) = true) ∧ (t.enginePoison? 0 0x100 4).isNone = true ∧
    (∀ g ∈ granules 128 0x100 4, tblFind (t.slice c.cluster) g = none) ∧
    ends (exec (.atomPerformed me) t) 48 (isV 2 6 0xBBAA#32) = true ∧
    goes (exec (.atomPerformed me) t) (fun t => t.mem.read 0x100 4 == [0xB1#8, 0xBB#8, 0#8, 0#8]) = true :=
  ⟨by decide +kernel, rfl, rfl, by decide +kernel, by decide +kernel, by decide +kernel, rfl, clean_of (by decide +kernel),
   by decide +kernel, by decide +kernel, by decide +kernel, by decide +kernel, by unfold soundRange; decide +kernel,
   by decide +kernel, by decide +kernel, by decide +kernel, by decide +kernel, by decide +kernel, by decide +kernel,
   by decide +kernel, by decide +kernel, rfl, by decide +kernel⟩

/-- Lane 2 moves a tile of 16 bytes from 0x40 of the scratchpad to 0x100, and one from 0x100 to 0x40. -/
theorem test_hyps_TilesMoved : let w := me' .none (sr 8) (vr 3) im .b32 (imm := 16) (kind := .rel) (scope := .dom) (g := at1)
    let u := me' .none (vr 4) (vr 3) im .b32 (imm := 16) (g := at1)
    let d := (s0.ensureCommit c0).reread c0
    let s1 := s0.ensureCommit c0
    let f : Wait → Frag := fun w => { fr with wait := w }
    let late := f (.tld 0 [(2, 0, 0, 16)])
    let x : TileStore := ⟨4, 0, 0, 4#64, [(0x100, 0, [1#8, 2#8])], false, .dom, []⟩
    let y (n : Nat) : TileStore := ⟨4, n, 0xBBAA, 4#64, [(0x100, 0, List.replicate 64 9#8)], true, .dom, []⟩
    let gy (n : Nat) : Group := { gr fr with tsts := [y n] }
    let g : Group := { gr fr with tsts := [x] }
    let c := cf late
    let s := placed (wf late) (.tld u)
    Issues s0 (.tst w) c0 ∧ (performed? s0 c0).isSome = true ∧ (c0.units w.toCommon false).any (tileMisaligned c0 w true) = false ∧
    c0.units w.toCommon false ≠ [] ∧ s1.fifosEmpty d = true ∧ accessBlock d = none ∧ (c0.units w.toCommon false).any (tilePoisoned d w) = false ∧
    scratchRanges s1 d 1 ((c0.units w.toCommon false).map fun l => (l, tileSp d w l, tileBytes s1 d w l)) = .inl [(2, 0, 0x40, 16)] ∧
    (s1.core 0).absentLine 0x40 16 = none ∧
    (translateLanes d .write 2 none ((performed? s0 c0).getD s0) ((tilePieces s1 d w (c0.units w.toCommon false)).map fun p => (p.1, BitVec.ofNat 64 p.2.2.1))).isLeft = true ∧
    ends (exec (.tst w) s0) 48 (fun c => c.g.tsts.map (·.segs.map (·.1)) == [[0x1000]]) = true ∧
    Issues s0 (.tld u) c0 ∧ (c0.units u.toCommon false).any (tileMisaligned c0 u false) = false ∧
    (scratchRanges s0 c0 2 ((c0.units u.toCommon false).map fun l => (l, tileSp c0 u l, tileBytes s0 c0 u l))).isLeft = true ∧
    (translateLanes c0 .read 1 none s0 ((tilePieces s0 c0 u (c0.units u.toCommon false)).map fun p => (p.1, BitVec.ofNat 64 p.2.2.1))).isLeft = true ∧
    ends (exec (.tld u) s0) 32 (fun c => c.f.wait == .tld 1000000 [(2, 0, 0, 16)]) = true ∧
    { wf late with clock := 64 * 2 ^ 20 }.ctx? me = some c ∧ c.f.stop = none ∧
    traps (exec (.tldTmo me) { wf late with clock := 64 * 2 ^ 20 }) .tldtmo = true ∧
    (wg g).ctx? me = some (cg g) ∧ x.mask &&& (cg g).f.mask ≠ 0#64 ∧ (wg g).pageHeld 0 0 = false ∧ (∀ i ∈ List.range 2, isHbm (0x100 + i) = true) ∧
    goes (exec (.tstPerformed me) (wg g)) (fun t => t.mem.read 0x100 2 == [1#8, 2#8] && sees t me fun c => c.g.tsts == []) = true ∧
    (wg g).homeLost 0 0x100 = false ∧ ((wg g).fifoOwner (fifoOf me 0)).isSome = true ∧
    (∀ n < 3, (wg (gy n)).ctx? me = some (cg (gy n)) ∧ tileBehind (wg (gy n)) (y n) = false ∧
      ((wg (gy n)).fifoOwner (fifoOf me 0)).any (fun o => o.cl == some 0 && o.die == 0) = true ∧ (wg (gy n)).slice 0 = []) ∧
    goes (exec (.tstPerformed me) (wg (gy 0))) (fun t => t.mscWord 0x100 == 0xBBAB && sees t me fun c => c.g.tsts.map (·.stage) == [1]) = true ∧
    goes (exec (.tstPerformed me) (wg (gy 1))) (fun t => t.mem.read 0x102 4 == [0#8, 0#8, 9#8, 9#8]) = true ∧
    goes (exec (.tstPerformed me) (wg (gy 2))) (fun t => t.mscWord 0x100 == 0xBBAC && sees t me fun c => c.g.tsts == []) = true ∧
    s.ctx? me = some c ∧ peekInstr s c = some (.tld u) ∧ unitReady s c = true ∧ c.units u.toCommon false = [2] ∧
    s.homeLost (c.die s) 0 = false ∧ s.clock < 0 + 64 * 2 ^ 20 ∧ tileAon u = false ∧
    scratchRanges s c 2 [(2, tileSp c u 2, 16)] = .inl [(2, 0, 0x40, 16)] ∧ (s.core 0).absentLine 0x40 16 = none ∧
    (tileReads c (tileAon u) s [(2, 0, 0, 16)]).2.1 = none ∧
    ends (exec (.tldReturn me) s) 48 = true ∧ goes (exec (.tldReturn me) s) (fun t => (t.core 0).scratchByte 0x40 == 0#8) = true :=
  ⟨issues_of (by decide +kernel), by decide +kernel, by decide +kernel, by decide +kernel, by decide +kernel, rfl,
   by decide +kernel, by decide +kernel, by decide +kernel, by decide +kernel, by decide +kernel, issues_of (by decide +kernel),
   by decide +kernel, by decide +kernel, by decide +kernel, by decide +kernel, by decide +kernel, rfl, by decide +kernel⟩

/-- A TLD with AON whose VER, 0xBBAA, is even, and its return to the scratchpad past a clean slice. -/
theorem test_hyps_TileVersion : let u := me' .none (vr 4) (vr 3) im .b32 (imm := 16) (hint := 8) (scope := .dom) (g := at1)
    let f := { fr with wait := .tld 1000000 [(2, 0, 0x100, 80)] }
    let s := placed (wf f) (.tld u)
    let c := cf f
    let r := s.pastSlice c 0x100 4
    s.ctx? me = some c ∧ peekInstr s c = some (.tld u) ∧ unitReady s c = true ∧ tileAon u = true ∧ r.mscWord 0x100 % 2 = 0 ∧
    c.units u.toCommon false = [2] ∧ s.homeLost (c.die s) 0x100 = false ∧
    scratchRanges s c 2 [(2, tileSp c u 2, 80)] = .inl [(2, 0, 0x40, 80)] ∧ (s.core 0).absentLine 0x40 80 = none ∧
    (tileReads c true r [(2, 0, 0x100, 80)]).2.1 = none ∧ ends (exec (.tldReturn me) s) 48 = true ∧
    goes (exec (.tldReturn me) s) (fun t => (t.core 0).scratchRead 0x40 2 == [0xAA#8, 0xBB#8]) = true := by
  decide +kernel

/-! ### Barriers, manifests, commands, guards -/

theorem test_hyps_NamedBarriers : let w (e : Nat) := me' .none no im no .b32 (imm := e) (scope := .blk) (kind := .rel)
    let u := me' .none no no no .b32
    let g : Group := { gr fr with lanes := [ln 0, { ln 1 with arv := 1#16 }, ln 2, ln 3] }
    (∀ e ∈ [4, 5], c0.acting (w e).guard ≠ [] ∧ (arrived? s0 c0 (w e)).isSome = true ∧
      (((arrived? s0 c0 (w e)).getD s0).block? 0).isSome = true ∧ issuesB s0 (.bara (w e)) c0 = true ∧ issuesB s0 (.bars (w e)) c0 = true) ∧
    (∀ l ∈ c0.acting al, l < c0.g.lanes.length) ∧ c0.level = .core ∧
    (let r := barAfter (blk (gr fr)) 0 5 4
     r.1.cnt < r.2) ∧ (let r := barAfter (blk (gr fr)) 0 4 4
     r.2 ≤ r.1.cnt) ∧
    ends (exec (.bara (w 5)) s0) 48 (fun c => (c.g.lane 3).arv.getLsbD 0) = true ∧
    ends (exec (.bara (w 4)) s0) 48 (fun c => !(c.g.lane 3).arv.getLsbD 0) = true ∧
    ends (exec (.bars (w 5)) s0) 48 (fun c => c.f.wait == .barrier 0 0xF#64 (some .blk)) = true ∧
    ends (exec (.bars (w 4)) s0) 48 (fun c => c.f.wait == .none && c.f.readyAt == 1000000 + 64 * 6) = true ∧
    Issues s0 (.barw u) c0 ∧ (c0.acting u.guard).filter (fun l => (c0.g.lane l).arv.getLsbD (barIndex u)) = [] ∧
    ends (exec (.barw u) s0) 48 = true ∧
    Issues (wg g) (.barw u) (cg g) ∧ ((cg g).acting u.guard).filter (fun l => ((cg g).g.lane l).arv.getLsbD (barIndex u)) = [1] ∧
    ends (exec (.barw u) (wg g)) 32 (fun c => c.f.wait == .barrier 0 2#64 none) = true :=
  ⟨by decide +kernel, by decide +kernel, rfl, by decide +kernel, by decide +kernel, by decide +kernel, by decide +kernel,
   by decide +kernel, by decide +kernel, issues_of (by decide +kernel), by decide +kernel, by decide +kernel,
   issues_of (by decide +kernel), by decide +kernel⟩

/-- A tender's lane completes barrier 0 after 40 cycles; a block to be taken holds the arrival that completes its listed barrier,
and a BARW there. -/
theorem test_hyps_BarriersHeld : let w (e : Nat) := me' .none no im no .b32 (imm := e) (scope := .blk) (kind := .rel)
    let u := me' .none no no no .b32
    let f := { fr with mask := 1#64 }
    let away : State := { world (blk { gr fr with lanes := [{ ln 0 with away := true }, ln 1, ln 2, ln 3], frags := [] }) with cur := some (.ejected 0 0), ejected := [aw f] }
    let b := { blk (gr fr) with taking := some 0, kern := { kern with barrTab := 0x200#64, barrN := 1 } }
    let s := { world b with mem := [(0x230, 0x20#8)] ++ tables }
    let all := Wait.barrier (barIndex u) (lanesMask (c0.acting u.guard)) none
    (away.ctx? (.ejected 0 0)).any (fun c => c.level == .tender && issuesB away (.bars (w 1)) c && (arrived? away c (w 1)).isSome) = true ∧
    goes (exec (.bars (w 1)) away) (fun t => sees t (.ejected 0 0) fun c => c.f.wait == .none && c.f.readyAt == 1000000 + 64 * 40) = true ∧
    (s.ctx? me).any (fun c => issuesB s (.bars (w 4)) c && issuesB s (.barw u) c && heldForTake s c all) = true ∧
    goes (exec (.bars (w 4)) s) (fun t => sees t me fun c => c.f.wait == .barrier 0 0xF#64 (some .blk)) = true ∧
    goes (exec (.barw u) s) (fun t => sees t me fun c => c.f.pc == 32 && c.f.wait == all) = true ∧ heldForTake s0 c0 all = false := by
  decide +kernel

/-- Arrivals of fewer than, as many as, and more than the two pending ones at the object of 0x80 (R235). -/
theorem test_hyps_ObjectBarriers : let x := objInit 2
    let w (b : Nat) := me' (V 6) (vr 7) im no .b32 (imm := b)
    let u := me' (V 6) (vr 7) im no .b32 (imm := 1) (kind := .rel) (g := at1)
    let o (b : Nat) := me' .none (vr 7) im no .b32 (imm := b)
    x < 2 ^ 64 ∧ 1 < bitField x 0 16 ∧ bitField (objArrive x 1 false) 0 16 = 1 ∧ bitField (objArrive x 2 true) 48 1 = 1 ∧
    bitField (objArrive x 2 true) 63 1 = 1 ∧ bitField (objArrive x 3 false) 61 1 = 1 ∧
    Clean c0 al ∧ c0.units (o 2).toCommon false ≠ [] ∧ (c0.units (o 2).toCommon false).any (fun l => objAddr c0 (o 2) l % 8 != 0) = false ∧
    Issues s0 (.mbinit (o 2)) c0 ∧ sbovf c0 (c0.units (o 2).toCommon false) = none ∧
    (scratchLanes s0 c0 2 ((c0.units (o 2).toCommon false).map fun l => (l, objAddr c0 (o 2) l))).isLeft = true ∧
    ends (exec (.mbinit (o 2)) s0) 48 (fun c => c.g.sbuf.flatMap (fun e => e.items.map (·.act)) == List.replicate 4 (.bytes [2#8, 0#8, 0#8, 0#8, 2#8, 0#8, 0#8, 0#8])) = true ∧
    Issues s0 (.mbarv u) c0 ∧ (arrived? s0 c0 u).isSome = true ∧ c0.units u.toCommon false = [2] ∧
    (objPlaces (barHeld s0 c0 u) ((barHeld s0 c0 u).reread c0) u 3 [2]).isLeft = true ∧
    ends (exec (.mbarv u) s0) 48 (isV 2 6 2#32) = true ∧
    goes (exec (.mbarv u) s0) (fun t => (t.core 0).object 0x80 == 0x200000001) = true ∧
    Issues s0 (.mbtst (w 1)) c0 ∧ accessBlock c0 = none ∧ (w 1).toCommon.operandsScalar = false ∧ writesScalar (w 1).d = false ∧
    (objPlaces s0 c0 (w 1) 1 (c0.units (w 1).toCommon false)).isLeft = true ∧
    ends (exec (.mbtst (w 1)) s0) 48 (fun c => (c.g.lane 1).pred 0) = true ∧ ends (exec (.mbtst (w 0)) s0) 48 (fun c => !(c.g.lane 1).pred 0) = true ∧
    Issues s0 (.mbwait (o 1)) c0 ∧ Issues s0 (.mbwait (o 0)) c0 ∧ c0.f.wait = .none ∧
    ends (exec (.mbwait (o 1)) s0) 48 = true ∧
    ends (exec (.mbwait (o 0)) s0) 32 (fun c => match c.f.wait with | .object items _ => items.length == 4 | _ => false) = true :=
  ⟨by decide +kernel, by decide +kernel, by decide +kernel, by decide +kernel, by decide +kernel, by decide +kernel,
   clean_of (by decide +kernel), by decide +kernel, by decide +kernel, issues_of (by decide +kernel), by decide +kernel,
   by decide +kernel, by decide +kernel, issues_of (by decide +kernel), by decide +kernel, by decide +kernel, by decide +kernel,
   by decide +kernel, by decide +kernel, issues_of (by decide +kernel), by decide +kernel, by decide +kernel, by decide +kernel,
   by decide +kernel, by decide +kernel, by decide +kernel, issues_of (by decide +kernel), issues_of (by decide +kernel), rfl,
   by decide +kernel⟩

/-- Word 3 of T1 holds 0xFFFFFFFF: the 32-bit sum with 1 wraps alone; the 64-bit one from word 2 adds below it. What TSHLD
reads at 0x80 and at 0x100 lands with the reserved bits of word 0 gone. -/
theorem test_hyps_Manifests : let w (i v : Nat) := en .none im no no (ext := 32 + i) (imm := v)
    let u := en .none (sr 6) no no (ext := 32)
    let x := en .none (sr 1) no no (ext := 32) (imm := 0xB0)
    c0.acting al = 0 :: [1, 2, 3] ∧
    Issues s0 (.tshpSet (w 3 7)) c0 ∧ ends (exec (.tshpSet (w 3 7)) s0) 48 (fun c => tblGet 0#32 (c.g.manifest 1) 3 == 7#32) = true ∧
    Issues s0 (.tshpAdd (w 3 1)) c0 ∧ ends (exec (.tshpAdd (w 3 1)) s0) 48 (fun c => tblGet 0#32 (c.g.manifest 1) 3 == 0#32 && tblGet 0#32 (c.g.manifest 1) 4 == 0#32) = true ∧
    Issues s0 (.tshpAdd64 (w 2 1)) c0 ∧ ends (exec (.tshpAdd64 (w 2 1)) s0) 48 (fun c => tblGet 0#32 (c.g.manifest 1) 2 == 0x12#32 && tblGet 0#32 (c.g.manifest 1) 3 == 0xFFFFFFFF#32) = true ∧
    tshSp c0 u % 16 = 0 ∧ scratchRange s0 c0 (tshSp c0 u) 128 = .inl (0, 0x80) ∧
    Issues s0 (.tshldSp u) c0 ∧ accessBlock c0 = none ∧ soundRange s0 0 0x80 128 ∧
    ends (exec (.tshldSp u) s0) 48 (fun c => tblGet 0#32 ((c.g.landManifest 1).manifest 1) 0 == 0x20000#32 && c.g.mloads.map (·.1) == [1]) = true ∧
    Issues s0 (.tshstSp u) c0 ∧ sbovf c0 [0] = none ∧ ends (exec (.tshstSp u) s0) 48 (fun c => c.g.sbuf.length == 1) = true ∧
    (tshVa c0 x).toNat % 16 = 0 ∧ (tshVa c0 x).toNat % 65536 + 128 ≤ 65536 ∧ Issues s0 (.tshldGl x) c0 ∧
    (translateLanes c0 .read 1 none s0 [(0, tshVa c0 x)]).isLeft = true ∧ (tileReads c0 false s0 [(0, 0, 0x100, 128)]).2.1 = none ∧
    ends (exec (.tshldGl x) s0) 48 (fun c => tblGet 0#32 ((c.g.landManifest 1).manifest 1) 0 == 0x8000#32) = true ∧
    Issues s0 (.tshstGl x) c0 ∧ (translateLanes c0 .write 2 none s0 [(0, tshVa c0 x)]).isLeft = true ∧
    ends (exec (.tshstGl x) s0) 48 (fun c => c.g.sbuf.length == 1) = true :=
  ⟨by decide +kernel, issues_of (by decide +kernel), by decide +kernel, issues_of (by decide +kernel), by decide +kernel,
   issues_of (by decide +kernel), by decide +kernel, by decide +kernel, by decide +kernel, issues_of (by decide +kernel),
   by decide +kernel, by unfold soundRange; decide +kernel, by decide +kernel, issues_of (by decide +kernel), by decide +kernel,
   by decide +kernel, by decide +kernel, by decide +kernel, issues_of (by decide +kernel), by decide +kernel, by decide +kernel,
   by decide +kernel, issues_of (by decide +kernel), by decide +kernel⟩

/-- A CPY accepted at once, an MLDB with a lane, and a stalled QFNC that takes a slot. -/
theorem test_hyps_CommandsAccepted : let w := en .none (sr 10) (sr 10) no (ext := 32)
    let m := en .none (vr 1) no no .bf16 (ext := 0)
    let q := en .none no no no (imm := 1)
    let f := { fr with wait := .engine (.copy 0) 5 }
    let s := placed (wf f) (.qfncCq q)
    let b := blk (gr fr)
    b.owes 0 (.copy 0) = false ∧ b.owes 0 (.matrix 0) = false ∧ (s.block? 0).all (fun b => !b.owes 0 (.copy 0)) = true ∧
    Issues s0 (.cpy w) c0 ∧ c0.acting (cmdGuard (.cpy w)) ≠ [] ∧ (∀ v ∈ cmdAligned c0 (.cpy w), v.1 % v.2 = 0) ∧
    (performed? s0 c0).isSome = true ∧ (captureOf s0 c0 (.cpy w)).isSome = true ∧ s0.queueFree (.copy 0) 0 = true ∧
    s0.stalled (.copy 0) = [] ∧ goes (exec (.cpy w) s0) (fun t => (t.engineQueue (.copy 0)).length == 1) = true ∧
    Issues s0 (.mldb m) c0 ∧ loadsQuarter c0 (.mldb m) ∧ goes (exec (.mldb m) s0) (fun t => (t.engineQueue (.matrix 0)).length == 1) = true ∧
    s.stalled (.copy 0) = [(5, me)] ∧ s.ctx? me = some (cf f) ∧ s.queueFree (.copy 0) 0 = true ∧ peekInstr s (cf f) = some (.qfncCq q) ∧
    goes (exec (.queueAccept (.copy 0)) s) (fun t => (t.engineQueue (.copy 0)).length == 1 && sees t me fun c => c.f.pc == 48) = true :=
  ⟨by decide +kernel, by decide +kernel, by decide +kernel, issues_of (by decide +kernel), by decide +kernel, by decide +kernel,
   by decide +kernel, by decide +kernel, by decide +kernel,
   by decide +kernel, by decide +kernel, issues_of (by decide +kernel), ⟨by decide +kernel, by decide +kernel⟩, by decide +kernel⟩

theorem tblGet_none {α β : Type} (d : α) (k : α → List β) (hd : k d = []) (t : Tbl α) (h : ∀ x ∈ t, k x.2 = []) (i : Nat) :
    k (tblGet d t i) = [] := by
  induction t with
  | nil => exact hd
  | cons x t ih =>
    obtain ⟨j, v⟩ := x
    rw [tblGet, Sys2Proof.Laws.tblFind_cons]
    split
    · exact h (j, v) (List.mem_cons_self ..)
    · exact ih fun y hy => h y (List.mem_cons_of_mem _ hy)

/-- Where no queue has an entry, no guard holds one. -/
theorem noneHeld_of {s : State} (hc : ∀ x ∈ s.cores, x.2.queue = []) (hp : s.pairs = []) (hk : s.kqueues = []) (n : Nat) :
    NoneHeld s n := by
  intro q e rest h
  have : s.engineQueue q = [] := by
    cases q with
    | copy k => exact tblGet_none Core.empty (·.queue) rfl s.cores hc k
    | matrix k => simp [State.engineQueue, State.pair, hp, tblGet, Pair.empty]
    | coll v d => simp [State.engineQueue, hk, tblGet]
  rw [this] at h
  cases h

theorem test_hyps_GuardsAndSignals : let w (v : Nat) := en .none im no no (ext := 3) (imm := v)
    let u := en .none (sr 8) im no .b32 (imm := 5)
    let q := en .none no no no (imm := 1)
    let s : State := { s0 with cores := s0.cores.map fun x => (x.1, { x.2 with queue := [⟨7, 0, 0, 0, 0, 0, 0, 0, 0, none, none, .qfnc [], false, false, 0, none, 0, [], none, [], none⟩] }) }
    let e := qe (.qfnc []) false (some 3)
    c0.acting al ≠ [] ∧ (performed? s0 c0).isSome = true ∧ NoneHeld ((performed? s0 c0).getD s0) 3 ∧
    HeldBy ((performed? (inCopy e) c0).getD s0) c0 3 (.copy 0) e [] ∧
    goes (exec (.gset (w 0)) (inCopy e)) (fun t => t.engineQueue (.copy 0) == []) = true ∧
    goes (exec (.gset (w 1)) (inCopy e)) (fun t => (t.engineQueue (.copy 0)).map (fun e => (e.passed, e.begun)) == [(true, true)]) = true ∧
    Issues s0 (.gset (w 0)) c0 ∧ goes (exec (.gset (w 0)) s0) (fun t => (t.block? 0).map (·.gate 3) == some .no) = true ∧
    Issues s0 (.gset (w 1)) c0 ∧ goes (exec (.gset (w 1)) s0) (fun t => (t.block? 0).map (·.gate 3) == some .yes) = true ∧
    Issues s0 (.gsetClr (w 0)) c0 ∧ Issues s0 (.qwait q) c0 ∧ (namedEntries s0 c0 q).all (fun x => x.2 == []) = true ∧
    ends (exec (.qwait q) s0) 48 = true ∧ Issues s (.qwait q) c0 ∧ (namedEntries s c0 q).any (fun x => x.2 == [7]) = true ∧
    ends (exec (.qwait q) s) 32 (fun c => c.f.wait != .none) = true ∧
    (engPair c0 u.a.op).toNat % 4 = 0 ∧ warpOfLane 32 0 0 < (blk (gr fr)).warps.length ∧
    Issues s0 (.sigsSet u) c0 ∧ Issues s0 (.sigsAdd u) c0 ∧
    (translate ((performed? s0 c0).getD s0) c0 (engPair c0 u.a.op) .write 2 none).isLeft = true ∧
    goes (exec (.sigsSet u) s0) (fun t => (t.fifo (.warp 0 0)).map (fun e => e.rel) == [some .dom]) = true :=
  ⟨by decide +kernel, by decide +kernel, noneHeld_of (by decide +kernel) (by decide +kernel) (by decide +kernel) 3,
   ⟨by decide +kernel, by decide +kernel, by decide +kernel, by decide +kernel, by decide +kernel⟩, by decide +kernel,
   by decide +kernel, issues_of (by decide +kernel), by decide +kernel, issues_of (by decide +kernel),
   by decide +kernel, issues_of (by decide +kernel), issues_of (by decide +kernel), by decide +kernel, by decide +kernel,
   issues_of (by decide +kernel), by decide +kernel, by decide +kernel, by decide +kernel, by decide +kernel,
   issues_of (by decide +kernel), issues_of (by decide +kernel), by decide +kernel⟩

/-! ### Engines and collectives -/

/-- A QFNC at the head of a queue behind an unset, a closed and an open guard, at work with and without the entry it
names; a pair check that differs; an entry of a retiring block behind an unset guard. -/
theorem test_hyps_QueueHeads : let b (g : Gate) : Block := { blk (gr fr) with gates := [(3, g)] }
    let e := qe (.qfnc []) false (some 3)
    let f := qe (.qfnc []) false (some 3) (some 0x80#32)
    let h := qe (.qfnc [(.copy 0, [7])])
    let c : State := s0.setPair 0 { Pair.empty with checks := [⟨qe (.qfnc []), 2, 1000000⟩] }
    let r : Block := { blk (gr fr) with st := .retiring }
    (inCopy e).engineQueue (.copy 0) = [e] ∧ e.begun = false ∧ e.page = none ∧ e.retries < 4 ∧
    headGate (inCopy e) e = .unset ∧ goes (exec (.guardTest (.copy 0)) (inCopy e)) (fun t => t == inCopy e) = true ∧
    headGate (inCopy f (b .no)) f = .no ∧ objectAt (inCopy f (b .no)) f 0 0x80 ∧
    goes (exec (.guardTest (.copy 0)) (inCopy f (b .no))) (fun t => t.engineQueue (.copy 0) == [] && (t.core 0).object 0x80 == objArrive 0x200020002 1 true) = true ∧
    headGate (inCopy e (b .yes)) e = .yes ∧ goes (exec (.guardTest (.copy 0)) (inCopy e (b .yes))) (fun t => (t.engineQueue (.copy 0)).map (·.begun) == [true]) = true ∧
    AtWork (inCopy (qe (.qfnc []))) (.copy 0) (qe (.qfnc [])) [] ∧ QuietEnd (inCopy (qe (.qfnc []))) (qe (.qfnc [])) ∧
    goes (exec (.qfncPerformed (.copy 0)) (inCopy (qe (.qfnc [])))) (fun t => t.engineQueue (.copy 0) == []) = true ∧
    AtWork (inCopy h) (.copy 0) h [] ∧ (inCopy h).entryLeft 7 = true ∧ (inCopy (qe (.qfnc []))).entryLeft 8 = false ∧
    goes (exec (.qfncPerformed (.copy 0)) (inCopy h)) (fun t => t == inCopy h) = true ∧
    (c.pair 0).pending c.clock = [⟨qe (.qfnc []), 2, 1000000⟩] ∧ goes (exec (.pchkmis 0 3 1 2) c) (fun t => (t.pair 0).checks == []) = true ∧
    e.block? (inCopy e r) = some r ∧ r.gate 3 = .unset ∧
    goes (exec (.guardopen (.copy 0)) (inCopy e r)) (fun t => (t.engineQueue (.copy 0)).length == 0) = true :=
  ⟨by decide +kernel, rfl, rfl, by decide, by decide +kernel, by decide +kernel, by decide +kernel,
   ⟨0x80#32, { blk (gr fr) with gates := [(3, .no)] }, rfl, by decide +kernel⟩, by decide +kernel, by decide +kernel, by decide +kernel,
   ⟨by decide +kernel, rfl, rfl, by decide⟩, ⟨rfl, .inl rfl⟩, by decide +kernel, ⟨by decide +kernel, rfl, rfl, by decide⟩,
   by decide +kernel⟩

/-- One f32 element from 0x40 to 0x90 by a manifest of rank 1, and an f32 MACC of tile 1 to rows of 128 bytes. -/
theorem test_hyps_EngineMoves : let m : Tbl W32 := [(0, 0x01248000#32), (2, 0x40#32), (4, 0x90#32), (6, 1#32)]
    let e := qe (.cpy m 0#32 0#32)
    let s := inCopy e
    let x := qe (.macc .f32 .rne 1 false false false true false 0x1000#32 128#32 0#32 0#32)
    AtWork s (.copy 0) e [] ∧ (copyJob s e).map (fun j => (j.size, j.elem, j.row)) = some (e.progress + 4, 4, 4) ∧ QuietEnd s e ∧
    (∀ j, copyJob s e = some j → spotOf s e j.src (j.src.rows.getD 0 0) = .scratch 0 0x40 ∧ spotOf s e j.dst (j.dst.rows.getD 0 0) = .scratch 0 0x90) ∧
    (s.core 0).scratchPoisoned 0x40 4 = false ∧ objectOutside s e 0 0x90 4 ∧
    goes (exec (.cpyPerformed 0) s) (fun t => (t.core 0).scratchRead 0x90 4 == [0x77#8, 0#8, 0#8, 0#8] && t.engineQueue (.copy 0) == []) = true ∧
    AtWork (inMatrix x) (.matrix 0) x [] ∧ QuietEnd (inMatrix x) x ∧ Ty.f32 ∈ ([.f32, .bf16, .f16, .e4m3, .e5m2] : List Ty) ∧
    4 * Ty.f32.width ≤ (128#32).toNat ∧ (0x1000#32).toNat + 128 * (128#32).toNat ≤ 2 ^ 32 ∧
    (∀ k ∈ pairCores 0, ((inMatrix x).core k).accBad = [] ∧ objectOutside (inMatrix x) x k 0x1000 (128 * 128)) ∧ MatrixFree (inMatrix x) 0 x ∧ x.progress = 0 := by
  refine ⟨⟨by decide +kernel, rfl, rfl, by decide⟩, by decide +kernel, ⟨rfl, .inl rfl⟩, ?_, by decide +kernel, ?_, by decide +kernel,
    ⟨by decide +kernel, rfl, rfl, by decide⟩, ⟨rfl, .inl rfl⟩, by decide, by decide, by decide, ?_, ⟨by decide +kernel, by decide +kernel⟩, rfl⟩
  · intro j h; cases h; exact ⟨rfl, rfl⟩
  · rintro k off ⟨a, b, h, -⟩; cases h
  · intro k hk
    refine ⟨?_, ?_⟩
    · revert k hk; decide +kernel
    · rintro k off ⟨a, b, h, -⟩; cases h

theorem test_hyps_MatrixPerforms : let e := qe (.mldb 0 3 .bf16 false [] [])
    let u := qe (.mma .bf16 0 0 true false 0x1000#32 64#32 0#32)
    let x := qe (.mtbl 0x40#32)
    let full (y : QEntry) : State := (inMatrix y).setPair 0 { Pair.empty with queue := [y], sb0 := ⟨0xF#4, (List.range 4).map fun q => (q, ⟨.bf16, false, [], []⟩)⟩ }
    AtWork (inMatrix e) (.matrix 0) e [] ∧ QuietEnd (inMatrix e) e ∧
    goes (exec (.mldbPerformed 0) (inMatrix e)) (fun t => ((t.pair 0).buf 0).qv == 8#4 && t.engineQueue (.matrix 0) == []) = true ∧
    AtWork (full u) (.matrix 0) u [] ∧ QuietEnd (full u) u ∧ Ty.bf16 ≠ .f64 ∧ MatrixFree (full u) 0 u ∧ MatrixFree (inMatrix x) 0 x ∧
    goes (exec (.mmaPerformed 0) (full u)) (fun t => (t.pair 0).queue == []) = true ∧
    (∀ k ∈ pairCores 0, mmaTaint ((full u).core k) .bf16 0x1000 64 0 = false) ∧
    AtWork (inMatrix x) (.matrix 0) x [] ∧ QuietEnd (inMatrix x) x ∧ ((inMatrix x).core (2 * 0)).scratchPoisoned 0x40 2064 = false ∧
    goes (exec (.mtblPerformed 0) (inMatrix x)) (fun t => (t.pair 0).lo == 0x77#32) = true :=
  ⟨⟨by decide +kernel, rfl, rfl, by decide⟩, ⟨rfl, .inl rfl⟩, by decide +kernel, ⟨by decide +kernel, rfl, rfl, by decide⟩,
   ⟨rfl, .inl rfl⟩, by decide, ⟨by decide +kernel, by decide +kernel⟩, ⟨by decide +kernel, by decide +kernel⟩, by decide +kernel,
   by decide +kernel, ⟨by decide +kernel, rfl, rfl, by decide⟩, ⟨rfl, .inl rfl⟩, by decide +kernel⟩

/-- A member with two children, no parent, and the table of a third that has a parent as well (R312). -/
def tabOf (parent : W32) (children : List W32) (staddr : W32 := 0#32) : Member :=
  { Member.empty with words := ([(0, 0x80000002#32), (3, parent), (4, BitVec.ofNat 32 children.length)] ++ (upFrom 5 children.length).zip children ++
    (if staddr == 0#32 then [] else [(14, staddr), (16, 64#32), (17, 1#32)])).filter fun x => x.2 != 0#32 }
def collM : Tbl W32 := [(0, 0x00200000#32), (2, 0x100#32), (4, 0x200#32), (6, 4#32)]
def collE (r : CollRun) (kind : Nat := 0) : QEntry := qe (.coll .f32 kind 0 collM 0#32 none 0#32) (run := some r)
def run0 : CollRun := ⟨0, none, true, [], false, []⟩
/-- A message of module 1 to die 0 of module 0, of a subtree that lacks nothing, with exponent 3, one contribution, and the
values of its stage. -/
def msg (src : W32) (st : Stage) : ChunkMsg :=
  ⟨src, 0#32, 0, 0, chunkHeader 0#32 0 0 (some 3) st (st == .dataUp) 511#16 1,
    (match st with
     | .dataUp => dataPayload [4, 0, 0, 7] [0, 1, 4, 0]
     | _ => resultPayload 32 [1, 2, 3, 4]),
    [0, Ty.f32.code.toNat, 4, 0, 0], false⟩
def kids : List W32 := [0x10001#32, 0x10002#32]

theorem collJob_inColl (r : CollRun) (t : Member) (ms : List ChunkMsg) :
    collJob (inColl (collE r) t ms) (.coll 0 0) (collE r) = some ⟨0, 0, 0, t, .f32, 0, 4, 0#32, 0x100, 0x200⟩ := rfl

/-- A held COLL whose word, at 0x100, has reached 0xBBAA and not 0xBBAB. -/
def heldE (thr : W32) : QEntry := collE { run0 with watch := some (0x100, thr), triggered := false }
def heldS (thr : W32) : State := inColl (heldE thr) (tabOf 0xFFFFFFFF#32 kids) []

theorem test_hyps_CollectivesHeld : (heldS 0xBBAA#32).engineQueue (.coll 0 0) = [heldE 0xBBAA#32] ∧ (heldS 0xBBAB#32).engineQueue (.coll 0 0) = [heldE 0xBBAB#32] ∧ (heldE 1#32).page = none ∧
    (tabOf 0xFFFFFFFF#32 kids).children = kids ∧
    (0xBBAA#32).toNat ≤ (heldS 0xBBAA#32).mscWord 0x100 ∧ (heldS 0xBBAB#32).mscWord 0x100 < (0xBBAB#32).toNat ∧
    ownDrained (heldS 0xBBAA#32) (heldE 0xBBAA#32) = true ∧
    (heldE 1#32).run.all (fun r => r.chunks.isEmpty && !r.aborted && !r.triggered) = true ∧
    goes (exec (.triggerMet 0 0) (heldS 0xBBAA#32)) (fun t => (t.engineQueue (.coll 0 0)).all fun e => e.run.any (·.triggered)) = true ∧
    goes (exec (.triggerMet 0 0) (heldS 0xBBAB#32)) (fun t => t.engineQueue (.coll 0 0) == [heldE 0xBBAB#32]) = true := by
  decide +kernel

/-- An MLDB, a MACC and a copy begin at the head of their queues, with the line of the copy absent, and wait behind an older store; a
COLL whose trigger is watched begins behind it. -/
theorem test_hyps_HeadsBegin : let l := qe (.mldb 0 3 .bf16 false [] []) false
    let x := qe (.macc .f32 .rne 1 false false false true false 0x1000#32 128#32 0#32 0#32) false
    let e := qe (.cpy [(0, 0x01248000#32), (2, 0x40#32), (4, 0x90#32), (6, 1#32)] 0#32 0#32) false
    let c := qe (.coll .f32 0 0 collM 0#32 (some 0x100#64) 9#32) false
    let behind (q : QueueId) (y : QEntry) : State := (wq [entry []]).setEngineQueue q [y]
    let inC : State := { behind (.coll 0 0) c with members := [(0, tabOf 0xFFFFFFFF#32 [])], dies := [(0, { Die.empty with up := 0x1F#5 })] }
    let begun (q : QueueId) (s : State) (ls : List (Nat × Nat)) : Bool := goes (exec (.guardTest q) s) fun t =>
      (t.engineQueue q).map (fun y => (y.begun, y.lines)) == [(true, ls)]
    let waits (q : QueueId) (s : State) : Bool := goes (exec (.guardTest q) s) fun t => (t.engineQueue q).map (fun y => (y.begun, y.passed)) == [(false, true)]
    headGate (inMatrix l) l = .yes ∧ copyJob (inMatrix l) { l with passed := true } = none ∧ matrixFault (inMatrix l) 0 { l with passed := true } = none ∧
    begun (.matrix 0) (inMatrix l) [] = true ∧ waits (.matrix 0) (behind (.matrix 0) l) = true ∧
    matrixFault (inMatrix x) 0 { x with passed := true } = none ∧
    goes (exec (.guardTest (.matrix 0)) (inMatrix x)) (fun t => (t.engineQueue (.matrix 0)).map (·.lines) == [maccLines 0 .f32 0x1000 128 0] &&
      (maccLines 0 .f32 0x1000 128 0).all fun y => (t.core y.1).lineWriters y.2 == 1) = true ∧
    (copyJob (inCopy e) { e with passed := true }).any (fun j => (jobFails (inCopy e) { e with passed := true } j).isNone) = true ∧
    cpyFault (inCopy e) { e with passed := true } [(0, 0x01248000#32), (2, 0x40#32), (4, 0x90#32), (6, 1#32)] 0#32 0#32 = none ∧
    begun (.copy 0) (inCopy e) [(0, 1)] = true ∧ waits (.copy 0) (behind (.copy 0) e) = true ∧
    (collJob inC (.coll 0 0) { c with passed := true }).any (fun j => !collFault j collM && !j.tab.broken && j.tab.neighbours == []) = true ∧
    ownDrained inC { c with passed := true } = false ∧
    goes (exec (.guardTest (.coll 0 0)) inC) (fun t => (t.engineQueue (.coll 0 0)).map (fun y => (y.begun, y.run.map (·.triggered))) == [(true, some false)] &&
      (t.member 0 0 0).j == 1) = true := by
  decide +kernel

/-- An abort heard from child 1. -/
theorem test_hyps_CollectivesAborted : let s := inColl (collE run0) (tabOf 0xFFFFFFFF#32 kids) [msg 0x10001#32 .abort]
    s.engineQueue (.coll 0 0) = [collE run0] ∧ s.fabric = [msg 0x10001#32 .abort] ∧ (msg 0x10001#32 .abort).j ≤ run0.j % 2 ^ 32 ∧ (msg 0x10001#32 .abort).stage = Stage.abort.code ∧
    chunkComes s (msg 0x10001#32 .abort) = true ∧ run0.aborted = false ∧
    goes (exec (.collAbort (msg 0x10001#32 .abort)) s) (fun t => (t.member 0 0 0).broken) = true := by
  decide +kernel

/-- A COLL over, without and with a status slot at 0x400. -/
def overR : CollRun := { run0 with chunks := [(0, { Chunk.empty with dataSent := true, status := some 0 })] }

theorem test_hyps_CollectivesEnded : let tab := tabOf 0xFFFFFFFF#32 kids
    collOver ⟨0, 0, 0, tab, .f32, 0, 4, 0#32, 0x100, 0x200⟩ overR = true ∧ tab.staddr = 0 ∧
    goes (exec (.collPerformed 0 0) (inColl (collE overR) tab [])) (fun t => t.engineQueue (.coll 0 0) == []) = true ∧
    (tabOf 0xFFFFFFFF#32 kids 0x400#32).staddr = 0x400 ∧
    goes (exec (.collPerformed 0 0) (inColl (collE overR) (tabOf 0xFFFFFFFF#32 kids 0x400#32) [])) (fun t => t.mem.get 0x408 == 1#8) = true := by
  decide +kernel

/-- A neighbour in the module after this one, silent for the default of 100 ms: the timeout's hypotheses. -/
def farEnd : W32 := (Config.moduleNumber + 1#16) ++ 0#16

theorem other_module (a : BitVec 16) : ((a + 1#16) ++ 0#16).extractLsb' 16 16 ≠ a := by
  intro e
  have h := congrArg BitVec.toNat e
  have ha := a.isLt
  simp only [BitVec.extractLsb'_toNat, BitVec.toNat_append, BitVec.toNat_add, BitVec.toNat_ofNat, Nat.shiftLeft_eq,
    Nat.shiftRight_eq_div_pow] at h
  rw [Nat.zero_mod, Nat.or_zero] at h
  omega

theorem test_hyps_CollectivesSilent : (∀ t : Member, t.parent = none → t.children = [farEnd] → t.neighbours.find? (fun x => x.2 == farEnd) = some (1, farEnd)) ∧
    moduleOf farEnd ≠ Config.moduleNumber ∧ tblFind { run0 with waits := [(1, 0)] }.waits 1 = some 0 ∧
    0 + 112000 * max 1 (s0.die 0).ctmo.toNat ≤ 112000 * 100 :=
  ⟨fun t hp hc => by simp [Member.neighbours, hp, hc, upFrom], other_module _, rfl, by decide +kernel⟩

/-- A member with two children takes the exponent and the sums of child 1; one with a parent as well hears from it. -/
theorem test_hyps_ChunksFlow : let up := tabOf 0xFFFFFFFF#32 kids
    let down := tabOf 0x10007#32 kids
    let e := collE run0
    let j (t : Member) : CollJob := ⟨0, 0, 0, t, .f32, 0, 4, 0#32, 0x100, 0x200⟩
    (∀ st ∈ ([.expUp, .dataUp] : List Stage), Receives (inColl e up [msg 0x10002#32 st]) (msg 0x10002#32 st) e [] (j up) run0 2) ∧
    (∀ st ∈ ([.expDown, .resultDown] : List Stage), Receives (inColl e down [msg 0x10007#32 st]) (msg 0x10007#32 st) e [] (j down) run0 0) ∧
    OthersEmpty (j up) run0 0 ∧ ((run0.chunk 0).expFrom).length + 1 < up.children.length ∧ (run0.chunk 0).agreed = none ∧ (run0.chunk 0).status = none ∧
    goes (exec (.chunkExponentUp (msg 0x10002#32 .expUp)) (inColl e up [msg 0x10002#32 .expUp])) (fun t => (t.engineQueue (.coll 0 0)).all fun e => e.run.any fun r => (r.chunk 0).expFrom == [2]) = true ∧
    goes (exec (.chunkDataUp (msg 0x10002#32 .dataUp)) (inColl e up [msg 0x10002#32 .dataUp])) (fun t => (t.engineQueue (.coll 0 0)).all fun e => e.run.any fun r => (r.chunk 0).sums.take 4 == [4, 0, 1, 7] && (r.chunk 0).spec.take 4 == [0, 1, 4, 0]) = true ∧
    goes (exec (.chunkExponentDown (msg 0x10007#32 .expDown)) (inColl e down [msg 0x10007#32 .expDown])) (fun t => t.fabric.map (·.dst) == kids) = true ∧
    goes (exec (.chunkResultDown (msg 0x10007#32 .resultDown)) (inColl e down [msg 0x10007#32 .resultDown])) (fun t => t.mem.get 0x204 == 2#8 && t.fabric.map (·.dst) == kids) = true := by
  refine ⟨fun st hst => ?_, fun st hst => ?_, ⟨by decide +kernel, fun d _ _ => rfl⟩, by decide +kernel, rfl, rfl, by decide +kernel⟩
  · refine ⟨rfl, rfl, collJob_inColl _ _ _, rfl, ?_, ?_, ?_, ⟨rfl, rfl, rfl⟩, ⟨rfl, rfl⟩, ?_⟩ <;> revert st <;> decide +kernel
  · refine ⟨rfl, rfl, collJob_inColl _ _ _, rfl, ?_, ?_, ?_, ⟨rfl, rfl, rfl⟩, ⟨rfl, rfl⟩, ?_⟩ <;> revert st <;> decide +kernel

/-! ### Training, control, faults -/

/-- LSADJ on the reset scale 65536.0 and its first step; -2.0 is refused. -/
theorem test_hyps_SystemValues : let get := sy (S 10) no no (mode := 2)
    let set (v : Nat) := sy .none im no (mode := 1) (imm := v)
    let step (v : Nat) := sy (S 10) im (sr 0) (imm := v)
    let old := sy (S 10) im im (imm := 0xFFFFFFFF)
    let o := sy (S 10) no no
    lossVd s0 c0 = some (0, 0) ∧ c0.acting al ≠ [] ∧
    Issues s0 (.lsadjGet get) c0 ∧ ends (exec (.lsadjGet get) s0) 48 (isS 10 0x47800000#32) = true ∧
    Issues s0 (.lsadjSet (set 0x40000000)) c0 ∧ ((s0.vd 0 0).lsSet 0 0x40000000#32).isSome = true ∧ scaleOk 0x40000000#32 = true ∧
    goes (exec (.lsadjSet (set 0x40000000)) s0) (fun t => (t.vd 0 0).lsc == 0x40000000#32) = true ∧
    Issues s0 (.lsadjSet (set 0xC0000000)) c0 ∧ (s0.vd 0 0).lsSet 0 0xC0000000#32 = none ∧ traps (exec (.lsadjSet (set 0xC0000000)) s0) .lsval = true ∧
    Issues s0 (.lsadjStep (step 0)) c0 ∧ (s0.vd 0 0).lsint.toNat ≤ 2 ^ 30 ∧
    goes (exec (.lsadjStep (step 0)) s0) (fun t => (t.vd 0 0).lsrun == 1#32 && (t.vd 0 0).lsc == 0x47800000#32) = true ∧
    goes (exec (.lsadjStep (step 1)) s0) (fun t => (t.vd 0 0).lskip && (t.vd 0 0).lsc == 0x47000000#32) = true ∧
    Issues s0 (.lsadjStep old) c0 ∧ goes (exec (.lsadjStep old) s0) (fun t => t.vd 0 0 == s0.vd 0 0) = true ∧
    Issues s0 (.ovfrRd o) c0 ∧ ends (exec (.ovfrRd o) s0) 48 (fun c => isS 10 1#32 c && c.g.ovfn) = true ∧
    Issues s0 (.ovfrRdc o) c0 ∧ ends (exec (.ovfrRdc o) s0) 48 (fun c => isS 10 1#32 c && !c.g.ovfn && c.f.ovfClear) = true ∧
    Issues s0 (.ctlr { o with imm := 1#32 }) c0 ∧ ends (exec (.ctlr { o with imm := 1#32 }) s0) 48 (isS 10 0x00400002#32) = true ∧
    ctlVd s0 c0 { o with imm := 0x10#32 } = some (0, 0) ∧
    Issues s0 (.capq o) c0 ∧ Issues s0 (.clkr o) c0 ∧ ends (exec (.clkr o) s0) 48 (isS 10 15625#32) = true ∧ Issues s0 (.plcq o) c0 :=
  ⟨by decide +kernel, by decide +kernel, issues_of (by decide +kernel), by decide +kernel, issues_of (by decide +kernel),
   by decide +kernel, by decide +kernel, by decide +kernel, issues_of (by decide +kernel), by decide +kernel, by decide +kernel,
   issues_of (by decide +kernel), by decide +kernel, by decide +kernel, by decide +kernel, issues_of (by decide +kernel),
   by decide +kernel, issues_of (by decide +kernel), by decide +kernel, issues_of (by decide +kernel), by decide +kernel,
   issues_of (by decide +kernel), by decide +kernel, by decide +kernel, issues_of (by decide +kernel), issues_of (by decide +kernel),
   by decide +kernel, issues_of (by decide +kernel)⟩

/-- A harbourmaster writes DIVCTL and CAPOFF, ends a stop under handle 1, halts, and takes a record; a fragment traps, and
breaks where BRKEN is set. -/
theorem test_hyps_SystemControl : let w (n : Nat) := sy .none (sr 0) no (imm := n)
    let t0 := sy .none no no (imm := 0x1234)
    let o := sy .none no no
    let r (m : Nat) := sy (S 10) (sr 0) no (imm := m)
    let stopped := { fr with stop := some ⟨1, Cause.swtrap.code.1, none⟩ }
    let h : State := { wh f1 with cores := (wf stopped).cores }
    let rung := wp (wh f1) { part0 with ring := [7#512] }
    let brk := wp s0 { part0 with dbgctl := 1#32 }
    (wh f1).cur = some (ch f1).agent ∧ (wh f1).ctx? (.hm 0) = some (ch f1) ∧ (ch f1).acting al ≠ [] ∧ placeTrap (wh f1) (ch f1) (.ctlw (w 1)) = none ∧
    goes (exec (.ctlw (w 1)) (wh f1)) (fun t => (t.part 0).divctl == 1#32) = true ∧ ctlVd (wh f1) (ch f1) (w 0x11) = some (0, 0) ∧
    goes (exec (.ctlw (w 0x11)) (wh f1)) (fun t => (t.vd 0 0).capoff == 1#64) = true ∧ c0.level ≠ .super ∧ traps (exec (.ctlw (w 1)) s0) .priv = true ∧
    c0.agent = .frag 0 0 0 ∧ tblFind s0.supers 0 = none ∧
    Issues s0 (.trap t0) c0 ∧ goes (exec (.trap t0) s0) (fun t => sees t me fun c => c.f.stop == some ⟨4, Cause.swtrap.code.1, none⟩ && c.f.pc == 48) = true ∧
    Issues brk (.brk o) c0 ∧ (brk.part 0).dbgctl.getLsbD 0 = true ∧ goes (exec (.brk o) brk) (fun t => sees t me fun c => c.f.stop.isSome && c.f.pc == 32) = true ∧
    Issues s0 (.brk o) c0 ∧ (s0.part 0).dbgctl.getLsbD 0 = false ∧ ends (exec (.brk o) s0) 48 = true ∧
    Issues h (.tret (r 1)) (ch f1) ∧ h.stopped? 0 1 = some me ∧ h.ctx? me = some (cf stopped) ∧ stuckCause Cause.swtrap.code.1 = false ∧
    goes (exec (.tret (r 1)) h) (fun t => sees t me fun c => c.f.stop.isNone && c.f.pc == 16) = true ∧
    goes (exec (.tret (r 0)) h) (fun t => sees t me fun c => c.f.stop.isNone && c.f.pc == 32) = true ∧
    Issues (wh f1) (.tret (r 0)) (ch f1) ∧ (wh f1).stopped? 0 1 = none ∧ ((wh f1).part 0).saved = [] ∧
    Issues (wh f1) (.halt o) (ch f1) ∧ ((wh f1).part 0).ring = [] ∧ tblFind (wh f1).supers 0 = some (hmOf f1) ∧
    goes (exec (.halt o) (wh f1)) (fun t => (tblFind t.supers 0).any (·.halted)) = true ∧
    Issues rung (.halt o) (ch f1) ∧ (hmOf f1).run = true ∧ (hmOf f1).trapped = false ∧
    goes (exec (.halt o) rung) (fun t => (tblFind t.supers 0).any (fun h => !h.halted && h.grp.sreg 0 == 7#32) && (t.part 0).ring == []) = true :=
  ⟨rfl, by decide +kernel, by decide +kernel, by decide +kernel, by decide +kernel, by decide +kernel, by decide +kernel,
   by decide, by decide +kernel, rfl, by decide +kernel, issues_of (by decide +kernel), by decide +kernel, issues_of (by decide +kernel),
   by decide +kernel, by decide +kernel, issues_of (by decide +kernel), by decide +kernel, by decide +kernel,
   issues_of (by decide +kernel), by decide +kernel, by decide +kernel, by decide +kernel, by decide +kernel, by decide +kernel,
   issues_of (by decide +kernel), by decide +kernel, by decide +kernel, issues_of (by decide +kernel), by decide +kernel,
   by decide +kernel, by decide +kernel, issues_of (by decide +kernel), by decide +kernel⟩

theorem test_hyps_TrapEntry : let x : TrapInfo := { cause := .misaln, addr := 6 }
    let t := takeTrap s0 c0 x
    c0.agent = .frag 0 0 0 ∧ s0.ctx? c0.agent = some c0 ∧ x.cause.inPlace = false ∧ c0.f.aborts = true ∧ (c0.g.frags.map (·.fid)).Nodup ∧
    tblFind s0.supers c0.part = none ∧
    sees t me (fun c => c.f.stop == some ⟨4, Cause.misaln.code.1, none⟩ && c.f.pc == 16 && (c.g.lane 1).n == [] && (c.g.lane 1).srs == 1#32) = true ∧
    (t.part 0).ring.length = 1 ∧ s0.handles = [] ∧ ([] : List Nat).length < 2 ^ 32 - 1 ∧
    (∀ b, s0.block? 0 = some b → ∀ g ∈ b.groups, (g.frags.map (·.fid)).Nodup) :=
  ⟨rfl, by decide +kernel, rfl, rfl, by decide +kernel, by decide +kernel, by decide +kernel, by decide +kernel, by decide +kernel, by decide,
   fun b h => by cases h; decide +kernel⟩

/-- The other fragment of a group goes back to its restart point, without its own stores, when one of them traps. -/
theorem test_hyps_TrapOthers : let x : TrapInfo := { cause := .misaln, addr := 6 }
    let y := { fr with fid := 1, mask := 0xC#64, pc := 0x100 }
    let g : Group := { gr fr with frags := [{ fr with mask := 3#64 }, y], sbuf := [{ entry [] with mask := 0xC#64 }] }
    let t := takeTrap (wg g) (cg g) x
    (wg g).ctx? me = some (cg g) ∧ (wg g).group? (.grp 0 0) = some g ∧ shareWarp 32 0 0 = true ∧ y.aborts = true ∧
    tblFind (wg g).supers 0 = none ∧
    sees t (.frag 0 0 1) (fun c => c.f.pc == 16 && c.f.stop.isNone && c.g.sbuf == []) = true ∧
    sees t me (fun c => c.f.stop.isSome) = true := by
  decide +kernel

theorem test_hyps_WalksAndPageFaults : let f := { fr with wait := .walk 1 0x40#64 1 none }
    let s : State := { wf f with walks := [⟨1, 0, 0x40#64, .read, 0, some (.leaf ⟨0x14000, 0xF180000000000000, 0, 65536⟩), false⟩], cores := (wf f).cores.map fun x => (x.1, { x.2 with tlb := [] }) }
    let t := pageFault s0 c0 (4, 0, 0x10000, 65536) 0x10040#64 .read 1 none
    c0.agent = .frag 0 0 0 ∧ s0.ctx? c0.agent = some c0 ∧ c0.f.aborts = true ∧ (c0.g.frags.map (·.fid)).Nodup ∧ tblFind s0.supers c0.part = none ∧
    sees t me (fun c => c.f.pc == 16 && (match c.f.wait with | .page _ d va ak _ fpc => d == 0 && va == 0x10040#64 && ak == 1 && fpc == 32 | _ => false)) = true ∧
    t.pageReqs.map (fun q => (q.level, q.base)) = [(4, 0x10000)] ∧
    (s.walks.find? fun x => x.id == 1).isSome = true ∧ (match s.walkAt 0x10000 0 0x40#64 .read false with | .leaf l => l.base == 0 | _ => false) = true ∧
    me ∈ s.agents ∧ s.ctx? me = some (cf f) ∧ walkWait f 1 ≠ none ∧
    goes (exec (.pageWalkDone 1) s) (fun t => t.walks == [] && ((t.core 0).tlb.map (·.size) == [65536]) && sees t me fun c => c.f.wait == .none) = true := by
  decide +kernel

/-- A walk that has found no entry for the address of the fragment that waits on it raises its page request. -/
theorem test_hyps_WalkFails : let f := { fr with wait := .walk 1 0x20040#64 1 none }
    let r : WalkRes := .fail 4 0 0x20000 65536
    let s : State := { wf f with walks := [⟨1, 0, 0x20040#64, .read, 0, some r, false⟩] }
    s.judge 0 .read false r = r ∧ r.covers 0x20040 = true ∧ (walkWaiters s 1).map (fun x => (x.2.1, x.2.2.1)) = [(0x20040#64, 1)] ∧
    goes (exec (.pageWalkDone 1) s) (fun t => t.walks == [] && t.pageReqs.map (·.base) == [0x20000] && sees t me fun c =>
      match c.f.wait with
      | .page _ _ va _ _ _ => va == 0x20040#64
      | _ => false) = true ∧
    walkWaiters { s with cores := [] } 1 = [] := by
  decide +kernel

theorem test_hyps_ErrorsAndRecords : let s := wp s0 { part0 with heldRecs := [5#512, 6#512], lost := true, wcnt := 65535, sz := 0 }
    let f := { fr with trans := 3 }
    s0.group? (.grp 0 0) = some (gr fr) ∧ 3 < (gr fr).lanes.length ∧
    goes (exec (.uncorrectableError (.vreg 0 0 3 9)) s0) (fun t => sees t me fun c => (c.g.lane 3).bad == [9]) = true ∧
    contextSlot (blk (gr fr)) 0x40 = none ∧ goes (exec (.uncorrectableError (.scratch 0 0x40)) s0) (fun t => (t.core 0).scratchPoisoned 0x47 1 && !(t.core 0).scratchPoisoned 0x48 1) = true ∧
    goes (exec (.uncorrectableError (.accum 0 5)) s0) (fun t => (t.core 0).accBad == [2]) = true ∧
    isHbm 0x11F = true ∧ goes (exec (.uncorrectableError (.hbm 0x11F)) s0) (fun t => t.memPoisoned 0x100 1 && !t.memPoisoned 0x120 1) = true ∧
    goes (exec (.correctableError 0 5) s0) (fun t => tblGet 0#32 (t.die 0).ras 5 == 1#32) = true ∧
    c0.agent = .frag 0 0 0 ∧ ready s0 c0 = true ∧ c0.f.stop = none ∧ c0.f.aborts = true ∧ TransSource.latch ≠ .handover ∧
    goes (exec (.trans me .latch) s0) (fun t => sees t me fun c => c.f.pc == 16 && c.f.trans == 1 && c.f.stop.isNone) = true ∧
    ready (wf f) (cf f) = true ∧ goes (exec (.trans me .latch) (wf f)) (fun t => sees t me fun c => c.f.stop == some ⟨4, Cause.persist.code.1, none⟩) = true ∧
    (s.part 0).heldRecs = 5#512 :: [6#512] ∧ (s.part 0).ring.length < (s.part 0).ringSize ∧ (s.part 0).disabling = false ∧ tblFind s.supers 0 = none ∧
    (∀ k < 64, isHbm (0x8000 + 64 * (65535 % 16) + k) = true) ∧
    goes (exec (.recordWrite 0) s) (fun t => (t.part 0).heldRecs == [6#512] && (t.part 0).wcnt == 0 && t.mscRead (0x8000 + 64 * 15) 1 == [5#8]) = true := by
  decide +kernel

/-- J2 holds lanes 0 to 3 and lane 3 has not come; a spilled fragment; a lane of an ejected side before and after its drain;
an ejected lane at its RJWAIT. -/
theorem test_hyps_FragmentsAndLanes : let f := { fr with mask := 7#64, wait := .rejoin 2 }
    let g : Group := { gr f with j := [(2, { RejReg.make 32 1 none 0#32 0xF#64 with arrival := some (0, 1000000) })] }
    let sp := { fr with slot := .spilled 0 }
    let hd := { fr with mask := 1#64, wait := .handover 3 none }
    let hd2 := { fr with mask := 1#64, wait := .handover 3 (some 0), ctxs := [(0, 5)] }
    let y := aw { f1 with wait := .rejoin 2 }
    let taken := (List.range 8).map fun i => { fr with fid := 1 + i, slot := .entry i }
    let full : Group := { gr fr with frags := taken ++ [{ sp with fid := 9 }] }
    let gone : Group := { gr { fr with mask := 0xE#64 } with lanes := [{ ln 0 with away := true }, ln 1, ln 2, ln 3] }
    let s : State := { wg gone with ejected := [y] }
    (wg g).block? 0 = some (blk g) ∧ (blk g).st = .running ∧ (wg g).group? (.grp 0 0) = some g ∧ g.waiter 2 = some f ∧
    (g.rej 2).arrival = some (0, 1000000) ∧ 0 + 1000000 ≤ (wg g).clock ∧
    goes (exec (.rjtmo 0 0 2) (wg g)) (fun t => sees t me fun c => c.f.pc == 48 && (c.g.rej 2).mask == 8#64) = true ∧
    (wf sp).ctx? me = some (cf sp) ∧ loadHead (wf sp) 0 0 = some (cf sp) ∧ (blk (gr sp)).place 32 0 = .entry 0 ∧
    (∃ n, sp.slot = .spilled n) ∧ able (wf sp) (cf sp) = true ∧ (blk full).place 32 0 = .spilled 1 ∧ goes (exec (.fragmentLoad 0 0) (wf sp)) (fun t => sees t me fun c => c.f.slot == .entry 0) = true ∧
    handoverCtx (wf hd) 0 0 = some (cf hd) ∧ sliceSorted (wf hd) (clusterOf 0) ∧ drainedTo (wf hd) (cf hd) 3 = true ∧
    goes (exec (.ejectHandover 0 0) (wf hd)) (fun t => sees t me fun c => c.f.wait == .handover 3 (some 1000000)) = true ∧
    handoverCtx (wf hd2) 0 0 = some (cf hd2) ∧ (hd2.ctxs.map (·.1)).Nodup ∧ hd2.mask = lanesMask (hd2.ctxs.map (·.1)) ∧ 0 + 64 * (40 + 2 * survCount ((wf hd2).survAt (cf hd2) 32)) ≤ (wf hd2).clock ∧ tblFind hd2.ctxs 0 = some 5 ∧
    goes (exec (.ejectHandover 0 0) (wf hd2)) (fun t => t.ejected.map (·.ctx) == [5]) = true ∧ (s.ctx? (.ejected 0 0)).any (fun c => mayReturn s 0 0 y 2 c.f) = true ∧
    (s.ctx? (.ejected 0 0)).isSome = true ∧ s.ejected? 0 0 = some y ∧ y.fifo = [] ∧ threadLane y.grp.width 0 = (y.grp.index, 0) ∧ s.group? (.grp 0 0) = some gone ∧
    (∀ x ∈ gone.frags, x.fid < s.serial) ∧ goes (exec (.ejectReturn 0 0) s) (fun t => t.ejected == [] && sees t me fun c => !(c.g.lane 0).away) = true := by
  unfold sliceSorted
  exact ⟨by decide +kernel, by decide +kernel, rfl, by decide +kernel, by decide +kernel, by decide +kernel,
    by decide +kernel, by decide +kernel, by decide +kernel, by decide +kernel, ⟨0, rfl⟩, by decide +kernel⟩

/-! ### Queues, sharing, the host -/

def hd (kind seq : Nat) (args : Nat := 0) : BitVec 512 := BitVec.ofNat 512 (kind * 2 ^ 24 + seq * 2 ^ 32 + args * 2 ^ 256)
/-- A kernel that any core covers. -/
def kern0 : Kernel := { kern with gp := 0, useMask := 0#64 }
def grid (blocks formed retired : Nat) : Grid := ⟨kern0, blocks, formed, formed, retired, false⟩
def ent (kind tag : Nat) (begun : Bool) (args : Nat := 0) (g : Option Grid := none) : Entry :=
  ⟨tag, hd kind tag args, begun, false, 0, false, none, none, false, g⟩
/-- The module with queue 0 of device 0, device 0 resident, and a block on core 0 or none. -/
def qs (x : Queue) (b : Option Block := none) : State :=
  { s0 with
    cur := none
    cores := [(0, { Core.empty with block := b, tlb := [placedTlb] })]
    parts := [(0, { part0 with period := 1000000 })]
    fes := [(0, { Fe.empty with queues := [(0, { x with en := true })] })]
    dies := [(0, { Die.empty with up := 0x10#5 }), (1, { Die.empty with up := 0x10#5 })] }
def accepts (s : State) (f : Nat) (h : BitVec 512) : Bool := s.hears f && !stuffed s f && !badHeader h && !deviceOff s f h
theorem accepts_of {s : State} {f : Nat} {h : BitVec 512} (x : accepts s f h = true) : Accepts s f h := by
  simp only [accepts, Bool.and_eq_true, Bool.not_eq_true'] at x
  exact ⟨x.1.1.1, x.1.1.2, x.1.2, x.2⟩

def q0 (es : List Entry) : Queue := { Queue.empty with entries := es }

/-- A LAUNCH of two blocks: the first goes to core 0, with lane 3 of its group numbered 3. -/
theorem test_hyps_GangForms : let e := ent 1 7 true 0 (some (grid 2 0 0))
    let s := qs (q0 [e])
    (s.part 0).en = true ∧ (s.part 0).switching = false ∧ (s.part 0).resident = some 0 ∧ (s.vd 0 0).resetting = none ∧
    (s.part 0).saved = [] ∧
    ((candidates s 0 0).findSome? fun x => x.2.2.grid.bind fun g => (nextGang s 0 0 0 g).map fun y => (x, g, y)) =
      some ((0, 0, e), grid 2 0 0, 1, 0, 0) ∧ (s.vd 0 0).core? 0 0 = some 0 ∧
    goes (exec (.gangForm 0) s) (fun t => (t.block? 0).any fun b => b.groups.any fun g => (g.lane 3).vreg 0 == 3#32) = true := by
  decide +kernel

/-- The last block of a grid retires; a LAUNCH begins; a WAITTAG waits for its tag and completes; a WAITSIG whose word is
0xBBAA is met at that value and not at 0xBBAB; a watchdog of 1 ms expires. -/
theorem test_hyps_QueueEntries : let b := { blk (gr fr) with st := .retiring, tag := 7, warps := [] }
    let r (retired : Nat) := qs (q0 [ent 1 7 true 0 (some (grid 2 2 retired))]) (some b)
    let lau := qs (q0 [ent 1 7 false 0 (some (grid 2 0 0))])
    let offs := { lau with parts := [(0, { part0 with resident := some 5 })] }
    let tag (n : Nat) := qs (q0 [ent 2 7 false (n * 2 ^ 32)])
    let sig (v : Nat) := { ent 3 7 true (0x100 + v * 2 ^ 64) with watch := some (0x100, 0, 65536) }
    let wd := { qs { q0 [ent 1 7 true 0 (some (grid 2 0 0))] with wdt := 1#16, count := 112000000 } with
      parts := [(0, { part0 with fpol := 0x10000000#32 })] }
    (r 1).block? 0 = some b ∧ drained (r 1) 0 b = true ∧ (∀ g ∈ b.groups, g.sbuf = []) ∧
    ((r 1).queue 0 0).entries.find? (fun x => x.tag == b.tag) = some (ent 1 7 true 0 (some (grid 2 2 1))) ∧
    goes (exec (.blockRetire 0) (r 1)) (fun t => t.outbox.length + (t.fe 0).retained.length == 1) = true ∧
    goes (exec (.blockRetire 0) (r 0)) (fun t => t.outbox.length + (t.fe 0).retained.length == 0) = true ∧
    (lau.queue 0 0).next? = some (ent 1 7 false 0 (some (grid 2 0 0))) ∧ hdrKind (hd 1 7) = 1 ∧
    goes (exec (.entryBegin 0 0) lau) (fun t => (t.queue 0 0).entries.any (·.begun)) = true ∧
    (offs.part 0).resident ≠ some (offs.queue 0 0).vd ∧ goes (exec (.entryBegin 0 0) offs) (fun t => t == offs) = true ∧
    ((tag 0).queue 0 0).next? = some (ent 2 7 false) ∧ tagReached (tag 0) 0 (hd 2 7) = true ∧ tagReached (tag 1) 0 (hd 2 7 (2 ^ 32)) = false ∧
    goes (exec (.entryBegin 0 0) (tag 0)) (fun t => (t.queue 0 0).ctag == 7) = true ∧
    waitsigMet (sig 0xBBAA).hdr ((qs (q0 [sig 0xBBAA])).mscWord 0x100) = true ∧
    goes (exec (.entryBegin 0 0) (qs (q0 [sig 0xBBAA]))) (fun t => (t.queue 0 0).ctag == 7) = true ∧
    waitsigMet (sig 0xBBAB).hdr ((qs (q0 [sig 1])).mscWord 0x100) = false ∧
    watchdogRuns wd 0 (wd.queue 0 0) = true ∧ 112000000 * (wd.queue 0 0).wdt.toNat ≤ (wd.queue 0 0).count ∧
    goes (exec (.wdog 0 0) wd) (fun t => (t.queue 0 0).wdx && (t.part 0).ring.length == 1) = true := by
  decide +kernel

/-- A period ends; device 1 follows device 0, with blocks to take and without. -/
theorem test_hyps_TimeShared : let dev : Vd := { Vd.empty with en := true, allow := 5, ran := true }
    let two (b : Option Block) : State := { qs (q0 []) b with
      fes := [(0, { Fe.empty with queues := [(1, { q0 [ent 1 3 false 0 (some (grid 1 0 0))] with en := true, vd := 1 })] })]
      vds := [(0, { dev with allow := 0 }), (1, dev)] }
    let v0 := two none
    let v1 := { two (some (blk (gr fr))) with parts := [(0, { part0 with period := 1000000, slice := some 0 })], vds := [(0, dev), (1, dev)] }
    let idle := { v0 with parts := [(0, { part0 with period := 1000000, resident := none })] }
    let old := { v0 with clock := 10000000000 }
    (old.part 0).period + (old.part 0).span ≤ old.clock ∧ goes (exec (.periodBoundary 0) old) (fun t => (t.part 0).period == 1000000 + (old.part 0).span) = true ∧
    (idle.part 0).resident = none ∧ selectVd (refresh idle 0) 0 = some 1 ∧
    goes (exec (.sliceEnd 0) idle) (fun t => (t.part 0).resident == some 1) = true ∧
    (v0.part 0).switching = false ∧ (v0.part 0).resident = some 0 ∧ sliceOver (refresh v0 0) 0 = true ∧
    selectVd (chargeSlice (refresh v0 0) 0) 0 = some 1 ∧ v0.blocksOf 0 0 = [] ∧
    goes (exec (.sliceEnd 0) v0) (fun t => (t.part 0).resident == some 1) = true ∧
    sliceOver (refresh v1 0) 0 = true ∧ selectVd (chargeSlice (refresh v1 0) 0) 0 = some 1 ∧ v1.blocksOf 0 0 ≠ [] ∧
    goes (exec (.sliceEnd 0) v1) (fun t => (t.part 0).switching && (t.block? 0).any (·.taking.isSome)) = true := by
  decide +kernel

/-- A block at a listed barrier is suspended, another by force; it is saved, and runs again. -/
theorem test_hyps_BlocksTaken : let listed := { kern0 with barrTab := 0x200#64, barrN := 1 }
    let wait (f : Frag) : Frag := { f with wait := .barrier 0 15#64 (some .blk) }
    let bar := { blk (gr (wait fr)) with taking := some 0, kern := listed }
    let forced := { blk (gr fr) with taking := some 0 }
    let sus := { blk (gr fr) with st := .suspended, kern := kern0, warps := [] }
    let sb := { qs (q0 []) (some bar) with mem := [(0x230, 16#8)] ++ tables }
    let sf := { qs (q0 []) (some forced) with clock := 22400000 }
    let ss := { qs (q0 []) (some sus) with parts := [(0, { part0 with switching := true, successor := some 0 })] }
    let g := saveGang ss [(0, sus)]
    let sr := { qs (q0 []) with parts := [(0, { part0 with saved := [g] })] }
    sb.block? 0 = some bar ∧ atBarrier sb 0 bar = true ∧
    goes (exec (.blockTake 0) sb) (fun t => (t.block? 0).any fun b => b.st == .suspended) = true ∧
    sf.block? 0 = some forced ∧ 0 + 22400000 ≤ sf.clock ∧ (∀ g ∈ forced.groups, (g.frags.map (·.fid)).Nodup) ∧ fr.aborts = true ∧
    goes (exec (.forcedTake 0) sf) (fun t => (t.block? 0).any fun b => b.groups.any fun g => g.frags.any (·.pc == 16)) = true ∧
    ss.ejected = [] ∧ ss.busyQueues = [] ∧ (∀ x ∈ ss.blocksOf 0 0, x.2.st = .suspended ∧ drained ss x.1 x.2 = true) ∧
    ((toReserve ss 0 0 0).part 0).reserve = [(0, 0)] ∧
    ((sr.part 0).saved.filter fun x => (sr.part 0).resident == some x.vd && x.gang == 0).findSome?
      (fun g => (gangCores sr 0 g).map fun ks => (g, ks)) = some (g, [0]) ∧ (sr.part 0).switching = false ∧
    g.scratch.length = g.blocks.length ∧ g.acc.length = g.blocks.length ∧ g.bad.length = g.blocks.length ∧
    goes (exec (.gangResume 0 0) sr) (fun t => (t.part 0).saved == [] && (t.block? 0).any fun b => b.st == .running) = true := by
  decide +kernel

/-- Records: bad, of a device that is off, of a queue that is off, too far ahead, early, in turn; a held one whose turn
comes. -/
theorem test_hyps_HostRecords : let s := qs (q0 [])
    let off := { s with vds := [] }
    let noq := { s with fes := [] }
    let held := qs { q0 [] with held := [(hd 2 1, [])] }
    let at_ (o : Out) (n : Nat) : Bool := goes o fun t => ((t.queue 0 0).next, (t.queue 0 0).entries.length, (t.queue 0 0).held.length) == (n, n - 1, 0)
    { s with dies := [] }.hears 0 = false ∧ s.hears 0 = true ∧ stuffed s 0 = false ∧ badHeader (hd 7 1) = true ∧ badHeader (hd 2 1) = false ∧ deviceOff off 0 (hd 2 1) = true ∧
    accepts s 0 (hd 2 1) = true ∧ accepts noq 0 (hd 2 1) = true ∧ queueOff noq 0 (hd 2 1) = true ∧ queueOff s 0 (hd 2 1) = false ∧ hdrSeq (hd 2 1) = (s.queue 0 0).next ∧
    at_ (exec (.waittag 0 (hd 2 1)) s) 2 = true ∧ at_ (exec (.waitsig 0 (hd 3 1)) s) 2 = true ∧
    launchGrid s 0 (hd 1 1 0x200) [] = none ∧
    63 < (hdrSeq (hd 2 65) + 2 ^ 32 - (s.queue 0 0).next) % 2 ^ 32 ∧ (hdrSeq (hd 2 64) + 2 ^ 32 - (s.queue 0 0).next) % 2 ^ 32 = 63 ∧
    goes (exec (.waittag 0 (hd 2 64)) s) (fun t => (t.queue 0 0).held.length == 1) = true ∧
    (held.queue 0 0).held.find? (fun r => hdrSeq r.1 == (held.queue 0 0).next) = some (hd 2 1, []) ∧ (held.queue 0 0).en = true ∧
    hdrQueue (hd 2 1) = 0 ∧ at_ (exec (.heldRecordIntake 0 0) held) 2 = true :=
  by decide +kernel

/-- A LAUNCH of one block whose descriptor gives 32 threads of width 32 and eight registers. -/
theorem test_hyps_LaunchAccepted : let s := { qs (q0 []) with mem := [(0x201, 1#8), (0x202, 2#8), (0x22C, 1#8)] ++ tables }
    let h := hd 1 1 (0x200 + 2 ^ 64 + 32 * 2 ^ 96)
    accepts s 0 h = true ∧ queueOff s 0 h = false ∧ (launchGrid s 0 h []).isSome = true ∧
    goes (exec (.launch 0 h []) s) (fun t => (t.queue 0 0).entries.any fun e => e.grid.any fun g => g.blocks == 1 && g.kern.w == 32) = true := by
  decide +kernel

/-- TLBINV and its end, ICINV and its end, a stale page response and one that ends a wait, a message sent again. -/
theorem test_hyps_HostCommands : let s := qs (q0 []) (some (blk (gr fr)))
    let cmd (h : BitVec 512) (ws : List Nat) : State := { s with commands := [(⟨5, 0, h, ws⟩ : Command)] }
    let walking := { cmd (hd 4 0 (2 ^ 64)) [3] with walks := [⟨3, 0, 0#64, .read, 0, none, false⟩] }
    let req : PageReq := ⟨2, 0, 0, 4, 0, 0x10000, 65536, .thread⟩
    let f := { fr with wait := .page 2 0 0x10000#64 0 none 32 }
    let page := { qs (q0 []) (some (blk (gr f))) with pageReqs := [req] }
    let up := { s with clock := 1750000 * 64, fes := [(0, { Fe.empty with retained := [([2#8], [1#8])] })] }
    accepts s 0 (hd 4 0 (2 ^ 64)) = true ∧ goes (exec (.tlbinv 0 (hd 4 0 (2 ^ 64))) s) (fun t => (t.core 0).tlb == [] && t.commands.length == 1) = true ∧
    accepts s 0 (hd 5 0 (2 ^ 96)) = true ∧ goes (exec (.icinv 0 (hd 5 0 (2 ^ 96))) s) (fun t => t.commands.length == 1) = true ∧
    accepts s 0 (hd 6 0 2) = true ∧ goes (exec (.pageresp 0 (hd 6 0 2)) s) (fun t => (t.fe 0).stale == 1) = true ∧
    accepts page 0 (hd 6 0 2) = true ∧ page.pageReqs.find? (fun r => r.fe == 0 && r.vd == 0 && r.id == hdrField (hd 6 0 2) 256 32) = some req ∧
    me ∈ page.agents ∧ page.ctx? me = some (cf f) ∧ pageWait f 2 ≠ none ∧ (hd 6 0 2).getLsbD 304 = false ∧
    goes (exec (.pageresp 0 (hd 6 0 2)) page) (fun t => t.pageReqs == [] && sees t me fun c => c.f.wait == .none) = true ∧
    goes (exec (.tlbinvPerformed 5) (cmd (hd 4 0) [])) (fun t => t.commands == []) = true ∧
    goes (exec (.tlbinvPerformed 5) walking) (fun t => t == walking) = true ∧
    goes (exec (.icinvPerformed 5) (cmd (hd 5 0 (2 ^ 96)) [])) (fun t => t.commands == []) = true ∧
    up.portUp 0 = true ∧ goes (exec (.msgResend 0) up) (fun t => t.outbox == [([2#8], [1#8])]) = true ∧ { s with dies := [] }.portUp 0 = false := by
  decide +kernel

/-- Two bytes of the stacks, a register window with a halfword, poison. -/
theorem test_hyps_RemoteAccess : let s := qs (q0 [])
    let bad := s.poisonMem 0x100 1
    remoteComes s 0x100 = true ∧ remoteComes s 0x101 = true ∧ remoteComes s 0x800000000002 = true ∧
    remoteComes { s with dies := [] } 0x100 = false ∧
    (∀ k ∈ List.range 2, isHbm (0x100 + k) = true) ∧ reachesLost s 0x100 2 = false ∧ (∀ k ∈ List.range 2, s.memPoisoned (0x100 + k) 1 = false) ∧
    goes (exec (.remoteRead 0x100 2) s) (fun t => t.answers == [⟨true, [0xAA#8, 0xBB#8]⟩]) = true ∧
    goes (exec (.remoteWrite 0x101 [1#8]) s) (fun t => t.mem.read 0x100 3 == [0xAA#8, 1#8, 0#8]) = true ∧
    bad.memPoisoned 0x100 1 = true ∧ goes (exec (.remoteRead 0x100 2) bad) (fun t => t.answers == [⟨false, []⟩]) = true ∧
    wordBreach 0x800000000002 2 = true := by
  decide +kernel

/-- With the port of die 0 down no write of its registers arrives. -/
theorem test_hyps_PortDown : let s := { qs (q0 []) with dies := [] }
    s.hears 0 = false ∧ (hostWrites 0 0 0 0 0x80000000#32).length = 16 ∧
    (∀ i ∈ hostWrites 0 0 0 0 0x80000000#32, goes (exec i s) (fun t => t == s) = true) := by
  decide +kernel

/-- Device 0 with a capture at work: over empty tables, and over one page whose leaf has C set. -/
def capOn (m : Memory) : State := { qs (q0 []) with mem := m, vds := [(0, { s0.vd 0 0 with genc := true, busy := true })] }
def capMem : Memory :=
  [(0x10001, 0x10#8), (0x10002, 0x01#8), (0x10007, 0x80#8), (0x11001, 0x20#8), (0x11002, 0x01#8), (0x11007, 0x80#8),
   (0x12001, 0x30#8), (0x12002, 0x01#8), (0x12007, 0x80#8), (0x13001, 0x40#8), (0x13002, 0x01#8), (0x13007, 0x80#8),
   (0x14006, 0x80#8), (0x14007, 0xF3#8)]
def capLeaf : Leaf := ⟨0x14000, 0xF380000000000000, 0, 65536⟩

theorem leaves_mem {s t : State} (h : s.ram = t.ram) : ∀ ls a b, s.leaves ls a b = t.leaves ls a b
  | [], _, _ => rfl
  | (_, _, _) :: ls, a, b => by
    have hb : s.mscByte = t.mscByte := funext fun pa => by simp only [State.mscByte, (Prod.mk.inj h).1, (Prod.mk.inj h).2]
    have hl : s.leaves ls = t.leaves ls := funext fun a => funext fun b => leaves_mem h ls a b
    unfold State.leaves State.mscRead
    rw [hb, hl]

/-- The state with a memory, for a walk of its tables. -/
def only (m : Memory) : State := { State.reset with mem := m }

theorem capturePages_mem {s : State} {m : Memory} (h : s.ram = (m, [])) (f v : Nat) : capturePages s f v =
    ((only m).leaves walkLevels (s.vd f v).root 0).filter fun l =>
      pteC l.val && pteGen l.val != (s.vd f v).genc := by
  simp only [capturePages, leaves_mem (t := only m) h]

theorem find_unlisted (m : Memory) {a : Nat} (h : ∀ c ∈ m, c.1 ≠ a) : tblFind m a = none := by
  induction m with
  | nil => rfl
  | cons c m ih => rw [Sys2Proof.Laws.tblFind_cons, if_neg (h c (.head _)), ih fun c hc => h c (.tail _ hc)]

theorem leNat_zeros {α : Type} : ∀ l : List α, leNat (l.map fun _ => 0#8) = 0
  | [] => rfl
  | _ :: l => by rw [List.map_cons, leNat, leNat_zeros l]; rfl

theorem read_unlisted {m : Memory} {a : Nat} (h : ∀ c ∈ m, c.1 < a ∨ a + 8 ≤ c.1) : leNat ((only m).mscRead a 8) = 0 := by
  have hb : ((upFrom a 8).map (only m).mscByte) = (upFrom a 8).map fun _ => 0#8 := List.map_congr_left fun x hx => by
    obtain ⟨k, hk, rfl⟩ := List.mem_map.1 hx
    have : tblFind m (a + k) = none := find_unlisted m fun c hc => by
      have := h c hc
      have := List.mem_range.1 hk
      omega
    simp [State.mscByte, areaOf, only, State.reset, Memory.get, tblGet, this, Memory.unlisted]
  rw [State.mscRead, hb, leNat_zeros]

/-- A table with one valid entry, its first. -/
theorem leaves_first {m : Memory} {lvl sh n t b x : Nat} {rest : List (Nat × Nat × Nat)} (h0 : leNat ((only m).mscRead t 8) = x)
    (hv : (!pteV x || pteMalformed lvl (2 ^ sh) x) = false) (hr : ∀ c ∈ m, c.1 < t + 8 ∨ t + 8 * 2 ^ n ≤ c.1) :
    (only m).leaves ((lvl, sh, n) :: rest) t b = if pteL x then [⟨t, x, b, 2 ^ sh⟩] else (only m).leaves rest (ptePa x) b := by
  have hn : 2 ^ n = (2 ^ n - 1) + 1 := by have := Nat.two_pow_pos n; omega
  have hz (i : Nat) (hi : i ∈ List.range (2 ^ n - 1)) : leNat ((only m).mscRead (t + 8 * (i + 1)) 8) = 0 :=
    read_unlisted fun c hc => by have := hr c hc; have := List.mem_range.1 hi; omega
  rw [State.leaves, hn, List.range_succ_eq_map, List.flatMap_cons, List.flatMap_map, List.flatMap_eq_nil_iff.2 fun i hi => ?_]
  · simp [h0, hv]
  · simp [hz i hi, pteV, show testBit 0 63 = false from rfl]

theorem leaves_page : (only capMem).leaves walkLevels 0x10000 0 = [capLeaf] := by
  have step {lvl sh n t b x : Nat} {rest : List (Nat × Nat × Nat)} (h0 : leNat ((only capMem).mscRead t 8) = x)
      (hv : (!pteV x || pteMalformed lvl (2 ^ sh) x) = false) (hr : (capMem.all fun c => c.1 < t + 8 || t + 8 * 2 ^ n ≤ c.1) = true) :
      (only capMem).leaves ((lvl, sh, n) :: rest) t b = if pteL x then [⟨t, x, b, 2 ^ sh⟩] else (only capMem).leaves rest (ptePa x) b :=
    leaves_first h0 hv fun c hc => by simpa using List.all_eq_true.1 hr c hc
  rw [walkLevels, step (x := 0x8000000000011000) (by decide +kernel) (by decide +kernel) (by decide +kernel),
    if_neg (by decide +kernel), show ptePa 0x8000000000011000 = 0x11000 by decide +kernel,
    step (x := 0x8000000000012000) (by decide +kernel) (by decide +kernel) (by decide +kernel),
    if_neg (by decide +kernel), show ptePa 0x8000000000012000 = 0x12000 by decide +kernel,
    step (x := 0x8000000000013000) (by decide +kernel) (by decide +kernel) (by decide +kernel),
    if_neg (by decide +kernel), show ptePa 0x8000000000013000 = 0x13000 by decide +kernel,
    step (x := 0x8000000000014000) (by decide +kernel) (by decide +kernel) (by decide +kernel),
    if_neg (by decide +kernel), show ptePa 0x8000000000014000 = 0x14000 by decide +kernel,
    step (x := 0xF380000000000000) (by decide +kernel) (by decide +kernel) (by decide +kernel), if_pos (by decide +kernel)]
  rfl

theorem leaves_none : (only []).leaves walkLevels 0x10000 0 = [] := by
  rw [walkLevels, State.leaves, List.flatMap_eq_nil_iff]
  intro i _
  have : leNat ((only []).mscRead (0x10000 + 8 * i) 8) = 0 := read_unlisted fun c hc => by cases hc
  simp [this, pteV, show testBit 0 63 = false from rfl]

theorem test_hyps_CaptureStarts : let s := qs (q0 [])
    s.feOf 0 = some 0 ∧ (1#32).getLsbD 0 ≠ (s.vd 0 0).genc ∧ (s.vd 0 0).busy = false ∧ ((capOn []).vd 0 0).busy = true ∧
    (0#32).getLsbD 0 = (s.vd 0 0).genc ∧ (0#32).getLsbD 0 ≠ ((capOn []).vd 0 0).genc ∧
    goes (exec (.captureStart 0 1#32) s) (fun t => (t.vd 0 0).busy && (t.vd 0 0).genc) = true ∧
    goes (exec (.captureStart 0 0#32) (capOn [])) (fun t => (t.vd 0 0).refusedBit && (t.vd 0 0).genc) = true := by
  decide +kernel

/-- A capture without a page left; one with a page, which is copied to itself. -/
theorem test_hyps_Captures : let pg := capOn capMem
    ((List.range 32).find? fun f => ((capOn []).vd f 0).busy) = some 0 ∧ capturePages (capOn []) 0 0 = [] ∧
    ((List.range 32).find? fun f => (pg.vd f 0).busy) = some 0 ∧ capturePages pg 0 0 = [capLeaf] ∧
    pg.wanted = [] ∧ (256 * 0 + 0, capLeaf.pte) ∈ { pg with wanted := [(0, 0x14000)] }.wanted ∧
    pg.memPoisoned (ptePa capLeaf.val) capLeaf.size = false ∧
    (captureCopy (pg.markLeaf 0 capLeaf.pte true false) 0 0 (ptePa capLeaf.val) false
      (pageSplit ((capLeaf.base + (pg.vd 0 0).capoff.toNat) % 2 ^ 64) capLeaf.size)).2 = true := by
  refine ⟨by decide +kernel, ?_, by decide +kernel, ?_, by decide +kernel⟩
  · rw [capturePages_mem (m := []) rfl, show ((capOn []).vd 0 0).root = 0x10000 by decide +kernel, show _ = [] from leaves_none, List.filter_nil]
  · rw [capturePages_mem (m := capMem) rfl, show ((capOn capMem).vd 0 0).root = 0x10000 by decide +kernel, show _ = [capLeaf] from leaves_page]
    decide +kernel

/-! ### Partitions, devices, links, boot -/

/-- Partition 2 is enabled beside a free one, clashes with an enabled one, is disabled with a device and without; its
colours; a queue is enabled, waits for a begun entry, and is disabled; a watchdog is set. -/
theorem test_hyps_PartitionsAndQueues : let s := { qs (q0 []) with cores := [] }
    let x : W32 := 0x80000303#32
    let p2 : Part := { Part.empty with colours := 0xFF#16 }
    let free := { s with parts := [(2, p2)] }
    let clash := { s with parts := [(0, { part0 with limit := 3 }), (2, p2)] }
    let bare := { s with parts := [(1, part0)] }
    let held := { bare with vds := [(0, { Vd.empty with en := true, part := 1#6 })] }
    let q (es : List Entry) : State := { s with fes := [(0, { Fe.empty with queues := [(0, q0 es)] })] }
    let s1 := free.setPart 2 { p2 with base := 3, limit := 3 }
    (free.part 2).en = false ∧ x.getLsbD 31 = true ∧ bitField x.toNat 0 6 ≤ bitField x.toNat 8 6 ∧ free.parts.length = 1 ∧
    (free.part 2).colours ≠ 0#16 ∧ s1.superCtxs 1 + s1.granted 2 1 (·.ejGrant) < 192 ∧ superCtx (s1.usedCtxs 1) = some 191 ∧
    goes (exec (.partitionEnable 2 x) free) (fun t => (t.part 2).en && (tblFind t.supers 2).any (·.ctx == some 191)) = true ∧
    (clash.part 0).en = true ∧ (clash.part 0).base ≤ 3 ∧ 3 ≤ (clash.part 0).limit ∧
    goes (exec (.partitionEnable 2 x) clash) (fun t => !(t.part 2).en) = true ∧
    s.hears 0 = true ∧ free.hears 1 = true ∧ (held.part 1).en = true ∧ (held.part 1).disabling = false ∧ held.vdsOf 1 = [0] ∧ held.partVds 1 = [0] ∧
    goes (exec (.partitionDisable 1 0#32) held) (fun t => (t.part 1).disabling && (t.vd 0 0).resetting.isSome) = true ∧
    bare.vdsOf 1 = [] ∧ bare.partVds 1 = [] ∧ (bare.part 1).heldRecs = [] ∧ goes (exec (.partitionDisable 1 0#32) bare) (fun t => !(t.part 1).en) = true ∧
    goes (exec (.pcolorWrite 2 0x1FF#32) { s with parts := [(0, { part0 with colours := 0xF#16 })] }) (fun t => (t.part 2).colours == 0x1F0#16) = true ∧
    ((q []).queue 0 0).en = false ∧ goes (exec (.queueEnable 0 0 0x80000200#32) (q [])) (fun t => (t.queue 0 0).en && (t.queue 0 0).pri == 2#2) = true ∧
    (∃ e ∈ ((q [ent 1 7 true]).queue 0 0).entries, e.begun = true ∧ e.completed = false) ∧
    goes (exec (.queueEnable 0 0 0x80000000#32) (q [ent 1 7 true])) (fun t => !(t.queue 0 0).en) = true ∧
    (s.queue 0 0).en = true ∧ goes (exec (.queueDisable 0 0 0#32) s) (fun t => !(t.queue 0 0).en) = true ∧
    goes (exec (.qwdtWrite 0 0 5#32) s) (fun t => (t.queue 0 0).wdt == 5#16) = true := by
  decide +kernel

/-- A device is enabled, is held by another front end, is disabled, and its reset ends, or waits for its block. -/
theorem test_hyps_Devices : let s := { qs (q0 []) with vds := [] }
    let x : W32 := 0x80000003#32
    let other := { s with vds := [(256, { Vd.empty with en := true })] }
    let on := { qs (q0 []) (some (blk (gr fr))) with parts := [(0, part0)] }
    let r := { s with vds := [(0, { Vd.empty with resetting := some 0 })] }
    let rb := { r with cores := on.cores }
    (s.vd 0 0).en = false ∧ x.getLsbD 31 = true ∧ (∀ g ∈ List.range 32, (s.vd g 0).resetting = none ∧ (s.vd g 0).en = false) ∧
    (x.extractLsb' 16 6).toNat / 2 = 0 ∧
    goes (exec (.vdEnable 0 0 x) s) (fun t => (t.vd 0 0).en && (t.vd 0 0).weight == 3#8) = true ∧
    (other.vd 1 0).en = true ∧ (∀ g ∈ List.range 32, (other.vd g 0).resetting = none) ∧
    goes (exec (.vdEnable 0 0 x) other) (fun t => !(t.vd 0 0).en) = true ∧
    (on.vd 0 0).en = true ∧ (on.vd 0 0).resetting = none ∧
    goes (exec (.vdDisable 0 0 0#32) on) (fun t => !(t.vd 0 0).en && (t.vd 0 0).gen == 1#16 && (t.block? 0).any (·.st == .retiring)) = true ∧
    (List.range 32).find? (fun g => (r.vd g 0).resetting.isSome) = some 0 ∧ r.cores.all (·.2.block.isNone) = true ∧
    goes (exec (.vdResetComplete 0) r) (fun t => (t.vd 0 0).resetting.isNone) = true ∧
    rb.cores.any (fun y => y.2.block.any fun b => b.fe == 0 && b.vd == 0) = true ∧
    goes (exec (.vdResetComplete 0) rb) (fun t => t == rb) = true := by
  decide +kernel

/-- The record of a reset that was held for room is written, and the reset is over. -/
theorem test_hyps_ResetHeld : let d : Vd := { Vd.empty with resetting := some 0 }
    let s := { qs (q0 []) with vds := [(0, d)], parts := [(0, { part0 with heldRecs := [(0x29#512 <<< 120)] })] }
    s.resetHeld 0 0 = true ∧ (0x29#512 <<< 120).extractLsb' 120 8 = 0x29#8 ∧ ((0x29#512 <<< 120).extractLsb' 168 8).toNat = 0 ∧
    (s.part 0).ring.length < (s.part 0).ringSize ∧ { s with parts := [(0, part0)] }.resetHeld 0 0 = false ∧
    goes (exec (.recordWrite 0) s) (fun t => (t.vd 0 0).resetting.isNone) = true := by
  decide +kernel

/-- Place-table words, loss-scale registers good and bad, a member table, CTMO and a reserved word. -/
theorem test_hyps_ControlTables : let s := qs (q0 [])
    let b := qs (q0 []) (some (blk (gr fr)))
    b.blocksOf 0 0 ≠ [] ∧ goes (exec (.placeTableWrite 0 0 32 0#32) b) (fun t => t == b) = true ∧
    s.blocksOf 0 0 = [] ∧ goes (exec (.placeTableWrite 0 0 32 0x8180#32) s) (fun t => (t.vd 0 0).placeWord 32 == 0x8180) = true ∧
    goes (exec (.placeTableWrite 0 0 32 0x80#32) s) (fun t => (t.vd 0 0).placeWord 32 == 0x83828180) = true ∧
    (s.vd 0 0).lsSet 0 0xC0000000#32 = none ∧ ((s.vd 0 0).lsSet 5 7#32).isSome = true ∧
    goes (exec (.lossScaleHostWrite 0 0 5 7#32) s) (fun t => (t.vd 0 0).lsstep == 7#32) = true ∧
    goes (exec (.memberTableWrite 0 0 0 3#32) s) (fun t => tblGet 0#32 (t.member 0 0 0).words 0 == 3#32) = true ∧
    goes (exec (.capmWrite 0 0x2000004 0x3FFFF#32) s) (fun t => (t.core 0).capm == 0x3FFFF00000000#64) = true ∧
    goes (exec (.registerWrite 1 0x3000040 7#32) s) (fun t => (t.die 1).ctmo == 7#16) = true ∧
    goes (exec (.registerWrite 1 0x280 7#32) s) (fun t => t == s) = true := by
  decide +kernel

/-- A harbourmaster starts; the resets of a partition, a device, all devices, the module. -/
theorem test_hyps_Restarts : let s := { qs (q0 []) with
      mem := tables, supers := [(1, { hmOf f1 with run := false })], parts := [(1, { part0 with hmroot := 0x10000, hmdesc := 0x200#64 })]
      vds := [(0, { Vd.empty with en := true, part := 1#6 })] }
    s.hears 0 = true ∧ (s.part 1).en = true ∧ tblFind s.supers 1 = some { hmOf f1 with run := false } ∧
    ((superCleared s 1 { hmOf f1 with run := false }).xlatPeek 0x10001 0x200#64 .read true).isSome = true ∧
    descWidth (leNat (s.mscRead 0x200 64)) = none ∧
    goes (exec (.hmRestart 1 1#32) s) (fun t => (tblFind t.supers 1).any fun h => h.run && h.grp.frags.map (·.pc) == [0]) = true ∧
    goes (exec (.hmRestart 1 0#32) s) (fun t => t == s) = true ∧
    goes (exec (.prst 1) s) (fun t => (t.part 1).resetting == [0] && (t.vd 0 0).resetting == some 2) = true ∧
    s.feOf 0 = some 0 ∧ (s.vd 0 0).resetting = none ∧ goes (exec (.vdrst 0) s) (fun t => (t.vd 0 0).resetting == some 1) = true ∧
    s.genable = true ∧ goes (exec (.genableClear 0#32) s) (fun t => !t.genable && (t.vd 0 0).resetting.isSome) = true ∧
    goes (exec (.genableClear 1#32) { s with genable := false, haltedAt := some s.clock }) (fun t => !t.genable) = true ∧
    goes (exec (.genableClear 1#32) { s with genable := false, haltedAt := some 5 }) (fun t => t.genable) = true ∧
    goes (exec (.modrst 0xB007#32) s) (fun t => t.parts == [] && t.mem == s.mem) = true ∧
    goes (exec (.modrst 0xB006#32) s) (fun t => t == s) = true := by
  decide +kernel

/-- A stale walk ends without an entry in a TLB; a TLBINV of everything makes a walk that has found its page stale. -/
theorem test_hyps_StaleWalks : let f := { fr with wait := .walk 1 0x40#64 1 none }
    let w : Walk := ⟨1, 0, 0x40#64, .read, 0, some (.leaf ⟨0x14000, 0xF180000000000000, 0, 65536⟩), true⟩
    let bare (s : State) : State := { s with cores := s.cores.map fun x => (x.1, { x.2 with tlb := [] }) }
    let s : State := bare { wf f with walks := [w] }
    let u := { qs (q0 []) (some (blk (gr f))) with walks := [{ w with stale := false }] }
    (s.walks.find? fun x => x.id == w.id) = some w ∧ (walkWaiters s 1).map (fun x => (x.1.agent, x.2.2.1)) = [(me, 1)] ∧ s.ctx? me = some (cf f) ∧
    goes (exec (.pageWalkDone 1) s) (fun t => (t.core 0).tlb == [] && t.clusterTlb == s.clusterTlb && sees t me fun c => c.f.wait == .none && c.f.pc == 32) = true ∧
    accepts u 0 (hd 4 0 (2 ^ 64)) = true ∧ (hd 4 0 (2 ^ 64)).getLsbD 320 = true ∧
    goes (exec (.tlbinv 0 (hd 4 0 (2 ^ 64))) u) (fun t => t.walks.map (·.stale) == [true] && t.commands.map (·.walks) == [[1]]) = true := by
  decide +kernel

/-- A count beyond a lowered QWDT expires at once, unless bit 31 clears it. -/
theorem test_hyps_QwdtExpires : let x : Queue := { q0 [ent 1 7 true 0 (some (grid 2 1 0))] with count := 560000000 }
    let s := { qs x with cores := [] }
    s.hears 0 = true ∧ (s.queue 0 0).entries.any Entry.runs = true ∧ 112000000 * ((5#32).setWidth 16 : BitVec 16).toNat ≤ (s.queue 0 0).count ∧
    goes (exec (.qwdtWrite 0 0 5#32) s) (fun t => (t.queue 0 0).wdx) = true ∧
    goes (exec (.qwdtWrite 0 0 6#32) s) (fun t => !(t.queue 0 0).wdx) = true ∧
    goes (exec (.qwdtWrite 0 0 0x80000005#32) s) (fun t => !(t.queue 0 0).wdx && (t.queue 0 0).count == 0) = true := by
  decide +kernel

/-- A module reset over a committed store and a dirty line of a slice, whose bytes memory keeps (R57). -/
theorem test_hyps_ModuleReset : let i : SItem := ⟨1, 2#64, .glob 0x300 0x300 0 0 65536, .bytes [5#8], false⟩
    let s := { wq [entry [i]] with l2 := [(0, [(8, line 6#8)])], dies := [(0, { Die.empty with up := 0x1F#5 })] }
    s.hears 0 = true ∧ s.committedCount ≠ 0 ∧
    goes (exec (.modrst 0xB007#32) s) (fun t => t.mscByte 0x300 == 5#8 && t.mscByte 0x400 == 6#8 && t.cores == [] && t.l2 == []) = true := by
  decide +kernel

/-- A held COLL whose table breaks performs without an effect. -/
theorem test_hyps_CollectivesBroken : let s := inColl (heldE 1#32) { tabOf 0xFFFFFFFF#32 kids with broken := true } []
    s.engineQueue (.coll 0 0) = [heldE 1#32] ∧ (heldE 1#32).page = none ∧
    (collJob s (.coll 0 0) (heldE 1#32)).any (fun j => j.tab.broken && j.tab.children == kids) = true ∧
    goes (exec (.triggerMet 0 0) s) (fun t => (t.engineQueue (.coll 0 0)).map (fun e => e.run.map fun r => (r.aborted, r.chunks.length)) == [some (true, 0)]) = true := by
  decide +kernel

/-- PREF and CCTL wait where every walker of their partition is at work; a full slice gives up a line that is marked first. -/
theorem test_hyps_WalkersBusy : let u := me' .none (vr 4) no no .b32 (imm := 0x100) (g := at1)
    let w (i : Nat) : Walk := ⟨i, 0, 0#64, .read, 0, some (.fail 4 0 0x20000 65536), false⟩
    let s := { s0 with cores := s0.cores.map (fun x => (x.1, { x.2 with tlb := [] })), walks := (List.range 64).map w }
    (∀ i ∈ [Instr.pref u, .cctlWb u, .cctlInv u], issuesB s i c0 = true ∧
      goes (exec i s) (fun t => t.l2 == s.l2 && sees t me fun c => c.f.pc == 32 && c.f.wait == .perform) = true) ∧
    (s.xlatLooks c0 ((c0.units u.toCommon false).map fun l => c0.globalVa l u.a.op u.imm)).isNone = true ∧ s.fifosEmpty c0 = true ∧
    sliceSorted { s with l2 := [(0, [(2, line 1#8), (4, { line 1#8 with first := true })])] } 0 ∧
    victimOf [(2, line 1#8), (4, { line 1#8 with first := true })] = some 4 ∧ victimOf [(2, line 1#8), (4, line 1#8)] = some 2 := by
  unfold sliceSorted; decide +kernel

/-- LAND admits the absent code of D, with which it writes no register (R44, log entry 17). -/
theorem test_land_absent : let w := me' .none no no no .i32 (tag := 3)
    let s := wg { gr fr with tags := [(3, { Tag.empty with st := .landed, mask := 0xF#64, data := [(0, [1#8, 0#8, 0#8, 0#8])] })] }
    (Instr.land w).wf = true ∧ ends (exec (.land w) s) 48 (fun c => c.g.lanes == (gr fr).lanes) = true := by
  decide +kernel

/-- A configuration record of a good form: version 1, 16,960 bytes, every field else zero. -/
def goodRecord : List Byte := [1#8, 0#8, 0#8, 0#8, 0x40#8, 0x42#8] ++ List.replicate 16954 0#8
def ports : State := { State.reset with dies := (List.range 32).map fun d => (d, { Die.empty with up := 0x10#5 }) }

theorem test_hyps_FabricAndBoot : let up := { ports with dies := [(0, { Die.empty with up := 0x11#5 })] }
    (up.die 0).up.getLsbD 0 = true ∧ goes (exec (.linkDown 0 0) up) (fun t => (t.die 0).down.getLsbD 0 && !(t.die (linkPeer 0 0)).up.getLsbD (linkBack 0)) = true ∧
    goes (exec (.linkUp 0 0) ports) (fun t => (t.die 0).up.getLsbD 0) = true ∧
    goes (exec (.securityAlarm 1#5) { s0 with haltArm := true }) (fun t => t.alarm && !t.genable) = true ∧
    ports.boot = .waiting ∧ portsTrained ports = true ∧ recordOk [] = false ∧
    (ports.die 0).up.getLsbD 4 = true ∧ ([] : List Byte).length ≤ 2 ^ 26 ∧
    goes (exec (.bootRecord ⟨[], [9#8]⟩ []) ports) (fun t => t.boot == .failed && t.record == ports.record && t.bootFrom == [9#8]) = true ∧
    (State.reset.die 0).up.getLsbD 4 = false ∧ goes (exec (.bootRecord ⟨[], []⟩ []) State.reset) (fun t => t == State.reset) = true ∧
    goes (exec (.selfTestDone []) { ports with boot := .testing }) (fun t => t.boot == .failed) = true := by
  decide +kernel

/-- The digest that FIPS 180-4 gives for the three bytes "abc". -/
theorem test_sha512 : (sha512 [0x61#8, 0x62#8, 0x63#8]).take 8 = [0xDD#8, 0xAF#8, 0x35#8, 0xA1#8, 0x93#8, 0x61#8, 0x7A#8, 0xBA#8] := by
  decide +kernel

theorem leNat_zero (n : Nat) : leNat (List.replicate n 0#8) = 0 := by
  induction n with
  | zero => rfl
  | succ n ih => simp [List.replicate_succ, leNat, ih]

/-- Its form passes the check; the signatures are values that the manual leaves open (R319), premises of the statement. -/
theorem test_hyps_BootRecord : recordOk goodRecord = true := by
  have z (o n : Nat) (h : 6 ≤ o) : recField goodRecord o n = 0 := by
    rw [recField, goodRecord, List.drop_append, List.drop_eq_nil_of_le (by simpa using h), List.nil_append, List.drop_replicate,
      List.take_replicate, leNat_zero]
  have l : goodRecord.length = 16960 := by rw [goodRecord, List.length_append, List.length_replicate]; rfl
  have a : recField goodRecord 0 4 = 1 ∧ recField goodRecord 4 4 = 16960 := by decide +kernel
  simp only [recordOk, l, a, z 8 8 (by decide), z 32 4 (by decide), z 36 28 (by decide), beq_self_eq_true, Bool.true_or,
    Bool.and_true, Nat.zero_div]
  rw [Bool.true_and, List.all_eq_true]
  intro i _
  rw [z _ _ (by omega)]
  rfl

/-! ### Words -/

/-- The decoder reads a word as an instruction. -/
def reads (w : Nat) (i : Instr) : Bool :=
  match decodeWord (BitVec.ofNat 128 w) with
  | .ok j => j == i
  | .error _ => false

/-- Words of the arith class, put together from R138, R143 to R149. -/
theorem test_words_arith : ([
    reads 0x0001D0240101C0000009000000000000 (.iadd (ar (V 2) (vr 0) (vr 1) no .i32)),
    reads 0x0041D0240101C000000C001700000000 (.iaddx (ar (V 2) (vr 0) (vr 1) no .n32 0 0 23)),
    reads 0x0081D0240101C0000009000000000000 (.isub (ar (V 2) (vr 0) (vr 1) no .i32)),
    reads 0x00C1D0240101C0000009000000000000 (.imul (ar (V 2) (vr 0) (vr 1) no .i32)),
    reads 0x0101D0240101C0000009000000000000 (.imulh (ar (V 2) (vr 0) (vr 1) no .i32)),
    reads 0x0141D024010140C00009000000000000 (.imad (ar (V 2) (vr 0) (vr 1) (vr 3) .i32)),
    reads 0x0181D0240101C0000009000000000000 (.imin (ar (V 2) (vr 0) (vr 1) no .i32)),
    reads 0x01C1D0240101C0000009000000000000 (.imax (ar (V 2) (vr 0) (vr 1) no .i32)),
    reads 0x0201D0240300C0000009000000000000 (.iabs (ar (V 2) (vr 0) no no .i32)),
    reads 0x0241D0240300C0000009000000000000 (.ineg (ar (V 2) (vr 0) no no .i32)),
    reads 0x0281D0240101C0000009020700000000 (.icmp (ar (V 2) (vr 0) (vr 1) no .i32 2 0 7)),
    reads 0x02C1D0240101C000000C030000000000 (.lea (ar (V 2) (vr 0) (vr 1) no .n32 3)),
    reads 0x0401D0240101C000000F000000000000 (.and (ar (V 2) (vr 0) (vr 1) no .b32)),
    reads 0x0441D0240101C000000F000000000000 (.or (ar (V 2) (vr 0) (vr 1) no .b32)),
    reads 0x0481D0240101C000000F000000000000 (.xor (ar (V 2) (vr 0) (vr 1) no .b32)),
    reads 0x04C1D0240300C000000F000000000000 (.not (ar (V 2) (vr 0) no no .b32)),
    reads 0x0501D024010140C0000F00CA00000000 (.tern (ar (V 2) (vr 0) (vr 1) (vr 3) .b32 0 0 202)),
    reads 0x0601D0240101C000000F000000000000 (.shl (ar (V 2) (vr 0) (vr 1) no .b32)),
    reads 0x0641D0240101C000000F000000000000 (.shr (ar (V 2) (vr 0) (vr 1) no .b32)),
    reads 0x0681D0240101C0000009000000000000 (.sar (ar (V 2) (vr 0) (vr 1) no .i32)),
    reads 0x06C1D0240101C000000F000000000000 (.rol (ar (V 2) (vr 0) (vr 1) no .b32)),
    reads 0x0701D024010140C0000F010000000000 (.funsh (ar (V 2) (vr 0) (vr 1) (vr 3) .b32 1)),
    reads 0x0801D0240101C000000C000000000000 (.bfx (ar (V 2) (vr 0) (vr 1) no .n32)),
    reads 0x0841D024010140C0000F000000000000 (.bfi (ar (V 2) (vr 0) (vr 1) (vr 3) .b32)),
    reads 0x0881D0240300C000000F000000000000 (.popc (ar (V 2) (vr 0) no no .b32))] ++ [
    reads 0x08C1D0240300C000000F000000000000 (.clz (ar (V 2) (vr 0) no no .b32)),
    reads 0x0901D0240300C000000F000000000000 (.brev (ar (V 2) (vr 0) no no .b32)),
    reads 0x0941D024010140C0000F000000000000 (.bytx (ar (V 2) (vr 0) (vr 1) (vr 3) .b32)),
    reads 0x0A01D02C0700C000000F000000001234 (.mov (ar (V 2) im no no .b32 0 4660)),
    reads 0x0A41D0240101C000000F009000000000 (.sel (ar (V 2) (vr 0) (vr 1) no .b32 0 0 144)),
    reads 0x0A81D0240300C00000090D0000000000 (.cvti (ar (V 2) (vr 0) no no .i32 13))]).all id = true := by
  decide +kernel

/-- Words of the float class, put together from R138, R143 to R149. -/
theorem test_words_float : ([
    reads 0x2001D0240101C0000001000000000000 (.fadd (ar (V 2) (vr 0) (vr 1) no .f32)),
    reads 0x2041D0240101C0000001000000000000 (.fmul (ar (V 2) (vr 0) (vr 1) no .f32)),
    reads 0x2081D024010140C00001000000000000 (.ffma (ar (V 2) (vr 0) (vr 1) (vr 3) .f32)),
    reads 0x20C1D0240101C0000001000000000000 (.fmin (ar (V 2) (vr 0) (vr 1) no .f32)),
    reads 0x2101D0240101C0000001000000000000 (.fmax (ar (V 2) (vr 0) (vr 1) no .f32)),
    reads 0x2141D0240101C0000001010700000000 (.fcmp (ar (V 2) (vr 0) (vr 1) no .f32 1 0 7)),
    reads 0x2181D0240300C0000001000000000000 (.frnd (ar (V 2) (vr 0) no no .f32)),
    reads 0x21C1D0240300C0000000010000000000 (.fcvt (ar (V 2) (vr 0) no no .f64 1)),
    reads 0x2201D0240300C0000009010000000000 (.f2i (ar (V 2) (vr 0) no no .i32 1)),
    reads 0x2241D0240300C0000001090000000000 (.i2f (ar (V 2) (vr 0) no no .f32 9)),
    reads 0x2281D0240101C0000001000000000000 (.fdiv (ar (V 2) (vr 0) (vr 1) no .f32)),
    reads 0x22C1D0240300C0000001000000000000 (.fsqrt (ar (V 2) (vr 0) no no .f32)),
    reads 0x2401D0240300C0000001000000000000 (.frcp (ar (V 2) (vr 0) no no .f32)),
    reads 0x2441D0240300C0000001000000000000 (.frsq (ar (V 2) (vr 0) no no .f32)),
    reads 0x2481D0240300C0000001000000000000 (.fexp2 (ar (V 2) (vr 0) no no .f32)),
    reads 0x24C1D0240300C0000001000000000000 (.flog2 (ar (V 2) (vr 0) no no .f32)),
    reads 0x2501D0240300C0000001000000000000 (.fsin (ar (V 2) (vr 0) no no .f32)),
    reads 0x2541D0240300C0000001000000000000 (.fcos (ar (V 2) (vr 0) no no .f32)),
    reads 0x2581D0240300C0000001000000000000 (.ftanh (ar (V 2) (vr 0) no no .f32)),
    reads 0x2601D0240300C0000001000000000000 (.fclass (ar (V 2) (vr 0) no no .f32)),
    reads 0x2641D0240101C0000001000000000000 (.fscalb (ar (V 2) (vr 0) (vr 1) no .f32)),
    reads 0x2681D0240300C0000001010000000000 (.ffrexp (ar (V 2) (vr 0) no no .f32 1)),
    reads 0x4001D024010140C00002000000000000 (.dot2 (ar (V 2) (vr 0) (vr 1) (vr 3) .bf16)),
    reads 0x4041D024010140C00004000000000000 (.dot4 (ar (V 2) (vr 0) (vr 1) (vr 3) .e4m3)),
    reads 0x4081D024010140C00006000000000000 (.dot8 (ar (V 2) (vr 0) (vr 1) (vr 3) .q4))] ++ [
    reads 0x4201D0242101C0000001000700000000 (.qcvt (ar (V 2) (vr 8) (vr 1) no .f32 0 0 7)),
    reads 0x4241D0840101C0000001000000000000 (.dqcvt (ar (V 8) (vr 0) (vr 1) no .f32)),
    reads 0x4281D0240300C0000001010000000000 (.sclmax (ar (V 2) (vr 0) no no .f32 1))]).all id = true := by
  decide +kernel

/-- Words of the lanes class, put together from R138, R143 to R149. -/
theorem test_words_lanes : ([
    reads 0x5001D0240101C000000F010700000000 (.lrd (ar (V 2) (vr 0) (vr 1) no .b32 1 0 7)),
    reads 0x5041D02C0300C000000F030700000000 (.pcol (ar (V 2) no no no .b32 3 0 7)),
    reads 0x5081D0240300C0000009010000000000 (.redx (ar (V 2) (vr 0) no no .i32 1)),
    reads 0x50C1D0240300C0000009080000000000 (.scanx (ar (V 2) (vr 0) no no .i32 8)),
    reads 0x5101D0240101C0000009000000000301 (.cmpx (ar (V 2) (vr 0) (vr 1) no .i32 0 769)),
    reads 0x5141D0240300C000000F010700000000 (.peer (ar (V 2) (vr 0) no no .b32 1 0 7)),
    reads 0x7001F00C0300C000000F000300CA0210 (.plop (ar .none no no no .b32 0 13238800 3)),
    reads 0x7041D02C0300C000000F00000000007F (.p2s (ar (V 2) no no no .b32 0 127)),
    reads 0x7081F0040300C000000F000000000055 (.s2p (ar .none (vr 0) no no .b32 0 85)),
    reads 0x7201F00C0700C000000F000000000040 (.rgrowWait (ar .none im no no .b32 0 64)),
    reads 0x7201F00C0700C000000F010300000040 (.rgrowTry (ar .none im no no .b32 1 64 3)),
    reads 0x7241F0080B00C000000F000000000000 (.rshrink (ar .none (sr 2) no no .b32)),
    reads 0x7281E02C0300C000000F000000000000 (.rqry (ar (S 2) no no no .b32)),
    reads 0x7401F0080B00C000000F000000000000 (.fmtset (ar .none (sr 2) no no .b32)),
    reads 0x7401F00C0700C000000F010000000002 (.fmtsetRm (ar .none im no no .b32 1 2)),
    reads 0x7401F0040300C000000F020000000000 (.fmtsetSrs (ar .none (vr 0) no no .b32 2)),
    reads 0x7441E02C0300C000000F000000000000 (.fmtget (ar (S 2) no no no .b32)),
    reads 0x7441D02C0300C000000F020000000000 (.fmtgetSrs (ar (V 2) no no no .b32 2))]).all id = true := by
  decide +kernel

/-- Words of the control class, put together from R138, R143 to R149. -/
theorem test_words_control : ([
    reads 0x6001F00C0300C000000FE00000000040 (.bru (ct .none no 64 0 7 0)),
    reads 0x6041F00C0300C000000F201000000040 (.brd (ct .none no 64 2 1 0)),
    reads 0x6081F0040300C000000FE01800000000 (.brx (ct .none (vr 0) 0 3 7 0)),
    reads 0x60C1D02C0300C000000FE00000000040 (.call (ct (V 2) no 64 0 7 0)),
    reads 0x6101E0281300C000000FE00000000000 (.callx (ct (S 2) (sr 4) 0 0 7 0)),
    reads 0x6141F0080B00C000000FE00000000000 (.ret (ct .none (sr 2) 0 0 7 0)),
    reads 0x6181F00C0300C000000F000000000000 (.exit (ct .none no 0 0 0 0)),
    reads 0x6201F00C0300C000000F002800000040 (.rjset (ct .none no 64 5 0 0)),
    reads 0x6241F00C0300C000000F002800000000 (.rjwait (ct .none no 0 5 0 0)),
    reads 0x6281E02C0300C000000F002800000000 (.rjmovRead (ct (S 2) no 0 5 0 0)),
    reads 0x6281F0080B00C000000F012800000000 (.rjmovWrite (ct .none (sr 2) 0 5 0 1)),
    reads 0x6301E02C0300C000000F000000000005 (.elect (ct (S 2) no 5 0 0 0)),
    reads 0x6401F00C0300C000000F000000000000 (.nop (ct .none no 0 0 0 0)),
    reads 0x6441F00C0300C000000F00000000FFFF (.sbeg (ct .none no 65535 0 0 0)),
    reads 0x6481F00C0300C000000F000000000000 (.yield (ct .none no 0 0 0 0)),
    reads 0x64C1F00C0700C000000F000000000064 (.sleep (ct .none im 100 0 0 0))]).all id = true := by
  decide +kernel

/-- Words of the memory class, put together from R138, R143 to R149. -/
theorem test_words_memory : ([
    reads 0x8001F0040B00C0000003489300000010 (.ld (me' .none (vr 2) no no .f16 16 .acq .stk 9 3 0)),
    reads 0x8041D04C0300C0000009000300000000 (.land (me' (V 4) no no no .i32 0 .plain .blk 0 3 0)),
    reads 0x8081F0040904C0000009641000000000 (.st (me' .none (vr 2) (vr 4) no .i32 0 .rel .clu 1 0 0)),
    reads 0x8101D0240300C000000E000000000041 (.lds (me' (V 2) (vr 0) no no .n8 65 .plain .blk 0 0 0)),
    reads 0x8141F0040101C0000009000000000004 (.sts (me' .none (vr 0) (vr 1) no .i32 4 .plain .blk 0 0 0)),
    reads 0x8181D0240300C000000F000000000008 (.ldc (me' (V 2) (vr 0) no no .b32 8 .plain .blk 0 0 0)),
    reads 0x8201D0280901C0000009022000000000 (.gath (me' (V 2) (sr 2) (vr 1) no .i32 0 .plain .blk 2 0 2)),
    reads 0x8241F008090140C00009032000000000 (.scat (me' .none (sr 2) (vr 1) (vr 3) .i32 0 .plain .blk 2 0 3)),
    reads 0x8281F0080A04C000000F000000000040 (.ldgs (me' .none (sr 2) (sr 4) no .b32 64 .plain .blk 0 0 0)),
    reads 0x8301F0040B00C000000F001000000000 (.pref (me' .none (vr 2) no no .b32 0 .plain .blk 1 0 0)),
    reads 0x8341F0040B00C000000F000000000000 (.cctlWb (me' .none (vr 2) no no .b32 0 .plain .blk 0 0 0)),
    reads 0x8341F0040B00C000000F001000000000 (.cctlInv (me' .none (vr 2) no no .b32 0 .plain .blk 1 0 0)),
    reads 0x8341F00C0300C000000F002000000000 (.cctlWball (me' .none no no no .b32 0 .plain .blk 2 0 0)),
    reads 0x8341F00C0300C000000F003000000000 (.cctlInvall (me' .none no no no .b32 0 .plain .blk 3 0 0)),
    reads 0x8401F0040904C040000F148000000040 (.tst (me' .none (vr 2) (vr 4) im .b32 64 .plain .sys 8 0 0)),
    reads 0x8441F0040904C040000F000000000040 (.tld (me' .none (vr 2) (vr 4) im .b32 64 .plain .blk 0 0 0)),
    reads 0x8601D0640904C0000009880000000000 (.atom (me' (V 6) (vr 2) (vr 4) no .i32 0 .ar .stk 0 0 0)),
    reads 0x8641D0640104C0000009200000000000 (.atoms (me' (V 6) (vr 0) (vr 4) no .i32 0 .rlx .blk 0 0 0)),
    reads 0x8681F0040904C0000009341000000000 (.red (me' .none (vr 2) (vr 4) no .i32 0 .rlx .sys 1 0 0)),
    reads 0x8801F00C0300C000000FB00000000000 (.fence (me' .none no no no .b32 0 .sc .pod 0 0 0)),
    reads 0xA001F00C0301C000000F045000000004 (.bara (me' .none no im no .b32 4 .plain .clu 5 0 0)),
    reads 0xA041F00C0300C000000F005000000000 (.barw (me' .none no no no .b32 0 .plain .blk 5 0 0)),
    reads 0xA081F00C0202C000000F00F000000000 (.bars (me' .none no (sr 2) no .b32 0 .plain .blk 15 0 0)),
    reads 0xA201F0040101C000000F000000000000 (.mbinit (me' .none (vr 0) (vr 1) no .b32 0 .plain .blk 0 0 0)),
    reads 0xA241D0240101C000000F000000000000 (.mbarv (me' (V 2) (vr 0) (vr 1) no .b32 0 .plain .blk 0 0 0))] ++ [
    reads 0xA281F0040101C000000F003000000000 (.mbtst (me' .none (vr 0) (vr 1) no .b32 0 .plain .blk 3 0 0)),
    reads 0xA2C1F0040101C000000F000000000000 (.mbwait (me' .none (vr 0) (vr 1) no .b32 0 .plain .blk 0 0 0))]).all id = true := by
  decide +kernel

/-- Words of the engines class, put together from R138, R143 to R149. -/
theorem test_words_engines : ([
    reads 0xB001F0080B00C000000F002000000000 (.tshldGl (en .none (sr 2) no no .b32 0 32 0)),
    reads 0xB001F0080B00C000000F200000000000 (.tshldSp (en .none (sr 2) no no .b32 1 0 0)),
    reads 0xB041F00C0700C000000F000300000007 (.tshpSet (en .none im no no .b32 0 3 7)),
    reads 0xB041F00C0700C000000F204400000007 (.tshpAdd (en .none im no no .b32 1 68 7)),
    reads 0xB041F0080B00C000000F400200000000 (.tshpAdd64 (en .none (sr 2) no no .b32 2 2 0)),
    reads 0xB081F0080B00C000000F000000000000 (.tshstGl (en .none (sr 2) no no .b32 0 0 0)),
    reads 0xB081F0080B00C000000F200000000000 (.tshstSp (en .none (sr 2) no no .b32 1 0 0)),
    reads 0xB201E0281205C000000F002000000000 (.cpy (en (S 2) (sr 4) (sr 5) no .b32 0 32 0)),
    reads 0xB401F00C0700C000000F000300000001 (.gset (en .none im no no .b32 0 3 1)),
    reads 0xB401F00C0300C000000F200300000000 (.gsetClr (en .none no no no .b32 1 3 0)),
    reads 0xB441F00C0300C000000F004000000000 (.qfncCq (en .none no no no .b32 0 64 0)),
    reads 0xB441F00C0300C000000F200000000000 (.qfncMq (en .none no no no .b32 1 0 0)),
    reads 0xB441F00C0300C000000F400000000000 (.qfncKq (en .none no no no .b32 2 0 0)),
    reads 0xB481F00C0300C000000F004000000000 (.qwait (en .none no no no .b32 0 64 0)),
    reads 0xC001F0041300C0000002001000000000 (.mldb (en .none (vr 4) no no .bf16 0 16 0)),
    reads 0xC041E0281205C0000002404000000000 (.mma (en (S 2) (sr 4) (sr 5) no .bf16 2 64 0)),
    reads 0xC081E0281205C0000002602200000000 (.macc (en (S 2) (sr 4) (sr 5) no .bf16 3 34 0)),
    reads 0xC0C1F0081300C000000F000000000000 (.mtbl (en .none (sr 4) no no .b32 0 0 0)),
    reads 0xD001E0281300C0000001400000000000 (.coll (en (S 2) (sr 4) no no .f32 2 0 0)),
    reads 0xD041F0080A04C000000C000000000000 (.sigsSet (en .none (sr 2) (sr 4) no .n32 0 0 0)),
    reads 0xD041F0080A04C000000C200000000000 (.sigsAdd (en .none (sr 2) (sr 4) no .n32 1 0 0))]).all id = true := by
  decide +kernel

/-- Words of the system class, put together from R138, R143 to R149. -/
theorem test_words_system : ([
    reads 0xD801E0280E04C000000F000000000000 (.lsadjStep (sy (S 2) (sr 3) (sr 4) 0 0 0)),
    reads 0xD801F0080F00C000000F010200000000 (.lsadjSet (sy .none (sr 3) no 1 2 0)),
    reads 0xD801E02C0300C000000F020500000000 (.lsadjGet (sy (S 2) no no 2 5 0)),
    reads 0xD841E02C0300C000000F000000000000 (.ovfrRd (sy (S 2) no no 0 0 0)),
    reads 0xD841E02C0300C000000F010000000000 (.ovfrRdc (sy (S 2) no no 1 0 0)),
    reads 0xE001F00C0300C000000F000000001234 (.trap (sy .none no no 0 0 4660)),
    reads 0xE041E0280F00C000000F000000000001 (.tret (sy (S 2) (sr 3) no 0 0 1)),
    reads 0xE081E02C0300C000000F000000000005 (.ctlr (sy (S 2) no no 0 0 5)),
    reads 0xE0C1F0080B00C000000F000000000001 (.ctlw (sy .none (sr 2) no 0 0 1)),
    reads 0xE101E02C0300C000000F030000000000 (.plcq (sy (S 2) no no 3 0 0)),
    reads 0xE141E02C0300C000000F000000000000 (.capq (sy (S 2) no no 0 0 0)),
    reads 0xE181E02C0300C000000F010000000000 (.clkr (sy (S 2) no no 1 0 0)),
    reads 0xE1C1F00C0300C000000F000000000000 (.brk (sy .none no no 0 0 0)),
    reads 0xE201F00C0300C000000F000000000000 (.halt (sy .none no no 0 0 0))]).all id = true := by
  decide +kernel

/-- Words that R43, R44, R139 to R149 call illegal: a reserved near index, a reserved index of level 3, an odd pair, a
destination K, a destination immediate, RND 6, a lookahead where none is honoured, opcodes without a name, a third source of
IADD, a reserved modifier, KIND 6. -/
theorem test_illegal_words : ([
    0x0001D0202101C0000009000000000000,
    0x0001D02C0901C0000009000000000000,
    0x0001D0240504C0000008000000000000,
    0x0001E4040101C0000009000000000000,
    0x0001F0140101C0000009000000000000,
    0x2001D0240101C0000001C00000000000,
    0x0005D0240101C0000009000000000000,
    0xE241D0240101C0000009000000000000,
    0xF001D0240101C0000009000000000000,
    0x0001D024010140000009000000000000,
    0x0001D0240101C03C0009000000000000,
    0x8001F0040B00C0000009C00000000000].all fun w => match decodeWord (BitVec.ofNat 128 w) with
      | .ok _ => false
      | .error _ => true) = true := by
  decide +kernel

/-! An ill-formed term for each kind of check, that the check refuses (R139 to R148, and the entries). -/

/-- The check refuses the instruction, and the decoder its word. -/
def bad (i : Instr) : Bool := !i.wf && (encode i).all fun w => match decodeWord w with
  | .ok _ => false
  | .error _ => true

theorem test_wf_refuses : ([
    (.iadd (ar (V 2) no (vr 1) no .i32)), (.iadd (ar (V 2) (vr 0) (vr 1) (vr 3) .i32)), (.iadd (ar (V 2) (vr 0) (vr 1) no .f32)),
    (.iadd (ar (V 3) (vr 0) (vr 2) no .i64)), (.iadd (ar (S 2) (vr 0) (sr 1) no .i32)), (.iadd (ar (V 2) (vr 0) (vr 1) no .i32 0 5)),
    (.iadd { ar (V 2) (vr 0) (vr 1) no .i32 with la := 1#4 }), (.iadd { ar (V 2) (vr 0) (vr 1) no .i32 with rnd := .rtz }),
    (.iadd (ar (V 2) (vr 0) im no .i16 0 0x10000)), (.iadd (ar (V 2) ⟨.vec 0, .packed, false, true⟩ (vr 1) no .n32)),
    (.iadd (ar (V 2) ⟨.vec 0, .sel 2, false, false⟩ (vr 1) no .i16)), (.iadd { ar (V 2) (vr 0) (vr 1) no .i64 with sat := true }),
    (.iaddx (ar .none (vr 0) (vr 1) no .n32)), (.icmp (ar .none (vr 0) (vr 1) no .i32 6 0 7)), (.lea (ar (V 2) (vr 0) (vr 1) no .n32 8)),
    (.shl (ar (V 2) (vr 0) (vr 1) no .i32)), (.funsh (ar (V 2) (vr 0) (vr 1) (vr 3) .b32 4)), (.mov (ar (V 2) (vr 0) (vr 1) no .b32)),
    (.sel (ar (S 2) (sr 0) (sr 1) no .b32)), (.cvti (ar (V 2) (vr 0) no no .i32 1)), (.fadd { ar (V 2) (vr 0) (vr 1) no .f32 with rnd := .sr }),
    (.fcvt (ar (V 2) (vr 0) no no .f32 1)), (.f2i (ar (V 2) (vr 0) no no .i32 4)), (.fclass (ar (V 2) (vr 0) no no .f32 2)),
    (.dot2 (ar (V 2) (vr 0) (vr 1) (vr 3) .f32)), (.qcvt (ar (V 2) (vr 1) (vr 0) no .f32 0 0 7)), (.lrd (ar (S 2) (sr 0) (sr 1) no .b32 0 0 7)),
    (.pcol (ar (V 2) no no no .b32 0 0 7)), (.cmpx (ar (V 2) (vr 0) (vr 1) no .i32 0 0x101)), (.peer (ar (V 2) (vr 0) no no .b32 3 0 7)),
    (.plop (ar (V 2) no no no .b32)), (.p2s (ar (V 2) no no no .b32 0 128)), (.s2p (ar .none im no no .b32)), (.rgrowWait (ar .none (vr 0) no no .b32)),
    (.rqry (ar (V 2) (vr 0) no no .b32)), (.fmtset (ar .none (vr 0) no no .b32)), (.fmtget (ar (V 2) no no no .b32 1))].all bad) = true := by
  decide +kernel

theorem test_wf_refuses_control : ([
    (.bru (ct .none no 8)), (.brd (ct (V 2) no 16)), (.brx (ct .none no)), (.call (ct .none no 16)), (.exit (ct .none no 0 0 1)),
    (.rjset (ct .none no 16 0 0 0 never)), (.rjwait (ct .none no 0 1 0 0 at1)), (.rjmovRead (ct (S 3) no 0 0 0)), (.elect (ct (S 2) no 8 0 0)),
    (.sbeg (ct .none no 65536 0 0)), (.sleep (ct .none (vr 0) 0 0 0)), (.nop (ct .none no 1 0 0)),
    (.ld (me' (V 2) (vr 2) no no .i32)), (.ld (me' .none (vr 1) no no .i32)), (.ld (me' .none (vr 2) no no .i32 0 .rel)),
    (.ld (me' .none (vr 2) no no .i64 0 .plain .blk 8)), (.st (me' .none (vr 2) im no .i32)), (.st (me' .none (vr 2) (vr 4) no .i32 0 .plain .clu)),
    (.lds (me' (V 2) (vr 0) no no .i32 0 .plain .blk 0 1)), (.sts (me' .none (vr 0) (vr 1) no .i32 0x13 .plain .blk 0 0 1)),
    (.gath (me' (V 2) (sr 2) (vr 1) no .i32)), (.ldgs (me' .none (vr 2) (sr 4) no .b32)), (.cctlWb (me' .none no no no .b32)),
    (.tst (me' .none (vr 2) (vr 4) (vr 6) .b32)), (.atom (me' .none (vr 2) (vr 4) no .i32 0 .ar)), (.red (me' .none (vr 2) (vr 4) no .i8 0 .rlx)),
    (.fence (me' .none no no no .b32)), (.bara (me' .none no no no .b32 0 .plain .sys)), (.barw (me' .none no im no .b32)),
    (.mbinit (me' .none no (vr 1) no .b32)), (.mbtst (me' .none (vr 0) (vr 1) no .b32 0 .plain .blk 8)),
    (.tshpSet (en .none im no no .b32 0 11)), (.cpy (en (V 2) (sr 4) (sr 5) no)), (.gset (en .none im no no .b32 0 16)),
    (.qwait (en .none no no no .b32 0 1)), (.mldb (en .none (vr 1) no no .bf16)), (.mma (en (S 2) (sr 4) (sr 5) no .bf16 1)),
    (.macc (en (S 2) (sr 4) (sr 5) no .f32 1)), (.coll (en (S 2) no no no .f32)), (.sigsSet (en .none (sr 2) (sr 4) no .b32)),
    (.lsadjStep (sy (V 2) (sr 3) (sr 4))), (.lsadjSet (sy .none (sr 3) no 1 6)), (.ovfrRd (sy (V 2) no no)), (.plcq (sy (S 2) no no 9)),
    (.trap (sy (S 2) no no)), (.tret (sy (S 2) im no)), (.ctlr (sy (S 2) no no 0 0 6))].all bad) = true := by
  decide +kernel

/-! ### The step -/

/-- `SHL.b32 V1, V0, #2` (R138, R149, R167), placed where the next step fetches. -/
def shl2 : State := State.reset.withFetchWord 128 0x0601D0140301C000000F000000000002

theorem test_step_runs_first : goes (Machine.step shl2) (fun t => t.agents.any fun a => sees t a fun c =>
    (c.g.lane 3).vreg 1 == 12#32 && c.f.pc == 16) = true := by
  decide +kernel

/-- The context, its fetched bytes and its instruction when it runs next in `s`. -/
def runsNext (s : State) (a : Agent) (i : Instr) : Bool :=
  sees s a fun c => ready s c && (match fetch s c with
    | .inl (bs, _) => (fetchTrap c bs).isNone && (match decodeFor c bs with
      | .inl j => i == j
      | _ => false)
    | _ => false)

/-- The harbourmaster at the placed word of an instruction, in a module without blocks, whose tender has come to it. -/
def onTender (i : Instr) : State :=
  let s := placed { wh f1 with cores := [] } i
  { s with agenda := [.tender 0 23], supers := [(0, { hmOf f1 with root := 0x10000 })], parts := [(0, part0)] }

theorem test_hyps_StepRuns : let i : Instr := .shl (ar (V 1) (vr 0) im no .b32 0 2)
    let s0 := { shl2 with agenda := [] }
    let cs := opportunities s0 0 0
    let picks := pickOf cs
    let n : Instr := .nop (ct .none no 0 0 0 0)
    let t := onTender n
    let t0 := { t with agenda := [] }
    shl2.agenda = [.quad 0 0] ∧ ((quadFrags s0 0 0).filter fun c => c.f.half.isSome) = [] ∧ picks.map (fun x => x.2) = [i] ∧
    picks.all (fun x => runsNext (quadCount s0 0 0 cs picks) x.1.agent i) = true ∧
    pickOf (opportunities State.reset 0 0) = [] ∧
    t.agenda = [.tender 0 23] ∧ (tblGet (0, 0) t.tenders (24 * 0 + 23)).2 ≤ t.clock ∧ tenderPick t0 0 23 = [(7, .hm 0)] ∧
    runsNext { t0 with tenders := tblSet (0, 0) t.tenders (24 * 0 + 23) ((7 + 1) % 8, (t.clock / 35 + 1) * 35) } (.hm 0) n = true ∧
    State.reset.agenda = [] ∧ State.reset.cores = [] ∧ State.reset.busyTenders = [] ∧ dueEvents State.reset = [] ∧
    serviceEvents State.reset = [] ∧ State.reset.l2 = [] ∧
    goes (Machine.step State.reset) (fun t => t.clock == 64) = true ∧
    goes (Machine.step { State.reset with agenda := [.event (.securityAlarm 1#5)] }) (fun t => t.alarm) = true := by
  refine ⟨?_, ?_, ?_, ?_, ?_, ?_, ?_, ?_, ?_, ?_⟩ <;> decide +kernel

theorem test_hyps_MemoryKept : shl2.mem.wf = true ∧ goes (Machine.step shl2) (fun t => t.mem.wf) = true := by
  decide +kernel

theorem test_hyps_RoundTrip : let i : Instr := .iadd (ar (V 2) (vr 0) (vr 1) no .i32)
    let w := 0x0001D0240240C0400009000000000000#128
    let w := (encode i).getD w
    i.wf = true ∧ encode i = some w ∧ reads w.toNat i = true ∧
    0x388 < (0xE241D0240240C0400009000000000000#128).toNat / 2 ^ 118 := by
  decide +kernel

theorem test_hyps_DestinationRule : let i : Instr := .iadd (ar (V 2) (vr 0) (vr 1) no .i32)
    let e := ar .none (vr 0) (vr 1) no .i32
    (opRow 0).isSome = true ∧ (i.common?.any fun x => x.d == V 2) = true ∧
    Issues s0 (.iadd e) c0 ∧ Clean c0 e.guard ∧ e.d = .none :=
  ⟨by decide +kernel, by decide +kernel, issues_of (by decide +kernel), clean_of (by decide +kernel), rfl⟩

theorem test_hyps_LookaheadRule : reads 0x810DD0840B00C0000009000000000040 (.lds { me' (V 8) (vr 2) no no .i32 0x40 with la := 3#4 }) = true ∧
    0x810DD0840B00C0000009000000000040 / 2 ^ 114 % 16 ≠ 0 := by
  decide +kernel

theorem test_hyps_BitwiseResult : let x := ar (V 9) (vr 0) (vr 1) no .b32
    let n := ar (V 9) (vr 0) no no .b32
    Issues s0 (.and x) c0 ∧ Instr.wf (.and x) = true ∧ Clean c0 x.guard ∧ Issues s0 (.not n) c0 ∧ Instr.wf (.not n) = true ∧
    ends (exec (.and x) s0) 48 (isV 3 9 0#32) = true ∧ ends (exec (.not n) s0) 48 (isV 3 9 0xFFFFFFFC#32) = true :=
  ⟨issues_of (by decide +kernel), by decide +kernel, clean_of (by decide +kernel), issues_of (by decide +kernel), by decide +kernel⟩

end Sys2Proof.Tests
end

section
/-! What a context reads of the state, and that the operations on memory, slices and translation leave it alone. -/

namespace Sys2Proof.Proofs

open Sys2Proof Sys2Proof.Machine Sys2Proof.Claims Sys2Proof.Laws

/-! ### The blocks, ejected lanes and harbourmasters -/

/-- What contexts and groups are read from: the blocks of the cores, the ejected lanes and the harbourmasters. -/
def hosts (s : State) : (Nat → Option Block) × List Ejected × Tbl Super := (s.block?, s.ejected, s.supers)

theorem ctx_of_hosts {s t : State} (h : hosts t = hosts s) (a : Agent) : t.ctx? a = s.ctx? a := by
  obtain ⟨hb, he, hs⟩ : t.block? = s.block? ∧ t.ejected = s.ejected ∧ t.supers = s.supers := by simpa [hosts] using h
  cases a <;> simp [State.ctx?, State.group?, agentSite, State.ejected?, hb, he, hs]

@[simp] theorem hosts_mscWrite (s : State) (pa : Nat) (bs : List Byte) : hosts (s.mscWrite pa bs) = hosts s := by
  unfold State.mscWrite; split <;> rfl

@[simp] theorem hosts_touch (s : State) (part pa : Nat) : hosts (s.touch part pa) = hosts s := by
  unfold State.touch
  split
  · rfl
  · split
    · rfl
    · dsimp only; split <;> rfl

@[simp] theorem hosts_touchLines (s : State) (part pa n : Nat) : hosts (s.touchLines part pa n) = hosts s :=
  foldl_same hosts _ _ s fun s _ => hosts_touch s _ _

@[simp] theorem hosts_touchFrom (s : State) (cl line : Nat) : hosts (s.touchFrom cl line) = hosts s := by
  unfold State.touchFrom
  split
  · exact hosts_touch _ _ _
  · rfl

/-- A fold over a list whose steps for its members leave a field alone leaves it alone. -/
theorem foldl_same_of_mem {α β γ : Type} (p : β → γ) (k : β → α → β) (xs : List α) (s : β)
    (h : ∀ s, ∀ x ∈ xs, p (k s x) = p s) : p (xs.foldl k s) = p s := by
  induction xs generalizing s with
  | nil => rfl
  | cons x xs ih =>
    rw [List.foldl_cons, ih _ fun s y hy => h s y (List.mem_cons_of_mem _ hy), h s x (by simp)]

/-- What a write-back can change (R109): the bytes of its line at the memory-side cache, the slice, poison marks and the
counts of accesses. -/
theorem writeBack_keeps {γ : Type} (p : State → γ) (s : State) (cl line : Nat)
    (hs : ∀ (s : State) x, p (s.setSlice cl x) = p s) (hp : ∀ (s : State) a n, p (s.poisonMem a n) = p s)
    (hc : ∀ (s : State) g, p (s.clearMem g) = p s) (ht : ∀ s : State, p (s.touchFrom cl line) = p s)
    (hw : ∀ (s : State), ∀ i < 128, ∀ b, p (s.mscWrite (128 * line + i) [b]) = p s) :
    p (s.writeBack cl line) = p s := by
  unfold State.writeBack
  split
  · rfl
  · dsimp only
    rw [hs, foldl_same p _ _ _ fun s _ => hp s _ _, foldl_same p _ _ _ fun s _ => hc s _, foldl_same_of_mem p]
    · split
      · rfl
      · exact ht s
    · intro s i hi
      split
      · exact hw s i (List.mem_range.1 hi) _
      · rfl

@[simp] theorem hosts_writeBack (s : State) (cl line : Nat) : hosts (s.writeBack cl line) = hosts s :=
  writeBack_keeps hosts s cl line (fun _ _ => rfl) (fun _ _ _ => rfl) (fun _ _ => rfl) (fun s => hosts_touchFrom s cl line)
    fun s _ _ _ => hosts_mscWrite s _ _

@[simp] theorem hosts_dropLine (s : State) (cl line : Nat) : hosts (s.dropLine cl line) = hosts s := hosts_writeBack s cl line

@[simp] theorem hosts_writeBackAll (s : State) (cl : Nat) : hosts (s.writeBackAll cl) = hosts s :=
  foldl_same hosts _ _ s fun s l => by
    split
    · rfl
    · exact hosts_writeBack _ _ _

@[simp] theorem hosts_dropPartial (s : State) (cl : Nat) : hosts (s.dropPartial cl) = hosts s :=
  foldl_same hosts _ _ s fun s l => by
    split
    · rfl
    · exact hosts_dropLine _ _ _

@[simp] theorem hosts_evictLines (s : State) (cl pa n : Nat) : hosts (s.evictLines cl pa n) = hosts s :=
  foldl_same hosts _ _ s fun s l => by
    split
    · exact hosts_dropLine _ _ _
    · rfl

@[simp] theorem hosts_makeRoom (s : State) (cl : Nat) : hosts (s.makeRoom cl) = hosts s := by
  unfold State.makeRoom
  split
  · rfl
  · split
    · exact hosts_dropLine _ _ _
    · rfl

@[simp] theorem hosts_fillLine (s : State) (cl line : Nat) : hosts (s.fillLine cl line) = hosts s := by
  unfold State.fillLine
  split
  · rfl
  · exact (hosts_touchFrom _ _ _).trans (hosts_makeRoom _ _)

@[simp] theorem hosts_sliceRead (s : State) (cl pa n : Nat) (fill : Bool) : hosts (s.sliceRead cl pa n fill) = hosts s :=
  foldl_same hosts _ _ s fun s l => by
    split
    · exact hosts_fillLine _ _ _
    · split
      · exact hosts_touchFrom _ _ _
      · rfl

/-! ### Acquires and releases -/

@[simp] theorem hosts_acquire (s : State) (c : Ctx) (x : Scope) : hosts (s.acquire c x) = hosts s := by
  unfold State.acquire State.acquireAction
  split
  · rfl
  · split
    · exact hosts_dropPartial s c.cluster
    · rfl

@[simp] theorem hosts_release (s : State) (c : Ctx) (x : Scope) : hosts (s.release c x) = hosts s := by
  unfold State.release State.releaseAction
  split
  · rfl
  · split
    · exact hosts_writeBackAll s c.cluster
    · rfl

/-- What the memory-side caches hold is a function of memory and its open bytes. -/
theorem mscByte_of_ram {s t : State} (h : t.ram = s.ram) (x : Nat) : t.mscByte x = s.mscByte x := by
  obtain ⟨hm, ha⟩ := Prod.mk.inj h
  rw [mscByte_eq, mscByte_eq, hm, ha]

@[simp] theorem ram_touch (s : State) (part pa : Nat) : (s.touch part pa).ram = s.ram := by
  unfold State.touch
  split
  · rfl
  · split
    · rfl
    · dsimp only; split <;> rfl

@[simp] theorem ram_touchFrom (s : State) (cl line : Nat) : (s.touchFrom cl line).ram = s.ram := by
  unfold State.touchFrom
  split
  · exact ram_touch _ _ _
  · rfl

/-- A line written back changes no byte of another line (R109). -/
theorem mscByte_writeBack_ne (s : State) (cl : Nat) {line x : Nat} (h : line ≠ x / 128) :
    (s.writeBack cl line).mscByte x = s.mscByte x :=
  writeBack_keeps (fun t : State => t.mscByte x) s cl line (fun _ _ => rfl) (fun _ _ _ => rfl) (fun _ _ => rfl)
    (fun s => mscByte_of_ram (ram_touchFrom s cl line) x)
    fun s i hi b => mscByte_mscWrite_outside s _ _ _ (by simp only [List.length_singleton]; omega)

/-- An acquire changes no byte of a line that no copy in the slice holds dirty in part (R128). -/
theorem mscByte_acquireSlice (s : State) (cl x : Nat) (h : wholeAt s cl x) : (s.acquireSlice cl).mscByte x = s.mscByte x := by
  refine foldl_same_of_mem (fun t : State => t.mscByte x) _ (s.slice cl) s fun t l hl => ?_
  split
  · rfl
  · next hd =>
    refine mscByte_writeBack_ne t cl fun e => ?_
    have hw := h l hl e
    simp only [partDirty, Bool.and_eq_false_iff, bne_eq_false_iff_eq] at hw
    simp only [Bool.or_eq_true, beq_iff_eq] at hd
    exact hd hw

theorem acquiredAt_acquire (s : State) (c : Ctx) (x : Scope) : AcquiredAt s (s.acquire c x) c.cluster := by
  intro a ha
  unfold State.acquire State.acquireAction
  split
  · rfl
  · split
    · exact mscByte_acquireSlice s c.cluster a ha
    · rfl

/-! ### Translation and loads of global memory -/

@[simp] theorem hosts_touchWalk (s : State) (root space : Nat) (va : W64) : hosts (s.touchWalk root space va) = hosts s := by
  unfold State.touchWalk
  split
  · rfl
  · exact foldl_same hosts _ _ s fun s _ => hosts_touch s _ _

/-- Both states of a choice. -/
theorem hosts_ite {p : Prop} [Decidable p] {s x y : State} (hx : hosts x = hosts s) (hy : hosts y = hosts s) :
    hosts (if p then x else y) = hosts s := by split <;> assumption

@[simp] theorem hosts_markLeaf (s : State) (space pte : Nat) (a d : Bool) : hosts (s.markLeaf space pte a d) = hosts s := by
  unfold State.markLeaf
  exact hosts_ite rfl ((hosts_mscWrite _ _ _).trans (hosts_touch _ _ _))

/-- A core written without a change of its block. -/
theorem hosts_setCore {s : State} {k : Nat} {x : Core} (h : x.block = s.block? k) : hosts (s.setCore k x) = hosts s := by
  refine Prod.ext (funext fun j => ?_) rfl
  by_cases hj : k = j
  · subst hj; simp [hosts, State.block?, h]
  · simp [hosts, State.block?, core_setCore_ne s _ hj]

@[simp] theorem hosts_fillTlb (s : State) (core : Nat) (e : TlbEntry) : hosts (s.fillTlb core e) = hosts s :=
  hosts_setCore (s := s) (k := core) (x := { s.core core with tlb := tlbPut (s.core core).tlb e }) rfl

/-- A translation that succeeds leaves every issuer alone (R113, R114). -/
theorem hosts_of_xlat_hit {s t : State} {c : Ctx} {va : W64} {acc : Access} {e : TlbEntry} (h : s.xlat c va acc = (.hit e, t)) :
    hosts t = hosts s := by
  unfold State.xlat at h
  split at h
  · split at h
    · dsimp only at h
      obtain ⟨-, rfl⟩ := Prod.mk.inj h
      rw [hosts_fillTlb]
      split
      · exact hosts_markLeaf _ _ _ _ _
      · rfl
    · cases (Prod.mk.inj h).1
  · unfold State.xlatNow at h
    split at h
    · dsimp only at h
      split at h
      · cases (Prod.mk.inj h).1
      · obtain ⟨-, rfl⟩ := Prod.mk.inj h
        rw [hosts_markLeaf, hosts_touchWalk]
    · cases (Prod.mk.inj h).1

theorem hosts_of_translate {s t : State} {c : Ctx} {va : W64} {acc : Access} {ak : Nat} {tag : Option Nat} {e : TlbEntry}
    (h : Machine.translate s c va acc ak tag = .inl (e, t)) : hosts t = hosts s := by
  unfold Machine.translate at h
  split at h
  · cases h
  · cases h
  · cases h
  · next e' t' hx =>
    split at h
    · cases h
    · cases h
      exact hosts_of_xlat_hit hx

theorem hosts_of_translateLanes {c : Ctx} {acc : Access} {ak : Nat} {tag : Option Nat} :
    ∀ {ls : List (Nat × W64)} {s t : State} {es : List (Nat × W64 × TlbEntry)},
      translateLanes c acc ak tag s ls = .inl (es, t) → hosts t = hosts s
  | [], s, t, es, h => by cases h; rfl
  | (l, va) :: ls, s, t, es, h => by
    unfold translateLanes at h
    split at h
    · cases h
    · next e s1 hx =>
      split at h
      · cases h
      · next es1 s2 hr =>
        cases h
        exact (hosts_of_translateLanes hr).trans (hosts_of_translate hx)

@[simp] theorem hosts_loadGlobal (s : State) (c : Ctx) (wide fill : Bool) (pa n : Nat) :
    hosts (loadGlobal s c wide fill pa n).2 = hosts s := by
  unfold loadGlobal
  split
  · exact hosts_sliceRead _ _ _ _ _
  · refine (hosts_touchLines _ _ _ _).trans ?_
    unfold State.pastSlice
    split
    · rfl
    · exact hosts_evictLines _ _ _ _

theorem hosts_tileReads (c : Ctx) (aon : Bool) : ∀ (ps : List (Nat × Nat × Nat × Nat)) (s : State),
    hosts (tileReads c aon s ps).2.2 = hosts s
  | [], _ => rfl
  | (_, _, pa, n) :: ps, s => (hosts_tileReads c aon ps _).trans (hosts_loadGlobal s c aon true pa n)

end Sys2Proof.Proofs
end

section
/-! The context of an issuer after its group or its fragment has changed, and the ends that instructions share: going on
at the next one, waiting, appending a store. -/

namespace Sys2Proof.Proofs

open Sys2Proof Sys2Proof.Machine Sys2Proof.Claims Sys2Proof.Laws

/-! ### Contexts of an issuer -/

/-- A context with its fragment replaced. -/
def withFrag (c : Ctx) (f : Frag) : Ctx := { c with g := c.g.setFrag f, f := f }

@[simp] theorem withFrag_f (c : Ctx) (f : Frag) : (withFrag c f).f = f := rfl
@[simp] theorem withFrag_sbuf (c : Ctx) (f : Frag) : (withFrag c f).g.sbuf = c.g.sbuf := rfl
@[simp] theorem withFrag_manifest (c : Ctx) (f : Frag) (m : Nat) : (withFrag c f).g.manifest m = c.g.manifest m := rfl
@[simp] theorem readLoc_withFrag (c : Ctx) (f : Frag) (r : RegLoc) : readLoc (withFrag c f).g r = readLoc c.g r :=
  readLoc_frags _ _ r

theorem mapGroup_of_ctx {s : State} {a : Agent} {c : Ctx} (h : s.ctx? a = some c) (k : Group → Group) :
    s.mapGroup a k = s.putGroup c (k c.g) := by
  obtain ⟨ha, hg, -, -⟩ := ctx_facts s a c h
  simp [State.mapGroup, State.putGroup, hg, ha]

theorem fits_of_index {a : Agent} {g h : Group} (hf : Site.fits (agentSite a) g) (hi : h.index = g.index) :
    Site.fits (agentSite a) h := by
  cases a with
  | frag => exact hi.trans hf
  | ejected => trivial
  | hm => trivial

theorem ctx_mapGroup {s : State} {a : Agent} {c : Ctx} {k : Group → Group} (h : s.ctx? a = some c)
    (hi : (k c.g).index = c.g.index) (hw : (k c.g).width = c.g.width) (hf : (k c.g).frags = c.g.frags) :
    (s.mapGroup a k).ctx? a = some { c with g := k c.g } := by
  obtain ⟨-, -, hfrag, hfits⟩ := ctx_facts s a c h
  rw [mapGroup_of_ctx h]
  refine ctx_putGroup s a c _ c.f h (fits_of_index hfits hi) hw ?_
  rw [Group.frag?, hf]
  exact hfrag

/-- The context of an issuer after a change of its group that leaves the fragments and everything but registers alone. -/
theorem ctx_mapGroup_of_rest {s : State} {a : Agent} {c : Ctx} {k : Group → Group} (h : s.ctx? a = some c)
    (hr : groupRest (k c.g) = groupRest c.g) (hf : (k c.g).frags = c.g.frags) :
    (s.mapGroup a k).ctx? a = some { c with g := k c.g } := by
  simp only [groupRest, Prod.mk.injEq] at hr
  obtain ⟨hw, hi, -⟩ := hr
  exact ctx_mapGroup h hi hw hf

theorem ctx_mapFrag {s : State} {a : Agent} {c : Ctx} {k : Frag → Frag} (h : s.ctx? a = some c) (hk : (k c.f).fid = c.f.fid) :
    (s.mapFrag a k).ctx? a = some (withFrag c (k c.f)) := by
  obtain ⟨-, -, hfrag, hfits⟩ := ctx_facts s a c h
  rw [mapFrag_ctx s a c k h]
  exact ctx_putGroup s a c _ _ h (fits_of_index hfits rfl) rfl
    (frag_setFrag c.g c.f _ _ hfrag (hk.trans (frag_fid _ _ _ hfrag)))

theorem ctx_advance {s : State} {a : Agent} {c : Ctx} (h : s.ctx? a = some c) :
    (s.advance a).ctx? a = some (withFrag c (c.f.goTo (c.f.pc + 16) none)) := ctx_mapFrag h rfl

theorem ctx_agent {s : State} {a : Agent} {c : Ctx} (h : s.ctx? a = some c) : c.agent = a := (ctx_facts s a c h).1

theorem reread_of_ctx {s : State} {c d : Ctx} (h : s.ctx? c.agent = some d) : s.reread c = d := by
  rw [State.reread, h, Option.getD_some]

@[simp] theorem reread_agent (s : State) (c : Ctx) : (s.reread c).agent = c.agent := by
  cases h : s.ctx? c.agent with
  | none => rw [State.reread, h, Option.getD_none]
  | some d => rw [reread_of_ctx h, ctx_agent h]

/-- The meaning of an instruction that its issuer may run. -/
theorem issuing_of_issues {s : State} {i : Instr} {c : Ctx} (h : Issues s i c) (k : Ctx → Out) : issuing s i k = k c :=
  issuing_of s i c k (by rw [h.issuer, Option.bind_some, h.ctx]) h.place

/-! ### Memory beside a change of a group -/

theorem sameMemory_refl (s : State) : sameMemory s s := ⟨rfl, rfl, fun _ => ⟨rfl, rfl⟩⟩

theorem sameMemory_trans {s t u : State} (h : sameMemory s t) (h' : sameMemory t u) : sameMemory s u := by
  obtain ⟨hr, hl, hc⟩ := h
  obtain ⟨hr', hl', hc'⟩ := h'
  exact ⟨hr'.trans hr, hl'.trans hl, fun k => ⟨(hc' k).1.trans (hc k).1, (hc' k).2.trans (hc k).2⟩⟩

theorem sameMemory_setBlock (s : State) (k : Nat) (b : Block) : sameMemory s (s.setBlock k b) := by
  refine ⟨rfl, rfl, fun j => ?_⟩
  by_cases h : k = j
  · subst h; simp [State.setBlock]
  · simp [State.setBlock, core_setCore_ne s _ h]

theorem sameMemory_setGroup (s : State) (g : Group) (x : Site) : sameMemory s (s.setGroup g x) := by
  cases x with
  | grp c i =>
    simp only [State.setGroup]
    split
    · exact sameMemory_refl s
    · exact sameMemory_setBlock s c _
  | ej c t =>
    simp only [State.setGroup]
    split <;> exact sameMemory_refl s
  | hm p =>
    simp only [State.setGroup]
    split <;> exact sameMemory_refl s

theorem sameMemory_mapGroup (s : State) (a : Agent) (k : Group → Group) : sameMemory s (s.mapGroup a k) := by
  unfold State.mapGroup
  split
  · exact sameMemory_refl s
  · exact sameMemory_setGroup s _ _

theorem sameMemory_mapFrag (s : State) (a : Agent) (k : Frag → Frag) : sameMemory s (s.mapFrag a k) := by
  unfold State.mapFrag
  split
  · exact sameMemory_refl s
  · split
    · exact sameMemory_refl s
    · exact sameMemory_setGroup s _ _

theorem sameMemory_advance (s : State) (a : Agent) : sameMemory s (s.advance a) := sameMemory_mapFrag s a _

theorem sameMemory_park (s : State) (a : Agent) (w : Wait) : sameMemory s (s.park a w) := sameMemory_mapFrag s a _

theorem sameMemory_performed (s : State) (a : Agent) : sameMemory s (s.performed a) :=
  sameMemory_trans (sameMemory_mapGroup s a _) (sameMemory_mapFrag _ a _)

theorem acquiredAt_of_sameMemory {s t u : State} {cl : Nat} (h : AcquiredAt s t cl) (hm : sameMemory t u) : AcquiredAt s u cl :=
  fun x hx => (mscByte_of_ram hm.1 x).trans (h x hx)

/-! ### The ends of instructions -/

theorem keepsBut_refl (g : Group) (ps : List RegLoc) : keepsBut g g ps := fun _ _ => rfl

/-- Something of a context holds of the issuer once it has gone on at the next instruction. -/
theorem after_advance {s : State} {c d : Ctx} {k : Ctx → Prop} (h : s.ctx? c.agent = some d)
    (hk : k (withFrag d (d.f.goTo (d.f.pc + 16) none))) : After (s.advance c.agent) c k := ⟨_, ctx_advance h, hk⟩

theorem passedOn_advance {s : State} {c d : Ctx} (h : s.ctx? c.agent = some d) (hpc : d.f.pc = c.f.pc)
    (hr : keepsBut c.g d.g []) : PassedOn (s.advance c.agent) c :=
  after_advance h ⟨congrArg (· + 16) hpc, fun r hn => (readLoc_withFrag _ _ r).trans (hr r hn)⟩

/-- The entry that an issuer appends to its strand buffer (R55, R127). -/
def appended (s : State) (c : Ctx) (items : List SItem) (strong : Option Scope) (first : Bool) : SEntry where
  store := s.serial
  mask := lanesMask ((List.range c.g.width).filter fun l => items.any fun i => i.owners.getLsbD (ownLane c.g.width c.g.index l))
  items := items
  strong := strong
  rel := c.f.mark
  bypass := c.level != .core
  serial := 0
  acqs := entryAcqs c
  first := first

/-- A group with one more entry in its strand buffer. -/
def bufferStore (e : SEntry) (g : Group) : Group := { g with sbuf := g.sbuf ++ [e] }

theorem append_eq (s : State) (c : Ctx) (items : List SItem) (strong : Option Scope) (first : Bool) :
    s.append c items strong first =
      (s.fresh.2.mapGroup c.agent (bufferStore (appended s c items strong first))).mapFrag c.agent
        fun f => { f with mark := none } := rfl

theorem sameMemory_append (s : State) (c : Ctx) (items : List SItem) (strong : Option Scope) (first : Bool) :
    sameMemory s (s.append c items strong first) :=
  sameMemory_trans (sameMemory_mapGroup s.fresh.2 _ _) (sameMemory_mapFrag _ _ _)

theorem readLoc_bufferStore (e : SEntry) (g : Group) (r : RegLoc) : readLoc (bufferStore e g) r = readLoc g r := by
  cases r <;> rfl

theorem ctx_append {s : State} {c d : Ctx} (h : s.ctx? c.agent = some d) (items : List SItem) (strong : Option Scope)
    (first : Bool) : (s.append c items strong first).ctx? c.agent =
      some (withFrag { d with g := bufferStore (appended s c items strong first) d.g } { d.f with mark := none }) := by
  rw [append_eq]
  exact ctx_mapFrag (ctx_mapGroup (k := bufferStore _) ((ctx_of_hosts rfl _).trans h) rfl rfl rfl) rfl

/-- An instruction whose store is appended goes on, and the store is the last entry of the strand buffer (R55). Between the
issue and the append, `d` became the context and `x` is its copy that the append reads. -/
theorem append_advance {s : State} {c d x : Ctx} (h : s.ctx? c.agent = some d) (hx : x.agent = c.agent) (hpc : d.f.pc = c.f.pc)
    (hr : keepsBut c.g d.g []) (hb : d.g.sbuf = c.g.sbuf) (items : List SItem) (strong : Option Scope) (first : Bool) :
    let t := (s.append x items strong first).advance c.agent
    sameMemory s t ∧ PassedOn t c ∧ After t c fun d => ∃ e, d.g.sbuf = c.g.sbuf ++ [e] ∧ e.items = items := by
  have hctx := hx ▸ ctx_append (hx.symm ▸ h) items strong first
  refine ⟨sameMemory_trans (sameMemory_append _ _ _ _ _) (sameMemory_advance _ _), passedOn_advance hctx hpc fun r hn => ?_,
    after_advance hctx ⟨appended s x items strong first, ?_, rfl⟩⟩
  · rw [readLoc_withFrag, readLoc_bufferStore, hr r hn]
  · rw [withFrag_sbuf, withFrag_sbuf, bufferStore, hb]

end Sys2Proof.Proofs
end

section
/-! Manifests (R246, R248 to R250). -/

namespace Sys2Proof.Proofs

open Sys2Proof Sys2Proof.Machine Sys2Proof.Claims Sys2Proof.Laws

/-! ### Words and bytes of a manifest -/

@[simp] theorem tblGet_putWord_same (m : Tbl W32) (i : Nat) (x : W32) :
    tblGet 0#32 (putWord m i x) i = x &&& manifestMask i := tblGet_tblSet_same _ _ _ _

theorem tblGet_putWord_ne (m : Tbl W32) {i j : Nat} (x : W32) (h : i ≠ j) : tblGet 0#32 (putWord m i x) j = tblGet 0#32 m j :=
  tblGet_tblSet_ne _ _ _ h

/-- The words put into a manifest one after another are its words, without their reserved bits (R7). -/
theorem tblGet_putWords (f : Nat → W32) (m : Tbl W32) {n k : Nat} (h : k < n) :
    tblGet 0#32 ((List.range n).foldl (fun m i => putWord m i (f i)) m) k = f k &&& manifestMask k := by
  induction n with
  | zero => omega
  | succ n ih =>
    rw [List.range_succ, List.foldl_append, List.foldl_cons, List.foldl_nil]
    by_cases hk : k = n
    · subst hk; exact tblGet_putWord_same _ _ _
    · rw [tblGet_putWord_ne _ _ (Ne.symm hk), ih (by omega)]

theorem tblGet_manifestOf (bs : List Byte) {k : Nat} (h : k < 32) :
    tblGet 0#32 (manifestOf bs) k = BitVec.ofNat 32 (leNat ((bs.drop (4 * k)).take 4)) &&& manifestMask k :=
  tblGet_putWords (fun i => BitVec.ofNat 32 (leNat ((bs.drop (4 * i)).take 4))) [] h

@[simp] theorem length_leBytes (n v : Nat) : (leBytes n v).length = n := by
  induction n generalizing v with
  | zero => rfl
  | succ n ih => rw [leBytes, List.length_cons, ih]

@[simp] theorem length_manifestBytes (m : Tbl W32) : (manifestBytes m).length = 128 := by
  simp only [manifestBytes, List.length_flatMap, length_leBytes]
  rfl

@[simp] theorem manifest_setManifest_same (g : Group) (i : Nat) (m : Tbl W32) : (g.setManifest i m).manifest i = m :=
  tblGet_tblSet_same _ _ _ _

theorem manifest_setManifest_ne (g : Group) {i j : Nat} (m : Tbl W32) (h : i ≠ j) :
    (g.setManifest i m).manifest j = g.manifest j := tblGet_tblSet_ne _ _ _ h

/-- The pending result of a TSHLD stands in its manifest once it lands (R248). -/
theorem manifest_landManifest {g : Group} {m : Nat} {x : W64 × Tbl W32} (h : tblFind g.mloads m = some x) :
    (g.landManifest m).manifest m = x.2 := by
  rw [Group.landManifest, h]
  exact manifest_setManifest_same g m x.2

/-- An access that stays on one page of 64 KiB is one piece. -/
theorem pageSplit_one {va n : Nat} (hn : 0 < n) (h : va % 65536 + n ≤ 65536) : pageSplit va n = [(0, va, n)] := by
  have hend : (va + n - 1) / 65536 = va / 65536 := by omega
  have hpages : granules 65536 va n = [va / 65536] := by
    simp [granules, upFrom, hend, Nat.ne_of_gt hn]
  have hlo : max va (65536 * (va / 65536)) = va := by omega
  have hhi : min (va + n) (65536 * (va / 65536 + 1)) - va = n := by omega
  simp [pageSplit, hpages, hlo, hhi]

/-! ### The instructions -/

/-- TSHP with an acting lane edits its manifest and goes on (R249). -/
theorem tshp_next {s : State} {c : Ctx} {w : EngOp} (hc : s.ctx? c.agent = some c) (ha : c.acting w.guard ≠ [])
    (f : Tbl W32 → Nat → W32 → Tbl W32) :
    ∃ t, tshp s c w f = .next t ∧ sameMemory s t ∧ PassedOn t c ∧ After t c fun d =>
      d.g.manifest (engManifest w) = f (c.g.manifest (engManifest w)) (w.ext.toNat % 32) (engSrc c w w.a) ∧
        ∀ n, n ≠ engManifest w → d.g.manifest n = c.g.manifest n := by
  have hctx := ctx_mapGroup (k := fun g => g.setManifest (engManifest w)
    (f (g.manifest (engManifest w)) (w.ext.toNat % 32) (engSrc c w w.a))) hc rfl rfl rfl
  refine ⟨_, by rw [tshp, if_neg (by simpa using ha)]; rfl, sameMemory_trans (sameMemory_mapGroup s _ _) (sameMemory_advance _ _),
    passedOn_advance hctx rfl fun r _ => by cases r <;> rfl, after_advance hctx ⟨?_, fun n hn => ?_⟩⟩
  · rw [withFrag_manifest, manifest_setManifest_same]
  · rw [withFrag_manifest, manifest_setManifest_ne _ _ (Ne.symm hn)]

/-- The result of a TSHLD waits for the next instruction that names its manifest (R248). -/
theorem loadManifest_next {s : State} {c : Ctx} (hc : s.ctx? c.agent = some c) (w : EngOp) (m : Tbl W32) :
    ∃ t, loadManifest s c w m = .next t ∧ sameMemory s t ∧ PassedOn t c ∧ After t c fun d => d.g.t = c.g.t ∧
      tblFind d.g.mloads (engManifest w) = some (c.f.mask, m) := by
  have hctx := ctx_mapGroup (k := fun g => { g with mloads := tblInsert g.mloads (engManifest w) (c.f.mask, m) }) hc rfl rfl rfl
  exact ⟨_, rfl, sameMemory_trans (sameMemory_mapGroup s _ _) (sameMemory_advance _ _),
    passedOn_advance hctx rfl fun r _ => by cases r <;> rfl, after_advance hctx ⟨rfl, tblFind_tblInsert_same _ _ _⟩⟩

/-- What O26 says of a TSHLD that has read some bytes. -/
def Loaded (t : State) (c : Ctx) (m : Nat) (bs : List Byte) : Prop := After t c fun d => d.g.t = c.g.t ∧
  ∃ x, tblFind d.g.mloads m = some (c.f.mask, x) ∧
    (∀ k < 32, tblGet 0#32 x k = BitVec.ofNat 32 (leNat ((bs.drop (4 * k)).take 4)) &&& manifestMask k) ∧
    (d.g.landManifest m).manifest m = x

theorem loadManifest_bytes {s : State} {c : Ctx} (hc : s.ctx? c.agent = some c) (w : EngOp) (bs : List Byte) :
    ∃ t, loadManifest s c w (manifestOf bs) = .next t ∧ sameMemory s t ∧ PassedOn t c ∧ Loaded t c (engManifest w) bs := by
  obtain ⟨t, ht, hm, hp, d, hd, hg, hfind⟩ := loadManifest_next hc w (manifestOf bs)
  exact ⟨t, ht, hm, hp, d, hd, hg, _, hfind, fun k hk => tblGet_manifestOf bs hk, manifest_landManifest hfind⟩

section
variable {w : EngOp} {s : State} {c : Ctx} {l : Nat} {ls : List Nat} (hl : c.acting w.guard = l :: ls)
include hl

theorem tshldSp_next {k off : Nat} (h : Issues s (.tshldSp w) c) (ha : tshSp c w % 16 = 0)
    (hr : scratchRange s c (tshSp c w) 128 = .inl (k, off)) (hb : accessBlock c = none) (hs : soundRange s k off 128) :
    ∃ t, exec (.tshldSp w) s = .next t ∧ sameMemory s t ∧ PassedOn t c ∧
      Loaded t c (engManifest w) (overlay s c l false k off 128 (s.core k).scratchByte) := by
  obtain ⟨hpresent, hsound⟩ := hs
  have hrun : exec (.tshldSp w) s =
      loadManifest s c w (manifestOf (overlay s c l false k off 128 (s.core k).scratchByte)) := by
    refine (issuing_of_issues h _).trans ?_
    simp [hl, ha, hr, hb, hpresent, hsound]
  rw [hrun]
  exact loadManifest_bytes h.ctx w _

theorem tshldGl_next {va : W64} {e : TlbEntry} {s1 s2 : State} {bs : List Byte} (h : Issues s (.tshldGl w) c)
    (ha : (tshVa c w).toNat % 16 = 0) (hpage : (tshVa c w).toNat % 65536 + 128 ≤ 65536) (hb : accessBlock c = none)
    (hx : translateLanes c .read 1 none s [(l, tshVa c w)] = .inl ([(l, va, e)], s1))
    (hr : tileReads c false s1 [(l, 0, e.phys va.toNat, 128)] = ([(l, 0, bs)], none, s2)) :
    ∃ t, exec (.tshldGl w) s = .next t ∧ sameMemory s2 t ∧ PassedOn t c ∧ Loaded t c (engManifest w) bs := by
  have hrun : exec (.tshldGl w) s = loadManifest s2 c w (manifestOf bs) := by
    refine (issuing_of_issues h _).trans ?_
    simp [hl, ha, hb, pageSplit_one (by decide) hpage, hx, hr]
  have hhosts : hosts s2 = hosts s := by
    have h2 := hosts_tileReads c false [(l, 0, e.phys va.toNat, 128)] s1
    rw [hr] at h2
    exact h2.trans (hosts_of_translateLanes hx)
  rw [hrun]
  exact loadManifest_bytes ((ctx_of_hosts hhosts _).trans h.ctx) w bs

theorem tshstSp_next {k off : Nat} (h : Issues s (.tshstSp w) c) (ha : tshSp c w % 16 = 0)
    (hr : scratchRange s c (tshSp c w) 128 = .inl (k, off)) (hb : sbovf c [l] = none) :
    ∃ t, exec (.tshstSp w) s = .next t ∧ sameMemory s t ∧ PassedOn t c ∧ After t c fun d =>
      ∃ e, d.g.sbuf = c.g.sbuf ++ [e] ∧
        e.items = [storeItem c (c.acting w.guard) l (.scratch k off) (.bytes (manifestBytes (c.g.manifest (engManifest w))))] := by
  refine ⟨_, (issuing_of_issues h _).trans ?_, append_advance h.ctx rfl rfl (keepsBut_refl _ _) rfl _ none false⟩
  simp [hl, ha, hr, hb, finish]

theorem tshstGl_next {va : W64} {e : TlbEntry} {s1 : State} (h : Issues s (.tshstGl w) c)
    (ha : (tshVa c w).toNat % 16 = 0) (hpage : (tshVa c w).toNat % 65536 + 128 ≤ 65536) (hb : sbovf c [l] = none)
    (hx : translateLanes c .write 2 none s [(l, tshVa c w)] = .inl ([(l, va, e)], s1)) :
    ∃ t, exec (.tshstGl w) s = .next t ∧ sameMemory s1 t ∧ PassedOn t c ∧ After t c fun d =>
      ∃ x, d.g.sbuf = c.g.sbuf ++ [x] ∧
        x.items = [storeItem c (c.acting w.guard) l (globPlace e va) (.bytes (manifestBytes (c.g.manifest (engManifest w))))] := by
  have hctx := (ctx_of_hosts (hosts_of_translateLanes hx) c.agent).trans h.ctx
  refine ⟨_, (issuing_of_issues h _).trans ?_, append_advance hctx rfl rfl (keepsBut_refl _ _) rfl _ none false⟩
  simp [hl, ha, hb, pageSplit_one (by decide) hpage, hx, finish, List.take_of_length_le]

end

/-- The edit of TSHP.add64: a pair of words as one number (R249). -/
def addPair (m : Tbl W32) (i : Nat) (a : W32) : Tbl W32 :=
  let y : W64 := (tblGet 0#32 m (i + 1) ++ tblGet 0#32 m i) + a.signExtend 64
  putWord (putWord m i (y.setWidth 32)) (i + 1) ((y >>> 32).setWidth 32)

/-- What O26 says of a TSHP: afterwards `k` holds of its manifest, and every other manifest is as before. -/
def Edits (s : State) (c : Ctx) (w : EngOp) (mk : EngOp → Instr) (k : Tbl W32 → Prop) : Prop := Issues s (mk w) c →
  ∃ t, exec (mk w) s = .next t ∧ sameMemory s t ∧ PassedOn t c ∧ After t c fun d => k (d.g.manifest (engManifest w)) ∧
    ∀ n, n ≠ engManifest w → d.g.manifest n = c.g.manifest n

theorem edits_of_tshp {s : State} {c : Ctx} {w : EngOp} {mk : EngOp → Instr} {k : Tbl W32 → Prop} (ha : c.acting w.guard ≠ [])
    (f : Tbl W32 → Nat → W32 → Tbl W32) (hrun : Issues s (mk w) c → exec (mk w) s = tshp s c w f)
    (hk : k (f (c.g.manifest (engManifest w)) (w.ext.toNat % 32) (engSrc c w w.a))) : Edits s c w mk k := by
  intro h
  obtain ⟨t, ht, hm, hp, d, hd, hman, hother⟩ := tshp_next h.ctx ha f
  exact ⟨t, (hrun h).trans ht, hm, hp, d, hd, hman ▸ hk, hother⟩

section
variable (s : State) (c : Ctx) {w : EngOp} (ha : c.acting w.guard ≠ [])
include ha

theorem tshpSet_edits : Edits s c w .tshpSet fun x =>
    tblGet 0#32 x (w.ext.toNat % 32) = engSrc c w w.a &&& manifestMask (w.ext.toNat % 32) ∧
      ∀ k, k ≠ w.ext.toNat % 32 → tblGet 0#32 x k = tblGet 0#32 (c.g.manifest (engManifest w)) k :=
  edits_of_tshp ha (fun x i a => putWord x i a) (fun h => issuing_of_issues h _)
    ⟨tblGet_putWord_same _ _ _, fun _ hk => tblGet_putWord_ne _ _ (Ne.symm hk)⟩

theorem tshpAdd_edits : Edits s c w .tshpAdd fun x =>
    tblGet 0#32 x (w.ext.toNat % 32) =
        (tblGet 0#32 (c.g.manifest (engManifest w)) (w.ext.toNat % 32) + engSrc c w w.a) &&& manifestMask (w.ext.toNat % 32) ∧
      ∀ k, k ≠ w.ext.toNat % 32 → tblGet 0#32 x k = tblGet 0#32 (c.g.manifest (engManifest w)) k :=
  edits_of_tshp ha (fun x i a => putWord x i (tblGet 0#32 x i + a)) (fun h => issuing_of_issues h _)
    ⟨tblGet_putWord_same _ _ _, fun _ hk => tblGet_putWord_ne _ _ (Ne.symm hk)⟩

theorem tshpAdd64_edits : Edits s c w .tshpAdd64 fun x =>
    let i := w.ext.toNat % 32
    let m := c.g.manifest (engManifest w)
    let y := (tblGet 0#32 m (i + 1) ++ tblGet 0#32 m i) + (engSrc c w w.a).signExtend 64
    tblGet 0#32 x i = y.setWidth 32 &&& manifestMask i ∧ tblGet 0#32 x (i + 1) = y.extractLsb' 32 32 &&& manifestMask (i + 1) ∧
      ∀ k, k ≠ i → k ≠ i + 1 → tblGet 0#32 x k = tblGet 0#32 m k := by
  refine edits_of_tshp ha addPair (fun h => issuing_of_issues h _) ⟨?_, ?_, fun k hk hk1 => ?_⟩
  · exact (tblGet_putWord_ne _ _ (by omega)).trans (tblGet_putWord_same _ _ _)
  · have hhigh (y : W64) : (y >>> 32).setWidth 32 = y.extractLsb' 32 32 := BitVec.eq_of_toNat_eq (by simp)
    exact (tblGet_putWord_same _ _ _).trans (congrArg (· &&& manifestMask _) (hhigh _))
  · exact (tblGet_putWord_ne _ _ (Ne.symm hk1)).trans (tblGet_putWord_ne _ _ (Ne.symm hk))

end

/-- Settles O26: each manifest instruction by its own lemma. -/
theorem manifests : Obligations.Manifests := by
  unfold Obligations.Manifests
  intro w s c l ls hl m i v old edit loads loaded
  have hact : c.acting w.guard ≠ [] := by simp [hl]
  refine ⟨tshpSet_edits s c hact, tshpAdd_edits s c hact, tshpAdd64_edits s c hact, fun ha k off hr => ⟨?_, ?_⟩,
    fun ha hpage => ⟨?_, ?_⟩⟩
  · exact fun h hb hs => tshldSp_next hl h ha hr hb hs
  · exact fun h hb => tshstSp_next hl h ha hr hb
  · exact fun va e s1 h hb hx bs s2 hr => tshldGl_next hl h ha hpage hb hx hr
  · exact fun va e s1 h hb hx => tshstGl_next hl h ha hpage hb hx

end Sys2Proof.Proofs
end

section
/-! Where an issuer stands while its strand commits and its instruction performs (R56, R57, R126, R127). -/

namespace Sys2Proof.Proofs

open Sys2Proof Sys2Proof.Machine Sys2Proof.Claims Sys2Proof.Laws

/-- The fragment of an agent stands at `pc`, in a group of `n` lanes. -/
def StandsAt (s : State) (a : Agent) (pc n : Nat) : Prop := ∃ d, s.ctx? a = some d ∧ d.f.pc = pc ∧ d.g.lanes.length = n

/-- What a change of a group must leave for fragment `fid` to stand where it stood. -/
def shapeAt (fid : Nat) (g : Group) : Nat × Nat × Nat × Option Nat :=
  (g.width, g.index, g.lanes.length, (g.frag? fid).map (·.pc))

/-! ### Groups -/

theorem shapeAt_setFrag {g : Group} {f x : Frag} {fid : Nat} (h : g.frag? fid = some f) (hx : x.fid = fid) (hpc : x.pc = f.pc) :
    shapeAt fid (g.setFrag x) = shapeAt fid g := by
  have hpcs : ((g.setFrag x).frag? fid).map (·.pc) = (g.frag? fid).map (·.pc) := by
    rw [frag_setFrag g f x fid h hx, h, Option.map_some, Option.map_some, hpc]
  exact congrArg (fun y => (g.width, g.index, g.lanes.length, y)) hpcs

@[simp] theorem shapeAt_writeLocs (fid : Nat) (g : Group) (ws : List (RegLoc × W32)) :
    shapeAt fid (g.writeLocs ws) = shapeAt fid g := by
  have hrest := groupRest_writeLocs ws g
  simp only [groupRest, Prod.mk.injEq] at hrest
  obtain ⟨hw, hi, -, -, -, -, -, -, hn⟩ := hrest
  simp only [shapeAt, Group.frag?, frags_writeLocs, hw, hi, hn]

@[simp] theorem shapeAt_flush (fid : Nat) (g : Group) : shapeAt fid (g.flush fid) = shapeAt fid g := by
  unfold Group.flush
  split
  · rfl
  · next f hf =>
    have hf' : (g.writeLocs (f.pend.flatMap (·.writes))).frag? fid = some f := by
      rw [Group.frag?, frags_writeLocs]; exact hf
    exact (shapeAt_setFrag (x := { f with pend := [] }) hf' (frag_fid g f fid hf) rfl).trans (shapeAt_writeLocs _ _ _)

@[simp] theorem shapeAt_landManifests (fid : Nat) (g : Group) (m : W64) : shapeAt fid (g.landManifests m) = shapeAt fid g :=
  foldl_same (shapeAt fid) _ _ g fun g x => by unfold Group.landManifest; split <;> rfl

@[simp] theorem shapeAt_mapLanes (fid : Nat) (g : Group) (ls : List Nat) (k : Thread → Thread) :
    shapeAt fid (g.mapLanes ls k) = shapeAt fid g :=
  foldl_same (shapeAt fid) _ _ g fun g l => by simp only [shapeAt, lanes_setLane]; rfl

/-! ### States -/

namespace StandsAt

variable {s t : State} {a : Agent} {pc n : Nat}

theorem of_hosts (h : StandsAt s a pc n) (e : hosts t = hosts s) : StandsAt t a pc n := by
  obtain ⟨d, hd, hpc, hn⟩ := h
  exact ⟨d, (ctx_of_hosts e a).trans hd, hpc, hn⟩

theorem mapGroup (h : StandsAt s a pc n) {k : Group → Group} (hk : ∀ g, shapeAt (agentFid a) (k g) = shapeAt (agentFid a) g) :
    StandsAt (s.mapGroup a k) a pc n := by
  obtain ⟨d, hd, hpc, hn⟩ := h
  obtain ⟨-, -, hfrag, hfits⟩ := ctx_facts s a d hd
  have hshape := hk d.g
  simp only [shapeAt, Prod.mk.injEq, hfrag, Option.map_some, Option.map_eq_some_iff] at hshape
  obtain ⟨hw, hi, hlen, f, hf, hfpc⟩ := hshape
  rw [mapGroup_of_ctx hd]
  exact ⟨_, ctx_putGroup s a d _ f hd (fits_of_index hfits hi) hw hf, hfpc.trans hpc, hlen.trans hn⟩

theorem mapFrag (h : StandsAt s a pc n) {k : Frag → Frag} (hk : ∀ f, (k f).fid = f.fid ∧ (k f).pc = f.pc) :
    StandsAt (s.mapFrag a k) a pc n := by
  obtain ⟨d, hd, hpc, hn⟩ := h
  exact ⟨_, ctx_mapFrag hd (hk d.f).1, (hk d.f).2.trans hpc, hn⟩

/-- The entries of a queue of the agent play no part in where it stands. -/
theorem setFifo (h : StandsAt s a pc n) (w : Nat) (q : List SEntry) : StandsAt (s.setFifo (fifoOf a w) q) a pc n := by
  obtain ⟨d, hd, hpc, hn⟩ := h
  cases a with
  | frag k i f =>
    simp only [State.ctx?, Option.bind_eq_bind, Option.bind_eq_some_iff, Option.some.injEq] at hd
    obtain ⟨b, hb, g, hg, x, hx, rfl⟩ := hd
    simp only [agentSite, State.group?, hb, Option.bind_some] at hg
    refine ⟨_, by simp [State.ctx?, agentSite, State.group?, fifoOf, State.setFifo, State.mapWarp, hb, Block.setWarp, hg, hx]; rfl,
      ?_, ?_⟩
    · exact hpc
    · exact hn
  | ejected k i =>
    simp only [State.ctx?, Option.bind_eq_bind, Option.bind_eq_some_iff, Option.some.injEq] at hd
    obtain ⟨b, hb, e, he, x, hx, rfl⟩ := hd
    have he' := ejected_setEjected s k i e { e with fifo := q } he (ejected_key s k i e he)
    have hb' : (s.setEjected k i { e with fifo := q }).block? k = some b := hb
    exact ⟨_, by simp [State.ctx?, fifoOf, State.setFifo, he, he', hb', hx], hpc, hn⟩
  | hm p =>
    simp only [State.ctx?, Option.bind_eq_bind, Option.bind_eq_some_iff, Option.some.injEq] at hd
    obtain ⟨u, hu, x, hx, kern, hkern, rfl⟩ := hd
    exact ⟨_, by simp [State.ctx?, fifoOf, State.setFifo, hu, hx, hkern], hpc, hn⟩

/-- The commit of a strand moves no fragment (R57). -/
theorem commit (h : StandsAt s a pc n) : StandsAt (s.commit a) a pc n := by
  unfold State.commit
  dsimp only
  have hflush := h.mapGroup (k := fun g => g.flush (agentFid a)) (shapeAt_flush _)
  split
  · exact hflush
  · split
    · exact hflush
    · refine mapGroup ?_ fun _ => rfl
      refine foldl_keeps (fun s => StandsAt s a pc n) _ _ _ ?_ fun s w hs => hs.setFifo w _
      exact of_hosts (hflush.mapGroup fun g => shapeAt_landManifests _ g _) rfl

theorem recordSrs (h : StandsAt s a pc n) : StandsAt (s.recordSrs a) a pc n :=
  h.mapGroup fun g => by
    split
    · exact shapeAt_mapLanes _ _ _ _
    · rfl

theorem ensureCommit {c : Ctx} (h : StandsAt s c.agent pc n) : StandsAt (s.ensureCommit c) c.agent pc n := by
  unfold State.ensureCommit
  split
  · exact h
  · exact h.commit.recordSrs.mapFrag fun _ => ⟨rfl, rfl⟩

theorem barHeld {c : Ctx} (h : StandsAt s c.agent pc n) (w : MemOp) : StandsAt (barHeld s c w) c.agent pc n := by
  refine ensureCommit ?_
  split
  · exact h
  · exact h.mapFrag fun _ => ⟨rfl, rfl⟩

theorem takeMark {c : Ctx} (h : StandsAt s a pc n) (hc : c.agent = a) (ht : s.takeMark c = some t) : StandsAt t a pc n := by
  subst hc
  unfold State.takeMark at ht
  split at ht
  · cases ht; exact h
  · dsimp only at ht
    split at ht
    · cases ht
      exact (h.of_hosts (hosts_release s c _)).mapFrag fun _ => ⟨rfl, rfl⟩
    · cases ht

/-- A barrier instruction stands where it stood until it performs (R126, R233). -/
theorem arrives {c : Ctx} (h : StandsAt s c.agent pc n) {w : MemOp} (ht : Arrives s c w t) : StandsAt t c.agent pc n :=
  (h.barHeld w).takeMark (reread_agent _ _) ht.2

end StandsAt

/-! ### The end of a strand -/

@[simp] theorem frags_mapLanes (g : Group) (ls : List Nat) (k : Thread → Thread) : (g.mapLanes ls k).frags = g.frags :=
  foldl_same Group.frags _ _ g fun _ _ => rfl

/-- The generator recorded with the strand state is no register (R95). -/
theorem readLoc_recordSrs (g : Group) (m : W64) (r : RegLoc) : readLoc (g.recordSrs m) r = readLoc g r := by
  refine foldl_same (readLoc · r) _ _ g fun g l => ?_
  cases r <;> simp only [readLoc, sreg_setLane, lane_setLane]
  all_goals
    split
    · next h => rw [h.1]; rfl
    · rfl

theorem ctx_recordSrs {s : State} {a : Agent} {c : Ctx} (h : s.ctx? a = some c) :
    (s.recordSrs a).ctx? a = some { c with g := c.g.recordSrs c.f.mask } := by
  obtain ⟨-, -, hf, -⟩ := ctx_facts s a c h
  have hshape := shapeAt_mapLanes 0 c.g (maskLanes c.f.mask) fun t => { t with srsRst := t.srs }
  simp only [shapeAt, Prod.mk.injEq] at hshape
  obtain ⟨hw, hi, -⟩ := hshape
  unfold State.recordSrs
  have hk := ctx_mapGroup (k := fun g => match g.frag? (agentFid a) with
    | some f => g.recordSrs f.mask
    | none => g) h
  simp only [hf] at hk
  exact hk hi hw (frags_mapLanes _ _ _)

/-- A strand-ending instruction that has performed ends its strand and changes no register (R56). -/
theorem ended_performed {s : State} {c d : Ctx} (h : s.ctx? c.agent = some d) (hpc : d.f.pc = c.f.pc) :
    After (s.performed c.agent) c fun e => Ended c e ∧ ∀ r, readLoc e.g r = readLoc d.g r := by
  refine ⟨_, ctx_mapFrag (ctx_recordSrs h) rfl, ?_, fun r => (readLoc_withFrag _ _ r).trans (readLoc_recordSrs _ _ r)⟩
  simp [Ended, Frag.goTo, hpc]

end Sys2Proof.Proofs
end

section
/-! Barrier objects (R235 to R237). -/

namespace Sys2Proof.Proofs

open Sys2Proof Sys2Proof.Machine Sys2Proof.Claims Sys2Proof.Laws

/-! ### The value of an object -/

/-- A barrier object from its fields: pending arrivals, expected count, phase, OVA, and the skip bits of this phase and the
last one (R235). -/
def objOf (pend exp ph ova cskip lskip : Nat) : Nat :=
  pend + exp * 2 ^ 32 + ph * 2 ^ 48 + ova * 2 ^ 61 + cskip * 2 ^ 62 + lskip * 2 ^ 63

theorem bitField_lt (x lo n : Nat) : bitField x lo n < 2 ^ n := Nat.mod_lt _ (Nat.two_pow_pos n)

/-- The fields of an object put together from them; its reserved bits are zero (R7, R235). -/
theorem fields_objOf {pend exp ph ova cskip lskip : Nat} (hp : pend < 2 ^ 16) (he : exp < 2 ^ 16) (hh : ph < 2) (ho : ova < 2)
    (hc : cskip < 2) (hl : lskip < 2) :
    let y := objOf pend exp ph ova cskip lskip
    y < 2 ^ 64 ∧ bitField y 0 16 = pend ∧ bitField y 16 16 = 0 ∧ bitField y 32 16 = exp ∧ bitField y 48 1 = ph ∧
      bitField y 49 12 = 0 ∧ bitField y 61 1 = ova ∧ bitField y 62 1 = cskip ∧ bitField y 63 1 = lskip := by
  simp only [objOf, bitField]
  omega

/-- An object put together from its fields has no reserved bit to lose. -/
theorem objBits_objOf {pend exp ph ova cskip lskip : Nat} (hp : pend < 2 ^ 16) (he : exp < 2 ^ 16) (hh : ph < 2) (ho : ova < 2)
    (hc : cskip < 2) (hl : lskip < 2) : objBits (objOf pend exp ph ova cskip lskip) = objOf pend exp ph ova cskip lskip := by
  simp only [objBits, objOf, bitField]
  omega

/-- OVA after an arrival of `k` (R235). -/
def ovaAfter (x k : Nat) : Nat := if bitField x 0 16 < k then 1 else bitField x 61 1

/-- The skip bit of the phase after an arrival that skips or does not (R235). -/
def skipAfter (x : Nat) (skip : Bool) : Nat := if skip then 1 else bitField x 62 1

theorem ovaAfter_lt (x k : Nat) : ovaAfter x k < 2 := by
  unfold ovaAfter
  split
  · decide
  · exact bitField_lt x 61 1

theorem skipAfter_lt (x : Nat) (skip : Bool) : skipAfter x skip < 2 := by
  unfold skipAfter
  split
  · decide
  · exact bitField_lt x 62 1

/-- An arrival that leaves arrivals pending (R235). -/
theorem objArrive_short {x k : Nat} (skip : Bool) (h : k < bitField x 0 16) : objArrive x k skip =
    objOf (bitField x 0 16 - k) (bitField x 32 16) (bitField x 48 1) (ovaAfter x k) (skipAfter x skip) (bitField x 63 1) := by
  have hleft : ¬ (bitField x 0 16 - k == 0) = true := by rw [beq_iff_eq]; omega
  unfold Machine.objArrive objOf ovaAfter skipAfter
  dsimp only
  rw [if_neg hleft]
  ac_rfl

/-- An arrival that leaves none pending completes the phase (R235). -/
theorem objArrive_full {x k : Nat} (skip : Bool) (h : bitField x 0 16 ≤ k) : objArrive x k skip =
    objOf (bitField x 32 16) (bitField x 32 16) (1 - bitField x 48 1) (ovaAfter x k) 0 (skipAfter x skip) := by
  have hleft : (bitField x 0 16 - k == 0) = true := by rw [beq_iff_eq]; omega
  unfold Machine.objArrive objOf ovaAfter skipAfter
  dsimp only
  rw [if_pos hleft, Nat.zero_mul, Nat.add_zero]
  ac_rfl

theorem objBits_objArrive (x k : Nat) (skip : Bool) : objBits (objArrive x k skip) = objArrive x k skip := by
  have hp := bitField_lt x 0 16
  have he := bitField_lt x 32 16
  rcases Nat.lt_or_ge k (bitField x 0 16) with h | h
  · rw [objArrive_short skip h]
    exact objBits_objOf (by omega) he (bitField_lt x 48 1) (ovaAfter_lt x k) (skipAfter_lt x skip) (bitField_lt x 63 1)
  · rw [objArrive_full skip h]
    exact objBits_objOf he he (by omega) (ovaAfter_lt x k) (by decide) (skipAfter_lt x skip)

/-- The fields of an object after an arrival (R235). -/
theorem fields_objArrive (x k : Nat) (skip : Bool) :
    let y := objArrive x k skip
    y < 2 ^ 64 ∧ bitField y 32 16 = bitField x 32 16 ∧ bitField y 16 16 = 0 ∧ bitField y 49 12 = 0 ∧
    (k < bitField x 0 16 → bitField y 0 16 = bitField x 0 16 - k ∧ bitField y 48 1 = bitField x 48 1 ∧
      bitField y 61 1 = bitField x 61 1 ∧ bitField y 63 1 = bitField x 63 1) ∧
    (bitField x 0 16 ≤ k → bitField y 0 16 = bitField x 32 16 ∧ bitField y 48 1 = 1 - bitField x 48 1 ∧
      bitField y 62 1 = 0 ∧ bitField y 63 1 = (if skip then 1 else bitField x 62 1)) ∧
    (bitField x 0 16 < k → bitField y 61 1 = 1) := by
  have hp := bitField_lt x 0 16
  have he := bitField_lt x 32 16
  rcases Nat.lt_or_ge k (bitField x 0 16) with h | h
  · have hova : ovaAfter x k = bitField x 61 1 := if_neg (by omega)
    obtain ⟨hlt, h0, h16, h32, h48, h49, h61, -, h63⟩ := fields_objOf (pend := bitField x 0 16 - k) (by omega) he
      (bitField_lt x 48 1) (ovaAfter_lt x k) (skipAfter_lt x skip) (bitField_lt x 63 1)
    simp only [objArrive_short skip h]
    exact ⟨hlt, h32, h16, h49, fun _ => ⟨h0, h48, h61.trans hova, h63⟩, fun h' => by omega, fun h' => by omega⟩
  · obtain ⟨hlt, h0, h16, h32, h48, h49, h61, h62, h63⟩ := fields_objOf he he (ph := 1 - bitField x 48 1) (by omega)
      (ovaAfter_lt x k) (cskip := 0) (by decide) (skipAfter_lt x skip)
    simp only [objArrive_full skip h]
    exact ⟨hlt, h32, h16, h49, fun h' => by omega, fun _ => ⟨h0, h48, h62, h63⟩, fun h' => h61.trans (if_pos h')⟩

/-! ### Bytes of a scratchpad -/

theorem leNat_leBytes (n v : Nat) : leNat (leBytes n v) = v % 256 ^ n := by
  induction n generalizing v with
  | zero => simp [leBytes, leNat, Nat.mod_one]
  | succ n ih => rw [leBytes, leNat, ih, Nat.pow_succ', Nat.mod_mul]; simp

theorem upFrom_succ (a n : Nat) : upFrom a (n + 1) = a :: upFrom (a + 1) n := by
  simp [upFrom, List.range_succ_eq_map, Nat.add_assoc, Nat.add_comm 1]

/-- A table with bytes put at consecutive keys reads as before below them. -/
theorem tblGet_putBytes_below (bs : List Byte) (t : Tbl Byte) {a x : Nat} (h : x < a) :
    tblGet 0#8 (((upFrom a bs.length).zip bs).foldl (fun t x => tblSet 0#8 t x.1 x.2) t) x = tblGet 0#8 t x := by
  induction bs generalizing t a with
  | nil => rfl
  | cons b bs ih =>
    rw [List.length_cons, upFrom_succ, List.zip_cons_cons, List.foldl_cons, ih _ (by omega),
      tblGet_tblSet_ne _ _ _ (by omega : a ≠ x)]

/-- A table with bytes put at consecutive keys holds them there. -/
theorem map_tblGet_putBytes (bs : List Byte) (t : Tbl Byte) (a : Nat) : (upFrom a bs.length).map
    (tblGet 0#8 (((upFrom a bs.length).zip bs).foldl (fun t x => tblSet 0#8 t x.1 x.2) t)) = bs := by
  induction bs generalizing t a with
  | nil => rfl
  | cons b bs ih =>
    rw [List.length_cons, upFrom_succ, List.zip_cons_cons, List.foldl_cons, List.map_cons, ih,
      tblGet_putBytes_below _ _ (by omega), tblGet_tblSet_same]

theorem scratchRead_scratchWrite (c : Core) (o : Nat) (bs : List Byte) : (c.scratchWrite o bs).scratchRead o bs.length = bs :=
  map_tblGet_putBytes bs c.scratch o

theorem tblFind_mapSnd {α β : Type} (f : α → β) (t : Tbl α) (i : Nat) :
    tblFind (t.map fun x => (x.1, f x.2)) i = (tblFind t i).map f := by
  induction t with
  | nil => rfl
  | cons p t ih =>
    obtain ⟨k, v⟩ := p
    rw [List.map_cons, tblFind_cons, tblFind_cons, ih]
    split <;> rfl

/-- A block with its fragments changed. -/
def blockFrags (k : Frag → Frag) (b : Block) : Block := { b with groups := b.groups.map fun g => g.mapFrags k }

/-- A core with the fragments of its block changed. -/
def coreFrags (k : Frag → Frag) (c : Core) : Core := { c with block := c.block.map (blockFrags k) }

theorem core_mapFrags (s : State) (k : Frag → Frag) (i : Nat) : (s.mapFrags k).core i = coreFrags k (s.core i) := by
  have hfind := tblFind_mapSnd (coreFrags k) s.cores i
  change (tblFind (s.cores.map fun x => (x.1, coreFrags k x.2)) i).getD Core.empty = _
  rw [hfind, State.core, tblGet]
  cases tblFind s.cores i <;> rfl

theorem frag_mapFrags {g : Group} {f : Frag} {fid : Nat} {k : Frag → Frag} (hk : ∀ f, (k f).fid = f.fid)
    (h : g.frag? fid = some f) : (g.mapFrags k).frag? fid = some (k f) := by
  have hp : ((fun f : Frag => f.fid == fid) ∘ k) = fun f => f.fid == fid := funext fun f => by simp [hk f]
  rw [Group.frag?, Group.mapFrags, List.find?_map, hp]
  exact congrArg (Option.map k) h

theorem StandsAt.mapFrags {s : State} {a : Agent} {pc n : Nat} (h : StandsAt s a pc n) {k : Frag → Frag}
    (hk : ∀ f, (k f).fid = f.fid ∧ (k f).pc = f.pc) : StandsAt (s.mapFrags k) a pc n := by
  obtain ⟨d, hd, hpc, hn⟩ := h
  have hblock (i : Nat) : (s.mapFrags k).block? i = (s.block? i).map (blockFrags k) :=
    congrArg Core.block (core_mapFrags s k i)
  cases a with
  | frag j i f =>
    simp only [State.ctx?, Option.bind_eq_bind, Option.bind_eq_some_iff, Option.some.injEq] at hd
    obtain ⟨b, hb, g, hg, x, hx, rfl⟩ := hd
    have hg' : (s.mapFrags k).group? (.grp j i) = some (g.mapFrags k) := by
      simp only [agentSite, State.group?, hb, Option.bind_some] at hg
      simp only [State.group?, hblock, hb, Option.map_some, Option.bind_some, blockFrags, List.find?_map]
      exact congrArg (Option.map fun g => g.mapFrags k) hg
    refine ⟨_, by simp [State.ctx?, agentSite, hg', hblock, hb, frag_mapFrags (fun f => (hk f).1) hx]; rfl, ?_, ?_⟩
    · exact (hk x).2.trans hpc
    · exact hn
  | ejected j i =>
    simp only [State.ctx?, Option.bind_eq_bind, Option.bind_eq_some_iff, Option.some.injEq] at hd
    obtain ⟨b, hb, e, he, x, hx, rfl⟩ := hd
    have he' : (s.mapFrags k).ejected? j i = some { e with grp := e.grp.mapFrags k } := by
      rw [State.ejected?, State.mapFrags, List.find?_map]
      exact congrArg (Option.map _) he
    refine ⟨_, by simp [State.ctx?, he', hblock, hb, frag_mapFrags (fun f => (hk f).1) hx]; rfl, ?_, ?_⟩
    · exact (hk x).2.trans hpc
    · exact hn
  | hm p => exact ⟨d, hd, hpc, hn⟩

/-! ### An arrival at an object -/

theorem object_of_sameMemory {s t : State} (h : sameMemory s t) (k off : Nat) : (t.core k).object off = (s.core k).object off := by
  have hb : (t.core k).scratchByte = (s.core k).scratchByte := by
    funext o
    rw [Core.scratchByte, Core.scratchByte, (h.2.2 k).1]
  rw [Core.object, Core.object, Core.scratchRead, Core.scratchRead, hb]

/-- An arrival replaces the object by its value after it (R235). -/
theorem object_objArrive (s : State) (k off n : Nat) (skip : Bool) :
    ((s.objArrive k off n skip).core k).object off = objArrive ((s.core k).object off) n skip := by
  have hread : ((s.objArrive k off n skip).core k).scratchRead off 8 =
      leBytes 8 (objArrive ((s.core k).object off) n skip) := by
    have hw := scratchRead_scratchWrite (s.core k) off (leBytes 8 (objArrive ((s.core k).object off) n skip))
    rw [length_leBytes] at hw
    rw [← hw, State.objArrive, State.scratchWrite, core_mapFrags, core_setCore_same]
    rfl
  obtain ⟨hlt, -⟩ := fields_objArrive ((s.core k).object off) n skip
  rw [Core.object, hread, leNat_leBytes, Nat.mod_eq_of_lt (by simpa using hlt), objBits_objArrive]

theorem StandsAt.objArrive {s : State} {a : Agent} {pc n : Nat} (h : StandsAt s a pc n) (k off m : Nat) (skip : Bool) :
    StandsAt (s.objArrive k off m skip) a pc n := by
  unfold State.objArrive State.scratchWrite
  refine StandsAt.mapFrags ?_ fun f => ?_
  · exact h.of_hosts (hosts_setCore rfl)
  · unfold Frag.objectChange
    split <;> exact ⟨rfl, rfl⟩

/-! ### MBINIT (R236) -/

theorem not_poisoned_of_clean {c : Ctx} {w : Common} (h : Clean c w.guard) {p : Bool} {l : Nat} (hl : l ∈ c.units w p) (o : Opnd)
    (n : Nat) : c.poisoned l o n = false := by
  have hbad := h l (mem_units_acting c w p l hl)
  cases o <;> simp [Ctx.poisoned, hbad]

/-- The release part of a store changes the mark of its fragment alone (R126). -/
theorem relMark_keeps {s s1 : State} {c c1 : Ctx} {w : MemOp} (h : s.ctx? c.agent = some c) (hr : relMark s c w = (s1, c1)) :
    s1.ctx? c.agent = some c1 ∧ c1.f.pc = c.f.pc ∧ keepsBut c.g c1.g [] ∧ c1.g.sbuf = c.g.sbuf ∧ sameMemory s s1 := by
  unfold relMark at hr
  split at hr
  · obtain ⟨rfl, rfl⟩ := Prod.mk.inj hr
    have hctx : (s.setMark c.agent (c.scope w.scope)).ctx? c.agent = _ := ctx_mapFrag h rfl
    rw [reread_of_ctx hctx]
    exact ⟨hctx, rfl, fun r _ => readLoc_withFrag _ _ r, rfl, sameMemory_mapFrag s _ _⟩
  · obtain ⟨rfl, rfl⟩ := Prod.mk.inj hr
    exact ⟨h, rfl, keepsBut_refl _ _, rfl, sameMemory_refl s⟩

/-- The common end of a store to a scratchpad that reads none of its place and advances no base: its items are appended in one
entry (R55). -/
theorem storeScratch_next {s : State} {c : Ctx} {w : MemOp} {ls : List Nat} {addrs : List (Nat × Nat)} {reads : List (Opnd × Nat)}
    {ps : List (Nat × Nat × Nat)} (h : s.ctx? c.agent = some c) (hb : sbovf c ls = none)
    (hpois : ∀ l ∈ ls, ∀ o ∈ reads, c.poisoned l o.1 o.2 = false) (hps : scratchLanes s c 2 addrs = .inl ps)
    (act : Nat → StoreAct) :
    ∃ t, storeScratch s c w 0 ls addrs reads [] act = .next t ∧ sameMemory s t ∧ PassedOn t c ∧ After t c fun d =>
      ∃ e, d.g.sbuf = c.g.sbuf ++ [e] ∧
        e.items = ps.map fun p => storeItem c (sharers c w.toCommon) p.1 (.scratch p.2.1 p.2.2) (act p.1) := by
  have hclean : (ls.any fun l => reads.any fun o => c.poisoned l o.1 o.2) = false := by
    simpa [List.any_eq_false] using hpois
  have hseen : ps.find? (seesPoison s c 0) = none := by simp [seesPoison, granules]
  have hwrite : (s.mapGroup c.agent fun g => g.writeLocs []).ctx? c.agent = some c := ctx_mapGroup h rfl rfl rfl
  rcases hr : relMark (s.mapGroup c.agent fun g => g.writeLocs []) c w with ⟨s1, c1⟩
  obtain ⟨hctx, hpc, hregs, hsbuf, hmem⟩ := relMark_keeps hwrite hr
  obtain ⟨hm, hpass, hafter⟩ := append_advance hctx (ctx_agent hctx) hpc hregs hsbuf
    (ps.map fun p => storeItem c (sharers c w.toCommon) p.1 (.scratch p.2.1 p.2.2) (act p.1)) (strongScope c1 w) false
  refine ⟨_, ?_, sameMemory_trans (sameMemory_trans (sameMemory_mapGroup s _ _) hmem) hm, hpass, hafter⟩
  simp only [storeScratch, hb, hclean, hps, hseen, hr, finish, ctx_agent hctx, Bool.false_eq_true, if_false]

/-! ### Results in registers -/

theorem destLocs_single (d : Opnd) (l : Nat) (x : W32) : destLocs d l [x] = (destRegs d l 1).map fun q => (q, x) := by
  cases d <;> rfl

/-- The destinations of two lanes share no register. -/
def DestsApart (d : Opnd) (l m : Nat) : Prop := ∀ q ∈ destRegs d l 1, ∀ q' ∈ destRegs d m 1, q ≠ q'

/-- The registers of a destination that is not scalar belong to their lane (R44). -/
theorem destsApart_of_ne {d : Opnd} (hd : writesScalar d = false) {l m : Nat} (h : l ≠ m) : DestsApart d l m := by
  rintro q hq _ hq' rfl
  rw [mem_destRegs] at hq hq'
  obtain ⟨i, -, hi⟩ := hq
  obtain ⟨j, -, hj⟩ := hq'
  cases d with
  | near => simp [hi, h] at hj
  | vec => simp [hi, h] at hj
  | scal => cases hd
  | _ => exact hi

theorem writable_of_destRegs {g : Group} {d : Opnd} {l n : Nat} (hl : l < g.lanes.length) {q : RegLoc} (hq : q ∈ destRegs d l n) :
    writable g q := by
  rw [mem_destRegs] at hq
  obtain ⟨i, -, hi⟩ := hq
  cases d with
  | near => subst hi; exact hl
  | vec => subst hi; exact hl
  | scal => subst hi; trivial
  | _ => exact hi.elim

theorem stored_of_destRegs {d : Opnd} {l n : Nat} {q : RegLoc} (hq : q ∈ destRegs d l n) (x : W32) : stored q x = x := by
  rw [mem_destRegs] at hq
  obtain ⟨i, -, hi⟩ := hq
  cases d with
  | near => subst hi; rfl
  | vec => subst hi; rfl
  | scal => subst hi; rfl
  | _ => exact hi.elim

/-- The results of lanes, a word each. -/
def laneWrites (d : Opnd) (rs : List (Nat × W32)) : List (RegLoc × W32) := rs.flatMap fun r => destLocs d r.1 [r.2]

/-- A register of a lane's destination holds the lane's word, where the lanes have destinations of their own. -/
theorem readLoc_laneWrites {d : Opnd} {rs : List (Nat × W32)} (g : Group)
    (hd : rs.Pairwise fun r r' => DestsApart d r.1 r'.1) {p : Nat × W32} (hp : p ∈ rs)
    (hl : p.1 < g.lanes.length) {q : RegLoc} (hq : q ∈ destRegs d p.1 1) : readLoc (g.writeLocs (laneWrites d rs)) q = p.2 := by
  have hfst : (laneWrites d rs).map (·.1) = rs.flatMap fun r => destRegs d r.1 1 := by
    simp [laneWrites, List.map_flatMap, destLocs_fst]
  have hone (l : Nat) : (destRegs d l 1).Nodup := by cases d <;> simp [destRegs, destLocs]
  have hnodup : ((laneWrites d rs).map (·.1)).Nodup := by
    rw [hfst, List.Nodup, List.pairwise_flatMap]
    exact ⟨fun r _ => hone r.1, hd⟩
  have hmem : (q, p.2) ∈ laneWrites d rs :=
    List.mem_flatMap.2 ⟨p, hp, by rw [destLocs_single]; exact List.mem_map_of_mem hq⟩
  rw [readLoc_writeLocs_mem _ g q p.2 hnodup hmem (writable_of_destRegs hl hq), stored_of_destRegs hq]

section
variable {w : MemOp} {s : State} {c : Ctx} (hal : (c.units w.toCommon false).any (fun l => objAddr c w l % 8 != 0) = false)
include hal

theorem mbinit_next {ps : List (Nat × Nat × Nat)} (h : Issues s (.mbinit w) c)
    (hclean : Clean c w.guard) (hne : c.units w.toCommon false ≠ []) (hb : sbovf c (c.units w.toCommon false) = none)
    (hps : scratchLanes s c 2 ((c.units w.toCommon false).map fun l => (l, objAddr c w l)) = .inl ps) :
    ∃ t, exec (.mbinit w) s = .next t ∧ sameMemory s t ∧ PassedOn t c ∧ After t c fun d =>
      ∃ e, d.g.sbuf = c.g.sbuf ++ [e] ∧
        e.items = ps.map fun p => storeItem c (sharers c w.toCommon) p.1 (.scratch p.2.1 p.2.2)
          (.bytes (leBytes 8 (objInit (c.src p.1 .b32 w.b w.imm)))) := by
  have hstore := storeScratch_next (w := w) (reads := [(w.a.op, 1), (w.b.op, 1)]) h.ctx hb
    (fun l hl o _ => not_poisoned_of_clean hclean hl o.1 o.2) hps fun l => .bytes (leBytes 8 (objInit (c.src l .b32 w.b w.imm)))
  obtain ⟨t, ht, hrest⟩ := hstore
  refine ⟨t, (issuing_of_issues h _).trans ?_, hrest⟩
  rw [← ht]
  simp only [List.isEmpty_iff, hne, List.any_map, Function.comp_def, hal, Bool.false_eq_true, if_false]

/-! ### MBARV (R235, R237) -/

theorem mbarv_next {t0 : State} {l k off : Nat} (h : Issues s (.mbarv w) c) (harr : Arrives s c w t0)
    (hl : l < c.g.lanes.length)
    (hps : objPlaces (barHeld s c w) ((barHeld s c w).reread c) w 3 (c.units w.toCommon false) = .inl [(l, k, off)]) :
    let x := (t0.core k).object off
    let n := ((barHeld s c w).reread c).src l .b32 w.b w.imm % 65536
    ∃ t, exec (.mbarv w) s = .next t ∧ (t.core k).object off = (if n = 0 then x else objArrive x n false) ∧
      After t c fun f => Ended c f ∧ ∀ q ∈ destRegs w.d l 1, readLoc f.g q = BitVec.ofNat 32 (x / 2 ^ 32) := by
  intro x n
  let t1 := if n = 0 then t0 else t0.objArrive k off n false
  let ws := laneWrites w.d [(l, BitVec.ofNat 32 (x / 2 ^ 32))]
  have hrun : exec (.mbarv w) s = .next ((t1.mapGroup c.agent fun g => g.writeLocs ws).performed c.agent) := by
    refine (issuing_of_issues h _).trans ?_
    obtain ⟨hacq, hmark⟩ := harr
    simp [hal, hacq, hmark, hps, objArrivals, t1, ws, n, x, laneWrites]
  have hstands : StandsAt t1 c.agent c.f.pc c.g.lanes.length := by
    have h0 : StandsAt t0 c.agent c.f.pc c.g.lanes.length := StandsAt.arrives ⟨c, h.ctx, rfl, rfl⟩ harr
    dsimp only [t1]
    split
    · exact h0
    · exact h0.objArrive k off n false
  have hobject : (t1.core k).object off = if n = 0 then x else objArrive x n false := by
    dsimp only [t1]
    split
    · rfl
    · exact object_objArrive t0 k off n false
  obtain ⟨d, hd, hpc, hlanes⟩ := hstands
  have hctx := ctx_mapGroup_of_rest (k := fun g => g.writeLocs ws) hd (groupRest_writeLocs _ _) (frags_writeLocs _ _)
  have hend := ended_performed (c := c) hctx hpc
  obtain ⟨e, he, hended, hregs⟩ := hend
  have hmem := sameMemory_trans (sameMemory_mapGroup t1 c.agent fun g => g.writeLocs ws) (sameMemory_performed _ c.agent)
  refine ⟨_, hrun, (object_of_sameMemory hmem k off).trans hobject, e, he, hended, fun q hq => (hregs q).trans ?_⟩
  exact readLoc_laneWrites d.g (List.pairwise_singleton _ _) (List.mem_singleton_self _) (hlanes ▸ hl) hq

/-! ### MBTST (R237) -/

/-- The address of an object is that of every acting lane, where the operands are scalar (R45). -/
theorem objAddr_acting (hne : c.units w.toCommon false ≠ []) :
    (c.acting w.guard).any (fun l => objAddr c w l % 8 != 0) = false := by
  cases hs : w.operandsScalar with
  | false => simpa [Ctx.units, hs] using hal
  | true =>
    obtain ⟨m, hm⟩ := List.exists_mem_of_ne_nil _ hne
    have hsame (l : Nat) : objAddr c w l = objAddr c w m := by
      simp only [Common.operandsScalar, Bool.and_eq_true] at hs
      obtain ⟨⟨⟨-, ha⟩, -⟩, -⟩ := hs
      unfold objAddr Ctx.spAddr
      cases hop : w.a.op <;> simp_all [Opnd.isScalar, Ctx.reg]
    rw [List.any_eq_false] at hal ⊢
    intro l _
    rw [hsame l]
    exact hal m hm

end

theorem units_perLane (c : Ctx) (w : Common) : c.units w true = c.acting w.guard := by simp [Ctx.units]

theorem lanes_of_scratchLanes {s : State} {c : Ctx} {ak : Nat} : ∀ {addrs : List (Nat × Nat)} {ps : List (Nat × Nat × Nat)},
    scratchLanes s c ak addrs = .inl ps → ps.map (·.1) = addrs.map (·.1)
  | [], ps, h => by cases h; rfl
  | (l, addr) :: rest, ps, h => by
    unfold scratchLanes at h
    split at h
    · cases h
    · split at h
      · cases h
      · next hr =>
        cases h
        exact congrArg (l :: ·) (lanes_of_scratchLanes hr)

/-- The objects that an access reaches are those of its lanes, in order. -/
theorem lanes_of_objPlaces {s : State} {c : Ctx} {w : MemOp} {ak : Nat} {ls : List Nat} {ps : List (Nat × Nat × Nat)}
    (h : objPlaces s c w ak ls = .inl ps) : ps.map (·.1) = ls := by
  unfold objPlaces at h
  split at h
  · cases h
  · split at h
    · cases h
    · next qs hq =>
      have hl := lanes_of_scratchLanes hq
      split at h
      · cases h
      · split at h
        · cases h
        · cases h
          simpa [Function.comp_def] using hl

/-- What MBTST gives its lanes: to the predicate whether the phase has passed, to D the upper word (R237). -/
def testWrites (pd : Nat) (d : Opnd) (rs : List (Nat × Nat × Bool)) (g : Group) : Group :=
  (rs.foldl (fun g r => g.setLane r.1 ((g.lane r.1).setPred pd r.2.2)) g).writeLocs
    (rs.flatMap fun r => destLocs d r.1 [BitVec.ofNat 32 r.2.1])

/-- The predicates of MBTST as lane results. -/
def testPreds (rs : List (Nat × Nat × Bool)) : List (Nat × LaneRes) := rs.map fun r => (r.1, { pd := some r.2.2 })

/-- The words of MBTST. -/
def testWords (rs : List (Nat × Nat × Bool)) : List (Nat × W32) := rs.map fun r => (r.1, BitVec.ofNat 32 r.2.1)

theorem testWrites_eq (pd : Nat) (d : Opnd) (rs : List (Nat × Nat × Bool)) (g : Group) : testWrites pd d rs g =
    ((testPreds rs).foldl (fun g r => g.laneRes pd r) g).writeLocs (laneWrites d (testWords rs)) := by
  rw [testPreds, testWords, laneWrites, List.foldl_map, List.flatMap_map]
  rfl

theorem testWrites_rest (pd : Nat) (d : Opnd) (rs : List (Nat × Nat × Bool)) (g : Group) :
    groupRest (testWrites pd d rs g) = groupRest g ∧ (testWrites pd d rs g).frags = g.frags := by
  have hlanes := lanesDone_fold pd (testPreds rs) g
  rw [testWrites_eq]
  exact ⟨(groupRest_writeLocs _ _).trans hlanes.rest, (frags_writeLocs _ _).trans hlanes.frags⟩

/-- A predicate is what its place reads. -/
theorem pred_of_readLoc {g h : Group} {l i : Nat} (e : readLoc g (.pred l i) = readLoc h (.pred l i)) :
    (g.lane l).pred i = (h.lane l).pred i := by
  simp only [readLoc] at e
  cases hg : (g.lane l).pred i <;> cases hh : (h.lane l).pred i <;> simp [hg, hh] at e ⊢

theorem pred_testWrites {pd : Nat} {d : Opnd} {rs : List (Nat × Nat × Bool)} {g : Group} (hn : (rs.map (·.1)).Nodup)
    (hpd : pd < 7) {r : Nat × Nat × Bool} (hr : r ∈ rs) (hl : r.1 < g.lanes.length) : ((testWrites pd d rs g).lane r.1).pred pd = r.2.2 := by
  have hn' : ((testPreds rs).map (·.1)).Nodup := by simpa [testPreds, Function.comp_def] using hn
  have hpred := lanes_pred pd (testPreds rs) g hn' hpd (r.1, { pd := some r.2.2 }) (List.mem_map_of_mem hr) r.2.2 rfl hl
  rw [testWrites_eq]
  refine (pred_of_readLoc (readLoc_writeLocs_ne _ _ _ fun q hq => ?_)).trans hpred
  obtain ⟨x, -, hx⟩ := List.mem_flatMap.1 hq
  exact destLocs_not_pred _ _ _ _ hx _ _

theorem readLoc_testWrites {pd : Nat} {d : Opnd} {rs : List (Nat × Nat × Bool)} {g : Group} (hn : (rs.map (·.1)).Nodup)
    (hd : writesScalar d = false) {r : Nat × Nat × Bool} (hr : r ∈ rs) (hl : r.1 < g.lanes.length) {q : RegLoc}
    (hq : q ∈ destRegs d r.1 1) : readLoc (testWrites pd d rs g) q = BitVec.ofNat 32 r.2.1 := by
  have hlen := lanes_of_groupRest _ _ (lanesDone_fold pd (testPreds rs) g).rest
  have hmem : (r.1, BitVec.ofNat 32 r.2.1) ∈ testWords rs :=
    List.mem_map_of_mem (f := fun r : Nat × Nat × Bool => (r.1, BitVec.ofNat 32 r.2.1)) hr
  have hdisj : (testWords rs).Pairwise fun r r' => DestsApart d r.1 r'.1 := by
    rw [testWords, List.pairwise_map]
    exact (List.pairwise_map.1 hn).imp fun hne => destsApart_of_ne hd hne
  rw [testWrites_eq]
  exact readLoc_laneWrites _ hdisj hmem (hlen ▸ hl) hq

/-- The issuer of an MBTST afterwards: one instruction on, its lanes with their predicates and words. -/
theorem after_testWrites {s : State} {c : Ctx} {pd : Nat} {d : Opnd} {rs : List (Nat × Nat × Bool)} (h : s.ctx? c.agent = some c)
    (hn : (rs.map (·.1)).Nodup) (hpd : pd < 8) (hd : writesScalar d = false) :
    After ((s.mapGroup c.agent (testWrites pd d rs)).advance c.agent) c fun e => e.f.pc = c.f.pc + 16 ∧
      ∀ r ∈ rs, r.1 < c.g.lanes.length → (pd ≠ 7 → (e.g.lane r.1).pred pd = r.2.2) ∧
        ∀ q ∈ destRegs d r.1 1, readLoc e.g q = BitVec.ofNat 32 r.2.1 := by
  obtain ⟨hrest, hfrags⟩ := testWrites_rest pd d rs c.g
  refine after_advance (ctx_mapGroup_of_rest h hrest hfrags) ⟨rfl, fun r hr hl => ⟨fun h7 => ?_, fun q hq => ?_⟩⟩
  · exact pred_testWrites hn (by omega) hr hl
  · exact (readLoc_withFrag _ _ q).trans (readLoc_testWrites hn hd hr hl hq)

/-- What a lane of an MBTST reads: its lane, the upper word of its object, and whether its phase has passed. -/
def testRead (s : State) (c : Ctx) (w : MemOp) (p : Nat × Nat × Nat) : Nat × Nat × Bool :=
  (p.1, objSeen s c p / 2 ^ 32, objPassed (objSeen s c p) (testBit (c.src p.1 .b32 w.b w.imm) 0))

theorem mbtst_next {w : MemOp} {s : State} {c : Ctx} {ps : List (Nat × Nat × Nat)}
    (hal : (c.units w.toCommon false).any (fun l => objAddr c w l % 8 != 0) = false) (hne : c.units w.toCommon false ≠ [])
    (h : Issues s (.mbtst w) c) (hb : accessBlock c = none) (hd : writesScalar w.d = false)
    (hps : objPlaces s c w 1 (c.acting w.guard) = .inl ps) :
    ∃ t, exec (.mbtst w) s = .next t ∧ AcquiredAt s t c.cluster ∧ After t c fun d => d.f.pc = c.f.pc + 16 ∧
      ∀ p ∈ ps, p.1 < c.g.lanes.length →
        (w.hint.toNat % 8 ≠ 7 → (d.g.lane p.1).pred (w.hint.toNat % 8) =
          (testBit (objSeen s c p) 48 != testBit (c.src p.1 .b32 w.b w.imm) 0)) ∧
        ∀ q ∈ destRegs w.d p.1 1, readLoc d.g q = BitVec.ofNat 32 (objSeen s c p / 2 ^ 32) := by
  let s1 := if (ps.map (testRead s c w)).any fun r => r.2.2 then s.acquire c (c.scope w.scope) else s
  have hact : c.acting w.guard ≠ [] := fun e => by simp [Ctx.units, e] at hne
  have hrun : exec (.mbtst w) s = .next ((s1.mapGroup c.agent
      (testWrites (w.hint.toNat % 8) w.d (ps.map (testRead s c w)))).advance c.agent) := by
    refine (issuing_of_issues h _).trans ?_
    simp only [units_perLane, List.isEmpty_iff, hact, objAddr_acting hal hne, hb, hps, finish, Bool.false_eq_true, if_false]
    rfl
  have hs1 : hosts s1 = hosts s ∧ AcquiredAt s s1 c.cluster := by
    dsimp only [s1]
    split
    · exact ⟨hosts_acquire s c _, acquiredAt_acquire s c _⟩
    · exact ⟨rfl, fun _ _ => rfl⟩
  obtain ⟨hhosts, hacq⟩ := hs1
  have hnodup : ((ps.map (testRead s c w)).map (·.1)).Nodup := by
    have hl := lanes_of_objPlaces hps
    simp only [testRead, List.map_map, Function.comp_def, hl]
    exact acting_nodup c w.guard
  obtain ⟨e, he, hpc, hall⟩ := after_testWrites (pd := w.hint.toNat % 8) ((ctx_of_hosts hhosts c.agent).trans h.ctx) hnodup
    (by omega) hd
  have hmem := sameMemory_trans (sameMemory_mapGroup s1 c.agent (testWrites (w.hint.toNat % 8) w.d (ps.map (testRead s c w))))
    (sameMemory_advance _ c.agent)
  refine ⟨_, hrun, acquiredAt_of_sameMemory hacq hmem, e, he, hpc, ?_⟩
  exact fun p hp => hall (testRead s c w p) (List.mem_map_of_mem hp)

/-! ### MBWAIT (R237) -/

theorem not_objPassed (x : Nat) (parity : Bool) : (!objPassed x parity) = (testBit x 48 == parity) := by
  rw [objPassed, bne, Bool.not_not]

theorem mbwait_next {w : MemOp} {s : State} {c : Ctx} {ps : List (Nat × Nat × Nat)}
    (hal : (c.units w.toCommon false).any (fun l => objAddr c w l % 8 != 0) = false) (hne : c.units w.toCommon false ≠ [])
    (h : Issues s (.mbwait w) c) (hb : accessBlock c = none) (hps : objPlaces s c w 1 (c.units w.toCommon false) = .inl ps)
    (hw : ∀ i sc, c.f.wait ≠ .object i sc) :
    let held := ps.filter fun p => testBit (objSeen s c p) 48 == testBit (c.src p.1 .b32 w.b w.imm) 0
    (held = [] → ∃ t, exec (.mbwait w) s = .next t ∧ AcquiredAt s t c.cluster ∧ PassedOn t c) ∧
    (held ≠ [] → ∃ t, exec (.mbwait w) s = .next t ∧ sameMemory s t ∧ After t c fun d => d.f.pc = c.f.pc ∧
      ∃ items sc, d.f.wait = .object items sc ∧ items.map (·.1) = held.map (·.1)) := by
  intro held
  let items := held.map fun p => (p.1, p.2.1, p.2.2, testBit (c.src p.1 .b32 w.b w.imm) 0)
  have hrun : exec (.mbwait w) s = if held = [] then finish (s.acquire c (c.scope w.scope)) c
      else waiting s c (.object items (c.scope w.scope)) := by
    refine (issuing_of_issues h _).trans ?_
    dsimp only
    split
    · next hc => exact absurd hc (hw _ _)
    · simp only [List.isEmpty_iff, hne, hal, hb, hps, not_objPassed, List.map_eq_nil_iff, Bool.false_eq_true, if_false]
      rfl
  have hacq : (s.acquire c (c.scope w.scope)).ctx? c.agent = some c := (ctx_of_hosts (hosts_acquire s c _) c.agent).trans h.ctx
  refine ⟨fun he => ⟨_, hrun.trans (if_pos he), ?_, ?_⟩, fun he => ⟨_, hrun.trans (if_neg he), sameMemory_park s _ _, ?_⟩⟩
  · exact acquiredAt_of_sameMemory (acquiredAt_acquire s c _) (sameMemory_advance _ _)
  · exact passedOn_advance hacq rfl (keepsBut_refl _ _)
  · exact ⟨_, ctx_mapFrag h.ctx rfl, rfl, items, _, rfl, by simp [items, Function.comp_def]⟩

/-- Settles O25: the value of an object after an arrival by its fields, each instruction by its own lemma. -/
theorem objectBarriers : Obligations.ObjectBarriers := by
  unfold Obligations.ObjectBarriers
  refine ⟨fun x k skip _ => fields_objArrive x k skip, ?_⟩
  intro w s c ps hclean ls val hne hal
  refine ⟨?_, ?_, ?_, ?_⟩
  · exact fun h hb hps => mbinit_next hal h hclean hne hb hps
  · intro t0 l k off h harr _ hl d hps
    exact mbarv_next hal h harr hl hps
  · exact fun ps h hb hd hps => mbtst_next hal hne h hb hd hps
  · exact fun h hb hps hw => mbwait_next hal hne h hb hps hw

end Sys2Proof.Proofs
end

section
/-! Remote reads and writes of the host (R16, R106, R107, R304). -/

namespace Sys2Proof.Proofs

open Sys2Proof Sys2Proof.Machine Sys2Proof.Claims Sys2Proof.Laws

/-! ### Numbers in a row and granules -/

theorem mem_upFrom {a n x : Nat} : x ∈ upFrom a n ↔ a ≤ x ∧ x < a + n := by
  simp only [upFrom, List.mem_map, List.mem_range]
  exact ⟨fun ⟨k, hk, e⟩ => by omega, fun h => ⟨x - a, by omega, by omega⟩⟩

theorem mem_granules {size a n g : Nat} : g ∈ granules size a n ↔ n ≠ 0 ∧ a / size ≤ g ∧ g ≤ (a + n - 1) / size := by
  by_cases hn : n = 0
  · simp [granules, hn]
  · have hle : a / size ≤ (a + n - 1) / size := Nat.div_le_div_right (by omega)
    simp only [granules, beq_iff_eq, hn, if_false, mem_upFrom, ne_eq, not_false_eq_true, true_and]
    omega

/-- The granule of a byte among those of the bytes around it. -/
theorem div_mem_granules {size a n x : Nat} (h : a ≤ x ∧ x < a + n) : x / size ∈ granules size a n :=
  mem_granules.2 ⟨by omega, Nat.div_le_div_right h.1, Nat.div_le_div_right (by omega)⟩

/-- What holds at each offset of a range holds of its members. -/
theorem of_offsets {p : Nat → Bool} {a n x : Nat} (h : ∀ k < n, p (a + k) = true) (hx : a ≤ x ∧ x < a + n) : p x = true := by
  have hk := h (x - a) (by omega)
  rwa [Nat.add_sub_cancel' hx.1] at hk

/-- Two folds whose steps agree on the members of their list. -/
theorem foldl_eq_of_mem {α β : Type} {k k' : β → α → β} {xs : List α} (s : β) (h : ∀ s, ∀ x ∈ xs, k s x = k' s x) :
    xs.foldl k s = xs.foldl k' s := by
  induction xs generalizing s with
  | nil => rfl
  | cons x xs ih =>
    rw [List.foldl_cons, List.foldl_cons, h s x List.mem_cons_self]
    exact ih _ fun s y hy => h s y (List.mem_cons_of_mem _ hy)

/-! ### The map of the stacks (R106) -/

theorem lt_of_isHbm {pa : Nat} (h : isHbm pa = true) : pa < 0x20000000000 := by
  simp only [isHbm, Bool.and_eq_true, decide_eq_true_eq] at h
  exact h.1

theorem windowOf_hbm {pa : Nat} (h : isHbm pa = true) : windowOf pa = none := by
  have := lt_of_isHbm h
  have hlow : ¬(0x800000000000 ≤ pa ∧ pa < 0x800400000000) := by omega
  simp [windowOf, hlow]

theorem controlOf_hbm {pa : Nat} (h : isHbm pa = true) : controlOf pa = none := by
  have := lt_of_isHbm h
  have hlow : ¬(0x800000000000 ≤ pa ∧ pa < 0x800400000000) := by omega
  simp [controlOf, hlow]

theorem touchesWords_hbm {pa : Nat} (h : isHbm pa = true) : touchesWords pa = false := by
  rw [touchesWords, windowOf_hbm h]

theorem remoteGet_hbm {pa : Nat} (s : State) (h : isHbm pa = true) : remoteGet s pa = s.mscByte pa := by
  rw [remoteGet, controlOf_hbm h, windowOf_hbm h]

theorem remotePoisoned_hbm {pa : Nat} (s : State) (h : isHbm pa = true) : remotePoisoned s pa = s.memPoisoned pa 1 := by
  rw [remotePoisoned, windowOf_hbm h, h, Bool.true_and]

theorem remoteRun_hbm {pa : Nat} (s : State) (bs : List Byte) (h : isHbm pa = true) : remoteRun s pa bs = s.mscWrite pa bs := by
  rw [remoteRun, controlOf_hbm h, windowOf_hbm h]
  exact if_pos h

/-! ### A remote write of bytes of the stacks -/

/-- The address from which a write of bytes from `pa` runs in the range unit `g`. -/
def partStart (pa g : Nat) : Nat := max pa (rangeUnit * g)

/-- The bytes of a write from `pa` that lie in the range unit `g`. -/
def partBytes (pa : Nat) (bs : List Byte) (g : Nat) : List Byte :=
  (bs.drop (partStart pa g - pa)).take (rangeUnit * (g + 1) - partStart pa g)

/-- The part of a write that lies in the range unit `g`, stored at the memory-side cache. -/
def writePart (pa : Nat) (bs : List Byte) (s : State) (g : Nat) : State := s.mscWrite (partStart pa g) (partBytes pa bs g)

theorem remoteBytes_hbm {pa : Nat} {bs : List Byte} (s : State) (h : ∀ k < bs.length, isHbm (pa + k) = true) :
    remoteBytes s pa bs = (granules rangeUnit pa bs.length).foldl (writePart pa bs) s := by
  refine foldl_eq_of_mem _ fun t g hg => remoteRun_hbm t _ ?_
  obtain ⟨hn, -, hle⟩ := mem_granules.1 hg
  have hmul : g * rangeUnit ≤ pa + bs.length - 1 := (Nat.le_div_iff_mul_le (by decide)).1 hle
  exact of_offsets h ⟨Nat.le_max_left _ _, Nat.max_lt.2 ⟨by omega, by rw [Nat.mul_comm]; omega⟩⟩

/-- A byte of a write lies in the part of its own range unit. -/
theorem mem_part_iff {pa g x : Nat} {bs : List Byte} (hx : pa ≤ x ∧ x < pa + bs.length) :
    (partStart pa g ≤ x ∧ x < partStart pa g + (partBytes pa bs g).length) ↔ x / rangeUnit = g := by
  simp only [partBytes, partStart, rangeUnit, List.length_take, List.length_drop]
  omega

theorem mscByte_writePart_outside (s : State) {pa g x : Nat} {bs : List Byte}
    (h : x < pa ∨ pa + bs.length ≤ x ∨ x / rangeUnit ≠ g) : (writePart pa bs s g).mscByte x = s.mscByte x := by
  refine mscByte_mscWrite_outside s _ _ _ ?_
  simp only [partBytes, partStart, rangeUnit, List.length_take, List.length_drop] at h ⊢
  omega

theorem mscByte_writePart_inside (s : State) {pa k : Nat} {bs : List Byte} (h : ∀ k < bs.length, isHbm (pa + k) = true)
    (hk : k < bs.length) : (writePart pa bs s ((pa + k) / rangeUnit)).mscByte (pa + k) = bs[k] := by
  have hx := (mem_part_iff (pa := pa) (x := pa + k) (bs := bs) ⟨by omega, by omega⟩).2 rfl
  have hlo : pa ≤ partStart pa ((pa + k) / rangeUnit) := Nat.le_max_left _ _
  have hstart : isHbm (partStart pa ((pa + k) / rangeUnit)) = true := of_offsets h ⟨hlo, by omega⟩
  have hin := mscByte_mscWrite_inside s (partStart pa ((pa + k) / rangeUnit)) (pa + k - partStart pa ((pa + k) / rangeUnit))
    (partBytes pa bs ((pa + k) / rangeUnit)) (by omega) hstart
    (by rw [Nat.add_sub_cancel' hx.1]; exact h k hk)
  rw [Nat.add_sub_cancel' hx.1] at hin
  rw [writePart, hin]
  simp only [partBytes, List.getElem_take, List.getElem_drop]
  congr 1
  omega

/-- The parts of a write, one after another: a byte is written with the part of its range unit. -/
theorem mscByte_writeParts {pa : Nat} {bs : List Byte} (h : ∀ k < bs.length, isHbm (pa + k) = true) (gs : List Nat) (s : State)
    {k : Nat} (hk : k < bs.length) : (gs.foldl (writePart pa bs) s).mscByte (pa + k) =
      if (pa + k) / rangeUnit ∈ gs then bs[k] else s.mscByte (pa + k) := by
  induction gs generalizing s with
  | nil => simp
  | cons g gs ih =>
    rw [List.foldl_cons, ih]
    by_cases hmem : (pa + k) / rangeUnit ∈ gs
    · rw [if_pos hmem, if_pos (List.mem_cons_of_mem _ hmem)]
    · rw [if_neg hmem]
      by_cases hg : (pa + k) / rangeUnit = g
      · rw [if_pos (hg ▸ List.mem_cons_self), ← hg, mscByte_writePart_inside s h hk]
      · rw [if_neg (by simp [hg, hmem]), mscByte_writePart_outside s (.inr (.inr hg))]

@[simp] theorem mscWrite_answers (s : State) (pa : Nat) (bs : List Byte) : (s.mscWrite pa bs).answers = s.answers := by
  unfold State.mscWrite; split <;> rfl

theorem remoteWrite_eq (s : State) (pa : Nat) (bs : List Byte) : exec (.remoteWrite pa bs) s = execRemoteWrite pa bs s := rfl

theorem remoteRead_eq (s : State) (pa n : Nat) : exec (.remoteRead pa n) s = execRemoteRead pa n s := rfl

section
variable {s : State} {pa : Nat} {bs : List Byte}

theorem remoteWrite_deaf (h : remoteComes s pa = false) : exec (.remoteWrite pa bs) s = .next s := by
  simp [remoteWrite_eq, execRemoteWrite, h]

theorem remoteRead_deaf {n : Nat} (h : remoteComes s pa = false) : exec (.remoteRead pa n) s = .next s := by
  simp [remoteRead_eq, execRemoteRead, h]

theorem remoteWrite_breach (h : remoteComes s pa = true) (hb : wordBreach pa bs.length = true) :
    exec (.remoteWrite pa bs) s = .next { s with answers := s.answers ++ [⟨false, []⟩] } := by
  simp [remoteWrite_eq, execRemoteWrite, h, hb]

theorem remoteRead_breach {n : Nat} (h : remoteComes s pa = true) (hb : wordBreach pa n = true) :
    exec (.remoteRead pa n) s = .next { s with answers := s.answers ++ [⟨false, []⟩] } := by
  simp [remoteRead_eq, execRemoteRead, h, hb]

end

/-- The stacks take accesses of any bytes (R107). -/
theorem wordBreach_hbm {pa n : Nat} (h : ∀ k < n, isHbm (pa + k) = true) : wordBreach pa n = false := by
  have hnone : (upFrom pa n).any touchesWords = false := List.any_eq_false.2 fun x hx => by
    simp [touchesWords_hbm (of_offsets h (mem_upFrom.1 hx))]
  rw [wordBreach, hnone, Bool.and_false]

section
variable {s : State} {pa n : Nat} (hc : remoteComes s pa = true) (hl : reachesLost s pa n = false)
  (h : ∀ k < n, isHbm (pa + k) = true)
include hc hl h

theorem remoteWrite_hbm {bs : List Byte} (hn : bs.length = n) :
    ∃ t, exec (.remoteWrite pa bs) s = .next t ∧ t.answers = s.answers ++ [⟨true, []⟩] ∧ t.l2 = s.l2 ∧ t.cores = s.cores ∧
      (∀ k < n, some (t.mscByte (pa + k)) = bs[k]?) ∧ ∀ a, a < pa ∨ pa + n ≤ a → t.mscByte a = s.mscByte a := by
  subst hn
  have hrun : exec (.remoteWrite pa bs) s = .next { remoteBytes s pa bs with
      answers := (remoteBytes s pa bs).answers ++ [⟨true, []⟩] } := by
    simp [remoteWrite_eq, execRemoteWrite, hc, hl, wordBreach_hbm h]
  rw [remoteBytes_hbm s h] at hrun
  refine ⟨_, hrun, ?_, ?_, ?_, fun k hk => ?_, fun a ha => ?_⟩
  · exact congrArg (· ++ [_]) (foldl_same State.answers _ _ s fun t g => mscWrite_answers t _ _)
  · exact foldl_same State.l2 _ _ s fun t g => mscWrite_l2 t _ _
  · exact foldl_same State.cores _ _ s fun t g => mscWrite_cores t _ _
  · rw [List.getElem?_eq_getElem hk]
    refine congrArg some ((mscByte_writeParts h _ s hk).trans (if_pos (div_mem_granules ⟨by omega, by omega⟩)))
  · exact foldl_same (State.mscByte · a) _ _ s fun t g => mscByte_writePart_outside t (by omega)

theorem remoteRead_hbm : exec (.remoteRead pa n) s =
    if (upFrom pa n).any (fun x => s.memPoisoned x 1) then .next { s with answers := s.answers ++ [⟨false, []⟩] }
    else .next { s with answers := s.answers ++ [⟨true, s.mscRead pa n⟩] } := by
  have hstack : ∀ x ∈ upFrom pa n, isHbm x = true := fun x hx => of_offsets h (mem_upFrom.1 hx)
  have hbad : (upFrom pa n).any (remotePoisoned s) = (upFrom pa n).any fun x => s.memPoisoned x 1 := by
    rw [Bool.eq_iff_iff, List.any_eq_true, List.any_eq_true]
    exact exists_congr fun x => and_congr_right fun hx => by rw [remotePoisoned_hbm s (hstack x hx)]
  have hget : (upFrom pa n).map (remoteGet s) = s.mscRead pa n := List.map_congr_left fun x hx => remoteGet_hbm s (hstack x hx)
  simp [remoteRead_eq, execRemoteRead, hc, hl, wordBreach_hbm h, hbad, hget]

end

/-! ### Writes of the control range -/

theorem written_deaf {s : State} {d : Nat} (h : s.hears d = false) (k : State → State) : (.next (s.written d k) : Out) = .next s := by
  rw [State.written, h]; rfl

/-- No write of the registers of a die arrives while its port is down (R16, R285). -/
theorem hostWrites_deaf {s : State} {d : Nat} (v n o : Nat) (x : W32) (hd : d < 32) (h : s.hears d = false) :
    ∀ i ∈ hostWrites d v n o x, exec i s = .next s := by
  have hslot (k : State → State) : (.next (s.written ((2 * d + o % 2) / 2) k) : Out) = .next s :=
    written_deaf (by rwa [show (2 * d + o % 2) / 2 = d by omega]) k
  have hreg (k : State → State) : (.next (s.written (d % 32) k) : Out) = .next s := written_deaf (by rwa [Nat.mod_eq_of_lt hd]) k
  have hdie (k : State → State) : (.next (s.written d k) : Out) = .next s := written_deaf h k
  have hzero (h0 : d = 0) (k : State → State) : (.next (s.written 0 k) : Out) = .next s := written_deaf (h0 ▸ h) k
  simp only [hostWrites, List.forall_mem_append, List.forall_mem_cons, List.not_mem_nil, false_imp_iff, implies_true, and_true]
  refine ⟨⟨hslot _, hslot _, hslot _, hslot _, hdie _, hdie _, hdie _, hdie _, hdie _, hdie _, hdie _, hdie _, hdie _, hreg _⟩, ?_⟩
  split
  · next h0 =>
    simp only [List.forall_mem_cons, List.not_mem_nil, false_imp_iff, implies_true, and_true]
    exact ⟨hzero h0 _, hzero h0 _⟩
  · simp

/-- Settles O46: a remote write of the stacks by the parts of its range units, a read by the bytes and their poison, and the
writes of the control range by the port that all of them come through. -/
theorem remoteAccess : Obligations.RemoteAccess := by
  unfold Obligations.RemoteAccess
  refine ⟨fun s d v n o x hd h => hostWrites_deaf v n o x hd h, ?_⟩
  intro s pa bs _ n
  refine ⟨fun hc => ⟨remoteWrite_deaf hc, remoteRead_deaf hc⟩, fun hc => ⟨fun h hl => ⟨?_, fun hs => ?_, fun hp => ?_⟩,
    fun hb => ⟨remoteWrite_breach hc hb, remoteRead_breach hc hb⟩⟩⟩
  · exact remoteWrite_hbm hc hl h rfl
  · refine (remoteRead_hbm hc hl h).trans (if_neg ?_)
    simpa [upFrom] using hs
  · refine (remoteRead_hbm hc hl h).trans (if_pos ?_)
    simpa [upFrom] using hp

end Sys2Proof.Proofs
end

section
/-! Lines of a slice that are written back and dropped, one, all, or those of an acquire (R109, R128). -/

namespace Sys2Proof.Proofs

open Sys2Proof Sys2Proof.Machine Sys2Proof.Claims Sys2Proof.Laws

/-! ### Tables -/

section
variable {α : Type}

theorem tblFind_isSome_of_mem {t : Tbl α} {p : Nat × α} (h : p ∈ t) : (tblFind t p.1).isSome = true := by
  induction t with
  | nil => cases h
  | cons q t ih =>
    rw [tblFind_cons]
    split
    · rfl
    · next hne =>
      rcases List.mem_cons.1 h with rfl | h
      · exact absurd rfl hne
      · exact ih h

/-- A table with rising keys lists what it finds. -/
theorem mem_iff_tblFind {t : Tbl α} (h : tblSorted t = true) (p : Nat × α) : p ∈ t ↔ tblFind t p.1 = some p.2 := by
  induction t with
  | nil => simp
  | cons q t ih =>
    obtain ⟨k, v⟩ := q
    obtain ⟨habove, hsorted⟩ := (tblSorted_cons k v t).1 h
    rw [tblFind_cons, List.mem_cons, ih hsorted]
    split
    · next hk =>
      have hout : tblFind t p.1 ≠ some p.2 := fun he => by
        have := habove p ((ih hsorted).2 he)
        omega
      simp only [hout, or_false, Option.some.injEq, Prod.ext_iff, hk, true_and]
      exact eq_comm
    · next hk =>
      have hne : p ≠ (k, v) := fun he => hk (he ▸ rfl)
      simp only [hne, false_or]

theorem tblSorted_keys {t : Tbl α} (h : tblSorted t = true) : (t.map (·.1)).Nodup := by
  induction t with
  | nil => simp
  | cons q t ih =>
    obtain ⟨habove, hsorted⟩ := (tblSorted_cons q.1 q.2 t).1 h
    refine List.nodup_cons.2 ⟨fun hmem => ?_, ih hsorted⟩
    obtain ⟨p, hp, he⟩ := List.mem_map.1 hmem
    exact absurd (habove p hp) (by simp [he])

theorem tblFind_of_key_not_mem {t : Tbl α} {i : Nat} (h : i ∉ t.map (·.1)) : tblFind t i = none := by
  induction t with
  | nil => rfl
  | cons q t ih =>
    rw [List.map_cons, List.mem_cons, not_or] at h
    rw [tblFind_cons, if_neg (Ne.symm h.1), ih h.2]

/-- Where each key is listed once, an entry of a key passes a test just if the one that is found does. -/
theorem any_key_eq {t : Tbl α} (h : (t.map (·.1)).Nodup) (k : α → Bool) (x : Nat) :
    (t.any fun p => p.1 == x && k p.2) = (tblFind t x).any k := by
  induction t with
  | nil => rfl
  | cons q t ih =>
    obtain ⟨hout, hn⟩ := List.nodup_cons.1 h
    rw [List.any_cons, ih hn, tblFind_cons]
    split
    · next hq =>
      have hnone : tblFind t x = none := tblFind_of_key_not_mem (hq ▸ hout)
      simp [hq, hnone]
    · next hq => simp [hq]

theorem length_tblPut (t : Tbl α) (i : Nat) (x : α) : (tblPut t i x).length = t.length + 1 := by
  induction t with
  | nil => rfl
  | cons q t ih =>
    rw [tblPut_cons]
    split
    · rw [List.length_cons, ih, List.length_cons]
    · rfl

theorem length_tblErase_le (t : Tbl α) (i : Nat) : (tblErase t i).length ≤ t.length := by
  induction t with
  | nil => exact Nat.le_refl 0
  | cons q t ih =>
    rw [tblErase_cons]
    split
    · exact Nat.le_succ_of_le ih
    · exact Nat.succ_le_succ ih

theorem length_tblInsert_le (t : Tbl α) (i : Nat) (x : α) : (tblInsert t i x).length ≤ t.length + 1 := by
  rw [tblInsert, length_tblPut]
  exact Nat.succ_le_succ (length_tblErase_le t i)

theorem length_tblErase_lt {t : Tbl α} {p : Nat × α} (h : p ∈ t) : (tblErase t p.1).length < t.length := by
  induction t with
  | nil => cases h
  | cons q t ih =>
    rw [tblErase_cons]
    split
    · exact Nat.lt_succ_of_le (length_tblErase_le t _)
    · next hne =>
      rcases List.mem_cons.1 h with rfl | h
      · exact absurd rfl hne
      · exact Nat.succ_lt_succ (ih h)

end

/-! ### Slices -/

@[simp] theorem slice_setSlice (s : State) (cl : Nat) (x : Tbl L2Line) : (s.setSlice cl x).slice cl = x :=
  tblGet_tblSet_same _ _ _ _

theorem slice_of_l2 {s t : State} (h : t.l2 = s.l2) (cl : Nat) : t.slice cl = s.slice cl := by simp only [State.slice, h]

@[simp] theorem ram_poisonMem (s : State) (a n : Nat) : (s.poisonMem a n).ram = s.ram := rfl
@[simp] theorem ram_clearMem (s : State) (g : Nat) : (s.clearMem g).ram = s.ram := rfl
@[simp] theorem l2_clearMem (s : State) (g : Nat) : (s.clearMem g).l2 = s.l2 := rfl
@[simp] theorem ram_setSlice (s : State) (cl : Nat) (x : Tbl L2Line) : (s.setSlice cl x).ram = s.ram := rfl

/-- What an access to a line at the memory-side cache can change: the lines held there and the counts (R111). -/
theorem touch_keeps {γ : Type} (p : State → γ) (s : State) (part pa : Nat) (hu : ∀ (s : State) l, p (s.useLine l) = p s)
    (hd : ∀ (s : State) d x, p (s.setDie d x) = p s) : p (s.touch part pa) = p s := by
  unfold State.touch
  split
  · rfl
  · split
    · exact hu s _
    · dsimp only
      rw [hd]
      split
      · exact hu s _
      · rfl

@[simp] theorem l2_touch (s : State) (part pa : Nat) : (s.touch part pa).l2 = s.l2 :=
  touch_keeps State.l2 s part pa (fun _ _ => rfl) fun _ _ _ => rfl

@[simp] theorem parts_touch (s : State) (part pa : Nat) : (s.touch part pa).parts = s.parts :=
  touch_keeps State.parts s part pa (fun _ _ => rfl) fun _ _ _ => rfl

@[simp] theorem l2_touchFrom (s : State) (cl line : Nat) : (s.touchFrom cl line).l2 = s.l2 := by
  unfold State.touchFrom
  split
  · exact l2_touch _ _ _
  · rfl

/-! ### A line written back -/

/-- The dirty bytes among the first `n` of a line, written at the memory-side cache. -/
def flushBytes (l : L2Line) (line n : Nat) (s : State) : State :=
  (List.range n).foldl (fun (s : State) i =>
    if l.byteDirty i then s.mscWrite (128 * line + i) [l.over i (s.mscByte (128 * line + i))] else s) s

@[simp] theorem l2_flushBytes (l : L2Line) (line n : Nat) (s : State) : (flushBytes l line n s).l2 = s.l2 :=
  foldl_same State.l2 _ _ s fun s i => by
    split
    · exact mscWrite_l2 _ _ _
    · rfl

/-- The write of one byte, read back. -/
theorem mscByte_mscWrite_one (s : State) (a x : Nat) (b : Byte) :
    (s.mscWrite a [b]).mscByte x = if x = a ∧ isHbm a = true then b else s.mscByte x := by
  split
  · next h =>
    obtain ⟨rfl, hb⟩ := h
    exact mscByte_mscWrite_inside s x 0 [b] (by simp) hb hb
  · next h =>
    by_cases hx : x = a
    · have hb : isHbm a = false := by simpa [hx] using h
      rw [State.mscWrite, hb]; rfl
    · exact mscByte_mscWrite_outside s a x [b] (by simp only [List.length_singleton]; omega)

theorem mscByte_flushBytes (l : L2Line) (line n : Nat) (s : State) (j : Nat) :
    (flushBytes l line n s).mscByte (128 * line + j) =
      if j < n ∧ l.byteDirty j = true ∧ isHbm (128 * line + j) = true then l.over j (s.mscByte (128 * line + j))
      else s.mscByte (128 * line + j) := by
  induction n with
  | zero => simp [flushBytes]
  | succ n ih =>
    have hstep : flushBytes l line (n + 1) s = if l.byteDirty n then
        (flushBytes l line n s).mscWrite (128 * line + n) [l.over n ((flushBytes l line n s).mscByte (128 * line + n))]
        else flushBytes l line n s := by
      simp only [flushBytes, List.range_succ, List.foldl_append, List.foldl_cons, List.foldl_nil]
    rw [hstep]
    by_cases hj : j = n
    · subst hj
      rw [if_neg (fun h => Nat.lt_irrefl _ h.1)] at ih
      by_cases hd : l.byteDirty j = true
      · simp [hd, mscByte_mscWrite_one, ih]
      · simp [hd, ih]
    · have hlt : j < n + 1 ↔ j < n := by omega
      have hne : 128 * line + j ≠ 128 * line + n := by omega
      split
      · simp [mscByte_mscWrite_one, hj, ih, hlt]
      · simp [ih, hlt]

/-- A line with no element dirty. -/
def cleaned (l : L2Line) : L2Line := { l with dirty := 0#256 }

/-- What a write-back of a listed line does: its dirty bytes go to the memory-side cache, and the line is clean (R109). -/
theorem writeBack_listed {s : State} {cl line : Nat} {l : L2Line} (h : tblFind (s.slice cl) line = some l) :
    (∃ u, u.ram = s.ram ∧ (s.writeBack cl line).ram = (flushBytes l line 128 u).ram) ∧
      (s.writeBack cl line).slice cl = tblInsert (s.slice cl) line (cleaned l) := by
  rw [State.writeBack, h]
  dsimp only
  rw [← flushBytes, ram_setSlice, slice_setSlice]
  refine ⟨⟨_, ?_, (foldl_same State.ram _ _ _ fun s _ => ram_poisonMem s _ _).trans
    (foldl_same State.ram _ _ _ fun s _ => ram_clearMem s _)⟩, ?_⟩
  · split
    · rfl
    · exact ram_touchFrom s cl line
  · refine congrArg (tblInsert · line (cleaned l)) (slice_of_l2 ?_ cl)
    refine (foldl_same State.l2 _ _ _ fun s _ => poisonMem_l2 s _ _).trans
      ((foldl_same State.l2 _ _ _ fun s _ => l2_clearMem s _).trans ?_)
    rw [l2_flushBytes]
    split
    · rfl
    · exact l2_touchFrom s cl line

theorem writeBack_unlisted {s : State} {cl line : Nat} (h : tblFind (s.slice cl) line = none) : s.writeBack cl line = s := by
  rw [State.writeBack, h]

/-- A byte put together from its two elements. -/
theorem nibble_pair {hi lo i : Nat} (hhi : hi < 16) (hlo : lo < 16) (h : i < 2) :
    nibble (BitVec.ofNat 8 (16 * hi + lo)) i = if i = 0 then lo else hi := by
  rw [nibble, BitVec.toNat_ofNat]
  obtain rfl | rfl : i = 0 ∨ i = 1 := by omega
  · simp only [Nat.pow_zero, if_true]; omega
  · simp only [Nat.pow_one, Nat.one_ne_zero, if_false]; omega

/-- An element of a line over a byte: that of the line where it is dirty (R120). -/
theorem nibble_over (l : L2Line) (j : Nat) (b : Byte) {i : Nat} (hi : i < 2) :
    nibble (l.over j b) i = if l.dirty.getLsbD (2 * j + i) then nibble (tblGet 0#8 l.data j) i else nibble b i := by
  have hx := (tblGet 0#8 l.data j).isLt
  have hb := b.isLt
  rw [L2Line.over, nibble_pair (by split <;> omega) (by split <;> omega) hi]
  obtain rfl | rfl : i = 0 ∨ i = 1 := by omega
  · simp [nibble]
  · have hmod {x : Nat} (h : x < 2 ^ 8) : x / 16 % 16 = x / 16 := Nat.mod_eq_of_lt (by omega)
    simp only [Nat.one_ne_zero, if_false, nibble, Nat.pow_one, hmod hx, hmod hb]

/-- A byte with a dirty element is dirty. -/
theorem byteDirty_of_element {l : L2Line} {j i : Nat} (hi : i < 2) (h : l.dirty.getLsbD (2 * j + i) = true) :
    l.byteDirty j = true := by
  obtain rfl | rfl : i = 0 ∨ i = 1 := by omega
  · simpa [L2Line.byteDirty] using .inl h
  · simpa [L2Line.byteDirty] using .inr h

theorem writtenBack_writeBack (s : State) (cl line : Nat) : WrittenBack s (s.writeBack cl line) cl (· == line) := by
  intro a i hi
  by_cases ha : a / 128 = line
  · cases hf : tblFind (s.slice cl) line with
    | none => rw [writeBack_unlisted hf, ha, hf]
    | some l =>
      obtain ⟨⟨u, hu, hw⟩, -⟩ := writeBack_listed hf
      have hbyte := mscByte_flushBytes l line 128 u (a % 128)
      rw [show 128 * line + a % 128 = a by omega, ← mscByte_of_ram hw, mscByte_of_ram hu] at hbyte
      rw [hbyte, ha, hf]
      dsimp only
      by_cases hd : l.byteDirty (a % 128) = true ∧ isHbm a = true
      · rw [if_pos ⟨Nat.mod_lt _ (by decide), hd⟩, nibble_over l _ _ hi]
        simp [hd.2]
      · rw [if_neg fun h => hd h.2, if_neg]
        intro h
        simp only [beq_self_eq_true, Bool.true_and, Bool.and_eq_true] at h
        exact hd ⟨byteDirty_of_element hi h.2, h.1⟩
  · rw [mscByte_writeBack_ne s cl (Ne.symm ha)]
    split
    · simp [ha]
    · rfl

/-! ### Lines done one after another -/

/-- The lines `D` of a slice are written back, and `r` says what became of each; the other ones are as before. -/
structure LinesDone (r : Option L2Line → Option L2Line) (s t : State) (cl : Nat) (D : Nat → Bool) : Prop where
  bytes : WrittenBack s t cl D
  find : ∀ x, tblFind (t.slice cl) x = if D x then r (tblFind (s.slice cl) x) else tblFind (s.slice cl) x
  sorted : sliceSorted s cl → sliceSorted t cl

theorem writtenBack_none {s t : State} {cl : Nat} (h : ∀ a, t.mscByte a = s.mscByte a) : WrittenBack s t cl fun _ => false := by
  intro a i _
  rw [h]
  split
  · simp
  · rfl

/-- The lines written back may be named with or without clean ones. -/
theorem writtenBack_congr {s t : State} {cl : Nat} {D E : Nat → Bool} (h : WrittenBack s t cl D)
    (he : ∀ x l, tblFind (s.slice cl) x = some l → l.dirty ≠ 0#256 → D x = E x) : WrittenBack s t cl E := by
  intro a i hi
  rw [h a i hi]
  split
  · next l hl =>
    by_cases hd : l.dirty = 0#256
    · simp [hd]
    · rw [he _ l hl hd]
  · rfl

/-- A write-back is one of global memory and of the slice alone. -/
theorem writtenBack_of_same {s s' t t' : State} {cl : Nat} {D : Nat → Bool} (h : WrittenBack s t cl D) (hr : s'.ram = s.ram)
    (hl : s'.l2 = s.l2) (ht : t'.ram = t.ram) : WrittenBack s' t' cl D := by
  intro a i hi
  rw [mscByte_of_ram ht, slice_of_l2 hl, mscByte_of_ram hr, h a i hi]

theorem LinesDone.refl (r : Option L2Line → Option L2Line) (s : State) (cl : Nat) : LinesDone r s s cl fun _ => false :=
  ⟨writtenBack_none fun _ => rfl, fun _ => rfl, id⟩

/-- One more line done. -/
theorem LinesDone.trans {r : Option L2Line → Option L2Line} {s t u : State} {cl line : Nat} {D : Nat → Bool}
    (h : LinesDone r s t cl D) (hline : D line = false) (h' : LinesDone r t u cl (· == line)) :
    LinesDone r s u cl fun x => D x || x == line := by
  have hfind : tblFind (t.slice cl) line = tblFind (s.slice cl) line := by rw [h.find, hline]; rfl
  refine ⟨fun a i hi => ?_, fun x => ?_, fun hs => h'.sorted (h.sorted hs)⟩
  · rw [h'.bytes a i hi]
    by_cases ha : a / 128 = line
    · have hbyte := h.bytes a i hi
      simp only [ha, hline, hfind, Bool.false_and, Bool.false_eq_true, if_false] at hbyte ⊢
      have hold : nibble (t.mscByte a) i = nibble (s.mscByte a) i := by rw [hbyte]; split <;> rfl
      simp [hold]
    · have hne : (a / 128 == line) = false := by simpa using ha
      simp only [hne, Bool.false_and, Bool.or_false, Bool.false_eq_true, if_false]
      rw [← h.bytes a i hi]
      split <;> rfl
  · rw [h'.find]
    by_cases hx : x = line
    · subst hx; simp [hfind]
    · simp [hx, h.find]

theorem linesDone_writeBack (s : State) (cl line : Nat) :
    LinesDone (·.map cleaned) s (s.writeBack cl line) cl (· == line) := by
  refine ⟨writtenBack_writeBack s cl line, fun x => ?_, fun hs => ?_⟩
  · cases hf : tblFind (s.slice cl) line with
    | none =>
      rw [writeBack_unlisted hf]
      split
      · next hx => rw [eq_of_beq hx, hf]; rfl
      · rfl
    | some l =>
      rw [(writeBack_listed hf).2]
      split
      · next hx => rw [eq_of_beq hx, hf, tblFind_tblInsert_same]; rfl
      · next hx => exact tblFind_tblInsert_ne _ _ fun he => hx (by simp [he])
  · cases hf : tblFind (s.slice cl) line with
    | none => rwa [writeBack_unlisted hf]
    | some l =>
      rw [sliceSorted, (writeBack_listed hf).2]
      exact tblInsert_sorted _ _ _ hs

/-- What a slice lists after a line has left it. -/
theorem slice_dropLine (s : State) (cl line : Nat) : (s.dropLine cl line).slice cl = tblErase (s.slice cl) line := by
  rw [State.dropLine, slice_setSlice]
  cases hf : tblFind (s.slice cl) line with
  | none => rw [writeBack_unlisted hf]
  | some l => rw [(writeBack_listed hf).2, tblErase_tblInsert]

theorem linesDone_dropLine (s : State) (cl line : Nat) : LinesDone (fun _ => none) s (s.dropLine cl line) cl (· == line) := by
  refine ⟨writtenBack_of_same (writtenBack_writeBack s cl line) rfl rfl rfl, fun x => ?_, fun hs => ?_⟩
  · rw [slice_dropLine]
    split
    · next hx => rw [eq_of_beq hx, tblFind_tblErase_same]
    · next hx => exact tblFind_tblErase_ne _ fun he => hx (by simp [he])
  · rw [sliceSorted, slice_dropLine]
    exact tblErase_sorted _ _ hs

/-- Some lines of a slice done one after another: those that are not skipped. -/
def eachLine (op : State → Nat → State) (skip : L2Line → Bool) (ls : Tbl L2Line) (s : State) : State :=
  ls.foldl (fun s l => if skip l.2 then s else op s l.1) s

theorem linesDone_eachLine_from {r : Option L2Line → Option L2Line} {op : State → Nat → State} {cl : Nat}
    (hop : ∀ s line, LinesDone r s (op s line) cl (· == line)) (skip : L2Line → Bool) (s : State) :
    ∀ (ls : Tbl L2Line) (t : State) (D : Nat → Bool), (ls.map (·.1)).Nodup → (∀ l ∈ ls, D l.1 = false) → LinesDone r s t cl D →
      LinesDone r s (eachLine op skip ls t) cl fun x => D x || ls.any fun l => l.1 == x && !skip l.2
  | [], t, D, _, _, h => by simpa [eachLine] using h
  | l :: ls, t, D, hn, hD, h => by
    obtain ⟨hout, hn⟩ := List.nodup_cons.1 hn
    have hrest : ∀ m ∈ ls, D m.1 = false := fun m hm => hD m (List.mem_cons_of_mem _ hm)
    rw [eachLine, List.foldl_cons, ← eachLine]
    by_cases hs : skip l.2 = true
    · simpa [hs] using linesDone_eachLine_from hop skip s ls t D hn hrest h
    · have hstep := h.trans (hD l List.mem_cons_self) (hop t l.1)
      have hnext := linesDone_eachLine_from hop skip s ls _ _ hn (fun m hm => ?_) hstep
      · simpa [hs, Bool.or_assoc, BEq.comm] using hnext
      · have hne : m.1 ≠ l.1 := fun he => hout (List.mem_map.2 ⟨m, hm, he⟩)
        simp [hrest m hm, hne]

/-- Every line of a slice done but those skipped. -/
theorem linesDone_eachLine {r : Option L2Line → Option L2Line} {op : State → Nat → State} {cl : Nat}
    (hop : ∀ s line, LinesDone r s (op s line) cl (· == line)) (skip : L2Line → Bool) {s : State} (hs : sliceSorted s cl) :
    LinesDone r s (eachLine op skip (s.slice cl) s) cl fun x => (tblFind (s.slice cl) x).any fun l => !skip l := by
  have hkeys := tblSorted_keys hs
  have hdone := linesDone_eachLine_from hop skip s (s.slice cl) s _ hkeys (fun _ _ => rfl) (.refl r s cl)
  simpa only [Bool.false_or, any_key_eq hkeys fun l => !skip l] using hdone

/-! ### A whole slice written back, dropped, acquired -/

section
variable {s : State} {cl : Nat} (hs : sliceSorted s cl)
include hs

theorem linesDone_writeBackAll : LinesDone (·.map cleaned) s (s.writeBackAll cl) cl fun x =>
    (tblFind (s.slice cl) x).any fun l => !(l.dirty == 0#256) :=
  linesDone_eachLine (fun s line => linesDone_writeBack s cl line) (fun l => l.dirty == 0#256) hs

/-- Every dirty byte of a slice is written back. -/
theorem writtenBack_writeBackAll : WrittenBack s (s.writeBackAll cl) cl fun _ => true :=
  writtenBack_congr (linesDone_writeBackAll hs).bytes fun x l hl hd => by simp [hl, hd]

theorem clean_writeBackAll : ∀ l ∈ (s.writeBackAll cl).slice cl, l.2.dirty = 0#256 := by
  intro p hp
  have hdone := linesDone_writeBackAll hs
  rw [mem_iff_tblFind (hdone.sorted hs), hdone.find] at hp
  split at hp
  · obtain ⟨l, -, he⟩ := Option.map_eq_some_iff.1 hp
    exact he ▸ rfl
  · next hd => simpa [hp] using hd

theorem slice_dropAll : (s.dropAll cl).slice cl = [] := by
  rw [State.dropAll, State.clearClean, slice_setSlice, List.filter_eq_nil_iff]
  intro l hl
  simp [clean_writeBackAll hs l hl]

theorem writtenBack_dropAll : WrittenBack s (s.dropAll cl) cl fun _ => true :=
  writtenBack_of_same (writtenBack_writeBackAll hs) rfl rfl rfl

theorem linesDone_dropPartial : LinesDone (fun _ => none) s (s.dropPartial cl) cl fun x =>
    (tblFind (s.slice cl) x).any fun l => !(l.dirty == 0#256 || l.dirty == BitVec.allOnes 256) :=
  linesDone_eachLine (fun s line => linesDone_dropLine s cl line) (fun l => l.dirty == 0#256 || l.dirty == BitVec.allOnes 256) hs

theorem writtenBack_acquireSlice :
    WrittenBack s (s.acquireSlice cl) cl fun x => (tblFind (s.slice cl) x).any partDirty :=
  writtenBack_of_same (writtenBack_congr (linesDone_dropPartial hs).bytes fun x l hl _ => by simp [hl, partDirty, bne])
    rfl rfl rfl

/-- After an acquire a slice holds those of its lines that are dirty throughout (R128). -/
theorem mem_acquireSlice (l : Nat × L2Line) :
    l ∈ (s.acquireSlice cl).slice cl ↔ l ∈ s.slice cl ∧ l.2.dirty = BitVec.allOnes 256 := by
  have hdone := linesDone_dropPartial hs
  rw [State.acquireSlice, State.clearClean, slice_setSlice, List.mem_filter, mem_iff_tblFind (hdone.sorted hs), hdone.find,
    mem_iff_tblFind hs]
  constructor
  · rintro ⟨hf, hd⟩
    split at hf
    · cases hf
    · next hk =>
      refine ⟨hf, ?_⟩
      simp only [hf, Option.any_some] at hk
      simpa [show l.2.dirty ≠ 0#256 by simpa using hd] using hk
  · rintro ⟨hf, hd⟩
    simp [hf, hd]

end

end Sys2Proof.Proofs
end

section
/-! A line filled in a slice at a miss, and the one that leaves it (R14, R109). -/

namespace Sys2Proof.Proofs

open Sys2Proof Sys2Proof.Machine Sys2Proof.Claims Sys2Proof.Laws

/-- A slice with lines gives up one of them (R109). -/
theorem victimOf_listed {ls : Tbl L2Line} (h : ls ≠ []) : ∃ p ∈ ls, victimOf ls = some p.1 := by
  unfold victimOf
  cases hf : ls.find? fun l => l.2.first with
  | some p => exact ⟨p, List.mem_of_find?_eq_some hf, rfl⟩
  | none => exact ⟨ls.head h, List.head_mem h, by rw [Option.none_or, List.head?_eq_some_head h]; rfl⟩

/-- What makes room in a slice: nothing where there is room, else one of its lines leaves it (R109). -/
theorem makeRoom_cases (s : State) (cl : Nat) :
    ((s.slice cl).length < sliceLines ∧ s.makeRoom cl = s) ∨
      (sliceLines ≤ (s.slice cl).length ∧ ∃ p ∈ s.slice cl, s.makeRoom cl = s.dropLine cl p.1) := by
  unfold State.makeRoom
  split
  · next h => exact .inl ⟨h, rfl⟩
  · next h =>
    refine .inr ⟨by omega, ?_⟩
    obtain ⟨p, hp, hv⟩ := victimOf_listed (ls := s.slice cl) fun hnil => h (by rw [hnil]; decide)
    exact ⟨p, hp, by rw [hv]⟩

theorem fillLine_listed {s : State} {cl line : Nat} (h : (tblFind (s.slice cl) line).isSome = true) : s.fillLine cl line = s := by
  obtain ⟨l, hl⟩ := Option.isSome_iff_exists.1 h
  rw [State.fillLine, hl]

/-- A line that misses is listed after room has been made for it. -/
theorem fillLine_unlisted {s : State} {cl line : Nat} (h : tblFind (s.slice cl) line = none) :
    (s.fillLine cl line).ram = (s.makeRoom cl).ram ∧
      ∃ l, (s.fillLine cl line).slice cl = tblInsert ((s.makeRoom cl).slice cl) line l := by
  rw [State.fillLine, h]
  dsimp only
  rw [slice_setSlice, ram_setSlice, ram_touchFrom, slice_of_l2 (l2_touchFrom _ _ _)]
  exact ⟨rfl, _, rfl⟩

theorem isSome_fillLine (s : State) (cl line : Nat) : (tblFind ((s.fillLine cl line).slice cl) line).isSome = true := by
  cases hf : tblFind (s.slice cl) line with
  | some l =>
    rw [fillLine_listed (by rw [hf]; rfl), hf]
    rfl
  | none =>
    obtain ⟨-, l, hl⟩ := fillLine_unlisted hf
    rw [hl, tblFind_tblInsert_same]; rfl

/-- Another line than the one that misses is found after it where it is found once there is room. -/
theorem tblFind_fillLine_ne {s : State} {cl line x : Nat} (hf : tblFind (s.slice cl) line = none) (hx : x ≠ line) :
    tblFind ((s.fillLine cl line).slice cl) x = tblFind ((s.makeRoom cl).slice cl) x := by
  obtain ⟨-, l, hl⟩ := fillLine_unlisted hf
  rw [hl, tblFind_tblInsert_ne _ _ hx.symm]

theorem makeRoom_of_room {s : State} {cl n : Nat} (h : roomFor s cl (n + 1)) : s.makeRoom cl = s := by
  unfold roomFor at h
  rw [State.makeRoom, if_pos (by omega)]

/-- Where there is room, a line that is filled leaves memory and the other lines as they are. -/
theorem fillLine_of_room {s : State} {cl n : Nat} (h : roomFor s cl (n + 1)) (line : Nat) :
    (s.fillLine cl line).ram = s.ram ∧ (∀ x, x ≠ line → tblFind ((s.fillLine cl line).slice cl) x = tblFind (s.slice cl) x) ∧
      roomFor (s.fillLine cl line) cl n := by
  cases hf : tblFind (s.slice cl) line with
  | some l =>
    rw [fillLine_listed (by rw [hf]; rfl)]
    exact ⟨rfl, fun _ _ => rfl, Nat.le_of_succ_le h⟩
  | none =>
    obtain ⟨hram, l, hl⟩ := fillLine_unlisted hf
    rw [makeRoom_of_room h] at hram hl
    refine ⟨hram, fun x hx => by rw [tblFind_fillLine_ne hf hx, makeRoom_of_room h], ?_⟩
    have := length_tblInsert_le (s.slice cl) line l
    unfold roomFor at h ⊢
    rw [hl]
    omega

theorem length_fillLine_le {s : State} {cl : Nat} (line : Nat) (h : (s.slice cl).length ≤ sliceLines) :
    ((s.fillLine cl line).slice cl).length ≤ sliceLines := by
  cases hf : tblFind (s.slice cl) line with
  | some l => rwa [fillLine_listed (by rw [hf]; rfl)]
  | none =>
    obtain ⟨-, l, hl⟩ := fillLine_unlisted hf
    have hins := length_tblInsert_le ((s.makeRoom cl).slice cl) line l
    rw [hl]
    obtain ⟨hroom, he⟩ | ⟨-, p, hp, he⟩ := makeRoom_cases s cl
    · rw [he] at hins ⊢
      omega
    · have := length_tblErase_lt hp
      rw [he, slice_dropLine] at hins ⊢
      omega

/-- The lines that a fill makes leave are written back, at most one, and not the line filled (R109). -/
theorem fillLine_gone (s : State) (cl line : Nat) :
    ∃ gone : List Nat, (∀ x ∈ gone, x ≠ line ∧ tblFind ((s.fillLine cl line).slice cl) x = none) ∧ gone.length ≤ 1 ∧
      WrittenBack s (s.fillLine cl line) cl (fun x => gone.contains x) ∧
      ∀ x, x ≠ line → x ∉ gone → tblFind ((s.fillLine cl line).slice cl) x = tblFind (s.slice cl) x := by
  cases hf : tblFind (s.slice cl) line with
  | some l =>
    rw [fillLine_listed (by rw [hf]; rfl)]
    exact ⟨[], by simp, by simp, writtenBack_none fun _ => rfl, fun _ _ _ => rfl⟩
  | none =>
    have hram := (fillLine_unlisted hf).1
    obtain ⟨-, he⟩ | ⟨-, p, hp, he⟩ := makeRoom_cases s cl
    · rw [he] at hram
      exact ⟨[], by simp, by simp, writtenBack_none (mscByte_of_ram hram), fun x hx _ => by rw [tblFind_fillLine_ne hf hx, he]⟩
    · have hdrop := linesDone_dropLine s cl p.1
      rw [he] at hram
      have hne : p.1 ≠ line := fun h => by
        have := tblFind_isSome_of_mem hp
        rw [h, hf] at this
        cases this
      refine ⟨[p.1], ?_, Nat.le_refl 1, ?_, fun x hx hgone => ?_⟩
      · intro x hx
        obtain rfl := List.mem_singleton.1 hx
        exact ⟨hne, by rw [tblFind_fillLine_ne hf hne, he, hdrop.find]; simp⟩
      · exact writtenBack_of_same (writtenBack_congr hdrop.bytes fun _ _ _ _ => (Bool.or_false _).symm) rfl rfl hram
      · rw [tblFind_fillLine_ne hf hx, he, hdrop.find, if_neg (by simpa using hgone)]

/-- A line found after a fill is the one filled, or was there as it is. -/
theorem tblFind_of_fillLine {s : State} {cl line x : Nat} {l : L2Line} (hx : x ≠ line)
    (h : tblFind ((s.fillLine cl line).slice cl) x = some l) : tblFind (s.slice cl) x = some l := by
  obtain ⟨gone, hgone, -, -, hkept⟩ := fillLine_gone s cl line
  by_cases hg : x ∈ gone
  · rw [(hgone x hg).2] at h
    cases h
  · rwa [hkept x hx hg] at h

end Sys2Proof.Proofs
end

section
/-! Cache control, prefetch and fences (R126, R128, R226, R227, R231). -/

namespace Sys2Proof.Proofs

open Sys2Proof Sys2Proof.Machine Sys2Proof.Claims Sys2Proof.Laws

/-! ### The ends of these instructions -/

/-- An instruction that waits changes nothing but the wait of its fragment (R39). -/
theorem waiting_next {s : State} {c : Ctx} (h : s.ctx? c.agent = some c) (w : Wait) :
    ∃ t, waiting s c w = .next t ∧ sameMemory s t ∧ After t c fun d => d.f.pc = c.f.pc ∧ d.f.wait = w ∧ d.f.mark = c.f.mark :=
  ⟨_, rfl, sameMemory_park s _ _, _, ctx_mapFrag h rfl, rfl, rfl, rfl⟩

theorem waiting_after {s : State} {c : Ctx} (h : s.ctx? c.agent = some c) (w : Wait) :
    ∃ t, waiting s c w = .next t ∧ t.l2 = s.l2 ∧ t.ram = s.ram ∧ After t c fun d => d.f.pc = c.f.pc ∧ d.f.wait = w := by
  obtain ⟨t, ht, ⟨hr, hl, -⟩, d, hd, hpc, hw, -⟩ := waiting_next h w
  exact ⟨t, ht, hl, hr, d, hd, hpc, hw⟩

/-- An instruction goes on from a state whose contexts are those of its issue. -/
theorem finish_next {s u : State} {c : Ctx} (h : s.ctx? c.agent = some c) (hu : hosts u = hosts s) :
    ∃ t, finish u c = .next t ∧ sameMemory u t ∧ PassedOn t c ∧ After t c fun d => d.f.mark = c.f.mark := by
  have hc : u.ctx? c.agent = some c := (ctx_of_hosts hu c.agent).trans h
  exact ⟨_, rfl, sameMemory_advance u _, passedOn_advance hc rfl (keepsBut_refl _ _), after_advance hc rfl⟩

/-- It goes on with its release mark set (R127). -/
theorem finish_marked {s u : State} {c : Ctx} (h : s.ctx? c.agent = some c) (hu : hosts u = hosts s) (sc : Scope) :
    ∃ t, finish (u.setMark c.agent sc) c = .next t ∧ sameMemory u t ∧ PassedOn t c ∧
      After t c fun d => d.f.mark = markedBy c.f sc := by
  have hc : u.ctx? c.agent = some c := (ctx_of_hosts hu c.agent).trans h
  have hm : (u.setMark c.agent sc).ctx? c.agent = some (withFrag c { c.f with mark := markedBy c.f sc }) := ctx_mapFrag hc rfl
  exact ⟨_, rfl, sameMemory_trans (sameMemory_mapFrag u _ _) (sameMemory_advance _ _),
    passedOn_advance hm rfl fun r _ => readLoc_withFrag _ _ r, after_advance hm rfl⟩

/-! ### Translations that set nothing -/

/-- What a look at the tables leaves alone: memory, the slices, the partitions and every issuer. -/
def lookView (s : State) :
    (Memory × List SaveBytes) × Tbl (Tbl L2Line) × Tbl Part × (Nat → Option Block) × List Ejected × Tbl Super :=
  (s.ram, s.l2, s.parts, hosts s)

theorem lookView_touch (s : State) (part pa : Nat) : lookView (s.touch part pa) = lookView s := by
  simp only [lookView, ram_touch, l2_touch, parts_touch, hosts_touch]

theorem lookView_xlatLook (s : State) (c : Ctx) (va : W64) : lookView (s.xlatLook c va).2 = lookView s := by
  have hwalk (root space : Nat) : lookView (s.touchWalk root space va) = lookView s := by
    unfold State.touchWalk
    split
    · rfl
    · exact foldl_same lookView _ _ s fun s _ => lookView_touch s _ _
  unfold State.xlatLook
  split
  · rfl
  · split
    · dsimp only
      split <;> exact hwalk _ _
    · rfl

theorem lookView_xlatLooks {c : Ctx} : ∀ {vas : List W64} {s t : State} {es : List (W64 × TlbEntry)},
    s.xlatLooks c vas = some (es, t) → lookView t = lookView s
  | [], _, _, _, h => by cases h; rfl
  | va :: vas, s, t, es, h => by
    have hlook := lookView_xlatLook s c va
    unfold State.xlatLooks at h
    split at h
    · next e u he =>
      rw [he] at hlook
      obtain ⟨r, hr, hx⟩ := Option.map_eq_some_iff.1 h
      cases hx
      exact (lookView_xlatLooks hr).trans hlook
    · next u he =>
      rw [he] at hlook
      exact (lookView_xlatLooks h).trans hlook
    · cases h

theorem clusterFor_of_parts {s t : State} (h : t.parts = s.parts) (c : Ctx) : t.clusterFor c = s.clusterFor c := by
  simp only [State.clusterFor, State.part, h]

/-- No unit of an instruction with sound operands reads poison (R364). -/
theorem units_sound {c : Ctx} {w : Common} (h : Clean c w.guard) {p : Bool} {o : Opnd} {n : Nat} :
    ((c.units w p).any fun l => c.poisoned l o n) = false :=
  List.any_eq_false.2 fun l hl => by simp [not_poisoned_of_clean h hl]

/-! ### CCTL (R227) -/

section
variable {w : MemOp} {s : State} {c : Ctx} (ha : c.acting w.guard ≠ [])
include ha

theorem cacheControl_waits (hf : s.fifosEmpty c = false) (k : State → Out) : cacheControl s c w k = waiting s c .perform := by
  simp [cacheControl, ha, hf]

theorem cacheControl_runs (hf : s.fifosEmpty c = true) (k : State → Out) : cacheControl s c w k = k s := by
  simp [cacheControl, ha, hf]

section
variable (hf : s.fifosEmpty c = true) (hc : Clean c w.guard) (k : State → Nat → State)
include hf hc

theorem cacheLines_busy (hl : s.xlatLooks c ((c.units w.toCommon false).map fun l => c.globalVa l w.a.op w.imm) = none) :
    cacheLines s c w k = waiting s c .perform := by
  rw [cacheLines, cacheControl_runs ha hf]
  simp only [units_sound hc, Bool.false_eq_true, if_false, hl]

theorem cacheLines_runs {es : List (W64 × TlbEntry)} {s1 : State}
    (hl : s.xlatLooks c ((c.units w.toCommon false).map fun l => c.globalVa l w.a.op w.imm) = some (es, s1)) :
    cacheLines s c w k = finish (es.foldl (fun s x => k s (x.2.phys x.1.toNat / 128)) s1) c := by
  rw [cacheLines, cacheControl_runs ha hf]
  simp only [units_sound hc, Bool.false_eq_true, if_false, hl]

end

/-- Every form waits for the FIFO store queue of its warp. -/
theorem cctl_waits (hf : s.fifosEmpty c = false) :
    ∀ mk ∈ ([.cctlWb, .cctlInv, .cctlWball, .cctlInvall] : List (MemOp → Instr)),
      Issues s (mk w) c → ∃ t, exec (mk w) s = .next t ∧ t.l2 = s.l2 ∧ t.ram = s.ram ∧
        After t c fun d => d.f.pc = c.f.pc ∧ d.f.wait = .perform := by
  have hwait {i : Instr} {k : State → Out} (h : Issues s i c) (hrun : exec i s = cacheControl s c w k) :
      ∃ t, exec i s = .next t ∧ t.l2 = s.l2 ∧ t.ram = s.ram ∧ After t c fun d => d.f.pc = c.f.pc ∧ d.f.wait = .perform := by
    rw [hrun, cacheControl_waits ha hf]
    exact waiting_after h.ctx _
  simp only [List.forall_mem_cons, List.not_mem_nil, false_imp_iff, implies_true, and_true]
  exact ⟨fun h => hwait h (issuing_of_issues h _), fun h => hwait h (issuing_of_issues h _),
    fun h => hwait h (issuing_of_issues h _), fun h => hwait h (issuing_of_issues h _)⟩

/-- Where no walker is free for its addresses a line form waits (R111, R114). -/
theorem cctlLine_busy (hf : s.fifosEmpty c = true) (hc : Clean c w.guard)
    (hl : s.xlatLooks c ((c.units w.toCommon false).map fun l => c.globalVa l w.a.op w.imm) = none) :
    ∀ mk ∈ ([.cctlWb, .cctlInv] : List (MemOp → Instr)), Issues s (mk w) c → ∃ t, exec (mk w) s = .next t ∧ t.l2 = s.l2 ∧
      t.ram = s.ram ∧ After t c fun d => d.f.pc = c.f.pc ∧ d.f.wait = .perform := by
  have hwait {i : Instr} {k : State → Nat → State} (h : Issues s i c) (hrun : exec i s = cacheLines s c w k) :
      ∃ t, exec i s = .next t ∧ t.l2 = s.l2 ∧ t.ram = s.ram ∧ After t c fun d => d.f.pc = c.f.pc ∧ d.f.wait = .perform := by
    rw [hrun, cacheLines_busy ha hf hc k hl]
    exact waiting_after h.ctx _
  simp only [List.forall_mem_cons, List.not_mem_nil, false_imp_iff, implies_true, and_true]
  exact ⟨fun h => hwait h (issuing_of_issues h _), fun h => hwait h (issuing_of_issues h _)⟩

/-- A form that acts on the whole slice. -/
theorem cctlAll_next {i : Instr} {op : State → Nat → State} (hf : s.fifosEmpty c = true) (h : Issues s i c)
    (hrun : exec i s = cacheControl s c w fun s => finish (op s (s.clusterFor c)) c) (hop : ∀ s cl, hosts (op s cl) = hosts s) :
    ∃ t, exec i s = .next t ∧ PassedOn t c ∧ sameMemory (op s (s.clusterFor c)) t := by
  obtain ⟨t, ht, hm, hp, -⟩ := finish_next h.ctx (hop s (s.clusterFor c))
  exact ⟨t, (hrun.trans (cacheControl_runs ha hf _)).trans ht, hp, hm⟩

theorem cctlWball_next (hf : s.fifosEmpty c = true) (hs : sliceSorted s (s.clusterFor c)) (h : Issues s (.cctlWball w) c) :
    ∃ t, exec (.cctlWball w) s = .next t ∧ PassedOn t c ∧ WrittenBack s t (s.clusterFor c) (fun _ => true) ∧
      ∀ l ∈ t.slice (s.clusterFor c), l.2.dirty = 0#256 := by
  obtain ⟨t, ht, hp, hram, hl2, -⟩ := cctlAll_next (op := State.writeBackAll) ha hf h (issuing_of_issues h _) hosts_writeBackAll
  refine ⟨t, ht, hp, writtenBack_of_same (writtenBack_writeBackAll hs) rfl rfl hram, ?_⟩
  rw [slice_of_l2 hl2]
  exact clean_writeBackAll hs

theorem cctlInvall_next (hf : s.fifosEmpty c = true) (hs : sliceSorted s (s.clusterFor c)) (h : Issues s (.cctlInvall w) c) :
    ∃ t, exec (.cctlInvall w) s = .next t ∧ PassedOn t c ∧ WrittenBack s t (s.clusterFor c) (fun _ => true) ∧
      t.slice (s.clusterFor c) = [] := by
  obtain ⟨t, ht, hp, hram, hl2, -⟩ := cctlAll_next (op := State.dropAll) ha hf h (issuing_of_issues h _) hosts_writeBackAll
  refine ⟨t, ht, hp, writtenBack_of_same (writtenBack_dropAll hs) rfl rfl hram, ?_⟩
  rw [slice_of_l2 hl2]
  exact slice_dropAll hs

/-- A line form acts on the line of the address of its one lane. -/
theorem cctlLine_next {i : Instr} {op : State → Nat → Nat → State} {r : Option L2Line → Option L2Line} {l : Nat} {e : TlbEntry}
    {s1 : State} (hf : s.fifosEmpty c = true) (hc : Clean c w.guard) (hu : c.units w.toCommon false = [l])
    (hx : s.xlatLook c (c.globalVa l w.a.op w.imm) = (.hit e, s1)) (h : Issues s i c)
    (hrun : exec i s = cacheLines s c w fun s line => op s (s.clusterFor c) line) (hop : ∀ s cl x, hosts (op s cl x) = hosts s)
    (hdone : ∀ s cl x, LinesDone r s (op s cl x) cl (· == x)) :
    let line := e.phys (c.globalVa l w.a.op w.imm).toNat / 128
    ∃ t, exec i s = .next t ∧ PassedOn t c ∧ WrittenBack s t (s.clusterFor c) (· == line) ∧
      tblFind (t.slice (s.clusterFor c)) line = r (tblFind (s.slice (s.clusterFor c)) line) := by
  intro line
  have hlooks : s.xlatLooks c ((c.units w.toCommon false).map fun l => c.globalVa l w.a.op w.imm) =
      some ([(c.globalVa l w.a.op w.imm, e)], s1) := by
    rw [hu]
    simp [State.xlatLooks, hx]
  have hview := lookView_xlatLooks hlooks
  simp only [lookView, Prod.mk.injEq] at hview
  obtain ⟨hr1, hl1, hp1, hh1⟩ := hview
  have hline := hdone s1 (s1.clusterFor c) line
  rw [clusterFor_of_parts hp1] at hline
  obtain ⟨t, ht, ⟨hram, hl2, -⟩, hp, -⟩ := finish_next h.ctx ((hop s1 (s1.clusterFor c) line).trans hh1)
  rw [clusterFor_of_parts hp1] at ht hram hl2
  refine ⟨t, ?_, hp, writtenBack_of_same hline.bytes hr1.symm hl1.symm hram, ?_⟩
  · rw [hrun, cacheLines_runs ha hf hc _ hlooks, List.foldl_cons, List.foldl_nil, clusterFor_of_parts hp1, ht]
  · rw [slice_of_l2 hl2, hline.find, slice_of_l2 hl1]
    simp

end

/-! ### PREF (R226) -/

/-- A prefetched line enters the slice of a core's cluster, or a line of the memory-side cache is used. -/
theorem prefetchLine_cases (c : Ctx) (b : Bool) (s : State) (pa : Nat) :
    (b = true ∧ c.level = .core ∧ isHbm pa = true ∧ prefetchLine c b s pa = s.fillLine c.cluster (pa / 128)) ∨
      (¬(c.level = .core ∧ b = true ∧ isHbm pa = true) ∧ prefetchLine c b s pa = s.touch c.part pa) := by
  unfold prefetchLine
  split
  · next h =>
    simp only [Bool.and_eq_true, beq_iff_eq] at h
    exact .inl ⟨h.1.1, h.1.2, h.2, rfl⟩
  · next h =>
    simp only [Bool.and_eq_true, beq_iff_eq] at h
    exact .inr ⟨fun ⟨hc, hb, hp⟩ => h ⟨⟨hb, hc⟩, hp⟩, rfl⟩

@[simp] theorem hosts_prefetchLine (c : Ctx) (b : Bool) (s : State) (pa : Nat) : hosts (prefetchLine c b s pa) = hosts s := by
  obtain ⟨-, -, -, he⟩ | ⟨-, he⟩ := prefetchLine_cases c b s pa
  · rw [he, hosts_fillLine]
  · rw [he, hosts_touch]

/-- A slice with its lines of `s` in `t`, and memory as in `s`. -/
def KeepsLines (s t : State) (cl : Nat) : Prop :=
  t.ram = s.ram ∧ ∀ x l, tblFind (s.slice cl) x = some l → tblFind (t.slice cl) x = some l

theorem keepsLines_fillLine {s : State} {cl n : Nat} (h : roomFor s cl (n + 1)) (line : Nat) :
    KeepsLines s (s.fillLine cl line) cl := by
  obtain ⟨hram, hkept, -⟩ := fillLine_of_room h line
  refine ⟨hram, fun x l hl => ?_⟩
  by_cases hx : x = line
  · subst hx
    rwa [fillLine_listed (by rw [hl]; rfl)]
  · rwa [hkept x hx]

/-- A prefetch of an address into a slice with room. -/
theorem prefetchLine_of_room {c : Ctx} {s : State} {n : Nat} (h : roomFor s c.cluster (n + 1)) (b : Bool) (pa : Nat) :
    KeepsLines s (prefetchLine c b s pa) c.cluster ∧ roomFor (prefetchLine c b s pa) c.cluster n ∧
      (c.level = .core → b = true → isHbm pa = true →
        (tblFind ((prefetchLine c b s pa).slice c.cluster) (pa / 128)).isSome = true) := by
  obtain ⟨-, -, -, he⟩ | ⟨hno, he⟩ := prefetchLine_cases c b s pa
  · rw [he]
    exact ⟨keepsLines_fillLine h _, (fillLine_of_room h _).2.2, fun _ _ _ => isSome_fillLine s _ _⟩
  · have hslice := slice_of_l2 (l2_touch s c.part pa) c.cluster
    rw [he]
    refine ⟨⟨ram_touch _ _ _, fun x l hl => by rwa [hslice]⟩, ?_, fun hc hb hp => absurd ⟨hc, hb, hp⟩ hno⟩
    unfold roomFor at h ⊢
    rw [hslice]
    omega

/-- The lines of some addresses prefetched one after another. -/
def prefetchAll {α : Type} (c : Ctx) (b : Bool) (pa : α → Nat) (es : List α) (s : State) : State :=
  es.foldl (fun s x => prefetchLine c b s (pa x)) s

section
variable {α : Type} {c : Ctx} {b : Bool} {pa : α → Nat}

theorem prefetchAll_cons (e : α) (es : List α) (s : State) :
    prefetchAll c b pa (e :: es) s = prefetchAll c b pa es (prefetchLine c b s (pa e)) := rfl

theorem prefetchAll_of_room : ∀ (es : List α) {s : State}, roomFor s c.cluster es.length →
    KeepsLines s (prefetchAll c b pa es s) c.cluster ∧ ∀ x ∈ es, c.level = .core → b = true → isHbm (pa x) = true →
      (tblFind ((prefetchAll c b pa es s).slice c.cluster) (pa x / 128)).isSome = true
  | [], s, _ => ⟨⟨rfl, fun _ _ h => h⟩, by simp⟩
  | e :: es, s, h => by
    obtain ⟨⟨hram, hkept⟩, hroom, hin⟩ := prefetchLine_of_room h b (pa e)
    obtain ⟨⟨hram', hkept'⟩, hin'⟩ := prefetchAll_of_room es hroom
    refine ⟨⟨hram'.trans hram, fun x l hl => hkept' x l (hkept x l hl)⟩, List.forall_mem_cons.2 ⟨fun hc hb hp => ?_, hin'⟩⟩
    obtain ⟨l, hl⟩ := Option.isSome_iff_exists.1 (hin hc hb hp)
    exact Option.isSome_iff_exists.2 ⟨l, hkept' _ l hl⟩

/-- A line found after prefetches was there before as it is, or is one of theirs. -/
theorem tblFind_of_prefetchAll {line : Nat} {l : L2Line} : ∀ (es : List α) {s : State},
    tblFind ((prefetchAll c b pa es s).slice c.cluster) line = some l →
      tblFind (s.slice c.cluster) line = some l ∨ c.level = .core ∧ b = true ∧ ∃ y ∈ es, line = pa y / 128
  | [], s, h => .inl h
  | e :: es, s, h => by
    rw [prefetchAll_cons] at h
    obtain h | ⟨hc, hb, y, hy, hl⟩ := tblFind_of_prefetchAll es h
    · obtain ⟨hb, hc, -, he⟩ | ⟨-, he⟩ := prefetchLine_cases c b s (pa e)
      · by_cases hx : line = pa e / 128
        · exact .inr ⟨hc, hb, e, List.mem_cons_self, hx⟩
        · rw [he] at h
          exact .inl (tblFind_of_fillLine hx h)
      · rw [he, slice_of_l2 (l2_touch _ _ _)] at h
        exact .inl h
    · exact .inr ⟨hc, hb, y, List.mem_cons_of_mem _ hy, hl⟩

end

/-- The physical address that a look found. -/
def lookPa (x : W64 × TlbEntry) : Nat := x.2.phys x.1.toNat

section
variable {w : MemOp} {s : State} {c : Ctx} (h : Issues s (.pref w) c) (hc : Clean c w.guard)
include h hc

theorem pref_busy (hl : s.xlatLooks c ((c.units w.toCommon false).map fun l => c.globalVa l w.a.op w.imm) = none) :
    ∃ t, exec (.pref w) s = .next t ∧ t.l2 = s.l2 ∧ t.ram = s.ram ∧
      After t c fun d => d.f.pc = c.f.pc ∧ d.f.wait = .perform := by
  have hrun : exec (.pref w) s = waiting s c .perform := by
    refine (issuing_of_issues h _).trans ?_
    simp only [units_sound hc, Bool.false_eq_true, if_false, hl]
  rw [hrun]
  exact waiting_after h.ctx _

theorem pref_runs {es : List (W64 × TlbEntry)} {s1 : State}
    (hl : s.xlatLooks c ((c.units w.toCommon false).map fun l => c.globalVa l w.a.op w.imm) = some (es, s1))
    (hlost : ∀ x ∈ es, s1.homeLost (c.die s1) (lookPa x) = false) :
    exec (.pref w) s = finish (prefetchAll c (!w.hint.getLsbD 0) lookPa es s1) c := by
  have hnone : (es.find? fun x => s1.homeLost (c.die s1) (x.2.phys x.1.toNat)) = none :=
    List.find?_eq_none.2 fun x hx => by simpa [lookPa] using hlost x hx
  refine (issuing_of_issues h _).trans ?_
  simp only [units_sound hc, Bool.false_eq_true, if_false, hl, hnone]
  rfl

theorem pref_next {es : List (W64 × TlbEntry)} {s1 : State}
    (hl : s.xlatLooks c ((c.units w.toCommon false).map fun l => c.globalVa l w.a.op w.imm) = some (es, s1))
    (hlost : ∀ x ∈ es, s1.homeLost (c.die s1) (lookPa x) = false) :
    ∃ t, exec (.pref w) s = .next t ∧ PassedOn t c ∧
      (roomFor s c.cluster es.length → t.ram = s.ram ∧
        (∀ line x, tblFind (s.slice c.cluster) line = some x → tblFind (t.slice c.cluster) line = some x) ∧
        ∀ x ∈ es, c.level = .core → w.hint.getLsbD 0 = false → isHbm (lookPa x) = true →
          (tblFind (t.slice c.cluster) (lookPa x / 128)).isSome = true) ∧
      ∀ line x, tblFind (t.slice c.cluster) line = some x → tblFind (s.slice c.cluster) line = some x ∨
        c.level = .core ∧ w.hint.getLsbD 0 = false ∧ ∃ y ∈ es, line = lookPa y / 128 := by
  have hview := lookView_xlatLooks hl
  simp only [lookView, Prod.mk.injEq] at hview
  obtain ⟨hr1, hl1, -, hh1⟩ := hview
  have hhosts : hosts (prefetchAll c (!w.hint.getLsbD 0) lookPa es s1) = hosts s :=
    (foldl_same hosts _ es s1 fun s x => hosts_prefetchLine c _ s _).trans hh1
  obtain ⟨t, ht, ⟨hram, hl2, -⟩, hp, -⟩ := finish_next h.ctx hhosts
  refine ⟨t, (pref_runs h hc hl hlost).trans ht, hp, fun hroom => ?_, fun line x hx => ?_⟩
  · have hroom1 : roomFor s1 c.cluster es.length := by rwa [roomFor, slice_of_l2 hl1]
    obtain ⟨⟨hr2, hkept⟩, hin⟩ := prefetchAll_of_room (b := !w.hint.getLsbD 0) (pa := lookPa) es hroom1
    rw [slice_of_l2 hl1] at hkept
    rw [slice_of_l2 hl2]
    exact ⟨hram.trans (hr2.trans hr1), hkept, fun x hx hcore hb => hin x hx hcore (by rw [hb]; rfl)⟩
  · rw [slice_of_l2 hl2] at hx
    obtain hx | ⟨hcore, hb, hy⟩ := tblFind_of_prefetchAll es hx
    · exact .inl (by rwa [slice_of_l2 hl1] at hx)
    · exact .inr ⟨hcore, by simpa using hb, hy⟩

end

/-! ### FENCE (R126, R231) -/

section
variable {w : MemOp} {s : State} {c : Ctx} (h : Issues s (.fence w) c) (ha : c.acting w.guard ≠ [])
include h ha

theorem fenceRel_next (hk : w.kind = .rel) : ∃ t, exec (.fence w) s = .next t ∧ sameMemory s t ∧ PassedOn t c ∧
    After t c fun d => d.f.mark = markedBy c.f (c.scope w.scope) := by
  obtain ⟨t, ht, hm⟩ := finish_marked h.ctx rfl (c.scope w.scope)
  refine ⟨t, ((issuing_of_issues h _).trans ?_).trans ht, hm⟩
  simp [ha, hk]

theorem fenceAcq_next (hk : w.kind = .acq) (hp : acquirePending c = none) : ∃ t, exec (.fence w) s = .next t ∧
    sameMemory (s.acquire c (c.scope w.scope)) t ∧ PassedOn t c ∧ After t c fun d => d.f.mark = c.f.mark := by
  obtain ⟨t, ht, hm⟩ := finish_next h.ctx (hosts_acquire s c (c.scope w.scope))
  refine ⟨t, ((issuing_of_issues h _).trans ?_).trans ht, hm⟩
  simp [ha, hk, hp]

theorem fenceSc_done (hk : w.kind = .sc) (hp : acquirePending c = none) (hd : storesDone s c = true) :
    ∃ t, exec (.fence w) s = .next t ∧ PassedOn t c ∧ After t c fun d => d.f.mark = markedBy c.f (c.scope w.scope) := by
  obtain ⟨t, ht, -, hm⟩ := finish_marked (u := (s.release c (c.scope w.scope)).acquire c (c.scope w.scope)) h.ctx
    ((hosts_acquire _ _ _).trans (hosts_release _ _ _)) (c.scope w.scope)
  refine ⟨t, ((issuing_of_issues h _).trans ?_).trans ht, hm⟩
  simp [ha, hk, hp, hd]

theorem fenceSc_waits (hk : w.kind = .sc) (hp : acquirePending c = none) (hd : storesDone s c = false) :
    ∃ t, exec (.fence w) s = .next t ∧ sameMemory s t ∧
      After t c fun d => d.f.pc = c.f.pc ∧ d.f.wait = .perform ∧ d.f.mark = c.f.mark := by
  obtain ⟨t, ht, hm⟩ := waiting_next h.ctx .perform
  refine ⟨t, ((issuing_of_issues h _).trans ?_).trans ht, hm⟩
  simp [ha, hk, hp, hd]

end

/-- An acquire of a harbourmaster, or at a scope below `.stk`, touches no slice (R128). -/
theorem acquire_narrow {s : State} {c : Ctx} {sc : Scope} (h : c.level = .super ∨ scopeWide sc = false) : s.acquire c sc = s := by
  unfold State.acquire State.acquireAction
  rcases h with h | h <;> simp [h]

theorem acquire_wide {s : State} {c : Ctx} {sc : Scope} (hc : c.level ≠ .super) (hw : scopeWide sc = true) :
    s.acquire c sc = s.acquireSlice c.cluster := by simp [State.acquire, State.acquireAction, hc, hw]

/-- Settles O20: CCTL and the acquires by what becomes of each line of a slice, PREF and a miss by what a fill makes leave. -/
theorem cachesAndFences : Obligations.CachesAndFences := by
  unfold Obligations.CachesAndFences
  refine ⟨fun w s c ha => ?_, fun w s c h hc => ⟨pref_busy h hc, fun es s1 hl => pref_next h hc hl⟩,
    fun s cl line hs hlen => ?_, fun w s c h ha => ?_⟩
  · refine ⟨cctl_waits ha, fun hf hs => ⟨cctlWball_next ha hf hs, cctlInvall_next ha hf hs, cctlLine_busy ha hf, ?_⟩⟩
    refine fun hc l e s1 hu hx => ⟨fun h => ?_, fun h => ?_⟩
    · obtain ⟨t, ht, hp, hb, hfind⟩ := cctlLine_next ha hf hc hu hx h (issuing_of_issues h _) hosts_writeBack linesDone_writeBack
      refine ⟨t, ht, hp, hb, fun x hx => ?_⟩
      rw [hfind] at hx
      obtain ⟨l, -, rfl⟩ := Option.map_eq_some_iff.1 hx
      rfl
    · exact cctlLine_next ha hf hc hu hx h (issuing_of_issues h _) hosts_dropLine linesDone_dropLine
  · exact ⟨isSome_fillLine s cl line, length_fillLine_le line hlen,
      fun hroom => ⟨(fillLine_of_room hroom line).1, (fillLine_of_room hroom line).2.1⟩, fillLine_gone s cl line⟩
  · refine ⟨fenceRel_next h ha, fun hk hp => ?_, fun hk hp => ⟨fenceSc_done h ha hk hp, fenceSc_waits h ha hk hp⟩⟩
    obtain ⟨t, ht, hm, hpass, hmark⟩ := fenceAcq_next h ha hk hp
    refine ⟨t, ht, hpass, hmark, fun hn => by rwa [acquire_narrow hn] at hm, fun hc hw hs => ?_⟩
    rw [acquire_wide hc hw] at hm
    obtain ⟨hram, hl2, -⟩ := hm
    exact ⟨writtenBack_of_same (writtenBack_acquireSlice hs) rfl rfl hram, fun l => by
      rw [slice_of_l2 hl2]; exact mem_acquireSlice hs l⟩

end Sys2Proof.Proofs
end

section
/-! The work of a matrix queue: the end of its head entry, and what MLDB, MMA and MTBL write (R241, R255 to R260). -/

namespace Sys2Proof.Proofs

open Sys2Proof Sys2Proof.Machine Sys2Proof.Claims Sys2Proof.Laws

/-! ### Pairs and cores -/

@[simp] theorem pair_setPair_same (s : State) (p : Nat) (x : Pair) : (s.setPair p x).pair p = x := tblGet_tblSet_same _ _ _ _

@[simp] theorem buf_setBuf_same (x : Pair) (k : Nat) (b : StatBuf) : (x.setBuf k b).buf k = b := by
  unfold Pair.setBuf Pair.buf
  split <;> rfl

@[simp] theorem queue_setBuf (x : Pair) (k : Nat) (b : StatBuf) : (x.setBuf k b).queue = x.queue := by
  unfold Pair.setBuf
  split <;> rfl

theorem engineQueue_matrix (s : State) (p : Nat) : s.engineQueue (.matrix p) = (s.pair p).queue := rfl

/-- What a write of one core keeps there, every core keeps. -/
theorem core_setCore_keeps {γ : Type} (f : Core → γ) {s : State} {k : Nat} {x : Core} (h : f x = f (s.core k)) (i : Nat) :
    f ((s.setCore k x).core i) = f (s.core i) := by
  by_cases hi : k = i
  · subst hi; rw [core_setCore_same, h]
  · rw [core_setCore_ne s x hi]

theorem pair_drawn (s : State) (p : Nat) : s.drawn.pair p = s.pair p := rfl
theorem core_drawn (s : State) (k : Nat) : s.drawn.core k = s.core k := rfl
theorem block_drawn (s : State) : s.drawn.block? = s.block? := rfl
theorem vds_drawn (s : State) : s.drawn.vds = s.vds := rfl

/-! ### A cell of a structure that a loop fills -/

/-- A loop over numbers whose step `i` alone touches what `r` reads, by `F`. -/
theorem foldl_range_cell {β γ : Type} (r : β → γ) (k : β → Nat → β) (F : γ → γ) {n i : Nat} (hi : i < n)
    (hat : ∀ c, r (k c i) = F (r c)) (hoff : ∀ c, ∀ m < n, m ≠ i → r (k c m) = r c) (c : β) :
    r ((List.range n).foldl k c) = F (r c) := by
  induction n with
  | zero => omega
  | succ n ih =>
    rw [List.range_succ, List.foldl_append, List.foldl_cons, List.foldl_nil]
    by_cases hn : n = i
    · subst hn
      rw [hat, foldl_same_of_mem r k _ c fun c m hm => hoff c m (by have := List.mem_range.1 hm; omega)
        (by have := List.mem_range.1 hm; omega)]
    · rw [hoff _ n (by omega) hn, ih (by omega) fun c m hm => hoff c m (by omega)]

/-- A table filled at rising keys holds each value at its key. -/
theorem tblGet_fill (w : Nat → W32) {n i : Nat} (hi : i < n) :
    tblGet 0#32 ((List.range n).foldl (fun t i => tblSet 0#32 t i (w i)) []) i = w i :=
  foldl_range_cell (tblGet 0#32 · i) _ (fun _ => w i) hi (fun _ => tblGet_tblSet_same _ _ _ _)
    (fun _ _ _ h => tblGet_tblSet_ne _ _ _ h) []

/-! ### The head entry performs (R241) -/

section
variable {s : State} {q : QueueId} {e : QEntry} {rest : List QEntry}

/-- An entry at work performs at once: its guard has been tested (R243). -/
theorem performHead_atWork (h : AtWork s q e rest) (k : State → QEntry → State) : performHead s q k = .next (k s e) := by
  obtain ⟨hq, hb, hp, hr⟩ := h
  simp [performHead, testHead, hq, hb, hp, Nat.not_le.2 hr]

theorem performMatrix_atWork {p : Nat} (h : AtWork s (.matrix p) e rest) (hf : MatrixFree s p e) (k : State → QEntry → State) :
    performMatrix s p k = .next (k s e) := by
  obtain ⟨hfault, hwait⟩ := hf
  rw [performMatrix, performHead_atWork h]
  simp [hfault, hwait]

/-- Where the object of an entry lies depends on the blocks and the place tables alone (R103). -/
theorem quietEnd_of_places {t : State} (hb : t.block? = s.block?) (hv : t.vds = s.vds) (h : QuietEnd s e) : QuietEnd t e := by
  simpa only [QuietEnd, objectAt, QEntry.block?, scratchAt, State.vd, hb, hv] using h

/-- The lines that an entry frees are marks of its cores alone (R104). -/
theorem freeLines_keeps {γ : Type} (f : State → γ) (hf : ∀ s x k, f (State.lineWriter s x k) = f s) (s : State) (e : QEntry) :
    f (s.freeLines e) = f s :=
  foldl_same_of_mem f _ _ s fun s x _ => hf s x _

theorem freeLines_core {γ : Type} (f : Core → γ) (hf : ∀ (c : Core) w, f { c with writers := w } = f c) (s : State) (e : QEntry) (i : Nat) :
    f ((s.freeLines e).core i) = f (s.core i) :=
  freeLines_keeps (fun s => f (s.core i)) (fun _ _ _ => core_setCore_keeps f (hf _ _) i) s e

@[simp] theorem acc_scratchWrite (c : Core) (o : Nat) (bs : List Byte) : (c.scratchWrite o bs).acc = c.acc := rfl
@[simp] theorem acc_coreFrags (k : Frag → Frag) (c : Core) : (coreFrags k c).acc = c.acc := rfl

/-- An arrival at an object reaches no pair and no accumulator (R235). -/
theorem objArrive_pairs (s : State) (k off n : Nat) (skip : Bool) : (s.objArrive k off n skip).pairs = s.pairs := rfl

theorem objArrive_acc (s : State) (k off n : Nat) (skip : Bool) (i : Nat) : ((s.objArrive k off n skip).core i).acc = (s.core i).acc := by
  rw [State.objArrive, State.scratchWrite, core_mapFrags, acc_coreFrags]
  exact core_setCore_keeps (x := (s.core k).scratchWrite off _) Core.acc (acc_scratchWrite ..) i

/-- The arrival of an entry that ends quietly: none, or one at its object (R241). -/
theorem completeObject_quiet (h : QuietEnd s e) (skip : Bool) :
    completeObject s e skip = s ∨ ∃ k off, completeObject s e skip = s.objArrive k off 1 skip := by
  obtain ⟨-, ho | ⟨k, off, a, b, ho, hb, hat⟩⟩ := h
  · exact .inl (by simp [completeObject, ho])
  · exact .inr ⟨k, off, by simp [completeObject, ho, hb, hat]⟩

theorem completeObject_keeps (h : QuietEnd s e) (skip : Bool) : (completeObject s e skip).pairs = s.pairs ∧
    ∀ i, ((completeObject s e skip).core i).acc = (s.core i).acc := by
  rcases completeObject_quiet h skip with hc | ⟨k, off, hc⟩ <;> rw [hc]
  · exact ⟨rfl, fun _ => rfl⟩
  · exact ⟨objArrive_pairs .., objArrive_acc s k off 1 skip⟩

/-- An entry of a matrix queue that performs and ends quietly leaves its queue, and changes nothing else of its pair and no
accumulator (R241). -/
theorem performEntry_matrix (h : QuietEnd s e) (p : Nat) :
    (performEntry s (.matrix p) e).pair p = { s.pair p with queue := (s.pair p).queue.tail } ∧
      ∀ i, ((performEntry s (.matrix p) e).core i).acc = (s.core i).acc := by
  have hquiet : QuietEnd (((s.freeLines e).dropPages e).dropHead (.matrix p)) e :=
    quietEnd_of_places (funext (freeLines_core Core.block (fun _ _ => rfl) s e)) (freeLines_keeps State.vds (fun _ _ _ => rfl) s e) h
  have hpair : (s.freeLines e).pair p = s.pair p :=
    congrArg (tblGet Pair.empty · p) (freeLines_keeps State.pairs (fun _ _ _ => rfl) s e)
  have hperf : performEntry s (.matrix p) e = completeObject (((s.freeLines e).dropPages e).dropHead (.matrix p)) e false := by
    simp [performEntry, endEntry, taintRecord, h.1]
  obtain ⟨hpairs, hacc⟩ := completeObject_keeps hquiet false
  rw [hperf]
  refine ⟨?_, fun i => (hacc i).trans (freeLines_core Core.acc (fun _ _ => rfl) s e i)⟩
  calc State.pair _ p = (((s.freeLines e).dropPages e).dropHead (.matrix p)).pair p := congrArg (tblGet Pair.empty · p) hpairs
    _ = { (s.freeLines e).pair p with queue := ((s.freeLines e).pair p).queue.tail } := pair_setPair_same _ _ _
    _ = _ := by rw [hpair]

end

/-- An entry that writes its pair performs: the pair is what it has written, without the head of its queue. -/
theorem performEntry_setPair {s : State} {p : Nat} {x : Pair} {d e : QEntry} {rest : List QEntry} (h : QuietEnd s e)
    (hx : x.queue = d :: rest) : (performEntry (s.setPair p x) (.matrix p) e).pair p = { x with queue := rest } := by
  obtain ⟨hpair, -⟩ := performEntry_matrix (s := s.setPair p x) (quietEnd_of_places rfl rfl h) p
  rw [hpair, pair_setPair_same, hx, List.tail_cons]

/-! ### MLDB (R255, R256) and MTBL (R260) -/

theorem mldbPerformed_eq (s : State) (p : Nat) : exec (.mldbPerformed p) s = execMldbPerformed p s := rfl
theorem mtblPerformed_eq (s : State) (p : Nat) : exec (.mtblPerformed p) s = execMtblPerformed p s := rfl
theorem mmaPerformed_eq (s : State) (p : Nat) : exec (.mmaPerformed p) s = execMmaPerformed p s := rfl

section
variable {s : State} {p : Nat} {e : QEntry} {rest : List QEntry} (h : AtWork s (.matrix p) e rest) (hq : QuietEnd s e)
include h hq

theorem mldbPerformed_next {k q : Nat} {ty : Ty} {west : Bool} {data : List (List W32)} {scales : List Byte}
    (hop : e.op = .mldb k q ty west data scales) :
    ∃ t, exec (.mldbPerformed p) s = .next t ∧ t.engineQueue (.matrix p) = rest ∧
      (t.pair p).buf k = ((s.pair p).buf k).load q ⟨ty, west, data, scales⟩ := by
  have hpair := performEntry_setPair (p := p) (x := (s.pair p).setBuf k (((s.pair p).buf k).load q ⟨ty, west, data, scales⟩)) hq
    ((queue_setBuf ..).trans h.1)
  refine ⟨_, ?_, congrArg Pair.queue hpair, (congrArg (Pair.buf · k) hpair).trans (buf_setBuf_same (s.pair p) k _)⟩
  rw [mldbPerformed_eq, execMldbPerformed, performHead_atWork h]
  simp only [hop]

theorem mtblPerformed_next {a : W32} (hop : e.op = .mtbl a) (hf : MatrixFree s p e)
    (hbad : (s.core (2 * p)).scratchPoisoned a.toNat 2064 = false) :
    ∃ t, exec (.mtblPerformed p) s = .next t ∧ t.engineQueue (.matrix p) = rest ∧
      let w (o : Nat) : W32 := BitVec.ofNat 32 (leNat ((s.core (2 * p)).scratchRead (a.toNat + o) 4))
      (t.pair p).lo = w 0 ∧ (t.pair p).scl = w 4 ∧
        ∀ i < 256, tblGet 0#32 (t.pair p).slope i = w (16 + 8 * i) ∧ tblGet 0#32 (t.pair p).icpt i = w (20 + 8 * i) := by
  refine ⟨mtblPerform s p e, ?_, ?_⟩
  · rw [mtblPerformed_eq, execMtblPerformed, performMatrix_atWork h hf]
  · simp only [mtblPerform, hop, hbad, Bool.false_eq_true, if_false, State.engineQueue]
    rw [performEntry_setPair (d := e) (rest := rest) ?quiet ?head]
    case quiet => exact hq
    case head => exact h.1
    dsimp only
    exact ⟨rfl, rfl, rfl, fun i hi => ⟨by rw [tblGet_fill _ hi], by rw [tblGet_fill _ hi]⟩⟩

end

/-- The quarter that a load names is what it captured, and the others are as before (R256). -/
theorem quarters_load (b : StatBuf) (q : Nat) (x : Quarter) :
    (b.load q x).qv = (if b.qv = 0xF#4 then 0#4 else b.qv) ||| (1#4 <<< q) ∧
      tblFind (b.load q x).quarters q = some x ∧ ∀ q', q' ≠ q → tblFind (b.load q x).quarters q' = tblFind b.quarters q' := by
  refine ⟨by simp [StatBuf.load], tblFind_tblInsert_same _ _ _, fun q' hq' => tblFind_tblInsert_ne _ _ (Ne.symm hq')⟩

/-! ### The rows of an MMA (R99, R100, R258) -/

theorem accIndex_inj {n i m j l : Nat} (hj : j < 32) (hl : l < 32) (h : accIndex n i j = accIndex n m l) : i = m ∧ j = l := by
  unfold accIndex at h
  omega

theorem accWord_of_acc {c d : Core} (h : c.acc = d.acc) (m : Nat) : c.accWord m = d.accWord m := by
  rw [Core.accWord, Core.accWord, h]

@[simp] theorem accWord_setAcc_same (c : Core) (m : Nat) (x : W32) : (c.setAcc m x).accWord m = x := tblGet_tblSet_same _ _ _ _

theorem accWord_setAcc_ne (c : Core) {m l : Nat} (x : W32) (h : m ≠ l) : (c.setAcc m x).accWord l = c.accWord l :=
  tblGet_tblSet_ne _ _ _ h

@[simp] theorem accWord_rowPoison (c : Core) (t : Ty) (n i m : Nat) (z bad : Bool) :
    (rowPoison c t n i z bad).accWord m = c.accWord m := by
  unfold rowPoison
  split
  · rfl
  · split <;> rfl

/-- What a pass leaves of the accumulator word that it finds (R258). -/
def passWord (t : Ty) (z : Bool) (as bs : List FVal) (x : W32) : W32 :=
  BitVec.ofNat 32 (passElement t (if z then 0 else x.toNat) as bs)

theorem words_single (x : Nat) : words 32 x = [BitVec.ofNat 32 x] := by
  simp [words, elements, element, bitField, List.range_succ, BitVec.ofNat, Fin.ofNat]

theorem packElements_word (x : W32) : packElements 32 [x.toNat] = x.toNat := by
  simpa [packElements] using x.isLt

theorem foldl_zip_range {α β : Type} (k : β → Nat × α → β) (f : Nat → α) (n : Nat) (c : β) :
    ((List.range n).zip ((List.range n).map f)).foldl k c = (List.range n).foldl (fun c i => k c (i, f i)) c := by
  have hzip := List.zip_map' (f := id) (g := f) (l := List.range n)
  rw [List.map_id] at hzip
  rw [hzip, List.foldl_map]
  rfl

section
variable {t : Ty} (ht : t ≠ .f64) (c : Core) (n i : Nat) (z : Bool) (as : List FVal) (col : Nat → List FVal)
include ht

/-- A row of a tile of single words goes through its columns, each from what the row held (R258). -/
theorem passRow_eq : passRow c t n i z as ((List.range 32).map col) = (List.range 32).foldl (fun d j =>
    d.setAcc (accIndex n i j) (passWord t z as (col j) (c.accWord (accIndex n i j)))) c := by
  rw [passRow, foldl_zip_range]
  simp [accPlaces, ht, words_single, packElements_word, passWord]

theorem accWord_passRow {j : Nat} (hj : j < 32) : (passRow c t n i z as ((List.range 32).map col)).accWord (accIndex n i j) =
    passWord t z as (col j) (c.accWord (accIndex n i j)) := by
  rw [passRow_eq ht]
  refine foldl_range_cell (·.accWord (accIndex n i j)) _ (fun _ => passWord t z as (col j) (c.accWord (accIndex n i j))) hj
    (fun d => ?_) (fun d l hl hne => ?_) c
  · exact accWord_setAcc_same ..
  · exact accWord_setAcc_ne d _ fun h => hne (accIndex_inj hl hj h).2

theorem accWord_passRow_ne {m j : Nat} (hj : j < 32) (hm : i ≠ m) :
    (passRow c t n i z as ((List.range 32).map col)).accWord (accIndex n m j) = c.accWord (accIndex n m j) := by
  rw [passRow_eq ht]
  exact foldl_same_of_mem (·.accWord (accIndex n m j)) _ _ c fun d l hl =>
    accWord_setAcc_ne d _ fun h => hm (accIndex_inj (List.mem_range.1 hl) hj h).1

/-- Each element of a tile after an MMA on one core: the pass over its row of A and its column of the buffer (R258). -/
theorem accWord_mmaCore (rows : Core) (b : StatBuf) (free a stride scales : Nat) {j : Nat} (hi : i < 128) (hj : j < 32) :
    (mmaCore rows c b free t n z a stride scales).accWord (accIndex n i j) =
      passWord t z (rowValues rows t ((a + i * stride) % 2 ^ 32) i scales) ((List.range (passK t)).map fun q => b.value free t q j)
        (c.accWord (accIndex n i j)) := by
  rw [mmaCore, rowStarts, foldl_zip_range]
  refine foldl_range_cell (·.accWord (accIndex n i j)) _ (passWord t z _ _) hi (fun d => ?_) (fun d m _ hm => ?_) c
  · rw [accWord_rowPoison, accWord_passRow ht d n i z _ _ hj]
  · rw [accWord_rowPoison, accWord_passRow_ne ht d n m z _ _ hj hm]

end

/-- An MMA changes no block of a core. -/
theorem block_mmaCore (rows c : Core) (b : StatBuf) (free : Nat) (t : Ty) (n : Nat) (z : Bool) (a stride scales : Nat) :
    (mmaCore rows c b free t n z a stride scales).block = c.block := by
  refine foldl_same_of_mem Core.block _ _ c fun d x _ => ?_
  have hpoison (d : Core) (bad : Bool) : (rowPoison d t n x.1 z bad).block = d.block := by
    unfold rowPoison
    split
    · rfl
    · split <;> rfl
  rw [hpoison]
  exact foldl_same_of_mem Core.block _ _ d fun d _ _ => foldl_same_of_mem Core.block _ _ d fun _ _ _ => rfl

/-! ### An MMA on both cores of its pair (R258) -/

/-- The pass of an MMA over one core. -/
def passCore (b : StatBuf) (t : Ty) (n : Nat) (z : Bool) (a stride scales : Nat) (s : State) (k : Nat) : State :=
  s.setCore k (mmaCore (s.core k) (s.core k) b s.freeCtr t n z a stride scales)

section
variable (s : State) (p : Nat) (b : StatBuf) (t : Ty) (n : Nat) (z : Bool) (a stride scales : Nat)

/-- The pass over both cores of a pair. -/
def passPair : State := (pairCores p).foldl (passCore b t n z a stride scales) s

theorem core_passPair {x : Nat} (hx : x ∈ pairCores p) : (passPair s p b t n z a stride scales).core x =
    mmaCore (s.core x) (s.core x) b s.freeCtr t n z a stride scales := by
  have hne : 2 * p ≠ 2 * p + 1 := by omega
  obtain rfl | rfl : x = 2 * p ∨ x = 2 * p + 1 := by simpa [pairCores] using hx
  · simp [passPair, pairCores, passCore, core_setCore_ne _ _ hne.symm]
  · simp [passPair, pairCores, passCore, core_setCore_ne _ _ hne]

theorem block_passPair : (passPair s p b t n z a stride scales).block? = s.block? :=
  foldl_same_of_mem State.block? _ _ s fun _ _ _ => funext (core_setCore_keeps Core.block (block_mmaCore ..))

theorem vds_passPair : (passPair s p b t n z a stride scales).vds = s.vds :=
  foldl_same_of_mem State.vds _ _ s fun _ _ _ => rfl

theorem pair_passPair (q : Nat) : (passPair s p b t n z a stride scales).pair q = s.pair q :=
  foldl_same_of_mem (State.pair · q) _ _ s fun _ _ _ => rfl

end

section
variable {s : State} {p : Nat} {e : QEntry} {rest : List QEntry} {ty : Ty} {n k : Nat} {z : Bool} {a b c : W32}
  (hop : e.op = .mma ty n k z false a b c)
  (hclean : ∀ x ∈ pairCores p, mmaTaint (s.core x) ty a.toNat b.toNat c.toNat = false)
include hop hclean

theorem mmaPerform_eq : mmaPerform s p e =
    performEntry (passPair s p ((s.pair p).buf k) ty n z a.toNat b.toNat c.toNat).drawn (.matrix p) e := by
  have htaint : ((pairCores p).any fun x => mmaTaint (s.core x) ty a.toNat b.toNat c.toNat) = false := by simpa using hclean
  unfold mmaPerform
  split
  · rename_i heq
    cases hop.symm.trans heq
    simp only [Bool.false_eq_true, if_false, htaint]
    rfl
  · rename_i hno
    exact absurd hop (hno _ _ _ _ _ _ _ _)

theorem mmaPerformed_next (h : AtWork s (.matrix p) e rest) (hq : QuietEnd s e) (ht : ty ≠ .f64) (hf : MatrixFree s p e) :
    ∃ t, exec (.mmaPerformed p) s = .next t ∧ t.engineQueue (.matrix p) = rest ∧
      ∀ x ∈ pairCores p, ∀ i < 128, ∀ j < 32, (t.core x).accWord (accIndex n i j) =
        passWord ty z (rowValues (s.core x) ty ((a.toNat + i * b.toNat) % 2 ^ 32) i c.toNat)
          ((List.range (passK ty)).map fun q => ((s.pair p).buf k).value s.freeCtr ty q j) ((s.core x).accWord (accIndex n i j)) := by
  refine ⟨mmaPerform s p e, ?_, ?_⟩
  · rw [mmaPerformed_eq, execMmaPerformed, performMatrix_atWork h hf]
  rw [mmaPerform_eq hop hclean]
  have hquiet := quietEnd_of_places (t := (passPair s p ((s.pair p).buf k) ty n z a.toNat b.toNat c.toNat).drawn)
    ((block_drawn _).trans (block_passPair ..)) ((vds_drawn _).trans (vds_passPair ..)) hq
  obtain ⟨hpair, hacc⟩ := performEntry_matrix hquiet p
  have hsame : (passPair s p ((s.pair p).buf k) ty n z a.toNat b.toNat c.toNat).drawn.pair p = s.pair p :=
    (pair_drawn _ p).trans (pair_passPair s p _ ty n z _ _ _ p)
  have hhead : (s.pair p).queue = e :: rest := h.1
  refine ⟨by rw [engineQueue_matrix, hpair, hsame, hhead, List.tail_cons], fun x hx i hi j hj => ?_⟩
  have hcore : ((passPair s p ((s.pair p).buf k) ty n z a.toNat b.toNat c.toNat).drawn).core x = mmaCore (s.core x) (s.core x)
    ((s.pair p).buf k) s.freeCtr ty n z a.toNat b.toNat c.toNat :=
    (core_drawn _ x).trans (core_passPair s p _ ty n z _ _ _ hx)
  rw [accWord_of_acc (hacc x), hcore, accWord_mmaCore ht (s.core x) n i z (s.core x) _ _ _ _ _ hi hj]

end

/-- Settles O31: each of MLDB, MMA and MTBL by its own lemma, at an entry that is at work and ends quietly. -/
theorem matrixPerforms : Obligations.MatrixPerforms := by
  unfold Obligations.MatrixPerforms
  intro p s e rest h hq
  refine ⟨fun k q ty west data scales hop => ?_, fun ty n k z a b c hop ht hf hclean => ?_, fun a hop hf hbad => ?_⟩
  · obtain ⟨t, ht, hqueue, hbuf⟩ := mldbPerformed_next h hq hop
    refine ⟨t, ht, hqueue, ?_⟩
    simp only [hbuf]
    exact quarters_load _ q _
  · exact mmaPerformed_next hop hclean h hq ht hf
  · exact mtblPerformed_next h hq hop hf hbad

end Sys2Proof.Proofs
end

section
/-! A message of a collective that reaches a member whose table is poisoned (R388, R389): O33 fails there. -/

namespace Sys2Proof.Proofs

open Sys2Proof Sys2Proof.Machine Sys2Proof.Claims Sys2Proof.Laws

/-! ### A member that does not list the sender back -/

theorem chunkExponentUp_eq (s : State) (m : ChunkMsg) : exec (.chunkExponentUp m) s = execChunkExponentUp m s := rfl

/-- A message within the module to a member that does not list its sender back changes nothing there: the sender detects the
breach (R389). -/
theorem chunkArrives_unlisted {s : State} {m : ChunkMsg} {stage : Stage}
    {k : State → QueueId → QEntry → CollJob → CollRun → Nat → Out} (hst : m.stage = stage.code) (hc : chunkComes s m = true)
    (hm : moduleOf m.src = moduleOf m.dst) (hl : (s.member (m.dst.toNat % 32) m.vd m.table).listsBack m = false) :
    chunkArrives s m stage k = .next (treeBreach (s.takeChunk m) m) := by
  simp [chunkArrives, hst, hc, hm, hl]

/-- A poisoned table lists nobody back: it acts as V = 0 (R388). -/
theorem listsBack_poisoned {t : Member} (h : t.bad ≠ []) (m : ChunkMsg) : t.listsBack m = false := by
  simp [Member.listsBack, Member.valid, h]

/-- A sender that works on no COLL detects no breach (R389). -/
theorem treeBreach_idle {s : State} {m : ChunkMsg} (h : s.engineQueue (.coll m.vd (m.src.toNat % 32)) = []) :
    treeBreach s m = s := by
  simp [treeBreach, h]

/-! ### The counterexample -/

/-- The table of the root of a tree of three members, with the children on dies 1 and 2 of its module; an uncorrectable error has
poisoned its first word (R312, R388). -/
def poisonedTable : Member where
  words := [(0, 0x80000002#32), (3, 0xFFFFFFFF#32), (4, 2#32), (5, 1#32), (6, 2#32)]
  j := 1
  broken := false
  bad := [4, 0]
  aborts := []

/-- A COLL of that member over four .f32 elements, begun and triggered, with nothing heard from its children. -/
def waitingRun : CollRun where
  j := 0
  watch := none
  triggered := true
  chunks := []
  aborted := false
  waits := []

def waitingColl : QEntry where
  id := 1
  fe := 0
  vd := 0
  core := 0
  block := 0
  gang := 0
  warp := 0
  pc := 0
  serial := 1
  obj := none
  gate := none
  op := .coll .f32 0 0 [(0, 0x00200000#32), (2, 0x100#32), (4, 0x200#32), (6, 4#32)] 0#32 none 0#32
  passed := true
  begun := true
  progress := 0
  page := none
  retries := 0
  lines := []
  taint := none
  spoilt := []
  run := some waitingRun

def waitingJob : CollJob := ⟨0, 0, 0, poisonedTable, .f32, 0, 4, 0#32, 0x100, 0x200⟩

/-- The exponent of the subtree of die 1 (R313). -/
def childExponent : ChunkMsg where
  src := 1#32
  dst := 0#32
  vd := 0
  table := 0
  header := chunkHeader 0#32 0 0 (some 3) .expUp false 511#16 1
  payload := []
  cmd := waitingJob.cmd
  mixed := false

/-- The module with the COLL at the head of the queue of die 0, and the message on its way from die 1. -/
def poisonedMember : State :=
  { State.reset with
    kqueues := [(0, [waitingColl])]
    members := [(0, poisonedTable)]
    dies := [(0, { Die.empty with up := 0x1F#5 }), (1, { Die.empty with up := 0x1F#5 })]
    fabric := [childExponent] }

/-- The message meets every condition of O33: it comes from child 0, number 1. -/
theorem receives_childExponent : Receives poisonedMember childExponent waitingColl [] waitingJob waitingRun 1 where
  head := rfl
  page := rfl
  job := rfl
  run := rfl
  comes := by decide +kernel
  group := by decide +kernel
  index := by decide +kernel
  live := ⟨rfl, rfl, rfl⟩
  same := ⟨rfl, rfl⟩
  sender := by decide +kernel

/-- The message is taken from the fabric and nothing else happens (R388, R389). -/
theorem chunkExponentUp_poisonedMember :
    exec (.chunkExponentUp childExponent) poisonedMember = .next (poisonedMember.takeChunk childExponent) := by
  rw [chunkExponentUp_eq, execChunkExponentUp, chunkArrives_unlisted (by decide +kernel) receives_childExponent.comes rfl
    (listsBack_poisoned (t := poisonedTable) (by simp [poisonedTable]) childExponent)]
  exact congrArg Host.Outcome.next (treeBreach_idle rfl)

/-- Refutes O33: `Receives` does not ask that the member's table is valid. Where an uncorrectable error has poisoned it since the
COLL began, it acts as V = 0 (R388), so the exponent of a child's subtree finds no member that lists the child back (R389): it is
dropped, and does not join. -/
theorem not_chunksFlow : ¬ Obligations.ChunksFlow := by
  unfold Obligations.ChunksFlow
  intro h
  obtain ⟨hup, -⟩ := h poisonedMember childExponent waitingColl [] waitingJob waitingRun 1 receives_childExponent
  obtain ⟨t, ht, -, e, r, hhead, hrun, hfrom, -⟩ := hup (by decide +kernel) ⟨by decide +kernel, fun _ _ _ => rfl⟩ (by decide +kernel)
    (by decide +kernel) (by decide +kernel)
  rw [chunkExponentUp_poisonedMember] at ht
  cases ht
  have he : e = waitingColl := (List.cons.inj hhead).1.symm
  subst he
  have hr : r = waitingRun := (Option.some.inj hrun).symm
  subst hr
  exact absurd hfrom (by decide +kernel)

end Sys2Proof.Proofs
end
